-- ==== Sys2Proof/Word.lean ====
section
/-! DEFINITION. The plain word types of the Puphor architecture (R4, R6). -/
namespace Sys2Proof

/-- A 32-bit register, instruction word or literal (R74). -/
abbrev Word := BitVec 32
/-- One 8-bit byte of a memory (R4). -/
abbrev Byte := BitVec 8
/-- One bit per lane of a group, bit i = lane i; a group has 32, 64 or 128 lanes (R94). -/
abbrev Mask := BitVec 128

end Sys2Proof
end

