-- ==== Sys2Proof/Machine/Bits.lean ====
section
/-! DEFINITION. Bit fields, sign extension, byte order and counting of bits (R4), over natural numbers. -/
namespace Sys2Proof.Machine

/-- Bits `lo + n − 1 : lo` of `x`, as a number. -/
def bits (x lo n : Nat) : Nat := (x >>> lo) % 2 ^ n

/-- Bit `i` of `x`. -/
def bit (x i : Nat) : Bool := (x >>> i) % 2 == 1

/-- 1 for true and 0 for false. -/
def ofBool (b : Bool) : Nat := if b then 1 else 0

/-- The two's-complement value of the low `n` bits of `x`. -/
def sext (n x : Nat) : Int :=
  let y := x % 2 ^ n
  if y < 2 ^ (n - 1) then (y : Int) else (y : Int) - (2 ^ n : Nat)

/-- An integer taken modulo 2^n as an unsigned number. -/
def wrap (n : Nat) (x : Int) : Nat := (x % ((2 ^ n : Nat) : Int)).toNat

/-- An integer clamped to the range `lo` to `hi`. -/
def clamp (lo hi x : Int) : Int := if x < lo then lo else if hi < x then hi else x

/-- Little-endian bytes to a number. -/
def ofBytes : List Byte → Nat
  | [] => 0
  | b :: bs => b.toNat + 256 * ofBytes bs

/-- The `n` little-endian bytes of a number. -/
def toBytes : Nat → Nat → List Byte
  | 0, _ => []
  | n + 1, x => BitVec.ofNat 8 x :: toBytes n (x / 256)

/-- The numbers 0 to n − 1 in rising order. -/
def upto (n : Nat) : List Nat := List.range n

/-- The lanes of a mask in rising order. -/
def lanesOf (m : Mask) : List Nat := (List.range 128).filter (fun i => m.getLsbD i)

/-- The mask that holds the listed lanes. -/
def maskOf (l : List Nat) : Mask := l.foldl (fun m i => m ||| BitVec.ofNat 128 (2 ^ i)) 0

/-- The lowest lane of a mask; 0 when it is empty. -/
def lowest (m : Mask) : Nat := ((List.range 128).find? (fun i => m.getLsbD i)).getD 0

/-- Whether the mask holds lane `i`. -/
def inMask (m : Mask) (i : Nat) : Bool := m.getLsbD i

/-- The mask of the first `n` lanes. -/
def firstLanes (n : Nat) : Mask := BitVec.ofNat 128 (2 ^ n - 1)

/-- The number of one bits among the low `n` bits of `x`. -/
def popCount : Nat → Nat → Nat
  | 0, _ => 0
  | n + 1, x => x % 2 + popCount n (x / 2)

/-- The low `n` bits of `x` in reversed order. -/
def bitReverse : Nat → Nat → Nat
  | 0, _ => 0
  | n + 1, x => (x % 2) * 2 ^ n + bitReverse n (x / 2)

/-- The number of binary digits of `x`; 0 for 0. -/
def bitLength (x : Nat) : Nat := if x == 0 then 0 else Nat.log2 x + 1

/-- The number of leading zeros of the `n`-bit number `x`. -/
def leadingZeros (n x : Nat) : Nat := n - bitLength x

/-- The first element of a list that satisfies `p`, with its position. -/
def findIdx {α : Type} (p : α → Bool) : Nat → List α → Option (Nat × α)
  | _, [] => none
  | n, a :: l => if p a then some (n, a) else findIdx p (n + 1) l

/-- The list with its element at position `n` replaced. -/
def setNth {α : Type} (l : List α) (n : Nat) (a : α) : List α := l.set n a

/-- Rounding up a quotient. -/
def ceilDiv (a b : Nat) : Nat := (a + b - 1) / b

end Sys2Proof.Machine
end

