-- ==== Sys2Proof/Machine/Num.lean ====
section
/-! DEFINITION. Number formats, rounding and the sums of chapter 7 (R116 to R130): numbers are exact dyadics,
every operation is exact and rounds once at the end. A result is `none` where the spec gives Poison(FP_INVALID). -/
namespace Sys2Proof.Machine

/-- A number as an instruction sees it: a NaN (signalling or quiet), an infinity, or the exact value
(−1)^neg × m × 2^e; a zero keeps its sign (R117, R118). -/
inductive FNum where
  | nan (signalling : Bool)
  | inf (neg : Bool)
  | fin (neg : Bool) (m : Nat) (e : Int)
deriving DecidableEq, Repr

/-- An IEEE-style format: exponent bits and fraction bits (R116). -/
structure FFmt where
  ebits : Nat
  fbits : Nat
deriving DecidableEq, Repr

def fp64 : FFmt := ⟨11, 52⟩
def fp32 : FFmt := ⟨8, 23⟩
def fp16 : FFmt := ⟨5, 10⟩
def bf16 : FFmt := ⟨8, 7⟩

/-- Rounding modes (R124). -/
inductive RMode where
  | rne | rz | rd | ru
deriving DecidableEq, Repr

/-- The mode of a code 0–3; codes 4–7 are reserved (R124). -/
def rmodeOf (c : Nat) : Option RMode :=
  match c with
  | 0 => some .rne
  | 1 => some .rz
  | 2 => some .rd
  | 3 => some .ru
  | _ => none

namespace FFmt

def width (F : FFmt) : Nat := 1 + F.ebits + F.fbits
/-- Pattern of +∞. -/
def infBits (F : FFmt) : Nat := (2 ^ F.ebits - 1) * 2 ^ F.fbits
def signBit (F : FFmt) : Nat := 2 ^ (F.ebits + F.fbits)
/-- The canonical quiet NaN (R117). -/
def qnan (F : FFmt) : Nat := F.infBits + 2 ^ (F.fbits - 1)
/-- Pattern of the largest finite value. -/
def maxBits (F : FFmt) : Nat := F.infBits - 1
def bias (F : FFmt) : Nat := 2 ^ (F.ebits - 1) - 1
/-- The exponent of the least significant bit of a subnormal. -/
def qmin (F : FFmt) : Int := 1 - (F.bias : Int) - (F.fbits : Int)

/-- The number a pattern of the format stands for (R116, R117). -/
def decode (F : FFmt) (b : Nat) : FNum :=
  let neg := bit b (F.ebits + F.fbits)
  let ex := bits b F.fbits F.ebits
  let fr := bits b 0 F.fbits
  if ex == 2 ^ F.ebits - 1 then
    if fr == 0 then .inf neg else .nan (!bit fr (F.fbits - 1))
  else if ex == 0 then .fin neg fr F.qmin
  else .fin neg (fr + 2 ^ F.fbits) (F.qmin + (ex : Int) - 1)

end FFmt

/-- `m × 2^e` cut to a multiple of 2^q: the quotient, and whether the rest is 0 (0), below a half (1), a half (2) or
above a half (3) of 2^q. -/
def cut (m : Nat) (e q : Int) : Nat × Nat :=
  if q ≤ e then (m <<< (e - q).toNat, 0)
  else
    let k := (q - e).toNat
    let rest := m % 2 ^ k
    let half := 2 ^ (k - 1)
    (m >>> k, if rest == 0 then 0 else if rest < half then 1 else if rest == half then 2 else 3)

/-- Whether a magnitude with quotient `n` and rest code `r` rounds away from zero (R124). -/
def roundsUp (mode : RMode) (neg : Bool) (n r : Nat) : Bool :=
  match mode with
  | .rne => r == 3 || (r == 2 && n % 2 == 1)
  | .rz => false
  | .rd => neg && r != 0
  | .ru => !neg && r != 0

/-- `RoundFloat` of an exact finite number (R126). -/
def roundFin (F : FFmt) (mode : RMode) (neg : Bool) (m : Nat) (e : Int) : Nat :=
  let s := if neg then F.signBit else 0
  if m == 0 then s
  else
    let top : Int := e + (Nat.log2 m : Int)
    let q : Int := if top - (F.fbits : Int) < F.qmin then F.qmin else top - (F.fbits : Int)
    let (n, r) := cut m e q
    let n := if roundsUp mode neg n r then n + 1 else n
    let b := (q - F.qmin).toNat * 2 ^ F.fbits + n
    if b < F.infBits then s + b
    else
      s + match mode, neg with
          | .rne, _ => F.infBits
          | .rz, _ => F.maxBits
          | .rd, true => F.infBits
          | .rd, false => F.maxBits
          | .ru, true => F.maxBits
          | .ru, false => F.infBits

/-- `RoundFloat` of a number that is no signalling NaN; a NaN gives the canonical quiet NaN (R117, R126, R127). -/
def roundFloat (F : FFmt) (mode : RMode) : FNum → Nat
  | .nan _ => F.qnan
  | .inf neg => (if neg then F.signBit else 0) + F.infBits
  | .fin neg m e => roundFin F mode neg m e

/-- The signed integer part of `±m × 2^e` rounded by the mode (R126). -/
def roundToInt (mode : RMode) (neg : Bool) (m : Nat) (e : Int) : Int :=
  let (n, r) := cut m e 0
  let n := if roundsUp mode neg n r then n + 1 else n
  if neg then -(n : Int) else (n : Int)

/-- `RoundInt` (R126): `none` is Poison(FP_INVALID). -/
def roundInt (lo hi : Int) (mode : RMode) : FNum → Option Int
  | .nan _ => none
  | .inf neg => some (if neg then lo else hi)
  | .fin neg m e => some (clamp lo hi (roundToInt mode neg m e))

namespace FNum

def isNaN : FNum → Bool
  | .nan _ => true
  | _ => false
def isSNaN : FNum → Bool
  | .nan s => s
  | _ => false
def isInf : FNum → Bool
  | .inf _ => true
  | _ => false
def isZero : FNum → Bool
  | .fin _ m _ => m == 0
  | _ => false
def isNeg : FNum → Bool
  | .nan _ => false
  | .inf s => s
  | .fin s _ _ => s
/-- The number scaled by 2^k exactly (R125). -/
def scale (k : Int) : FNum → FNum
  | .fin s m e => .fin s m (e + k)
  | x => x
/-- An exact integer. -/
def ofInt (x : Int) : FNum := .fin (decide (x < 0)) x.natAbs 0

/-- The finite value as an integer multiple of 2^q, for q at or below its exponent. -/
def units (q : Int) (s : Bool) (m : Nat) (e : Int) : Int :=
  let n : Int := ((m <<< (e - q).toNat : Nat) : Int)
  if s then -n else n

/-- A number from an integer multiple of 2^q; `z` is the sign of an exact zero. -/
def ofUnits (q : Int) (z : Bool) (x : Int) : FNum := if x == 0 then .fin z 0 q else .fin (decide (x < 0)) x.natAbs q

/-- The exact order of two numbers that are no NaN, as the sign of their difference; −0 = +0. -/
def cmp : FNum → FNum → Int
  | .inf a, .inf b => if a == b then 0 else if a then -1 else 1
  | .inf a, _ => if a then -1 else 1
  | _, .inf b => if b then 1 else -1
  | .fin s m e, .fin t n f =>
    let q := if e < f then e else f
    let d := units q s m e - units q t n f
    if d < 0 then -1 else if 0 < d then 1 else 0
  | _, _ => 0

/-- The exact sum, with the sign rules of IEEE 754-2019 for an exact zero; `none` for ∞ − ∞ (R127, R147). -/
def add (mode : RMode) : FNum → FNum → Option FNum
  | .nan a, .nan b => some (.nan (a || b))
  | .nan a, _ => some (.nan a)
  | _, .nan b => some (.nan b)
  | .inf a, .inf b => if a == b then some (.inf a) else none
  | .inf a, _ => some (.inf a)
  | _, .inf b => some (.inf b)
  | .fin s m e, .fin t n f =>
    let q := if e < f then e else f
    let z := if m == 0 && n == 0 && s == t then s else mode == .rd
    some (ofUnits q z (units q s m e + units q t n f))

def neg : FNum → FNum
  | .nan s => .nan s
  | .inf s => .inf (!s)
  | .fin s m e => .fin (!s) m e

/-- The exact product; `none` for 0 × ∞ (R127). A NaN operand gives a NaN. -/
def mul : FNum → FNum → Option FNum
  | .nan a, .nan b => some (.nan (a || b))
  | .nan a, _ => some (.nan a)
  | _, .nan b => some (.nan b)
  | .inf a, .inf b => some (.inf (a != b))
  | .inf a, .fin t n _ => if n == 0 then none else some (.inf (a != t))
  | .fin s m _, .inf b => if m == 0 then none else some (.inf (s != b))
  | .fin s m e, .fin t n f => some (.fin (s != t) (m * n) (e + f))

end FNum

/-- The result of a float operation: an invalid operation is `none`, checked before quiet NaNs (R127 steps 2 to 4). -/
def arith2 (F : FFmt) (mode : RMode) (op : FNum → FNum → Option FNum) (x y : FNum) : Option Nat :=
  if x.isSNaN || y.isSNaN then none
  else if x.isNaN || y.isNaN then some F.qnan
  else (op x y).map (roundFloat F mode)

def fAdd (F : FFmt) (mode : RMode) (x y : FNum) : Option Nat := arith2 F mode (FNum.add mode) x y
def fSub (F : FFmt) (mode : RMode) (x y : FNum) : Option Nat := arith2 F mode (FNum.add mode) x y.neg
def fMul (F : FFmt) (mode : RMode) (x y : FNum) : Option Nat := arith2 F mode FNum.mul x y

/-- Fused multiply-add: signalling NaNs and 0 × ∞ are checked before a quiet NaN in c (R147). -/
def fFma (F : FFmt) (mode : RMode) (x y z : FNum) : Option Nat :=
  if x.isSNaN || y.isSNaN || z.isSNaN then none
  else
    match FNum.mul x y with
    | none => none
    | some p => if p.isNaN || z.isNaN then some F.qnan else (FNum.add mode p z).map (roundFloat F mode)

/-- The exact quotient to more bits than any format keeps, its last bit a sticky bit. -/
def quotient (m n : Nat) : Nat × Int :=
  let k := 64 + bitLength n
  let q := (m <<< k) / n
  let rest := (m <<< k) % n
  (2 * q + (if rest == 0 then 0 else 1), -(k : Int) - 1)

/-- Division: 0/0 and ∞/∞ are invalid, a nonzero value over zero is an infinity (R127, R147). -/
def fDiv (F : FFmt) (mode : RMode) (x y : FNum) : Option Nat :=
  arith2 F mode (fun x y =>
    match x, y with
    | .inf _, .inf _ => none
    | .inf a, .fin t _ _ => some (.inf (a != t))
    | .fin s _ _, .inf b => some (.fin (s != b) 0 0)
    | .fin s m e, .fin t n f =>
      if n == 0 then (if m == 0 then none else some (.inf (s != t)))
      else
        -- the quotient keeps at least 60 significant bits
        let g := 120
        let (q, k) := quotient (m <<< g) n
        some (.fin (s != t) q (e - f + k - g))
    | _, _ => none) x y

/-- The integer square root, one binary digit per step, highest first: the root found so far and the bit position. -/
def isqrtFrom (x : Nat) : Nat → Nat → Nat
  | 0, r => r
  | i + 1, r => let c := r + 2 ^ i; isqrtFrom x i (if c * c ≤ x then c else r)

/-- The integer square root. -/
def isqrt (x : Nat) : Nat := isqrtFrom x (bitLength x / 2 + 1) 0

/-- √(m × 2^e) to many bits, with a sticky last bit. -/
def sqrtFin (m : Nat) (e : Int) : Nat × Int :=
  let m2 := if e % 2 == 0 then m else 2 * m
  let e2 := if e % 2 == 0 then e else e - 1
  let x := m2 <<< 160
  let r := isqrt x
  (2 * r + (if r * r == x then 0 else 1), e2 / 2 - 81)

/-- Square root, correctly rounded (R149). -/
def fSqrt (F : FFmt) (mode : RMode) : FNum → Option Nat
  | .nan true => none
  | .nan false => some F.qnan
  | .inf true => none
  | .inf false => some F.infBits
  | .fin s m e =>
    if m == 0 then some (if s then F.signBit else 0)
    else if s then none
    else let (r, k) := sqrtFin m e; some (roundFin F mode false r k)

/-- `FMIN` and `FMAX`: −0 < +0; a quiet NaN gives the canonical NaN, a signalling NaN is invalid (R147). -/
def fMinMax (F : FFmt) (isMax : Bool) (bx byy : Nat) : Option Nat :=
  let x := F.decode bx
  let y := F.decode byy
  if x.isSNaN || y.isSNaN then none
  else if x.isNaN || y.isNaN then some F.qnan
  else
    let c := FNum.cmp x y
    let xLess := c < 0 || (c == 0 && x.isNeg)
    some (if xLess == isMax then byy else bx)

/-- Float saturation: above 1.0 becomes 1.0; NaN or below +0 becomes +0 (R134). -/
def fSat (F : FFmt) (b : Nat) : Nat :=
  match F.decode b with
  | .nan _ => 0
  | .inf s => if s then 0 else roundFin F .rne false 1 0
  | .fin s m e => if s then 0 else if 0 < FNum.cmp (.fin s m e) (.fin false 1 0) then roundFin F .rne false 1 0 else b

/-- A tapered format: width and exponent bits (R118). -/
structure TFmt where
  n : Nat
  es : Nat
deriving DecidableEq, Repr

def t8 : TFmt := ⟨8, 2⟩
def t6 : TFmt := ⟨6, 1⟩

/-- The length of the run of bits equal to `v` from bit `i − 1` of `b` downward. -/
def runLength (b : Nat) (v : Bool) : Nat → Nat
  | 0 => 0
  | i + 1 => if bit b i == v then runLength b v i + 1 else 0

/-- The magnitude of a tapered pattern with its sign bit clear (R118). -/
def taperedMagnitude (T : TFmt) (b : Nat) : Nat × Int :=
  let lead := bit b (T.n - 2)
  let m := runLength b lead (T.n - 1)
  let r : Int := if lead then (m : Int) - 1 else -(m : Int)
  -- bits left below the run and its terminating bit
  let left := T.n - 1 - m - 1
  let rest := bits b 0 left
  let e := if T.es ≤ left then rest >>> (left - T.es) else rest <<< (T.es - left)
  let w := left - T.es
  let f := bits rest 0 w
  (2 ^ w + f, (2 ^ T.es : Nat) * r + (e : Int) - (w : Int))

/-- `DecodeTapered` (R118): `none` is NaV, Poison(FP_INVALID). -/
def decodeTapered (T : TFmt) (b : Nat) : Option FNum :=
  let b := bits b 0 T.n
  if b == 0 then some (.fin false 0 0)
  else if b == 2 ^ (T.n - 1) then none
  else
    let s := bit b (T.n - 1)
    let (m, e) := taperedMagnitude T (if s then 2 ^ T.n - b else b)
    some (.fin s m e)

/-- The pattern of a positive magnitude strictly inside the tapered range, before the sign (R121). -/
def encodeMagnitude (T : TFmt) (m : Nat) (e : Int) : Nat :=
  let l := Nat.log2 m
  let k : Int := e + (l : Int)
  let r : Int := k / ((2 ^ T.es : Nat) : Int)
  let ex := (k % ((2 ^ T.es : Nat) : Int)).toNat
  let frac := m - 2 ^ l
  -- regime bits and their number
  let reg : Nat × Nat := if 0 ≤ r then (2 * (2 ^ (r.toNat + 1) - 1), r.toNat + 2) else (1, (-r).toNat + 1)
  let B := (((reg.1 <<< T.es) + ex) <<< l) + frac
  let B := B <<< T.n
  let len := reg.2 + T.es + l + T.n
  let cutAt := len - (T.n - 1)
  let p := B >>> cutAt
  let g := bit B (cutAt - 1)
  let sticky := bits B 0 (cutAt - 1) != 0
  if g && (sticky || p % 2 == 1) then p + 1 else p

/-- `EncodeTapered` (R121). -/
def encodeTapered (T : TFmt) : FNum → Nat
  | .nan _ => 2 ^ (T.n - 1)
  | .inf s => if s then 2 ^ T.n - (2 ^ (T.n - 1) - 1) else 2 ^ (T.n - 1) - 1
  | .fin s m e =>
    if m == 0 then 0
    else
      let maxp := 2 ^ (T.n - 1) - 1
      let hi := taperedMagnitude T maxp
      let lo := taperedMagnitude T 1
      let p :=
        if 0 ≤ FNum.cmp (.fin false m e) (.fin false hi.1 hi.2) then maxp
        else if FNum.cmp (.fin false m e) (.fin false lo.1 lo.2) ≤ 0 then 1
        else encodeMagnitude T m e
      if s then 2 ^ T.n - p else p

/-- `Decode(code, bits)` of one element in format code 0–8 (R116, R123, R130): `none` is Poison(FP_INVALID). -/
def decodeElem (code b : Nat) : Option FNum :=
  match code with
  | 0 => some (bf16.decode b)
  | 1 => some (fp16.decode b)
  | 2 => decodeTapered t8 b
  | 3 => decodeTapered t6 b
  | 4 => some (.ofInt (sext 8 b))
  | 5 => some (.ofInt (bits b 0 8 : Nat))
  | 6 => some (.ofInt (sext 4 b))
  | 7 => some (.ofInt (bits b 0 1 : Nat))
  | _ => some (fp32.decode b)

/-- The width in bits of an element of a format code (R116, R123). -/
def elemWidth (code : Nat) : Nat :=
  match code with
  | 0 => 16
  | 1 => 16
  | 2 => 8
  | 3 => 6
  | 4 => 8
  | 5 => 8
  | 6 => 4
  | 7 => 1
  | _ => 32

/-- A product as it enters a matrix sum (R128). -/
inductive Term where
  | invalid
  | nan
  | num (x : FNum)
deriving DecidableEq, Repr

/-- `Product` (R128). -/
def product (pscale : Int) (a b : FNum) : Term :=
  if a.isSNaN || b.isSNaN then .invalid
  else
    match FNum.mul a b with
    | none => .invalid
    | some p => if p.isNaN then .nan else .num (p.scale pscale)

/-- `ZeroSign` (R128): the pattern of the signed zero. -/
def zeroSign (P : List FNum) (acc : FNum) (mode : RMode) : Nat :=
  let allNeg := P.all (fun p => p.isZero && p.isNeg)
  if acc.isZero && acc.isNeg && allNeg then fp32.signBit
  else if acc.isZero && !acc.isNeg && allNeg then 0
  else if mode == .rd then fp32.signBit else 0

/-- The exponent of the leading bit of a nonzero finite number. -/
def topExp : FNum → Option Int
  | .fin _ m e => if m == 0 then none else some (e + (Nat.log2 m : Int))
  | _ => none

/-- The signed part of a term at or above 2^q, in units of 2^q. -/
def windowHigh (q : Int) : FNum → Int
  | .fin s m e => let (n, _) := cut m e q; if s then -(n : Int) else (n : Int)
  | _ => 0

/-- The signed part of a term below 2^q, in units of 2^b for a b at or below its exponent. -/
def windowLow (q b : Int) : FNum → Int
  | .fin s m e =>
    if q ≤ e then 0
    else FNum.units b s (m % 2 ^ (q - e).toNat) e
  | _ => 0

/-- The exponent of a finite number. -/
def lowExp : FNum → Int
  | .fin _ _ e => e
  | _ => 0

/-- `WindowSum` (R128): `none` is Poison(FP_INVALID). -/
def windowSum (P : List Term) (acc : FNum) (mode : RMode) : Option Nat :=
  if acc.isSNaN || P.any (· == .invalid) then none
  else
    let nums := P.filterMap (fun t => match t with | .num x => some x | _ => none)
    let T := nums ++ [acc]
    let pos := T.any (fun x => x == .inf false)
    let neg := T.any (fun x => x == .inf true)
    if pos && neg then none
    else if acc.isNaN || P.any (· == .nan) then some fp32.qnan
    else if pos then some fp32.infBits
    else if neg then some (fp32.signBit + fp32.infBits)
    else
      match T.filterMap topExp with
      | [] => some (zeroSign nums acc mode)
      | t :: ts =>
        let E := ts.foldl max t
        let q := E - 79
        let H := T.foldl (fun a x => a + windowHigh q x) 0
        let b := T.foldl (fun a x => min a (lowExp x)) q
        let L := T.foldl (fun a x => a + windowLow q b x) 0
        if H == 0 && L == 0 then some (zeroSign nums acc mode)
        else
          let v := 4 * H + L.sign
          some (roundFin fp32 mode (decide (v < 0)) v.natAbs (q - 2))

/-- `IntAccumulate` (R129), terms in ascending k. -/
def intAccumulate (sat : Bool) (acc : Int) (terms : List Int) : Int :=
  terms.foldl (fun acc t =>
    if sat then clamp (-2147483648) 2147483647 (acc + t) else sext 32 (wrap 32 (acc + t))) acc

/-- A format's place of element `j` in a packed row of bytes read as a little-endian number: T6 packs ten elements to
eight bytes, every other format packs its width without gaps (R116). -/
def elemAt (code row j : Nat) : Nat :=
  if code == 3 then bits row (64 * (j / 10) + 6 * (j % 10)) 6
  else bits row (elemWidth code * j) (elemWidth code)

end Sys2Proof.Machine
end

