-- ==== Sys2Proof/Config.lean ====
section
/-! DEFINITION. What the spec leaves open: free values, as constants with no body. Nothing can evaluate them, so a
claim about the machine holds whatever they are. -/
namespace Sys2Proof.Config

/-- Free bit number `n` (R80, R89, R188: old or new, which of several). Log entry 7. -/
opaque freeBit : Nat → Bool
/-- Free natural number `n`: a byte, a word or a number the spec does not fix (R30, R216, R340, R391). Log entry 7. -/
opaque freeNat : Nat → Nat
/-- The SFU's own function of its input (R149): form 1–6 (R149's FUNC) and FP32 pattern to a candidate FP32 pattern. The
machine takes the candidate where it meets the bound of R149. Log entry 11. -/
opaque sfuResult : Nat → BitVec 32 → BitVec 32

/-- The SHAKE256 digest of the bytes of a firmware image and its security version (R397). Log entry 45. -/
opaque shake256 : List Host.Cell → BitVec 256
/-- The security version in the bytes of a firmware image (R397). Log entry 45. -/
opaque imageSvn : List Host.Cell → Nat
/-- Whether the Ed448 signature in the bytes of a firmware image verifies under the vendor key with a digest (R397). Log entry 45. -/
opaque signatureOk : BitVec 256 → List Host.Cell → Bool
/-- A time within which every fetch of a clause and every result of variable latency comes, in units of 1/21 ns (R81, R87, R108). Log entry 7. -/
opaque latencyBound : Nat
/-- The slice of a region's L2 that a line goes to, by a hash of its decoded stack address, modulo 80 (R198). Log entry 40. -/
opaque sliceHash : Nat → Nat
/-- The set of an L2 slice that a superblock goes to, modulo 128 (R198). Log entry 40. -/
opaque setHash : Nat → Nat

end Sys2Proof.Config
end

