-- ==== Sys2Proof/Machine/Map.lean ====
section
/-! DEFINITION. Sparse tables as plain data: lists of (key, value) pairs with strictly rising keys.
A table with a default value lists no entry equal to the default, so equal tables are equal lists. -/
namespace Sys2Proof.Machine.Map

variable {α : Type}

/-- The entry at key `k`, if one is listed. -/
def find : List (Nat × α) → Nat → Option α
  | [], _ => none
  | (j, a) :: m, k => if j == k then some a else find m k

/-- The table with the entry at `k` set to `a`, keys kept in rising order. -/
def put : List (Nat × α) → Nat → α → List (Nat × α)
  | [], k, a => [(k, a)]
  | (j, b) :: m, k, a =>
    if k < j then (k, a) :: (j, b) :: m
    else if j == k then (k, a) :: m
    else (j, b) :: put m k a

/-- The table without an entry at `k`. -/
def del : List (Nat × α) → Nat → List (Nat × α)
  | [], _ => []
  | (j, b) :: m, k => if j == k then del m k else (j, b) :: del m k

/-- What the table holds at `k`: the listed entry, or the default of an unlisted key. -/
def get (d : α) (m : List (Nat × α)) (k : Nat) : α := (find m k).getD d

/-- A write that keeps the canonical form: writing the default removes the entry. -/
def set [BEq α] (d : α) (m : List (Nat × α)) (k : Nat) (a : α) : List (Nat × α) :=
  if a == d then del m k else put m k a

/-- The entry at `k` (or the default) changed by `f`. -/
def modify (d : α) (m : List (Nat × α)) (k : Nat) (f : α → α) : List (Nat × α) :=
  put m k (f (get d m k))

/-- Whether `k` is listed. -/
def has (m : List (Nat × α)) (k : Nat) : Bool := (find m k).isSome

/-- The keys listed, in rising order. -/
def keys (m : List (Nat × α)) : List Nat := m.map (·.1)

/-- The canonical form: keys strictly rising above `lo`, and no entry equal to the default. -/
def wfFrom [BEq α] (d : α) : Option Nat → List (Nat × α) → Bool
  | _, [] => true
  | lo, (k, a) :: m => (match lo with | none => true | some l => decide (l < k)) && !(a == d) && wfFrom d (some k) m

/-- The canonical form of a table with default `d`. -/
def wf [BEq α] (d : α) (m : List (Nat × α)) : Bool := wfFrom d none m

end Sys2Proof.Machine.Map
end

