-- ==== Sys2Proof/Syntax.lean ====
section
/-! DEFINITION. The instructions: one constructor per row of the opcode table. The 178 program forms carry the fields of
their word formats (R74) and of their extension word (R76, R77); the 85 device steps carry the operands of the packet,
register, command or message that causes them. Register numbers stay numbers: most fields take more than one meaning. -/
namespace Sys2Proof

/-- Engine classes of a clause (R70); code 7 is reserved. -/
inductive Cls where
  | alu | matrix | memory | async | sync | control | system
deriving DecidableEq, Repr

/-- Format A (R74). -/
structure WA where
  stall : BitVec 2
  pred : BitVec 3
  d : BitVec 7
  a : BitVec 7
  b : BitVec 7
deriving DecidableEq, Repr

/-- Format B (R74). -/
structure WB where
  stall : BitVec 2
  pred : BitVec 3
  d : BitVec 7
  a : BitVec 7
  func : BitVec 7
deriving DecidableEq, Repr

/-- Format C (R74). -/
structure WC where
  stall : BitVec 2
  pred : BitVec 3
  d : BitVec 7
  imm : BitVec 14
deriving DecidableEq, Repr

/-- Format D (R74): PRED is QUAL for BRU. -/
structure WD where
  stall : BitVec 2
  pred : BitVec 3
  off : BitVec 21
deriving DecidableEq, Repr

/-- Format S (R74). -/
structure WS where
  stall : BitVec 2
  qual : BitVec 3
  sd : BitVec 6
  sa : BitVec 6
  sb : BitVec 6
  sub : BitVec 3
deriving DecidableEq, Repr

/-- The modifier layout of an extension word (R76), highest field first. -/
structure XMod where
  c : BitVec 7  -- third source register, or index register in mode 4
  absA : BitVec 1  -- absolute value of source a
  negC : BitVec 1  -- negate c, or U (R133)
  negB : BitVec 1  -- negate b
  negA : BitVec 1  -- negate a
  rnd : BitVec 3  -- rounding
  sat : BitVec 1  -- saturate
  xlm : BitVec 3  -- cross-lane mode
  xls : BitVec 1  -- 0 = XLM on a, 1 = on b
  limm : BitVec 7  -- lane immediate
  sreg : BitVec 6  -- s register
deriving DecidableEq, Repr

/-- Reconvergence literal of BRA and BRX (R110). -/
structure ReconvLit where
  rk : BitVec 2  -- 0 reconverge, 1 none
  roff : BitVec 30  -- signed word offset
deriving DecidableEq, Repr

/-- Literal of REGION (R239). -/
structure RegionLit where
  mode : BitVec 2  -- commit mode
  rsv : BitVec 22  -- must be zero
  limit : BitVec 8  -- replay limit
deriving DecidableEq, Repr

/-- Literal of the matrix multiplies (R160). -/
structure MmaLit where
  ncode : BitVec 6  -- N = 16 × NCODE
  mcode : BitVec 2  -- M
  mrec : BitVec 6  -- metadata record pair
  sat : BitVec 1  -- saturate
  bmode : BitVec 1  -- XPOP or APOP
  iacc : BitVec 1  -- INT32 accumulation
  zero : BitVec 1  -- take accumulators as zero
  rsv : BitVec 14  -- must be zero
deriving DecidableEq, Repr

/-- Literal of ALDS and ASTS (R180). -/
structure SpLit where
  rstr : BitVec 12  -- row stride
  bstr : BitVec 12  -- block stride
  nblk : BitVec 8  -- blocks
deriving DecidableEq, Repr

/-- Literal of the memory words (R206). -/
structure MemLit where
  sz : BitVec 3  -- size
  ix : BitVec 1  -- index used
  space : BitVec 3  -- space
  bk : BitVec 2  -- base kind
  base : BitVec 6  -- base register
  scale : BitVec 2  -- index scale
  ord : BitVec 2  -- ordering
  scope : BitVec 3  -- scope
  disp : BitVec 10  -- displacement
deriving DecidableEq, Repr

/-- Literal of CPY (R222). -/
structure CpyLit where
  mmask : BitVec 4  -- ranks delivered to
  rowsm1 : BitVec 12  -- rows minus 1
  gstr : BitVec 16  -- global row pitch
deriving DecidableEq, Repr

/-- Literal of GATHER and SCATTER (R223). -/
structure GatLit where
  stride : BitVec 27  -- item pitch / 32
  rsv : BitVec 5  -- must be zero
deriving DecidableEq, Repr

/-- Literal of SPAWN (R297). -/
structure SpawnLit where
  rsv : BitVec 14  -- must be zero
  nodereg : BitVec 1  -- node number from a register
  last : BitVec 1  -- the last records of a producer
  node : BitVec 16  -- node number or register
deriving DecidableEq, Repr

/-- Literal of STMC and REDMC (R362). -/
structure McLit where
  sz : BitVec 3  -- size
  ix : BitVec 1  -- index used
  base : BitVec 6  -- address pair
  scale : BitVec 2  -- index scale
  aop : BitVec 4  -- reduction operation
  rel : BitVec 1  -- release
  acken : BitVec 1  -- acknowledge register used
  ackr : BitVec 6  -- acknowledge register
  disp : BitVec 8  -- displacement
deriving DecidableEq, Repr

/-- Literal of TDESC, TEXP and TBACK (R322). -/
structure TreeLit where
  rsv : BitVec 17  -- must be zero
  mode : BitVec 2  -- TBACK mode
  ben : BitVec 1  -- write a batch
  boff : BitVec 6  -- batch offset register
  desc : BitVec 6  -- descriptor pair
deriving DecidableEq, Repr

/-- The 16-byte header of a packet (R39). -/
structure PktHdr where
  cdelta : BitVec 64
  tag : BitVec 32
  csig : BitVec 16
  cop : BitVec 2
  ord : Bool
  typ : BitVec 8
deriving DecidableEq, Repr

/-- A packet that starts: its context, queue, index and header (R37, R44). -/
structure Pkt where
  ctx : Nat
  q : Nat
  idx : Nat
  hdr : PktHdr
deriving DecidableEq, Repr

/-- What creation of a context fixes (R33, R82, R185, R218, R245, R283, R286, R357, R386, R391). -/
structure CtxRec where
  fn : Nat
  pid : Nat
  mode : Nat
  nsig : Nat
  memRestore : Bool
  stchk : Bool
  ptroot : BitVec 64
  rootlog : Nat
  hostAtomics : Bool
  ftid : BitVec 16
  bwlog : Nat := 28
  cwlog : Nat := 32
  graceUs : Nat := 1000
  faultUs : Nat := 100000
  diagBase : BitVec 64
  diagLen : Nat
  alogBase : BitVec 64
  alogLen : Nat
  saveBase : BitVec 64
  saveLen : Nat
deriving DecidableEq, Repr

/-- A request from the fabric (R358): the sender's tenant, the fabric offset, and what it does. -/
structure InReq where
  ftid : BitVec 16
  off : Nat
  kind : Nat            -- 0 read, 1 write, 2 atomic, 3 reduction
  size : Nat
  data : Nat
  data2 : Nat
  aop : Nat
  token : Option Word   -- poisoned data
  src : Nat := 0        -- the peer that sent it
  num : Nat := 0        -- its sequence number among that peer's unicast packets (R356)
deriving DecidableEq, Repr

/-- What another member contributes to a reduction (R365): its peer number and, by element offset, a value or a token. -/
structure McShare where
  peer : Nat
  elems : List (Nat × Nat × Option Word)
deriving DecidableEq, Repr

/-- A host access through a memory aperture (R261). -/
structure HostReq where
  kind : Nat            -- 0 load, 1 store, 2 atomic
  pa : Nat
  size : Nat
  data : Nat
  data2 : Nat
  aop : Nat
deriving DecidableEq, Repr


/-- The instructions and device steps. -/
inductive Instr where
  | vadd (w : WA) (x : Option XMod)
  | vsub (w : WA) (x : Option XMod)
  | vmul (w : WA) (x : Option XMod)
  | vmulh (w : WA) (x : Option XMod)
  | vmad (w : WA) (x : XMod)
  | vand (w : WA) (x : Option XMod)
  | vor (w : WA) (x : Option XMod)
  | vxor (w : WA) (x : Option XMod)
  | vshl (w : WA) (x : Option XMod)
  | vshr (w : WA) (x : Option XMod)
  | vsar (w : WA) (x : Option XMod)
  | vmin (w : WA) (x : Option XMod)
  | vmax (w : WA) (x : Option XMod)
  | vabs (w : WB) (x : Option XMod)
  | vpopc (w : WB) (x : Option XMod)
  | vclz (w : WB) (x : Option XMod)
  | vbrev (w : WB) (x : Option XMod)
  | vbfe (w : WA) (x : Option XMod)
  | vbfi (w : WA) (x : XMod)
  | vcmp (w : WA) (x : Option XMod)
  | vsel (w : WA) (x : XMod)
  | vmov (w : WB) (x : Option XMod)
  | vldi (w : WC) (l : Option Word)
  | vadd64 (w : WA) (x : Option XMod)
  | vmad64 (w : WA) (x : XMod)
  | fadd (w : WA) (x : Option XMod)
  | fsub (w : WA) (x : Option XMod)
  | fmul (w : WA) (x : Option XMod)
  | ffma (w : WA) (x : XMod)
  | fmin (w : WA) (x : Option XMod)
  | fmax (w : WA) (x : Option XMod)
  | fcmp (w : WA) (x : Option XMod)
  | fdiv (w : WA) (x : Option XMod)
  | fsqrt (w : WB) (x : Option XMod)
  | frcp (w : WB) (x : Option XMod)
  | frsq (w : WB) (x : Option XMod)
  | fexp2 (w : WB) (x : Option XMod)
  | flog2 (w : WB) (x : Option XMod)
  | fsin (w : WB) (x : Option XMod)
  | fcos (w : WB) (x : Option XMod)
  | dadd (w : WA) (x : Option XMod)
  | dmul (w : WA) (x : Option XMod)
  | dfma (w : WA) (x : XMod)
  | hadd2 (w : WA) (x : Option XMod)
  | hmul2 (w : WA) (x : Option XMod)
  | hfma2 (w : WA) (x : XMod)
  | fcvt (w : WB) (x : Option XMod)
  | fpack (w : WA) (x : Option XMod)
  | funpk (w : WB) (x : Option XMod)
  | vshfl (w : WA) (x : Option XMod)
  | vvoteAll (w : WB) (x : Option XMod)
  | vvoteAny (w : WB) (x : Option XMod)
  | vvoteUni (w : WB) (x : Option XMod)
  | vvoteBallot (w : WB) (x : Option XMod)
  | vvoteCount (w : WB) (x : Option XMod)
  | vvoteLaneid (w : WB) (x : Option XMod)
  | vred (w : WB) (x : Option XMod)
  | vscan (w : WB) (x : Option XMod)
  | pand (w : WA)
  | por (w : WA)
  | pxor (w : WA)
  | pnot (w : WA)
  | pmov (w : WA)
  | sadd (w : WS)
  | ssub (w : WS)
  | smul (w : WS)
  | smin (w : WS)
  | smax (w : WS)
  | smov (w : WS)
  | sminU (w : WS)
  | smaxU (w : WS)
  | sand (w : WS)
  | sor (w : WS)
  | sxor (w : WS)
  | sshl (w : WS)
  | sshr (w : WS)
  | ssar (w : WS)
  | smad (w : WS) (x : XMod)
  | sldi (w : WS) (l : Word)
  | scmp (w : WS)
  | ssel (w : WS)
  | sread (w : WS)
  | swrite (w : WS)
  | fmtset (w : WS)
  | fmtsetLit (w : WS) (l : Word)
  | fmtget (w : WS)
  | nop (w : WC)
  | bra (w : WD) (l : ReconvLit)
  | bru (w : WD)
  | brx (w : WB) (l : ReconvLit)
  | call (w : WD)
  | callx (w : WB)
  | ret (w : WC)
  | join (w : WC)
  | exit (w : WC)
  | yieldw (w : WC)
  | role (w : WC)
  | region (w : WD) (l : RegionLit)
  | commitRel (w : WC)
  | commitRpl (w : WC)
  | commitFwd (w : WC)
  | commit (w : WC)
  | pchk (w : WB)
  | pchkP (w : WB)
  | pchkS (w : WB)
  | pchkReg (w : WB)
  | pchkOrph (w : WB)
  | pinfo (w : WS)
  | pset (w : WB)
  | psetS (w : WB)
  | pclr (w : WB)
  | pclrS (w : WB)
  | pclrTab (w : WB)
  | mma (w : WA) (l : MmaLit)
  | mmai (w : WA) (l : MmaLit)
  | mmab (w : WA) (l : MmaLit)
  | mmas (w : WA) (l : MmaLit)
  | aclr (w : WC)
  | ald (w : WB)
  | ast (w : WB)
  | acvt (w : WB) (x : Option XMod)
  | alds (w : WA) (l : SpLit)
  | asts (w : WA) (l : SpLit)
  | ld (w : WA) (l : MemLit)
  | st (w : WA) (l : MemLit)
  | ldu (w : WA) (l : MemLit)
  | ldc (w : WA) (l : MemLit)
  | atom (w : WA) (l : MemLit)
  | red (w : WA) (l : MemLit)
  | pref (w : WA) (l : MemLit)
  | xlate (w : WS)
  | xinfo (w : WS)
  | cpyG2s (w : WS) (l : CpyLit)
  | cpyS2g (w : WS) (l : CpyLit)
  | cpyS2p (w : WS) (l : CpyLit)
  | gather (w : WS) (l : GatLit)
  | scatter (w : WS) (l : GatLit)
  | wait (w : WS)
  | cnt (w : WS)
  | xfence (w : WS)
  | getwork (w : WS)
  | getworkNw (w : WS)
  | spawn (w : WA) (l : SpawnLit)
  | stmc (w : WA) (l : McLit)
  | redmc (w : WA) (l : McLit)
  | tdesc (w : WA) (l : TreeLit)
  | texp (w : WA) (l : TreeLit)
  | tback (w : WA) (l : TreeLit)
  | treuse (w : WS)
  | tnode (w : WA)
  | tnodeLink (w : WA)
  | barArv (w : WS)
  | barWait (w : WS)
  | barSync (w : WS)
  | barq (w : WS)
  | fenceAcq (w : WC)
  | fenceRel (w : WC)
  | fenceFull (w : WC)
  | sigSet (w : WS) (l : Option Word)
  | sigAdd (w : WS) (l : Option Word)
  | sigSetRet (w : WS) (l : Option Word)
  | sigAddRet (w : WS) (l : Option Word)
  | sigw (w : WS)
  | fork (w : WS)
  | choose (w : WS)
  | viewId (w : WS)
  | viewRival (w : WS)
  | viewDepth (w : WS)
  | viewParent (w : WS)
  | viewLog (w : WS)
  | viewSect (w : WS)
  | viewDec (w : WS)
  | trap (w : WC)
  | bkpt (w : WC)
  | rte (w : WC)
  | sreadp (w : WS)
  | swritep (w : WS)
  | haltg (w : WC)
  | launch (p : Pkt) (kdesc : BitVec 64) (argp : BitVec 64) (teams : BitVec 21) (prio : BitVec 2)
  | nodeFeed (p : Pkt) (ntab : BitVec 64) (raddr : BitVec 64) (count : BitVec 32) (node : BitVec 16) (last : Bool)
  | signalSet (p : Pkt) (value : BitVec 64) (sig : BitVec 16) (op : BitVec 2)
  | signalWait (p : Pkt) (cmpv : BitVec 64) (sig : BitVec 16) (cond : BitVec 3) (tmo : BitVec 32)
  | signalWaitTimeout (c : Nat) (q : Nat) (idx : Nat)
  | copy (p : Pkt) (src : BitVec 64) (dst : BitVec 64) (bytes : BitVec 40)
  | preemptSave (p : Pkt) (force : Bool) (drain : BitVec 32)
  | preemptRestore (p : Pkt)
  | nopPacket (p : Pkt)
  | coachhouseEvent
  | replayServiceAnswer (g : Nat) (done : Bool)
  | faultLimitExpiry (g : Nat)
  | deathNotice (peer : Nat)
  | dispatchPass (pid : Nat)
  | remoteTrafficSample (l : List (Nat × Nat × Nat))
  | binTimerLapse (grid : Nat) (node : Nat)
  | binAdmit (grid : Nat) (node : Nat)
  | nodeEndToken (grid : Nat) (node : Nat)
  | leaveGrant (die : Nat)
  | matrixLeaseLapse (core : Nat)
  | clauseFetch (g : Nat) (slot : Nat)
  | ageWrap (core : Nat) (pipe : Nat)
  | splitRotation (g : Nat) (slot : Nat)
  | variableResultWrite (g : Nat) (k : Nat)
  | matrixQueueExecute (core : Nat)
  | joinWindowClose (core : Nat) (tag : Nat)
  | asyncOpComplete (g : Nat) (path : Nat) (k : Nat) (lane : Nat)
  | invalidationAck (line : Nat) (core : Nat)
  | hitchLineReturn (line : Nat)
  | linkSleep (die : Nat)
  | wakeBeacon (die : Nat)
  | wakeHoldTimeout (die : Nat)
  | dieDeclaredDead (die : Nat)
  | dieFenceCommand (die : Nat)
  | dieTestComplete (die : Nat) (pass : Bool)
  | coldStart
  | warmStart
  | barrierWatchdog (g : Nat) (slot : Nat)
  | contextWatchdog (g : Nat) (slot : Nat)
  | abandonGraceExpiry (c : Nat)
  | drainLimit (c : Nat) (dev : Nat)
  | drainComplete (c : Nat) (dev : Nat)
  | saveAreaWriteout (c : Nat) (dev : Nat) (fits : Bool)
  | restorePlacement (c : Nat) (dev : Nat)
  | teamRetire (t : Nat)
  | gridRetire (grid : Nat)
  | landauReclaim (k : Nat) (n : Nat)
  | remoteInboundRequest (r : InReq)
  | multicastCopyArrival (r : InReq)
  | reductionInstanceComplete (gid : Nat) (off : Nat) (n : Nat) (others : List McShare)
  | multicastAckReturn (g : Nat) (k : Nat) (sts : List (Nat × Nat))
  | fabricResend (g : Nat) (k : Nat)
  | fabricPortSilence (peer : Nat) (plane : Nat)
  | waitDeadline (g : Nat) (slot : Nat)
  | barWaitDeadline (g : Nat) (slot : Nat)
  | sigwDeadline (g : Nat) (slot : Nat)
  | storeCompletion (g : Nat) (k : Nat)
  | copyCompletion (c : Nat) (q : Nat) (idx : Nat)
  | contextCreate (r : CtxRec)
  | partitionCreate (port : Nat) (r : BitVec 256)
  | partitionRewrite (port : Nat) (r : BitVec 256)
  | partitionDelete (port : Nat) (pid : Nat)
  | quotaWrite (c : Nat) (r : BitVec 128)
  | clusterMapRead (port : Nat) (die : Nat)
  | peerNumberRead (fn : Nat)
  | reachMaskSet (c : Nat) (m : BitVec 4096)
  | groupMaskSet (c : Nat) (m : BitVec 4096)
  | inboundWindowWrite (c : Nat) (w : Nat) (r : BitVec 128)
  | retirementRecordRead (fn : Nat) (q : Nat) (idx : BitVec 32)
  | perfCounterRead (c : Nat) (core : Nat) (n : Nat)
  | viewTableRead (fn : Nat) (v : Nat)
  | abandonRequest (c : Nat)
  | peerStateWrite (peer : Nat) (v : BitVec 2)
  | multicastTableInstall (spine : Bool) (sw : Nat) (gid : Nat) (r : BitVec 128)
  | recoverySlotWrite (slot : Nat) (port : Nat)
  | packageStop (what : Nat) (region : Nat)
  | hostApertureAccess (c : Nat) (r : HostReq)
  | doorbell (c : Nat) (q : Nat) (v : BitVec 64)
  | qctlResume (c : Nat) (q : Nat)
  | qctlReset (c : Nat) (q : Nat)
  | qcfgWrite (c : Nat) (q : Nat) (v : BitVec 64)
  | registerWrite (c : Nat) (q : Nat) (off : Nat) (v : BitVec 64)
  | signalWindowAcquire (c : Nat) (n : Nat)
  | signalWindowWrite (c : Nat) (n : Nat) (v : BitVec 64)
  | pciePortDown (port : Nat)
deriving DecidableEq, Repr

end Sys2Proof
end

