-- ==== Sys2Proof/WellFormed.lean ====
section
/-! DEFINITION. Which instructions are well formed: the selector a program form carries is the one that names it. Where one
opcode carries several forms (R84 to R86), a selector value with no form of its own is a reserved field value (R88); the
form with the lowest selector holds it (log entry 9). -/
namespace Sys2Proof

/-- The selector of the instruction is its own (R84 to R86). Fields that must be zero, register numbers and codes are not
checked here: their reserved values issue and poison (R88). -/
def Instr.wf : Instr → Bool
  | .vadd _ _ => true
  | .vsub _ _ => true
  | .vmul _ _ => true
  | .vmulh _ _ => true
  | .vmad _ _ => true
  | .vand _ _ => true
  | .vor _ _ => true
  | .vxor _ _ => true
  | .vshl _ _ => true
  | .vshr _ _ => true
  | .vsar _ _ => true
  | .vmin _ _ => true
  | .vmax _ _ => true
  | .vabs w _ => w.func.toNat != 1 && w.func.toNat != 2 && w.func.toNat != 3
  | .vpopc w _ => w.func.toNat == 1
  | .vclz w _ => w.func.toNat == 2
  | .vbrev w _ => w.func.toNat == 3
  | .vbfe _ _ => true
  | .vbfi _ _ => true
  | .vcmp _ _ => true
  | .vsel _ _ => true
  | .vmov _ _ => true
  | .vldi _ _ => true
  | .vadd64 _ _ => true
  | .vmad64 _ _ => true
  | .fadd _ _ => true
  | .fsub _ _ => true
  | .fmul _ _ => true
  | .ffma _ _ => true
  | .fmin _ _ => true
  | .fmax _ _ => true
  | .fcmp _ _ => true
  | .fdiv _ _ => true
  | .fsqrt w _ => w.func.toNat != 1 && w.func.toNat != 2 && w.func.toNat != 3 && w.func.toNat != 4 && w.func.toNat != 5 && w.func.toNat != 6
  | .frcp w _ => w.func.toNat == 1
  | .frsq w _ => w.func.toNat == 2
  | .fexp2 w _ => w.func.toNat == 3
  | .flog2 w _ => w.func.toNat == 4
  | .fsin w _ => w.func.toNat == 5
  | .fcos w _ => w.func.toNat == 6
  | .dadd _ _ => true
  | .dmul _ _ => true
  | .dfma _ _ => true
  | .hadd2 _ _ => true
  | .hmul2 _ _ => true
  | .hfma2 _ _ => true
  | .fcvt _ _ => true
  | .fpack _ _ => true
  | .funpk _ _ => true
  | .vshfl _ _ => true
  | .vvoteAll w _ => w.func.toNat != 1 && w.func.toNat != 2 && w.func.toNat != 3 && w.func.toNat != 4 && w.func.toNat != 5
  | .vvoteAny w _ => w.func.toNat == 1
  | .vvoteUni w _ => w.func.toNat == 2
  | .vvoteBallot w _ => w.func.toNat == 3
  | .vvoteCount w _ => w.func.toNat == 4
  | .vvoteLaneid w _ => w.func.toNat == 5
  | .vred _ _ => true
  | .vscan _ _ => true
  | .pand w => (w.d.toNat / 8) != 1 && (w.d.toNat / 8) != 2 && (w.d.toNat / 8) != 3 && (w.d.toNat / 8) != 4
  | .por w => (w.d.toNat / 8) == 1
  | .pxor w => (w.d.toNat / 8) == 2
  | .pnot w => (w.d.toNat / 8) == 3
  | .pmov w => (w.d.toNat / 8) == 4
  | .sadd w => w.sub.toNat == 0
  | .ssub w => w.sub.toNat == 1
  | .smul w => w.sub.toNat == 2
  | .smin w => w.sub.toNat == 3
  | .smax w => w.sub.toNat == 4
  | .smov w => w.sub.toNat == 5
  | .sminU w => w.sub.toNat == 6
  | .smaxU w => w.sub.toNat == 7
  | .sand w => w.sub.toNat != 1 && w.sub.toNat != 2 && w.sub.toNat != 3 && w.sub.toNat != 4 && w.sub.toNat != 5
  | .sor w => w.sub.toNat == 1
  | .sxor w => w.sub.toNat == 2
  | .sshl w => w.sub.toNat == 3
  | .sshr w => w.sub.toNat == 4
  | .ssar w => w.sub.toNat == 5
  | .smad _ _ => true
  | .sldi _ _ => true
  | .scmp _ => true
  | .ssel _ => true
  | .sread _ => true
  | .swrite _ => true
  | .fmtset w => w.sub.toNat != 1
  | .fmtsetLit w _ => w.sub.toNat == 1
  | .fmtget _ => true
  | .nop _ => true
  | .bra _ _ => true
  | .bru _ => true
  | .brx _ _ => true
  | .call _ => true
  | .callx _ => true
  | .ret _ => true
  | .join _ => true
  | .exit _ => true
  | .yieldw _ => true
  | .role _ => true
  | .region _ _ => true
  | .commitRel w => (w.imm.toNat % 4) == 0
  | .commitRpl w => (w.imm.toNat % 4) == 1
  | .commitFwd w => (w.imm.toNat % 4) == 2
  | .commit w => (w.imm.toNat % 4) == 3
  | .pchk w => w.func.toNat != 1 && w.func.toNat != 2 && w.func.toNat != 3 && w.func.toNat != 4
  | .pchkP w => w.func.toNat == 1
  | .pchkS w => w.func.toNat == 2
  | .pchkReg w => w.func.toNat == 3
  | .pchkOrph w => w.func.toNat == 4
  | .pinfo _ => true
  | .pset w => w.func.toNat != 1
  | .psetS w => w.func.toNat == 1
  | .pclr w => w.func.toNat != 1 && w.func.toNat != 2
  | .pclrS w => w.func.toNat == 1
  | .pclrTab w => w.func.toNat == 2
  | .mma _ _ => true
  | .mmai _ _ => true
  | .mmab _ _ => true
  | .mmas _ _ => true
  | .aclr _ => true
  | .ald _ => true
  | .ast _ => true
  | .acvt _ _ => true
  | .alds _ _ => true
  | .asts _ _ => true
  | .ld _ _ => true
  | .st _ _ => true
  | .ldu _ _ => true
  | .ldc _ _ => true
  | .atom _ _ => true
  | .red _ _ => true
  | .pref _ _ => true
  | .xlate _ => true
  | .xinfo _ => true
  | .cpyG2s w _ => w.sub.toNat != 1 && w.sub.toNat != 2
  | .cpyS2g w _ => w.sub.toNat == 1
  | .cpyS2p w _ => w.sub.toNat == 2
  | .gather _ _ => true
  | .scatter _ _ => true
  | .wait _ => true
  | .cnt _ => true
  | .xfence _ => true
  | .getwork w => (w.sub.toNat % 2) == 0
  | .getworkNw w => (w.sub.toNat % 2) == 1
  | .spawn _ _ => true
  | .stmc _ _ => true
  | .redmc _ _ => true
  | .tdesc _ _ => true
  | .texp _ _ => true
  | .tback _ _ => true
  | .treuse _ => true
  | .tnode w => (w.b.toNat / 64) == 0
  | .tnodeLink w => (w.b.toNat / 64) == 1
  | .barArv w => w.sub.toNat != 1 && w.sub.toNat != 2
  | .barWait w => w.sub.toNat == 1
  | .barSync w => w.sub.toNat == 2
  | .barq _ => true
  | .fenceAcq w => (w.imm.toNat % 4) != 1 && (w.imm.toNat % 4) != 2
  | .fenceRel w => (w.imm.toNat % 4) == 1
  | .fenceFull w => (w.imm.toNat % 4) == 2
  | .sigSet w _ => (w.sub.toNat % 4) == 0
  | .sigAdd w _ => (w.sub.toNat % 4) == 1
  | .sigSetRet w _ => (w.sub.toNat % 4) == 2
  | .sigAddRet w _ => (w.sub.toNat % 4) == 3
  | .sigw _ => true
  | .fork _ => true
  | .choose _ => true
  | .viewId w => w.sub.toNat != 1 && w.sub.toNat != 2 && w.sub.toNat != 3 && w.sub.toNat != 4 && w.sub.toNat != 5 && w.sub.toNat != 6
  | .viewRival w => w.sub.toNat == 1
  | .viewDepth w => w.sub.toNat == 2
  | .viewParent w => w.sub.toNat == 3
  | .viewLog w => w.sub.toNat == 4
  | .viewSect w => w.sub.toNat == 5
  | .viewDec w => w.sub.toNat == 6
  | .trap _ => true
  | .bkpt _ => true
  | .rte _ => true
  | .sreadp _ => true
  | .swritep _ => true
  | .haltg _ => true
  | .launch _ _ _ _ _ => true
  | .nodeFeed _ _ _ _ _ _ => true
  | .signalSet _ _ _ _ => true
  | .signalWait _ _ _ _ _ => true
  | .signalWaitTimeout _ _ _ => true
  | .copy _ _ _ _ => true
  | .preemptSave _ _ _ => true
  | .preemptRestore _ => true
  | .nopPacket _ => true
  | .doorbell _ _ _ => true
  | .qctlResume _ _ => true
  | .qctlReset _ _ => true
  | .qcfgWrite _ _ _ => true
  | .registerWrite _ _ _ _ => true
  | .signalWindowAcquire _ _ => true
  | .signalWindowWrite _ _ _ => true
  | .coachhouseEvent => true
  | .contextCreate _ => true
  | .partitionCreate _ _ => true
  | .partitionRewrite _ _ => true
  | .partitionDelete _ _ => true
  | .quotaWrite _ _ => true
  | .clusterMapRead _ _ => true
  | .peerNumberRead _ => true
  | .reachMaskSet _ _ => true
  | .groupMaskSet _ _ => true
  | .inboundWindowWrite _ _ _ => true
  | .retirementRecordRead _ _ _ => true
  | .perfCounterRead _ _ _ => true
  | .viewTableRead _ _ => true
  | .abandonRequest _ => true
  | .replayServiceAnswer _ _ => true
  | .faultLimitExpiry _ => true
  | .peerStateWrite _ _ => true
  | .multicastTableInstall _ _ _ _ => true
  | .deathNotice _ => true
  | .dispatchPass _ => true
  | .remoteTrafficSample _ => true
  | .binTimerLapse _ _ => true
  | .binAdmit _ _ => true
  | .nodeEndToken _ _ => true
  | .leaveGrant _ => true
  | .matrixLeaseLapse _ => true
  | .clauseFetch _ _ => true
  | .ageWrap _ _ => true
  | .splitRotation _ _ => true
  | .variableResultWrite _ _ => true
  | .matrixQueueExecute _ => true
  | .joinWindowClose _ _ => true
  | .asyncOpComplete _ _ _ _ => true
  | .invalidationAck _ _ => true
  | .hitchLineReturn _ => true
  | .linkSleep _ => true
  | .wakeBeacon _ => true
  | .wakeHoldTimeout _ => true
  | .dieDeclaredDead _ => true
  | .dieFenceCommand _ => true
  | .dieTestComplete _ _ => true
  | .packageStop _ _ => true
  | .coldStart => true
  | .warmStart => true
  | .recoverySlotWrite _ _ => true
  | .barrierWatchdog _ _ => true
  | .contextWatchdog _ _ => true
  | .abandonGraceExpiry _ => true
  | .drainLimit _ _ => true
  | .drainComplete _ _ => true
  | .saveAreaWriteout _ _ _ => true
  | .restorePlacement _ _ => true
  | .teamRetire _ => true
  | .gridRetire _ => true
  | .landauReclaim _ _ => true
  | .remoteInboundRequest _ => true
  | .multicastCopyArrival _ => true
  | .reductionInstanceComplete _ _ _ _ => true
  | .multicastAckReturn _ _ _ => true
  | .fabricResend _ _ => true
  | .fabricPortSilence _ _ => true
  | .waitDeadline _ _ => true
  | .barWaitDeadline _ _ => true
  | .sigwDeadline _ _ => true
  | .storeCompletion _ _ => true
  | .copyCompletion _ _ _ => true
  | .hostApertureAccess _ _ => true
  | .pciePortDown _ => true

end Sys2Proof
end

