-- ==== Sys2Proof/Decode.lean ====
section
/-! DEFINITION. The decoder and the encoder of the 178 program forms (R69 to R88). The class is not in the word: it stands in
the header of the clause that holds it (R69), so the decoder takes the class, the word and its extension word. -/
namespace Sys2Proof

/-- Bits `lo + n − 1 : lo` of a word. -/
def field (w : Word) (lo n : Nat) : BitVec n := w.extractLsb' lo n

/-- The fields of a format A word (R74). -/
def WA.of (w : Word) : WA :=
  ⟨field w 30 2, field w 21 3, field w 14 7, field w 7 7, field w 0 7⟩

/-- The format A word of an opcode and its fields (R74). -/
def WA.word (op : BitVec 6) (f : WA) : Word :=
  f.stall ++ op ++ f.pred ++ f.d ++ f.a ++ f.b

/-- The fields of a format B word (R74). -/
def WB.of (w : Word) : WB :=
  ⟨field w 30 2, field w 21 3, field w 14 7, field w 7 7, field w 0 7⟩

/-- The format B word of an opcode and its fields (R74). -/
def WB.word (op : BitVec 6) (f : WB) : Word :=
  f.stall ++ op ++ f.pred ++ f.d ++ f.a ++ f.func

/-- The fields of a format C word (R74). -/
def WC.of (w : Word) : WC :=
  ⟨field w 30 2, field w 21 3, field w 14 7, field w 0 14⟩

/-- The format C word of an opcode and its fields (R74). -/
def WC.word (op : BitVec 6) (f : WC) : Word :=
  f.stall ++ op ++ f.pred ++ f.d ++ f.imm

/-- The fields of a format D word (R74). -/
def WD.of (w : Word) : WD :=
  ⟨field w 30 2, field w 21 3, field w 0 21⟩

/-- The format D word of an opcode and its fields (R74). -/
def WD.word (op : BitVec 6) (f : WD) : Word :=
  f.stall ++ op ++ f.pred ++ f.off

/-- The fields of a format S word (R74). -/
def WS.of (w : Word) : WS :=
  ⟨field w 30 2, field w 21 3, field w 15 6, field w 9 6, field w 3 6, field w 0 3⟩

/-- The format S word of an opcode and its fields (R74). -/
def WS.word (op : BitVec 6) (f : WS) : Word :=
  f.stall ++ op ++ f.qual ++ f.sd ++ f.sa ++ f.sb ++ f.sub

/-- The fields of the word: The modifier layout of an extension word (R76), highest field first. -/
def XMod.of (w : Word) : XMod :=
  ⟨field w 25 7, field w 24 1, field w 23 1, field w 22 1, field w 21 1, field w 18 3, field w 17 1, field w 14 3, field w 13 1, field w 6 7, field w 0 6⟩

/-- The word of the fields: The modifier layout of an extension word (R76), highest field first. -/
def XMod.word (f : XMod) : Word :=
  f.c ++ f.absA ++ f.negC ++ f.negB ++ f.negA ++ f.rnd ++ f.sat ++ f.xlm ++ f.xls ++ f.limm ++ f.sreg

/-- The fields of the word: Reconvergence literal of BRA and BRX (R110). -/
def ReconvLit.of (w : Word) : ReconvLit :=
  ⟨field w 30 2, field w 0 30⟩

/-- The word of the fields: Reconvergence literal of BRA and BRX (R110). -/
def ReconvLit.word (f : ReconvLit) : Word :=
  f.rk ++ f.roff

/-- The fields of the word: Literal of REGION (R239). -/
def RegionLit.of (w : Word) : RegionLit :=
  ⟨field w 30 2, field w 8 22, field w 0 8⟩

/-- The word of the fields: Literal of REGION (R239). -/
def RegionLit.word (f : RegionLit) : Word :=
  f.mode ++ f.rsv ++ f.limit

/-- The fields of the word: Literal of the matrix multiplies (R160). -/
def MmaLit.of (w : Word) : MmaLit :=
  ⟨field w 26 6, field w 24 2, field w 18 6, field w 17 1, field w 16 1, field w 15 1, field w 14 1, field w 0 14⟩

/-- The word of the fields: Literal of the matrix multiplies (R160). -/
def MmaLit.word (f : MmaLit) : Word :=
  f.ncode ++ f.mcode ++ f.mrec ++ f.sat ++ f.bmode ++ f.iacc ++ f.zero ++ f.rsv

/-- The fields of the word: Literal of ALDS and ASTS (R180). -/
def SpLit.of (w : Word) : SpLit :=
  ⟨field w 20 12, field w 8 12, field w 0 8⟩

/-- The word of the fields: Literal of ALDS and ASTS (R180). -/
def SpLit.word (f : SpLit) : Word :=
  f.rstr ++ f.bstr ++ f.nblk

/-- The fields of the word: Literal of the memory words (R206). -/
def MemLit.of (w : Word) : MemLit :=
  ⟨field w 29 3, field w 28 1, field w 25 3, field w 23 2, field w 17 6, field w 15 2, field w 13 2, field w 10 3, field w 0 10⟩

/-- The word of the fields: Literal of the memory words (R206). -/
def MemLit.word (f : MemLit) : Word :=
  f.sz ++ f.ix ++ f.space ++ f.bk ++ f.base ++ f.scale ++ f.ord ++ f.scope ++ f.disp

/-- The fields of the word: Literal of CPY (R222). -/
def CpyLit.of (w : Word) : CpyLit :=
  ⟨field w 28 4, field w 16 12, field w 0 16⟩

/-- The word of the fields: Literal of CPY (R222). -/
def CpyLit.word (f : CpyLit) : Word :=
  f.mmask ++ f.rowsm1 ++ f.gstr

/-- The fields of the word: Literal of GATHER and SCATTER (R223). -/
def GatLit.of (w : Word) : GatLit :=
  ⟨field w 5 27, field w 0 5⟩

/-- The word of the fields: Literal of GATHER and SCATTER (R223). -/
def GatLit.word (f : GatLit) : Word :=
  f.stride ++ f.rsv

/-- The fields of the word: Literal of SPAWN (R297). -/
def SpawnLit.of (w : Word) : SpawnLit :=
  ⟨field w 18 14, field w 17 1, field w 16 1, field w 0 16⟩

/-- The word of the fields: Literal of SPAWN (R297). -/
def SpawnLit.word (f : SpawnLit) : Word :=
  f.rsv ++ f.nodereg ++ f.last ++ f.node

/-- The fields of the word: Literal of STMC and REDMC (R362). -/
def McLit.of (w : Word) : McLit :=
  ⟨field w 29 3, field w 28 1, field w 22 6, field w 20 2, field w 16 4, field w 15 1, field w 14 1, field w 8 6, field w 0 8⟩

/-- The word of the fields: Literal of STMC and REDMC (R362). -/
def McLit.word (f : McLit) : Word :=
  f.sz ++ f.ix ++ f.base ++ f.scale ++ f.aop ++ f.rel ++ f.acken ++ f.ackr ++ f.disp

/-- The fields of the word: Literal of TDESC, TEXP and TBACK (R322). -/
def TreeLit.of (w : Word) : TreeLit :=
  ⟨field w 15 17, field w 13 2, field w 12 1, field w 6 6, field w 0 6⟩

/-- The word of the fields: Literal of TDESC, TEXP and TBACK (R322). -/
def TreeLit.word (f : TreeLit) : Word :=
  f.rsv ++ f.mode ++ f.ben ++ f.boff ++ f.desc

/-- What an opcode accepts after it (R77): nothing, an optional modifier or literal, a required one, or a literal required
when bits 2:0 are 1 and refused otherwise. -/
inductive XForm where
  | never | opt | must | whenSub1
deriving DecidableEq, Repr

/-- What the maps R84 to R86 say of an opcode: its format and the extension word it takes. -/
inductive Fmt where
  | a | b | c | d | s
deriving DecidableEq, Repr

/-- The opcode map of class ALU (R84 to R86): format and extension word; `none` for a reserved opcode. -/
def mapAlu : Nat → Option (Fmt × XForm)
  | 0 => some (.a, .opt)
  | 1 => some (.a, .opt)
  | 2 => some (.a, .opt)
  | 3 => some (.a, .opt)
  | 4 => some (.a, .must)
  | 5 => some (.a, .opt)
  | 6 => some (.a, .opt)
  | 7 => some (.a, .opt)
  | 8 => some (.a, .opt)
  | 9 => some (.a, .opt)
  | 10 => some (.a, .opt)
  | 11 => some (.a, .opt)
  | 12 => some (.a, .opt)
  | 13 => some (.b, .opt)
  | 14 => some (.a, .opt)
  | 15 => some (.a, .must)
  | 16 => some (.a, .opt)
  | 17 => some (.a, .must)
  | 18 => some (.b, .opt)
  | 19 => some (.c, .opt)
  | 20 => some (.a, .opt)
  | 21 => some (.a, .must)
  | 22 => some (.a, .opt)
  | 23 => some (.a, .opt)
  | 24 => some (.a, .opt)
  | 25 => some (.a, .must)
  | 26 => some (.a, .opt)
  | 27 => some (.a, .opt)
  | 28 => some (.a, .opt)
  | 29 => some (.a, .opt)
  | 30 => some (.b, .opt)
  | 31 => some (.a, .opt)
  | 32 => some (.a, .opt)
  | 33 => some (.a, .must)
  | 34 => some (.a, .opt)
  | 35 => some (.a, .opt)
  | 36 => some (.a, .must)
  | 37 => some (.b, .opt)
  | 38 => some (.a, .opt)
  | 39 => some (.b, .opt)
  | 40 => some (.a, .opt)
  | 41 => some (.b, .opt)
  | 42 => some (.b, .opt)
  | 43 => some (.b, .opt)
  | 44 => some (.a, .never)
  | 48 => some (.s, .never)
  | 49 => some (.s, .never)
  | 50 => some (.s, .must)
  | 51 => some (.s, .must)
  | 52 => some (.s, .never)
  | 53 => some (.s, .never)
  | 54 => some (.s, .never)
  | 55 => some (.s, .never)
  | 56 => some (.s, .whenSub1)
  | 57 => some (.s, .never)
  | _ => none

/-- The opcode map of class MATRIX (R84 to R86): format and extension word; `none` for a reserved opcode. -/
def mapMatrix : Nat → Option (Fmt × XForm)
  | 0 => some (.a, .must)
  | 1 => some (.a, .must)
  | 2 => some (.a, .must)
  | 3 => some (.a, .must)
  | 4 => some (.c, .never)
  | 5 => some (.b, .never)
  | 6 => some (.b, .never)
  | 7 => some (.b, .opt)
  | 8 => some (.a, .must)
  | 9 => some (.a, .must)
  | _ => none

/-- The opcode map of class MEMORY (R84 to R86): format and extension word; `none` for a reserved opcode. -/
def mapMemory : Nat → Option (Fmt × XForm)
  | 0 => some (.a, .must)
  | 1 => some (.a, .must)
  | 2 => some (.a, .must)
  | 3 => some (.a, .must)
  | 4 => some (.a, .must)
  | 5 => some (.a, .must)
  | 6 => some (.a, .must)
  | 7 => some (.s, .never)
  | 8 => some (.s, .never)
  | _ => none

/-- The opcode map of class ASYNC (R84 to R86): format and extension word; `none` for a reserved opcode. -/
def mapAsync : Nat → Option (Fmt × XForm)
  | 0 => some (.s, .must)
  | 1 => some (.s, .must)
  | 2 => some (.s, .must)
  | 3 => some (.s, .never)
  | 4 => some (.s, .never)
  | 5 => some (.s, .never)
  | 8 => some (.s, .never)
  | 9 => some (.a, .must)
  | 12 => some (.a, .must)
  | 13 => some (.a, .must)
  | 16 => some (.a, .must)
  | 17 => some (.a, .must)
  | 18 => some (.a, .must)
  | 19 => some (.s, .never)
  | 20 => some (.a, .never)
  | _ => none

/-- The opcode map of class SYNC (R84 to R86): format and extension word; `none` for a reserved opcode. -/
def mapSync : Nat → Option (Fmt × XForm)
  | 0 => some (.s, .never)
  | 1 => some (.s, .never)
  | 2 => some (.c, .never)
  | 3 => some (.s, .opt)
  | 4 => some (.s, .never)
  | 5 => some (.s, .never)
  | 6 => some (.s, .never)
  | 7 => some (.s, .never)
  | _ => none

/-- The opcode map of class CONTROL (R84 to R86): format and extension word; `none` for a reserved opcode. -/
def mapControl : Nat → Option (Fmt × XForm)
  | 0 => some (.c, .never)
  | 1 => some (.d, .must)
  | 2 => some (.d, .never)
  | 3 => some (.b, .must)
  | 4 => some (.d, .never)
  | 5 => some (.b, .never)
  | 6 => some (.c, .never)
  | 7 => some (.c, .never)
  | 8 => some (.c, .never)
  | 9 => some (.c, .never)
  | 10 => some (.c, .never)
  | 16 => some (.d, .must)
  | 17 => some (.c, .never)
  | 18 => some (.b, .never)
  | 19 => some (.s, .never)
  | 20 => some (.b, .never)
  | 21 => some (.b, .never)
  | _ => none

/-- The opcode map of class SYSTEM (R84 to R86): format and extension word; `none` for a reserved opcode. -/
def mapSystem : Nat → Option (Fmt × XForm)
  | 0 => some (.c, .never)
  | 1 => some (.c, .never)
  | 2 => some (.c, .never)
  | 3 => some (.s, .never)
  | 4 => some (.s, .never)
  | 5 => some (.c, .never)
  | _ => none

/-- The opcode map of a class. -/
def opInfo (c : Cls) (op : Nat) : Option (Fmt × XForm) :=
  match c with
  | .alu => mapAlu op
  | .matrix => mapMatrix op
  | .memory => mapMemory op
  | .async => mapAsync op
  | .sync => mapSync op
  | .control => mapControl op
  | .system => mapSystem op

/-- An instruction that takes no extension word. -/
def noX (x : Option Word) (i : Instr) : Option Instr := match x with | none => some i | some _ => none
/-- An instruction with an optional modifier word. -/
def optX (x : Option Word) (f : Option XMod → Instr) : Option Instr := some (f (x.map XMod.of))
/-- An instruction with an optional literal. -/
def optL (x : Option Word) (f : Option Word → Instr) : Option Instr := some (f x)
/-- An instruction with a required extension word. -/
def mustX {α : Type} (of : Word → α) (x : Option Word) (f : α → Instr) : Option Instr := x.map (fun w => f (of w))

/-- The instruction of a word of class ALU (R84 to R86). -/
def decodeAlu (w : Word) (x : Option Word) : Option Instr :=
  match (field w 24 6).toNat with
  | 0 => optX x (.vadd (WA.of w))
  | 1 => optX x (.vsub (WA.of w))
  | 2 => optX x (.vmul (WA.of w))
  | 3 => optX x (.vmulh (WA.of w))
  | 4 => mustX XMod.of x (.vmad (WA.of w))
  | 5 => optX x (.vand (WA.of w))
  | 6 => optX x (.vor (WA.of w))
  | 7 => optX x (.vxor (WA.of w))
  | 8 => optX x (.vshl (WA.of w))
  | 9 => optX x (.vshr (WA.of w))
  | 10 => optX x (.vsar (WA.of w))
  | 11 => optX x (.vmin (WA.of w))
  | 12 => optX x (.vmax (WA.of w))
  | 13 =>
    match (field w 0 7).toNat with
    | 1 => optX x (.vpopc (WB.of w))
    | 2 => optX x (.vclz (WB.of w))
    | 3 => optX x (.vbrev (WB.of w))
    | _ => optX x (.vabs (WB.of w))
  | 14 => optX x (.vbfe (WA.of w))
  | 15 => mustX XMod.of x (.vbfi (WA.of w))
  | 16 => optX x (.vcmp (WA.of w))
  | 17 => mustX XMod.of x (.vsel (WA.of w))
  | 18 => optX x (.vmov (WB.of w))
  | 19 => optL x (.vldi (WC.of w))
  | 20 => optX x (.vadd64 (WA.of w))
  | 21 => mustX XMod.of x (.vmad64 (WA.of w))
  | 22 => optX x (.fadd (WA.of w))
  | 23 => optX x (.fsub (WA.of w))
  | 24 => optX x (.fmul (WA.of w))
  | 25 => mustX XMod.of x (.ffma (WA.of w))
  | 26 => optX x (.fmin (WA.of w))
  | 27 => optX x (.fmax (WA.of w))
  | 28 => optX x (.fcmp (WA.of w))
  | 29 => optX x (.fdiv (WA.of w))
  | 30 =>
    match (field w 0 7).toNat with
    | 1 => optX x (.frcp (WB.of w))
    | 2 => optX x (.frsq (WB.of w))
    | 3 => optX x (.fexp2 (WB.of w))
    | 4 => optX x (.flog2 (WB.of w))
    | 5 => optX x (.fsin (WB.of w))
    | 6 => optX x (.fcos (WB.of w))
    | _ => optX x (.fsqrt (WB.of w))
  | 31 => optX x (.dadd (WA.of w))
  | 32 => optX x (.dmul (WA.of w))
  | 33 => mustX XMod.of x (.dfma (WA.of w))
  | 34 => optX x (.hadd2 (WA.of w))
  | 35 => optX x (.hmul2 (WA.of w))
  | 36 => mustX XMod.of x (.hfma2 (WA.of w))
  | 37 => optX x (.fcvt (WB.of w))
  | 38 => optX x (.fpack (WA.of w))
  | 39 => optX x (.funpk (WB.of w))
  | 40 => optX x (.vshfl (WA.of w))
  | 41 =>
    match (field w 0 7).toNat with
    | 1 => optX x (.vvoteAny (WB.of w))
    | 2 => optX x (.vvoteUni (WB.of w))
    | 3 => optX x (.vvoteBallot (WB.of w))
    | 4 => optX x (.vvoteCount (WB.of w))
    | 5 => optX x (.vvoteLaneid (WB.of w))
    | _ => optX x (.vvoteAll (WB.of w))
  | 42 => optX x (.vred (WB.of w))
  | 43 => optX x (.vscan (WB.of w))
  | 44 =>
    match (field w 17 4).toNat with
    | 1 => noX x (.por (WA.of w))
    | 2 => noX x (.pxor (WA.of w))
    | 3 => noX x (.pnot (WA.of w))
    | 4 => noX x (.pmov (WA.of w))
    | _ => noX x (.pand (WA.of w))
  | 48 =>
    match (field w 0 3).toNat with
    | 1 => noX x (.ssub (WS.of w))
    | 2 => noX x (.smul (WS.of w))
    | 3 => noX x (.smin (WS.of w))
    | 4 => noX x (.smax (WS.of w))
    | 5 => noX x (.smov (WS.of w))
    | 6 => noX x (.sminU (WS.of w))
    | 7 => noX x (.smaxU (WS.of w))
    | _ => noX x (.sadd (WS.of w))
  | 49 =>
    match (field w 0 3).toNat with
    | 1 => noX x (.sor (WS.of w))
    | 2 => noX x (.sxor (WS.of w))
    | 3 => noX x (.sshl (WS.of w))
    | 4 => noX x (.sshr (WS.of w))
    | 5 => noX x (.ssar (WS.of w))
    | _ => noX x (.sand (WS.of w))
  | 50 => mustX XMod.of x (.smad (WS.of w))
  | 51 => mustX id x (.sldi (WS.of w))
  | 52 => noX x (.scmp (WS.of w))
  | 53 => noX x (.ssel (WS.of w))
  | 54 => noX x (.sread (WS.of w))
  | 55 => noX x (.swrite (WS.of w))
  | 56 =>
    match (field w 0 3).toNat with
    | 1 => mustX id x (.fmtsetLit (WS.of w))
    | _ => noX x (.fmtset (WS.of w))
  | 57 => noX x (.fmtget (WS.of w))
  | _ => none

/-- The instruction of a word of class MATRIX (R84 to R86). -/
def decodeMatrix (w : Word) (x : Option Word) : Option Instr :=
  match (field w 24 6).toNat with
  | 0 => mustX MmaLit.of x (.mma (WA.of w))
  | 1 => mustX MmaLit.of x (.mmai (WA.of w))
  | 2 => mustX MmaLit.of x (.mmab (WA.of w))
  | 3 => mustX MmaLit.of x (.mmas (WA.of w))
  | 4 => noX x (.aclr (WC.of w))
  | 5 => noX x (.ald (WB.of w))
  | 6 => noX x (.ast (WB.of w))
  | 7 => optX x (.acvt (WB.of w))
  | 8 => mustX SpLit.of x (.alds (WA.of w))
  | 9 => mustX SpLit.of x (.asts (WA.of w))
  | _ => none

/-- The instruction of a word of class MEMORY (R84 to R86). R86 lists the opcodes 0x00 to 0x06 in another order than R211 to R217 number
them; these numbers, which the worked examples bear out, are followed (log entry 16). -/
def decodeMemory (w : Word) (x : Option Word) : Option Instr :=
  match (field w 24 6).toNat with
  | 0 => mustX MemLit.of x (.ld (WA.of w))
  | 1 => mustX MemLit.of x (.ldu (WA.of w))
  | 2 => mustX MemLit.of x (.ldc (WA.of w))
  | 3 => mustX MemLit.of x (.st (WA.of w))
  | 4 => mustX MemLit.of x (.atom (WA.of w))
  | 5 => mustX MemLit.of x (.red (WA.of w))
  | 6 => mustX MemLit.of x (.pref (WA.of w))
  | 7 => noX x (.xlate (WS.of w))
  | 8 => noX x (.xinfo (WS.of w))
  | _ => none

/-- The instruction of a word of class ASYNC (R84 to R86). -/
def decodeAsync (w : Word) (x : Option Word) : Option Instr :=
  match (field w 24 6).toNat with
  | 0 =>
    match (field w 0 3).toNat with
    | 1 => mustX CpyLit.of x (.cpyS2g (WS.of w))
    | 2 => mustX CpyLit.of x (.cpyS2p (WS.of w))
    | _ => mustX CpyLit.of x (.cpyG2s (WS.of w))
  | 1 => mustX GatLit.of x (.gather (WS.of w))
  | 2 => mustX GatLit.of x (.scatter (WS.of w))
  | 3 => noX x (.wait (WS.of w))
  | 4 => noX x (.cnt (WS.of w))
  | 5 => noX x (.xfence (WS.of w))
  | 8 =>
    match (field w 0 1).toNat with
    | 1 => noX x (.getworkNw (WS.of w))
    | _ => noX x (.getwork (WS.of w))
  | 9 => mustX SpawnLit.of x (.spawn (WA.of w))
  | 12 => mustX McLit.of x (.stmc (WA.of w))
  | 13 => mustX McLit.of x (.redmc (WA.of w))
  | 16 => mustX TreeLit.of x (.tdesc (WA.of w))
  | 17 => mustX TreeLit.of x (.texp (WA.of w))
  | 18 => mustX TreeLit.of x (.tback (WA.of w))
  | 19 => noX x (.treuse (WS.of w))
  | 20 =>
    match (field w 6 1).toNat with
    | 1 => noX x (.tnodeLink (WA.of w))
    | _ => noX x (.tnode (WA.of w))
  | _ => none

/-- The instruction of a word of class SYNC (R84 to R86). -/
def decodeSync (w : Word) (x : Option Word) : Option Instr :=
  match (field w 24 6).toNat with
  | 0 =>
    match (field w 0 3).toNat with
    | 1 => noX x (.barWait (WS.of w))
    | 2 => noX x (.barSync (WS.of w))
    | _ => noX x (.barArv (WS.of w))
  | 1 => noX x (.barq (WS.of w))
  | 2 =>
    match (field w 0 2).toNat with
    | 1 => noX x (.fenceRel (WC.of w))
    | 2 => noX x (.fenceFull (WC.of w))
    | _ => noX x (.fenceAcq (WC.of w))
  | 3 =>
    match (field w 0 2).toNat with
    | 1 => optL x (.sigAdd (WS.of w))
    | 2 => optL x (.sigSetRet (WS.of w))
    | 3 => optL x (.sigAddRet (WS.of w))
    | _ => optL x (.sigSet (WS.of w))
  | 4 => noX x (.sigw (WS.of w))
  | 5 => noX x (.fork (WS.of w))
  | 6 => noX x (.choose (WS.of w))
  | 7 =>
    match (field w 0 3).toNat with
    | 1 => noX x (.viewRival (WS.of w))
    | 2 => noX x (.viewDepth (WS.of w))
    | 3 => noX x (.viewParent (WS.of w))
    | 4 => noX x (.viewLog (WS.of w))
    | 5 => noX x (.viewSect (WS.of w))
    | 6 => noX x (.viewDec (WS.of w))
    | _ => noX x (.viewId (WS.of w))
  | _ => none

/-- The instruction of a word of class CONTROL (R84 to R86). -/
def decodeControl (w : Word) (x : Option Word) : Option Instr :=
  match (field w 24 6).toNat with
  | 0 => noX x (.nop (WC.of w))
  | 1 => mustX ReconvLit.of x (.bra (WD.of w))
  | 2 => noX x (.bru (WD.of w))
  | 3 => mustX ReconvLit.of x (.brx (WB.of w))
  | 4 => noX x (.call (WD.of w))
  | 5 => noX x (.callx (WB.of w))
  | 6 => noX x (.ret (WC.of w))
  | 7 => noX x (.join (WC.of w))
  | 8 => noX x (.exit (WC.of w))
  | 9 => noX x (.yieldw (WC.of w))
  | 10 => noX x (.role (WC.of w))
  | 16 => mustX RegionLit.of x (.region (WD.of w))
  | 17 =>
    match (field w 0 2).toNat with
    | 1 => noX x (.commitRpl (WC.of w))
    | 2 => noX x (.commitFwd (WC.of w))
    | 3 => noX x (.commit (WC.of w))
    | _ => noX x (.commitRel (WC.of w))
  | 18 =>
    match (field w 0 7).toNat with
    | 1 => noX x (.pchkP (WB.of w))
    | 2 => noX x (.pchkS (WB.of w))
    | 3 => noX x (.pchkReg (WB.of w))
    | 4 => noX x (.pchkOrph (WB.of w))
    | _ => noX x (.pchk (WB.of w))
  | 19 => noX x (.pinfo (WS.of w))
  | 20 =>
    match (field w 0 7).toNat with
    | 1 => noX x (.psetS (WB.of w))
    | _ => noX x (.pset (WB.of w))
  | 21 =>
    match (field w 0 7).toNat with
    | 1 => noX x (.pclrS (WB.of w))
    | 2 => noX x (.pclrTab (WB.of w))
    | _ => noX x (.pclr (WB.of w))
  | _ => none

/-- The instruction of a word of class SYSTEM (R84 to R86). -/
def decodeSystem (w : Word) (x : Option Word) : Option Instr :=
  match (field w 24 6).toNat with
  | 0 => noX x (.trap (WC.of w))
  | 1 => noX x (.bkpt (WC.of w))
  | 2 => noX x (.rte (WC.of w))
  | 3 => noX x (.sreadp (WS.of w))
  | 4 => noX x (.swritep (WS.of w))
  | 5 => noX x (.haltg (WC.of w))
  | _ => none

/-- The instruction of a word and its extension word in a clause of class `c`: `none` where the opcode is reserved or the
extension word is missing or unwanted (R87 reasons 8, 10 and 11). -/
def decodeWord (c : Cls) (w : Word) (x : Option Word) : Option Instr :=
  match c with
  | .alu => decodeAlu w x
  | .matrix => decodeMatrix w x
  | .memory => decodeMemory w x
  | .async => decodeAsync w x
  | .sync => decodeSync w x
  | .control => decodeControl w x
  | .system => decodeSystem w x

/-- The code of a program form: the class of its clause, its word, and its extension word if it has one. -/
structure Code where
  cls : Cls
  word : Word
  x : Option Word
deriving DecidableEq, Repr

/-- The encoder (R74, R76, R84 to R86); a device step has no encoding. -/
def encode : Instr → Option Code
  | .vadd w x => some ⟨.alu, WA.word 0 w, x.map XMod.word⟩
  | .vsub w x => some ⟨.alu, WA.word 1 w, x.map XMod.word⟩
  | .vmul w x => some ⟨.alu, WA.word 2 w, x.map XMod.word⟩
  | .vmulh w x => some ⟨.alu, WA.word 3 w, x.map XMod.word⟩
  | .vmad w x => some ⟨.alu, WA.word 4 w, some x.word⟩
  | .vand w x => some ⟨.alu, WA.word 5 w, x.map XMod.word⟩
  | .vor w x => some ⟨.alu, WA.word 6 w, x.map XMod.word⟩
  | .vxor w x => some ⟨.alu, WA.word 7 w, x.map XMod.word⟩
  | .vshl w x => some ⟨.alu, WA.word 8 w, x.map XMod.word⟩
  | .vshr w x => some ⟨.alu, WA.word 9 w, x.map XMod.word⟩
  | .vsar w x => some ⟨.alu, WA.word 10 w, x.map XMod.word⟩
  | .vmin w x => some ⟨.alu, WA.word 11 w, x.map XMod.word⟩
  | .vmax w x => some ⟨.alu, WA.word 12 w, x.map XMod.word⟩
  | .vabs w x => some ⟨.alu, WB.word 13 w, x.map XMod.word⟩
  | .vpopc w x => some ⟨.alu, WB.word 13 w, x.map XMod.word⟩
  | .vclz w x => some ⟨.alu, WB.word 13 w, x.map XMod.word⟩
  | .vbrev w x => some ⟨.alu, WB.word 13 w, x.map XMod.word⟩
  | .vbfe w x => some ⟨.alu, WA.word 14 w, x.map XMod.word⟩
  | .vbfi w x => some ⟨.alu, WA.word 15 w, some x.word⟩
  | .vcmp w x => some ⟨.alu, WA.word 16 w, x.map XMod.word⟩
  | .vsel w x => some ⟨.alu, WA.word 17 w, some x.word⟩
  | .vmov w x => some ⟨.alu, WB.word 18 w, x.map XMod.word⟩
  | .vldi w l => some ⟨.alu, WC.word 19 w, l⟩
  | .vadd64 w x => some ⟨.alu, WA.word 20 w, x.map XMod.word⟩
  | .vmad64 w x => some ⟨.alu, WA.word 21 w, some x.word⟩
  | .fadd w x => some ⟨.alu, WA.word 22 w, x.map XMod.word⟩
  | .fsub w x => some ⟨.alu, WA.word 23 w, x.map XMod.word⟩
  | .fmul w x => some ⟨.alu, WA.word 24 w, x.map XMod.word⟩
  | .ffma w x => some ⟨.alu, WA.word 25 w, some x.word⟩
  | .fmin w x => some ⟨.alu, WA.word 26 w, x.map XMod.word⟩
  | .fmax w x => some ⟨.alu, WA.word 27 w, x.map XMod.word⟩
  | .fcmp w x => some ⟨.alu, WA.word 28 w, x.map XMod.word⟩
  | .fdiv w x => some ⟨.alu, WA.word 29 w, x.map XMod.word⟩
  | .fsqrt w x => some ⟨.alu, WB.word 30 w, x.map XMod.word⟩
  | .frcp w x => some ⟨.alu, WB.word 30 w, x.map XMod.word⟩
  | .frsq w x => some ⟨.alu, WB.word 30 w, x.map XMod.word⟩
  | .fexp2 w x => some ⟨.alu, WB.word 30 w, x.map XMod.word⟩
  | .flog2 w x => some ⟨.alu, WB.word 30 w, x.map XMod.word⟩
  | .fsin w x => some ⟨.alu, WB.word 30 w, x.map XMod.word⟩
  | .fcos w x => some ⟨.alu, WB.word 30 w, x.map XMod.word⟩
  | .dadd w x => some ⟨.alu, WA.word 31 w, x.map XMod.word⟩
  | .dmul w x => some ⟨.alu, WA.word 32 w, x.map XMod.word⟩
  | .dfma w x => some ⟨.alu, WA.word 33 w, some x.word⟩
  | .hadd2 w x => some ⟨.alu, WA.word 34 w, x.map XMod.word⟩
  | .hmul2 w x => some ⟨.alu, WA.word 35 w, x.map XMod.word⟩
  | .hfma2 w x => some ⟨.alu, WA.word 36 w, some x.word⟩
  | .fcvt w x => some ⟨.alu, WB.word 37 w, x.map XMod.word⟩
  | .fpack w x => some ⟨.alu, WA.word 38 w, x.map XMod.word⟩
  | .funpk w x => some ⟨.alu, WB.word 39 w, x.map XMod.word⟩
  | .vshfl w x => some ⟨.alu, WA.word 40 w, x.map XMod.word⟩
  | .vvoteAll w x => some ⟨.alu, WB.word 41 w, x.map XMod.word⟩
  | .vvoteAny w x => some ⟨.alu, WB.word 41 w, x.map XMod.word⟩
  | .vvoteUni w x => some ⟨.alu, WB.word 41 w, x.map XMod.word⟩
  | .vvoteBallot w x => some ⟨.alu, WB.word 41 w, x.map XMod.word⟩
  | .vvoteCount w x => some ⟨.alu, WB.word 41 w, x.map XMod.word⟩
  | .vvoteLaneid w x => some ⟨.alu, WB.word 41 w, x.map XMod.word⟩
  | .vred w x => some ⟨.alu, WB.word 42 w, x.map XMod.word⟩
  | .vscan w x => some ⟨.alu, WB.word 43 w, x.map XMod.word⟩
  | .pand w => some ⟨.alu, WA.word 44 w, none⟩
  | .por w => some ⟨.alu, WA.word 44 w, none⟩
  | .pxor w => some ⟨.alu, WA.word 44 w, none⟩
  | .pnot w => some ⟨.alu, WA.word 44 w, none⟩
  | .pmov w => some ⟨.alu, WA.word 44 w, none⟩
  | .sadd w => some ⟨.alu, WS.word 48 w, none⟩
  | .ssub w => some ⟨.alu, WS.word 48 w, none⟩
  | .smul w => some ⟨.alu, WS.word 48 w, none⟩
  | .smin w => some ⟨.alu, WS.word 48 w, none⟩
  | .smax w => some ⟨.alu, WS.word 48 w, none⟩
  | .smov w => some ⟨.alu, WS.word 48 w, none⟩
  | .sminU w => some ⟨.alu, WS.word 48 w, none⟩
  | .smaxU w => some ⟨.alu, WS.word 48 w, none⟩
  | .sand w => some ⟨.alu, WS.word 49 w, none⟩
  | .sor w => some ⟨.alu, WS.word 49 w, none⟩
  | .sxor w => some ⟨.alu, WS.word 49 w, none⟩
  | .sshl w => some ⟨.alu, WS.word 49 w, none⟩
  | .sshr w => some ⟨.alu, WS.word 49 w, none⟩
  | .ssar w => some ⟨.alu, WS.word 49 w, none⟩
  | .smad w x => some ⟨.alu, WS.word 50 w, some x.word⟩
  | .sldi w l => some ⟨.alu, WS.word 51 w, some l⟩
  | .scmp w => some ⟨.alu, WS.word 52 w, none⟩
  | .ssel w => some ⟨.alu, WS.word 53 w, none⟩
  | .sread w => some ⟨.alu, WS.word 54 w, none⟩
  | .swrite w => some ⟨.alu, WS.word 55 w, none⟩
  | .fmtset w => some ⟨.alu, WS.word 56 w, none⟩
  | .fmtsetLit w l => some ⟨.alu, WS.word 56 w, some l⟩
  | .fmtget w => some ⟨.alu, WS.word 57 w, none⟩
  | .nop w => some ⟨.control, WC.word 0 w, none⟩
  | .bra w l => some ⟨.control, WD.word 1 w, some l.word⟩
  | .bru w => some ⟨.control, WD.word 2 w, none⟩
  | .brx w l => some ⟨.control, WB.word 3 w, some l.word⟩
  | .call w => some ⟨.control, WD.word 4 w, none⟩
  | .callx w => some ⟨.control, WB.word 5 w, none⟩
  | .ret w => some ⟨.control, WC.word 6 w, none⟩
  | .join w => some ⟨.control, WC.word 7 w, none⟩
  | .exit w => some ⟨.control, WC.word 8 w, none⟩
  | .yieldw w => some ⟨.control, WC.word 9 w, none⟩
  | .role w => some ⟨.control, WC.word 10 w, none⟩
  | .region w l => some ⟨.control, WD.word 16 w, some l.word⟩
  | .commitRel w => some ⟨.control, WC.word 17 w, none⟩
  | .commitRpl w => some ⟨.control, WC.word 17 w, none⟩
  | .commitFwd w => some ⟨.control, WC.word 17 w, none⟩
  | .commit w => some ⟨.control, WC.word 17 w, none⟩
  | .pchk w => some ⟨.control, WB.word 18 w, none⟩
  | .pchkP w => some ⟨.control, WB.word 18 w, none⟩
  | .pchkS w => some ⟨.control, WB.word 18 w, none⟩
  | .pchkReg w => some ⟨.control, WB.word 18 w, none⟩
  | .pchkOrph w => some ⟨.control, WB.word 18 w, none⟩
  | .pinfo w => some ⟨.control, WS.word 19 w, none⟩
  | .pset w => some ⟨.control, WB.word 20 w, none⟩
  | .psetS w => some ⟨.control, WB.word 20 w, none⟩
  | .pclr w => some ⟨.control, WB.word 21 w, none⟩
  | .pclrS w => some ⟨.control, WB.word 21 w, none⟩
  | .pclrTab w => some ⟨.control, WB.word 21 w, none⟩
  | .mma w l => some ⟨.matrix, WA.word 0 w, some l.word⟩
  | .mmai w l => some ⟨.matrix, WA.word 1 w, some l.word⟩
  | .mmab w l => some ⟨.matrix, WA.word 2 w, some l.word⟩
  | .mmas w l => some ⟨.matrix, WA.word 3 w, some l.word⟩
  | .aclr w => some ⟨.matrix, WC.word 4 w, none⟩
  | .ald w => some ⟨.matrix, WB.word 5 w, none⟩
  | .ast w => some ⟨.matrix, WB.word 6 w, none⟩
  | .acvt w x => some ⟨.matrix, WB.word 7 w, x.map XMod.word⟩
  | .alds w l => some ⟨.matrix, WA.word 8 w, some l.word⟩
  | .asts w l => some ⟨.matrix, WA.word 9 w, some l.word⟩
  | .ld w l => some ⟨.memory, WA.word 0 w, some l.word⟩
  | .st w l => some ⟨.memory, WA.word 3 w, some l.word⟩
  | .ldu w l => some ⟨.memory, WA.word 1 w, some l.word⟩
  | .ldc w l => some ⟨.memory, WA.word 2 w, some l.word⟩
  | .atom w l => some ⟨.memory, WA.word 4 w, some l.word⟩
  | .red w l => some ⟨.memory, WA.word 5 w, some l.word⟩
  | .pref w l => some ⟨.memory, WA.word 6 w, some l.word⟩
  | .xlate w => some ⟨.memory, WS.word 7 w, none⟩
  | .xinfo w => some ⟨.memory, WS.word 8 w, none⟩
  | .cpyG2s w l => some ⟨.async, WS.word 0 w, some l.word⟩
  | .cpyS2g w l => some ⟨.async, WS.word 0 w, some l.word⟩
  | .cpyS2p w l => some ⟨.async, WS.word 0 w, some l.word⟩
  | .gather w l => some ⟨.async, WS.word 1 w, some l.word⟩
  | .scatter w l => some ⟨.async, WS.word 2 w, some l.word⟩
  | .wait w => some ⟨.async, WS.word 3 w, none⟩
  | .cnt w => some ⟨.async, WS.word 4 w, none⟩
  | .xfence w => some ⟨.async, WS.word 5 w, none⟩
  | .getwork w => some ⟨.async, WS.word 8 w, none⟩
  | .getworkNw w => some ⟨.async, WS.word 8 w, none⟩
  | .spawn w l => some ⟨.async, WA.word 9 w, some l.word⟩
  | .stmc w l => some ⟨.async, WA.word 12 w, some l.word⟩
  | .redmc w l => some ⟨.async, WA.word 13 w, some l.word⟩
  | .tdesc w l => some ⟨.async, WA.word 16 w, some l.word⟩
  | .texp w l => some ⟨.async, WA.word 17 w, some l.word⟩
  | .tback w l => some ⟨.async, WA.word 18 w, some l.word⟩
  | .treuse w => some ⟨.async, WS.word 19 w, none⟩
  | .tnode w => some ⟨.async, WA.word 20 w, none⟩
  | .tnodeLink w => some ⟨.async, WA.word 20 w, none⟩
  | .barArv w => some ⟨.sync, WS.word 0 w, none⟩
  | .barWait w => some ⟨.sync, WS.word 0 w, none⟩
  | .barSync w => some ⟨.sync, WS.word 0 w, none⟩
  | .barq w => some ⟨.sync, WS.word 1 w, none⟩
  | .fenceAcq w => some ⟨.sync, WC.word 2 w, none⟩
  | .fenceRel w => some ⟨.sync, WC.word 2 w, none⟩
  | .fenceFull w => some ⟨.sync, WC.word 2 w, none⟩
  | .sigSet w l => some ⟨.sync, WS.word 3 w, l⟩
  | .sigAdd w l => some ⟨.sync, WS.word 3 w, l⟩
  | .sigSetRet w l => some ⟨.sync, WS.word 3 w, l⟩
  | .sigAddRet w l => some ⟨.sync, WS.word 3 w, l⟩
  | .sigw w => some ⟨.sync, WS.word 4 w, none⟩
  | .fork w => some ⟨.sync, WS.word 5 w, none⟩
  | .choose w => some ⟨.sync, WS.word 6 w, none⟩
  | .viewId w => some ⟨.sync, WS.word 7 w, none⟩
  | .viewRival w => some ⟨.sync, WS.word 7 w, none⟩
  | .viewDepth w => some ⟨.sync, WS.word 7 w, none⟩
  | .viewParent w => some ⟨.sync, WS.word 7 w, none⟩
  | .viewLog w => some ⟨.sync, WS.word 7 w, none⟩
  | .viewSect w => some ⟨.sync, WS.word 7 w, none⟩
  | .viewDec w => some ⟨.sync, WS.word 7 w, none⟩
  | .trap w => some ⟨.system, WC.word 0 w, none⟩
  | .bkpt w => some ⟨.system, WC.word 1 w, none⟩
  | .rte w => some ⟨.system, WC.word 2 w, none⟩
  | .sreadp w => some ⟨.system, WS.word 3 w, none⟩
  | .swritep w => some ⟨.system, WS.word 4 w, none⟩
  | .haltg w => some ⟨.system, WC.word 5 w, none⟩
  | .launch _ _ _ _ _ => none
  | .nodeFeed _ _ _ _ _ _ => none
  | .signalSet _ _ _ _ => none
  | .signalWait _ _ _ _ _ => none
  | .signalWaitTimeout _ _ _ => none
  | .copy _ _ _ _ => none
  | .preemptSave _ _ _ => none
  | .preemptRestore _ => none
  | .nopPacket _ => none
  | .doorbell _ _ _ => none
  | .qctlResume _ _ => none
  | .qctlReset _ _ => none
  | .qcfgWrite _ _ _ => none
  | .registerWrite _ _ _ _ => none
  | .signalWindowAcquire _ _ => none
  | .signalWindowWrite _ _ _ => none
  | .coachhouseEvent => none
  | .contextCreate _ => none
  | .partitionCreate _ _ => none
  | .partitionRewrite _ _ => none
  | .partitionDelete _ _ => none
  | .quotaWrite _ _ => none
  | .clusterMapRead _ _ => none
  | .peerNumberRead _ => none
  | .reachMaskSet _ _ => none
  | .groupMaskSet _ _ => none
  | .inboundWindowWrite _ _ _ => none
  | .retirementRecordRead _ _ _ => none
  | .perfCounterRead _ _ _ => none
  | .viewTableRead _ _ => none
  | .abandonRequest _ => none
  | .replayServiceAnswer _ _ => none
  | .faultLimitExpiry _ => none
  | .peerStateWrite _ _ => none
  | .multicastTableInstall _ _ _ _ => none
  | .deathNotice _ => none
  | .dispatchPass _ => none
  | .remoteTrafficSample _ => none
  | .binTimerLapse _ _ => none
  | .binAdmit _ _ => none
  | .nodeEndToken _ _ => none
  | .leaveGrant _ => none
  | .matrixLeaseLapse _ => none
  | .clauseFetch _ _ => none
  | .ageWrap _ _ => none
  | .splitRotation _ _ => none
  | .variableResultWrite _ _ => none
  | .matrixQueueExecute _ => none
  | .joinWindowClose _ _ => none
  | .asyncOpComplete _ _ _ _ => none
  | .invalidationAck _ _ => none
  | .hitchLineReturn _ => none
  | .linkSleep _ => none
  | .wakeBeacon _ => none
  | .wakeHoldTimeout _ => none
  | .dieDeclaredDead _ => none
  | .dieFenceCommand _ => none
  | .dieTestComplete _ _ => none
  | .packageStop _ _ => none
  | .coldStart => none
  | .warmStart => none
  | .recoverySlotWrite _ _ => none
  | .barrierWatchdog _ _ => none
  | .contextWatchdog _ _ => none
  | .abandonGraceExpiry _ => none
  | .drainLimit _ _ => none
  | .drainComplete _ _ => none
  | .saveAreaWriteout _ _ _ => none
  | .restorePlacement _ _ => none
  | .teamRetire _ => none
  | .gridRetire _ => none
  | .landauReclaim _ _ => none
  | .remoteInboundRequest _ => none
  | .multicastCopyArrival _ => none
  | .reductionInstanceComplete _ _ _ _ => none
  | .multicastAckReturn _ _ _ => none
  | .fabricResend _ _ => none
  | .fabricPortSilence _ _ => none
  | .waitDeadline _ _ => none
  | .barWaitDeadline _ _ => none
  | .sigwDeadline _ _ => none
  | .storeCompletion _ _ => none
  | .copyCompletion _ _ _ => none
  | .hostApertureAccess _ _ => none
  | .pciePortDown _ => none

/-- What a clause header says (R69). -/
structure Header where
  count : Nat
  cls : Option Cls
  m : Bool
  pmask : BitVec 7
  y : Bool
  l : Bool
  xmask : BitVec 15
deriving DecidableEq, Repr

/-- The class of a CLASS code (R70); 7 is reserved. -/
def clsOf : Nat → Option Cls
  | 0 => some .alu
  | 1 => some .matrix
  | 2 => some .memory
  | 3 => some .async
  | 4 => some .sync
  | 5 => some .control
  | 6 => some .system
  | _ => none

/-- The CLASS code of a class (R70). -/
def Cls.code : Cls → BitVec 3
  | .alu => 0
  | .matrix => 1
  | .memory => 2
  | .async => 3
  | .sync => 4
  | .control => 5
  | .system => 6

/-- A header read from its word (R69). -/
def Header.of (w : Word) : Header :=
  ⟨(field w 28 4).toNat, clsOf (field w 25 3).toNat, w.getLsbD 24, field w 17 7, w.getLsbD 16, w.getLsbD 15, field w 0 15⟩

/-- The header word of a clause with no waits: COUNT, CLASS and XMASK (R69). -/
def headerWord (count : BitVec 4) (c : Cls) (xmask : BitVec 15) : Word := count ++ c.code ++ 0#10 ++ xmask

/-- Why a clause is refused, in the order the checks are made (R87). -/
inductive EncReason where
  | fetchFault | fetchPoison | countZero | classRsv | xFirst | xBeyond | xChain | opRsv | qualRsv | xMissing | xUnwanted
deriving DecidableEq, Repr

/-- The reason code of the trap frame (R87). -/
def EncReason.code : EncReason → Nat
  | .fetchFault => 1
  | .fetchPoison => 2
  | .countZero => 3
  | .classRsv => 4
  | .xFirst => 5
  | .xBeyond => 6
  | .xChain => 7
  | .opRsv => 8
  | .qualRsv => 9
  | .xMissing => 10
  | .xUnwanted => 11

/-- A word reads QUAL: format S, and `BRU` (R74). -/
def readsQual (c : Cls) (op : Nat) : Bool :=
  match opInfo c op with
  | some (.s, _) => true
  | some (.d, _) => c == .control && op == 2
  | _ => false

/-- The positions of a clause's instruction words: those that are no extension word, each with the extension word that
follows it, if one does (R69). -/
def wordsOf (words : List Word) (xmask : BitVec 15) : List (Nat × Word × Option Word) :=
  (List.range words.length).filterMap (fun i =>
    if i != 0 && xmask.getLsbD i then none
    else (words[i]?).map (fun w => (i, w, if xmask.getLsbD (i + 1) then words[i + 1]? else none)))

/-- Reasons 8 to 11 of one instruction word, as a flag for each (R87). -/
def opReserved (c : Cls) (w : Word) : Bool := (opInfo c (field w 24 6).toNat).isNone
def qualReserved (c : Cls) (w : Word) : Bool :=
  readsQual c (field w 24 6).toNat && decide (4 ≤ (field w 21 3).toNat) && decide ((field w 21 3).toNat ≤ 6)
def xMissing (c : Cls) (w : Word) (x : Option Word) : Bool :=
  match opInfo c (field w 24 6).toNat with
  | some (_, .must) => x.isNone
  | some (_, .whenSub1) => (field w 0 3).toNat == 1 && x.isNone
  | _ => false
def xUnwanted (c : Cls) (w : Word) (x : Option Word) : Bool :=
  match opInfo c (field w 24 6).toNat with
  | some (_, .never) => x.isSome
  | some (_, .whenSub1) => (field w 0 3).toNat != 1 && x.isSome
  | _ => false

/-- Checks 3 to 11 of R87 over a whole clause, the first that fails. -/
def checkClause (h : Header) (words : List Word) : Option EncReason :=
  if h.count == 0 then some .countZero
  else
    match h.cls with
    | none => some .classRsv
    | some c =>
      let ws := wordsOf words h.xmask
      if h.xmask.getLsbD 0 then some .xFirst
      else if (List.range 15).any (fun i => decide (h.count ≤ i) && h.xmask.getLsbD i) then some .xBeyond
      else if (List.range 14).any (fun i => h.xmask.getLsbD i && h.xmask.getLsbD (i + 1)) then some .xChain
      else if ws.any (fun e => opReserved c e.2.1) then some .opRsv
      else if ws.any (fun e => qualReserved c e.2.1) then some .qualRsv
      else if ws.any (fun e => xMissing c e.2.1 e.2.2) then some .xMissing
      else if ws.any (fun e => xUnwanted c e.2.1 e.2.2) then some .xUnwanted
      else none

/-- The classes in the order in which `decodeTableWord` tries them: a word of the table has no class of its own, so the class
whose map leaves the fewest bits of the word free is taken first (log entry 12). -/
def classOrder : List Cls := [.sync, .system, .async, .matrix, .memory, .control, .alu]

/-- Every bit that the form named by a word's opcode and selector must hold zero is zero, for the forms of classes whose
words leave fields unused (log entry 12). -/
def strictWord (c : Cls) (w : Word) : Bool :=
  let z := fun lo n => (field w lo n).toNat == 0
  let sub := (field w 0 3).toNat
  match c, (field w 24 6).toNat with
  | .sync, 0 => (sub == 0 && z 3 6) || ((sub == 1 || sub == 2) && z 7 2)
  | .sync, 1 => z 3 6
  | .sync, 2 => z 5 16 && decide ((field w 0 2).toNat < 3)
  | .sync, 3 => decide (2 ≤ (field w 0 2).toNat) || z 15 6
  | .sync, 6 => z 3 6
  | .sync, 7 => z 3 12 && decide (sub < 7)
  | .sync, _ => true
  | .system, 0 => z 14 7
  | .system, 1 => z 14 7
  | .system, 2 => z 14 7 && (field w 21 3).toNat == 7
  | .system, 5 => z 8 13
  | .system, _ => z 0 3
  | .async, 3 => z 7 2
  | .async, 4 => z 3 12
  | .async, 5 => z 3 6 && z 12 3 && z 18 3
  | .async, 8 => z 1 8
  | .async, 19 => z 0 3
  | .async, _ => true
  | .matrix, 4 => z 8 6
  | .matrix, 5 => z 3 4
  | .matrix, 6 => z 3 4
  | .matrix, 7 => z 4 3
  | .matrix, _ => true
  | .memory, 7 => z 3 6 && z 18 3
  | .memory, 8 => z 3 6 && z 12 3
  | .memory, _ => true
  | .control, 0 => z 0 21
  | .control, 5 => z 0 7 && z 14 7
  | .control, 6 => z 0 21
  | .control, 7 => (field w 21 3).toNat == 7
  | .control, 8 => z 0 21
  | .control, 9 => (field w 21 3).toNat == 7
  | .control, 10 => z 1 20 && (field w 21 3).toNat == 7
  | .control, 17 => z 2 19 && (field w 21 3).toNat == 7
  | .control, 18 => z 17 4 && decide ((field w 0 7).toNat < 5)
  | .control, 19 => z 3 6
  | .control, 20 => decide ((field w 0 7).toNat < 2)
  | .control, 21 => decide ((field w 0 7).toNat < 3)
  | .control, _ => true
  | .alu, _ => true

/-- The class and instruction of a table word with no extension word. -/
def tableWord (w : Word) (x : Option Word) : Option (Cls × Instr) :=
  classOrder.findSome? (fun c =>
    if strictWord c w && !qualReserved c w then (decodeWord c w x).map (fun i => (c, i)) else none)

/-- The number of bytes of the longest instruction: a word and its extension word. -/
def longestInstr : Nat := 8

/-- The instruction the decoder reads from a table word (R69: the word's class is chosen by `classOrder`); an extension word
that the table gives no bits is zero, and is read only where the word needs one. -/
def decodeTableWord (nbits w : Nat) : Option Instr :=
  let lo : Word := BitVec.ofNat 32 (w % 2 ^ nbits)
  let hi : Word := BitVec.ofNat 32 ((w % 2 ^ nbits) / 2 ^ 32)
  match tableWord lo (if hi == 0 then none else some hi) with
  | some (_, i) => some i
  | none => (tableWord lo (some hi)).map (·.2)

/-- The class, word and extension word under which `decodeTableWord` reads a table word. -/
def tableCode (nbits w : Nat) : Option Code :=
  let lo : Word := BitVec.ofNat 32 (w % 2 ^ nbits)
  let hi : Word := BitVec.ofNat 32 ((w % 2 ^ nbits) / 2 ^ 32)
  let x := if hi == 0 then none else some hi
  match tableWord lo x with
  | some (c, _) => some ⟨c, lo, x⟩
  | none => (tableWord lo (some hi)).map (fun e => ⟨e.1, lo, some hi⟩)


end Sys2Proof
end

