-- ==== Sys2Proof/Machine/Types.lean ====
section
/-! DEFINITION. The records the state is made of: values and tokens, splits and their stack, regions, translation registers,
pending accesses, descriptors and packets. -/
namespace Sys2Proof.Machine

/-- A 32-bit value with its poison bit; a poisoned value's bits are its token (R94, R231). -/
structure Val where
  bits : Word
  poison : Bool
deriving DecidableEq, Repr

/-- The value every register holds at a group's start (R95). -/
def Val.zero : Val := ⟨0, false⟩

/-- The register files a distance is counted for (R79, R378), and MARK, which a scalar word of R79 writes (R140). -/
inductive RFile where
  | v | s | p | q | fmt | mark
deriving DecidableEq, Repr

/-- Cause codes of poison (R234). -/
inductive Cause where
  | pageMiss | pageProt | bounds | eccCache | eccMem | fpInvalid | intDiv0 | malformed | laneRange | peerInvalid | peerDead
  | remoteUnmapped | quarantineFull | hostAtomicUnsupported | nodePool | viewSpace | viewLogFull | viewScope | dieFenced | linkTimeout
deriving DecidableEq, Repr

/-- Detail codes (R235). -/
inductive Detail where
  | none | write | pteFormat | locRsv | unpopulated | disabled | outsidePartition | misaligned | splitStack
  | regfile | tas | scratch | qb | l2Clean | l2Dirty | residue | xbar | hostPoison | dieLink | fabricLink
deriving DecidableEq, Repr

/-- What the ADDR field of a side-table entry holds (R233). -/
inductive AddrKind where
  | nothing | virt | phys | peer
deriving DecidableEq, Repr

/-- A failure that an instruction detects itself: what its side-table entry records (R233). -/
structure Fail where
  cause : Cause
  detail : Detail := .none
  akind : AddrKind := .nothing
  addr : Nat := 0
  item : Nat := 0
deriving DecidableEq, Repr

/-- A lane's result before tokens are made: a value, a token it inherits, or a failure of its own (R231, R236). -/
inductive LVal where
  | val (n : Nat)
  | tok (t : Word)
  | new (f : Fail)
  | beside (t : Option Word)   -- an inherited token, or a register outside the budget, beside a source out of the group's lanes (R75, R132)
deriving DecidableEq, Repr

/-- An entry of a core's side table (R233). -/
structure SideEntry where
  kdesc : BitVec 64
  gtime : BitVec 64
  region : BitVec 16
  rplok : Bool
  ctx : Nat
  lane : Nat
  akind : AddrKind
  slot : Nat
  addr : BitVec 64
  pc : BitVec 64
  item : BitVec 16
  detail : Detail
  token : Word
  gid : Nat
deriving DecidableEq, Repr

/-- A clause as fetched: its header word and its words (R69). -/
structure Clause where
  hdr : Word
  words : List Word
deriving DecidableEq, Repr

/-- What a fixed-latency word wrote, for the distances of R79: the split's count when it issued, the distances an ordinary
and a cross-lane reader need, the values the register held before, and the lanes it wrote (lane 0 of a register of the group). -/
structure Hazard where
  file : RFile
  reg : Nat
  at_ : Nat
  need : Nat
  needX : Nat
  old : List (Nat × Val)
  lanes : Mask
  foreign : Bool := false     -- another split of the group wrote it: its own path counts no distance to it (R82, R132)
  bars : List Nat := []       -- the counted barrier arrivals of the split that wrote it, since: by barrier and phase (R132)
deriving DecidableEq, Repr

/-- What a split that has issued a word still waits for. -/
inductive Wait where
  | path (k h : Nat)                                  -- WAIT: the counter of path k at or below h (R227)
  | signal (n cond : Nat) (cmp : BitVec 64)           -- SIGW (R294)
  | signalMet                                         -- SIGW: the signal has met the condition since (R294)
  | barrier (level num : Nat) (phase : Nat)           -- BAR: the phase counted at arrival (R278)
  | drain                                             -- ROLE, FORK: M, PMASK.sync and the counters (R115)
  | rendezvous (isOver : Bool)                          -- FORK: the team's other groups; `over` once it has been decided (R337)
  | parked                                            -- replay: the service answer (R245)
  | chooseStep (chain : List Nat) (sd : Nat)          -- CHOOSE: its step at the base, with the views of the chain, innermost first (R343)
  | choose (gid sd : Nat)                             -- CHOOSE: the play of its log (R343, R344)
deriving DecidableEq, Repr

/-- A wait of `SIGW` (R294). -/
def Wait.isSignal : Wait → Bool
  | .signal _ _ _ => true
  | .signalMet => true
  | _ => false

/-- A live control path of a group (R94). -/
structure Split where
  pc : BitVec 64
  hdr : BitVec 64
  mask : Mask
  depth : Nat
  fmt : Word
  rel : Option Nat
  frl : Option Nat
  clause : Option Clause      -- the clause fetched at `hdr`, with its waits passed
  dist : Nat                  -- D along the path (R78)
  haz : List Hazard
  wait : Option Wait
  wph : Bool                  -- the word at `pc` has performed its effect and only its wait remains (R104)
  deadline : Option Nat
  expired : Bool              -- the deadline of the waiting word has passed
  since : Nat                 -- time of its first issue of the word it waits in (R283, R386)
  again : Bool                -- rotated out of that word, which issues afresh and continues the count (R104)
  took : Nat                  -- time it took its slot
  idle : Nat                  -- time of its last issue, or of its taking the slot (R104)
  step : Bool                 -- SINGLE_STEP armed (R385)
  waited : Option (Wait × Bool)   -- what a rotated split waited for, and whether without bound (R283, R386)
  due : Nat                   -- the stall count of its previous word has elapsed at this time (R78, R96)
  ran : Nat                   -- time of its last issue (R97)
deriving DecidableEq, Repr

/-- What has arrived at a reconvergence entry (R102): where the first arrival by `JOIN` goes on, the number of arrivals, and the
distances their words still owe, counted from `dist` (R78). -/
structure Parked where
  pc : BitVec 64
  hdr : BitVec 64
  n : Nat
  dist : Nat
  haz : List Hazard
deriving DecidableEq, Repr

/-- An entry of the split-stack area (R99, R100). -/
inductive PoolEntry where
  | spilled (s : Split) (older newer : Option Nat) (at_ : Nat)
  | reconv (expected arrived : Mask) (rpc rhdr : BitVec 64) (fmt : Word) (parent frl : Option Nat) (depth : Nat)
      (callre : Bool) (born : Nat) (cont : Option Parked)
  | frame (retpc rethdr : BitVec 64) (prev : Option Nat) (refs : Nat)
  | free (next : Option Nat)
deriving DecidableEq, Repr

/-- Where an access goes after translation: a byte of device memory (stack and stack address, R184), of a port's host
memory, of a fabric peer, or of a team's scratchpad. -/
inductive Place where
  | dev (key : Nat)
  | host (port pa : Nat)
  | peer (p off : Nat)
  | scr (team off : Nat)
deriving DecidableEq, Repr

/-- A store or reduction on its way (R205, R240): the bytes it writes with the lane that wrote each, or the reduction. -/
structure Store where
  place : Place                           -- the 32-byte sector it writes, by its first byte
  va : Nat
  line : Option Nat                       -- the page-table line its translation came from (R193)
  bytes : List (Nat × Byte × Nat)         -- offset from `place`, byte, its writer: lane, plus 128 × word for ASTS
  ptok : List (Nat × Word)                -- the writers whose data is poisoned, with their tokens
  red : Option (Nat × Nat × Nat)          -- reduction: AOP, size in bytes, operand
  lane : Nat
  ord : Nat
  scope : Nat
  stale : Bool
  view : Nat                              -- the view it performs in (R339)
  seq : Nat := 0                          -- its number among the group's accesses (R229)
  pc : BitVec 64 := 0                     -- the word that issued it
  rel : Bool := false                     -- released from a quarantine buffer (R244)
  tries : Nat := 0                        -- times its packet to a fabric peer has been resent (R359)
  mask : Mask := BitVec.allOnes 128       -- the lanes of the splits whose program order it stands in (R262)
  word : Nat := 0                         -- the issue of the word that made it, 0 for a store of no word: its lanes are unordered (R262)
  shared : Bool := false                  -- loads of a diverged split see it while it waits (R262)
  owed : Nat := 0                         -- the widest narrow scope within which it precedes an access that has performed (R263)
  toks : List (Cause × Word) := []        -- tokens its word has made so far (R210)
  hid : List (Nat × Option Word) := []    -- lanes all of whose bytes a higher lane replaced, with their data's tokens (R214)
  passed : Nat := 0                       -- a reduction: operations on its line that have been served since it was issued (R290)
  backed : Bool := false                  -- a release at `.sys`: the write-back of R273 before it has been made
  plane : Option Nat := none              -- the plane on which its packet to a fabric peer was last resent (R359)
deriving DecidableEq, Repr

/-- A matrix-class word accepted into the queue (R173), with what it read at issue: its registers by active row, its records,
its offset register. -/
inductive MxOp where
  | mul (op d : Nat) (l : MmaLit) (rows : List (Nat × List LVal)) (b m : Nat)
  | fill (d n : Nat) (rows : List Nat) (v : LVal)
  | load (d : Nat) (rows : List (Nat × List LVal))
  | store (d a n : Nat) (rows : List Nat)
  | convert (d a n : Nat) (int : Bool) (mode : Nat) (rows : List Nat)
  | alds (d o : Nat) (l : SpLit) (rows : List Nat)
  | asts (d o : Nat) (l : SpLit) (rows : List Nat)
deriving DecidableEq, Repr

structure MxEntry where
  gid : Nat
  pc : BitVec 64
  fmt : Word
  op : MxOp
  join : Option Nat := none               -- the open join window whose delivery it waits for (R165)
  got : Option (List LVal) := none        -- the columns of B that a join window delivered
deriving DecidableEq, Repr

/-- What a scratchpad word held when an asynchronous operation wrote it (R226): the operation's group, path and number. -/
structure OldWord where
  word : Nat
  gid : Nat
  path : Nat
  seq : Nat
  val : Val
deriving DecidableEq, Repr

/-- Region state (R238). The entries of the quarantine buffer stand in program order. -/
structure Region where
  opened : Bool
  mode : Nat
  limit : Nat
  replays : Nat
  start : BitVec 64 × BitVec 64
  recov : BitVec 64
  flag : Bool
  first : Word
  pm : Mask
  allrpl : Bool
  nqtok : Option Word                     -- NQ and NQTOK
  clean : List (BitVec 64 × BitVec 64 × Mask)
  used : Nat
  qb : List Store
  toks : List Word                        -- every token flagged, for the replay service (R245)
deriving DecidableEq, Repr

def Region.closed : Region := ⟨false, 0, 0, 0, (0, 0), 0, false, 0, 0, true, none, [], 0, [], []⟩

/-- A translation register (R190). -/
structure XReg where
  ptea : BitVec 64
  v : Bool
  ps : BitVec 2
  ca : BitVec 2
  nx : Bool
  w : Bool
  limit : BitVec 33
  vbase : BitVec 64
  frame : BitVec 64
deriving DecidableEq, Repr

def XReg.zero : XReg := ⟨0, false, 0, 0, false, false, 0, 0, 0⟩

/-- One register write. -/
structure RegWrite where
  file : RFile
  reg : Nat
  lane : Nat
  val : Val
deriving DecidableEq, Repr

/-- The trap frame (R378), but for what it saves of the split tables. -/
structure TrapFrame where
  treason : Word
  tdata : Word
  tpc : BitVec 64
  thdr : BitVec 64
  tfmt : Word
  tdepth : Word
  tmask : Mask
  opc : BitVec 64
  ohdr : BitVec 64
  omask : Mask
  ostate : Word
  sstate : Word
  step : Word
deriving DecidableEq, Repr

def TrapFrame.zero : TrapFrame := ⟨0, 0, 0, 0, 0, 0, 0, 0, 0, 0, 0, 0, 0⟩

/-- What trap entry saves of the group while a handler runs (R377): the split table, the slot that trapped, the region. -/
structure SavedTable where
  tslot : Nat
  s0 : Option Split
  s1 : Option Split
  sshw : Nat
  ssfree : Option Nat
  oldest : Option Nat
  newest : Option Nat
  region : Region
  rid : Nat
deriving DecidableEq, Repr

/-- A kernel descriptor (R23). -/
structure Desc where
  addr : BitVec 64
  nnode : Nat
  csize : Nat
  sspg : Nat
  qq : Nat
  tasb : Nat
  scr : Nat
  l1u : Nat
  rshare : Nat
  regs1 : Nat
  regs0 : Nat
  clu : Nat
  prodg : Nat
  teamg : Nat
  gbar : Bool
  roleen : Bool
  width : Nat        -- the WIDTH code
  version : Nat
  cbase : BitVec 64
  vgmap : BitVec 64
  ntab : BitVec 64
  ssbase : BitVec 64
  traph : BitVec 64
  entry1 : BitVec 64
  entry0 : BitVec 64
  rsv : Bool         -- some reserved bit is nonzero
deriving DecidableEq, Repr

/-- A resource limit or use of one core (R55, R56). -/
structure Need where
  slots : Nat
  regc : Nat
  scrk : Nat
  tasu : Nat
  qbe : Nat
deriving DecidableEq, Repr

/-- A 32-byte protection unit: its bytes as a little-endian number, and its token where it is poisoned (R200, R237). -/
structure Sector where
  data : Nat
  token : Option Word
deriving DecidableEq, Repr

/-- A superblock that an L1 holds (R197): 256 bytes with a valid bit for each sector, and the view that wrote them, 0 for the root (R334). Lines
are held in S only. -/
structure L1Block where
  sb : Nat
  view : Nat
  valid : BitVec 8
deriving DecidableEq, Repr

/-- The states of a line in L2 (R198); a line that is not held is in I. -/
inductive Moesi where
  | m | o | e | s
deriving DecidableEq, Repr

/-- The state of a line whose dirty bytes have been written back. -/
def Moesi.cleaned : Moesi → Moesi
  | .m => .e
  | .o => .s
  | x => x

/-- A line that a region's L2 holds (R198): its state, and by sector whether it is valid and dirty. -/
structure L2Line where
  state : Moesi
  valid : BitVec 2
  dirty : BitVec 2
deriving DecidableEq, Repr

/-- A directory's entry for a line (R199): its state, and the regions that hold it. -/
structure DirLine where
  state : Moesi
  mask : BitVec 8
deriving DecidableEq, Repr

/-- A cache's replacement (R197 to R199). -/
inductive Evict where
  | l1 (core sb : Nat)
  | l2 (region line : Nat)
  | dir (line : Nat)
  | filter (region sb : Nat)
deriving DecidableEq, Repr

/-- An error of the hardware that its protection finds (R252, R253), and where it stands. -/
inductive HwError where
  /-- Parity of a register of a group: lane, uniform or predicate. -/
  | register (gid : Nat) (file : RFile) (reg lane : Nat)
  /-- Parity of a TAS element of a group, by its key. -/
  | tas (gid key : Nat)
  /-- A scratchpad word of a team. -/
  | scratch (team word : Nat)
  /-- An L1 word: its superblock. -/
  | l1 (core sb : Nat)
  /-- An entry of a group's quarantine buffer. -/
  | qb (gid entry : Nat)
  /-- A sector of a region's L2. -/
  | l2 (region sec : Nat)
  /-- A sector of a stack. -/
  | stack (sec : Nat)
  /-- The residue of the multiplier in a lane of a group's next multiplying word. -/
  | residue (gid lane : Nat)
  /-- Parity of the coalescer crossbar in a lane of a group's next memory word. -/
  | xbar (gid lane : Nat)
  /-- The replay limit of a die's link in a lane of a group's next memory word. -/
  | link (gid lane : Nat)
  /-- The replay limit of a die's link for an accepted store of a group. -/
  | linkStore (gid k : Nat)
  /-- Parity of the Coachhouse's scratch memory. -/
  | coach
  /-- A soft error that was corrected, by its structure. -/
  | corrected (what : Nat)
deriving DecidableEq, Repr

/-- A private copy of a sector in a view (R339): the bytes the view has written, and the FORK whose area holds its slot. -/
structure PrivSector where
  sec : Sector
  written : BitVec 32
  slotOf : Nat
deriving DecidableEq, Repr

/-- One sector that a multicast word sends (R364, R365): its fabric offset, its bytes with the lane of each, the tokens of poisoned
elements, and by member rank the status that has come back. -/
structure McSector where
  off : Nat                                -- the fabric offset of its first byte: a 64-byte line, or a 32-byte sector of `REDMC` or of a log (R341, R364, R365)
  bytes : List (Nat × Byte × Nat)
  toks : List (Nat × Word)                 -- by lane
  inst : Nat                               -- REDMC: its instance number
  acks : List (Nat × Nat × Nat)            -- member rank, status, detail of PEER_INVALID
  sent : Bool
deriving DecidableEq, Repr

/-- An effect held in a view's external log (R341). -/
inductive LogOp where
  | store (s : Store)
  | reds (qs : List Store)
  | sig (sub n : Nat) (val : BitVec 64)
  | spawn (grid node : Nat) (record : BitVec 128)
  | spawnLast (grid : Nat) (nodes : List Nat)
  | tback (desc mode leaf : Nat) (value : Word)
  | treuse (desc node : Nat)
  | multicast (red : Bool) (gid size aop : Nat) (rel : Bool) (sec : McSector)
deriving DecidableEq, Repr

/-- An entry of the view table (R334), with the private sectors and the external log of the view. -/
structure View where
  state : Nat                              -- 1 live, 2 chosen, 3 lost
  area : BitVec 64
  alen : Nat
  sect : Nat
  win : Nat
  dec : Bool
  rival : Nat
  km1 : Nat
  depth : Nat
  ctx : Nat
  parent : Nat
  fam : Nat
  log : List (Nat × LogOp)                 -- with the group that logged it
  sects : List (Nat × PrivSector)
  clan : Nat := 0                          -- which FORK made it: FAM may be used again while views of an earlier family stand (R335)
deriving DecidableEq, Repr

/-- A log that has reached the root and is to be played by the choosing group (R344). -/
structure Play where
  gid : Nat
  pc : BitVec 64
  log : List LogOp
deriving DecidableEq, Repr

/-- A node of a launch's node table and its bin (R29, R63, R295). -/
structure Node where
  kdesc : BitVec 64
  extx : Nat
  exty : Nat
  extz : Nat
  timer : Nat
  nprod : Nat
  cap : Nat
  dim : Nat
  kind : Nat                               -- 0 launched, 1 resident, 2 range
  desc : Desc                              -- a launched node's kernel
  bin : List (BitVec 128)
  produced : Nat
  handed : Nat                             -- for a range node, the next record
  returned : List (BitVec 128 × Nat)       -- range records returned by a withdrawal, with their index (R296)
  timerAt : Option Nat
  lapsed : Bool
  waiting : List (Nat × Nat)               -- requests not yet served: group and access number, in order of arrival
  ended : Bool
deriving DecidableEq, Repr

/-- A barrier (R276, R277). -/
structure Barrier where
  phase : Nat
  arrived : Nat
  broken : Bool
deriving DecidableEq, Repr

def Barrier.zero : Barrier := ⟨0, 0, false⟩

/-- A message or reply posted to a host: the function it goes to, what it is, and its words. -/
structure Msg where
  fn : Nat
  kind : Nat                               -- 0 fault record (R245), 1 barrier watchdog (R283), 2 context watchdog (R386),
                                           -- 3 read data (R49, R261), 4 mailbox reply, 5 uncorrectable internal error (R14),
                                           -- 6 response to a fabric request (R358)
  words : List (BitVec 64)
deriving DecidableEq, Repr

/-- An `XFENCE` that still holds its to-path: the accesses it waits for (R229). -/
structure XFence where
  toPath : Nat
  deps : List Nat
deriving DecidableEq, Repr

/-- The first orphaned token of a group in its kernel's order (R403): when it was orphaned, on which virtual core, and its entry once
copied. -/
structure Orphaned where
  gid : Nat
  token : Word
  at_ : Nat
  vcore : Nat
  entry : Option SideEntry
deriving DecidableEq, Repr

/-- A live launch (R44): its own copies of the structures it names (R28), and how far it has come. -/
structure Grid where
  ctx : Nat
  dev : Nat
  pkt : Pkt
  ntab : BitVec 64
  desc : Desc
  nodes : List Node
  map : List Nat                           -- physical core of each virtual core (R31)
  argp : BitVec 64
  teams : Nat
  prio : Nat
  age : Nat
  starv : Nat
  promoted : Bool
  next : Nat                               -- next virtual team to place
  retired : Nat
  shares : List (Nat × Nat)                -- the last sample of each die, in 1/256 (R64)
  cond : BitVec 5                          -- conditions of R402: bit n = XSTAT n + 1
  orph : List Orphaned                     -- the first orphaned token of each group, in the order of R403
  hcode : Option Nat
  bars : List (Nat × Barrier)
  gone : List (Nat × List (Nat × Nat)) := []   -- the arrival phases of retired members, key 16 × virtual team + group (R285)
deriving DecidableEq, Repr

/-- A tuple of clustered teams (R59), by cluster rank, and its barriers. -/
structure Tuple where
  grid : Nat
  teams : List Nat
  fenced : List Nat                        -- ranks whose teams a die fence ended (R254)
  bars : List (Nat × Barrier)
deriving DecidableEq, Repr

/-- One lane of a Landau operation (R316, R324, R325). -/
structure TreeLane where
  lane : Nat
  node : Nat                               -- where its next step is
  depth : Nat
  path : List Nat                          -- nodes a descent has stepped on, last first
  k : Nat                                  -- TEXP: number of children
  r : Nat                                  -- TEXP: record offset
  value : Word                             -- TBACK: the value; TDESC: the leaf's ACTION
  neg : Bool                               -- TBACK: its sign at this step
  phase : Nat                              -- 0 on its way to `node`, 1 on its way back to the head of `path` (an abort), 2 ended,
                                           -- 3 not arrived at Landau, 4 waiting at `node`, 5 waiting at the head of `path`
  res : List LVal                          -- the results for its destination registers
  status : Nat
  came : Nat := 0                          -- the number of its arrival where it waits (R319)
  asked : Nat := 0                         -- TEXP: the number of its arrival at the descriptor for an allocation that waits (R315)
deriving DecidableEq, Repr

/-- A clause of work an asynchronous path carries (R204). -/
inductive AsyncKind where
  /-- CPY (R222): direction 0 g2s, 1 s2g, 2 s2p; base addresses, bytes per row, rows, global pitch, ranks; pieces done. -/
  | cpy (dir dst src bytes rows pitch ranks next : Nat)
  /-- GATHER, SCATTER (R223): base addresses, list offset, count, item size, stride; items done. -/
  | items (scatter : Bool) (dst src list count isz stride next : Nat)
  /-- A `red`-path reduction (R217): its lanes' stores not yet performed. -/
  | red (stores : List Store)
  /-- GETWORK (R296): node, offset, k, `.nw`; the answer granted: its records, w1 and w2. -/
  | getwork (node o k : Nat) (nw : Bool) (ans : Option (List (BitVec 128) × Nat × Nat))
  /-- SPAWN (R297): lane, node and record of each still to append, and the nodes it counts as a producer of. -/
  | spawn (recs : List (Nat × Nat × BitVec 128)) (last : List Nat)
  /-- TDESC (R323): descriptor, first destination, batch offset. -/
  | tdesc (desc d : Nat) (batch : Option Nat) (lanes : List TreeLane)
  /-- TEXP (R324): descriptor, first destination, record base. -/
  | texp (desc d boff : Nat) (lanes : List TreeLane)
  /-- TBACK (R325): descriptor, mode. -/
  | tback (desc mode : Nat) (lanes : List TreeLane)
  /-- TREUSE (R326): descriptor, child, status register. -/
  | treuse (desc c sd : Nat)
  /-- TNODE (R327): descriptor, first destination, form. -/
  | tnode (desc d : Nat) (link : Bool) (lanes : List TreeLane)
  /-- STMC, REDMC (R362): reduction, group, size, operation, acknowledge offset. -/
  | mcast (red : Bool) (gid size aop : Nat) (ack : Option LVal) (secs : List McSector)
deriving DecidableEq, Repr

/-- An entry of a path's queue. -/
structure AsyncOp where
  kind : AsyncKind
  pc : BitVec 64
  lane : Nat                               -- lowest active lane of the issuing word
  act : Mask
  view : Nat
  done : Bool
  pf : Bool                                -- an item it read or wrote was poisoned
  toks : List (Cause × Word)               -- its side-table entries, one per cause (R224)
  lease : Bool                             -- it waits for a copy lease (R65)
  seq : Nat                                -- its number among the group's accesses
  deps : List Nat                          -- the accesses it stands behind (R229)
  regs : List (RFile × Nat)                -- the registers it is to write, held by the scoreboard (R81)
  rid : BitVec 16                          -- the region open as its word issued, 0xFFFF = none (R233, R260)
  played : Bool := false                   -- an entry of a log, issued by the play of a `CHOOSE`: its failures are orphaned (R344)
deriving DecidableEq, Repr

/-- A path: its queue in issue order and its poison flag (R204). The counter is the length of the queue. -/
structure Path where
  ops : List AsyncOp
  pf : Bool
deriving DecidableEq, Repr

def Path.zero : Path := ⟨[], false⟩

/-- A packet that has started and not completed (R44). -/
inductive Body where
  | launch (grid : Nat)
  | feed (ntab raddr : BitVec 64) (count : Nat) (node : Nat) (last : Bool) (done : Nat)
  | wait (cmpv : BitVec 64) (sig cond : Nat) (due : Option Nat)
  | copy (src dst : BitVec 64) (bytes done : Nat) (poisoned : Bool)
  | preempt (dev : Nat)
deriving DecidableEq, Repr

structure Started where
  pkt : Pkt
  body : Body
deriving DecidableEq, Repr

/-- A kept retirement record, as its 256 bits (R403). -/
structure Retired where
  idx : BitVec 32
  bits : BitVec 256
deriving DecidableEq, Repr

/-- A queue of a context (R35, R36, R38). -/
structure Queue where
  qbase : BitVec 64
  cplbase : BitVec 64
  en : Bool
  logsz : Nat
  w : BitVec 32
  rdidx : BitVec 32
  lastDb : BitVec 32                       -- the last written DOORBELL value that was accepted
  stopped : Bool
  byDoorbell : Bool
  lastst : Nat
  stopidx : BitVec 32
  started : List Started
  epoch : Nat                              -- times the packet indices have begun again at 0 (R36): a packet's number is 2^32 × epoch + index
  waitAt : Nat                             -- when the queue's SIGNAL_WAIT started (R40, R386)
deriving DecidableEq, Repr

def Queue.zero : Queue := ⟨0, 0, false, 0, 0, 0, 0, false, false, 0, 0, [], 0, 0⟩

/-- A device of a context under pre-emption (R387). -/
structure DevRun where
  state : Nat                              -- 0 RUNNING, 1 DRAINING, 2 SAVING, 3 SAVED, 4 RESTORING
  drainDue : Option Nat
  inArea : List Nat                        -- the teams whose images have been copied to the save area (R391)
  teams : List Nat                         -- teams saved
deriving DecidableEq, Repr

def DevRun.zero : DevRun := ⟨0, none, [], []⟩

/-- A group's arrival at its team's fork rendezvous (R337): its operands, or the token they fail by, and whether its other split
waits beside it. -/
structure Arrival where
  gid : Nat
  slot : Nat
  sd : Nat
  k : Nat
  area : Nat
  alen : Nat
  fail : Option LVal
  also : List Nat                          -- the registers of its other splits' FORKs
  agrees : Bool
deriving DecidableEq, Repr

/-- A request to a leave governor (R65). -/
inductive LeaveReq where
  | matrix (core : Nat)
  | copy (gid path seq : Nat)
deriving DecidableEq, Repr

/-- A compute die as the base sees it (R66, R201, R394). -/
structure Die where
  fenced : Bool
  failed : Bool                            -- its test failed after a fence
  asleep : Bool
  waking : Option Nat                      -- time of the wake request
  held : List (Nat × Nat)                  -- snoops held for it: the line, and what waits for it (R201)
  flush : Bool                             -- marked for WAKE_FLUSH
  headroom : Nat                           -- in 1/350 A: full at 2800, refilled by 1 in each time unit
  headAt : Nat
  leave : List LeaveReq
  lastReq : Nat                            -- time of the die's last request (R201)
deriving DecidableEq, Repr

def Die.idle : Die := ⟨false, false, false, none, [], false, 2800, 0, [], 0⟩

/-- A page-table invalidation on its way: its line, and the requests of each core that its marker stands behind (R194). -/
structure Inval where
  line : Nat
  pend : List (Nat × Nat × List Nat)       -- core, group, accesses
deriving DecidableEq, Repr

/-- A reclaim pending or running (R326): its tree, the operations it waits for, and what it has visited. -/
structure Reclaim where
  ctx : Nat
  desc : Nat
  old : Nat                                -- the old root
  keep : Nat                               -- the root it leaves
  before : List (Nat × Nat)                -- group and access number of earlier operations on the tree
  dead : List Nat                          -- DEAD nodes not yet visited
  seen : List Nat                          -- nodes visited
  blocks : List (Nat × Nat × Nat)          -- blocks not yet pushed: first node, length, the node left out (or its end)
deriving DecidableEq, Repr

/-- A reduction instance of which the package is a member (R365): what its own senders contributed. -/
structure RedInst where
  gid : Nat
  off : Nat
  n : Nat
  op : Nat × Nat                           -- the sending group and its access number
  size : Nat
  aop : Nat
  elems : List (Nat × Nat × Option Word)
  plane : Nat                              -- the plane it meets on (R356, R368)
deriving DecidableEq, Repr

/-- What a firmware slot holds: whether it can be read, and the bytes of its image, its security version and its signature (R397). -/
structure FwImage where
  readable : Bool
  bytes : List Host.Cell
deriving DecidableEq, Repr

/-- The kept state of firmware (R397). -/
structure Firmware where
  a : FwImage
  b : FwImage
  active : Nat
  minSvn : Nat
  measured : BitVec 256
deriving DecidableEq, Repr

/-- The identity root (R18): the product's form beside its grade and its serial number, which the identity certificate records (R1), and the
SHAKE256 digest of the vendor key (R397). -/
structure Identity where
  module : Bool                            -- true = DZ-880-M or DZ-860-M, false = the bare package
  serial : Nat
  keyDigest : BitVec 256
deriving DecidableEq, Repr

/-- An open multicast join window of an owner core (R165). -/
structure JoinWin where
  owner : Nat
  mtag : Nat
  off : Nat
  cstr : Nat
  n : Nat
  due : Nat
  members : List Nat                       -- the groups that have joined
  id : Nat                                 -- its number, which the members' queue entries name
deriving DecidableEq, Repr

/-- An inbound window (R358). -/
structure Window where
  base : Nat
  ftid : Nat
  len : Nat
  ctx : Nat
  at_ : Bool
  w : Bool
  v : Bool
deriving DecidableEq, Repr

/-- A partition (R53). -/
structure Partition where
  port : Nat
  clusters : BitVec 128
deriving DecidableEq, Repr

end Sys2Proof.Machine
end

