-- ==== Sys2Proof/Machine/State.lean ====
section
/-! DEFINITION. The state of the package, and the state right after reset: the end of a cold start (R396). -/
namespace Sys2Proof.Machine

/-- Why a step can stop with a fault. -/
inductive Fault where
  /-- Raised by a program form executed while no split is issuing it: no machine does that, only a caller of `exec`.
  Safe: a step never issues a word without its split. -/
  | noIssuer
deriving DecidableEq, Repr

/-- Why a step can be refused. -/
inductive Refusal where
  /-- Raised by an arm that has no meaning yet. Safe: nothing can be proved of such a step. -/
  | notModelled (mnemonic : String)
deriving DecidableEq, Repr

/-- A group (R94). -/
structure Group where
  team : Nat
  ctx : Nat
  idx : Nat
  width : Nat                              -- 32, 64 or 128 lanes
  core : Nat
  slot : Nat
  pipe : Nat
  live : Mask
  s0 : Option Split
  s1 : Option Split
  last : Nat                               -- the slot that issued last (R97)
  sshw : Nat
  ssfree : Option Nat
  oldest : Option Nat
  newest : Option Nat
  pool : List (Nat × PoolEntry)
  born : Nat                               -- number of reconvergence entries ever created
  v : List (Nat × Val)                     -- lane registers, key 128 × register + lane
  s : List (Nat × Val)
  p : List (Nat × Val)                     -- predicates p0 to p6, key 128 × predicate + lane, bits 0 or 1
  q : List (Nat × Val)
  x : List (Nat × XReg)
  tas : List (Nat × Val)                   -- TAS elements
  paths : List (Nat × Path)
  region : Region
  rid : Nat
  role : Bool                              -- true = consumer
  orphan : Option Word
  mark : Word
  trap : TrapFrame
  saved : Option SavedTable                -- present while a handler runs
  ap : List (Nat × Nat)                    -- arrival phases, key 16 × level + barrier (R277)
  egress : List Store
  seq : Nat                                -- accesses issued so far (R229)
  xfences : List XFence
  board : List (List RegWrite)             -- variable-latency results owed (R81)
  service : Option Bool                    -- parked replay: the service's answer, if it has come (R245)
  asked : Bool                             -- the service has been posted
  savedSide : List (Nat × SideEntry)       -- its side-table entries while it is saved (R232)
  resident : Bool                          -- on its core; false while saved (R389)
  ended : Bool                             -- it has ended, and its team has not yet retired (R399, R400)
  armed : List (Detail × Nat) := []        -- errors that the group's next word of their kind meets in a lane (R252, R253)
  late : List (Nat × Cause × Word) := []   -- tokens that stores have made as they performed: their word, cause and token (R210)
deriving DecidableEq, Repr

/-- A team (R10, R59). -/
structure Team where
  grid : Nat
  ctx : Nat
  vteam : Nat
  vcore : Nat
  core : Nat
  crank : Nat
  tuple : Option Nat
  desc : Desc
  node : Option Nat
  argp : BitVec 64
  groups : List Nat
  scr : List (Nat × Val)                   -- scratchpad words
  olds : List OldWord := []                -- what words held that asynchronous operations have written (R226)
  bars : List (Nat × Barrier)              -- team barriers
  view : Nat                               -- 0 = root
  forks : List Arrival                     -- arrivals at the fork rendezvous (R337)
  resident : Bool
  lost : Bool := false                     -- a die fence has ended its groups, and the fence has yet to complete (R394, R400)
deriving DecidableEq, Repr

/-- A core (R16). -/
structure Core where
  l : Option Nat                           -- L1 size (R57)
  p0 : Nat                                 -- rotation pointer (R57)
  clk0 : Nat                               -- time of its last reset (R140)
  side : List (Nat × SideEntry)
  gens : List (Nat × Nat)                  -- generation of each entry; an unlisted entry stands at 127 (R232)
  ovf : Nat
  mxq : List MxEntry                       -- the matrix queue, at most 4 entries (R173)
  lease : Option Nat                       -- the live matrix lease and when it lapses (R65)
  asked : Bool                             -- a matrix lease has been requested
  order : List Nat                         -- its groups, oldest first (R97)
  icache : List (Nat × Sector)             -- instruction-cache sectors by context, view and place (R89)
  joins : List JoinWin
  busy : List (Nat × Nat)                  -- when the word that occupies a pipe has finished its passes (R96)
  l1 : List L1Block := []                  -- superblocks held in L1, oldest first (R197)
deriving DecidableEq, Repr

def Core.zero : Core := ⟨none, 0, 0, [], [], 0, [], none, false, [], [], [], [], []⟩

/-- A context (R33). -/
structure Ctx where
  fn : Nat
  port : Nat
  part : Nat
  mode : Nat
  nsig : Nat
  memRestore : Bool
  stchk : Bool
  ptroot : Nat
  rootlog : Nat
  hostAtomics : Bool                       -- the port's root port completes AtomicOps (R218)
  ftid : Nat
  bwlog : Nat
  cwlog : Nat
  graceUs : Nat
  faultUs : Nat                            -- fault limit in µs (R245)
  diagBase : Nat
  diagLen : Nat
  alogBase : Nat
  alogLen : Nat
  saveBase : Nat
  saveLen : Nat
  reach : BitVec 4096                      -- reach mask over peers (R357)
  gmask : BitVec 4096                      -- group mask over multicast groups (R360)
  isOver : Bool                              -- it has ended, and not all its teams have retired (R52, R400)
  abandon : Bool
  graceDue : Option Nat
  quota : BitVec 128
  signals : List (Nat × BitVec 64)
  queues : List (Nat × Queue)
  devs : List (Nat × DevRun)
  alog : List (Nat × BitVec 128)           -- arrival log, with the tuple of an arrival (R286)
  perf : List (Nat × Nat)                  -- performance counters, key 16 × core + index (R404)
deriving DecidableEq, Repr

/-- What the spec names as happening to the package, or in it, without a row of the opcode table. -/
inductive Extra where
  /-- The identity certificate is read through a port in recovery (R18, R398). -/
  | identityRead (port : Nat)
  /-- The failure record is read through a port in recovery (R14, R398). -/
  | failureRead (port : Nat)
  /-- A host writes bytes into the image upload window in recovery (R398). -/
  | uploadWrite (port off size data : Nat)
  /-- A host reads a register of queue `q` of a context (R35). -/
  | registerRead (ctx q off : Nat)
  /-- A host's read of a size at an offset of a context's signal window (R48). -/
  | signalRead (ctx off size : Nat)
  /-- A host's write of a size at an offset of a context's signal window (R48). -/
  | signalStore (ctx off size : Nat) (v : BitVec 64)
  /-- A host writes its own memory: port, address, size, data, and whether it poisons the sector (R237, R273). -/
  | hostStore (port pa size data : Nat) (poison : Bool)
  /-- A dirty or clean host-homed sector leaves L2 (R46, R273). -/
  | hostEvict (k : Nat)
  /-- A sector that a release at `.sys` wrote goes to host memory (R273). -/
  | writeThrough (k : Nat)
  /-- A forced save comes to a core that holds teams of a context's device (R286, R389). -/
  | saveCore (ctx dev core : Nat)
  /-- The base writes an entry of a context's arrival log (R286). -/
  | alogWrite (ctx k : Nat)
  /-- A log that has reached the root is played (R344). -/
  | logPlay (gid : Nat)
  /-- Entries of the view table that no access names any more are freed (R335). -/
  | viewSweep
  /-- A core takes a sector of code into its instruction cache: the context and the view it is taken for, and the virtual address (R89). -/
  | codeFill (ctx core view va : Nat)
  /-- A SIGNAL_WAIT without a timeout has waited for the limit of the context watchdog (R40, R386). -/
  | packetWatchdog (ctx q : Nat)
  /-- A region's L2 takes a sector for a reader beneath it that no word names (R198, R199). -/
  | l2Fill (region sec : Nat)
  /-- A cache replaces something (R197 to R199). -/
  | evict (e : Evict)
  /-- The hardware finds an error (R252, R253). -/
  | error (e : HwError)
deriving DecidableEq, Repr

/-- What is to happen: a device step, the issue of a split's next word, or a happening without a row of its own. -/
inductive Act where
  | event (i : Instr)
  | issue (gid slot : Nat)
  | extra (e : Extra)
deriving DecidableEq, Repr

/-- An input or a happening and the earliest time of it, in units of 1/21 ns (10 to a core clock). -/
structure Due where
  at_ : Nat
  act : Act
deriving DecidableEq, Repr

/-- The word being issued: its group and split slot, its address and its clause, what its split waited for. -/
structure Cur where
  gid : Nat
  slot : Nat
  pc : BitVec 64
  hdr : BitVec 64
  next : BitVec 64                         -- the word after it in its path
  nextHdr : BitVec 64                      -- the header of the clause that holds `next`
  clause : Clause
  word : Word                              -- the word itself
  wait : Option Wait                       -- what its split was waiting for inside it
  wph : Bool
  deadline : Option Nat
  expired : Bool
  since : Nat
deriving DecidableEq, Repr

/-- A host-homed 32-byte sector held in L2 (R198, R273), with what the seventeenth home agent's directory records of it (R199): the regions that
hold it and their state, M or O of the region that wrote it last. -/
structure HostLine where
  data : Nat
  token : Option Word
  dirty : List Nat                         -- the contexts whose bytes in it host memory does not hold yet; none: it is clean
  ctxs : List Nat                          -- the contexts that have read or written it
  through : Bool                           -- a release at `.sys` is to write it through (R273)
  regions : BitVec 8                       -- the regions whose L2 holds it (R199)
  state : Moesi := .e                      -- its MOESI state over them (R198, R199)
  owner : Nat := 0                         -- the region that holds it in M or O
deriving DecidableEq, Repr

structure State where
  time : Nat
  phase : Nat                              -- 0 running, 1 stopped (R14), 2 in recovery (R398)
  dz860 : Bool                             -- product grade (R1)
  identity : Identity                      -- what the identity root holds (R1, R18, R397)
  clusterMap : List (List (List Nat))      -- by die and physical cluster, its four cores (R15)
  peerNo : Nat                             -- own peer number (R355)
  fw : Firmware
  failure : List (Nat × Nat)               -- failure record: structure and region, or slot and status (R14, R398)
  upload : List Host.Cell                  -- the image upload window of recovery, 64 MiB (R398)
  health : List (Nat × Nat)                -- health record: event code and die (R201, R396)
  mem : List Host.Cell                     -- device memory: 2^37 × (stack − 8) + stack address
  poisoned : List (Nat × Word)             -- poisoned 32-byte device sectors and their tokens (R237)
  loose : List (Nat × (Nat × BitVec 128))  -- 4 KiB frames that a family's area has used: a free number, and the sectors it names (R340)
  l2 : List (Nat × L2Line)                 -- lines of device memory held in L2, key 8 × line + region, the view above (R198, R334)
  dir : List (Nat × DirLine)               -- the directories of the home agents, by line (R199)
  filters : List (Nat × BitVec 128)        -- snoop filters: cores whose L1 may hold a superblock, key 8 × superblock + region (R199)
  l2bad : List (Nat × Bool)                -- uncorrectable errors in L2 sectors, key 8 × sector + region (R252, R405)
  stackBad : List (Nat × Bool)             -- uncorrectable errors in sectors of the stacks that no read has met, and whether L2 wrote them there (R252)
  hostMem : List Host.Cell                 -- host memory: 2^54 × port + host physical address
  hostPoison : List (Nat × Bool)           -- host sectors whose host answers with a poisoned completion (R237)
  hostL2 : List (Nat × HostLine)           -- host-homed sectors held in L2, clean or dirty (R46, R198, R273)
  hitch : List (Nat × Nat)                 -- lines held in sync SRAM, least recently used first, with the time of their last operation (R289)
  spill : List (Nat × Nat × Bool)          -- lines in the regions' overflow areas, oldest first: the region, and whether Landau's (R289, R313)
  landau : List (Nat × Nat)                -- lines held in Landau's node caches, least recently used first, with the region (R313)
  views : List (Nat × View)                -- allocated entries of the view table; entry 0 is the root (R334)
  plays : List Play                        -- logs that CHOOSE steps have brought to the root, yet to be played (R344)
  peers : List (Nat × Nat)                 -- peer states, 0 unpopulated (R357)
  windows : List (Nat × Window)            -- inbound windows (R358)
  mcLeaf : List (Nat × BitVec 128)         -- multicast leaf entries, key 4096 × leaf + group (R360)
  mcSpine : List (Nat × BitVec 128)
  portDown : List (Nat × Bool)             -- package ports marked down, key 16 × peer + plane (R368)
  fabNext : List (Nat × Nat)               -- by source package: the sequence number of the unicast packet to be delivered next (R356)
  fabEarly : List InReq                    -- unicast packets that came before an earlier one of their source, and are held (R356)
  mcSeq : List (Nat × Nat)                 -- REDMC sectors sent, key 2^41 × group + sector offset (R365)
  reds : List RedInst
  pcieDown : List (Nat × Bool)             -- PCIe ports whose link is down (R32)
  vfs : BitVec 64                          -- two bits for each virtual function: assigned, and its port (R32)
  parts : List (Nat × Partition)
  ctxs : List (Nat × Ctx)
  records : List (Nat × List Retired)      -- retirement records, newest first, at most 64, key 64 × function + queue (R403)
  grids : List (Nat × Grid)
  tuples : List (Nat × Tuple)
  teams : List (Nat × Team)
  groups : List (Nat × Group)
  cores : List (Nat × Core)
  dies : List (Nat × Die)
  invals : List Inval
  reclaims : List Reclaim
  coach : List Nat                         -- pending event queue: 64 × context + queue (R50)
  outbox : List Msg                        -- posted to hosts, oldest first
  agenda : List Due
  cur : Option Cur
  ages : Nat                               -- LAUNCHes started so far (R59)
  ids : Nat                                -- numbers given so far to launches, tuples, teams and groups
  draws : Nat                              -- free values drawn so far: the number of the next one
  traffic : List (Nat × Nat)               -- bytes that each kernel has sent since the last sample, by link or fabric (R64)
  samples : List (List (Nat × Nat))        -- the last 8 samples, newest first (R64)
  acts : Nat                               -- happenings since the last clock that no rule bound to that clock (log entry 7)
  blocked : List (Nat × Nat)               -- within a happening: sleeping dies and the lines whose snoops it waits for; empty between steps (R201)
deriving DecidableEq, Repr

/-- A firmware slot with an empty image that can be read (log entry 2). -/
def FwImage.blank : FwImage := ⟨true, []⟩

/-- The physical clusters of a die as fused: cluster c holds cores 4c to 4c + 3 (log entry 2). -/
def plainClusters : List (List Nat) := (List.range 16).map (fun c => [4 * c, 4 * c + 1, 4 * c + 2, 4 * c + 3])

/-- The machine right after a cold start (R396): GTIME 0, device memory zero, no partition, context, queue or signal. Cores and dies
that are not listed are idle. What the spec leaves to fuses, firmware and managers is named in log entries 2 to 5 and 45. -/
def State.reset : State where
  time := 0
  phase := 0
  dz860 := false
  identity := ⟨false, 0, 0⟩
  clusterMap := (List.range 8).map (fun _ => plainClusters)
  peerNo := 0
  fw := { a := FwImage.blank, b := FwImage.blank, active := 0, minSvn := 0, measured := 0 }
  failure := []
  upload := []
  health := [(5, 0)]
  mem := []
  poisoned := []
  loose := []
  l2 := []
  dir := []
  filters := []
  l2bad := []
  stackBad := []
  hostMem := []
  hostPoison := []
  hostL2 := []
  hitch := []
  spill := []
  landau := []
  views := []
  plays := []
  peers := []
  windows := []
  mcLeaf := []
  mcSpine := []
  portDown := []
  fabNext := []
  fabEarly := []
  mcSeq := []
  reds := []
  pcieDown := []
  vfs := 0xFFFFFFFF55555555
  parts := []
  ctxs := []
  records := []
  grids := []
  tuples := []
  teams := []
  groups := []
  cores := []
  dies := []
  invals := []
  reclaims := []
  coach := []
  outbox := []
  agenda := []
  cur := none
  ages := 0
  ids := 0
  draws := 0
  traffic := []
  samples := []
  acts := 0
  blocked := []

end Sys2Proof.Machine
end

