-- ==== Sys2Proof/Machine/Ops.lean ====
section
/-! DEFINITION. The named operations over groups, teams, cores and contexts; registers with their hard-wired and free
values; tokens and the side table (R230 to R236); flags of a region and orphaned poison (R241, R247). -/
namespace Sys2Proof.Machine

/-- The outcome of one step. -/
abbrev Out := Host.Outcome State Fault Refusal

/-- A word's meaning runs for the split that issues it. -/
def onIssuer (s : State) (f : Cur → State → State) : Out :=
  match s.cur with
  | none => .fault .noIssuer
  | some c => .next (f c s)

/-- A device step always has a next state. -/
def onDevice (s : State) (f : State → State) : Out := .next (f s)

/-! ### Finding and changing the parts of the state -/

def Split.blank : Split := ⟨0, 0, 0, 0, 0, none, none, none, 0, [], none, false, none, false, 0, false, 0, 0, false, none, 0, 0⟩

def Group.blank : Group :=
  { team := 0, ctx := 0, idx := 0, width := 32, core := 0, slot := 0, pipe := 0, live := 0, s0 := none, s1 := none, last := 0,
    sshw := 0, ssfree := none, oldest := none, newest := none, pool := [], born := 0, v := [], s := [], p := [], q := [], x := [],
    tas := [], paths := [], region := .closed, rid := 0, role := false, orphan := none, mark := 0, trap := .zero, saved := none,
    ap := [], egress := [], seq := 0, xfences := [], board := [], service := none, asked := false, savedSide := [], resident := true, ended := false }

def Desc.blank : Desc :=
  ⟨0, 0, 0, 0, 0, 0, 0, 0, 0, 0, 0, 0, 0, 0, false, false, 0, 0, 0, 0, 0, 0, 0, 0, 0, false⟩

def State.grp (s : State) (g : Nat) : Group := (Map.find s.groups g).getD Group.blank

/-- A change to a group that is still live; nothing happens to one that has ended. -/
def State.updGrp (s : State) (g : Nat) (f : Group → Group) : State :=
  match Map.find s.groups g with
  | none => s
  | some x => { s with groups := Map.put s.groups g (f x) }

def Group.split (x : Group) (slot : Nat) : Option Split := if slot == 0 then x.s0 else x.s1

def Group.setSplit (x : Group) (slot : Nat) (sp : Option Split) : Group :=
  if slot == 0 then { x with s0 := sp } else { x with s1 := sp }

def Group.updSplit (x : Group) (slot : Nat) (f : Split → Split) : Group := x.setSplit slot ((x.split slot).map f)

def State.spl (s : State) (g slot : Nat) : Split := ((s.grp g).split slot).getD Split.blank

def State.updSpl (s : State) (g slot : Nat) (f : Split → Split) : State := s.updGrp g (fun x => x.updSplit slot f)

def State.coreOf (s : State) (c : Nat) : Core := (Map.find s.cores c).getD Core.zero

def State.updCore (s : State) (c : Nat) (f : Core → Core) : State := { s with cores := Map.put s.cores c (f (s.coreOf c)) }

def State.updTeam (s : State) (t : Nat) (f : Team → Team) : State :=
  match Map.find s.teams t with
  | none => s
  | some x => { s with teams := Map.put s.teams t (f x) }

def State.updCtx (s : State) (c : Nat) (f : Ctx → Ctx) : State :=
  match Map.find s.ctxs c with
  | none => s
  | some x => { s with ctxs := Map.put s.ctxs c (f x) }

def State.updGrid (s : State) (n : Nat) (f : Grid → Grid) : State :=
  match Map.find s.grids n with
  | none => s
  | some x => { s with grids := Map.put s.grids n (f x) }

def State.teamOf (s : State) (x : Group) : Option Team := Map.find s.teams x.team

def State.gridOf (s : State) (x : Group) : Option Grid := (s.teamOf x).bind (fun t => Map.find s.grids t.grid)

def State.ctxOf (s : State) (x : Group) : Option Ctx := Map.find s.ctxs x.ctx

/-- NTEAMS: teams of the grid; 1 for a node group (R140). -/
def State.nteams (s : State) (x : Group) : Nat :=
  if ((s.teamOf x).bind (·.node)).isSome then 1 else ((s.gridOf x).map (·.teams)).getD 1

/-- NCORES: virtual cores in the map (R140). -/
def State.ncores (s : State) (x : Group) : Nat := ((s.gridOf x).map (·.map.length)).getD 0

/-- The compute die of a core: 64 enabled cores and 4 spare ones to a die in the numbering of this model (R15). -/
def dieOf (core : Nat) : Nat := core / 68

def State.dieAt (s : State) (d : Nat) : Die := Map.get Die.idle s.dies d

def State.updDie (s : State) (d : Nat) (f : Die → Die) : State := { s with dies := Map.modify Die.idle s.dies d f }

/-- GTIME in nanoseconds (R140). -/
def State.gtime (s : State) : Nat := s.time / 21

/-! ### Tokens and the side table (R230 to R236) -/

/-- Cause codes (R234). -/
def Cause.code : Cause → Nat
  | .pageMiss => 1 | .pageProt => 2 | .bounds => 3 | .eccCache => 4 | .eccMem => 5 | .fpInvalid => 6 | .intDiv0 => 7
  | .malformed => 8 | .laneRange => 9 | .peerInvalid => 10 | .peerDead => 11 | .remoteUnmapped => 12 | .quarantineFull => 13
  | .hostAtomicUnsupported => 14 | .nodePool => 15 | .viewSpace => 16 | .viewLogFull => 17 | .viewScope => 18
  | .dieFenced => 19 | .linkTimeout => 20

/-- Detail codes (R235). -/
def Detail.code : Detail → Nat
  | .none => 0 | .write => 1 | .pteFormat => 2 | .locRsv => 3 | .unpopulated => 4 | .disabled => 5 | .outsidePartition => 6
  | .misaligned => 7 | .splitStack => 8 | .regfile => 9 | .tas => 10 | .scratch => 11 | .qb => 12 | .l2Clean => 13
  | .l2Dirty => 14 | .residue => 15 | .xbar => 16 | .hostPoison => 17 | .dieLink => 18 | .fabricLink => 19

def AddrKind.code : AddrKind → Nat
  | .nothing => 0 | .virt => 1 | .phys => 2 | .peer => 3

/-- A token (R230). -/
def mkToken (cause index gen vcore : Nat) : Word :=
  BitVec.ofNat 8 cause ++ BitVec.ofNat 8 index ++ BitVec.ofNat 7 gen ++ BitVec.ofNat 9 vcore

def tokIndex (t : Word) : Nat := bits t.toNat 16 8
def tokVcore (t : Word) : Nat := bits t.toNat 0 9

/-- Whether this instance of a cause can be cured by the replay service (R234, R33). -/
def replayable (memRestore : Bool) (f : Fail) : Bool :=
  match f.cause with
  | .pageMiss => true
  | .eccCache => f.detail == .l2Clean
  | .eccMem => memRestore && f.detail != .hostPoison
  | .linkTimeout => true
  | _ => false

/-- A performance counter of the group's context on its core (R404), modulo 2^64; it stops while the group is saved. -/
def State.bumpPerf (s : State) (x : Group) (k n : Nat) : State :=
  if !x.resident then s
  else s.updCtx x.ctx (fun c => { c with perf := Map.modify 0 c.perf (16 * x.core + k) (fun m => (m + n) % 2 ^ 64) })

/-- The lowest free entry of 0 to 254; entry 255 when none is free (R232). -/
def freeEntry (c : Core) : Nat := ((List.range 255).find? (fun i => !Map.has c.side i)).getD 255

/-- The identifier a new entry records for the open region, 0xFFFF when none is open (R233). -/
def regionId (x : Group) : BitVec 16 := if x.region.opened then BitVec.ofNat 16 x.rid else 0xFFFF

/-- The virtual core of a group. -/
def State.vcoreOf (s : State) (x : Group) : Nat := ((Map.find s.teams x.team).map (·.vcore)).getD 0

/-- The index of a new entry of a saved group: the lowest that neither the core's table nor the image of a saved group of the core holds. -/
def State.freeSaved (s : State) (core : Nat) : Nat :=
  ((List.range 255).find? (fun i => !Map.has (s.coreOf core).side i
    && !s.groups.any (fun e => e.2.core == core && !e.2.resident && Map.has e.2.savedSide i))).getD 255

/-- A new side-table entry of the group's core that records region identifier `region`, and its token (R232, R233); an entry of a
group that has been saved stands in its image (R390). -/
def newEntryIn (s : State) (g : Nat) (region : BitVec 16) (pc : BitVec 64) (f : Fail) (lane : Nat) : State × Word :=
  let x := s.grp g
  let c := s.coreOf x.core
  let i := if x.resident then freeEntry c else s.freeSaved x.core
  let gen := (Map.get 127 c.gens i + 1) % 128
  let tok := mkToken f.cause.code i gen (s.vcoreOf x)
  let desc := ((Map.find s.teams x.team).map (·.desc)).getD Desc.blank
  let e : SideEntry :=
    { kdesc := desc.addr, gtime := BitVec.ofNat 64 s.gtime, region := region,
      rplok := replayable (((Map.find s.ctxs x.ctx).map (·.memRestore)).getD false) f, ctx := x.ctx, lane := lane, akind := f.akind,
      slot := x.slot, addr := BitVec.ofNat 64 f.addr, pc := pc, item := BitVec.ofNat 16 f.item, detail := f.detail, token := tok, gid := g }
  let s := if x.resident then s else s.updGrp g (fun x => { x with savedSide := Map.put x.savedSide i e })
  ((s.updCore x.core (fun c =>
    { c with side := if x.ended || !x.resident then c.side else Map.put c.side i e, gens := Map.set 127 c.gens i gen,
             ovf := if i == 255 && Map.has c.side 255 then min 65535 (c.ovf + 1) else c.ovf })).bumpPerf x 11 1, tok)

/-- A new entry of a word as it issues: it records the open region (R233). -/
def newEntry (s : State) (g : Nat) (pc : BitVec 64) (f : Fail) (lane : Nat) : State × Word :=
  newEntryIn s g (regionId (s.grp g)) pc f lane

/-- A failure of a translated access names its virtual address (R233, R258). -/
def Fail.atVa (va : Nat) (f : Fail) : Fail := if f.akind == .phys then { f with akind := .virt, addr := va } else f

def LVal.atVa (va : Nat) : LVal → LVal
  | .new f => .new (f.atVa va)
  | v => v

/-- The six words 0 to 5 of an entry that `PINFO` reads (R233, R250). -/
def entryWord (c : Core) (i : Nat) (e : SideEntry) (k : Nat) : BitVec 64 :=
  match k with
  | 0 => BitVec.ofNat 64 (e.token.toNat + e.detail.code * 2 ^ 32 + e.item.toNat * 2 ^ 48)
  | 1 => e.pc
  | 2 => e.addr
  | 3 =>
    BitVec.ofNat 64 (e.slot + e.akind.code * 2 ^ 16 + e.lane * 2 ^ 18 + e.ctx * 2 ^ 25 + ofBool e.rplok * 2 ^ 30 + 2 ^ 31
      + e.region.toNat * 2 ^ 32 + (if i == 255 then c.ovf else 0) * 2 ^ 48)
  | 4 => e.gtime
  | _ => e.kdesc

/-- The failure of a cause with no address. -/
def LVal.bad (c : Cause) : LVal := .new { cause := c }

def LVal.isVal : LVal → Bool
  | .val _ => true
  | _ => false

/-- A number function's result: `none` is Poison(FP_INVALID) (R127). -/
def LVal.ofNum : Option Nat → LVal
  | some n => .val n
  | none => .bad .fpInvalid

/-- The tokens an instruction has made so far, one per cause. -/
abbrev Toks := List (Cause × Word)

/-- `Poison(cause)` (R236): the first call for a cause makes the entry, later calls return the same token. -/
def poison (s : State) (g : Nat) (pc : BitVec 64) (ts : Toks) (f : Fail) (lane : Nat) : State × Toks × Word :=
  match ts.find? (fun e => e.1 == f.cause) with
  | some e => (s, ts, e.2)
  | none => let (s, t) := newEntry s g pc f lane; (s, (f.cause, t) :: ts, t)

/-- The values of a word's lanes in ascending order, with a token made for each cause it detects. -/
def resolve (s : State) (g : Nat) (pc : BitVec 64) (ts : Toks) : List (Nat × LVal) → State × Toks × List (Nat × Nat × Option Word)
  | [] => (s, ts, [])
  | (i, r) :: l =>
    match r with
    | .val n => let (s, ts, o) := resolve s g pc ts l; (s, ts, (i, n, none) :: o)
    | .tok t => let (s, ts, o) := resolve s g pc ts l; (s, ts, (i, 0, some t) :: o)
    | .new f =>
      let (s, ts, t) := poison s g pc ts f i
      let (s, ts, o) := resolve s g pc ts l
      (s, ts, (i, 0, some t) :: o)
    | .beside t =>
      let (s, ts, _) := poison s g pc ts { cause := .laneRange } i
      let (s, ts, t) := match t with
        | some t => (s, ts, t)
        | none => poison s g pc ts { cause := .malformed } i
      let (s, ts, o) := resolve s g pc ts l
      (s, ts, (i, 0, some t) :: o)

/-! ### Flags and orphans (R241, R247) -/

/-- Of two orphaned tokens the earlier comes first; in one clock, the one on the lower virtual core (R403). -/
def Orphaned.before (a b : Orphaned) : Bool := a.at_ < b.at_ || (a.at_ == b.at_ && a.vcore ≤ b.vcore)

/-- A group's first orphaned token takes its place in its kernel's order (R403). -/
def addOrphan (l : List Orphaned) (o : Orphaned) : List Orphaned :=
  if l.any (fun e => e.gid == o.gid) then l else l.takeWhile (fun e => e.before o) ++ o :: l.dropWhile (fun e => e.before o)

/-- `Orphan(t)` (R247): the group keeps its first orphaned token, and its kernel the first of each group in order (R403); a
group that has ended orphans for its kernel alone (R399). -/
def orphan (s : State) (g : Nat) (t : Word) : State :=
  let x := s.grp g
  let s := s.updGrp g (fun x => if x.ended then x else { x with orphan := some (x.orphan.getD t) })
  match (s.teamOf x).map (·.grid) with
  | none => s
  | some n => s.updGrid n (fun r =>
      { r with orph := addOrphan r.orph ⟨g, t, s.time, s.vcoreOf x, none⟩
               cond := if x.ended then r.cond ||| 1 else r.cond })

/-- Whether a token names an entry of this core made in the open region and replayable (R241). -/
def countsReplayable (s : State) (x : Group) (t : Word) : Bool :=
  tokVcore t == s.vcoreOf x &&
    match Map.find (s.coreOf x.core).side (tokIndex t) with
    | some e => e.token == t && e.region == BitVec.ofNat 16 x.rid && e.rplok
    | none => false

/-- `FlagRegion(t, i)` (R241); `carried` when a QB entry carries the flag. -/
def flagRegion (s : State) (g : Nat) (t : Word) (i : Nat) (carried : Bool) : State :=
  let x := s.grp g
  if x.region.opened then
    let rep := countsReplayable s x t
    s.updGrp g (fun x => { x with region :=
      { x.region with
        flag := true
        first := if x.region.flag then x.region.first else t
        pm := x.region.pm ||| maskOf [i]
        allrpl := x.region.allrpl && rep
        nqtok := if carried then x.region.nqtok else some (x.region.nqtok.getD t)
        toks := x.region.toks ++ [t] } })
  else orphan s g t

/-- `MalformedNoDest()` (R88, R236), for the active lanes `act` of the word. -/
def malformedNoDest (s : State) (g : Nat) (pc : BitVec 64) (act : Mask) : State :=
  let (s, t) := newEntry s g pc { cause := .malformed } (lowest act)
  flagRegion s g t (lowest act) false

/-! ### Registers -/

def Group.rdV (x : Group) (r i : Nat) : Val := Map.get Val.zero x.v (128 * r + i)
/-- p7 always reads true and is never poisoned (R94). -/
def Group.rdP (x : Group) (r i : Nat) : Val := if r == 7 then ⟨1, false⟩ else Map.get Val.zero x.p (128 * r + i)
def Group.rdS (x : Group) (r : Nat) : Val := Map.get Val.zero x.s r
def Group.rdQ (x : Group) (r : Nat) : Val := Map.get Val.zero x.q r

/-- One register write; a write of p7 is never made (R94). -/
def Group.wr (x : Group) (w : RegWrite) : Group :=
  match w.file with
  | .v => { x with v := Map.set Val.zero x.v (128 * w.reg + w.lane) w.val }
  | .p => if w.reg == 7 then x else { x with p := Map.set Val.zero x.p (128 * w.reg + w.lane) w.val }
  | .s => { x with s := Map.set Val.zero x.s w.reg w.val }
  | .q => { x with q := Map.set Val.zero x.q w.reg w.val }
  | .fmt => x
  | .mark => x

def Group.wrAll (x : Group) (ws : List RegWrite) : Group := ws.foldl Group.wr x

/-- The lane-register budget of the group's role (R23, R75). -/
def budget (d : Desc) (role : Bool) : Nat := if role then d.regs1 else d.regs0

/-- Every owed variable-latency result is written (R81, R83). -/
def Group.settle (x : Group) : Group := { x.board.foldl Group.wrAll x with board := [] }

/-- A variable-latency result is owed (R81). -/
def owe (s : State) (g : Nat) (ws : List RegWrite) : State :=
  if ws.isEmpty then s else s.updGrp g (fun x => { x with board := x.board ++ [ws] })

/-- A fixed-latency result is written (R79). -/
def put (s : State) (g : Nat) (ws : List RegWrite) : State := s.updGrp g (fun x => x.wrAll ws)

/-- The writes of one lane's result into `n` consecutive registers: the words of the value, or its token in each (R231). -/
def laneWrites (file : RFile) (reg n : Nat) (e : Nat × Nat × Option Word) : List RegWrite :=
  (List.range n).map (fun k =>
    ⟨file, reg + k, e.1, match e.2.2 with
      | some t => ⟨t, true⟩
      | none => ⟨BitVec.ofNat 32 (e.2.1 >>> (32 * k)), false⟩⟩)

/-- An input or a happening is entered by its time. -/
def insertDue (l : List Due) (d : Due) : List Due :=
  match l with
  | [] => [d]
  | e :: es => if d.at_ < e.at_ then d :: e :: es else e :: insertDue es d

/-- Every split of a group, in its slots, in its area and in what a trap has saved, changed. -/
def Group.mapSplits (x : Group) (f : Split → Split) : Group :=
  { x with
    s0 := x.s0.map f
    s1 := x.s1.map f
    pool := x.pool.map (fun e => (e.1, match e.2 with
      | .spilled sp o n t => .spilled (f sp) o n t
      | p => p))
    saved := x.saved.map (fun t => { t with s0 := t.s0.map f, s1 := t.s1.map f }) }

end Sys2Proof.Machine
end

