-- ==== Sys2Proof/Machine/Operands.lean ====
section
/-! DEFINITION. Operand forms: active lanes (R98), reads too close to their producer (R80), sources with their cross-lane
and sign modifiers (R131 to R133), scalar operands (R135, R136), destinations (R75, R88). -/
namespace Sys2Proof.Machine

/-- What a word sees of its group as it issues. -/
structure Wx where
  g : Nat
  slot : Nat
  x : Group
  sp : Split
  desc : Desc
  team : Team
  act : Mask
  draw : Nat
  pc : BitVec 64
deriving DecidableEq, Repr

def Wx.W (w : Wx) : Nat := w.x.width
def Wx.lanes (w : Wx) : List Nat := (lanesOf w.act)
def Wx.budget (w : Wx) : Nat := Sys2Proof.Machine.budget w.desc w.x.role

def Team.blank : Team := ⟨0, 0, 0, 0, 0, 0, none, Desc.blank, none, 0, [], [], [], [], 0, [], true, false⟩

/-- A read of a register that a fixed-latency word wrote in the lane at a distance below `need` returns the old or the new value (R80): the
newest such word is asked first, and its old value may itself stand too close to an earlier word. -/
def pickRead (sp : Split) (file : RFile) (reg lane : Nat) (cross : Bool) (key : Nat) : List Hazard → Val → Val
  | [], v => v
  | h :: hs, v =>
    if h.file == file && h.reg == reg && inMask h.lanes lane && sp.dist - h.at_ < (if cross then h.needX else h.need) then
      if Config.freeBit key then v else pickRead sp file reg lane cross (key + 1) hs (Map.get Val.zero h.old lane)
    else pickRead sp file reg lane cross key hs v

/-- The number of the free bit that decides one operand of one lane of one word. -/
def freeKey (draw opnd lane : Nat) : Nat := ((draw * 256 + opnd) * 128 + lane) * 16

/-- A lane register as a lane of the word reads it: across lanes, `reader` is the lane that reads (R80). -/
def Wx.rdV (w : Wx) (opnd r i : Nat) (cross : Bool) (reader : Nat := i) : Val :=
  pickRead w.sp .v r i cross (freeKey w.draw opnd reader) w.sp.haz (w.x.rdV r i)
def Wx.rdP (w : Wx) (opnd r i : Nat) (cross : Bool) : Val :=
  if r == 7 then ⟨1, false⟩ else pickRead w.sp .p r i cross (freeKey w.draw opnd i) w.sp.haz (w.x.rdP r i)
/-- A uniform register is read in full by every pass; the choice of R80 is one per reading lane. -/
def Wx.rdS (w : Wx) (opnd r i : Nat) : Val := pickRead w.sp .s r 0 true (freeKey w.draw opnd i) w.sp.haz (w.x.rdS r)
def Wx.rdQ (w : Wx) (opnd r : Nat) : Val := pickRead w.sp .q r 0 true (freeKey w.draw opnd 0) w.sp.haz (w.x.rdQ r)
/-- FMT of the issuing split (R122) as lane `i` reads it; a read too close to an `FMTSET` returns the old or the new value, in each lane by
its own choice (R80). -/
def Wx.fmtAt (w : Wx) (i : Nat) : Word :=
  (pickRead w.sp .fmt 0 0 true (freeKey w.draw 15 i) w.sp.haz ⟨w.sp.fmt, false⟩).bits
/-- FMT as a word reads it once. -/
def Wx.fmt (w : Wx) : Word := w.fmtAt 0
/-- MARK (R140); a read too close to an `SWRITE` returns the old or the new value (R80). -/
def Wx.mark (w : Wx) : Word := (pickRead w.sp .mark 0 0 true (freeKey w.draw 16 0) w.sp.haz ⟨w.x.mark, false⟩).bits

/-- What a word adds to the distance of the words after it: 1 + STALL (R78). -/
def stepOf (w : Word) : Nat := 1 + (w.extractLsb' 30 2).toNat

/-- The word's view of its group, before its predicate is tested. The split's distance already counts the word (R78); its own reads
stand before it. -/
def wxOf (c : Cur) (s : State) : Wx :=
  let x := s.grp c.gid
  let t := (Map.find s.teams x.team).getD Team.blank
  let sp := (x.split c.slot).getD Split.blank
  { g := c.gid, slot := c.slot, x := x, sp := { sp with dist := sp.dist - stepOf c.word }, desc := t.desc, team := t,
    act := ((x.split c.slot).getD Split.blank).mask, draw := s.draws, pc := c.pc }

/-- The lanes active under a predicate, and the token of the lowest lane where it is poisoned (R98). -/
def Wx.under (w : Wx) (pred : Nat) : Mask × Option (Nat × Word) :=
  let on := (lanesOf w.sp.mask).filter (fun i => let v := w.rdP 14 pred i false; !v.poison && v.bits == 1)
  let bad := (lanesOf w.sp.mask).find? (fun i => (w.rdP 14 pred i false).poison)
  (maskOf on, bad.map (fun i => (i, (w.rdP 14 pred i false).bits)))

/-- A lane word: its predicate is tested, a poisoned predicate flags one token (R98), and the word acts on the active lanes. -/
def laneWord (pred : BitVec 3) (f : Wx → State → State) (c : Cur) (s : State) : State :=
  let w := wxOf c s
  let (act, bad) := w.under pred.toNat
  let s := match bad with
    | some (i, t) => flagRegion s c.gid t i false
    | none => s
  f { w with act := act } s

/-- A lane word whose poisoned predicate flags nothing (R249). -/
def quietWord (pred : BitVec 3) (f : Wx → State → State) (c : Cur) (s : State) : State :=
  let w := wxOf c s
  f { w with act := (w.under pred.toNat).1 } s

/-- A format S word executes once for the group when its QUAL holds; a poisoned q counts as false and flags (R98, R136).
QUAL 7 is always true; 4 to 6 never reach here (R87). -/
def scalarWord (qual : BitVec 3) (f : Wx → State → State) (c : Cur) (s : State) : State :=
  let w := wxOf c s
  if qual.toNat == 7 then f w s
  else
    let v := w.rdQ 13 qual.toNat
    if v.poison then flagRegion s c.gid v.bits (lowest w.sp.mask) false
    else if v.bits == 1 then f w s
    else s

/-! ### Destinations -/

/-- Vector results go to `n` consecutive registers of one file. -/
structure VDest where
  file : RFile
  reg : Nat
  n : Nat
deriving DecidableEq, Repr

/-- The registers of a destination that lie inside the budget (R75). -/
def Wx.inRange (w : Wx) (d : VDest) : Bool :=
  match d.file with
  | .v => decide (d.reg + d.n ≤ w.budget)
  | _ => true

/-- The results of the active lanes, written to the destination: `late` results are owed, others stand at once. An
out-of-range destination is not written (R75); a reserved field value poisons it (R88). -/
def finishLanes (late : Bool) (d : VDest) (rsv : Bool) (f : Nat → LVal) (w : Wx) (s : State) : State :=
  if !w.inRange d then s
  else
    let rs := w.lanes.map (fun i => (i, if rsv then LVal.bad .malformed else f i))
    let (s, _, out) := resolve s w.g w.pc [] rs
    let ws := out.flatMap (laneWrites d.file d.reg d.n)
    if late then owe s w.g ws else put s w.g ws

/-! ### Vector sources (R131 to R133) -/

/-- What an X word asks of an instruction that has none: every field zero, RND = 7 (R76). -/
def plainX : XMod := ⟨0, 0, 0, 0, 0, 7, 0, 0, 0, 0, 0⟩

/-- The kinds of operand modifiers act on. -/
inductive Kind where
  | i32 | i64 | f32 | f64 | f16x2
deriving DecidableEq, Repr

def Kind.regs : Kind → Nat
  | .i64 | .f64 => 2
  | _ => 1

/-- `Abs` and `Neg` of R131. -/
def Kind.abs (k : Kind) (n : Nat) : Nat :=
  match k with
  | .i32 => if bit n 31 then (2 ^ 32 - n) % 2 ^ 32 else n
  | .i64 => if bit n 63 then (2 ^ 64 - n) % 2 ^ 64 else n
  | .f32 => n % 2 ^ 31
  | .f64 => n % 2 ^ 63
  | .f16x2 => n &&& 0x7FFF7FFF
def Kind.neg (k : Kind) (n : Nat) : Nat :=
  match k with
  | .i32 => (2 ^ 32 - n) % 2 ^ 32
  | .i64 => (2 ^ 64 - n) % 2 ^ 64
  | .f32 => n ^^^ 2 ^ 31
  | .f64 => n ^^^ 2 ^ 63
  | .f16x2 => n ^^^ 0x80008000

/-- Which source of a word: a, b or c. -/
inductive Who where
  | a | b | c
deriving DecidableEq, Repr

def Who.opnd : Who → Nat
  | .a => 0
  | .b => 2
  | .c => 4

/-- The value of register `r` (and the next for 64 bits) in lane `j` as lane `reader` reads it; the lower register's token comes first (R231).
A register outside the budget reads as poison MALFORMED (R75). -/
def Wx.lane (w : Wx) (k : Nat) (opnd r j : Nat) (cross : Bool) (reader : Nat := j) : LVal :=
  if w.budget < r + k then .bad .malformed
  else
    let lo := w.rdV opnd r j cross reader
    if lo.poison then .tok lo.bits
    else if k == 1 then .val lo.bits.toNat
    else
      let hi := w.rdV (opnd + 1) (r + 1) j cross reader
      if hi.poison then .tok hi.bits else .val (lo.bits.toNat + hi.bits.toNat * 2 ^ 32)

/-- An s register, or the pair from it, as one lane reads it. -/
def Wx.uni (w : Wx) (k : Nat) (opnd r i : Nat) : LVal :=
  let lo := w.rdS opnd r i
  if lo.poison then .tok lo.bits
  else if k == 1 then .val lo.bits.toNat
  else
    let hi := w.rdS (opnd + 1) (r + 1) i
    if hi.poison then .tok hi.bits else .val (lo.bits.toNat + hi.bits.toNat * 2 ^ 32)

/-- `SelLane` (R132): the lane that lane `i` reads, or the token of a poisoned index register. -/
def Wx.selLane (w : Wx) (m : XMod) (i : Nat) : Except LVal Int :=
  match m.xlm.toNat with
  | 1 => .ok ((i ^^^ m.limm.toNat : Nat) : Int)
  | 2 => .ok ((i : Int) - m.limm.toNat)
  | 3 => .ok ((i : Int) + m.limm.toNat)
  | 4 =>
    match w.lane 1 6 m.c.toNat i false with
    | .val n => .ok ((n % 128 : Nat) : Int)
    | r => .error r
  | 5 => .ok (m.limm.toNat : Int)
  | _ => .ok (i : Int)

/-- Lane `j` of register `r` as lane `i` reads it across lanes; a lane outside the group is LANE_RANGE (R132). -/
def Wx.crossLane (w : Wx) (k opnd r : Nat) (j : Int) (i : Nat) : LVal :=
  if j < 0 || (w.W : Int) ≤ j then .bad .laneRange else w.lane k opnd r j.toNat true i

/-- `Src` (R131). -/
def Wx.src (w : Wx) (m : XMod) (k : Kind) (who : Who) (r i : Nat) : LVal :=
  let names := (who == .a && m.xls == 0) || (who == .b && m.xls == 1)
  let v :=
    if names && m.xlm == 6 then w.uni k.regs 8 m.sreg.toNat i
    else if names && m.xlm != 0 then
      match w.selLane m i with
      | .error e => e
      | .ok j => w.crossLane k.regs who.opnd r j i
    else w.lane k.regs who.opnd r i false
  match v with
  | .val n =>
    let n := if who == .a && m.absA == 1 then k.abs n else n
    let ng := (who == .a && m.negA == 1) || (who == .b && m.negB == 1) || (who == .c && m.negC == 1)
    .val (if ng then k.neg n else n)
  | e => e

/-- Which cross-lane modes an instruction honours (R133). -/
inductive XlmUse where
  | no | full | not4 | onA | limm
deriving DecidableEq, Repr

/-- The X-word fields an instruction honours (R133). -/
structure Honour where
  c : Bool := false
  negA : Bool := false
  negB : Bool := false
  negC : Bool := false
  rnd : Bool := false
  sat : Bool := false
  xlm : XlmUse := .no
  u : Bool := false
  wide : Bool := false     -- a 64-bit source: the s pair of mode 6 begins at an even register (R135)
deriving DecidableEq, Repr

/-- Whether a modifier word holds only values the instruction honours (R76, R77, R132, R133). -/
def modOk (h : Honour) (m : XMod) : Bool :=
  let xl := m.xlm.toNat
  (h.negA || (m.negA == 0 && m.absA == 0)) && (h.negB || m.negB == 0) && (h.negC || h.u || m.negC == 0)
    && (if h.rnd then m.rnd.toNat ≤ 3 || m.rnd == 7 else m.rnd == 0 || m.rnd == 7)
    && (h.sat || m.sat == 0)
    && (match h.xlm with
        | .no => xl == 0 && m.xls == 0 && m.limm == 0 && m.sreg == 0
        | .limm => xl == 0 && m.xls == 0 && m.sreg == 0 && m.limm.toNat < 8
        | .full => xl ≤ 6
        | .not4 => xl ≤ 6 && xl != 4
        | .onA => xl ≤ 6 && m.xls == 0)
    && (h.c || (if (h.xlm == .full || h.xlm == .onA) && xl == 4 then true else m.c == 0))
    && !(h.wide && xl == 6 && m.sreg.toNat % 2 == 1)

/-- The rounding mode of an instruction in lane `i` (R124): RND 0–3, or RMODE for RND 7; `none` is a reserved value. -/
def Wx.mode (w : Wx) (m : XMod) (i : Nat) : Option RMode :=
  rmodeOf (if m.rnd == 7 then bits (w.fmtAt i).toNat 12 3 else m.rnd.toNat)

/-- A source that is no value goes before source b; where b selects a lane outside the group, the word still makes the entry of it (R132). -/
def LVal.before (x y : LVal) : LVal :=
  match x, y with
  | .tok t, .new ⟨.laneRange, _, _, _, _⟩ => .beside (some t)
  | .new ⟨.malformed, _, _, _, _⟩, .new ⟨.laneRange, _, _, _, _⟩ => .beside none
  | x, _ => x

/-- A lane operation over up to three sources in the order a, b, c: the first that is no value is the result (R231). -/
def lift1 (x : LVal) (f : Nat → LVal) : LVal :=
  match x with
  | .val a => f a
  | e => e
def lift2 (x y : LVal) (f : Nat → Nat → LVal) : LVal :=
  match x with
  | .val a => lift1 y (fun b => f a b)
  | e => e.before y
def lift3 (x y z : LVal) (f : Nat → Nat → Nat → LVal) : LVal := lift2 x y (fun a b => lift1 z (fun c => f a b c))

/-- What a lane's sources come to where one of them is no value: the first in the order a, b, c (R231), with what goes before b (R132). -/
def firstOf : List LVal → Option LVal
  | [] => none
  | .val _ :: l => firstOf l
  | e :: y :: _ => some (e.before y)
  | e :: [] => some e

/-! ### Scalar sources -/

/-- An s register as an S word reads it: its number, or its token. -/
def Wx.sReg (w : Wx) (opnd r : Nat) : LVal := w.uni 1 opnd r 0
/-- An s pair; the lower register's token comes first (R231). -/
def Wx.sPair (w : Wx) (opnd r : Nat) : LVal := w.uni 2 opnd r 0

/-- The result of an S word in `n` s registers from `sd`. -/
def finishS (late : Bool) (sd n : Nat) (r : LVal) (w : Wx) (s : State) : State :=
  let (s, _, out) := resolve s w.g w.pc [] [(lowest w.act, r)]
  let ws := out.flatMap (fun e => laneWrites .s sd n (0, e.2))
  if late then owe s w.g ws else put s w.g ws

/-- A poisoned operand of a word with no destination flags its token as a MALFORMED token is flagged (R88). -/
def flagTok (w : Wx) (t : Word) (s : State) : State := flagRegion s w.g t (lowest w.act) false

/-- A reserved field value of a word with no destination (R88). -/
def reservedUse (w : Wx) (s : State) : State := malformedNoDest s w.g w.pc w.act

/-- What a word with no destination does when an operand is no value: a token is flagged, anything else is MALFORMED. -/
def flagOperand (w : Wx) (r : LVal) (s : State) : State :=
  match r with
  | .tok t => flagTok w t s
  | _ => reservedUse w s

end Sys2Proof.Machine
end

