-- ==== Sys2Proof/Machine/Cells.lean ====
section
/-! DEFINITION. The cells of device and host memory, and the write-back of host-homed sectors (R198, R237, R273). -/
namespace Sys2Proof.Machine

/-! ### Cells -/

/-- What a byte that a memory does not list reads as: zero, as a cold start leaves the stacks (R396); of host memory log entry 3. -/
abbrev Memory.unlisted : Byte := 0

/-- The 32 bytes of a root sector from the memory cells. -/
def cellsAt (m : List Host.Cell) (base n : Nat) : Nat :=
  ofBytes ((List.range n).map (fun i => Map.get Memory.unlisted m (base + i)))

/-- The canonical form of a memory: addresses strictly rising, and no cell equal to what an unlisted address reads as. -/
def Memory.wf (m : List Host.Cell) : Bool := Map.wf Memory.unlisted m

/-- Memory cells with `n` bytes of a little-endian number written from `base`, in the canonical form. -/
def setCells (m : List Host.Cell) (base : Nat) (bs : List (Nat × Byte)) : List Host.Cell :=
  bs.foldl (fun m b => Map.set Memory.unlisted m (base + b.1) b.2) m

/-! ### Host memory and its write-back -/

/-- The key of a host byte: port and host physical address. -/
def hostKey (port pa : Nat) : Nat := 2 ^ 54 * port + pa

/-- A host sector among those that an L1 may hold: beyond every device sector. -/
def hostSec (k : Nat) : Nat := 2 ^ 52 + k

/-- The port of a host sector. -/
def hostPort (k : Nat) : Nat := 32 * k / 2 ^ 54

/-- What a host keeps of a poisoned write: it records the poison, drops the write, or stores the token in each word; which, is
free (R237). -/
def hostKeeps (n : Nat) : Nat := Config.freeNat n % 3

/-- One dirty host-homed sector goes to host memory whole, through a port that is up; its copy in L2 is clean from then on (R49, R273, R396). -/
def State.writeBack (s : State) (k : Nat) : State :=
  match Map.find s.hostL2 k with
  | none => s
  | some l =>
    if l.dirty.isEmpty || Map.get false s.pcieDown (hostPort k) then s else
    let s := { s with hostL2 := if l.token.isSome then Map.del s.hostL2 k else Map.put s.hostL2 k { l with dirty := [], through := false, state := l.state.cleaned } }
    let bs := (List.range 32).map (fun i => (i, BitVec.ofNat 8 (bits l.data (8 * i) 8)))
    match l.token with
    | none => { s with hostMem := setCells s.hostMem (32 * k) bs, hostPoison := Map.del s.hostPoison k }
    | some _ =>
      let s := { s with draws := s.draws + 1 }
      match hostKeeps ((s.draws * 256 + 43) * 2048) with
      | 0 => { s with hostPoison := Map.put s.hostPoison k true }
      | 1 => s
      | _ => { s with hostMem := setCells s.hostMem (32 * k) bs, hostPoison := Map.del s.hostPoison k }

/-- A host-homed sector leaves L2: written back where it is dirty (R46, R273). -/
def State.evictHost (s : State) (k : Nat) : State :=
  let s := s.writeBack k
  { s with hostL2 := s.hostL2.filter (fun e => !(e.1 == k && e.2.dirty.isEmpty)) }

/-- A region's L2 gives up its copy of a host-homed sector: written back where the region holds it dirty (R46, R198). One whose port is down stays. -/
def State.hostLeave (s : State) (region k : Nat) : State :=
  match Map.find s.hostL2 k with
  | none => s
  | some l =>
    let rest := l.regions &&& ~~~(BitVec.ofNat 8 (2 ^ region))
    let s := if l.owner == region || rest == 0 then s.writeBack k else s
    match Map.find s.hostL2 k with
    | none => s
    | some l =>
      if rest == 0 then (if l.dirty.isEmpty then { s with hostL2 := Map.del s.hostL2 k } else s)
      else { s with hostL2 := Map.put s.hostL2 k { l with regions := rest } }

end Sys2Proof.Machine
end

