-- ==== Sys2Proof/Machine/Cache.lean ====
section
/-! DEFINITION. What the caches of the package hold (R197 to R199, R289, R313): the L1 of each core, the L2 of each region with the state of
each line, the directories of the home agents, the snoop filters of the dies, and the lines that a Hitch or Landau has taken. They hold
no bytes of their own: they are coherent, and the bytes stand in `State.mem`; what they decide is which copy an error stands in (R252,
R405), what an invalidation has to reach (R201), and what leaves (log entry 40). -/
namespace Sys2Proof.Machine

/-- A sector as the caches know it: its number, with the view that wrote it above bit 56 (R334). A root sector is its own number. -/
def tagged (view sec : Nat) : Nat := 2 ^ 56 * view + sec

/-- The view that wrote a cached sector, and the sector itself. -/
def viewTag (sec : Nat) : Nat := sec / 2 ^ 56
def plainSec (sec : Nat) : Nat := sec % 2 ^ 56

/-- Whether a cached sector is homed in host memory. -/
def isHost (sec : Nat) : Bool := decide (2 ^ 52 ≤ plainSec sec)

/-- The 64-byte line and the 256-byte superblock of a sector. -/
def lineOf (sec : Nat) : Nat := sec / 2
def superOf (sec : Nat) : Nat := sec / 8

/-- The key of a line in a region's L2, and of a superblock in the snoop filter of a region. -/
def inRegion (n region : Nat) : Nat := 8 * n + region

/-- The home region of a device sector (R288): two stack sockets to a region. -/
def homeRegion (sec : Nat) : Nat := plainSec sec / 2 ^ 32 / 2

/-- The region of the base beneath a core's die (R12). -/
def regionOf (core : Nat) : Nat := core / 68

/-! ### L1 (R197) -/

/-- Whether a superblock of an L1 is the one of a cached sector. -/
def L1Block.of (b : L1Block) (sec : Nat) : Bool := b.sb == superOf (plainSec sec) && b.view == viewTag sec

/-- Whether an L1 holds a cached sector. -/
def Core.l1Has (c : Core) (sec : Nat) : Bool := c.l1.any (fun b => b.of sec && b.valid.getLsbD (sec % 8))

/-- A sector enters an L1: four superblocks to a set, of which one makes room where it must; which, is not said (log entry 40). -/
def Core.l1Fill (c : Core) (sec pick : Nat) : Core :=
  match c.l with
  | none => c
  | some l =>
    let bit : BitVec 8 := BitVec.ofNat 8 (2 ^ (sec % 8))
    if c.l1.any (fun b => b.of sec) then { c with l1 := c.l1.map (fun b => if b.of sec then { b with valid := b.valid ||| bit } else b) }
    else
      let set := c.l1.filter (fun b => b.sb % (32 * l) == superOf (plainSec sec) % (32 * l))
      let l1 := match if 4 ≤ set.length then set[pick % set.length]? else none with
        | some old => c.l1.filter (fun b => b != old)
        | none => c.l1
      { c with l1 := l1 ++ [⟨superOf (plainSec sec), viewTag sec, bit⟩] }

/-- Sectors leave an L1. -/
def Core.l1Drop (c : Core) (p : L1Block → BitVec 8) : Core :=
  if c.l1.isEmpty then c
  else { c with l1 := (c.l1.map (fun b => { b with valid := b.valid &&& ~~~(p b) })).filter (fun b => b.valid != 0) }

/-- A snoop is held while its die sleeps or wakes; a die marked for WAKE_FLUSH holds none (R201). -/
def State.holds (s : State) (d : Nat) : Bool := let x := s.dieAt d; x.asleep && !x.flush

/-- A snoop of a line is due on dies that hold it: what makes it waits (R199, R201). -/
def State.block (s : State) (ds : List Nat) (line : Nat) : State :=
  if ds.isEmpty then s else { s with blocked := s.blocked ++ ds.map (fun d => (d, line)) }

/-- The dies whose L1s may hold a sector: the snoop filters' answer (R199). -/
def State.sharers (s : State) (sec : Nat) : List Nat :=
  (List.range 8).filter (fun d => Map.get 0 s.filters (inRegion (superOf (plainSec sec)) d) != 0)

/-- A sector leaves the L1s of the cores that satisfy a condition (R199); dies that sleep hold the invalidation (R201). -/
def State.l1Inval (s : State) (sec : Nat) (p : Nat → Bool) : State :=
  let gone := fun (b : L1Block) => if b.of sec then BitVec.ofNat 8 (2 ^ (sec % 8)) else 0
  let s := s.block ((s.sharers sec).filter (fun d => s.holds d && s.cores.any (fun e => dieOf e.1 == d && p e.1))) (lineOf sec)
  { s with cores := s.cores.map (fun e => (e.1, if p e.1 then e.2.l1Drop gone else e.2)) }

/-- A superblock leaves the L1s of a region's die, and its filter with it (R199); a die that sleeps holds the invalidation (R201). -/
def State.filterDrop (s : State) (region sb : Nat) : State :=
  let gone := fun (b : L1Block) => if b.sb == sb then (BitVec.allOnes 8) else 0
  let s := s.block (if s.holds region && Map.has s.filters (inRegion sb region) then [region] else []) (4 * sb)
  { s with cores := s.cores.map (fun e => (e.1, if regionOf e.1 == region then e.2.l1Drop gone else e.2))
           filters := Map.del s.filters (inRegion sb region) }

/-- The whole L1 of a die's cores is invalidated (R201, R202). -/
def State.flushL1 (s : State) (d : Nat) : State :=
  { s with cores := s.cores.map (fun e => (e.1, if dieOf e.1 == d then { e.2 with l1 := [] } else e.2))
           filters := s.filters.filter (fun e => e.1 % 8 != d) }

/-! ### L2 and the directories (R198, R199) -/

/-- The regions that hold a line, with it. -/
def State.holders (s : State) (line : Nat) : List (Nat × L2Line) :=
  (List.range 8).filterMap (fun r => (Map.find s.l2 (inRegion line r)).map (fun l => (r, l)))

/-- The state of a line over the regions: what its directory records (R199). -/
def dirState (hs : List (Nat × L2Line)) : Moesi :=
  if hs.any (fun h => h.2.state == .m) then .m else if hs.any (fun h => h.2.state == .o) then .o
  else if hs.any (fun h => h.2.state == .e) then .e else .s

/-- The home agent's directory takes note of the regions that hold a line (R199). -/
def State.syncDir (s : State) (line : Nat) : State :=
  let hs := s.holders line
  { s with dir := if hs.isEmpty then Map.del s.dir line
      else Map.put s.dir line ⟨dirState hs, hs.foldl (fun m h => m ||| BitVec.ofNat 8 (2 ^ h.1)) 0⟩ }

/-- Whether a region's L2 holds a sector dirty. -/
def State.l2Dirty (s : State) (region sec : Nat) : Bool :=
  if isHost sec then (match Map.find s.hostL2 (plainSec sec - 2 ^ 52) with
    | some l => l.owner == region && !l.dirty.isEmpty
    | none => false)
  else (Map.get ⟨.s, 0, 0⟩ s.l2 (inRegion (lineOf sec) region)).dirty.getLsbD (sec % 2)

/-- Whether a region's L2 holds a dirty sector with an error (R252). -/
def State.dirtyBad (s : State) (region sec : Nat) : Bool := Map.get false s.l2bad (inRegion sec region) && s.l2Dirty region sec

/-- Whether a region's L2 holds a sector. -/
def State.l2Has (s : State) (region sec : Nat) : Bool :=
  if isHost sec then (match Map.find s.hostL2 (plainSec sec - 2 ^ 52) with
    | some l => l.regions.getLsbD region
    | none => false)
  else (Map.get ⟨.s, 0, 0⟩ s.l2 (inRegion (lineOf sec) region)).valid.getLsbD (sec % 2)

/-- A line leaves a region's L2; the L1s beneath lose it too. A dirty sector goes to its home, with the error that stands in it (log entry
40); one in a clean sector is gone (R405). -/
def State.l2Drop (s : State) (region line : Nat) : State :=
  if !Map.has s.l2 (inRegion line region) then s
  else
    let bad := [2 * line, 2 * line + 1].filter (fun k => s.dirtyBad region k)
    let s := { s with l2 := Map.del s.l2 (inRegion line region)
                      stackBad := bad.foldl (fun m k => Map.put m k true) s.stackBad
                      l2bad := s.l2bad.filter (fun e => !(e.1 % 8 == region && lineOf (e.1 / 8) == line)) }
    let die := fun (c : Nat) => regionOf c == region
    ((s.l1Inval (2 * line) die).l1Inval (2 * line + 1) die).syncDir line

/-- A line leaves every L2 (R289, R313). -/
def State.l2DropAll (s : State) (line : Nat) : State := (s.holders line).foldl (fun s h => s.l2Drop h.1 line) s

/-- A sector's errors are gone from every L2 and from its stack. -/
def State.dropErrors (s : State) (sec : Nat) : State := { s with l2bad := s.l2bad.filter (fun e => e.1 / 8 != sec), stackBad := Map.del s.stackBad sec }

/-- A sector's copies are gone from every L1 and L2 before a write of it performs (R199, R405). -/
def State.dropCopies (s : State) (sec : Nat) : State :=
  let bit : BitVec 2 := BitVec.ofNat 2 (2 ^ (sec % 2))
  let s := s.dropErrors sec
  if (s.holders (lineOf sec)).isEmpty then s.l1Inval sec (fun _ => true)
  else
    let s := (s.holders (lineOf sec)).foldl (fun s h =>
      let l := { h.2 with valid := h.2.valid &&& ~~~bit, dirty := h.2.dirty &&& ~~~bit }
      { s with l2 := if l.valid == 0 then Map.del s.l2 (inRegion (lineOf sec) h.1) else Map.put s.l2 (inRegion (lineOf sec) h.1) l }) s
    (s.l1Inval sec (fun _ => true)).syncDir (lineOf sec)

/-- A clean sector is invalidated in every region (R245, R405). -/
def State.l2Clean (s : State) (sec : Nat) : State :=
  let bit : BitVec 2 := BitVec.ofNat 2 (2 ^ (sec % 2))
  let k := plainSec sec - 2 ^ 52
  let s := { s with l2bad := s.l2bad.filter (fun b => b.1 / 8 != sec || s.dirtyBad (b.1 % 8) sec)
                    hostL2 := if isHost sec then s.hostL2.filter (fun e => !(e.1 == k && e.2.dirty.isEmpty)) else s.hostL2 }
  (s.holders (lineOf sec)).foldl (fun s h =>
    if h.2.dirty.getLsbD (sec % 2) then s
    else
      let l := { h.2 with valid := h.2.valid &&& ~~~bit }
      ({ s with l2 := if l.valid == 0 then Map.del s.l2 (inRegion (lineOf sec) h.1) else Map.put s.l2 (inRegion (lineOf sec) h.1) l }).syncDir (lineOf sec)) s

/-- Whether the Hitch or Landau has taken a line, in its memory or in an overflow area: its accesses are served there (R289, R313). -/
def State.engineHas (s : State) (line : Nat) : Bool :=
  s.hitch.any (fun h => h.1 == line) || s.landau.any (fun l => l.1 == line) || s.spill.any (fun l => l.1 == line)

/-- Where a line goes in a region's L2: one of 80 slices by a hash of its stack address, and one of the slice's 128 sets, which hold 16
superblock tags each (R12, R198). The hashes are not given: they are free. -/
def l2Set (line : Nat) : Nat × Nat := (Config.sliceHash (line % 2 ^ 55) % 80, Config.setHash (line / 4 % 2 ^ 53) % 128)

/-- The lines that a region's L2 holds. -/
def State.l2Lines (s : State) (region : Nat) : List Nat :=
  (s.l2.filter (fun e => e.1 % 8 == region)).map (fun e => e.1 / 8)
    ++ (s.hostL2.filter (fun e => e.2.regions.getLsbD region)).map (fun e => lineOf (hostSec e.1))

/-- A line leaves a region's L2, homed in device or host memory. -/
def State.l2Leave (s : State) (region line : Nat) : State :=
  if isHost (2 * line) then (s.hostLeave region (plainSec (2 * line) - 2 ^ 52)).hostLeave region (plainSec (2 * line) + 1 - 2 ^ 52)
  else s.l2Drop region line

/-- Room in a region's L2 for a line: with 16 other superblocks in its set of its slice one of them leaves (R198); which, is not said (log entry
40). -/
def State.l2Room (s : State) (region line : Nat) : State :=
  if s.l2.length + s.hostL2.length < 16 then s
  else
    let mates := (s.l2Lines region).filter (fun l => l2Set l == l2Set line)
    let sbs := (mates.map (fun l => l / 4)).eraseDups
    if sbs.contains (line / 4) || sbs.length < 16 then s
    else
      let old := sbs[Config.freeNat (Config.freeNat ((s.draws * 256 + 45) * 2048) + line) % sbs.length]?
      (mates.filter (fun l => some (l / 4) == old)).foldl (fun s l => s.l2Leave region l) s

/-- A region's L2 takes a sector (R199): from an M or O holder, which keeps it in O, or from the stack. -/
def State.l2Fill (s : State) (region sec : Nat) : State :=
  let s := s.l2Room region (lineOf sec)
  let line := lineOf sec
  let bit : BitVec 2 := BitVec.ofNat 2 (2 ^ (sec % 2))
  if s.engineHas line then s
  else
    match Map.find s.l2 (inRegion line region) with
    | some l =>
      if l.valid.getLsbD (sec % 2) then s else { s with l2 := Map.put s.l2 (inRegion line region) { l with valid := l.valid ||| bit } }
    | none =>
      let others := s.holders line
      let s := others.foldl (fun s h =>
        { s with l2 := Map.put s.l2 (inRegion line h.1) { h.2 with state := if h.2.state == .m || h.2.state == .o then .o else .s } }) s
      ({ s with l2 := Map.put s.l2 (inRegion line region) ⟨if others.isEmpty then .e else .s, bit, 0⟩ }).syncDir line

/-- A region's L2 holds a line in M for a write of a sector by its die, or for an atomic of its slice, and no other region holds it (R198, R199,
R288); `wrote` tells whether the sector has been written. -/
def State.l2Own (s : State) (region sec : Nat) (wrote : Bool) : State :=
  let s := s.l2Room region (lineOf sec)
  let line := lineOf sec
  let bit : BitVec 2 := BitVec.ofNat 2 (2 ^ (sec % 2))
  if s.engineHas line then s
  else
    let s := ((s.holders line).filter (fun h => h.1 != region)).foldl (fun s h => s.l2Drop h.1 line) s
    let l := (Map.find s.l2 (inRegion line region)).getD ⟨.m, 0, 0⟩
    ({ s with l2 := Map.put s.l2 (inRegion line region) ⟨.m, l.valid ||| bit, if wrote then l.dirty ||| bit else l.dirty⟩ }).syncDir line

/-- A sector that a core has read enters its L1, and the snoop filter takes note of it (R197, R199). -/
def State.l1Take (s : State) (core sec pick : Nat) (l1 : Bool) : State :=
  if !l1 || ((s.coreOf core).l).isNone then s
  else
    { s.updCore core (fun c => c.l1Fill sec pick) with
      filters := Map.modify 0 s.filters (inRegion (superOf (plainSec sec)) (regionOf core)) (fun m => m ||| BitVec.ofNat 128 (2 ^ (core % 68))) }

/-- A core's read of a sector passes through its region's L2 into its L1 (R197, R198). -/
def State.coreFill (s : State) (core sec pick : Nat) (l1 : Bool) : State := (s.l2Fill (regionOf core) sec).l1Take core sec pick l1

/-! ### Errors of device memory (R252, R405) -/

/-- Whether a sector's newest copy has an error that no read has met: a dirty sector of an L2, or the stack where no L2 holds the sector. -/
def State.latent (s : State) (sec : Nat) : Bool :=
  (s.l2bad.any (fun e => e.1 / 8 == sec) && (List.range 8).any (fun r => s.dirtyBad r sec))
    || (Map.has s.stackBad sec && !(List.range 8).any (fun r => s.l2Has r sec))

/-- What the newest copy's error gives: L2's of a dirty sector, or the stack's (R252). -/
def State.latentKind (s : State) (sec : Nat) : Cause × Detail :=
  if (List.range 8).any (fun r => s.dirtyBad r sec) || Map.get false s.stackBad sec then (.eccCache, .l2Dirty) else (.eccMem, .none)

/-- What a core's read of a root sector meets (R252, R405): an error in the copy that its region's L2 holds, or in the newest copy where its
own region holds none. A copy in its L1 stands in front of both. -/
def State.readError (s : State) (core sec : Nat) : Option (Cause × Detail) :=
  let r := regionOf core
  if (s.coreOf core).l1Has sec then none
  else if Map.get false s.l2bad (inRegion sec r) then some (.eccCache, if s.dirtyBad r sec then .l2Dirty else .l2Clean)
  else if s.l2Has r sec || !s.latent sec then none
  else some (s.latentKind sec)

/-! ### What leaves of itself -/

/-- A cache's replacement (R197 to R199). A directory's entry leaves once every region has lost the line, a filter's once the die's L1s have. -/
def evict (s : State) (e : Evict) : State :=
  match e with
  | .l1 core sb => s.updCore core (fun c => c.l1Drop (fun b => if b.sb == sb then (BitVec.allOnes 8) else 0))
  | .l2 region line => s.l2Drop region line
  | .dir line => s.l2DropAll line
  | .filter region sb => s.filterDrop region sb

/-! ### The engines of the base (R288, R289, R313) -/

/-- A line goes to its region's overflow area; the oldest line of a full one is written back to its home first (R289, R313). -/
def spillLine (s : State) (region line : Nat) (landau : Bool) : State :=
  let mine := fun (h : Nat × Nat × Bool) => h.2.1 == region
  let l := if 1048576 ≤ (s.spill.filter mine).length then s.spill.eraseP mine else s.spill
  { s with spill := l ++ [(line, region, landau)] }

/-- A line that a Hitch operates on leaves every L2 and is held in the sync SRAM of its home region, or is operated on in its overflow area; with
sync SRAM full the least recently used line moves to the overflow area (R289). -/
def hitchTouch (s : State) (line : Nat) : State :=
  let s := s.l2DropAll line
  let s := { s with landau := s.landau.filter (fun l => l.1 != line), spill := s.spill.filter (fun l => !(l.1 == line && l.2.2)) }
  if s.spill.any (fun l => l.1 == line) then s
  else
    let region := homeRegion (2 * line)
    let mine := fun (h : Nat × Nat) => homeRegion (2 * h.1) == region
    let l := s.hitch.filter (fun h => h.1 != line)
    match if 131072 ≤ (l.filter mine).length then l.find? mine else none with
    | some old => spillLine { s with hitch := l.erase old ++ [(line, s.time)] } region old.1 false
    | none => { s with hitch := l ++ [(line, s.time)] }

/-- A line of sync SRAM returns to its home when it has had no operation for 10 µs (R289). -/
def hitchReturn (s : State) (line : Nat) : State := { s with hitch := s.hitch.filter (fun h => !(h.1 == line && h.2 + 210000 ≤ s.time)) }

/-- A line that an L2 slice operates on leaves the Hitch (R288). -/
def hitchLeave (s : State) (line : Nat) : State :=
  { s with hitch := s.hitch.filter (fun h => h.1 != line), spill := s.spill.filter (fun l => !(l.1 == line && !l.2.2)) }

/-- A line that Landau reads or writes leaves every L2 and is held in the node cache of its tree's region, 16 MiB, or is served in its overflow
area; a line that finds the cache full goes there (R12, R313): which one makes room, the least recently used, is as in R289. -/
def landauTouch (s : State) (region sec : Nat) : State :=
  let line := lineOf sec
  let s := hitchLeave (s.l2DropAll line) line
  if s.spill.any (fun l => l.1 == line) then s
  else
    let mine := fun (h : Nat × Nat) => h.2 == region
    let l := s.landau.filter (fun h => h.1 != line)
    match if 262144 ≤ (l.filter mine).length then l.find? mine else none with
    | some old => spillLine { s with landau := l.erase old ++ [(line, region)] } region old.1 true
    | none => { s with landau := l ++ [(line, region)] }

/-! ### Views in the caches (R334, R339) -/

/-- What the caches hold of a view that is gone: its private sectors' lines and their errors (R335). -/
def State.dropView (s : State) (v : Nat) : State :=
  let line := fun (l : Nat) => viewTag (2 * l) == v
  { s with
    l2 := s.l2.filter (fun e => !line (e.1 / 8))
    dir := s.dir.filter (fun e => !line e.1)
    l2bad := s.l2bad.filter (fun e => viewTag (e.1 / 8) != v)
    stackBad := s.stackBad.filter (fun e => viewTag e.1 != v)
    hitch := s.hitch.filter (fun e => !line e.1)
    spill := s.spill.filter (fun e => !line e.1)
    cores := s.cores.map (fun e => (e.1, e.2.l1Drop (fun b => if b.view == v then (BitVec.allOnes 8) else 0))) }

end Sys2Proof.Machine
end

