-- ==== Sys2Proof/Machine/Mem.lean ====
section
/-! DEFINITION. Memory: physical addresses and stacks (R183, R184), sectors and their poison (R200, R237), views (R339,
R340), host memory behind L2 (R198, R273), scratchpad words (R196), and the snoop of page-table lines (R193). -/
namespace Sys2Proof.Machine

/-- Bytes per stack: 128 GiB (R17). -/
def stackBytes : Nat := 2 ^ 37

/-- The populated stacks: 16 on a DZ-880, 14 on a DZ-860 (R11). -/
def State.stackCount (s : State) : Nat := if s.dz860 then 14 else 16

/-- The stacks of an interleave set, as its first stack (counted from stack 8) and their number n (R184). -/
def interleave (stackCount il o : Nat) : Nat × Nat × Nat :=
  match il with
  | 0 => (0, stackCount, o)
  | 1 => let h := o / 2 ^ 40; (8 * h, min 8 (stackCount - 8 * h), o % 2 ^ 40)
  | 2 => let d := o / 2 ^ 38; (2 * d, min 2 (stackCount - 2 * d), o % 2 ^ 38)
  | _ => (0, 0, o)

/-- The flat key of a device byte: 2^37 × (stack − 8) + stack address; `none` is UNPOPULATED (R184). -/
def devKey (stackCount pa : Nat) : Option Nat :=
  let il := bits pa 42 2
  let (first, n, o) := interleave stackCount il (bits pa 0 41)
  if n == 0 || n * stackBytes ≤ o || il == 3 || bit pa 41 || bits pa 44 10 != 0 then none
  else some (stackBytes * (first + (o / 4096) % n) + (o / (4096 * n)) * 4096 + o % 4096)

/-- Where a physical address leads for a context's port (R183); a failure is PAGE_PROT. -/
def decodePA (s : State) (port pa : Nat) : Except Fail Place :=
  match bits pa 54 2 with
  | 0 =>
    match devKey s.stackCount pa with
    | some k => .ok (.dev k)
    | none => .error { cause := .pageProt, detail := .unpopulated }
  | 1 => .ok (.host port (bits pa 0 54))
  | 2 => if bit pa 53 then .error { cause := .pageProt, detail := .locRsv } else .ok (.peer (bits pa 41 12) (bits pa 0 41))
  | _ => .error { cause := .pageProt, detail := .locRsv }

/-! ### Device sectors -/

/-- The free number of a root sector that stands in an area that a family has used, and that nothing has written since: its bytes are arbitrary
(R340). -/
def State.looseAt (s : State) (k : Nat) : Option Nat :=
  match Map.find s.loose (k / 128) with
  | some (n, m) => if m.getLsbD (k % 128) then some (128 * n + k % 128) else none
  | none => none

/-- A root sector of device memory. -/
def State.rootSector (s : State) (k : Nat) : Sector :=
  match s.looseAt k with
  | some n => ⟨Config.freeNat n % 2 ^ 256, none⟩
  | none => ⟨cellsAt s.mem (32 * k) 32, Map.find s.poisoned k⟩

/-- A root sector as an agent of the base reads it: an error that no core's read has met poisons it with a token that names no entry, which is
free (R252; log entry 40). -/
def State.baseSector (s : State) (k : Nat) : Sector :=
  if s.latent k then ⟨0, some (BitVec.ofNat 32 (Config.freeNat (2 ^ 100 + k)))⟩ else s.rootSector k

/-- The nearest private copy of a sector on the path from a view to the root (R339); a chosen view is its parent's alias. -/
def nearest (views : List (Nat × View)) (k : Nat) : Nat → Nat → Option PrivSector
  | 0, _ => none
  | f + 1, v =>
    if v == 0 then none
    else
      match Map.find views v with
      | none => none
      | some x =>
        match Map.find x.sects k with
        | some p => some p
        | none => nearest views k f x.parent

/-- The view that holds the nearest copy of a sector on the path from a view to the root, 0 for the root itself (R339). -/
def holderView (views : List (Nat × View)) (k : Nat) : Nat → Nat → Nat
  | 0, _ => 0
  | f + 1, v =>
    if v == 0 then 0
    else
      match Map.find views v with
      | none => 0
      | some x => if Map.has x.sects k then v else holderView views k f x.parent

/-- A sector that a view reads, as the caches know it: the copy of its holder (R334, R339). -/
def State.seenAs (s : State) (view k : Nat) : Nat := tagged (holderView s.views k 1024 view) k

/-- A copy of a sector as a write that covers it in part, or a merge, takes it: an error that no core's read has met poisons it with a free
token (R252, R339; log entry 40). -/
def State.copyAt (s : State) (t : Nat) (x : Sector) : Sector :=
  if s.latent t then ⟨0, some (BitVec.ofNat 32 (Config.freeNat (2 ^ 100 + t)))⟩ else x

/-- A change to a view. -/
def State.updView (s : State) (v : Nat) (f : View → View) : State :=
  match Map.find s.views v with
  | none => s
  | some x => { s with views := Map.put s.views v (f x) }

/-- A device sector as a view sees it (R339). -/
def State.devSector (s : State) (view k : Nat) : Sector :=
  match nearest s.views k 1024 view with
  | some p => p.sec
  | none => s.rootSector k

/-- The little-endian number with the listed bytes replaced. -/
def patch (data : Nat) (bs : List (Nat × Byte)) : Nat := bs.foldl (fun d b => d - bits d (8 * b.1) 8 * 2 ^ (8 * b.1) + b.2.toNat * 2 ^ (8 * b.1)) data

/-- Eight words that hold a token (R237). -/
def tokenFill (t : Word) : Nat := (List.range 8).foldl (fun a k => a + t.toNat * 2 ^ (32 * k)) 0

/-- A write into a sector (R237): poisoned data poisons the whole unit; clean data that covers it whole clears it; a partial
write leaves a poisoned unit with its old token. -/
def Sector.write (x : Sector) (bs : List (Nat × Byte)) (token : Option Word) : Sector :=
  match token with
  | some t => ⟨tokenFill t, some t⟩
  | none =>
    let whole := (List.range 32).all (fun i => bs.any (fun b => b.1 == i))
    match x.token with
    | some t => if whole then ⟨patch 0 bs, none⟩ else ⟨tokenFill t, some t⟩
    | none => ⟨patch x.data bs, none⟩

/-- One group's translation registers and QB entries tagged with a page-table line: the first are invalidated and keep VBASE, the
second are marked stale (R193, R195). -/
def Group.snooped (x : Group) (stackCount line : Nat) : Group :=
  let hit := fun (pa : Nat) => bits pa 54 2 == 0 && (devKey stackCount pa).map (· / 64) == some line
  let fix := fun (r : Region) => { r with qb := r.qb.map (fun q => if q.line == some line then { q with stale := true } else q) }
  { x with
    x := x.x.map (fun r => if r.2.v && hit r.2.ptea.toNat then (r.1, { XReg.zero with vbase := r.2.vbase }) else r)
    region := fix x.region
    saved := x.saved.map (fun t => { t with region := fix t.region }) }

/-- A die that sleeps is asked to wake (R201). -/
def askWake (s : State) (d : Nat) : State :=
  if (s.dieAt d).asleep then s.updDie d (fun x => { x with waking := some (x.waking.getD s.time) }) else s

/-- A snoop of a line, for a writer, held for a die: it asks the die to wake, and counts one WAKE_HOLD event (R201). -/
def holdSnoop (s : State) (line writer d : Nat) : State :=
  if (s.dieAt d).held.contains (line, writer) then s
  else
    { s.updDie d (fun x => { x with held := x.held ++ [(line, writer)], waking := some (x.waking.getD s.time) }) with health := s.health ++ [(1, d)] }

/-- The stores of a group that stand complete on their way under a page-table line: in its egress queue, and in its `red`-path operations
(R194). -/
def Group.underLine (x : Group) (line : Nat) : List Nat :=
  let hit := fun (q : Store) => q.line == some line
  (x.egress.filter hit).map (·.seq) ++ x.paths.flatMap (fun p => p.2.ops.filterMap (fun o => match o.kind with
    | .red qs => if qs.any hit then some o.seq else none
    | _ => none))

/-- A write to a page-table line of device memory has performed: its snoop reaches every core, dies that sleep hold it (R201), and the accesses
on their way under the old translation are those an acknowledgement waits for (R193 to R195). -/
def snoop (s : State) (line : Nat) : State :=
  let dies := ((s.groups.filter (fun e => s.holds (dieOf e.2.core) && e.2.snooped s.stackCount line != e.2)).map (fun e => dieOf e.2.core)).eraseDups
  let old := s.groups.filterMap (fun e => let ds := e.2.underLine line; if ds.isEmpty then none else some (e.2.core, e.1, ds))
  let s := s.block dies line
  let s := { s with groups := s.groups.map (fun e => (e.1, e.2.snooped s.stackCount line)) }
  if old.isEmpty then s else { s with invals := s.invals ++ [⟨line, old⟩] }

/-- A root sector set whole, its bytes and its poison. -/
def State.putRoot (s : State) (k : Nat) (x : Sector) : State :=
  { s with
    mem := setCells s.mem (32 * k) ((List.range 32).map (fun i => (i, BitVec.ofNat 8 (bits x.data (8 * i) 8))))
    poisoned := match x.token with | some t => Map.put s.poisoned k t | none => Map.del s.poisoned k
    loose := match Map.find s.loose (k / 128) with
      | some (n, m) => Map.put s.loose (k / 128) (n, m &&& ~~~(BitVec.ofNat 128 (2 ^ (k % 128))))
      | none => s.loose }

/-- A write performed on a root sector: every cached copy of it is gone first, with the errors that stood in them (R199, R405). -/
def State.writeRoot (s : State) (k : Nat) (bs : List (Nat × Byte)) (token : Option Word) : State :=
  snoop ((s.putRoot k ((s.baseSector k).write bs token)).dropCopies k) (lineOf k)

/-- A cached sector is stamped poisoned with the token of the access that met its error (R252). -/
def State.stamp (s : State) (sec : Nat) (t : Word) : State :=
  let x : Sector := ⟨tokenFill t, some t⟩
  let k := plainSec sec
  let s :=
    if isHost sec then
      (match Map.find s.hostL2 (k - 2 ^ 52) with
        | some l => { s with hostL2 := Map.put s.hostL2 (k - 2 ^ 52) { l with data := x.data, token := x.token } }
        | none => s)
    else if viewTag sec == 0 then s.putRoot k x
    else s.updView (viewTag sec) (fun v => { v with sects := match Map.find v.sects k with
      | some p => Map.put v.sects k { p with sec := x }
      | none => v.sects })
  s.dropErrors sec

/-- The view an access tagged with a view performs in: a chosen view is its parent's alias (R335). -/
def liveView (views : List (Nat × View)) : Nat → Nat → Nat
  | 0, v => v
  | f + 1, v =>
    match Map.find views v with
    | some x => if x.state == 2 then liveView views f x.parent else v
    | none => if v == 0 then 0 else 0

/-- The slots of the area of a FORK's family that views hold (R340). -/
def familySlots (views : List (Nat × View)) (clan : Nat) : Nat :=
  views.foldl (fun n e => n + (e.2.sects.filter (fun p => p.2.slotOf == clan)).length) 0

/-- A write to a device sector in a view: the root directly; another view through its private copy, whose first write needs a
slot of the family's area (R339, R340). `none` is VIEW_SPACE, and nothing is written. -/
def State.writeDev (s : State) (view k : Nat) (bs : List (Nat × Byte)) (token : Option Word) : Option State :=
  let v := liveView s.views 1024 view
  if v == 0 then some (s.writeRoot k bs token)
  else
    match Map.find s.views v with
    | none => some s
    | some x =>
      if x.state == 3 then some s   -- a lost view: the access is dropped (R335)
      else
      let mark := bs.foldl (fun (m : BitVec 32) b => m ||| BitVec.ofNat 32 (2 ^ b.1)) 0
      match Map.find x.sects k with
      | some p =>
        let p := { p with sec := (s.copyAt (tagged v k) p.sec).write bs token, written := p.written ||| mark }
        some ({ s with views := Map.put s.views v { x with sects := Map.put x.sects k p } }.dropCopies (tagged v k))
      | none =>
        if x.alen * 128 ≤ familySlots s.views x.clan then none
        else
          let p : PrivSector := ⟨(s.copyAt (s.seenAs v k) (s.devSector v k)).write bs token, mark, x.clan⟩
          some ({ s with views := Map.put s.views v { x with sects := Map.put x.sects k p, sect := x.sect + 1 } }.dropCopies (tagged v k))

/-- A reduction that waits to perform on a line that an operation is served on has been passed by one more (R290). -/
def State.passLine (s : State) (line : Nat) : State :=
  let hit := fun (q : Store) => q.red.isSome && (match q.place with | .dev k => k / 64 == line | _ => false)
  let pass := fun (q : Store) => if hit q then { q with passed := q.passed + 1 } else q
  let ops := fun (p : Path) => { p with ops := p.ops.map (fun o => match o.kind with
    | .red qs => { o with kind := .red (qs.map pass) }
    | _ => o) }
  let some_ := fun (x : Group) => x.egress.any hit || x.paths.any (fun p => p.2.ops.any (fun o => match o.kind with
    | .red qs => qs.any hit
    | _ => false))
  if s.groups.any (fun e => some_ e.2) then
    { s with groups := s.groups.map (fun e => (e.1, { e.2 with egress := e.2.egress.map pass, paths := e.2.paths.map (fun p => (p.1, ops p.2)) })) }
  else s

/-- An atomic or reduction of a core for a view: at `.dev` or `.sys` scope on device memory, and at every scope in a non-root view, it executes
in the Hitch of the line's home region; at a narrower scope in the L2 slice of its region, which takes the line in M (R288, R339). -/
def touchAt (s : State) (core view scope : Nat) (p : Place) : State :=
  match p with
  | .dev k =>
    let v := liveView s.views 1024 view
    let s := s.passLine (k / 64)
    let t := tagged v (k / 32)
    if 3 ≤ scope || v != 0 then hitchTouch s (lineOf t)
    else
      let s := hitchLeave s (lineOf t)
      if s.latent t then s else s.l2Own (regionOf core) t false
  | _ => s

/-! ### Link and fabric traffic (R64) -/

/-- The kernels of a launch: its own is number 0, that of a launched node the number of the first node with its descriptor, counted from 1. -/
def Grid.kernelNo (r : Grid) (d : Desc) : Nat := if d.addr == r.desc.addr then 0 else 1 + (r.nodes.findIdx? (fun n => n.desc.addr == d.addr)).getD 0

/-- The key of a counter: launch, kernel, and the link of a die, or 8 for the package's fabric ports. -/
def trafficKey (grid no port : Nat) : Nat := 16 * (2 ^ 20 * grid + no) + port

/-- Bytes of a group's kernel on a link or the fabric ports. -/
def State.countBytes (s : State) (x : Group) (port n : Nat) : State :=
  match s.teamOf x with
  | none => s
  | some t =>
    let no := ((Map.find s.grids t.grid).map (fun r => r.kernelNo t.desc)).getD 0
    { s with traffic := Map.modify 0 s.traffic (trafficKey t.grid no port) (fun b => b + n) }

/-- The home region of a line of host memory is named by address bits 14:12 (R288). -/
def hostRegion (pa : Nat) : Nat := bits pa 12 3

/-- Where a request of a die counts: on its link when its far end lies outside its own region, or on the fabric ports (R64). -/
def State.farEnd (s : State) (die : Nat) (p : Place) : Option Nat :=
  match p with
  | .dev k => if homeRegion (k / 32) == die then none else some die
  | .host _ a => if hostRegion a == die then none else some die
  | .peer q _ => if q == s.peerNo then none else some 8
  | .scr t _ => (match Map.find s.teams t with
    | some u => if dieOf u.core == die then none else some die
    | none => none)

/-- A request of a group for a sector is counted, 32 bytes for each (R64; log entry 42). -/
def State.countSector (s : State) (x : Group) (p : Place) : State :=
  match s.farEnd (dieOf x.core) p with
  | some port => s.countBytes x port 32
  | none => s

/-- A core's write or atomic has performed: its region's L2 holds the line in M unless an engine does, and a copy in its own L1 has been updated
(R197, R198, R288); `before` is the state it began in. -/
def wroteBy (before s : State) (x : Group) (view : Nat) (p : Place) : State :=
  let core := x.core
  let s := s.countSector x p
  let keep := fun (t : Nat) (s : State) => if (before.coreOf core).l1Has t then s.updCore core (fun c => c.l1Fill t 0) else s
  match p with
  | .dev k =>
    let t := tagged (liveView s.views 1024 view) (k / 32)
    keep t (s.l2Own (regionOf core) t true)
  | .host port pa =>
    let k := hostKey port pa / 32
    let s := s.l2Room (regionOf core) (lineOf (hostSec k))
    match Map.find s.hostL2 k with
    | some l =>
      let l := { l with regions := BitVec.ofNat 8 (2 ^ regionOf core), state := .m, owner := regionOf core }
      keep (hostSec k) { s with hostL2 := Map.put s.hostL2 k l }
    | none => s
  | _ => s

/-! ### Host memory -/

/-- A host sector as device agents read it: through L2 (R198, R273). A sector that the host answers with a poisoned
completion is ECC_MEM, HOST_POISON (R237). What a read finds through a port that is down the spec does not say: it is free. -/
def State.hostSector (s : State) (k : Nat) : Except Fail Sector :=
  match Map.find s.hostL2 k with
  | some l => .ok ⟨l.data, l.token⟩
  | none =>
    let key := Config.freeNat ((s.draws * 256 + 30) * 2048) + k
    if Map.get false s.pcieDown (hostPort k) then
      (if Config.freeBit key then .error { cause := .eccMem, detail := .hostPoison } else .ok ⟨Config.freeNat key % 2 ^ 256, none⟩)
    else if Map.get false s.hostPoison k then .error { cause := .eccMem, detail := .hostPoison }
    else .ok ⟨cellsAt s.hostMem (32 * k) 32, none⟩

/-- A device write to a host-homed sector stays dirty in L2 (R46, R273). Of a sector that the host
answers poisoned, the token is not recovered: it is free. -/
def State.writeHost (s : State) (ctx k : Nat) (bs : List (Nat × Byte)) (token : Option Word) : State :=
  let old : Sector := match s.hostSector k with
    | .ok x => x
    | .error _ => ⟨0, some (BitVec.ofNat 32 (Config.freeNat ((s.draws * 256 + 42) * 2048)))⟩
  let x := old.write bs token
  let l : HostLine := (Map.find s.hostL2 k).getD ⟨0, none, [], [], false, 0, .e, 0⟩
  let add := fun (m : List Nat) => if m.contains ctx then m else m ++ [ctx]
  { (s.dropErrors (hostSec k)).l1Inval (hostSec k) (fun _ => true) with
    draws := s.draws + 1, hostL2 := Map.put s.hostL2 k ⟨x.data, x.token, add l.dirty, add l.ctxs, l.through, l.regions, .m, l.owner⟩ }

/-- A core's read of a host-homed sector leaves a clean copy in L2, and one in its L1 unless its page is not to be held there (R197, R198,
R273). -/
def State.fillHost (s : State) (ctx core k pick : Nat) (l1 : Bool) : State :=
  let bit : BitVec 8 := BitVec.ofNat 8 (2 ^ regionOf core)
  let s := (s.l2Room (regionOf core) (lineOf (hostSec k))).l1Take core (hostSec k) pick l1
  match Map.find s.hostL2 k, s.hostSector k with
  | some l, _ =>
    let shared : Moesi := match l.state with
      | .m | .o => .o
      | _ => if l.regions &&& ~~~bit == 0 then l.state else .s
    let l := { l with ctxs := if l.ctxs.contains ctx then l.ctxs else l.ctxs ++ [ctx], regions := l.regions ||| bit,
                      state := if l.regions == bit then l.state else shared }
    { s with hostL2 := Map.put s.hostL2 k l }
  | none, .ok x => { s with hostL2 := Map.put s.hostL2 k ⟨x.data, x.token, [], [ctx], false, bit, .e, regionOf core⟩ }
  | none, .error _ => s

/-- Every dirty host-homed sector of a context is written back (R49, R273). -/
def State.writeBackCtx (s : State) (ctx : Nat) : State :=
  (s.hostL2.filter (fun e => e.2.dirty.contains ctx)).foldl (fun s e => s.writeBack e.1) s

/-- Every clean host-homed sector of a context leaves L2 (R273). -/
def State.dropClean (s : State) (ctx : Nat) : State :=
  { s with hostL2 := s.hostL2.filter (fun e => !(e.2.dirty.isEmpty && e.2.ctxs.contains ctx)) }

/-- A store of a host to its own memory: it is not snooped, and L2 keeps what it holds (R273). -/
def State.storeHost (s : State) (port pa size data : Nat) (poison : Bool) : State :=
  let a := hostKey port pa
  let n := min size (32 - a % 32)
  { s with hostMem := setCells s.hostMem a ((List.range n).map (fun i => (i, BitVec.ofNat 8 (data / 2 ^ (8 * i)))))
           hostPoison := if poison then Map.put s.hostPoison (a / 32) true else Map.del s.hostPoison (a / 32) }

/-! ### Scratchpad -/

/-- A scratchpad word of a team (R196). -/
def State.scrWord (s : State) (t w : Nat) : Val := ((Map.find s.teams t).map (fun x => Map.get Val.zero x.scr w)).getD Val.zero

/-- The accesses that an access of a path of a group stands behind: the newest `XFENCE` of each from-path (R229). -/
def fenceDeps (x : Group) (toPath : Nat) : List Nat := (x.xfences.filter (fun f => f.toPath == toPath)).flatMap (·.deps)

/-- The operations of a group that its accesses of a path come after, by group and number (R229, R270). -/
def State.settled (s : State) (x : Group) (toPath : Nat) : List (Nat × Nat) :=
  match (s.teamOf x).bind (fun t => t.groups[x.idx]?) with
  | some g => (fenceDeps x toPath).map (fun n => (g, n))
  | none => []

/-- A scratchpad word as a read sees it: while an asynchronous operation that wrote it has not been seen to complete, its old or its new value
(R226); of operations that the read comes after, the new one (R270). -/
def State.seenWord (s : State) (t w key : Nat) (after : List (Nat × Nat) := []) : Val :=
  match (((Map.find s.teams t).map (·.olds)).getD []).filter (fun o => o.word == w && !after.contains (o.gid, o.seq)) with
  | [] => s.scrWord t w
  | os => (os[Config.freeNat (Config.freeNat key + w) % (os.length + 1)]?.map (·.val)).getD (s.scrWord t w)

/-- A write of bytes into one scratchpad word, with the rule of its protection unit (R237). -/
def scrWrite (v : Val) (bs : List (Nat × Byte)) (token : Option Word) : Val :=
  match token with
  | some t => ⟨t, true⟩
  | none =>
    let whole := (List.range 4).all (fun i => bs.any (fun b => b.1 == i))
    if v.poison then (if whole then ⟨BitVec.ofNat 32 (patch 0 bs), false⟩ else v)
    else ⟨BitVec.ofNat 32 (patch v.bits.toNat bs), false⟩

/-- The bytes of a write that fall in one unit of `u` bytes, as offsets inside it. -/
def unitBytes (u k : Nat) (bs : List (Nat × Byte)) : List (Nat × Byte) :=
  (bs.filter (fun b => b.1 / u == k)).map (fun b => (b.1 % u, b.2))

/-- The units of `u` bytes that a write touches, each once. -/
def unitsOf (u : Nat) (bs : List (Nat × Byte)) : List Nat := (bs.map (fun b => b.1 / u)).eraseDups

/-- Bytes at absolute offsets written to a team's scratchpad; what an asynchronous operation wrote over is gone with them. -/
def State.writeScr (s : State) (t : Nat) (bs : List (Nat × Byte)) (token : Option Word) : State :=
  let go := fun (m : List (Nat × Val)) (w : Nat) => Map.set Val.zero m w (scrWrite (Map.get Val.zero m w) (unitBytes 4 w bs) token)
  s.updTeam t (fun x => { x with scr := (unitsOf 4 bs).foldl go x.scr, olds := x.olds.filter (fun o => !(unitsOf 4 bs).contains o.word) })

/-- `n` bytes at an offset of a team's scratchpad: the lowest poisoned word's token, or the bytes. -/
def State.readScr (s : State) (t off n key : Nat) (after : List (Nat × Nat) := []) : LVal :=
  let ws := (List.range ((off + n + 3) / 4 - off / 4)).map (fun i => s.seenWord t (off / 4 + i) key after)
  match ws.find? (·.poison) with
  | some v => .tok v.bits
  | none => .val (bits (ws.foldr (fun v a => v.bits.toNat + 2 ^ 32 * a) 0) (8 * (off % 4)) (8 * n))

/-! ### Fabric peers (R357 to R359) -/

/-- The checks a request to a peer meets before a packet is sent (R357). -/
def peerCheck (s : State) (ctx : Nat) (p : Nat) : Option Fail :=
  let f := fun c d => some ({ cause := c, detail := d, akind := .peer, addr := p } : Fail)
  match Map.get 0 s.peers p with
  | 0 => f .peerInvalid .unpopulated
  | 1 => f .peerInvalid .disabled
  | n =>
    if !(((Map.find s.ctxs ctx).map (fun c => c.reach.getLsbD p)).getD false) then f .peerInvalid .outsidePartition
    else if n == 3 then f .peerDead .none
    else none

/-- What an arriving request does. -/
inductive InKind where
  | read | write | atomic
deriving DecidableEq, Repr

/-- The device byte an admitted inbound request performs at; `none` is a negative response (R358). -/
def inbound (s : State) (ftid off : Nat) (k : InKind) : Option Nat :=
  match Map.find s.windows (bits off 29 12) with
  | none => none
  | some w =>
    let o := bits off 0 29
    if w.v && w.ftid == ftid && o < w.len * 4096 && (match k with
      | .read => true
      | .write => w.w
      | .atomic => w.at_) then devKey s.stackCount (w.base + o)
    else none

/-- The planes on which a package's port is up: its unicast packets take one of them (R356, R368). -/
def State.livePlanes (s : State) (peer : Nat) : List Nat := (List.range 16).filter (fun p => !Map.get false s.portDown (16 * peer + p))

/-- The free number of a word's packet to a peer: one for each 64-byte line, whatever its lanes (R359). -/
def packetKey (key p unit_ : Nat) : Nat := Config.freeNat (key / 2048 * 2048 + 9) + 2 ^ 36 * p + unit_

/-- What another package answers to a word's packet for a line: 0 the request performs there, 1 REMOTE_UNMAPPED, 2 PEER_DEAD, 3 LINK_TIMEOUT;
free (R359). With every port of its own down no packet leaves. -/
def peerAnswer (s : State) (key p off : Nat) : Option Fail :=
  let late : Fail := { cause := .linkTimeout, detail := .fabricLink, akind := .peer, addr := p }
  if (s.livePlanes s.peerNo).isEmpty then some late
  else
    match Config.freeNat (packetKey key p (off / 64)) % 4 with
    | 0 => none
    | 1 => some { cause := .remoteUnmapped, akind := .peer, addr := p }
    | 2 => some { cause := .peerDead, akind := .peer, addr := p }
    | _ => some late

/-- The FTID of a context. -/
def State.ftid (s : State) (ctx : Nat) : Nat := ((Map.find s.ctxs ctx).map (·.ftid)).getD 0

/-- The sector of a fabric peer that a load reads; the package's own number is reached by loopback through its windows, and
what another package holds is free (R357, R359). -/
def State.peerSector (s : State) (ctx p off key : Nat) : Except Fail Sector :=
  match peerCheck s ctx p with
  | some f => .error f
  | none =>
    if p == s.peerNo then
      match inbound s (s.ftid ctx) off .read with
      | some k =>
        -- an error in the sector is met by the reader itself (R252)
        if s.latent (k / 32) then (let e := s.latentKind (k / 32); .error { cause := e.1, detail := e.2, akind := .peer, addr := p })
        else .ok (s.rootSector (k / 32))
      | none => .error { cause := .remoteUnmapped, akind := .peer, addr := p }
    else
      match peerAnswer s key p off with
      | some f => .error f
      | none =>
        let n := Config.freeNat (packetKey (key + 2048) p (off / 32))
        if Config.freeBit n then .ok ⟨0, some (BitVec.ofNat 32 (Config.freeNat (n + 1)))⟩
        else .ok ⟨Config.freeNat (n + 1) % 2 ^ 256, none⟩

end Sys2Proof.Machine
end

