-- ==== Sys2Proof/Machine/Translate.lean ====
section
/-! DEFINITION. Page tables and translation registers (R182, R185 to R192). -/
namespace Sys2Proof.Machine

/-- Why an address is translated. -/
inductive Acc where
  | read | write | fetch
deriving DecidableEq, Repr

/-- A leaf that a walk found: PA of the access, page size code and base, attributes, and the PA of the leaf entry. -/
structure Leaf where
  pa : Nat
  ps : Nat
  ca : Nat
  nx : Bool
  w : Bool
  ptea : Nat
deriving DecidableEq, Repr

/-- Bytes of a page size code (R190). -/
def pageBytes (ps : Nat) : Nat :=
  match ps with
  | 0 => 2 ^ 12
  | 1 => 2 ^ 16
  | 2 => 2 ^ 21
  | _ => 2 ^ 29

/-- A failure of the access to a virtual address. -/
def vaFail (va : Nat) (c : Cause) (d : Detail) : Fail := { cause := c, detail := d, akind := .virt, addr := va }

/-- Whether a walk meets an error in a clean L2 sector: where a region's copy has one, it is free through which region the walk reads (R189,
R405). -/
def pteError (s : State) (sec key : Nat) : Bool :=
  s.l2bad.any (fun e => e.1 / 8 == sec) && !s.latent sec && Config.freeBit (Config.freeNat key + sec)

/-- One page-table entry, read through base L2 in the root view (R189). -/
def readPte (s : State) (va pa key : Nat) : Except Fail Nat :=
  match decodePA s 0 pa with
  | .ok (.dev k) =>
    let x := s.rootSector (k / 32)
    if s.latent (k / 32) then (let e := s.latentKind (k / 32); .error (vaFail va e.1 e.2))
    else
      match x.token with
      | some _ => .error (vaFail va .eccMem .none)
      | none => if pteError s (k / 32) key then .error (vaFail va .eccCache .l2Clean) else .ok (bits x.data (8 * (k % 32)) 64)
  | .ok _ => .error (vaFail va .pageProt .pteFormat)
  | .error f => .error { f with akind := .virt, addr := va }

def pteV (e : Nat) : Bool := bit e 0
def pteLeaf (e : Nat) : Bool := bit e 1
def pteS64 (e : Nat) : Bool := bit e 2
def pteFrame (e : Nat) : Nat := bits e 12 44 * 4096
def pteCa (e : Nat) : Nat := bits e 60 2

/-- The format checks of R187 for an entry at a level: `leaf` when it ends the walk. -/
def pteBad (level : Nat) (leaf : Bool) (e : Nat) : Bool :=
  bits e 56 4 != 0 || bits e 3 9 != 0 || 2 ≤ pteCa e || (level == 3 && pteLeaf e) || (level != 0 && pteS64 e)
    || (leaf && level == 2 && pteFrame e % 2 ^ 29 != 0) || (leaf && level == 1 && pteFrame e % 2 ^ 21 != 0)
    || (!leaf && bits (pteFrame e) 54 2 != 0)

/-- The index of a virtual address at a level (R185). -/
def vaIndex (level va : Nat) : Nat :=
  match level with
  | 3 => bits va 38 19
  | 2 => bits va 29 9
  | 1 => bits va 21 8
  | _ => bits va 12 9

/-- The access that a leaf entry gives for a page size (R187, R188). -/
def leafOf (va ps ptea e : Nat) : Leaf :=
  let n := pageBytes ps
  ⟨pteFrame e / n * n + va % n, ps, pteCa e, bit e 63, bit e 62, ptea⟩

/-- Whether one of the 16 level-0 entries of an aligned 64 KiB of addresses says that it is part of a 64 KiB page (R188). -/
def has64 (s : State) (va table key : Nat) : Bool :=
  (List.range 16).any (fun j => match readPte s va (table + 8 * (vaIndex 0 va / 16 * 16 + j)) key with
    | .ok e => pteV e && pteS64 e
    | .error _ => false)

/-- What the 16 level-0 entries of an aligned 64 KiB of addresses say that an access depends on (R188). -/
def said64 (s : State) (va table key j : Nat) : Except Fail (List Bool × Nat × Nat) :=
  match readPte s va (table + 8 * (vaIndex 0 va / 16 * 16 + j)) key with
  | .ok e => .ok ([pteV e, pteS64 e, bit e 63, bit e 62, pteBad 0 true e], pteCa e, pteFrame e / 2 ^ 16)
  | .error f => .error f

/-- The level-0 entry that translates an access: its own, or, where the 16 entries of a 64 KiB page disagree, any one of them (R188). -/
def entry0 (s : State) (va table key : Nat) : Nat :=
  let same := (List.range 16).all (fun j => match said64 s va table key j, said64 s va table key 0 with
    | .ok a, .ok b => a == b
    | _, _ => false)
  if has64 s va table key && !same then vaIndex 0 va / 16 * 16 + Config.freeNat key % 16 else vaIndex 0 va

/-- The walk from a level down, level by level, with the outcomes of each level in the order of R187. -/
def walkFrom (s : State) (va key : Nat) : Nat → Nat → Except Fail Leaf
  | 0, table =>
    let i := entry0 s va table key
    let pa := table + 8 * i
    match readPte s va pa key with
    | .error f => .error f
    | .ok e =>
      if !pteV e then .error (vaFail va .pageMiss .none)
      else if pteBad 0 true e then .error (vaFail va .pageProt .pteFormat)
      else .ok (leafOf va (if pteS64 e || i != vaIndex 0 va then 1 else 0) pa e)
  | level + 1, table =>
    let pa := table + 8 * vaIndex (level + 1) va
    match readPte s va pa key with
    | .error f => .error f
    | .ok e =>
      let leaf := pteLeaf e && level != 2
      if !pteV e then .error (vaFail va .pageMiss .none)
      else if pteBad (level + 1) leaf e then .error (vaFail va .pageProt .pteFormat)
      else if leaf then .ok (leafOf va (level + 2) pa e)
      else walkFrom s va key level (pteFrame e)

/-- A walk of a context's page table for a 57-bit address (R182, R185, R187). -/
def walk (s : State) (c : Ctx) (va key : Nat) : Except Fail Leaf :=
  if 2 ^ 57 ≤ va then .error (vaFail va .bounds .none)
  else if 2 ^ c.rootlog ≤ vaIndex 3 va then .error (vaFail va .pageMiss .none)
  else walkFrom s va key 3 c.ptroot

/-- The device sector and the contents of a page-table entry. -/
def pteAt (s : State) (pa : Nat) : Option (Nat × Nat) :=
  match decodePA s 0 pa with
  | .ok (.dev k) => some (k / 32, bits (s.rootSector (k / 32)).data (8 * (k % 32)) 64)
  | _ => none

/-- The sectors of page tables that a walk from a level down reads, whatever errors stand in them. -/
def walkSectorsFrom (s : State) (va : Nat) : Nat → Nat → List Nat
  | 0, table =>
    let at_ := fun (j : Nat) => pteAt s (table + 8 * j)
    let own := vaIndex 0 va
    let all := (List.range 16).filterMap (fun j => at_ (own / 16 * 16 + j))
    if all.any (fun e => pteV e.2 && pteS64 e.2) then (all.map (·.1)).eraseDups else (at_ own).toList.map (·.1)
  | level + 1, table =>
    match pteAt s (table + 8 * vaIndex (level + 1) va) with
    | none => []
    | some (k, e) => k :: (if pteV e && !(pteLeaf e && level != 2) then walkSectorsFrom s va level (pteFrame e) else [])

/-- The sectors of page tables that a context's walk for an address reads (R189). -/
def walkSectors (s : State) (c : Ctx) (va : Nat) : List Nat :=
  if 2 ^ 57 ≤ va || 2 ^ c.rootlog ≤ vaIndex 3 va then [] else walkSectorsFrom s va 3 c.ptroot

/-- The page-table line of an entry's PA, as a key of 64-byte device lines (R193). -/
def pteLine (s : State) (ptea : Nat) : Option Nat := (devKey s.stackCount ptea).map (· / 64)

/-- An access after translation: where it goes, whether L1 may hold it, and the line its translation came from. -/
structure Trans where
  place : Place
  ca : Nat
  line : Option Nat
  va : Nat
deriving DecidableEq, Repr

/-- Protection, then the location of the physical address (R183, R184, R187). -/
def finishTrans (s : State) (c : Ctx) (acc : Acc) (va pa ca : Nat) (w nx : Bool) (line : Option Nat) : Except Fail Trans :=
  if acc == .write && !w then .error (vaFail va .pageProt .write)
  else if acc == .fetch && nx then .error (vaFail va .pageProt .none)
  else
    match decodePA s c.port pa with
    | .error f => .error { f with akind := .virt, addr := va }
    | .ok p => .ok ⟨p, ca, line, va⟩

/-- The translation of a virtual address through the page table. -/
def translate (s : State) (c : Ctx) (acc : Acc) (va key : Nat) : Except Fail Trans :=
  match walk s c va key with
  | .error f => .error f
  | .ok l => finishTrans s c acc va l.pa l.ca l.w l.nx (pteLine s l.ptea)

/-- The translation of a lane offset through an x register (R191). -/
def translateX (s : State) (c : Ctx) (x : XReg) (acc : Acc) (off : Int) (key : Nat) : Except Fail Trans :=
  let o := wrap 64 off
  if o < x.limit.toNat then
    finishTrans s c acc (wrap 64 ((x.vbase.toNat : Int) + o)) (x.frame.toNat + o) x.ca.toNat x.w x.nx (pteLine s x.ptea.toNat)
  else translate s c acc ((x.vbase.toNat + o) % 2 ^ 64) key

/-- How many further pages the entries after a leaf in its 64-byte line extend its run (R192). -/
def runAfter (s : State) (va level key : Nat) (first : Nat) : Nat → Nat → Nat → Nat
  | 0, _, _ => 0
  | n + 1, ptea, frame =>
    let q := ptea + 8
    if q / 64 != ptea / 64 then 0
    else
      match readPte s va q key with
      | .error _ => 0
      | .ok e =>
        let step := if level == 2 then 2 ^ 29 else if level == 1 then 2 ^ 21 else 2 ^ 12
        if pteV e && (level == 0 || pteLeaf e) && pteS64 e == pteS64 first && bit e 63 == bit first 63
            && bit e 62 == bit first 62 && pteCa e == pteCa first && pteFrame e == frame + step then
          1 + runAfter s va level key first n q (pteFrame e)
        else 0

/-- `XLATE` of a base address (R190 to R192): where the walk fails, LIMIT is 0 and the base is kept. -/
def xlateReg (s : State) (c : Ctx) (va key : Nat) : XReg :=
  match walk s c va key with
  | .error _ => { XReg.zero with vbase := BitVec.ofNat 64 va }
  | .ok l =>
    let n := pageBytes l.ps
    let level := if l.ps == 3 then 2 else if l.ps == 2 then 1 else 0
    let more :=
      if l.ps == 1 then 0
      else
        match readPte s va l.ptea key with
        | .ok e => runAfter s va level key e 7 l.ptea (pteFrame e)
        | .error _ => 0
    { ptea := BitVec.ofNat 64 l.ptea, v := true, ps := BitVec.ofNat 2 l.ps, ca := BitVec.ofNat 2 l.ca, nx := l.nx, w := l.w,
      limit := BitVec.ofNat 33 (min (2 ^ 32) (n - va % n + n * more)), vbase := BitVec.ofNat 64 va, frame := BitVec.ofNat 64 l.pa }

/-- Bits 191:128 of a translation register as `XINFO` reads them (R190, R221). -/
def XReg.word2 (x : XReg) : Nat :=
  x.limit.toNat + ofBool x.w * 2 ^ 33 + ofBool x.nx * 2 ^ 34 + x.ca.toNat * 2 ^ 35 + x.ps.toNat * 2 ^ 37 + ofBool x.v * 2 ^ 63

end Sys2Proof.Machine
end

