-- ==== Sys2Proof/Machine/ViewTable.lean ====
section
/-! DEFINITION. The view table (R334, R335): chains, occupation, loss and freeing; and the withdrawal of a group's `GETWORK`
requests (R296). -/
namespace Sys2Proof.Machine

/-- A view and its non-root ancestors, innermost first. -/
def viewChain (views : List (Nat × View)) : Nat → Nat → List Nat
  | 0, _ => []
  | f + 1, v =>
    if v == 0 then []
    else
      match Map.find views v with
      | none => []
      | some x => v :: viewChain views f x.parent

def State.chain (s : State) (v : Nat) : List Nat := viewChain s.views 1024 v

/-- Whether a team still has a group that has not ended. -/
def State.teamLive (s : State) (t : Team) : Bool := t.groups.any (fun g => !(s.grp g).ended)

/-- Whether a team is left in a view or in any of its descendants (R335). -/
def State.occupied (s : State) (v : Nat) : Bool := s.teams.any (fun e => s.teamLive e.2 && (s.chain e.2.view).contains v)

/-- A lost view: its sectors and log are discarded and its reservations returned (R335). -/
def View.lose (x : View) : View := { x with state := 3, sects := [], log := [], sect := 0 }

/-- Live views in which, with their descendants, no team is left become lost (R335). -/
def sweepLost (s : State) : State :=
  let lost := fun (e : Nat × View) => e.2.state == 1 && !s.occupied e.1
  ((s.views.filter lost).map (·.1)).foldl State.dropView { s with views := s.views.map (fun e => (e.1, if lost e then e.2.lose else e.2)) }

/-- Whether an access is still tagged with a view, or a view or a live team still names it. -/
def State.tagged (s : State) (v : Nat) : Bool :=
  s.groups.any (fun e => e.2.egress.any (fun q => q.view == v) || e.2.paths.any (fun p => p.2.ops.any (fun o => o.view == v)))
    || s.views.any (fun e => e.2.parent == v && e.2.state != 0) || s.teams.any (fun e => s.teamLive e.2 && e.2.view == v)

/-- Chosen and lost entries that nothing names any more are freed, children before parents (R335). -/
def sweepViews (s : State) : State :=
  (s.views.reverse).foldl (fun s e => if 2 ≤ e.2.state && !s.tagged e.1 then { s with views := Map.del s.views e.1 } else s) s

/-- Whether an entry is to be freed. -/
def State.sweepable (s : State) : Bool := s.views.any (fun e => decide (2 ≤ e.2.state) && !s.tagged e.1)

/-! ### Withdrawal of `GETWORK` (R296) -/

/-- Records granted and not yet written return to the front of the bin in their order. -/
def Node.giveBack (n : Node) (recs : List (BitVec 128)) : Node :=
  if n.kind == 2 then { n with returned := recs.map (fun r => (r, bits r.toNat 96 32)) ++ n.returned }
  else { n with bin := recs ++ n.bin, handed := n.handed - recs.length }

/-- Path numbers in the order of R94. -/
def pathCpy : Nat := 0
def pathGat : Nat := 1
def pathRed : Nat := 2
def pathTre : Nat := 3
def pathWrk : Nat := 4
def pathFab : Nat := 5

def Group.path (x : Group) (k : Nat) : Path := Map.get Path.zero x.paths k

/-- The group has seen the counter of a path: what the operations no longer in its queue wrote over is seen no more (R226). -/
def seePath (s : State) (g k : Nat) : State :=
  let ops := ((s.grp g).path k).ops
  { s with teams := s.teams.map (fun e =>
      (e.1, { e.2 with olds := e.2.olds.filter (fun o => !(o.gid == g && o.path == k && !ops.any (fun a => a.seq == o.seq))) })) }

/-- The group has seen every counter at 0. -/
def seeAll (s : State) (g : Nat) : State := (List.range 6).foldl (fun s k => seePath s g k) s

/-- A change to one node of a launch's table. -/
def State.updNode (s : State) (grid n : Nat) (f : Node → Node) : State :=
  s.updGrid grid (fun r => { r with nodes := (r.nodes.zip (List.range r.nodes.length)).map (fun e => if e.2 == n then f e.1 else e.1) })

/-- Records of a range node (R29, R30). -/
def Node.total (n : Node) : Nat := max n.extx 1 * max n.exty 1 * max n.extz 1

/-- Record `i` of a range node: x fastest, then y (R30). -/
def Node.record (n : Node) (i : Nat) : BitVec 128 :=
  let ex := max n.extx 1
  let ey := max n.exty 1
  BitVec.ofNat 128 (i % ex + 2 ^ 32 * (i / ex % ey) + 2 ^ 64 * (i / (ex * ey)) + 2 ^ 96 * i)

/-- Records that a request can be given now. -/
def Node.available (n : Node) : Nat := if n.kind == 2 then n.returned.length + (n.total - n.handed) else n.bin.length

/-- The `k` oldest records, HANDED before them (for a range node, the index of the first), and the node after (R295, R296). -/
def Node.take (n : Node) (k : Nat) : List (BitVec 128) × Nat × Node :=
  if n.kind == 2 then
    let old := n.returned.take k
    let m := min (k - old.length) (n.total - n.handed)
    let first := ((old.head?).map (·.2)).getD n.handed
    (old.map (·.1) ++ (List.range m).map (fun j => n.record (n.handed + j)), first,
      { n with returned := n.returned.drop k, handed := n.handed + m })
  else
    let r := n.bin.take k
    (r, n.handed, { n with bin := n.bin.drop k, handed := n.handed + r.length })

def State.node (s : State) (grid n : Nat) : Option Node := (Map.find s.grids grid).bind (fun r => r.nodes[n]?)

/-- An answer is granted to a group's request (R296). -/
def answer (s : State) (g seq : Nat) (ans : List (BitVec 128) × Nat × Nat) : State :=
  s.updGrp g (fun x =>
    let p := x.path pathWrk
    { x with paths := Map.set Path.zero x.paths pathWrk { p with ops := p.ops.map (fun o =>
        if o.seq == seq then
          match o.kind with
          | .getwork n off k nw _ => { o with kind := .getwork n off k nw (some ans) }
          | _ => o
        else o) } })

/-- How many records a group's request asks for. -/
def askedK (x : Group) (seq : Nat) : Nat :=
  match (x.path pathWrk).ops.find? (fun o => o.seq == seq) with
  | some o =>
    match o.kind with
    | .getwork _ _ k _ _ => k
    | _ => 0
  | none => 0

/-- Waiting requests are served in their order of arrival while there are records (R296). -/
def serveNode (s : State) (grid n : Nat) : Nat → State
  | 0 => s
  | f + 1 =>
    match s.node grid n with
    | none => s
    | some d =>
      match d.waiting with
      | [] => s
      | (g, seq) :: more =>
        if d.available == 0 then s
        else
          let (recs, w2, d) := d.take (askedK (s.grp g) seq)
          serveNode (answer (s.updNode grid n (fun _ => { d with waiting := more })) g seq (recs, 0, w2)) grid n f

/-- The unanswered `GETWORK` requests of a group are withdrawn; what they had been granted goes to the requests that wait (R296). -/
def withdraw (s : State) (g : Nat) : State :=
  let x := s.grp g
  let grid := ((s.teamOf x).map (·.grid)).getD 0
  let p := x.path pathWrk
  let open_ := fun (o : AsyncOp) => !o.done && (match o.kind with | .getwork .. => true | _ => false)
  let s := p.ops.reverse.foldl (fun s o =>
    if open_ o then
      match o.kind with
      | .getwork n _ _ _ ans =>
        s.updNode grid n (fun d =>
          let d := { d with waiting := d.waiting.filter (fun w => w != (g, o.seq)) }
          match ans with
          | some (recs, _, _) => d.giveBack recs
          | none => d)
      | _ => s
    else s) s
  let s := s.updGrp g (fun x => { x with paths := Map.set Path.zero x.paths pathWrk { p with ops := p.ops.filter (fun o => !open_ o) } })
  p.ops.foldl (fun s o =>
    match open_ o, o.kind with
    | true, .getwork n _ _ _ _ => serveNode s grid n (((s.node grid n).map (fun d => d.waiting.length)).getD 0)
    | _, _ => s) s

end Sys2Proof.Machine
end

