-- ==== Sys2Proof/Machine/Access.lean ====
section
/-! DEFINITION. How a group's accesses reach memory: lane addresses (R207 to R210), loads over its own pending stores (R211),
stores waiting to perform (R205, R265), reductions and atomics (R215 to R218), and the quarantine buffer (R240, R244). -/
namespace Sys2Proof.Machine

/-- The first byte of the sector a place lies in, and the offset in it. -/
def sectorBase : Place → Place × Nat
  | .dev k => (.dev (k / 32 * 32), k % 32)
  | .host p a => (.host p (a / 32 * 32), a % 32)
  | .peer p o => (.peer p (o / 32 * 32), o % 32)
  | .scr t o => (.scr t (o / 32 * 32), o % 32)

/-- A memory sector as a core reads it for a view: an error of L2 or of the stack gives its cause (R252, R405). -/
def readSector (s : State) (ctx core view key : Nat) (p : Place) : Except Fail Sector :=
  match p with
  | .dev k =>
    match s.readError core (s.seenAs view (k / 32)) with
    | some (c, d) => .error { cause := c, detail := d, akind := .phys, addr := k }
    | none => .ok (s.devSector view (k / 32))
  | .host pt a =>
    match s.readError core (hostSec (hostKey pt a / 32)), s.hostSector (hostKey pt a / 32) with
    | some (c, d), _ => .error { cause := c, detail := d, akind := .phys, addr := a }
    | none, .ok x => .ok x
    | none, .error f => .error { f with akind := .phys, addr := a }
  | .peer pr o => s.peerSector ctx pr o key
  | .scr _ _ => .ok ⟨0, none⟩

/-- The byte that the youngest pending store of the group gives: its value, or its poisoned data's token. -/
def pendingByte (ps : List Store) (base : Place) (off : Nat) : Option LVal :=
  ps.foldl (fun a q =>
    if q.place == base && q.red.isNone then
      match q.bytes.find? (fun b => b.1 == off) with
      | some b => some (match q.ptok.find? (fun e => e.1 == b.2.2) with | some e => .tok e.2 | none => .val b.2.1.toNat)
      | none => a
    else a) none

/-- The stores of a group that its own loads see: accepted ones not yet performed, then those quarantined in its open region
(R211). -/
def Group.pending (x : Group) : List Store := x.egress ++ (if x.region.opened then x.region.qb else [])

/-- The group as a split of lanes `m` sees its waiting stores: of a store of a split that has diverged from it, which is unordered with its
loads, a free bit says whether it is seen before it performs (R262). -/
def Group.seenBy (x : Group) (m : Mask) : Group := { x with egress := x.egress.filter (fun q => q.mask &&& m != 0 || q.shared) }

/-- `n` bytes at a place inside one sector, as the group's own load sees them (R211). -/
def loadPlace (s : State) (x : Group) (view key : Nat) (p : Place) (n : Nat) : LVal :=
  let (base, off) := sectorBase p
  let sec := readSector s x.ctx x.core view key base
  let ps := x.pending
  let fromMem := fun (i : Nat) =>
    match p with
    | .scr t o => s.readScr t (o + i) 1 key (s.settled x 6)
    | _ =>
      match sec with
      | .error f => LVal.new f
      | .ok d =>
        match d.token with
        | some t => .tok t
        | none => .val (bits d.data (8 * (off + i)) 8)
  let bs := (List.range n).map (fun i => (pendingByte ps base (off + i)).getD (fromMem i))
  match bs.find? (fun b => !b.isVal) with
  | some e => e
  | none => .val (bs.foldr (fun b a => (match b with | .val v => v | _ => 0) + 256 * a) 0)

/-! ### Performing stores and reductions -/

/-- The new value of a reduction or atomic (R215): `none` is Poison(FP_INVALID), and memory is left unchanged. -/
def atomicOp (aop size old x x2 : Nat) : Option Nat :=
  let n := 8 * size
  match aop with
  | 0 => some ((old + x) % 2 ^ n)
  | 1 => some (if sext n old ≤ sext n x then old else x)
  | 2 => some (if sext n old ≤ sext n x then x else old)
  | 3 => some (min old x)
  | 4 => some (max old x)
  | 5 => some (old &&& x)
  | 6 => some (old ||| x)
  | 7 => some (old ^^^ x)
  | 8 => some x
  | 9 => some (if old == x then x2 else old)
  | _ => let F := if size == 4 then fp32 else fp64; fAdd F .rne (F.decode old) (F.decode x)

/-- `n` little-endian bytes of a value at an offset, written by a lane. -/
def bytesAt (off n v lane : Nat) : List (Nat × Byte × Nat) :=
  (List.range n).map (fun i => (off + i, BitVec.ofNat 8 (v / 2 ^ (8 * i)), lane))

def plainBytes (bs : List (Nat × Byte × Nat)) : List (Nat × Byte) := bs.map (fun b => (b.1, b.2.1))

/-- Bytes performed at their target; a failure is the token's cause (R205, R265, R340). Of a fabric peer the checks of R357 have been made; one
that has died since fails what is on its way to it (R359, R369). -/
def performBytes (s : State) (ctx view key : Nat) (base : Place) (bs : List (Nat × Byte)) (token : Option Word) : State × Option Fail :=
  match base with
  | .dev k =>
    match s.writeDev view (k / 32) bs token with
    | some s => (s, none)
    | none => (s, some { cause := .viewSpace, akind := .phys, addr := k })
  | .host p a => (s.writeHost ctx (hostKey p a / 32) bs token, none)
  | .scr t o => (s.writeScr t (bs.map (fun b => (o + b.1, b.2))) token, none)
  | .peer p o =>
    if Map.get 0 s.peers p == 3 then (s, some { cause := .peerDead, akind := .peer, addr := p })
    else if p == s.peerNo then
      match inbound s (s.ftid ctx) o .write with
      | some k => (s.writeRoot (k / 32) bs token, none)
      | none => (s, some { cause := .remoteUnmapped, akind := .peer, addr := p })
    else (s, peerAnswer s key p o)

/-- The same for a writer whose requests the coalescer does not check on their way: a peer is checked first (R357). -/
def checkedBytes (s : State) (ctx view key : Nat) (base : Place) (bs : List (Nat × Byte)) (token : Option Word) : State × Option Fail :=
  match base with
  | .peer p _ => (match peerCheck s ctx p with
    | some f => (s, some f)
    | none => performBytes s ctx view key base bs token)
  | _ => performBytes s ctx view key base bs token

/-- A sector's store performed: poisoned data poisons the whole unit with its token, in scratchpad word by word (R237). -/
def performSector (s : State) (ctx view key : Nat) (q : Store) : State × Option Fail :=
  match q.place with
  | .scr _ _ =>
    let clean := q.bytes.filter (fun b => !q.ptok.any (fun e => e.1 == b.2.2))
    let (s, _) := performBytes s ctx view key q.place (plainBytes clean) none
    (q.ptok.foldl (fun s e => (performBytes s ctx view key q.place (plainBytes (q.bytes.filter (fun b => b.2.2 == e.1))) (some e.2)).1) s, none)
  | _ => performBytes s ctx view key q.place (plainBytes q.bytes) ((q.ptok.head?).map (·.2))

/-- The device as an atomic of a view sees it: the view's first write to a sector takes its copy from the home, past an error in a clean L2
sector (R339, R405). -/
def State.atHome (s : State) (view : Nat) (p : Place) : State :=
  match p with
  | .dev k =>
    let v := liveView s.views 1024 view
    if v == 0 || holderView s.views (k / 32) 1024 v == v then s
    else { s with l2bad := s.l2bad.filter (fun e => e.1 / 8 != s.seenAs v (k / 32) || s.dirtyBad (e.1 % 8) (e.1 / 8)) }
  | _ => s

/-- Scratchpad as an atomic reads it: each word as it stands, in one step with its write (R216). -/
def State.nowScr (s : State) (p : Place) : State :=
  match p with
  | .scr t _ => s.updTeam t (fun x => { x with olds := [] })
  | _ => s

/-- A read-modify-write of one word at its target, and its old value: poison is left unchanged and returned, an invalid sum
leaves memory unchanged (R215, R216, R218). -/
def performAtomic (s : State) (x : Group) (view key : Nat) (p : Place) (aop size v x2 : Nat) (vtok : Option Word) : State × LVal :=
  let (base, off) := sectorBase p
  match p with
  | .host _ _ =>
    let ok := ((Map.find s.ctxs x.ctx).map (·.hostAtomics)).getD false && (aop == 0 || aop == 8 || aop == 9)
    if !ok then (s, .bad .hostAtomicUnsupported)
    else
      match vtok with
      | some t => (s, .tok t)
      | none =>
        -- the completer performs it in host memory (R218, R273); through a port that is down it finds a free value
        match base with
        | .host pt a =>
          let s := s.writeBack (hostKey pt a / 32)
          if Map.get false s.pcieDown pt then
            (s, if Config.freeBit (key + 2) then .new { cause := .eccMem, detail := .hostPoison, akind := .phys, addr := a }
              else .val (Config.freeNat (key + 3) % 2 ^ (8 * size)))
          else if Map.get false s.hostPoison (hostKey pt a / 32) then (s, .new { cause := .eccMem, detail := .hostPoison, akind := .phys, addr := a })
          else
            -- what L2 and the L1s hold of the sector is older from now on, and gone (R211)
            let old := bits (cellsAt s.hostMem (hostKey pt a) 32) (8 * off) (8 * size)
            let s := s.l1Inval (hostSec (hostKey pt a / 32)) (fun _ => true)
            ({ s with hostMem := setCells s.hostMem (hostKey pt a) (plainBytes (bytesAt off size ((atomicOp aop size old v x2).getD old) 0))
                      hostL2 := Map.del s.hostL2 (hostKey pt a / 32) },
              .val old)
        | _ => (s, .val 0)
  | .peer pr o =>
    if Map.get 0 s.peers pr == 3 then (s, .new { cause := .peerDead, akind := .peer, addr := pr })
    else if pr == s.peerNo then
      match inbound s (s.ftid x.ctx) o .atomic with
      | none => (s, .new { cause := .remoteUnmapped, akind := .peer, addr := pr })
      | some k =>
        -- it executes at the peer, this package, in the Hitch of the line's home region (R288, R357)
        let e := s.latentKind (k / 32)
        let bad := s.latent (k / 32)
        let s := hitchTouch (s.passLine (k / 64)) (k / 64)
        let d := s.rootSector (k / 32)
        match if bad then some (LVal.new { cause := e.1, detail := e.2, akind := .peer, addr := pr }) else (d.token.orElse (fun _ => vtok)).map LVal.tok with
        | some r => (s, r)
        | none =>
          let old := bits d.data (8 * (k % 32)) (8 * size)
          match atomicOp aop size old v x2 with
          | none => (s, .bad .fpInvalid)
          | some r => (s.writeRoot (k / 32) (plainBytes (bytesAt (k % 32) size r 0)) none, .val old)
    else
      match peerAnswer s key pr o with
      | some f => (s, .new f)
      | none => (s, .val (Config.freeNat (key + 1) % 2 ^ (8 * size)))
  | _ =>
    match loadPlace ((s.atHome view p).nowScr p) { x with egress := [], region := Region.closed } view key p size, vtok with
    | .val old, none =>
      match atomicOp aop size old v x2 with
      | none => (s, .bad .fpInvalid)
      | some r =>
        match performBytes s x.ctx view key base (plainBytes (bytesAt off size r 0)) none with
        | (s, none) => (s, .val old)
        | (s, some f) => (s, .new f)
    | .val _, some t => (s, .tok t)
    | e, _ => (s, e)

/-- A sector whose error a core's word has met is stamped with the word's token of that cause (R252); `before` is the state the word began in,
and the token is of an entry that it made. -/
def stampMet (before s : State) (core sec : Nat) (met : Option (Cause × Detail)) : State :=
  match if s.latent sec then met else none with
  | none => s
  | some (c, _) =>
    match (s.coreOf core).side.find? (fun e => e.2.token.toNat / 2 ^ 24 == c.code && !(before.coreOf core).side.contains e) with
    | some e => s.stamp sec e.2.token
    | none => s

/-- The cached sector that a group's access to a place reads for a view; at the package's own peer number it lies behind a window (R357). -/
def readAs (s : State) (ctx view : Nat) (p : Place) : Option Nat :=
  match p with
  | .dev k => some (s.seenAs view (k / 32))
  | .host pt a => some (hostSec (hostKey pt a / 32))
  | .peer q o => if q == s.peerNo then (inbound s (s.ftid ctx) o .read).map (fun k => k / 32) else none
  | .scr _ _ => none

/-- The same, for a place that the word has read. -/
def stampRead (before s : State) (x : Group) (view : Nat) (p : Place) : State :=
  match readAs before x.ctx view p with
  | none => s
  | some t =>
    let met := match p with
      | .peer _ _ => if before.latent t then some (before.latentKind t) else none
      | _ => before.readError x.core t
    stampMet before s x.core t met

/-- A page-table sector whose error a core's walk has met is stamped with the token of the access that it failed (R252). -/
def stampWalk (before s : State) (x : Group) (f : Fail) : State :=
  match if f.akind == .virt && (f.cause == .eccMem || f.cause == .eccCache) then before.ctxOf x else none with
  | none => s
  | some c => (walkSectors before c f.addr).foldl (fun s k => stampMet before s x.core k (some (f.cause, f.detail))) s

/-- The sectors that a group's reads ask for beyond its own L1 and its region's L2 count as its kernel's traffic (R64). -/
def State.countReads (before : State) (x : Group) (view : Nat) (ts : List (Except LVal Trans)) (s : State) : State :=
  let near := fun (t : Nat) => (before.coreOf x.core).l1Has t || before.l2Has (regionOf x.core) t
  let far := fun (t : Except LVal Trans) => match t with
    | .ok t => (match (sectorBase t.place).1 with
      | .dev k => if near (before.seenAs view (k / 32)) then none else some (Place.dev k)
      | .host p a => if near (hostSec (hostKey p a / 32)) then none else some (Place.host p a)
      | p => some p)
    | .error _ => none
  ((ts.filterMap far).eraseDups).foldl (fun s p => s.countSector x p) s

/-- The sectors that a word's reads find in L1, and those that they do not, are counted (R404). -/
def State.countL1 (before : State) (x : Group) (view : Nat) (l1 : Bool) (ts : List (Except LVal Trans)) (s : State) : State :=
  let secs := (ts.filterMap (fun t => match t with
    | .ok t => if t.ca == 1 then none else (match t.place with
      | .dev k => some (before.seenAs view (k / 32))
      | .host p a => some (hostSec (hostKey p a / 32))
      | _ => none)
    | .error _ => none)).eraseDups
  let hits := (secs.filter (fun k => (before.coreOf x.core).l1Has k)).length
  if !l1 || secs.isEmpty then s else (s.bumpPerf x 12 hits).bumpPerf x 13 (secs.length - hits)

/-- What a core's reads leave in the caches (R197, R198), and in the sectors whose errors they met (R252). Pages with CA = 1 are never held in
L1, fabric addresses nowhere, and a sector that L2 holds with an error enters no L1 (R405). -/
def readDone (before : State) (x : Group) (view pick : Nat) (l1 : Bool) (ts : List (Except LVal Trans)) (s : State) : State :=
  let s := before.countL1 x view l1 ts (before.countReads x view ts s)
  ts.foldl (fun s t =>
    match t with
    | .ok t =>
      let s := stampRead before s x view t.place
      let clean := fun (k : Nat) => (before.readError x.core k).map (·.2) != some .l2Clean
      match t.place with
      | .dev k => let a := before.seenAs view (k / 32); s.coreFill x.core a pick (l1 && t.ca != 1 && clean a)
      | .host pt a => let k := hostKey pt a / 32; s.fillHost x.ctx x.core k pick (l1 && t.ca != 1 && clean (hostSec k))
      | _ => s
    | .error (.new f) => stampWalk before s x f
    | .error _ => s) s

/-- The token of a store that failed as it performed: it flags the open region as the store's own failure would, but has none to
flag where it was released from a quarantine buffer or failed at a peer (R214, R217, R244, R359). -/
def flagStore (s : State) (g : Nat) (q : Store) (t : Word) : State :=
  match q.rel, q.place with
  | true, _ => orphan s g t
  | _, .peer _ _ => orphan s g t
  | _, _ => flagRegion s g t q.lane false

/-- The entry of a token with its cause arisen in a lower lane: it names the lowest (R210, R233). -/
def lowerEntry (s : State) (g : Nat) (t : Word) (f : Fail) (lane : Nat) : State :=
  let x := s.grp g
  let fix := fun (m : List (Nat × SideEntry)) => m.map (fun e =>
    if e.2.token == t && lane < e.2.lane then
      (e.1, { e.2 with lane := lane, akind := f.akind, addr := BitVec.ofNat 64 f.addr, item := BitVec.ofNat 16 f.item, detail := f.detail })
    else e)
  (s.updCore x.core (fun c => { c with side := fix c.side })).updGrp g (fun x => { x with savedSide := fix x.savedSide })

/-- The tokens that the stores of words none of which waits any more have made are forgotten. -/
def Group.pruneLate (x : Group) : Group :=
  let reds := x.paths.flatMap (fun p => p.2.ops.flatMap (fun o => match o.kind with
    | .red qs => qs.map (·.word)
    | _ => []))
  let words := x.egress.map (·.word) ++ x.region.qb.map (·.word) ++ reds
  { x with late := x.late.filter (fun e => words.contains e.1) }

/-- The token of a store that fails as it performs: one entry for each cause of its word (R210). -/
def lateToken (s : State) (g : Nat) (q : Store) (f : Fail) : State × Word :=
  match (q.toks ++ ((s.grp g).late.filter (fun e => e.1 == q.word)).map (·.2)).find? (fun e => e.1 == f.cause) with
  | some e => (lowerEntry s g e.2 f q.lane, e.2)
  | none =>
    let (s, t) := newEntryIn s g 0xFFFF q.pc f q.lane
    (if q.word == 0 then s else s.updGrp g (fun x => { x with late := x.late ++ [(q.word, f.cause, t)] }), t)

/-- A store that writes part of a sector whose newest copy has an error meets it: the sector is stamped with a token of the store's lane, in the
view that holds it (R200, R252, R339). -/
def surface (s : State) (g : Nat) (q : Store) : State :=
  let whole := q.red.isNone && (List.range 32).all (fun i => q.bytes.any (fun b => b.1 == i))
  let sec := match q.place with
    | .peer p o => if p == s.peerNo then (inbound s (s.ftid (s.grp g).ctx) o .write).map (fun k => k / 32) else none
    | p => readAs s (s.grp g).ctx (liveView s.views 1024 q.view) p
  match if whole then none else sec with
  | none => s
  | some t =>
    if !s.latent t then s
    else
      let e := s.latentKind t
      let (s, k) := lateToken s g q { cause := e.1, detail := e.2, akind := .virt, addr := q.va }
      s.stamp t k

/-- A pending store or reduction performs; the flag says whether it failed or met poison. A reduction whose data is poisoned performs, where
a `.fwd` commit releases it, as a poisoned unit (R237, R243, R265). -/
def performStoreB (s : State) (g : Nat) (q : Store) : State × Bool :=
  let x := s.grp g
  let s := surface { s with draws := s.draws + 1 } g q
  let key := if q.word == 0 then freeKey s.draws 12 q.lane else freeKey q.word 47 q.lane
  match if q.rel && !q.ptok.isEmpty then none else q.red with
  | some (aop, size, v) =>
    let p : Place := match q.place, q.bytes with
      | .dev k, b :: _ => .dev (k + b.1)
      | .host a k, b :: _ => .host a (k + b.1)
      | .peer a k, b :: _ => .peer a (k + b.1)
      | .scr a k, b :: _ => .scr a (k + b.1)
      | p, [] => p
    match performAtomic (touchAt s x.core q.view q.scope p) x q.view key p aop size v 0 ((q.ptok.head?).map (·.2)) with
    | (u, .val _) => (wroteBy s u x q.view p, false)
    | (s, .tok t) => (flagStore s g q t, true)
    | (s, .new f) => let (s, t) := lateToken s g q (f.atVa q.va); (flagStore s g q t, true)
    | (s, .beside _) => (s, true)   -- no result of an atomic
  | none =>
    match performSector s x.ctx q.view key q with
    | (u, none) => (wroteBy s u x q.view q.place, false)
    | (s, some f) => let (s, t) := lateToken s g q (f.atVa q.va); (flagStore s g q t, true)

def performStore (s : State) (g : Nat) (q : Store) : State := (performStoreB s g q).1

/-- A release at `.sys` writes back every dirty host-homed line of the context first, and drops its clean ones (R273). -/
def releaseSys (s : State) (ctx scope : Nat) : State := if scope == 4 then (s.writeBackCtx ctx).dropClean ctx else s

/-- A host-homed sector is to be written through (R273). -/
def State.markThrough (s : State) (k : Nat) : State :=
  match Map.find s.hostL2 k with
  | some l => { s with hostL2 := Map.put s.hostL2 k { l with through := true } }
  | none => s

/-- A store leaves the egress queue and performs; the target of a release at `.sys` on host memory is then to be written through (R273). -/
def performNext (s : State) (g : Nat) (q : Store) : State :=
  if q.ord < 2 then performStore s g q
  else
    let s := performStore (if q.backed then s else releaseSys s (s.grp g).ctx q.scope) g q
    match q.place with
    | .host p a => if q.scope == 4 then s.markThrough (hostKey p a / 32) else s
    | _ => s

/-- Every accepted store of the group performs, in program order (R205). -/
def drainEgress (s : State) (g : Nat) : State :=
  let x := s.grp g
  let s := s.updGrp g (fun x => { x with egress := [] })
  x.egress.foldl (fun s q => performNext s g q) s

/-- A strong store: one that is not weak, and every reduction (R264). -/
def Store.strong (q : Store) : Bool := decide (1 ≤ q.ord) || q.red.isSome

/-- Two stores of one word, whose lanes are unordered (R262). -/
def Store.mate (p q : Store) : Bool := p.word == q.word && p.word != 0

/-- The store `p` precedes what a split of lanes `m` does from now on: the program order of a lane of its split came to it (R262). -/
def Store.precedes (p : Store) (m : Mask) : Bool := p.mask &&& m != 0

/-- The scope towards which `p`, accepted earlier, performs before `q`, if any: always where they share a sector or were both released
from quarantine buffers; in program order before a release, behind a release fence, or where both are strong, to the agents within
scope (R244, R262 to R269). A release fence stands in the queue as an entry of ORD 4 that writes nothing. -/
def Store.ahead (p q : Store) : Option Nat :=
  if p.place == q.place || (p.rel && q.rel) then some 4
  else if p.mate q || !p.precedes q.mask then none
  else if 2 ≤ q.ord then some q.scope
  else if 4 ≤ p.ord then some p.scope
  else if p.strong && q.strong then some (min p.scope q.scope)
  else none

/-- The narrowest scope at which an order is one towards the whole package here: `.dev`, or `.sys` where the device mode makes a device less
than the package (R34, R263). -/
def State.packageScope (s : State) (ctx : Nat) : Nat := if ((Map.find s.ctxs ctx).map (·.mode)).getD 1 == 1 then 3 else 4

/-- What is owed of each store of a queue, where those that `need` names are needed within a scope: 5 where it is to perform now, since an order
towards the whole package asks for it, and otherwise the narrower scope towards whose agents it precedes what performs. The order of a store
before one that is owed itself is owed in the narrower of the two (R263, R267 to R269). -/
def owing (scope : Nat) (need : Store → Nat) : List Store → List (Store × Nat)
  | [] => []
  | p :: l =>
    let r := owing scope need l
    let m := r.foldl (fun m q => max m (min ((p.ahead q.1).getD 0) q.2)) (need p)
    (p, if scope ≤ m then 5 else m) :: r

/-- A store is owed to the agents of a scope narrower than the package: to them it precedes an access that has performed (R263). -/
def Store.owe (p : Store) (o : Nat) : Store := { p with owed := max p.owed o }

/-- What stands before the `k`-th accepted store, with what is owed of it once that performs. -/
def aheadOf (scope : Nat) (e : List Store) (k : Nat) : List (Store × Nat) :=
  match e[k]? with
  | some q => owing scope (fun p => (p.ahead q).getD 0) (e.take k)
  | none => []

/-- Whether the `k`-th accepted store may perform before those ahead of it. -/
def mayPerform (scope : Nat) (e : List Store) (k : Nat) : Bool := decide (k < e.length) && (aheadOf scope e k).all (fun p => p.2 != 5)

/-- The `k`-th accepted store performs where it may, and otherwise the oldest. A release at `.sys` first makes its write-back, which another
happening may follow (R273). -/
def performNth (s : State) (g k : Nat) : State :=
  let x := s.grp g
  let scope := s.packageScope x.ctx
  let k := if mayPerform scope x.egress k then k else 0
  match x.egress[k]? with
  | none => s
  | some q =>
    if 2 ≤ q.ord && q.scope == 4 && !q.backed then
      (releaseSys s x.ctx 4).updGrp g (fun x => { x with egress := x.egress.take k ++ [{ q with backed := true }] ++ x.egress.drop (k + 1) })
    else performNext (s.updGrp g (fun x => { x with egress := (aheadOf scope x.egress k).map (fun p => p.1.owe p.2) ++ x.egress.drop (k + 1) })) g q

/-- The stores of a group that are needed within a scope perform, with what must perform before them; the rest is owed (R263, R267 to R269). -/
def settleWith (s : State) (g : Nat) (need : Store → Nat) : State :=
  let x := s.grp g
  let r := owing (s.packageScope x.ctx) need x.egress
  let now := (r.filter (fun p => p.2 == 5)).map (·.1)
  let s := s.updGrp g (fun x => { x with egress := (r.filter (fun p => p.2 != 5)).map (fun p => p.1.owe p.2) })
  now.foldl (fun s q => performNext s g q) s

/-- What is to precede the next access performs, as far as it must do so for the package; the rest is owed to the agents of the narrower scope
(R263, R268, R269). -/
def settleBy (s : State) (g : Nat) (o : Store → Option Nat) : State := settleWith s g (fun q => (o q).getD 0)

/-- The device of a context that a core belongs to (R34). -/
def State.deviceOf (s : State) (ctx core : Nat) : Nat :=
  match ((Map.find s.ctxs ctx).map (·.mode)).getD 1 with
  | 2 => dieOf core / 4
  | 8 => dieOf core
  | _ => 0

/-- Whether group `g` is an agent of a scope of group `x` (R263). -/
def inScope (s : State) (x y : Group) (scope : Nat) : Bool :=
  match scope with
  | 0 => false
  | 1 => x.team == y.team
  | 2 => x.team == y.team || (match s.teamOf x, s.teamOf y with
    | some t, some u => t.tuple.isSome && t.tuple == u.tuple
    | _, _ => false)
  | 3 => x.ctx == y.ctx && s.deviceOf x.ctx x.core == s.deviceOf y.ctx y.core
  | _ => true

/-- Before a group makes an access, the stores of other groups that are owed to it perform (R263). -/
def settleOwed (s : State) (g : Nat) : State :=
  let y := s.grp g
  s.groups.foldl (fun s e =>
    if e.1 == g || !e.2.egress.any (fun q => inScope s e.2 y q.owed) then s
    else settleWith s e.1 (fun q => if inScope s e.2 y q.owed then 5 else 0)) s

/-- Before an engine of the base acts, the stores that are owed to a device perform (R34, R263). -/
def settleDevices (s : State) : State :=
  s.groups.foldl (fun s e => if e.2.egress.any (fun q => 3 ≤ q.owed) then settleWith s e.1 (fun q => if 3 ≤ q.owed then 5 else 0) else s) s

/-- The oldest operations that have completed leave their queue; PF records poison (R204). -/
def Path.leave : Nat → Path → Path
  | 0, p => p
  | f + 1, p =>
    match p.ops with
    | o :: os => if o.done then Path.leave f ⟨os, p.pf || o.pf⟩ else p
    | [] => p

/-- An operation is replaced in its queue, and what has completed leaves. -/
def storeOp (s : State) (g k : Nat) (o : AsyncOp) : State :=
  s.updGrp g (fun x =>
    let p := x.path k
    let p := { p with ops := p.ops.map (fun (a : AsyncOp) => if a.seq == o.seq then o else a) }
    { x with paths := Map.set Path.zero x.paths k (p.leave (p.ops.length + 1)) })

/-- The reductions of a `red`-path operation that a condition names perform. -/
def performReds (s : State) (g : Nat) (o : AsyncOp) (p : Store → Bool) : State :=
  match o.kind with
  | .red qs =>
    let (s, bad) := (qs.filter p).foldl (fun (r : State × Bool) q => let (s, b) := performStoreB r.1 g q; (s, r.2 || b)) (s, false)
    let rest := qs.filter (fun q => !p q)
    storeOp s g pathRed { o with kind := .red rest, pf := o.pf || bad, done := rest.isEmpty }
  | _ => s

/-- The reductions of a group's `red`-path operations that a condition names perform. -/
def drainReds (s : State) (g : Nat) (p : Store → Bool) : State :=
  ((s.grp g).path pathRed).ops.foldl (fun s o => performReds s g o p) s

/-- The accesses on their way under an invalidated translation perform, and every core acknowledges (R194). -/
def ackInvals (s : State) : State :=
  let ps := s.invals.flatMap (fun i => i.pend.map (fun p => (p.2.1, i.line)))
  let s := ((ps.map (·.1)).eraseDups).foldl drainEgress { s with invals := [] }
  ps.foldl (fun s p => drainReds s p.1 (fun q => q.line == some p.2)) s

/-- The lanes of the split whose word is being issued for a group, or all of them. -/
def State.curMask (s : State) (g : Nat) : Mask :=
  match s.cur with
  | some c => if c.gid == g then (s.spl g c.slot).mask else BitVec.allOnes 128
  | none => BitVec.allOnes 128

/-- Every earlier store of the split has performed within the scope, and at `.dev` and wider every invalidation they made is acknowledged;
at `.sys` the write-back of R273 follows (R194, R269, R292). -/
def fullFence (s : State) (g scope : Nat) : State :=
  let m := s.curMask g
  let s := settleBy s g (fun q => if q.precedes m then some scope else none)
  let s := if 3 ≤ scope then ackInvals s else s
  releaseSys s (s.grp g).ctx scope

/-! ### Lane addresses (R207 to R210) -/

/-- The size in bytes of an SZ code 0–6. -/
def szBytes (sz : Nat) : Nat :=
  match sz with
  | 0 => 1
  | 1 => 1
  | 2 => 2
  | 3 => 2
  | 4 => 4
  | 5 => 8
  | _ => 16

/-- The registers an access of a size names. -/
def szRegs (sz : Nat) : Nat := if sz == 5 then 2 else if sz == 6 then 4 else 1

/-- The team at a cluster rank, or why it cannot be used (R164, R208). -/
def rankTeam (s : State) (t : Nat) (tm : Team) (r : Nat) : Except Fail Nat :=
  if tm.tuple.isSome && r == tm.crank then .ok t
  else
    match tm.tuple.bind (Map.find s.tuples) with
    | none => .error { cause := .peerInvalid, detail := .unpopulated, akind := .peer, addr := r }
    | some tu =>
      match tu.teams[r]? with
      | none => .error { cause := .peerInvalid, detail := .unpopulated, akind := .peer, addr := r }
      | some u =>
        match tu.fenced.contains r, Map.find s.teams u with
        | true, _ => .error { cause := .dieFenced, akind := .peer, addr := r }
        | false, none => .error { cause := .peerInvalid, detail := .disabled, akind := .peer, addr := r }
        | false, some p =>
          if p.groups.all (fun g => (s.grp g).ended) then .error { cause := .peerInvalid, detail := .disabled, akind := .peer, addr := r }
          else .ok u

/-- The byte offset in a scratchpad as a place, within its owner's SCR KiB (R208). -/
def scrPlace (s : State) (u : Nat) (o : Int) (size : Nat) : Except Fail Trans :=
  let n := ((Map.find s.teams u).map (·.desc.scr)).getD 0 * 1024
  if o < 0 || (n : Int) < o + size then .error { cause := .bounds }
  else if o % size != 0 then .error { cause := .bounds, detail := .misaligned }
  else .ok ⟨.scr u o.toNat, 0, none, o.toNat⟩

/-- The reserved field values that every memory word shares (R209, R210); `ords` are the orderings the word accepts. -/
def memRsv (l : MemLit) (a : Nat) : Bool :=
  let sp := l.space.toNat
  l.sz == 7 || sp == 2 || sp == 3 || l.bk == 3 || 5 ≤ l.scope.toNat || (l.ix == 0 && a != 0)
    || (l.bk == 0 && 8 ≤ l.base.toNat) || (l.bk == 2 && l.base != 0)
    || (l.bk == 1 && sp == 0 && oddReg' l.base.toNat) || (l.bk == 0 && sp != 0)
where
  oddReg' (n : Nat) : Bool := n % 2 == 1

/-- Whether an access of a group leaves its die: all but those to a scratchpad of the same die. -/
def overLink (s : State) (x : Group) (p : Place) : Bool :=
  match p with
  | .scr t _ => ((Map.find s.teams t).map (fun u => dieOf u.core != dieOf x.core)).getD true
  | _ => true

/-- An error of the crossbar, or of the die's link, that a lane's access meets on its way (R252, R253). -/
def accessError (s : State) (x : Group) (i : Nat) (p : Place) : Option Fail :=
  if x.armed.contains (.xbar, i) then some { cause := .eccCache, detail := .xbar }
  else if x.armed.contains (.dieLink, i) && overLink s x p then some { cause := .linkTimeout, detail := .dieLink }
  else none

/-- A lane's access as it leaves the core. -/
def onItsWay (s : State) (x : Group) (i : Nat) (r : Except Fail Trans) : Except LVal Trans :=
  match r with
  | .error f => .error (.new f)
  | .ok t =>
    match accessError s x i t.place with
    | some f => .error (.new f)
    | none => .ok t

/-- `Address(i)` (R208), with the sources in the order base pair, index register (R210). -/
def laneTarget (s : State) (w : Wx) (l : MemLit) (a : Nat) (disp : Int) (acc : Acc) (size i : Nat) : Except LVal Trans :=
  let base : LVal := if l.bk == 1 then (if l.space == 0 then w.sPair 8 l.base.toNat else w.sReg 8 l.base.toNat) else .val 0
  let idx : LVal := if l.ix == 1 then w.lane 1 0 a i false else .val 0
  match base, idx with
  | .val b, .val n =>
    let off : Int := disp + (if l.ix == 1 then sext 32 n * (2 ^ l.scale.toNat : Nat) else 0)
    let key := freeKey w.draw 10 i
    let r : Except Fail Trans :=
      if l.space == 0 then
        match Map.find s.ctxs w.x.ctx with
        | none => .error { cause := .bounds }
        | some c =>
          let t := if l.bk == 0 then translateX s c (Map.get XReg.zero w.x.x l.base.toNat) acc off key
            else translate s c acc (wrap 64 ((b : Int) + off)) key
          match t with
          | .error f => .error f
          | .ok t =>
            if t.va % size != 0 then .error (vaFail t.va .bounds .misaligned)
            else
              match t.place with
              | .peer p _ => (match peerCheck s w.x.ctx p with | some f => .error f | none => .ok t)   -- R357
              | _ => .ok t
      else
        let owner := if l.space == 1 then .ok w.x.team else rankTeam s w.x.team w.team (l.space.toNat - 4)
        match owner with
        | .error f => .error f
        | .ok u => scrPlace s u ((b : Int) + off) size
    onItsWay s w.x i r
  | .val _, e => .error e
  | e, _ => .error e

/-! ### Forming stores -/

/-- One lane's write: where, its bytes, and its data's token. -/
structure LaneStore where
  lane : Nat
  tr : Trans
  n : Nat
  data : Nat
  token : Option Word
deriving DecidableEq, Repr

/-- The store of one sector, from the lanes that write it in ascending order: the highest lane supplies a byte that several
write (R214, R240). -/
def mergeSector (pc : BitVec 64) (ord scope view : Nat) (base : Place) (ls : List LaneStore) : Option Store :=
  match ls with
  | [] => none
  | l :: _ =>
    let all := ls.flatMap (fun l => bytesAt (sectorBase l.tr.place).2 l.n l.data l.lane)
    let put1 := fun (bs : List (Nat × Byte × Nat)) (b : Nat × Byte × Nat) => bs.filter (fun c => c.1 != b.1) ++ [b]
    let bs := all.foldl put1 []
    let stands := fun (i : Nat) => bs.any (fun b => b.2.2 == i)
    some { place := base, va := l.tr.va / 32 * 32, line := l.tr.line, bytes := bs,
           ptok := (ls.filter (fun l => stands l.lane)).filterMap (fun l => l.token.map (fun t => (l.lane, t))),
           red := none, lane := l.lane, ord := ord, scope := scope, stale := false, view := view, pc := pc
           hid := (ls.filter (fun l => !stands l.lane)).map (fun l => (l.lane, l.token)) }

/-- The sectors of a word's lane stores, in ascending order of their lowest writing lane (R240). -/
def formStores (pc : BitVec 64) (ord scope view : Nat) (ls : List LaneStore) : List Store :=
  ((ls.map (fun l => (sectorBase l.tr.place).1)).eraseDups).filterMap (fun b =>
    mergeSector pc ord scope view b (ls.filter (fun l => (sectorBase l.tr.place).1 == b)))

/-- The lanes that write to a QB entry, those whose bytes a higher lane replaced included. -/
def Store.lanes (q : Store) : List Nat := (q.hid.map (fun (e : Nat × Option Word) => e.1 % 128) ++ q.bytes.map (fun (b : Nat × Byte × Nat) => b.2.2 % 128)).eraseDups

/-- Flags that a word raises: lane, token, and whether a QB entry carries it. -/
abbrev Flags := List (Nat × Word × Bool)

/-- Lanes are flagged in ascending order (R241). -/
def flagAll (s : State) (g : Nat) (fl : Flags) : State :=
  (List.range 128).foldl (fun s i => (fl.filter (fun f => f.1 == i)).foldl (fun s f => flagRegion s g f.2.1 i f.2.2) s) s

/-- The lanes of a sector that a word cannot write, with the token of the cause. -/
def failLanes (s : State) (g : Nat) (pc : BitVec 64) (ts : Toks) (f : Fail) (ls : List Nat) : State × Toks × Flags :=
  match ls with
  | [] => (s, ts, [])
  | i :: l =>
    let (s, ts, t) := poison s g pc ts f (l.foldl min i)
    (s, ts, ls.map (fun i => (i, t, false)))

/-- `Quarantine` (R240): entries enter until the kernel's quota QQ is used; the lanes of the rest are to be flagged
QUARANTINE_FULL. Poisoned data is entered as it is and its lane flagged with its token. -/
def quarantine (s : State) (g : Nat) (pc : BitVec 64) (qq : Nat) : Toks → List Store → State × Toks × Flags
  | ts, [] => (s, ts, [])
  | ts, q :: qs =>
    let x := s.grp g
    if qq ≤ x.region.used then
      let (s, ts, fl) := failLanes s g pc ts { cause := .quarantineFull } q.lanes
      let (s, ts, more) := quarantine s g pc qq ts qs
      (s, ts, fl ++ more)
    else
      let s := s.updGrp g (fun x => { x with
        seq := x.seq + 1
        region := { x.region with qb := x.region.qb ++ [{ q with seq := x.seq }], used := x.region.used + 1 } })
      let (s, ts, more) := quarantine s g pc qq ts qs
      let hid := q.hid.filterMap (fun e => e.2.map (fun t => (e.1 % 128, t, false)))
      (s, ts, q.ptok.map (fun e => (e.1 % 128, e.2, true)) ++ hid ++ more)

/-- Stores numbered as accesses of the group (R229); one released from a quarantine buffer keeps its number. -/
def numbered (n : Nat) : List Store → List Store
  | [] => []
  | q :: l => (if q.rel then q else { q with seq := n }) :: numbered (n + 1) l

/-- The scratchpad stores of the egress queue that nothing holds back perform in their banks (R205). -/
def performScr (s : State) (g : Nat) : Nat → Nat → State
  | 0, _ => s
  | f + 1, k =>
    let e := (s.grp g).egress
    match e[k]? with
    | none => s
    | some q =>
      match q.place with
      | .scr _ _ => if q.ord < 4 && mayPerform (s.packageScope (s.grp g).ctx) e k then performScr (performNth s g k) g f k else performScr s g f (k + 1)
      | _ => performScr s g f (k + 1)

/-! ### The external log (R341) -/

/-- The view of the group's team. -/
def State.viewOf (s : State) (x : Group) : Nat := ((s.teamOf x).map (·.view)).getD 0

/-- LOGN over a view and its non-root ancestors (R341). -/
def State.logn (s : State) (v : Nat) : Nat := (s.chain v).foldl (fun n u => n + ((Map.find s.views u).map (·.log.length)).getD 0) 0

/-- One entry of a view's external log; `none` when there is no room (R341). -/
def logOp (s : State) (g v : Nat) (op : LogOp) : Option State :=
  match Map.find s.views v with
  | none => none
  | some x => if 64 ≤ s.logn v then none else some { s with views := Map.put s.views v { x with log := x.log ++ [(g, op)] } }

/-- Whether a non-root view holds a store back: its target is host or fabric memory, or it is a reduction at `.sys` (R341). -/
def Store.logged (q : Store) : Bool :=
  (q.red.isSome && q.scope == 4) || (match q.place with
    | .host _ _ => true
    | .peer _ _ => true
    | _ => false)

/-- The stores of a word by the entries of the log that hold them: each alone, but the reductions of one target sector together
unless they are at `.sys` scope; one released from a quarantine buffer is an access of its own (R244, R341). -/
def logUnits : Nat → List Store → List (List Store)
  | 0, _ => []
  | _, [] => []
  | f + 1, q :: qs =>
    let lane := fun (r : Store) => r.red.isSome && r.scope != 4 && !r.rel
    let same := fun (r : Store) => lane r && r.place == q.place
    if lane q then (q :: qs.filter same) :: logUnits f (qs.filter (fun r => !same r)) else [q] :: logUnits f qs

/-- Stores that a view's log takes; the lanes of those it has no room for are to be flagged VIEW_LOG_FULL (R341). -/
def logStores (s : State) (g v : Nat) (ts : Toks) (qs : List Store) : State × Toks × Flags :=
  (logUnits qs.length (qs.map (fun q => { q with view := v }))).foldl (fun (r : State × Toks × Flags) u =>
    let (s, ts, fl) := r
    match logOp s g v (match u with | [q] => .store q | _ => .reds u), u with
    | some s, _ => (s, ts, fl)
    | none, q :: _ => let (s, ts, more) := failLanes s g q.pc ts { cause := .viewLogFull } (u.flatMap Store.lanes); (s, ts, fl ++ more)
    | none, [] => (s, ts, fl)) (s, ts, [])

/-- Stores outside a region are accepted into the egress queue, in the team's view; a scratchpad store performs at once in its
bank. -/
def acceptStores (s : State) (g : Nat) (ts : Toks) (qs : List Store) : State × Toks × Flags :=
  let v := s.viewOf (s.grp g)
  let logged := fun (q : Store) => v != 0 && q.logged
  let (s, ts, fl) := logStores s g v ts (qs.filter logged)
  let qs := (qs.filter (fun q => !logged q)).map (fun q => { q with view := v, toks := ts })
  let s := s.updGrp g (fun x => { x.pruneLate with egress := x.egress ++ numbered x.seq qs, seq := x.seq + qs.length })
  (performScr s g (s.grp g).egress.length 0, ts, fl)

/-- The group's own scratchpad writes of before have performed, for engines that read the scratchpad (R174, R226). -/
def drainScr (s : State) (g : Nat) : State :=
  if (s.grp g).egress.any (fun q => match q.place with | .scr _ _ => true | _ => false) then drainEgress s g else s

end Sys2Proof.Machine
end

