-- ==== Sys2Proof/Machine/Flags.lean ====
section
/-! DEFINITION. The conditions that compares write to predicates, and the clamps of saturation (R84, R134, R139, R145, R148). -/
namespace Sys2Proof.Machine

/-- The conditions 0 to 9 of `VCMP` over 32-bit operands (R84). -/
def vcmpCond (c a b : Nat) : Bool :=
  let x := sext 32 a
  let y := sext 32 b
  match c with
  | 0 => a == b
  | 1 => a != b
  | 2 => decide (x < y)
  | 3 => decide (x ≤ y)
  | 4 => decide (y < x)
  | 5 => decide (y ≤ x)
  | 6 => decide (a < b)
  | 7 => decide (a ≤ b)
  | 8 => decide (b < a)
  | _ => decide (b ≤ a)

/-- The conditions 0 to 7 of `SCMP` (R84, R139). -/
def scmpCond (c a b : Nat) : Bool :=
  match c with
  | 6 => decide (a < b)
  | 7 => decide (b ≤ a)
  | _ => vcmpCond c a b

/-- The conditions 0 to 7 of `FCMP` over FP32 patterns; `none` is Poison(FP_INVALID) (R148). -/
def fcmpCond (c a b : Nat) : Option Bool :=
  let x := fp32.decode a
  let y := fp32.decode b
  if x.isSNaN || y.isSNaN then none
  else if x.isNaN || y.isNaN then some (c == 1 || c == 6)
  else
    let r := FNum.cmp x y
    some (match c with
      | 0 => r == 0
      | 1 => r != 0
      | 2 => decide (r < 0)
      | 3 => decide (r ≤ 0)
      | 4 => decide (0 < r)
      | 5 => decide (0 ≤ r)
      | 6 => false
      | _ => true)

/-- The conditions 0 to 5 on a 64-bit signal value (R40, R294). -/
def signalCond (c : Nat) (a b : BitVec 64) : Bool :=
  match c with
  | 0 => a == b
  | 1 => a != b
  | 2 => decide (b.toNat ≤ a.toNat)
  | 3 => decide (a.toNat < b.toNat)
  | 4 => decide (b.toInt ≤ a.toInt)
  | _ => decide (a.toInt < b.toInt)

/-- An exact integer result narrowed to `n` bits: wrapped, or clamped under SAT, unsigned with U (R134). -/
def intNarrow (n : Nat) (sat u : Bool) (r : Int) : Nat :=
  if sat then
    if u then (clamp 0 ((2 ^ n : Nat) - 1) r).toNat
    else wrap n (clamp (-(2 ^ (n - 1) : Nat)) ((2 ^ (n - 1) : Nat) - 1) r)
  else wrap n r

/-- An operand as U names it: unsigned, or two's complement (R134, R142). -/
def operandInt (n : Nat) (u : Bool) (x : Nat) : Int := if u then (x : Int) else sext n x

/-- A shift by bits 7:0 of the amount; 32 or more leaves nothing, or copies of the sign (R136). -/
def shiftL (x y : Nat) : Nat := let k := y % 256; if 32 ≤ k then 0 else (x <<< k) % 2 ^ 32
def shiftR (x y : Nat) : Nat := let k := y % 256; if 32 ≤ k then 0 else x >>> k
def shiftA (x y : Nat) : Nat := let k := y % 256; wrap 32 (sext 32 x / ((2 ^ (if 32 ≤ k then 32 else k) : Nat) : Int))

end Sys2Proof.Machine
end

