-- ==== Sys2Proof/Machine/IntAlu.lean ====
section
/-! DEFINITION. The vector integer instructions (R142 to R146). -/
namespace Sys2Proof.Machine

def isU (m : XMod) : Bool := m.negC == 1
def isSat (m : XMod) : Bool := m.sat == 1

def oddReg (n : Nat) : Bool := n % 2 == 1

/-- A two-source word of format A: d, a and b are registers, or even pairs (R135). -/
def binary (h : Honour) (k : Kind) (late : Bool) (w : WA) (x : Option XMod) (f : XMod → Nat → Nat → LVal) (s : State) : Out :=
  let m := x.getD plainX
  let wide := k.regs == 2
  let rsv := !modOk { h with wide := wide } m || (wide && (oddReg w.d.toNat || oddReg w.a.toNat || oddReg w.b.toNat))
  onIssuer s (laneWord w.pred (fun wx =>
    finishLanes late ⟨.v, w.d.toNat, k.regs⟩ rsv
      (fun i => lift2 (wx.src m k .a w.a.toNat i) (wx.src m k .b w.b.toNat i) (f m)) wx))

/-- A one-source word of format B. -/
def unary (h : Honour) (k : Kind) (late : Bool) (w : WB) (x : Option XMod) (rsv : Bool) (f : XMod → Nat → LVal) (s : State) : Out :=
  let m := x.getD plainX
  onIssuer s (laneWord w.pred (fun wx =>
    finishLanes late ⟨.v, w.d.toNat, 1⟩ (rsv || !modOk h m) (fun i => lift1 (wx.src m k .a w.a.toNat i) (f m)) wx))

/-- The X-word fields of the integer sums (R133). -/
def hSum : Honour := { negA := true, negB := true, sat := true, xlm := .full, u := true }
def hLogic : Honour := { xlm := .full }
def hOne : Honour := { xlm := .onA }

/-- An integer word whose exact result is narrowed under SAT and U (R134). -/
def intWord (h : Honour) (w : WA) (x : Option XMod) (f : Int → Int → Int) (s : State) : Out :=
  binary h .i32 false w x (fun m a b =>
    .val (intNarrow 32 (isSat m) (isU m) (f (operandInt 32 (isU m) a) (operandInt 32 (isU m) b)))) s

/-- `VADD` (R142). -/
def execVadd (w : WA) (x : Option XMod) (s : State) : Out := intWord hSum w x (fun a b => a + b) s
/-- `VSUB` (R142). -/
def execVsub (w : WA) (x : Option XMod) (s : State) : Out := intWord hSum w x (fun a b => a - b) s
/-- `VMUL`: signed product (R142). -/
def execVmul (w : WA) (x : Option XMod) (s : State) : Out := intWord { hSum with u := false } w x (fun a b => a * b) s
/-- `VMULH`: bits 63:32 of the product (R142). -/
def execVmulh (w : WA) (x : Option XMod) (s : State) : Out :=
  intWord { hSum with sat := false } w x (fun a b => (a * b) / ((2 ^ 32 : Nat) : Int)) s

/-- The X-word fields of the three-source integer words. -/
def hMad : Honour := { c := true, negA := true, negB := true, negC := true, sat := true, xlm := .not4 }

/-- `VMAD`: x × y + c, signed, SAT clamps the exact sum (R142). -/
def execVmad (w : WA) (x : XMod) (s : State) : Out :=
  onIssuer s (laneWord w.pred (fun wx =>
    finishLanes false ⟨.v, w.d.toNat, 1⟩ (!modOk hMad x)
      (fun i => lift3 (wx.src x .i32 .a w.a.toNat i) (wx.src x .i32 .b w.b.toNat i) (wx.src x .i32 .c x.c.toNat i)
        (fun a b c => .val (intNarrow 32 (isSat x) false (sext 32 a * sext 32 b + sext 32 c)))) wx))

/-- `VAND` (R142). -/
def execVand (w : WA) (x : Option XMod) (s : State) : Out := binary hLogic .i32 false w x (fun _ a b => .val (a &&& b)) s
/-- `VOR` (R142). -/
def execVor (w : WA) (x : Option XMod) (s : State) : Out := binary hLogic .i32 false w x (fun _ a b => .val (a ||| b)) s
/-- `VXOR` (R142). -/
def execVxor (w : WA) (x : Option XMod) (s : State) : Out := binary hLogic .i32 false w x (fun _ a b => .val (a ^^^ b)) s
/-- `VSHL` (R136, R142). -/
def execVshl (w : WA) (x : Option XMod) (s : State) : Out := binary hLogic .i32 false w x (fun _ a b => .val (shiftL a b)) s
/-- `VSHR` (R136, R142). -/
def execVshr (w : WA) (x : Option XMod) (s : State) : Out := binary hLogic .i32 false w x (fun _ a b => .val (shiftR a b)) s
/-- `VSAR` (R136, R142). -/
def execVsar (w : WA) (x : Option XMod) (s : State) : Out := binary hLogic .i32 false w x (fun _ a b => .val (shiftA a b)) s
/-- `VMIN` (R142). -/
def execVmin (w : WA) (x : Option XMod) (s : State) : Out := intWord { hSum with sat := false } w x (fun a b => min a b) s
/-- `VMAX` (R142). -/
def execVmax (w : WA) (x : Option XMod) (s : State) : Out := intWord { hSum with sat := false } w x (fun a b => max a b) s

/-- `VABS`: 0x8000_0000 wraps to itself, and with SAT gives the largest number; the row holds FUNC 4 to 127, which are
reserved (R143). -/
def execVabs (w : WB) (x : Option XMod) (s : State) : Out :=
  unary { hOne with sat := true } .i32 false w x (w.func != 0)
    (fun m a => .val (intNarrow 32 (isSat m) false (sext 32 a).natAbs)) s
/-- `VPOPC` (R143). -/
def execVpopc (w : WB) (x : Option XMod) (s : State) : Out := unary hOne .i32 false w x false (fun _ a => .val (popCount 32 a)) s
/-- `VCLZ` (R143). -/
def execVclz (w : WB) (x : Option XMod) (s : State) : Out := unary hOne .i32 false w x false (fun _ a => .val (leadingZeros 32 a)) s
/-- `VBREV` (R143). -/
def execVbrev (w : WB) (x : Option XMod) (s : State) : Out := unary hOne .i32 false w x false (fun _ a => .val (bitReverse 32 a)) s

/-- The field a bit-field word names: position, and length cut at the top of the word (R144). -/
def fieldOf (y : Nat) : Nat × Nat := (y % 32, min (bits y 8 6) (32 - y % 32))

/-- `VBFE` (R144). -/
def execVbfe (w : WA) (x : Option XMod) (s : State) : Out :=
  binary { xlm := .full, u := true } .i32 false w x (fun m a y =>
    let (pos, l) := fieldOf y
    let r := bits a pos l
    .val (if l == 0 || (isU m) then r else wrap 32 (sext l r))) s

/-- `VBFI` (R144). -/
def execVbfi (w : WA) (x : XMod) (s : State) : Out :=
  onIssuer s (laneWord w.pred (fun wx =>
    finishLanes false ⟨.v, w.d.toNat, 1⟩ (!modOk { c := true, xlm := .not4 } x)
      (fun i => lift3 (wx.src x .i32 .a w.a.toNat i) (wx.src x .i32 .b w.b.toNat i) (wx.src x .i32 .c x.c.toNat i)
        (fun a y z =>
          let (pos, l) := fieldOf y
          let mk := (2 ^ l - 1) <<< pos
          .val ((z &&& (2 ^ 32 - 1 - mk)) ||| ((a <<< pos) &&& mk)))) wx))

/-- A predicate destination (R145, R148): a condition outside the list poisons it, p7 has no destination. -/
def cmpWord (h : Honour) (k : Kind) (maxCond : Nat) (w : WA) (x : Option XMod) (f : Nat → Nat → Nat → LVal) (s : State) : Out :=
  let m := x.getD plainX
  let cond := w.d.toNat / 8
  let pd := w.d.toNat % 8
  onIssuer s (laneWord w.pred (fun wx s =>
    if pd == 7 then reservedUse wx s
    else
      finishLanes false ⟨.p, pd, 1⟩ (maxCond < cond || !modOk h m)
        (fun i => lift2 (wx.src m k .a w.a.toNat i) (wx.src m k .b w.b.toNat i) (f cond)) wx s))

/-- `VCMP` (R145). -/
def execVcmp (w : WA) (x : Option XMod) (s : State) : Out :=
  cmpWord { negA := true, negB := true, xlm := .full } .i32 9 w x (fun c a b => .val (ofBool (vcmpCond c a b))) s

/-- A predicate read as data: its value, or its token. -/
def Wx.predVal (w : Wx) (opnd r i : Nat) (cross : Bool) : LVal :=
  let v := w.rdP opnd r i cross
  if v.poison then .tok v.bits else .val v.bits.toNat

/-- `VSEL`: the selecting predicate is C bits 2:0, read as data after a and b (R131, R145). -/
def execVsel (w : WA) (x : XMod) (s : State) : Out :=
  onIssuer s (laneWord w.pred (fun wx =>
    finishLanes false ⟨.v, w.d.toNat, 1⟩ (8 ≤ x.c.toNat || !modOk { c := true, xlm := .not4 } x)
      (fun i => lift3 (wx.src x .i32 .a w.a.toNat i) (wx.src x .i32 .b w.b.toNat i) (wx.predVal 4 (x.c.toNat % 8) i false)
        (fun a b p => .val (if p == 1 then a else b))) wx))

/-- `VMOV`: FUNC other than 0 is reserved (R145). -/
def execVmov (w : WB) (x : Option XMod) (s : State) : Out := unary hOne .i32 false w x (w.func != 0) (fun _ a => .val a) s

/-- `VLDI`: IMM14 sign-extended, or the literal, with which IMM14 must be zero (R145). -/
def execVldi (w : WC) (l : Option Word) (s : State) : Out :=
  onIssuer s (laneWord w.pred (fun wx =>
    finishLanes false ⟨.v, w.d.toNat, 1⟩ (l.isSome && w.imm != 0)
      (fun _ => .val (match l with | some v => v.toNat | none => wrap 32 (sext 14 w.imm.toNat))) wx))

/-- `VADD64` (R146). -/
def execVadd64 (w : WA) (x : Option XMod) (s : State) : Out :=
  binary hSum .i64 false w x (fun m a b =>
    .val (intNarrow 64 (isSat m) (isU m) (operandInt 64 (isU m) a + operandInt 64 (isU m) b))) s

/-- `VMAD64`: 32-bit unsigned x and y, pair c, wrapping (R146). -/
def execVmad64 (w : WA) (x : XMod) (s : State) : Out :=
  onIssuer s (laneWord w.pred (fun wx =>
    finishLanes false ⟨.v, w.d.toNat, 2⟩ (oddReg w.d.toNat || oddReg x.c.toNat || !modOk { c := true, xlm := .not4 } x)
      (fun i => lift3 (wx.src x .i32 .a w.a.toNat i) (wx.src x .i32 .b w.b.toNat i) (wx.src x .i64 .c x.c.toNat i)
        (fun a b z => .val ((a * b + z) % 2 ^ 64))) wx))

end Sys2Proof.Machine
end

