-- ==== Sys2Proof/Machine/Sfu.lean ====
section
/-! DEFINITION. The SFU forms of R149. Every special input is exact; elsewhere the result is the part's own function of
its input (a free value) held to the bound of R149, checked against an enclosure of the exact value. -/
namespace Sys2Proof.Machine

/-- An enclosure of an exact real: `lo × 2^q ≤ value ≤ hi × 2^q`. -/
structure Encl where
  lo : Int
  hi : Int
  q : Int
deriving DecidableEq, Repr

/-- An integer multiple of 2^a as an integer multiple of 2^b, rounded down. -/
def rescale (x a b : Int) : Int := if b ≤ a then x * (2 ^ (a - b).toNat : Nat) else x / ((2 ^ (b - a).toNat : Nat) : Int)

/-- The exponent of one FP32 unit in the last place at a value whose leading bit has exponent `t`. -/
def ulpExp (t : Int) : Int := if t - 23 < fp32.qmin then fp32.qmin else t - 23

/-- The exponent of the leading bit of |n| × 2^q. -/
def leadExp (n q : Int) : Int := q + (Nat.log2 n.natAbs : Int)

/-- Whether an FP32 pattern lies within `k` units of 2^u of the enclosure (R149). -/
def withinBound (E : Encl) (k : Nat) (u : Int) (c : Nat) : Bool :=
  let base : Int := min (min E.q u) fp32.qmin
  let slack := rescale (k : Nat) u base
  let lo := rescale E.lo E.q base - slack
  let hi := rescale E.hi E.q base + slack
  match fp32.decode c with
  | .nan _ => false
  | .inf _ => false   -- an exact value beyond the range gives its infinity; no bound about one inside it reaches so far
  | .fin s m e => let v := FNum.units base s m e; decide (lo ≤ v) && decide (v ≤ hi)

/-- The part's own result where it meets the bound; otherwise the exact value rounded to nearest. -/
def sfuPick (form : Nat) (x : Nat) (E : Encl) (k : Nat) (u : Int) : Nat :=
  let c := (Config.sfuResult form (BitVec.ofNat 32 x)).toNat
  if withinBound E k u c then c else roundFin fp32 .rne (decide (E.lo < 0)) E.lo.natAbs E.q

/-- Bound of `k` ulp of the exact value. -/
def sfuUlp (form x : Nat) (E : Encl) (k : Nat) : Nat :=
  let least := if E.lo.natAbs < E.hi.natAbs then E.lo else E.hi
  sfuPick form x E k (ulpExp (leadExp least E.q))

/-- Bound of an absolute 2^−22. -/
def sfuAbs (form x : Nat) (E : Encl) : Nat := sfuPick form x E 1 (-22)

/-- 1/x for a nonzero x = ±m × 2^e. -/
def rcpEncl (s : Bool) (m : Nat) (e : Int) : Encl :=
  let k := 64 + bitLength m
  let n : Int := ((2 ^ k / m : Nat) : Int)
  if s then ⟨-n - 1, -n, -(k : Int) - e⟩ else ⟨n, n + 1, -(k : Int) - e⟩

/-- 1/√x for x = m × 2^e > 0. -/
def rsqEncl (m : Nat) (e : Int) : Encl :=
  let m2 := if e % 2 == 0 then m else 2 * m
  let e2 := if e % 2 == 0 then e else e - 1
  let k := 64 + bitLength m2
  let r := isqrt (2 ^ (2 * k) / m2)
  ⟨(r : Int), (r : Int) + 2, -(k : Int) - e2 / 2⟩

/-- 2^(f) for a fraction f < 1 given as its bits from weight 1/2 downward; `c` is 2^(weight of the next bit) and `acc` the
product so far, both in units of 2^−192. -/
def exp2Frac : List Bool → Nat → Nat → Nat
  | [], _, acc => acc
  | b :: bs, c, acc => exp2Frac bs (isqrt (c <<< 192)) (if b then (acc * c) >>> 192 else acc)

/-- The `n` bits of a fraction `f × 2^−n`, highest first. -/
def fracBits : Nat → Nat → List Bool
  | 0, _ => []
  | n + 1, f => bit f n :: fracBits n f

/-- 2^x for a finite FP32 x between −152 and 128, which is a multiple of 2^−149. -/
def exp2Encl (s : Bool) (m : Nat) (e : Int) : Encl :=
  let x := rescale (FNum.units e s m e) e (-149)
  let n := x / (2 ^ 149 : Nat)
  let f := (x % (2 ^ 149 : Nat)).toNat
  let p : Int := ((exp2Frac (fracBits 149 f) (isqrt (2 <<< 384)) (2 ^ 192) : Nat) : Int)
  ⟨p - 2 ^ 12, p + 2 ^ 12, n - 192⟩

/-- The fraction bits of log2 of a number in [1, 2) in units of 2^−256, one squaring per bit. -/
def log2Frac : Nat → Nat → Nat → Nat
  | 0, _, acc => acc
  | n + 1, y, acc =>
    let z := (y * y) >>> 256
    if 2 ^ 257 ≤ z then log2Frac n (z / 2) (2 * acc + 1) else log2Frac n z (2 * acc)

/-- log2 x for x = m × 2^e > 0. -/
def log2Encl (m : Nat) (e : Int) : Encl :=
  let l := Nat.log2 m
  let y := if l ≤ 256 then m <<< (256 - l) else m >>> (l - 256)
  let f : Int := ((log2Frac 96 y 0 : Nat) : Int)
  let v := (e + (l : Int)) * (2 ^ 96 : Nat) + f
  ⟨v - 1, v + 2, -96⟩

/-- π in units of 2^−192. -/
def piFixed : Nat := 0x3243F6A8885A308D313198A2E03707344A4093822299F31D0

/-- The Taylor terms of sin t from degree 2k + 1 on, for t² in units of 2^−192 and the current term. -/
def sinTaylor : Nat → Nat → Int → Int → Int
  | 0, _, _, acc => acc
  | n + 1, k, t2, term =>
    term + sinTaylor n (k + 1) t2 (-((term * t2) / (2 ^ 192 : Nat)) / (((2 * k + 2) * (2 * k + 3) : Nat) : Int))

/-- sin(π × r) for r in units of 2^−149, any integer. -/
def sinPi (r : Int) : Encl :=
  let one : Int := (2 ^ 149 : Nat)
  let y := r % (2 * one)
  let flip := decide (one ≤ y)
  let y := if flip then y - one else y
  let y := if 2 * y ≤ one then y else one - y
  let t := (y * (piFixed : Int)) / one
  let v := sinTaylor 32 0 ((t * t) / (2 ^ 192 : Nat)) t
  let v := if flip then -v else v
  ⟨v - 2 ^ 40, v + 2 ^ 40, -192⟩

/-- Whether ±m × 2^e is an integer multiple of 1/2, and that multiple. -/
def halves (s : Bool) (m : Nat) (e : Int) : Option Int :=
  let (n, r) := cut m (e + 1) 0
  if r == 0 then some (if s then -(n : Int) else (n : Int)) else none

/-- What stands for 2^x below 2^−152, however small: within 2 units of 2^−149 of it lie the multiples −1, 0, 1 and 2 of that unit. -/
def tinyEncl : Encl := ⟨1, 2, -153⟩

/-- `FRCP` … `FCOS` (forms 1 to 6 of R149): `none` is Poison(FP_INVALID). -/
def sfu (form : Nat) (x : Nat) : Option Nat :=
  match fp32.decode x with
  | .nan true => none
  | .nan false => some fp32.qnan
  | .inf s =>
    match form with
    | 1 => some (if s then fp32.signBit else 0)
    | 2 => if s then none else some 0
    | 3 => some (if s then 0 else fp32.infBits)
    | 4 => if s then none else some fp32.infBits
    | _ => none
  | .fin s m e =>
    match form with
    | 1 =>
      if m == 0 || FNum.cmp (.fin false m e) (.fin false 1 (-128)) ≤ 0 then some ((if s then fp32.signBit else 0) + fp32.infBits)
      else some (sfuUlp 1 x (rcpEncl s m e) 1)
    | 2 =>
      if m == 0 then some ((if s then fp32.signBit else 0) + fp32.infBits)
      else if s then none else some (sfuUlp 2 x (rsqEncl m e) 2)
    | 3 =>
      match halves s m e with
      | some h =>
        if h % 2 == 0 && -298 ≤ h && h ≤ 254 then some (roundFin fp32 .rne false 1 (h / 2))
        else if 256 ≤ h then some fp32.infBits
        else if h < -304 then some (sfuPick 3 x tinyEncl 2 fp32.qmin)
        else some (sfuUlp 3 x (exp2Encl s m e) 2)
      | none =>
        if 0 < FNum.cmp (.fin s m e) (.ofInt 128) then some fp32.infBits
        else if FNum.cmp (.fin s m e) (.ofInt (-152)) < 0 then some (sfuPick 3 x tinyEncl 2 fp32.qmin)
        else some (sfuUlp 3 x (exp2Encl s m e) 2)
    | 4 =>
      if m == 0 then some (fp32.signBit + fp32.infBits)
      else if s then none
      else if m == 2 ^ Nat.log2 m then some (roundFloat fp32 .rne (.ofInt (e + (Nat.log2 m : Int))))
      else
        let E := log2Encl m e
        if 0 ≤ FNum.cmp (.fin s m (e + 1)) (.ofInt 1) && FNum.cmp (.fin s m e) (.ofInt 2) ≤ 0 then some (sfuAbs 4 x E)
        else some (sfuUlp 4 x E 2)
    | 5 =>
      match halves s m e with
      | some h =>
        if h % 2 == 0 then some (if s then fp32.signBit else 0)
        else some (roundFin fp32 .rne (decide (h % 4 == 3)) 1 0)
      | none => some (sfuAbs 5 x (sinPi (rescale (FNum.units e s m e) e (-149))))
    | _ =>
      match halves s m e with
      | some h => if h % 2 == 0 then some (roundFin fp32 .rne (decide (h % 4 == 2)) 1 0) else some 0
      | none => some (sfuAbs 6 x (sinPi (rescale (FNum.units e s m e) e (-149) + (2 ^ 148 : Nat))))

end Sys2Proof.Machine
end

