-- ==== Sys2Proof/Machine/FloatAlu.lean ====
section
/-! DEFINITION. The vector float, FP64, packed-half and conversion instructions (R147 to R154). -/
namespace Sys2Proof.Machine

/-- Float SAT acts on the rounded result (R134). -/
def fSatIf (F : FFmt) (sat : Bool) (b : Nat) : Nat := if sat then fSat F b else b

/-- The mode of a word in lane `i`, or any mode where its result needs no rounding and RND names none: FMT is checked only when a field
of it is used (R123). -/
def Wx.modeIf (w : Wx) (rounds : Bool) (m : XMod) (i : Nat) : Option RMode := if !rounds && m.rnd == 7 then some .rne else w.mode m i

/-- A lane word that rounds: its mode is taken from RND or RMODE, and a reserved mode poisons (R123, R124). -/
def roundedWord (h : Honour) (late : Bool) (pred : BitVec 3) (d n : Nat) (m : XMod) (rsv rounds : Bool)
    (f : RMode → Wx → Nat → LVal) (s : State) : Out :=
  onIssuer s (laneWord pred (fun wx =>
    finishLanes late ⟨.v, d, n⟩ (rsv || !modOk h m) (fun i =>
      match wx.modeIf rounds m i with
      | none => .bad .malformed
      | some mode => f mode wx i) wx))

def hFloat : Honour := { negA := true, negB := true, rnd := true, sat := true, xlm := .full }
def hFma : Honour := { c := true, negA := true, negB := true, negC := true, rnd := true, sat := true, xlm := .not4 }

/-- A two-source FP32 word (R147). -/
def f32Word (late : Bool) (w : WA) (x : Option XMod) (f : RMode → FNum → FNum → Option Nat) (s : State) : Out :=
  let m := x.getD plainX
  roundedWord hFloat late w.pred w.d.toNat 1 m false true (fun mode wx i =>
    lift2 (wx.src m .f32 .a w.a.toNat i) (wx.src m .f32 .b w.b.toNat i) (fun a b =>
      .ofNum ((f mode (fp32.decode a) (fp32.decode b)).map (fSatIf fp32 (isSat m))))) s

/-- `FADD` (R147). -/
def execFadd (w : WA) (x : Option XMod) (s : State) : Out := f32Word false w x (fun r a b => fAdd fp32 r a b) s
/-- `FSUB` (R147). -/
def execFsub (w : WA) (x : Option XMod) (s : State) : Out := f32Word false w x (fun r a b => fSub fp32 r a b) s
/-- `FMUL` (R147). -/
def execFmul (w : WA) (x : Option XMod) (s : State) : Out := f32Word false w x (fun r a b => fMul fp32 r a b) s
/-- `FDIV`: correctly rounded, variable latency (R81, R147). -/
def execFdiv (w : WA) (x : Option XMod) (s : State) : Out := f32Word true w x (fun r a b => fDiv fp32 r a b) s

/-- `FFMA`: one rounding (R147). -/
def execFfma (w : WA) (x : XMod) (s : State) : Out :=
  roundedWord hFma false w.pred w.d.toNat 1 x false true (fun mode wx i =>
    lift3 (wx.src x .f32 .a w.a.toNat i) (wx.src x .f32 .b w.b.toNat i) (wx.src x .f32 .c x.c.toNat i) (fun a b c =>
      .ofNum ((fFma fp32 mode (fp32.decode a) (fp32.decode b) (fp32.decode c)).map (fSatIf fp32 (isSat x))))) s

def hMinMax : Honour := { negA := true, negB := true, xlm := .full }

/-- `FMIN` (R147). -/
def execFmin (w : WA) (x : Option XMod) (s : State) : Out :=
  binary hMinMax .f32 false w x (fun _ a b => .ofNum (fMinMax fp32 false a b)) s
/-- `FMAX` (R147). -/
def execFmax (w : WA) (x : Option XMod) (s : State) : Out :=
  binary hMinMax .f32 false w x (fun _ a b => .ofNum (fMinMax fp32 true a b)) s

/-- `FCMP` (R148). -/
def execFcmp (w : WA) (x : Option XMod) (s : State) : Out :=
  cmpWord hMinMax .f32 7 w x (fun c a b => .ofNum ((fcmpCond c a b).map ofBool)) s

/-- `FSQRT`, correctly rounded; the row holds FUNC 7 to 127, which are reserved (R149). -/
def execFsqrt (w : WB) (x : Option XMod) (s : State) : Out :=
  let m := x.getD plainX
  roundedWord { negA := true, rnd := true, sat := true, xlm := .onA } true w.pred w.d.toNat 1 m (w.func != 0) true (fun mode wx i =>
    lift1 (wx.src m .f32 .a w.a.toNat i) (fun a =>
      .ofNum ((fSqrt fp32 mode (fp32.decode a)).map (fSatIf fp32 (isSat m))))) s

/-- An SFU form within its bound (R149). -/
def sfuWord (form : Nat) (w : WB) (x : Option XMod) (s : State) : Out :=
  unary { negA := true, sat := true, xlm := .onA } .f32 true w x false
    (fun m a => .ofNum ((sfu form a).map (fSatIf fp32 (isSat m)))) s

/-- `FRCP` (R149). -/
def execFrcp (w : WB) (x : Option XMod) (s : State) : Out := sfuWord 1 w x s
/-- `FRSQ` (R149). -/
def execFrsq (w : WB) (x : Option XMod) (s : State) : Out := sfuWord 2 w x s
/-- `FEXP2` (R149). -/
def execFexp2 (w : WB) (x : Option XMod) (s : State) : Out := sfuWord 3 w x s
/-- `FLOG2` (R149). -/
def execFlog2 (w : WB) (x : Option XMod) (s : State) : Out := sfuWord 4 w x s
/-- `FSIN` (R149). -/
def execFsin (w : WB) (x : Option XMod) (s : State) : Out := sfuWord 5 w x s
/-- `FCOS` (R149). -/
def execFcos (w : WB) (x : Option XMod) (s : State) : Out := sfuWord 6 w x s

/-- The X-word fields of the FP64 words: a 64-bit source of mode 6 is an even s pair (R133, R135). -/
def hDouble : Honour := { negA := true, negB := true, rnd := true, xlm := .full, wide := true }

/-- A two-source FP64 word on pairs (R150). -/
def f64Word (w : WA) (x : Option XMod) (f : RMode → FNum → FNum → Option Nat) (s : State) : Out :=
  let m := x.getD plainX
  roundedWord hDouble false w.pred w.d.toNat 2 m (oddReg w.d.toNat || oddReg w.a.toNat || oddReg w.b.toNat) true (fun mode wx i =>
    lift2 (wx.src m .f64 .a w.a.toNat i) (wx.src m .f64 .b w.b.toNat i)
      (fun a b => .ofNum (f mode (fp64.decode a) (fp64.decode b)))) s

/-- `DADD` (R150). -/
def execDadd (w : WA) (x : Option XMod) (s : State) : Out := f64Word w x (fun r a b => fAdd fp64 r a b) s
/-- `DMUL` (R150). -/
def execDmul (w : WA) (x : Option XMod) (s : State) : Out := f64Word w x (fun r a b => fMul fp64 r a b) s
/-- `DFMA` (R150). -/
def execDfma (w : WA) (x : XMod) (s : State) : Out :=
  roundedWord { hFma with sat := false, wide := true } false w.pred w.d.toNat 2 x
    (oddReg w.d.toNat || oddReg w.a.toNat || oddReg w.b.toNat || oddReg x.c.toNat) true (fun mode wx i =>
    lift3 (wx.src x .f64 .a w.a.toNat i) (wx.src x .f64 .b w.b.toNat i) (wx.src x .f64 .c x.c.toNat i)
      (fun a b c => .ofNum (fFma fp64 mode (fp64.decode a) (fp64.decode b) (fp64.decode c)))) s

/-- The format of the packed halves in lane `i`: FMT.AFMT 0 is BF16, 1 is FP16, others are reserved (R151). -/
def Wx.half (w : Wx) (i : Nat) : Option FFmt :=
  match bits (w.fmtAt i).toNat 0 4 with
  | 0 => some bf16
  | 1 => some fp16
  | _ => none

/-- Both halves of a register; one invalid half poisons the whole register (R151). -/
def halves2 (F : FFmt) (sat : Bool) (lo hi : Option Nat) : LVal :=
  match lo, hi with
  | some a, some b => .val (fSatIf F sat a + fSatIf F sat b * 2 ^ 16)
  | _, _ => .bad .fpInvalid

/-- A packed-half word: `f` acts on half `k` of the sources (R151). -/
def halfWord (h : Honour) (w : WA) (m : XMod) (srcs : Wx → Nat → List LVal)
    (f : FFmt → RMode → List Nat → Option Nat) (s : State) : Out :=
  onIssuer s (laneWord w.pred (fun wx =>
    finishLanes false ⟨.v, w.d.toNat, 1⟩ (!modOk h m) (fun i =>
      match wx.half i, wx.mode m i with
      | some F, some mode =>
        (match firstOf (srcs wx i) with
        | some e => e
        | none =>
          let ns := (srcs wx i).map (fun v => match v with | .val n => n | _ => 0)
          halves2 F (isSat m) (f F mode (ns.map (fun n => n % 2 ^ 16))) (f F mode (ns.map (fun n => n / 2 ^ 16))))
      | _, _ => .bad .malformed) wx))

/-- The two sources of a packed-half word. -/
def half2 (w : WA) (m : XMod) (wx : Wx) (i : Nat) : List LVal := [wx.src m .f16x2 .a w.a.toNat i, wx.src m .f16x2 .b w.b.toNat i]

/-- `HADD2` (R151). -/
def execHadd2 (w : WA) (x : Option XMod) (s : State) : Out :=
  halfWord hFloat w (x.getD plainX) (half2 w (x.getD plainX))
    (fun F r ns => match ns with | [a, b] => fAdd F r (F.decode a) (F.decode b) | _ => none) s
/-- `HMUL2` (R151). -/
def execHmul2 (w : WA) (x : Option XMod) (s : State) : Out :=
  halfWord hFloat w (x.getD plainX) (half2 w (x.getD plainX))
    (fun F r ns => match ns with | [a, b] => fMul F r (F.decode a) (F.decode b) | _ => none) s
/-- `HFMA2` (R151). -/
def execHfma2 (w : WA) (x : XMod) (s : State) : Out :=
  halfWord hFma w x (fun wx i => half2 w x wx i ++ [wx.src x .f16x2 .c x.c.toNat i])
    (fun F r ns => match ns with | [a, b, c] => fFma F r (F.decode a) (F.decode b) (F.decode c) | _ => none) s

/-- A float to a float: a signalling NaN is invalid, a quiet NaN is canonical (R152). -/
def cvtFloat (src dst : FFmt) (mode : RMode) (a : Nat) : Option Nat :=
  let x := src.decode a
  if x.isSNaN then none else some (roundFloat dst mode x)

/-- A float rounded to an integral value of its own format (R152). -/
def cvtIntegral (F : FFmt) (mode : RMode) (a : Nat) : Option Nat :=
  match F.decode a with
  | .nan true => none
  | .fin sg m e => let r := roundToInt mode sg m e; some (roundFin F mode sg r.natAbs 0)
  | y => some (roundFloat F mode y)

/-- The conversions of R152: the value, whether the source and the destination are pairs, and the float format SAT acts on. -/
def fcvtOf (func : Nat) : Option (Kind × Nat × Option FFmt × (RMode → Nat → Option Nat)) :=
  match func with
  | 0 => some (.f32, 1, some fp32, fun r a => some (roundFloat fp32 r (.ofInt (sext 32 a))))
  | 1 => some (.f32, 1, some fp32, fun r a => some (roundFloat fp32 r (.ofInt (a : Nat))))
  | 2 => some (.f32, 1, none, fun r a => (roundInt (-2147483648) 2147483647 r (fp32.decode a)).map (wrap 32))
  | 3 => some (.f32, 1, none, fun r a => (roundInt 0 4294967295 r (fp32.decode a)).map (wrap 32))
  | 4 => some (.f32, 2, some fp64, fun r a => cvtFloat fp32 fp64 r a)
  | 5 => some (.f64, 1, some fp32, fun r a => cvtFloat fp64 fp32 r a)
  | 6 => some (.f32, 2, some fp64, fun r a => some (roundFloat fp64 r (.ofInt (sext 32 a))))
  | 7 => some (.f64, 1, none, fun r a => (roundInt (-2147483648) 2147483647 r (fp64.decode a)).map (wrap 32))
  | 8 => some (.f32, 1, some fp16, fun r a => cvtFloat fp32 fp16 r a)
  | 9 => some (.f32, 1, some fp32, fun r a => cvtFloat fp16 fp32 r (a % 2 ^ 16))
  | 10 => some (.f32, 1, some bf16, fun r a => cvtFloat fp32 bf16 r a)
  | 11 => some (.f32, 1, some fp32, fun r a => cvtFloat bf16 fp32 r (a % 2 ^ 16))
  | 12 => some (.f32, 1, some fp32, fun r a => cvtIntegral fp32 r a)
  | 13 => some (.f64, 2, some fp64, fun r a => cvtIntegral fp64 r a)
  | _ => none

/-- The kind the sign modifiers of an `FCVT` source act on: integers, halves or floats (R131, R152). -/
def fcvtKind (func : Nat) : Kind :=
  match func with
  | 0 => .i32
  | 1 => .i32
  | 6 => .i32
  | 9 => .f16x2
  | 11 => .f16x2
  | 5 => .f64
  | 7 => .f64
  | 13 => .f64
  | _ => .f32

/-- `FCVT` (R152). SAT on an integer result is a field not honoured. A reserved FUNC (14 to 127) names no conversion, and so no width of its
result: it poisons register D alone (DESIGN CHOICE, log entry 64). -/
def execFcvt (w : WB) (x : Option XMod) (s : State) : Out :=
  let m := x.getD plainX
  match fcvtOf w.func.toNat with
  | none => onIssuer s (laneWord w.pred (fun wx => finishLanes false ⟨.v, w.d.toNat, 1⟩ true (fun _ => .val 0) wx))
  | some (src, n, satF, f) =>
    roundedWord { negA := true, rnd := true, sat := satF.isSome, xlm := .onA, wide := src == .f64 } false w.pred w.d.toNat n m
      ((n == 2 && oddReg w.d.toNat) || (src == .f64 && oddReg w.a.toNat))
      (!(w.func == 4 || w.func == 6 || w.func == 9 || w.func == 11)) (fun mode wx i =>
        lift1 (wx.src m (fcvtKind w.func.toNat) .a w.a.toNat i) (fun a =>
          .ofNum ((f mode a).map (fun r => match satF with | some F => fSatIf F (isSat m) r | none => r)))) s

/-- One element of a packed output: scaled, then converted to OFMT (R125, R153): `none` is Poison(FP_INVALID). -/
def packElem (ofmt : Nat) (oscale : Int) (mode : RMode) (x : FNum) : Option Nat :=
  if x.isSNaN then none
  else
    match ofmt with
    | 0 => some (roundFloat bf16 mode (x.scale oscale))
    | 1 => some (roundFloat fp16 mode (x.scale oscale))
    | 2 => some (encodeTapered t8 (x.scale oscale))
    | 3 => some (encodeTapered t6 (x.scale oscale))
    | 4 => (roundInt (-128) 127 mode (x.scale oscale)).map (wrap 8)
    | _ => some (roundFloat fp32 mode (x.scale oscale))

/-- The number with the `n` bits from bit `lo` replaced. -/
def setBits (x lo n v : Nat) : Nat := x - (bits x lo n) * 2 ^ lo + (v % 2 ^ n) * 2 ^ lo

/-- The element pairs an `FPACK` may name, by OFMT; `none` is a reserved format (R153). -/
def packPairs (ofmt : Nat) : Option Nat :=
  match ofmt with
  | 0 => some 1
  | 1 => some 1
  | 2 => some 2
  | 3 => some 5
  | 4 => some 2
  | _ => none

/-- OSCALE and PSCALE of FMT (R122). -/
def oscaleOf (fmt : Word) : Int := sext 8 (bits fmt.toNat 24 8)
def pscaleOf (fmt : Word) : Int := sext 8 (bits fmt.toNat 16 8)
def ofmtOf (fmt : Word) : Nat := bits fmt.toNat 8 4
def afmtOf (fmt : Word) : Nat := bits fmt.toNat 0 4
def bfmtOf (fmt : Word) : Nat := bits fmt.toNat 4 4

/-- The registers that `FPACK` writes in a lane: a pair for OFMT 3 (R153). -/
def packRegs (wx : Wx) (i : Nat) : Nat := if ofmtOf (wx.fmtAt i) == 3 then 2 else 1

/-- What `FPACK` leaves in the destination in lane `i`: d is read as a fourth source after a and b (R153). -/
def packLane (w : WA) (m : XMod) (wx : Wx) (i : Nat) : LVal :=
  let fmt := wx.fmtAt i
  let of := ofmtOf fmt
  let k := m.limm.toNat
  let n := packRegs wx i
  match packPairs of, wx.modeIf (of != 2 && of != 3) m i with
  | some pairs, some mode =>
    if pairs ≤ k || (n == 2 && oddReg w.d.toNat) || !modOk { negA := true, negB := true, rnd := true, xlm := .limm } m then .bad .malformed
    else
      lift3 (wx.src m .f32 .a w.a.toNat i) (wx.src m .f32 .b w.b.toNat i) (wx.lane n 8 w.d.toNat i false) (fun a b d =>
        match packElem of (oscaleOf fmt) mode (fp32.decode a), packElem of (oscaleOf fmt) mode (fp32.decode b) with
        | some ea, some eb =>
          let ew := elemWidth of
          let r := setBits (setBits d (2 * k * ew) ew ea) ((2 * k + 1) * ew) ew eb
          .val (if of == 3 then r % 2 ^ 60 else r)
        | _, _ => .bad .fpInvalid)
  | _, _ => .bad .malformed

/-- The results of the active lanes, each in as many registers from `d` as its own FMT asks for (R75, R80, R153). -/
def finishPacked (d : Nat) (n : Nat → Nat) (f : Nat → LVal) (w : Wx) (s : State) : State :=
  let (s, _, out) := resolve s w.g w.pc [] ((w.lanes.filter (fun i => d + n i ≤ w.budget)).map (fun i => (i, f i)))
  put s w.g (out.flatMap (fun e => laneWrites .v d (n e.1) e))

/-- `FPACK` (R153). -/
def execFpack (w : WA) (x : Option XMod) (s : State) : Out :=
  onIssuer s (laneWord w.pred (fun wx => finishPacked w.d.toNat (packRegs wx) (packLane w (x.getD plainX) wx) wx))

/-- The number of elements an `FUNPK` source holds, by AFMT (R154). -/
def unpackLimit (afmt : Nat) : Nat :=
  match afmt with
  | 0 => 2
  | 1 => 2
  | 2 => 4
  | 3 => 10
  | 4 => 4
  | 5 => 4
  | 6 => 8
  | 7 => 32
  | _ => 0

/-- What `FUNPK` leaves in the destination in lane `i` (R154). -/
def unpackLane (w : WB) (m : XMod) (wx : Wx) (i : Nat) : LVal :=
  let fmt := wx.fmtAt i
  let af := afmtOf fmt
  let j := w.func.toNat
  match wx.mode m i with
  | none => .bad .malformed
  | some mode =>
    if unpackLimit af ≤ j || (af == 3 && oddReg w.a.toNat) || !modOk { rnd := true, xlm := .onA, wide := af == 3 } m then .bad .malformed
    else
      lift1 (wx.src m (if af == 3 then .i64 else .i32) .a w.a.toNat i) (fun a =>
        match decodeElem af (bits a (elemWidth af * j) (elemWidth af)) with
        | none => .bad .fpInvalid
        | some v => if v.isSNaN then .bad .fpInvalid else .val (roundFloat fp32 mode (v.scale (-(oscaleOf fmt)))))

/-- `FUNPK` (R154). -/
def execFunpk (w : WB) (x : Option XMod) (s : State) : Out :=
  onIssuer s (laneWord w.pred (fun wx => finishLanes false ⟨.v, w.d.toNat, 1⟩ false (unpackLane w (x.getD plainX) wx) wx))

end Sys2Proof.Machine
end

