-- ==== Sys2Proof/Machine/MatrixQueue.lean ====
section
/-! DEFINITION. The matrix queue of a core and what its entries do to accumulators, registers and scratchpad (R159 to R180). -/
namespace Sys2Proof.Machine

/-! ### Accumulators (R166) -/

def tasKey (b r c : Nat) : Nat := (b * 128 + r) * 16 + c
def Group.tasAt (x : Group) (b r c : Nat) : Val := Map.get Val.zero x.tas (tasKey b r c)

/-- Elements written: key and value. -/
def writeTas (s : State) (g : Nat) (ws : List (Nat × Val)) : State :=
  s.updGrp g (fun x => { x with tas := ws.foldl (fun m w => Map.set Val.zero m w.1 w.2) x.tas })

/-- A resolved result as a 32-bit element. -/
def valOf (e : Nat × Nat × Option Word) : Val :=
  match e.2.2 with
  | some t => ⟨t, true⟩
  | none => ⟨BitVec.ofNat 32 e.2.1, false⟩

/-- Results by row and element key, given in ascending row and column; one entry per cause (R171). -/
def finishTas (s : State) (g : Nat) (pc : BitVec 64) (rs : List (Nat × Nat × LVal)) : State :=
  let (s, _, out) := resolve s g pc [] (rs.map (fun r => (r.1, r.2.2)))
  writeTas s g ((rs.zip out).map (fun p => (p.1.2.1, valOf p.2)))

/-! ### Operands of the multiplies (R160 to R164, R172) -/

def isHalf (f : Nat) : Bool := f == 0 || f == 1
def isByteFmt (f : Nat) : Bool := f == 2 || f == 4 || f == 5
def isInt8 (f : Nat) : Bool := f == 4 || f == 5

/-- The format pairs an instruction accepts, with K (R160). -/
def mulK (op : Nat) (iacc : Bool) (af bf : Nat) : Option Nat :=
  match op with
  | 0 =>
    if isHalf af && isHalf bf then some 32
    else if isByteFmt af && isByteFmt bf then some 64
    else if af == 3 && bf == 3 then some 80
    else if af == 6 && bf == 6 then some 128
    else none
  | 1 => if isInt8 af && isInt8 bf then some 64 else if af == 6 && bf == 6 then some 128 else none
  | 2 => if af == 7 && bf == 7 then some 512 else none
  | _ =>
    if iacc then (if isInt8 af && isInt8 bf then some 128 else none)
    else if isHalf af && isHalf bf then some 64
    else if isByteFmt af && isByteFmt bf then some 128
    else none

/-- Whether the accumulator is FP32 (R160). -/
def isFloatMul (op : Nat) (iacc : Bool) : Bool := op == 0 || (op == 3 && !iacc)

/-- Registers of A per row (R160). -/
def aRegs (op : Nat) : Nat := if op == 3 then 32 else 16

/-- A row of A as one little-endian number, or the first register's token (R161, R171). -/
def rowBits : List LVal → LVal
  | [] => .val 0
  | r :: l =>
    match r with
    | .val n => lift1 (rowBits l) (fun m => .val (n + m * 2 ^ 32))
    | e => e

/-- The elements of a row or column; `none` where one is a NaV (R118, R171). -/
def elems (fmt K row : Nat) : Option (List FNum) := (List.range K).mapM (fun k => decodeElem fmt (elemAt fmt row k))

/-- `n` bytes of team `t`'s scratchpad as a matrix word of the group reads them: the group's own earlier stores, those quarantined in its
open region among them, are seen in program order (R174, R211, R240). -/
def scrSeen (s : State) (x : Group) (t off n : Nat) : LVal :=
  let key := freeKey s.draws 45 0
  if x.pending.isEmpty then s.readScr t off n key (s.settled x 6)
  else
    let byte := fun (i : Nat) => (pendingByte x.pending (sectorBase (.scr t i)).1 (i % 32)).getD (s.readScr t i 1 key (s.settled x 6))
    let bs := (List.range n).map (fun i => byte (off + i))
    match bs.find? (fun b => !b.isVal) with
    | some e => e
    | none => .val (bs.foldr (fun b a => (match b with | .val v => v | _ => 0) + 256 * a) 0)

/-- 64 bytes of a column of B (R163), from the scratchpad of team `t`. -/
def columnBits (s : State) (x : Group) (t off : Nat) : LVal :=
  let scr := ((Map.find s.teams t).map (·.desc.scr)).getD 0 * 1024
  if scr < off + 64 then .bad .bounds else scrSeen s x t off 64

/-- What a column contributes (R171, R172): its kept elements with the A position each pairs with, or its token. `got` is what a join window has
delivered (R165). Where an element of an `MMAS` column is a NaV or an sNaN and its metadata is poisoned, malformed or outside the scratchpad, R171
does not order the causes: FP_INVALID comes first (DESIGN CHOICE, log entry 67). -/
def columnOf (s : State) (x : Group) (t : Except Fail Nat) (own : Nat) (op K fmt : Nat) (b m j : Nat) (got : Option (List LVal)) :
    Except LVal (Nat × List (Nat × FNum)) :=
  let off := bits b 0 19 + 64 * bits b 19 12 * j
  let raw := match got, t with
    | some l, _ => (l[j]?).getD (.bad .bounds)
    | none, .error f => LVal.new f
    | none, .ok u => columnBits s x u off
  match raw with
  | .val n =>
    let kept := if op == 3 then K / 2 else K
    match elems fmt kept n with
    | none => .error (.bad .fpInvalid)
    | some es =>
      if es.any (·.isSNaN) then .error (.bad .fpInvalid)
      else if op != 3 then .ok (n, (List.range K).zip es)
      else
        let len := K / 8
        let mo := bits m 0 19 + len * j
        let scr := ((Map.find s.teams own).map (·.desc.scr)).getD 0 * 1024
        if scr < mo + len then .error (.bad .bounds)
        else
          match scrSeen s x own mo len with
          | .val md =>
            let nib := fun g => bits md (4 * g) 4
            if (List.range (K / 4)).all (fun g => nib g % 4 < nib g / 4) then
              .ok (n, ((List.range (K / 2)).map (fun e => 4 * (e / 2) + (if e % 2 == 0 then nib (e / 2) % 4 else nib (e / 2) / 4))).zip es)
            else .error (.bad .malformed)
          | e => .error e
  | e => .error e

/-- An exact integer element. -/
def intOf : FNum → Int
  | .fin s m e => FNum.units 0 s m e
  | _ => 0

/-- One element of a multiply (R170): its row and column already free of poison. -/
def mulElem (op : Nat) (l : MmaLit) (pscale : Int) (mode : RMode) (rowN : Nat) (row : List FNum) (colN : Nat)
    (col : List (Nat × FNum)) (old : Val) : LVal :=
  if l.zero == 0 && old.poison then .tok old.bits
  else
    let acc := if l.zero == 1 then 0 else old.bits.toNat
    if isFloatMul op (l.iacc == 1) then
      .ofNum (windowSum (col.map (fun c => product pscale ((row[c.1]?).getD (.fin false 0 0)) c.2)) (fp32.decode acc) mode)
    else if op == 2 then
      let x := popCount 512 (rowN ^^^ colN)
      let term : Int := if l.bmode == 0 then 512 - 2 * (x : Int) else (popCount 512 (rowN &&& colN) : Nat)
      .val (wrap 32 (intAccumulate (l.sat == 1) (sext 32 acc) [term]))
    else
      .val (wrap 32 (intAccumulate (l.sat == 1) (sext 32 acc)
        (col.map (fun c => intOf ((row[c.1]?).getD (.fin false 0 0)) * intOf c.2))))

/-- A row of A ready for the array: its bits and elements, or its token (R171). -/
def rowOf (fmt K : Nat) (rs : List LVal) : Except LVal (Nat × List FNum) :=
  match rowBits rs with
  | .val n =>
    match elems fmt K n with
    | none => .error (.bad .fpInvalid)
    | some es => .ok (n, es)
  | e => .error e

/-- A multiply executed (R170). -/
def mxMul (s : State) (e : MxEntry) (op d : Nat) (l : MmaLit) (rows : List (Nat × List LVal)) (b m : Nat) : State :=
  let x := s.grp e.gid
  let fmt := e.fmt
  match s.teamOf x, mulK op (l.iacc == 1) (afmtOf fmt) (bfmtOf fmt) with
  | some tm, some K =>
    let rank := bits b 32 3
    let owner : Except Fail Nat := if rank == 7 then .ok x.team else rankTeam s x.team tm rank
    let cols := (List.range (16 * l.ncode.toNat)).map (fun j => columnOf s x owner x.team op K (bfmtOf fmt) b m j e.got)
    let mode := (rmodeOf (bits fmt.toNat 12 3)).getD .rne
    let one := fun (r : Nat × List LVal) =>
      let row := rowOf (afmtOf fmt) K r.2
      ((List.range cols.length).zip cols).map (fun c =>
        let k := tasKey (d + c.1 / 16) r.1 (c.1 % 16)
        (r.1, k, match row, c.2 with
          | .error t, _ => t
          | .ok _, .error t => t
          | .ok (rn, re), .ok (cn, ce) => mulElem op l (pscaleOf fmt) mode rn re cn ce (Map.get Val.zero x.tas k)))
    finishTas s e.gid e.pc (rows.flatMap one)
  | _, _ => s

/-- Every element of the named rows in `n` blocks takes one value: a token, zero, or MALFORMED (R169, R177). -/
def mxFill (s : State) (e : MxEntry) (d n : Nat) (rows : List Nat) (v : LVal) : State :=
  finishTas s e.gid e.pc (rows.flatMap (fun i =>
    (List.range n).flatMap (fun b => (List.range 16).map (fun c => (i, tasKey (d + b) i c, v)))))

/-- `ALD` executed: element c of block b takes register 16b + c as it stood at issue (R178). -/
def mxLoad (s : State) (e : MxEntry) (d : Nat) (rows : List (Nat × List LVal)) : State :=
  finishTas s e.gid e.pc (rows.flatMap (fun r =>
    ((List.range r.2.length).zip r.2).map (fun p => (r.1, tasKey (d + p.1 / 16) r.1 (p.1 % 16), p.2))))

/-- `AST` executed (R178). -/
def mxStore (s : State) (e : MxEntry) (d a n : Nat) (rows : List Nat) : State :=
  let x := s.grp e.gid
  put s e.gid (rows.flatMap (fun i =>
    (List.range (16 * n)).map (fun k => ⟨.v, d + k, i, x.tasAt (a + k / 16) i (k % 16)⟩)))

/-- The registers that `ACVT` writes for `n` blocks in an output format; `none` for a reserved one (R179). -/
def cvtRegs (of n : Nat) : Option Nat :=
  match of with
  | 0 => some (8 * n)
  | 1 => some (8 * n)
  | 2 => some (4 * n)
  | 3 => some (2 * ((16 * n + 9) / 10))
  | 4 => some (4 * n)
  | 8 => some (16 * n)
  | _ => none

/-- Where element `e` of an output format lies: its register and its lowest bit there; a T6 element may cross into the next
register of its pair (R179). -/
def cvtBit (of e : Nat) : Nat := if of == 3 then 64 * (e / 10) + 6 * (e % 10) else elemWidth of * e

/-- One accumulator element as `ACVT` converts it (R179). -/
def cvtElem (of : Nat) (osc : Int) (mode : RMode) (int : Bool) (v : Val) : LVal :=
  if v.poison then .tok v.bits
  else
    let x : FNum := if int then .ofInt (sext 32 v.bits.toNat) else fp32.decode v.bits.toNat
    .ofNum (packElem of osc mode x)

/-- The register `r` of one lane's `ACVT`: poisoned by the lowest element written into it that is (R179). -/
def cvtReg (of : Nat) (es : List (Nat × LVal)) (r : Nat) : LVal :=
  let touches := fun (e : Nat × LVal) => cvtBit of e.1 < 32 * (r + 1) && 32 * r < cvtBit of e.1 + elemWidth of
  match es.find? (fun e => touches e && !e.2.isVal) with
  | some e => e.2
  | none => .val (bits (es.foldl (fun a e => match e.2 with | .val n => a + n * 2 ^ cvtBit of e.1 | _ => a) 0) (32 * r) 32)

/-- `ACVT` executed (R179). -/
def mxConvert (s : State) (e : MxEntry) (d a n : Nat) (int : Bool) (mode : Nat) (rows : List Nat) : State :=
  let x := s.grp e.gid
  let of := ofmtOf e.fmt
  let m := (rmodeOf mode).getD .rne
  let one := fun (i : Nat) =>
    let es := (List.range (16 * n)).map (fun k => (k, cvtElem of (oscaleOf e.fmt) m int (x.tasAt (a + k / 16) i (k % 16))))
    (List.range ((cvtRegs of n).getD 0)).map (fun r => (i, d + r, cvtReg of es r))
  let rs := rows.flatMap one
  -- the entry of an invalid conversion names its lowest lane, also where an earlier element poisons the register (R171, R179)
  let bad := fun (i : Nat) => (List.range (16 * n)).any (fun k => cvtElem of (oscaleOf e.fmt) m int (x.tasAt (a + k / 16) i (k % 16)) == .bad .fpInvalid)
  let (s, ts) := match rows.find? bad with
    | some i => let (s, ts, _) := poison s e.gid e.pc [] { cause := .fpInvalid } i; (s, ts)
    | none => (s, [])
  let (s, _, out) := resolve s e.gid e.pc ts (rs.map (fun r => (r.1, r.2.2)))
  put s e.gid ((rs.zip out).map (fun p => ⟨.v, p.1.2.1, p.1.1, valOf p.2⟩))

/-- The byte offset of row `i` of block `b` of `ALDS` and `ASTS` (R180). -/
def rowOff (o : Nat) (l : SpLit) (b i : Nat) : Nat := o + 64 * (l.bstr.toNat * b + l.rstr.toNat * i)

/-- `ALDS` executed: a row beyond the scratchpad takes BOUNDS (R180). -/
def mxAlds (s : State) (e : MxEntry) (d o : Nat) (l : SpLit) (rows : List Nat) : State :=
  let x := s.grp e.gid
  let scr := ((s.teamOf x).map (·.desc.scr)).getD 0 * 1024
  finishTas s e.gid e.pc (rows.flatMap (fun i =>
    (List.range l.nblk.toNat).flatMap (fun b =>
      let r := rowOff o l b i
      (List.range 16).map (fun c =>
        (i, tasKey (d + b) i c,
          if scr < r + 64 then LVal.bad .bounds
          else scrSeen s x x.team (r + 4 * c) 4)))))

/-- The two sectors that one row of one block writes; writer `lane + 128 × word` names each word (R240). -/
def rowStores (x : Group) (d o : Nat) (l : SpLit) (b i : Nat) : List LaneStore :=
  (List.range 16).map (fun c =>
    let v := x.tasAt (d + b) i c
    let off := rowOff o l b i + 4 * c
    ⟨i + 128 * c, ⟨.scr x.team off, 0, none, off⟩, 4, v.bits.toNat, if v.poison then some v.bits else none⟩)

/-- `ASTS` executed: quarantined in an open region, written otherwise; rows beyond the scratchpad are not written, and one
BOUNDS token is flagged (R180, R240). -/
def mxAsts (s : State) (e : MxEntry) (d o : Nat) (l : SpLit) (rows : List Nat) : State :=
  let x := s.grp e.gid
  let scr := ((s.teamOf x).map (·.desc.scr)).getD 0 * 1024
  let qq := ((s.teamOf x).map (·.desc.qq)).getD 0
  let all := rows.flatMap (fun i => (List.range l.nblk.toNat).map (fun b => (i, b)))
  let out := all.find? (fun p => scr < rowOff o l p.2 p.1 + 64)
  let (s, fl) : State × Flags := match out with
    | none => (s, [])
    | some p =>
      let (s, t) := newEntry s e.gid e.pc { cause := .bounds } p.1
      (s, [((rows.head?).getD 0, t, false)])
  let qs := formStores e.pc 0 0 0 ((all.filter (fun p => rowOff o l p.2 p.1 + 64 ≤ scr)).flatMap (fun p => rowStores x d o l p.2 p.1))
  if x.region.opened then
    let (s, _, more) := quarantine s e.gid e.pc qq [] qs
    flagAll s e.gid (fl ++ more)
  else qs.foldl (fun s q => performStore s e.gid q) (flagAll s e.gid fl)

/-- Accumulators whose parity is wrong are found by their group's next matrix word, and hold the token of its entry from then on (R252; log
entry 40). -/
def findTas (s : State) (e : MxEntry) : State :=
  let ks := ((s.grp e.gid).armed.filter (fun a => a.1 == .tas)).map (·.2)
  if ks.isEmpty then s
  else
    let lane := ks.foldl (fun m k => min m (k / 16 % 128)) 127
    let (s, t) := newEntry s e.gid e.pc { cause := .eccCache, detail := .tas } lane
    writeTas (s.updGrp e.gid (fun x => { x with armed := x.armed.filter (fun a => a.1 != .tas) })) e.gid (ks.map (fun k => (k, ⟨t, true⟩)))

/-- One queue entry takes effect. -/
def mxExec (s : State) (e : MxEntry) : State :=
  if (s.grp e.gid).ended then s
  else
    let s := findTas s e
    match e.op with
    | .mul op d l rows b m => mxMul s e op d l rows b m
    | .fill d n rows v => mxFill s e d n rows v
    | .load d rows => mxLoad s e d rows
    | .store d a n rows => mxStore s e d a n rows
    | .convert d a n int mode rows => mxConvert s e d a n int mode rows
    | .alds d o l rows => mxAlds s e d o l rows
    | .asts d o l rows => mxAsts s e d o l rows

/-! ### Join windows (R165) -/

/-- The columns that a window's owner reads once for all its members; none where the owner's team has ended. -/
def JoinWin.read (s : State) (j : JoinWin) : Option (List LVal) :=
  match Map.find s.teams j.owner with
  | none => none
  | some t =>
    if t.groups.all (fun g => (s.grp g).ended) then none
    else some ((List.range (16 * j.n)).map (fun k =>
      let off := j.off + 64 * j.cstr * k
      if t.desc.scr * 1024 < off + 64 then .bad .bounds else s.readScr j.owner off 64 (freeKey s.draws 46 0)))

/-- A window closes: the bytes read go to every member's request. Stores owed to a member come first (R263). -/
def deliver (s : State) (core : Nat) (j : JoinWin) : State :=
  let s := j.members.foldl settleOwed s
  let got := j.read s
  let take := fun (e : MxEntry) => if e.join == some j.id then { e with join := none, got := got } else e
  { s with cores := s.cores.map (fun c =>
      (c.1, { c.2 with mxq := c.2.mxq.map take, joins := if c.1 == core then c.2.joins.filter (fun k => k.id != j.id) else c.2.joins })) }

/-- The windows of a list of cores that satisfy a condition close. -/
def closeWhere (s : State) (p : Nat → JoinWin → Bool) : State :=
  s.cores.foldl (fun s c => (c.2.joins.filter (p c.1)).foldl (fun s j => deliver s c.1 j) s) s

/-- The join windows that one of some groups has joined close (R165). -/
def closeJoins (s : State) (gs : List Nat) : State := closeWhere s (fun _ j => j.members.any gs.contains)

/-- The head of a core's matrix queue executes, after the stores that are owed to its group (R263), unless it waits for a join window (R165,
R173). How many clocks its operation keeps the array busy is not said: the counter of them rises by a free number (R404; log entry 41). -/
def mxStep (s : State) (core : Nat) : State :=
  match (s.coreOf core).mxq with
  | [] => s
  | e :: q =>
    if e.join.isSome then s
    else
      let s := settleOwed { s with draws := s.draws + 1 } e.gid
      let s := s.bumpPerf (s.grp e.gid) 1 (Config.freeNat (freeKey s.draws 51 0))
      mxExec (s.updCore core (fun c => { c with mxq := q })) e

/-- What waits for a join window rather than for a die (`State.blocked`). -/
def joinWait : Nat := 8

/-- The head of a core's matrix queue executes; where it waits for a join window, what needs it done waits too, until the window closes (R165,
R176; log entry 55). -/
def mxNext (s : State) (core : Nat) : State :=
  if ((s.coreOf core).mxq.head?.map (fun e => e.join.isSome)).getD false then s.block [joinWait] 0 else mxStep s core

/-- The queue of a core executes until it holds no entry of the group (R173, R176). -/
def drainMx (s : State) (g : Nat) : State :=
  let core := (s.grp g).core
  let q := (s.coreOf core).mxq
  let upto := ((List.range q.length).filter (fun i => (q[i]?).map (·.gid) == some g)).getLast?
  match upto with
  | none => s
  | some n => (List.range (n + 1)).foldl (fun s _ => mxNext s core) s

/-- An entry is accepted; where the queue is full its head executes first (R97, R173). -/
def mxAccept (s : State) (e : MxEntry) : State :=
  let core := (s.grp e.gid).core
  let s := if 4 ≤ (s.coreOf core).mxq.length then mxNext s core else s
  s.updCore core (fun c => { c with mxq := c.mxq ++ [e] })

end Sys2Proof.Machine
end

