-- ==== Sys2Proof/Machine/Code.lean ====
section
/-! DEFINITION. Reading code (R87, R89): the instruction caches, and the words of a clause. -/
namespace Sys2Proof.Machine

/-- The number of a sector of code, wherever it is mapped. -/
def placeKey : Place → Nat
  | .dev k => 4 * (k / 32)
  | .host p a => 4 * ((2 ^ 54 * p + a) / 32) + 1
  | .peer p o => 4 * ((2 ^ 41 * p + o) / 32) + 2
  | .scr t o => 4 * ((2 ^ 20 * t + o) / 32) + 3

/-- The instruction cache's key of a sector of code: its context and the view that reads it beside it (R89, R334). -/
def codeKey (ctx view sector : Nat) : Nat := 2 ^ 80 * (1024 * ctx + view) + sector

/-- The sector of code at a place: the instruction cache's copy, while it is held, may be older than memory's; which of them a
fetch reads is free (R89). -/
def codeSector (s : State) (ctx core view : Nat) (key : Nat) (p : Place) : State × Except Fail Sector :=
  let (base, _) := sectorBase p
  let now := readSector s ctx core view key base
  let c := codeKey ctx view (placeKey base)
  match now, Map.find (s.coreOf core).icache c with
  | .ok d, some old =>
    if old != d && Config.freeBit key then (s, .ok old) else (s.updCore core (fun e => { e with icache := Map.put e.icache c d }), .ok d)
  | .ok d, none => (s.updCore core (fun e => { e with icache := Map.put e.icache c d }), .ok d)
  | r, _ => (s, r)

/-- A core takes the sector of code at a virtual address of a context into its instruction cache ahead of any fetch: a store to it from now
on may be long in reaching the fetch, also that of a team placed later (R89). -/
def codeFill (s : State) (ctx core view va : Nat) : State :=
  let key := freeKey s.draws 37 (va / 32 % 128)
  match Map.find s.ctxs ctx with
  | none => s
  | some c =>
    match translate s c .fetch va key with
    | .error _ => s
    | .ok t => (codeSector { s with draws := s.draws + 1 } ctx core view key t.place).1

/-- One word of code, or the first check of R87 that its bytes fail. A page-table walk that meets poison fails as poison of the clause does,
which neither R87 nor R187 says (DESIGN CHOICE, log entry 52). -/
def codeWord (s : State) (g va : Nat) : State × Except EncReason Word :=
  let x := s.grp g
  let key := freeKey s.draws 37 (va / 32 % 128)
  match s.ctxOf x with
  | none => (s, .error .fetchFault)
  | some c =>
    match translate s c .fetch va key with
    | .error f => (s, .error (if f.cause == .eccMem || f.cause == .eccCache then .fetchPoison else .fetchFault))
    | .ok t =>
      match codeSector s x.ctx x.core (s.viewOf x) key t.place with
      | (s, .error _) => (s, .error .fetchPoison)
      | (s, .ok d) =>
        if d.token.isSome then (s, .error .fetchPoison)
        else (s, .ok (BitVec.ofNat 32 (bits d.data (8 * (sectorBase t.place).2) 32)))

/-- `n` words of code: a byte that cannot be fetched comes before one that is poisoned (R87). -/
def codeWords (g : Nat) : Nat → Nat → State → State × Except EncReason (List Word)
  | 0, _, s => (s, .ok [])
  | n + 1, va, s =>
    let (s, w) := codeWord s g va
    let (s, ws) := codeWords g n (va + 4) s
    (s, match w, ws with
      | .ok w, .ok ws => .ok (w :: ws)
      | .error .fetchFault, _ => .error .fetchFault
      | _, .error e => .error e
      | .error e, _ => .error e)

/-- The clause at a header, fetched and checked (R87). -/
def codeClause (s : State) (g hdr : Nat) : State × Except EncReason Clause :=
  let s := { s with draws := s.draws + 1 }
  match codeWord s g hdr with
  | (s, .error e) => (s, .error e)
  | (s, .ok h) =>
    match codeWords g (Header.of h).count (hdr + 4) s with
    | (s, .error e) => (s, .error e)
    | (s, .ok ws) =>
      match checkClause (Header.of h) ws with
      | some e => (s, .error e)
      | none => (s, .ok ⟨h, ws⟩)

end Sys2Proof.Machine
end

