-- ==== Sys2Proof/Machine/Uses.lean ====
section
/-! DEFINITION. Which registers a word reads and writes, and with what latency (R79, R81): what the scoreboard, the distances and
their checker look at before a word issues. -/
namespace Sys2Proof.Machine

/-- A register that a word reads; `cross` where R79 counts the cross-lane distance. -/
structure RegUse where
  file : RFile
  reg : Nat
  cross : Bool
deriving DecidableEq, Repr

/-- The registers a word reads and writes, and the two distances of a fixed-latency row of R79; `none` is variable latency. -/
structure Uses where
  reads : List RegUse
  writes : List (RFile × Nat)
  row : Option (Nat × Nat)
deriving DecidableEq, Repr

/-- `n` registers of a file from `r`, as they are read. -/
def usesRegs (f : RFile) (cross : Bool) (r n : Nat) : List RegUse := (List.range n).map (fun k => ⟨f, r + k, cross⟩)
/-- Lane registers read in their own lane. -/
def rv (r n : Nat) : List RegUse := usesRegs .v false r n
/-- Uniform registers: every read of them is in full (R79). -/
def rs (r n : Nat) : List RegUse := usesRegs .s true r n
/-- `n` registers of a file from `r`, as they are written. -/
def wregs (f : RFile) (r n : Nat) : List (RFile × Nat) := (List.range n).map (fun k => (f, r + k))
def readFmt : List RegUse := [⟨.fmt, 0, true⟩]

/-- The rows of R79: ordinary and cross-lane distance for 32, 64 and 128 lanes. -/
inductive Row where
  | scalar | fmt | simple | mul | fp32 | pred | conv | fp64 | cross
deriving DecidableEq, Repr

/-- The distances of a row for a group of `w` lanes (R79). -/
def Row.need (r : Row) (w : Nat) : Nat × Nat :=
  let pick := fun (a b c : Nat × Nat) => if w == 32 then a else if w == 64 then b else c
  match r with
  | .scalar => pick (3, 3) (2, 2) (1, 1)
  | .fmt => pick (4, 4) (2, 2) (1, 1)
  | .simple => pick (4, 4) (2, 3) (1, 2)
  | .mul => pick (6, 6) (3, 4) (2, 3)
  | .fp32 => pick (5, 5) (3, 3) (2, 2)
  | .pred => pick (5, 5) (3, 3) (2, 2)
  | .conv => pick (6, 6) (3, 4) (2, 3)
  | .fp64 => pick (8, 8) (4, 5) (2, 3)
  | .cross => pick (8, 8) (5, 5) (3, 3)

/-- Source a or b of an ALU word under its modifier word (R131, R132). -/
def srcUses (m : XMod) (isA : Bool) (r n : Nat) : List RegUse :=
  if (m.xls == 0) == isA && m.xlm == 6 then rs m.sreg.toNat n
  else if (m.xls == 0) == isA && m.xlm != 0 then usesRegs .v true r n ++ (if m.xlm == 4 then rv m.c.toNat 1 else [])
  else rv r n

/-- The ALU words (R84). -/
def aluUses (w : Word) (x : Option Word) (fmt : Word) (width : Nat) : Uses :=
  let op := (field w 24 6).toNat
  let d := (field w 14 7).toNat
  let a := (field w 7 7).toNat
  let b := (field w 0 7).toNat
  let sd := (field w 15 6).toNat
  let sa := (field w 9 6).toNat
  let sb := (field w 3 6).toNat
  let sub := (field w 0 3).toNat
  let m := match x with
    | some y => XMod.of y
    | none => plainX
  let c := m.c.toNat
  let rnd := if m.rnd == 7 then readFmt else []
  let of := fun (row : Row) (rd : List RegUse) (wr : List (RFile × Nat)) => (⟨rd, wr, some (row.need width)⟩ : Uses)
  let two := fun (n : Nat) => srcUses m true a n ++ srcUses m false b n
  let p3 := fun (r : Nat) (cross : Bool) => [(⟨.p, r % 8, cross⟩ : RegUse)]
  match op with
  | 0x02 => of .mul (two 1) (wregs .v d 1)
  | 0x03 => of .mul (two 1) (wregs .v d 1)
  | 0x04 => of .mul (two 1 ++ rv c 1) (wregs .v d 1)
  | 0x0D => of .simple (srcUses m true a 1) (wregs .v d 1)
  | 0x0F => of .simple (two 1 ++ rv c 1) (wregs .v d 1)
  | 0x10 => of .pred (two 1) (wregs .p (d % 8) 1)
  | 0x11 => of .simple (two 1 ++ p3 c false) (wregs .v d 1)
  | 0x12 => of .simple (srcUses m true a 1) (wregs .v d 1)
  | 0x13 => of .simple [] (wregs .v d 1)
  | 0x14 => of .mul (two 2) (wregs .v d 2)
  | 0x15 => of .mul (two 1 ++ rv c 2) (wregs .v d 2)
  | 0x16 => of .fp32 (two 1 ++ rnd) (wregs .v d 1)
  | 0x17 => of .fp32 (two 1 ++ rnd) (wregs .v d 1)
  | 0x18 => of .fp32 (two 1 ++ rnd) (wregs .v d 1)
  | 0x19 => of .fp32 (two 1 ++ rv c 1 ++ rnd) (wregs .v d 1)
  | 0x1A => of .fp32 (two 1) (wregs .v d 1)
  | 0x1B => of .fp32 (two 1) (wregs .v d 1)
  | 0x1C => of .pred (two 1) (wregs .p (d % 8) 1)
  | 0x1D => ⟨two 1 ++ rnd, wregs .v d 1, none⟩
  | 0x1E => ⟨srcUses m true a 1 ++ (if b == 0 then rnd else []), wregs .v d 1, none⟩
  | 0x1F => of .fp64 (two 2 ++ rnd) (wregs .v d 2)
  | 0x20 => of .fp64 (two 2 ++ rnd) (wregs .v d 2)
  | 0x21 => of .fp64 (two 2 ++ rv c 2 ++ rnd) (wregs .v d 2)
  | 0x22 => of .fp32 (two 1 ++ readFmt) (wregs .v d 1)
  | 0x23 => of .fp32 (two 1 ++ readFmt) (wregs .v d 1)
  | 0x24 => of .fp32 (two 1 ++ rv c 1 ++ readFmt) (wregs .v d 1)
  | 0x25 =>
    match fcvtOf b with
    | some (k, n, _, _) =>   -- FUNC 4, 6, 9 and 11 are exact and use no FMT (R123, R152)
      of .conv (srcUses m true a k.regs ++ (if b == 4 || b == 6 || b == 9 || b == 11 then [] else rnd)) (wregs .v d n)
    | none => of .conv [] (wregs .v d 1)
  | 0x26 =>
    let n := if ofmtOf fmt == 3 then 2 else 1
    of .conv (two 1 ++ rv d n ++ readFmt) (wregs .v d n)
  | 0x27 => of .conv (srcUses m true a (if afmtOf fmt == 3 then 2 else 1) ++ readFmt) (wregs .v d 1)
  | 0x28 => of .cross (usesRegs .v true a 1 ++ usesRegs .v true b 1) (wregs .v d 1)
  | 0x29 =>
    let src := p3 a true
    match b with
    | 3 => of .cross src (wregs .v d (width / 32))
    | 4 => of .cross src (wregs .v d 1)
    | 5 => of .cross [] (wregs .v d 1)
    | _ => of .cross src (wregs .p (d % 8) 1)
  | 0x2A => of .cross (usesRegs .v true a 1 ++ (if b % 16 == 8 then rnd else [])) (wregs .v d 1)
  | 0x2B => of .cross (usesRegs .v true a 1 ++ (if b % 16 == 8 then rnd else [])) (wregs .v d 1)
  | 0x2C => of .pred (p3 a false ++ (if d / 8 < 3 then p3 b false else [])) (wregs .p (d % 8) 1)
  | 0x30 => of .scalar (rs sa 1 ++ (if sub == 5 then [] else rs sb 1)) (wregs .s sd 1)
  | 0x31 => of .scalar (rs sa 1 ++ rs sb 1) (wregs .s sd 1)
  | 0x32 => of .scalar (rs sa 1 ++ rs sb 1 ++ rs m.sreg.toNat 1) (wregs .s sd 1)
  | 0x33 => of .scalar [] (wregs .s sd 1)
  | 0x34 => of .scalar (rs sa 1 ++ rs sb 1) (wregs .q (sd % 4) 1)
  | 0x35 => of .scalar (rs sa 1 ++ rs sb 1 ++ usesRegs .q true (sub % 4) 1) (wregs .s sd 1)
  | 0x36 =>
    let n := sa * 64 + sb
    ⟨if n == 0x020 then [⟨.mark, 0, true⟩] else [], wregs .s sd (if n == 0x008 || n == 0x00A then 2 else 1), none⟩
  | 0x37 => of .scalar (rs sd 1) (if sub == 0 && sa * 64 + sb == 0x020 then [(.mark, 0)] else [])
  | 0x38 => of .fmt (if sub == 0 then rs sa 1 else []) [(.fmt, 0)]
  | 0x39 => of .scalar readFmt (wregs .s sd 1)
  | _ => of .simple (two 1) (wregs .v d 1)

/-- The MATRIX words (R168, R177 to R180); TAS blocks are ordered by the queue (R173). -/
def matrixUses (w : Word) (x : Option Word) (fmt : Word) : Uses :=
  let op := (field w 24 6).toNat
  let d := (field w 14 7).toNat
  let a := (field w 7 7).toNat
  let b := (field w 0 7).toNat
  let n := b % 8 + 1
  match op with
  | 4 => ⟨[], [], none⟩
  | 5 => ⟨rv a (16 * n), [], none⟩
  | 6 => ⟨[], wregs .v d (16 * n), none⟩
  | 7 => ⟨readFmt, wregs .v d ((cvtRegs (ofmtOf fmt) n).getD 0), none⟩
  | 8 => ⟨rs (b % 64) 1, [], none⟩
  | 9 => ⟨rs (b % 64) 1, [], none⟩
  | _ =>
    ⟨readFmt ++ rv a (aRegs op) ++ rs (b % 64) 2 ++ (if op == 3 then rs ((x.map (fun l => (MmaLit.of l).mrec.toNat)).getD 0) 2 else []), [], none⟩

/-- The MEMORY words (R207 to R221). -/
def memoryUses (w : Word) (x : Option Word) : Uses :=
  let op := (field w 24 6).toNat
  let d := (field w 14 7).toNat
  let a := (field w 7 7).toNat
  let b := (field w 0 7).toNat
  let sd := (field w 15 6).toNat
  let l := MemLit.of (x.getD 0)
  let n := szRegs l.sz.toNat
  let base := if l.bk == 1 then rs l.base.toNat (if l.space == 0 && op != 2 then 2 else 1) else []
  let addr := base ++ (if l.ix == 1 && op != 1 then rv a 1 else [])
  match op with
  | 0 => ⟨addr, wregs .v d n, none⟩
  | 1 => ⟨addr, wregs .s (d % 64) n, none⟩
  | 2 => ⟨addr, wregs .v d n, none⟩
  | 3 => ⟨addr ++ rv b n, [], none⟩
  | 4 => ⟨addr ++ rv b (if l.disp.toNat / 64 == 9 then 2 * n else n), wregs .v d n, none⟩
  | 5 => ⟨addr ++ rv b n, [], none⟩
  | 6 => ⟨addr, [], none⟩
  | 7 => ⟨rs (field w 9 6).toNat 2, [], none⟩
  | _ => ⟨[], wregs .s sd 2, none⟩

/-- The ASYNC words (R222, R223, R227, R296, R297, R322, R363). -/
def asyncUses (w : Word) (x : Option Word) : Uses :=
  let op := (field w 24 6).toNat
  let d := (field w 14 7).toNat
  let a := (field w 7 7).toNat
  let b := (field w 0 7).toNat
  let sd := (field w 15 6).toNat
  let sa := (field w 9 6).toNat
  let sb := (field w 3 6).toNat
  let sub := (field w 0 3).toNat
  let tl := TreeLit.of (x.getD 0)
  let pair := rs tl.desc.toNat 2
  match op with
  | 0x00 => ⟨rs sa (if sub == 0 then 2 else 1) ++ rs sb 1 ++ rs sd (if sub == 1 then 2 else 1), [], none⟩
  | 0x01 => ⟨rs sa 2 ++ rs sb 2 ++ rs sd 1, [], none⟩
  | 0x02 => ⟨rs sa 1 ++ rs sb 2 ++ rs sd 2, [], none⟩
  | 0x03 => ⟨rs sa 1, wregs .s sd 1, none⟩
  | 0x04 => ⟨[], wregs .s sd 1, none⟩
  | 0x05 => ⟨[], [], none⟩
  | 0x08 => ⟨rs sa 1 ++ rs sd 1, [], none⟩
  | 0x09 => ⟨rv a 4 ++ (if (SpawnLit.of (x.getD 0)).nodereg == 1 then rv b 1 else []), [], none⟩
  | 0x10 => ⟨pair ++ (if tl.ben == 1 then rs tl.boff.toNat 1 else []), wregs .v d 3, none⟩
  | 0x11 => ⟨rv a 3 ++ pair ++ rs tl.boff.toNat 1, wregs .v d 2, none⟩
  | 0x12 => ⟨rv a 1 ++ (if tl.mode == 2 then [] else rv b 1) ++ pair, [], none⟩
  | 0x13 => ⟨rs sa 2 ++ rs sb 1, wregs .s sd 1, none⟩
  | 0x14 => ⟨rv a 1 ++ rs (b % 64) 2, wregs .v d 4, none⟩
  | _ =>
    let l := McLit.of (x.getD 0)
    ⟨rs l.base.toNat 2 ++ (if l.ix == 1 then rv a 1 else []) ++ rv b (szRegs l.sz.toNat) ++ (if l.acken == 1 then rs l.ackr.toNat 1 else []), [], none⟩

/-- The SYNC words (R278, R280, R292 to R294, R336, R343, R346). -/
def syncUses (w : Word) (x : Option Word) : Uses :=
  let op := (field w 24 6).toNat
  let sd := (field w 15 6).toNat
  let sa := (field w 9 6).toNat
  let sb := (field w 3 6).toNat
  match op with
  | 2 => ⟨[], [], none⟩
  | 3 => ⟨(if x.isSome then [] else rs sa 1) ++ rs sb 2, if w.getLsbD 1 then wregs .s sd 2 else [], none⟩
  | 4 => ⟨rs sa 1 ++ rs sb 2, wregs .s sd 1, none⟩
  | 5 => ⟨rs sa 2 ++ rs sb 1, wregs .s sd 1, none⟩
  | 6 => ⟨rs sa 1, wregs .s sd 1, none⟩
  | _ => ⟨[], wregs .s sd 1, none⟩

/-- The CONTROL words (R110 to R115, R248 to R251). -/
def controlUses (w : Word) : Uses :=
  let op := (field w 24 6).toNat
  let d := (field w 14 7).toNat
  let a := (field w 7 7).toNat
  let func := (field w 0 7).toNat
  match op with
  | 0x03 => ⟨rv a 2, [], none⟩
  | 0x05 => ⟨rv a 2, [], none⟩
  | 0x12 =>
    ⟨(match func with
      | 0 => rv a 1
      | 1 => [⟨.p, a % 8, false⟩]
      | 2 => rs (a % 64) 1
      | _ => []), wregs .p (d % 8) 1, none⟩
  | 0x13 => ⟨rs (field w 9 6).toNat 1, wregs .s (field w 15 6).toNat 2, none⟩
  | 0x14 => if func == 1 then ⟨rs (a % 64) 1, wregs .s (d % 64) 1, none⟩ else ⟨rv a 1, wregs .v d 1, none⟩
  | 0x15 => if func == 1 then ⟨rs (a % 64) 1, wregs .s (d % 64) 1, none⟩ else if func == 2 then ⟨[], [], none⟩ else ⟨rv a 1, wregs .v d 1, none⟩
  | _ => ⟨[], [], none⟩

/-- The SYSTEM words (R381 to R384). -/
def systemUses (w : Word) : Uses :=
  let sd := (field w 15 6).toNat
  let n := (field w 9 6).toNat * 64 + (field w 3 6).toNat
  let two := n == 0x002 || n == 0x004 || n == 0x00C || n == 0x00E
  match (field w 24 6).toNat with
  | 3 => ⟨[], wregs .s sd (if two then 2 else 1), none⟩
  | 4 => ⟨rs sd (if two then 2 else 1), [], none⟩
  | _ => ⟨[], [], none⟩

/-- The predicate or uniform predicate that a word tests (R74); `NOP` ignores its bits 23:0 (R114). -/
def testUses (c : Cls) (w : Word) : List RegUse :=
  let n := (field w 21 3).toNat
  if n == 7 || (c == .control && (field w 24 6).toNat == 0) then [] else if readsQual c (field w 24 6).toNat then [⟨.q, n, true⟩] else [⟨.p, n, false⟩]

/-- The registers of a word of a class. -/
def usesOf (c : Cls) (w : Word) (x : Option Word) (fmt : Word) (width : Nat) : Uses :=
  let u := match c with
    | .alu => aluUses w x fmt width
    | .matrix => matrixUses w x fmt
    | .memory => memoryUses w x
    | .async => asyncUses w x
    | .sync => syncUses w x
    | .control => controlUses w
    | .system => systemUses w
  { u with reads := testUses c w ++ u.reads, writes := u.writes.filter (fun e => e != (.p, 7)) }

/-- Whether a word names a register. -/
def Uses.names (u : Uses) (f : RFile) (r : Nat) : Bool :=
  u.reads.any (fun e => e.file == f && e.reg == r) || u.writes.contains (f, r)

end Sys2Proof.Machine
end

