-- ==== Sys2Proof/Machine/Ready.lean ====
section
/-! DEFINITION. When a split is ready to issue its next word (R72, R96, R97, R204, R229): what it waits for, the registers held from it, and
the arbitration of its pipe. -/
namespace Sys2Proof.Machine

/-! ### What a waiting word waits for (R227, R276, R294) -/

def barKey (level num : Nat) : Nat := 16 * level + num

/-- The barriers of a level that the group is a member of. -/
def levelBars (s : State) (x : Group) (level : Nat) : List (Nat × Barrier) :=
  match level, s.teamOf x with
  | 0, some t => t.bars
  | 1, some t => ((t.tuple.bind (Map.find s.tuples)).map (·.bars)).getD []
  | _, _ => ((s.gridOf x).map (·.bars)).getD []

def barOf (s : State) (x : Group) (level num : Nat) : Barrier := Map.get Barrier.zero (levelBars s x level) num

/-- AP of a barrier: the phase of the group's last arrival (R277). -/
def apOf (x : Group) (level num : Nat) : Option Nat := Map.find x.ap (barKey level num)

/-- Whether the play of a group's log has been issued and has not completed (R344). -/
def Group.playing (x : Group) : Bool := x.paths.any (fun p => p.2.ops.any (fun o => o.played && !o.done))

/-- The value of a context's signal (R33). -/
def State.sigVal (s : State) (ctx n : Nat) : BitVec 64 := ((Map.find s.ctxs ctx).map (fun c => Map.get 0 c.signals n)).getD 0

/-- Whether every group of the team that has not ended has arrived at its fork rendezvous (R337). -/
def allArrived (s : State) (t : Team) : Bool :=
  t.groups.all (fun g => (s.grp g).ended || t.forks.any (fun a => a.gid == g))

/-- Whether what a split waits for has come. -/
def waitMet (s : State) (x : Group) (w : Wait) : Bool :=
  match w with
  | .path k h => decide ((x.path k).ops.length ≤ h)
  | .signal n cond cmp => signalCond cond (s.sigVal x.ctx n) cmp
  | .signalMet => true
  | .barrier level num phase => let b := barOf s x level num; b.phase != phase || b.broken
  | .drain => x.paths.all (fun p => p.2.ops.isEmpty)
  | .rendezvous isOver => isOver || ((s.teamOf x).map (allArrived s)).getD true
  | .parked => x.service.isSome
  | .chooseStep _ _ => true
  | .choose g _ =>
    !s.plays.any (fun p => p.gid == g) && !x.playing

/-- The context has been asked to be abandoned (R386). -/
def abandoned (s : State) (x : Group) : Bool := ((s.ctxOf x).map (·.abandon)).getD false

/-! ### Words and their registers -/

/-- The quarantine buffer of a region that a trap has put aside (R377). -/
def Group.savedQb (x : Group) : List Store := (x.saved.map (·.region.qb)).getD []

/-- Whether access number `d` of the group has yet to complete. -/
def Group.open_ (x : Group) (d : Nat) : Bool :=
  x.egress.any (fun q => q.seq == d) || x.region.qb.any (fun q => q.seq == d) || x.savedQb.any (fun q => q.seq == d)
    || x.paths.any (fun p => p.2.ops.any (fun o => o.seq == d && !o.done))

/-- A synchronous word is not ready while an `XFENCE` to the synchronous path waits (R229). -/
def Group.syncHeld (x : Group) : Bool := x.xfences.any (fun f => f.toPath == 6 && f.deps.any x.open_)

/-- Whether a core holds a live matrix lease. -/
def leaseLive (s : State) (core : Nat) : Bool := ((s.coreOf core).lease.map (fun t => decide (s.time < t))).getD false

/-- A word of a clause as a split comes to it: its class, the word and its extension word, its PC, and where the path goes on. -/
structure NextWord where
  cls : Cls
  word : Word
  x : Option Word
  pc : BitVec 64
  next : BitVec 64
  nextHdr : BitVec 64
deriving DecidableEq, Repr

/-- The header that follows a clause (R71). -/
def afterClause (hdr : BitVec 64) (h : Header) : BitVec 64 := hdr + BitVec.ofNat 64 (4 + 4 * h.count)

/-- The position in its clause of the word that a split comes to: word 0 while its PC is the header's (R69, R72). -/
def wordIndex (pc hdr : BitVec 64) : Nat := if pc == hdr then 0 else (pc - hdr).toNat / 4 - 1

/-- The word at a split's PC; none where its clause holds no instruction word there. -/
def nextWord (sp : Split) (c : Clause) : Option NextWord :=
  let h := Header.of c.hdr
  let k := wordIndex sp.pc sp.hdr
  if h.count ≤ k || (k != 0 && h.xmask.getLsbD k) then none
  else
    match h.cls, c.words[k]? with
    | some cls, some w =>
      let hasX := h.xmask.getLsbD (k + 1)
      let j := if hasX then k + 2 else k + 1
      let at_ := fun (i : Nat) => sp.hdr + BitVec.ofNat 64 (4 + 4 * i)
      some { cls := cls, word := w, x := if hasX then c.words[k + 1]? else none, pc := at_ k,
             next := if h.count ≤ j then afterClause sp.hdr h else at_ j, nextHdr := if h.count ≤ j then afterClause sp.hdr h else sp.hdr }
    | _, _ => none

/-- The opcode of a word. -/
def opOf (w : Word) : Nat := (field w 24 6).toNat

/-- The path whose counter a word would raise (R204, R217). -/
def pathTaken (x : Group) (n : NextWord) : Option Nat :=
  match n.cls with
  | .async =>
    match opOf n.word with
    | 0x00 => some pathCpy
    | 0x01 => some pathGat
    | 0x02 => some pathGat
    | 0x08 => some pathWrk
    | 0x09 => some pathWrk
    | 0x0C => some pathFab
    | 0x0D => some pathFab
    | 0x10 => some pathTre
    | 0x11 => some pathTre
    | 0x12 => some pathTre
    | 0x13 => some pathTre
    | 0x14 => some pathTre
    | _ => none
  | .memory =>
    let l := MemLit.of (n.x.getD 0)
    if opOf n.word == 5 && l.space == 0 && 3 ≤ l.scope.toNat && !x.region.opened then some pathRed else none
  | _ => none

/-- The registers that the other split's waiting word is still to write, and those that operations in flight are (R81). -/
def heldRegs (x : Group) (slot : Nat) : List (RFile × Nat) :=
  let ops := x.paths.flatMap (fun p => p.2.ops.flatMap (fun o => if o.done then [] else o.regs))
  let other := match x.split (1 - slot) with
    | some sp =>
      match sp.wait, sp.clause.bind (nextWord sp) with
      | some _, some n => (usesOf n.cls n.word n.x sp.fmt x.width).writes
      | _, _ => []
    | none => []
  ops ++ other

/-- Registers that the matrix queue is still to write for a group (R173). -/
def queueRegs (s : State) (g : Nat) (core : Nat) : List (RFile × Nat) :=
  ((s.coreOf core).mxq.filter (fun e => e.gid == g)).flatMap (fun e => match e.op with
    | .store d _ n _ => wregs .v d (16 * n)
    | .convert d _ n _ _ _ => wregs .v d ((cvtRegs (ofmtOf e.fmt) n).getD 0)
    | _ => [])

/-- Registers of the group for which the scoreboard holds a result (R81): those owed to it, and those that operations in flight, the other
split's waiting word or the matrix queue are still to write. -/
def scoreboard (s : State) (g : Nat) (x : Group) (slot : Nat) : List (RFile × Nat) :=
  x.board.flatMap (fun ws => ws.map (fun w => (w.file, w.reg))) ++ heldRegs x slot ++ queueRegs s g x.core

/-- A CONTROL word that may commit, release or leave the group. -/
def mayCommit (n : NextWord) : Bool := n.cls == .control && !(opOf n.word < 8 || opOf n.word == 9)

/-- The holder of a cluster barrier of the group, the core of cluster rank 0, has been captured by a forced save, and the group has not
(R276, R286). -/
def holderSaved (s : State) (x : Group) (level : Nat) : Bool :=
  level == 1 && x.resident && (match (s.teamOf x).bind (·.tuple) with
    | some k => s.teams.any (fun e => e.2.tuple == some k && e.2.crank == 0 && !e.2.resident)
    | none => false)

/-- A context's arrival log is full (R286). -/
def alogFull (s : State) (ctx : Nat) : Bool := ((Map.find s.ctxs ctx).map (fun c => decide (c.alogLen ≤ c.alog.length))).getD true

/-- A `BAR` that would arrive at a captured holder while the arrival log is full: it does not arrive, and stays at its word to arrive after
the restore (R286). -/
def barKept (s : State) (x : Group) (n : NextWord) : Bool :=
  n.cls == .sync && opOf n.word == 0 && (field n.word 0 3).toNat % 2 == 0 && holderSaved s x (field n.word 13 2).toNat && alogFull s x.ctx

/-- A word that needs the die's link (R201): a memory, asynchronous or synchronising word, and one that may release quarantined stores. -/
def needsLink (x : Group) (n : NextWord) : Bool :=
  n.cls == .memory || n.cls == .async || n.cls == .sync || (mayCommit n && x.region.opened && !x.region.qb.isEmpty)

/-- Whether a word may issue beside what is in flight (R81, R96, R204, R229); on a sleeping die no request can be made (R201). A matrix
word is not ready while the array is busy: its queue is full (R97, R173). -/
def wordReady (s : State) (g : Nat) (x : Group) (slot : Nat) (sp : Split) (n : NextWord) : Bool :=
  let u := usesOf n.cls n.word n.x sp.fmt x.width
  let path := pathTaken x n
  !(scoreboard s g x slot).any (fun e => u.names e.1 e.2)
    && (n.cls != .matrix || decide ((s.coreOf x.core).mxq.length < 4))
    && (match path with | some k => decide ((x.path k).ops.length < 255) | none => true)
    && !(n.cls == .memory && path.isNone && x.syncHeld)
    && !(needsLink x n && (s.dieAt (dieOf x.core)).asleep) && !barKept s x n

/-- The waits that a clause header names (R69, R72): M for the group's words in the matrix queue, PMASK.sync for every result still owed to it
(its stores have been accepted as they issue, R205), and the six counters. -/
def headerMet (s : State) (g : Nat) (x : Group) (h : Header) : Bool :=
  (!h.m || !(s.coreOf x.core).mxq.any (fun e => e.gid == g)) && (!h.pmask.getLsbD 6 || x.board.isEmpty)
    && (List.range 6).all (fun k => !h.pmask.getLsbD (5 - k) || (x.path k).ops.isEmpty)

/-- A header's waits, and leave for a MATRIX-class clause (R65, R72). -/
def headerReady (s : State) (g : Nat) (x : Group) (h : Header) : Bool :=
  headerMet s g x h && (h.cls != some .matrix || leaseLive s x.core)

/-- Whether a waiting split's word has something to do: what it waits for has come, its deadline has passed, or its context is being
abandoned (R227, R278, R294, R386). A parked split waits for its service (R246). -/
def waitOver (s : State) (x : Group) (sp : Split) (w : Wait) : Bool :=
  sp.expired || waitMet s x w || (abandoned s x && (match w with
    | .path _ _ => true
    | .signal _ _ _ => true
    | .signalMet => true
    | .barrier _ _ _ => true
    | _ => false))

/-- Whether the split in a slot is ready (R96): its stall count has elapsed, and its next word has passed the waits of its header and finds
its registers free. One that has yet to fetch its clause is not; one that waits runs its waiting phase when it has come back to a slot
(R103). -/
def splitReady (s : State) (g slot : Nat) : Bool :=
  let x := s.grp g
  match x.split slot with
  | none => false
  | some sp =>
    if x.ended || !x.resident || sp.wait == some .parked || decide (s.time < sp.due) then false
    else
      match sp.clause with
      | none => false
      | some c =>
        match sp.wait with
        | some w => sp.again || waitOver s x sp w
        | none =>
          match nextWord sp c with
          | none => true
          | some n => (sp.pc != sp.hdr || headerReady s g x (Header.of c.hdr)) && wordReady s g x slot sp n

/-- The slot of a group that issues next: of two ready splits the one that issued less recently (R97); of two that came from one split since,
the one that did not issue last. -/
def slotToIssue (s : State) (g : Nat) : Option Nat :=
  let x := s.grp g
  let ran := fun (k : Nat) => ((x.split k).map (·.ran)).getD 0
  let first := if ran 0 < ran 1 then 0 else if ran 1 < ran 0 then 1 else 1 - x.last
  if splitReady s g first then some first else if splitReady s g (1 - first) then some (1 - first) else none

/-- No word still has passes to make on a pipe (R96). -/
def pipeFree (s : State) (core pipe : Nat) : Bool := decide (Map.get 0 (s.coreOf core).busy pipe ≤ s.time)

/-- The group of a pipe that issues next, with its slot: the oldest ready one, once the pipe is free (R96, R97). -/
def pipeIssue (s : State) (core pipe : Nat) : Option (Nat × Nat) :=
  if pipeFree s core pipe then
    (s.coreOf core).order.findSome? (fun g => if (s.grp g).pipe == pipe then (slotToIssue s g).map (fun k => (g, k)) else none)
  else none

/-- Whether the split in a slot issues at this clock. -/
def selected (s : State) (g slot : Nat) : Bool := pipeIssue s (s.grp g).core (s.grp g).pipe == some (g, slot)

end Sys2Proof.Machine
end

