-- ==== Sys2Proof/Machine/Splits.lean ====
section
/-! DEFINITION. Splits, the split-stack area, reconvergence, calls and the end of a group (R94 to R107, R399). -/
namespace Sys2Proof.Machine

/-! ### The area and its image (R99, R100) -/

/-- A link as the area holds it: 0xFFFF = none. -/
def linkBits : Option Nat → Nat
  | none => 0xFFFF
  | some n => n % 2 ^ 16

/-- The 512 bits of an entry (R100). -/
def PoolEntry.image : PoolEntry → Nat
  | .spilled s older newer _ =>
    s.mask.toNat <<< 384 ||| s.pc.toNat <<< 320 ||| s.hdr.toNat <<< 256 ||| s.fmt.toNat <<< 224 ||| linkBits s.rel <<< 208
      ||| linkBits s.frl <<< 192 ||| linkBits older <<< 176 ||| linkBits newer <<< 160 ||| s.depth <<< 152 ||| ofBool s.wph <<< 4 ||| 1
  | .reconv ex ar rpc rhdr fmt parent frl depth callre _ _ =>
    ex.toNat <<< 384 ||| ar.toNat <<< 256 ||| rpc.toNat <<< 192 ||| rhdr.toNat <<< 128 ||| fmt.toNat <<< 96
      ||| linkBits parent <<< 80 ||| linkBits frl <<< 64 ||| depth <<< 56 ||| ofBool callre <<< 4 ||| 2
  | .frame pc hdr prev refs => pc.toNat <<< 128 ||| hdr.toNat <<< 64 ||| linkBits prev <<< 48 ||| (refs % 2 ^ 16) <<< 32 ||| 3
  | .free next => linkBits next <<< 16

/-- The virtual address of an area entry of a group (R25, R99). -/
def areaAddr (s : State) (x : Group) (e : Nat) : Nat :=
  match s.teamOf x with
  | none => 0
  | some t => (t.desc.ssbase.toNat + (t.vcore * 64 + x.slot) * t.desc.sspg * 64 + 64 * e) % 2 ^ 64

/-- Why the area access of an entry fails, if it does (R107). -/
def areaFail (s : State) (x : Group) (e : Nat) : Option Cause :=
  match s.ctxOf x with
  | none => none
  | some c =>
    match translate s c .write (areaAddr s x e) 0 with
    | .error f => some (if f.cause == .pageProt then .pageProt else if f.cause == .eccMem || f.cause == .eccCache then .eccMem else .pageMiss)
    | .ok t =>
      let bad := fun (h : Nat) => match t.place with
        | .dev k => (s.baseSector (k / 32 + h)).token.isSome
        | .host p a => (match s.hostSector (hostKey p a / 32 + h) with
          | .ok y => y.token.isSome
          | .error _ => true)
        | _ => false
      if bad 0 || bad 1 then some .eccMem else none

/-- A place some bytes further on. -/
def Place.plus (p : Place) (n : Nat) : Place :=
  match p with
  | .dev k => .dev (k + n)
  | .host t a => .host t (a + n)
  | .peer t o => .peer t (o + n)
  | .scr t o => .scr t (o + n)

/-- The memory image of every entry ever allocated is made current (R99): ordinary stores to the root view, wherever the area is mapped.
Between two such points the area's bytes stay as the last image left them (DESIGN CHOICE, log entry 49). -/
def writeArea (s : State) (g : Nat) : State :=
  let x := s.grp g
  x.pool.foldl (fun s e =>
    match s.ctxOf x with
    | none => s
    | some c =>
      match translate s c .write (areaAddr s x e.1) 0 with
      | .ok t =>
        let half := fun (s : State) (h : Nat) =>
          (checkedBytes s x.ctx 0 (freeKey s.draws 21 (e.1 % 128)) (t.place.plus (32 * h))
            ((List.range 32).map (fun i => (i, BitVec.ofNat 8 (bits e.2.image (256 * h + 8 * i) 8)))) none).1
        half (half s 0) 1
      | .error _ => s) s

/-- An entry's place for allocation: the head of the free chain, or index SSHW (R99); `none` when the area is full. -/
def Group.allocAt (x : Group) (sspg : Nat) : Option (Nat × Group) :=
  match x.ssfree with
  | some e =>
    match Map.find x.pool e with
    | some (.free n) => some (e, { x with ssfree := n })
    | _ => some (e, { x with ssfree := none })
  | none => if x.sshw < sspg then some (x.sshw, { x with sshw := x.sshw + 1 }) else none

/-- An entry is pushed on the free chain (R99). -/
def Group.freeAt (x : Group) (e : Nat) : Group := { x with pool := Map.put x.pool e (.free x.ssfree), ssfree := some e }

/-- One reference more to a call frame. -/
def Group.incRef (x : Group) : Option Nat → Group
  | none => x
  | some e =>
    match Map.find x.pool e with
    | some (.frame pc hdr prev refs) => { x with pool := Map.put x.pool e (.frame pc hdr prev (refs + 1)) }
    | _ => x

/-- One reference less; a frame whose REFS reaches 0 is freed, and so on up the chain (R100). -/
def Group.decRef (x : Group) : Nat → Option Nat → Group
  | 0, _ => x
  | _, none => x
  | f + 1, some e =>
    match Map.find x.pool e with
    | some (.frame pc hdr prev refs) =>
      if refs ≤ 1 then (x.freeAt e).decRef f prev else { x with pool := Map.put x.pool e (.frame pc hdr prev (refs - 1)) }
    | _ => x

/-- The longest chain of frames there can be. -/
def chainFuel : Nat := 65536

/-- The frame's reference dropped, with all the chain it frees. -/
def Group.drop (x : Group) (frl : Option Nat) : Group := x.decRef (x.pool.length + 1) frl

/-! ### The end of a group (R399) -/

/-- The side-table entries of a group are freed (R232). -/
def freeSide (s : State) (g : Nat) : State :=
  let x := s.grp g
  s.updCore x.core (fun c => { c with side := c.side.filter (fun e => e.2.gid != g) })

/-- The entry of the group's first orphaned token is copied when the group ends; a stale or overwritten one is not (R403). -/
def copyOrphan (s : State) (g : Nat) : State :=
  let x := s.grp g
  let entry := fun (t : Word) => (Map.find (s.coreOf x.core).side (tokIndex t)).bind (fun e => if e.token == t then some e else none)
  match s.teamOf x with
  | none => s
  | some t => s.updGrid t.grid (fun r => { r with orph := r.orph.map (fun e => if e.gid == g then { e with entry := entry e.token } else e) })

/-- What is left of a group that has ended (R399). -/
def Group.isOver (x : Group) : Group :=
  { x with
    live := 0
    s0 := none
    s1 := none
    oldest := none
    newest := none
    pool := []
    v := []
    s := []
    p := []
    q := []
    x := []
    tas := []
    region := .closed
    saved := none
    board := []
    service := none
    asked := false
    ended := true }

/-- The group ends (R399): its slot, registers, TAS and QB return to the core, its side-table entries are freed, a pending
`GETWORK` is withdrawn. `cond` is the condition of R402 it meets, by XSTAT − 1, beside an orphaned token. -/
def endGroup (s : State) (g : Nat) (cond : Option Nat) : State :=
  let x := s.grp g
  if x.ended then s
  else
    let s := withdraw (freeSide (writeArea (copyOrphan s g) g) g) g
    let s := match s.teamOf x with
      | none => s
      | some t => s.updGrid t.grid (fun r =>
          { r with cond := r.cond ||| (if x.orphan.isSome then 1 else 0) ||| (match cond with | some n => BitVec.ofNat 5 (2 ^ n) | none => 0) })
    let s := s.updCore x.core (fun c => { c with order := c.order.filter (fun h => h != g) })
    sweepLost (s.updGrp g Group.isOver)

/-- A group whose view is lost ends: its orphaned tokens are discarded, and what it has in flight in a lost view is dropped
(R345). -/
def endLost (s : State) (g : Nat) : State :=
  let x := s.grp g
  let lost := fun (v : Nat) => (Map.find s.views v).map (·.state) == some 3
  let s := match s.teamOf x with
    | none => s
    | some t => s.updGrid t.grid (fun r => { r with orph := r.orph.filter (fun e => e.gid != g) })
  endGroup (s.updGrp g (fun x => { x with
    orphan := none
    egress := x.egress.filter (fun q => !lost q.view)
    paths := x.paths.map (fun p => (p.1, { p.2 with ops := p.2.ops.filter (fun o => !lost o.view || (match o.kind with | .getwork .. => true | _ => false)) })) })) g none

/-- Lanes leave EXPECTED of an entry. -/
def PoolEntry.unexpect (m : Mask) : PoolEntry → PoolEntry
  | .reconv ex ar rpc rhdr fmt parent frl depth callre born cont => .reconv (ex &&& ~~~m) ar rpc rhdr fmt parent frl depth callre born cont
  | e => e

/-- The pending entries left with ARRIVED = EXPECTED, most recently created first (R105). In a trap handler, the entries of the
interrupted splits wait until the group resumes (R377, R382). -/
def dueEntries (x : Group) : List Nat :=
  let lo := (x.saved.map (·.sshw)).getD 0
  let l := x.pool.filterMap (fun e => match e.2 with
    | .reconv ex ar _ _ _ _ _ _ _ born _ => if ex == ar && lo ≤ e.1 then some (born, e.1) else none
    | _ => none)
  (l.foldl (fun m e => Map.put m e.1 e.2) []).reverse.map (·.2)

/-- Every lane of the group has executed `EXIT` (R105, R107): its splits, live or spilled, give up their frames and their entries, and the
reconvergence entries left complete are freed. -/
def Group.exitAll (x : Group) : Group :=
  let out : Group :=
    { x with live := 0, s0 := none, s1 := none, pool := x.pool.map (fun e => (e.1, e.2.unexpect (BitVec.allOnes 128))) }
  let slots := ([x.s0, x.s1].filterMap id).foldl (fun (y : Group) (sp : Split) => y.drop sp.frl) out
  let spilled := slots.pool.foldl (fun (y : Group) e => match e.2 with
    | .spilled sp _ _ _ => (y.freeAt e.1).drop sp.frl
    | _ => y) { slots with oldest := none, newest := none }
  (dueEntries spilled).foldl (fun (y : Group) e => match Map.find y.pool e with
    | some (.reconv _ _ _ _ _ _ frl _ _ _ _) => (y.freeAt e).drop frl
    | _ => y) spilled

/-- The sectors whose errors the access of an area entry has met are stamped with its token (R107, R252). -/
def stampArea (s : State) (x : Group) (e : Nat) (t : Word) : State :=
  match s.ctxOf x with
  | none => s
  | some c =>
    let own := match translate s c .write (areaAddr s x e) 0 with
      | .ok ⟨.dev k, _, _, _⟩ => [k / 32, k / 32 + 1]
      | _ => []
    ((walkSectors s c (areaAddr s x e) ++ own).filter s.latent).foldl (fun s k => s.stamp k t) s

/-- The area cannot give an entry: the group ends with an orphaned token of subcode SPLIT_STACK, every lane having exited, without the
implicit commit (R107). -/
def splitStackFail (s : State) (g : Nat) (c : Cause) (e : Option Nat) (pc : BitVec 64) (lane : Nat) : State :=
  let (s, t) := newEntry s g pc { cause := c, detail := .splitStack } lane
  let s := match c == .eccMem, e with
    | true, some e => stampArea s (s.grp g) e t
    | _, _ => s
  endGroup ((orphan s g t).updGrp g Group.exitAll) g none

/-- An entry allocated and filled; `none` when the group has ended for want of one. -/
def alloc (s : State) (g : Nat) (pc : BitVec 64) (lane : Nat) (e : PoolEntry) : State × Option Nat :=
  let x := s.grp g
  match x.allocAt (((s.teamOf x).map (·.desc.sspg)).getD 0) with
  | none => (splitStackFail s g .malformed none pc lane, none)
  | some (i, y) =>
    match areaFail s x i with
    | some c => (splitStackFail s g c (some i) pc lane, none)
    | none => (s.updGrp g (fun _ => { y with pool := Map.put y.pool i e }), some i)

/-! ### Placing splits (R101, R103) -/

/-- The entry's links to its older and newer neighbours changed. -/
def setNewer (x : Group) (e : Option Nat) (n : Option Nat) : Group :=
  match e with
  | none => x
  | some e =>
    match Map.find x.pool e with
    | some (.spilled s o _ t) => { x with pool := Map.put x.pool e (.spilled s o n t) }
    | _ => x

/-- The same for the older neighbour. -/
def setOlder (x : Group) (e : Option Nat) (n : Option Nat) : Group :=
  match e with
  | none => x
  | some e =>
    match Map.find x.pool e with
    | some (.spilled s _ m t) => { x with pool := Map.put x.pool e (.spilled s n m t) }
    | _ => x

/-- A split as it leaves its slot (R72, R104): a word that has performed nothing issues afresh, one that only waits runs its waiting phase
again, and a timeout starts again. -/
def Split.restart (sp : Split) : Split :=
  { sp with
    clause := none
    deadline := none
    expired := false
    again := sp.again || (sp.wait.isSome && sp.wait != some .parked)
    waited := if sp.again then sp.waited else sp.wait.map (fun w => (w, sp.deadline.isNone && !sp.expired))
    wait := if sp.wph then sp.wait else none }

/-- A split is spilled as the newest (R101). What it has recorded of a wait goes with it (R104). -/
def spill (s : State) (g : Nat) (sp : Split) : State :=
  let x := s.grp g
  match alloc s g sp.pc (lowest sp.mask) (.spilled sp.restart x.newest none s.time) with
  | (s, none) => s
  | (s, some e) =>
    s.updGrp g (fun x => let x := setNewer x x.newest (some e)
      { x with newest := some e, oldest := some (x.oldest.getD e) })

/-- Whether the split in a slot is ready at this clock (R96, R101): of one whose clause is still being fetched, whether the fetch has just
come is free (log entry 14); it is then ready where its header's waits and its registers let it be. -/
def readyNow (s : State) (g slot key : Nat) : Bool :=
  let sp := s.spl g slot
  if sp.clause.isNone && sp.wait.isNone && decide (sp.due ≤ s.time) then
    Config.freeBit key && (match (codeClause s g sp.hdr.toNat).2 with
      | .ok c => splitReady (s.updSpl g slot (fun sp => { sp with clause := some c })) g slot
      | .error _ => false)
  else splitReady s g slot

/-- When the first word at a taken target, a return address or a merged split's continuation issues at the earliest: 6 clocks after the last
pass of the word that transfers (R109). -/
def State.landing (s : State) (g : Nat) : Nat := s.time + 10 * ((s.grp g).width / 32 + 5)

/-- The placement rule of R101, for a new split beside the one in `slot`. With both slots free, which the rule leaves open, it takes slot 0
(DESIGN CHOICE, log entry 50). -/
def placeSplit (s : State) (g slot : Nat) (sp : Split) : State :=
  let x := s.grp g
  let sp := { sp with took := s.time, idle := s.time }
  if x.ended then s
  else if x.s0.isNone then s.updGrp g (fun x => { x with s0 := some sp })
  else if x.s1.isNone then s.updGrp g (fun x => { x with s1 := some sp })
  else
    let other := 1 - slot
    match x.split other with
    | none => s
    | some o =>
      let s := { s with draws := s.draws + 1 }
      if readyNow s g other (freeKey s.draws 11 0) then spill s g sp
      else spill (s.updGrp g (fun x => x.setSplit other (some sp))) g o

/-- The newest spilled split taken from the list, its entry freed (R103). -/
def Group.takeNewest (x : Group) : Option (Split × Group) :=
  match x.newest with
  | none => none
  | some e =>
    match Map.find x.pool e with
    | some (.spilled s older _ _) =>
      let x := setNewer (x.freeAt e) older none
      some (s, { x with newest := older, oldest := if older.isNone then none else x.oldest })
    | _ => none

/-- Free slots take the newest spilled splits (R103). -/
def refill (s : State) (g : Nat) : State :=
  let one := fun (s : State) =>
    let x := s.grp g
    if x.ended || (x.s0.isSome && x.s1.isSome) then s
    else
      match x.takeNewest with
      | none => s
      | some (sp, y) =>
        s.updGrp g (fun _ => y.setSplit (if x.s0.isNone then 0 else 1) (some { sp with took := s.time, idle := s.time }))
  one (one s)

/-- The split that an entry's completion forms (R102). The distances owed go on along the path, but for a `JOIN` that merges splits: after it
they start afresh (R78); a merge orders what its splits wrote, and of other splits' writes it leaves those of lanes outside it (R132). It
counts as having issued at the merge, so that the group's other split goes first (R97 names no issue of it: DESIGN CHOICE, log entry 50). -/
def mergedSplit (e : PoolEntry) (join : Bool) (now landing : Nat) : Option Split :=
  match e with
  | .reconv _ ar rpc rhdr fmt parent frl depth callre _ cont =>
    let p := cont.getD ⟨rpc, rhdr, 0, 0, []⟩
    let (pc, hdr) := if callre then (rpc, rhdr) else (p.pc, p.hdr)
    let fresh := join && decide (2 ≤ p.n)
    let kept := p.haz.filter (fun h => if h.foreign then p.n < 2 || h.lanes &&& ~~~ar != 0 else !fresh)
    some { Split.blank with
      pc := pc, hdr := hdr, mask := ar, depth := depth, fmt := fmt, rel := parent, frl := frl, since := now, due := landing, ran := now
      dist := if fresh then 0 else p.dist
      haz := if fresh then kept.map (fun h => { h with at_ := 0 }) else kept }
  | _ => none

/-- The program order of a merged split is that of every split that it joins: what waits to perform precedes it for all (R262). -/
def Group.joinOrder (x : Group) (m : Mask) : Group :=
  let more := fun (q : Store) => if q.mask &&& m != 0 then { q with mask := q.mask ||| m } else q
  { x with egress := x.egress.map more, region := { x.region with qb := x.region.qb.map more } }

/-- An entry with ARRIVED = EXPECTED completes (R102): its merged split is placed as the last new split beside `slot`, and takes a free slot
before any spilled split does (log entry 50); then the entry is freed. `join` where a `JOIN` completes it. -/
def completeEntry (s : State) (g slot e : Nat) (join : Bool) : State :=
  match Map.find (s.grp g).pool e with
  | some (.reconv ex ar rpc rhdr fmt parent frl depth callre born cont) =>
    if ex != ar then s
    else
      let s := match mergedSplit (.reconv ex ar rpc rhdr fmt parent frl depth callre born cont) join s.time (s.landing g) with
        | some sp => if ex == 0 then s else placeSplit (s.updGrp g (fun x => (x.joinOrder ar).incRef frl)) g slot sp
        | none => s
      if (s.grp g).ended then s else s.updGrp g (fun x => (x.freeAt e).drop frl)
  | _ => s

/-- A split joins what has arrived: the distances of all are counted from one number (R78). -/
def Parked.join (c : Option Parked) (sp : Split) (cont : BitVec 64 × BitVec 64) : Parked :=
  let p := c.getD ⟨cont.1, cont.2, 0, 0, []⟩
  let d := max p.dist sp.dist
  let shift := fun (n : Nat) (h : Hazard) => { h with at_ := h.at_ + (d - n) }
  { p with n := p.n + 1, dist := d, haz := p.haz.map (shift p.dist) ++ sp.haz.map (shift sp.dist) }

/-- A split arrives at an entry (R102): its slot, if it holds one, is freed by the caller. -/
def PoolEntry.arrive (sp : Split) (cont : BitVec 64 × BitVec 64) : PoolEntry → PoolEntry
  | .reconv ex ar rpc rhdr fmt parent frl depth callre born c =>
    let ar2 := ar ||| sp.mask
    .reconv ex ar2 rpc rhdr (if inMask sp.mask (lowest ar2) then sp.fmt else fmt) parent frl depth callre born (some (Parked.join c sp cont))
  | e => e

/-- Lanes exit (R105): they leave the live mask, every split and every EXPECTED; a split left empty frees its slot and its
frame reference; entries left complete do so, most recent first; free slots are refilled; an empty live mask ends the group. -/
def exitLanes (s : State) (g slot : Nat) (m : Mask) (cond : Option Nat) : State :=
  let clear := fun (x : Group) (k : Nat) =>
    match x.split k with
    | none => x
    | some sp =>
      let mk := sp.mask &&& ~~~m
      if mk == 0 then (x.setSplit k none).drop sp.frl else x.setSplit k (some { sp with mask := mk })
  let s := s.updGrp g (fun x =>
    let x := { x with live := x.live &&& ~~~m, pool := x.pool.map (fun e => (e.1, e.2.unexpect m)) }
    clear (clear x 0) 1)
  let s := (dueEntries (s.grp g)).foldl (fun s e => completeEntry s g slot e false) s
  let s := refill s g
  if (s.grp g).live == 0 then endGroup s g cond else s

/-! ### Divergence (R101) -/

/-- New splits are placed in order of their lowest lane. -/
def placeAll (s : State) (g slot : Nat) (l : List Split) : State := l.foldl (fun s sp => placeSplit s g slot sp) s

/-- Lanes grouped by target, in order of each target's lowest lane. -/
def byTarget (l : List (Nat × BitVec 64)) : List (BitVec 64 × Mask) :=
  ((l.map (·.2)).eraseDups).map (fun t => (t, maskOf ((l.filter (fun e => e.2 == t)).map (·.1))))

/-- The split of a branch's target: distances go on along the path, and it issues no earlier than `landing` (R109). -/
def Split.goto (sp : Split) (t : BitVec 64) (m : Mask) (landing : Nat) : Split :=
  { sp with pc := t, hdr := t, mask := m, clause := none, due := max sp.due landing }

/-- `Diverge` (R101): lanes `ts` go to their targets; `rp` is the named reconvergence header, if there is one. -/
def diverge (s : State) (c : Cur) (ts : List (BitVec 64 × Mask)) (rp : Option (BitVec 64)) : State :=
  let g := c.gid
  let sp := s.spl g c.slot
  let S := sp.mask
  let T := ts.foldl (fun m e => m ||| e.2) (0 : Mask)
  let fmt := (wxOf c s).fmt   -- a diverging word reads FMT (R79)
  let entry : PoolEntry := .reconv S 0 (rp.getD 0) (rp.getD 0) fmt sp.rel sp.frl sp.depth false (s.grp g).born none
  let (s, ok) := match rp with
    | none => (s, true)
    | some _ =>
      match alloc s g c.pc (lowest S) entry with
      | (s, none) => (s, false)
      | (s, some e) =>
        (s.updGrp g (fun x => ({ x with born := x.born + 1 }.incRef sp.frl).updSplit c.slot (fun y => { y with rel := some e })), true)
  if !ok then s
  else
    let sp := s.spl g c.slot
    let rest := S &&& ~~~T
    let land := s.landing g
    let (own, news) := if rest != 0 then (({ sp with mask := rest } : Split), ts) else
      match ts with
      | [] => (sp, [])
      | (t, m) :: l => (sp.goto t m land, l)
    let s := s.updGrp g (fun x => (news.foldl (fun x _ => x.incRef sp.frl) x).setSplit c.slot (some own))
    placeAll s g c.slot (news.map (fun e => { sp.goto e.1 e.2 land with fmt := fmt }))

/-- The branch mould of R110: no lane transfers, all go to one target, or the split diverges. -/
def branch (s : State) (c : Cur) (lanes : List (Nat × BitVec 64)) (rp : Option (BitVec 64)) : State :=
  let sp := s.spl c.gid c.slot
  match byTarget lanes with
  | [] => s
  | [(t, m)] => if m == sp.mask then s.updSpl c.gid c.slot (fun y => y.goto t m (s.landing c.gid)) else diverge s c [(t, m)] rp
  | ts => diverge s c ts rp

/-! ### Calls and returns (R106, R111) -/

/-- One call of the lanes of one target: a frame, and the split that enters the callee. -/
def callOne (s : State) (c : Cur) (sp : Split) (t : BitVec 64) (m : Mask) : State × Option Split :=
  match alloc s c.gid c.pc (lowest m) (.frame c.next c.nextHdr sp.frl 1) with
  | (s, none) => (s, none)
  | (s, some f) => (s, some { sp.goto t m (s.landing c.gid) with depth := sp.depth + 1, frl := some f })

/-- `CALL` and `CALLX` with the lanes that call and their targets (R111). -/
def call (s : State) (c : Cur) (lanes : List (Nat × BitVec 64)) (act : Mask) : State :=
  let g := c.gid
  let sp := s.spl g c.slot
  let ts := byTarget lanes
  let T := ts.foldl (fun m e => m ||| e.2) (0 : Mask)
  if ts.isEmpty then s
  else if sp.depth == 255 then malformedNoDest s g c.pc act
  else
    let split := T != sp.mask || 1 < ts.length
    let fmt := (wxOf c s).fmt
    let rest := sp.mask &&& ~~~T   -- parked at once: an arrival of the calling split
    let entry : PoolEntry := .reconv sp.mask rest c.next c.nextHdr fmt sp.rel sp.frl sp.depth true (s.grp g).born
      (if rest == 0 then none else some (Parked.join none sp (c.next, c.nextHdr)))
    let (s, rel) := if !split then (s, some sp.rel) else
      match alloc s g c.pc (lowest sp.mask) entry with
      | (s, none) => (s, none)
      | (s, some e) => (s.updGrp g (fun x => { x with born := x.born + 1 }.incRef sp.frl), some (some e))
    match rel with
    | none => s
    | some rel =>
      let sp := { sp with rel := rel }
      match ts with
      | [] => s
      | (t, m) :: more =>
        match callOne s c sp t m with
        | (s, none) => s
        | (s, some own) =>
          let s := s.updGrp g (fun x => x.setSplit c.slot (some own))
          more.foldl (fun s e =>
            if (s.grp g).ended then s
            else
              match callOne (s.updGrp g (fun x => x.incRef sp.frl)) c sp e.1 e.2 with
              | (s, none) => s
              | (s, some n) => placeSplit s g c.slot { n with fmt := fmt }) s

/-- Walking from REL through PARENT links: the entries deeper than `d`, and the first at most that deep (R106). -/
def unwind (x : Group) (d : Nat) : Nat → Option Nat → List Nat × Option Nat
  | 0, r => ([], r)
  | _, none => ([], none)
  | f + 1, some e =>
    match Map.find x.pool e with
    | some (.reconv _ _ _ _ _ parent _ depth _ _ _) =>
      if d < depth then let (l, r) := unwind x d f parent; (e :: l, r) else ([], some e)
    | _ => ([], none)

/-- A spilled split leaves the list of spilled splits, and its entry is freed (R102). -/
def Group.unlink (x : Group) (e : Nat) : Group :=
  match Map.find x.pool e with
  | some (.spilled _ older newer _) =>
    let y := setOlder (setNewer x older newer) newer older
    { y with
      newest := if x.newest == some e then older else x.newest
      oldest := if x.oldest == some e then newer else x.oldest }.freeAt e
  | _ => x

/-- The split with lanes `m` changed where it stands, in slot `k`, in the other slot or in the area; `none` ends it there. -/
def Group.changeAt (x : Group) (k : Nat) (m : Mask) (f : Split → Option Split) : Group :=
  let here := fun (o : Option Split) => (o.map (fun y => y.mask == m)).getD false
  if here (x.split k) then x.setSplit k ((x.split k).bind f)
  else if here (x.split (1 - k)) then x.setSplit (1 - k) ((x.split (1 - k)).bind f)
  else
    match x.pool.find? (fun e => match e.2 with | .spilled y _ _ _ => y.mask == m | _ => false) with
    | some (e, .spilled y o n t) =>
      match f y with
      | some z => { x with pool := Map.put x.pool e (.spilled z o n t) }
      | none => x.unlink e
    | _ => x

/-- A return of the lanes of `sp`, which stands in slot `k` or has been spilled, from depth > 0 (R106): the split goes on at its frame's
return PC and stops being owed to deeper entries; it may then arrive at a call's entry (R102). -/
def doReturn (s : State) (g slot k : Nat) (sp : Split) : State :=
  match sp.frl.bind (Map.find (s.grp g).pool) with
  | some (.frame pc hdr prev _) =>
    let depth := sp.depth - 1
    let land := s.landing g
    let (es, rel) := unwind (s.grp g) depth ((s.grp g).pool.length + 1) sp.rel
    let s := s.updGrp g (fun x => ((x.incRef prev).drop sp.frl).changeAt k sp.mask (fun y =>
      some { y with pc := pc, hdr := hdr, clause := none, frl := prev, depth := depth, rel := rel, due := max y.due land }))
    let s := es.foldl (fun s e =>
      let s := s.updGrp g (fun x => { x with pool := x.pool.map (fun p => if p.1 == e then (p.1, p.2.unexpect sp.mask) else p) })
      completeEntry s g slot e false) s
    match rel.bind (fun e => (Map.find (s.grp g).pool e).map (fun p => (e, p))) with
    | some (e, .reconv ex ar rpc rhdr fmt parent frl dep true born cont) =>
      if rpc == pc && dep == depth then
        let p := PoolEntry.arrive sp (pc, hdr) (.reconv ex ar rpc rhdr fmt parent frl dep true born cont)
        let s := s.updGrp g (fun x => ({ x with pool := Map.put x.pool e p }.changeAt k sp.mask (fun _ => none)).drop prev)
        refill (completeEntry s g slot e false) g
      else s
    | _ => s
  | _ => s

end Sys2Proof.Machine
end

