-- ==== Sys2Proof/Machine/Region.lean ====
section
/-! DEFINITION. Regions: commit, replay and recovery (R238 to R246), and the poison-control words (R248 to R251). -/
namespace Sys2Proof.Machine

/-- Every split of the group has its fixed-latency results written: distances start afresh (R83). -/
def freshDistances (s : State) (g : Nat) : State :=
  let f := fun (sp : Split) => { sp with haz := [] }
  s.updGrp g (fun x => { x with s0 := x.s0.map f, s1 := x.s1.map f, pool := x.pool.map (fun e => (e.1, match e.2 with
    | .spilled sp o n t => .spilled (f sp) o n t
    | .reconv ex ar rpc rhdr fmt parent frl depth callre born cont =>
      .reconv ex ar rpc rhdr fmt parent frl depth callre born (cont.map (fun p => { p with haz := [] }))
    | p => p)) })

/-- One stale entry translated again (R195): its new place, or its failure. -/
def retranslate (s : State) (x : Group) (q : Store) (key : Nat) : Except Fail Store :=
  match s.ctxOf x with
  | none => .ok q
  | some c =>
    match translate s c .write q.va key with
    | .error f => .error f
    | .ok t =>
      match (match t.place with
        | .peer p _ => peerCheck s x.ctx p
        | _ => none) with
      | some f => .error f
      | none => .ok { q with place := (sectorBase t.place).1, line := t.line, stale := false }

/-- `RetranslateStale` (R195): a failure flags the entry's lanes, and the entry is gone. -/
def retranslateStale (s : State) (g : Nat) (pc : BitVec 64) : State :=
  let step := fun (r : State × Toks × List Store) (q : Store) =>
    let (s, ts, out) := r
    if !q.stale then (s, ts, out ++ [q])
    else
      let s := { s with draws := s.draws + 1 }
      match retranslate s (s.grp g) q (freeKey s.draws 10 0) with
      | .ok q => (s, ts, out ++ [q])
      | .error f =>
        let (s, ts) := q.lanes.foldl (fun (r : State × Toks) i =>
          let (s, ts, t) := poison r.1 g pc r.2 f i
          (flagRegion s g t i false, ts)) (s, ts)
        (s, ts, out)
  let (s, _, out) := (s.grp g).region.qb.foldl step (s, [], [])
  s.updGrp g (fun x => { x with region := { x.region with qb := out } })

/-- `Close()` (R243); the region's identifier stands in `rid`. -/
def closeRegion (s : State) (g : Nat) : State := s.updGrp g (fun x => { x with region := .closed })

/-- `Release` of entries in program order (R244): they take the place of the commit in the program order of the split that makes it (R271), and an
entry that a view's log has no room for leaves orphaned poison. -/
def releaseEntries (s : State) (g : Nat) (qs : List Store) : State :=
  let m := s.curMask g
  let (s, _, fl) := acceptStores s g [] (qs.map (fun q => { q with rel := true, mask := q.mask ||| m }))
  let s := s.bumpPerf (s.grp g) 9 qs.length
  fl.foldl (fun s f => orphan s g f.2.1) s

/-- `ReleaseAll()` and `Close()` (R243, R244): a failure met from here on has no region left to flag. -/
def releaseAll (s : State) (g : Nat) : State := releaseEntries (closeRegion s g) g (s.grp g).region.qb

/-- CLEAN lanes by continuation, in order of their lowest lane (R246). -/
def cleanSets (l : List (BitVec 64 × BitVec 64 × Mask)) : List (BitVec 64 × BitVec 64 × Mask) :=
  let keys := (l.map (fun e => (e.1, e.2.1))).eraseDups
  let sets := keys.map (fun k => (k.1, k.2, (l.filter (fun e => e.1 == k.1 && e.2.1 == k.2)).foldl (fun m e => m ||| e.2.2) 0))
  ((sets.foldl (fun m e => Map.put m (lowest e.2.2) e) []) : List (Nat × _)).map (·.2)

/-- CLEAN lanes form new splits beside `slot`, copies of `sp` but for their place (R101, R246). -/
def placeClean (s : State) (g slot : Nat) (sp : Split) (sets : List (BitVec 64 × BitVec 64 × Mask)) : State :=
  sets.foldl (fun s e =>
    placeSplit (s.updGrp g (fun x => x.incRef sp.frl)) g slot
      { sp with pc := e.1, hdr := e.2.1, mask := e.2.2, clause := none, wait := none, wph := false, deadline := none, expired := false }) s

/-- The CLEAN lanes go on after a commit that passed at continuation `k` (R246). -/
def mergeClean (s : State) (g slot : Nat) (clean : List (BitVec 64 × BitVec 64 × Mask)) (k : BitVec 64 × BitVec 64) : State :=
  if clean.isEmpty then s
  else
    let s := freshDistances s g
    let sets := cleanSets clean
    let joins := fun (e : BitVec 64 × BitVec 64 × Mask) => e.1 == k.1 && e.2.1 == k.2
    let mine := (sets.filter joins).foldl (fun m e => m ||| e.2.2) (0 : Mask)
    let s := s.updSpl g slot (fun sp => { sp with mask := sp.mask ||| mine })
    let s := s.updGrp g (fun x => x.joinOrder ((s.spl g slot).mask))
    placeClean s g slot (s.spl g slot) (sets.filter (fun e => !joins e))

/-- `Recover()` (R243, R246). -/
def recover (s : State) (g slot : Nat) : State :=
  let x := s.grp g
  let r := x.region
  let s := closeRegion (freshDistances (s.updGrp g Group.settle) g) g
  let s := put s g [⟨.s, 63, 0, ⟨r.first, false⟩⟩]
  let s := s.updSpl g slot (fun sp =>
    { sp with pc := r.recov, hdr := r.recov, clause := none, wait := none, wph := false, deadline := none, expired := false })
  placeClean s g slot (s.spl g slot) (cleanSets r.clean)

/-- The bytes of an entry whose writer did not fail (R243); `none` when nothing is left of it. -/
def keepClean (pm : Mask) (q : Store) : Option Store :=
  match q.red with
  | some _ => if inMask pm q.lane then none else some q
  | none =>
    let bs := q.bytes.filter (fun b => !inMask pm (b.2.2 % 128))
    if bs.isEmpty then none
    else some { q with bytes := bs, ptok := q.ptok.filter (fun e => !inMask pm (e.1 % 128)) }

/-- The words 0 to 4 of the entry a token names, as a fault record holds them (R245). -/
def faultRecord (s : State) (x : Group) (t : Word) : List (BitVec 64) :=
  let c := s.coreOf x.core
  match Map.find c.side (tokIndex t) with
  | none => []
  | some e => (List.range 5).map (entryWord c (tokIndex t) e)

/-- The tokens a replay posts that the host driver serves (R245). -/
def hostServed (s : State) (x : Group) (t : Word) : Bool :=
  match Map.find (s.coreOf x.core).side (tokIndex t) with
  | some e => e.token == t && (t.toNat / 2 ^ 24 == Cause.code .pageMiss || t.toNat / 2 ^ 24 == Cause.code .eccMem)
  | none => false

/-- `PostService()` (R245). -/
def postService (s : State) (g : Nat) : State :=
  let x := s.grp g
  let fn := ((s.ctxOf x).map (·.fn)).getD 0
  let ts := x.region.toks.eraseDups.filter (hostServed s x)
  let s := s.updGrp g (fun x => { x with asked := true, service := none })
  { s with outbox := s.outbox ++ ts.map (fun t => ⟨fn, 0, faultRecord s x t ++ [BitVec.ofNat 64 x.ctx]⟩) }

/-- Whether the group holds only the split in `slot`, and no pending reconvergence entry; in a handler, whether its own split table
does (R377). -/
def Group.alone (x : Group) (slot : Nat) : Bool :=
  (x.split (1 - slot)).isNone && x.newest.isNone && x.pool.all (fun e => match e.2 with
    | .reconv .. => e.1 < (x.saved.map (·.sshw)).getD 0
    | _ => true)

/-- The fault limit of a context in time units (R245). -/
def State.faultDue (s : State) (x : Group) : Nat := s.time + ((s.ctxOf x).map (·.faultUs)).getD 100000 * 21000

/-- The split parks for replay (R243, R246): it keeps its slot and waits with WPH = 1. -/
def park (s : State) (c : Cur) (pm : Mask) : State :=
  let due := s.faultDue (s.grp c.gid)
  s.updSpl c.gid c.slot (fun sp =>
    { sp with pc := c.pc, hdr := c.hdr, mask := sp.mask &&& pm, wait := some .parked, wph := true, deadline := some due, since := s.time })

/-- `Commit(m)` (R243) by the split that issues, whose lanes go on at `k` when it passes. The flag says whether it passed. -/
def commit (s : State) (c : Cur) (m : Nat) (k : BitVec 64 × BitVec 64) : State × Bool :=
  let g := c.gid
  let s := retranslateStale (drainMx s g) g c.pc
  let x := s.grp g
  let r := x.region
  if !r.flag then (mergeClean (releaseAll s g) g c.slot r.clean k, true)
  else if m == 2 then
    let s := releaseAll s g
    let s := match r.nqtok with
      | some t => orphan s g t
      | none => s
    (mergeClean s g c.slot r.clean k, true)
  else if m == 1 && r.allrpl && r.replays < r.limit && x.alone c.slot then
    let S := (s.spl g c.slot).mask
    let kept := r.qb.filterMap (keepClean r.pm)
    let clean := S &&& ~~~r.pm
    let s := s.updGrp g (fun x => { x with region :=
      { x.region with qb := [], used := 0, clean := if clean == 0 then r.clean else r.clean ++ [(k.1, k.2, clean)] } })
    let s := releaseEntries s g kept
    (postService (park (freshDistances s g) c r.pm) g, false)
  else (recover s g c.slot, false)

/-- `ImplicitCommit()` (R242): the committing word is its own continuation. -/
def implicitCommit (s : State) (c : Cur) : State × Bool :=
  let r := (s.grp c.gid).region
  if r.opened then commit s c r.mode (c.pc, c.hdr) else (s, true)

/-- The CLEAN lanes of a group's open region. -/
def Group.cleanLanes (x : Group) : Mask := if x.region.opened then x.region.clean.foldl (fun m e => m ||| e.2.2) 0 else 0

/-- Every lane not in CLEAN has exited (R246). -/
def Group.onlyClean (x : Group) : Bool := x.cleanLanes != 0 && x.live &&& ~~~x.cleanLanes == 0

/-- The commit made with no issuing lanes, when every lane not in CLEAN has exited (R246); `sp` is the split that exited last. -/
def commitNoLanes (s : State) (g slot : Nat) (sp : Split) (pc : BitVec 64) : State :=
  let s := retranslateStale (drainMx s g) g pc
  let r := (s.grp g).region
  let s := if !r.flag then releaseAll s g
    else if r.mode == 2 then
      match r.nqtok with
      | some t => orphan (releaseAll s g) g t
      | none => releaseAll s g
    else s
  let s := freshDistances (closeRegion s g) g
  let s := if r.flag && r.mode != 2 then orphan s g r.first else s
  placeClean s g slot { sp with haz := [] } (cleanSets r.clean)

/-- The lanes a lane word acts on after its commit: the lanes that joined are tested as well (R242, R246). -/
def Wx.again (w : Wx) (pred : Nat) (c : Cur) (s : State) : Wx :=
  let w := { wxOf c s with draw := w.draw }
  { w with act := (w.under pred).1 }

/-- A lane word that is externally visible (R242): its reserved uses are seen first, then the commit, then its effect. -/
def visibleLane (pred : BitVec 3) (rsv : Wx → Bool) (bad : Wx → State → State) (f : Cur → Wx → State → State) (s : State) : Out :=
  onIssuer s (fun c => laneWord pred (fun wx s =>
    if rsv wx then bad wx s
    else
      match implicitCommit s c with
      | (s, true) => f c (wx.again pred.toNat c s) s
      | (s, false) => s) c)

/-- A format S word that is externally visible (R242). -/
def visibleScalar (qual : BitVec 3) (rsv : Wx → Bool) (bad : Wx → State → State) (f : Cur → Wx → State → State) (s : State) : Out :=
  onIssuer s (fun c => scalarWord qual (fun wx s =>
    if rsv wx then bad wx s
    else
      match implicitCommit s c with
      | (s, true) => f c { wxOf c s with draw := wx.draw } s
      | (s, false) => s) c)

/-! ### REGION and COMMIT -/

/-- An externally visible format S word whose operands are tested first: a reserved use or a poisoned operand is handled with no
commit and no other effect (R88, R242). -/
def visibleChecked {α : Type} (qual : BitVec 3) (chk : State → Wx → Except LVal α) (bad : LVal → Wx → State → State)
    (f : α → Cur → Wx → State → State) (s : State) : Out :=
  onIssuer s (fun c => scalarWord qual (fun wx s =>
    match chk s wx with
    | .error r => bad r wx s
    | .ok a =>
      match implicitCommit s c with
      | (s, true) => f a c { wxOf c s with draw := wx.draw } s
      | (s, false) => s) c)

/-- Operands of a word in the order they are tried (R231): the first that is no value, or what they form. -/
def operands2 (a b : LVal) : Except LVal (Nat × Nat) :=
  match a, b with
  | .val a, .val b => .ok (a, b)
  | .val _, r => .error r
  | r, _ => .error r

/-- A check that fails is MALFORMED (R88). -/
def require {α : Type} (ok : Bool) (k : Except LVal α) : Except LVal α := if ok then k else .error (.bad .malformed)

/-- The address that a format D offset names from a word (R71). -/
def offTarget (pc : BitVec 64) (off : BitVec 21) : BitVec 64 := pc + BitVec.ofInt 64 (4 * off.toInt)

/-- A region opens (R239). -/
def openRegion (s : State) (c : Cur) (mode limit : Nat) (recov : BitVec 64) : State :=
  s.updGrp c.gid (fun x => { x with
    rid := (x.rid + 1) % 65535
    region := { Region.closed with opened := true, mode := mode, limit := limit, start := (c.next, c.nextHdr), recov := recov } })

/-- `REGION` (R239). -/
def execRegion (w : WD) (l : RegionLit) (s : State) : Out :=
  onIssuer s (fun c s =>
    let wx := wxOf c s
    if w.pred != 7 || l.mode == 3 || l.rsv != 0 then laneWord w.pred reservedUse c s
    else
      match implicitCommit s c with
      | (s, true) => openRegion s c l.mode.toNat l.limit.toNat (offTarget wx.pc w.off)
      | (s, false) => s)

/-- `COMMIT` in a given mode; with no region open it has no effect (R243). -/
def commitWord (w : WC) (mode : Region → Nat) (s : State) : Out :=
  onIssuer s (fun c s =>
    if w.pred != 7 || w.d != 0 || 4 ≤ w.imm.toNat then laneWord w.pred reservedUse c s
    else
      let r := (s.grp c.gid).region
      if r.opened then (commit s c (mode r) (c.next, c.nextHdr)).1 else s)

/-- `COMMIT.rel` (R243). -/
def execCommitRel (w : WC) (s : State) : Out := commitWord w (fun _ => 0) s
/-- `COMMIT.rpl` (R243). -/
def execCommitRpl (w : WC) (s : State) : Out := commitWord w (fun _ => 1) s
/-- `COMMIT.fwd` (R243). -/
def execCommitFwd (w : WC) (s : State) : Out := commitWord w (fun _ => 2) s
/-- `COMMIT` in the declared mode (R243). -/
def execCommit (w : WC) (s : State) : Out := commitWord w (fun r => r.mode) s

/-! ### Poison control (R248 to R251) -/

/-- `PCHK`: a value per lane to p[D bits 2:0]; p7 is no destination (R248, R249). -/
def pchkWord (w : WB) (rsv : Bool) (f : Wx → Nat → Bool) (s : State) : Out :=
  onIssuer s (quietWord w.pred (fun wx s =>
    if w.d.toNat % 8 == 7 then reservedUse wx s
    else finishLanes true ⟨.p, w.d.toNat % 8, 1⟩ (rsv || 8 ≤ w.d.toNat) (fun i => .val (ofBool (f wx i))) wx s))

/-- `PCHK` of a lane register; the row holds FUNC 5 to 127, which are reserved (R248). -/
def execPchk (w : WB) (s : State) : Out :=
  pchkWord w (w.func != 0) (fun wx i => !(wx.lane 1 0 w.a.toNat i false).isVal) s
/-- `PCHK` of a predicate (R248). -/
def execPchkP (w : WB) (s : State) : Out := pchkWord w (8 ≤ w.a.toNat) (fun wx i => (wx.rdP 0 (w.a.toNat % 8) i false).poison) s
/-- `PCHK` of an s register (R248). -/
def execPchkS (w : WB) (s : State) : Out := pchkWord w (64 ≤ w.a.toNat) (fun wx i => (wx.rdS 0 (w.a.toNat % 64) i).poison) s
/-- `PCHK` of the region (R248). -/
def execPchkReg (w : WB) (s : State) : Out := pchkWord w (w.a != 0) (fun wx _ => wx.x.region.opened && wx.x.region.flag) s
/-- `PCHK` of the group's orphaned token (R248). -/
def execPchkOrph (w : WB) (s : State) : Out := pchkWord w (w.a != 0) (fun wx _ => wx.x.orphan.isSome) s

/-- The side-table word a token names for this group's core; a stale or foreign token reads as itself (R250). -/
def infoWord (s : State) (wx : Wx) (t : Word) (k : Nat) : BitVec 64 :=
  let c := s.coreOf wx.x.core
  let stale : BitVec 64 := if k == 0 then BitVec.ofNat 64 t.toNat else 0
  if tokVcore t == wx.team.vcore then
    match Map.find c.side (tokIndex t) with
    | some e => if e.token == t then entryWord c (tokIndex t) e k else stale
    | none => stale
  else stale

/-- `PINFO` (R250). -/
def execPinfo (w : WS) (s : State) : Out :=
  onIssuer s (scalarWord w.qual (fun wx s =>
    let sd := w.sd.toNat
    if 6 ≤ w.sub.toNat || oddReg sd || w.sb != 0 then finishS true sd (if sd == 63 then 1 else 2) (.bad .malformed) wx s
    else finishS true sd 2 (.val (infoWord s wx (wx.rdS 0 w.sa.toNat 0).bits w.sub.toNat).toNat) wx s))

/-- The payload of a register: its bits, or its token (R231, R251). -/
def Wx.payload (w : Wx) (r i : Nat) : LVal :=
  match w.lane 1 0 r i false with
  | .tok t => .val t.toNat
  | v => v

/-- `PSET`; the row holds FUNC 2 to 127, which are reserved (R251). -/
def execPset (w : WB) (s : State) : Out :=
  onIssuer s (laneWord w.pred (fun wx =>
    finishLanes true ⟨.v, w.d.toNat, 1⟩ (w.func != 0) (fun i =>
      match wx.payload w.a.toNat i with
      | .val n => .tok (BitVec.ofNat 32 n)
      | e => e) wx))

/-- A group-wide poison-control word acts once, when a lane is active (R251). -/
def onceWord (pred : BitVec 3) (f : Wx → State → State) (s : State) : Out :=
  onIssuer s (laneWord pred (fun wx s => if wx.act == 0 then s else f wx s))

/-- `PSET.s` (R251). -/
def execPsetS (w : WB) (s : State) : Out :=
  onceWord w.pred (fun wx =>
    finishS true (w.d.toNat % 64) 1
      (if 64 ≤ w.d.toNat || 64 ≤ w.a.toNat then .bad .malformed else .tok (wx.rdS 0 (w.a.toNat % 64) 0).bits) wx) s

/-- The tokens of a register outside the budget, which reads as poison (R75), yielded as values (R251). -/
def clearOutside (d a : Nat) (wx : Wx) (s : State) : State :=
  let (s, _, out) := resolve s wx.g wx.pc [] (wx.lanes.map (fun i => (i, wx.payload a i)))
  owe s wx.g (out.map (fun e => ⟨.v, d, e.1, ⟨(e.2.2).getD (BitVec.ofNat 32 e.2.1), false⟩⟩))

/-- `PCLR`; the row holds FUNC 3 to 127, which are reserved (R251). -/
def execPclr (w : WB) (s : State) : Out :=
  onIssuer s (laneWord w.pred (fun wx s =>
    if w.func == 0 && wx.budget ≤ w.a.toNat && w.d.toNat < wx.budget then clearOutside w.d.toNat w.a.toNat wx s
    else finishLanes true ⟨.v, w.d.toNat, 1⟩ (w.func != 0) (wx.payload w.a.toNat) wx s))

/-- `PCLR.s` (R251). -/
def execPclrS (w : WB) (s : State) : Out :=
  onceWord w.pred (fun wx =>
    finishS true (w.d.toNat % 64) 1
      (if 64 ≤ w.d.toNat || 64 ≤ w.a.toNat then .bad .malformed else .val (wx.rdS 0 (w.a.toNat % 64) 0).bits.toNat) wx) s

/-- `PCLR.tab`: the entries whose SLOT and CTX are the group's are freed (R251). -/
def execPclrTab (w : WB) (s : State) : Out :=
  onIssuer s (laneWord w.pred (fun wx s =>
    if w.d != 0 || w.a != 0 then reservedUse wx s
    else if wx.act == 0 then s
    else s.updCore wx.x.core (fun c => { c with side := c.side.filter (fun e => !(e.2.slot == wx.x.slot && e.2.ctx == wx.x.ctx)) })))

end Sys2Proof.Machine
end

