-- ==== Sys2Proof/Machine/MemWords.lean ====
section
/-! DEFINITION. The MEMORY instructions (R207 to R221). -/
namespace Sys2Proof.Machine

/-- A first register that its size does not allow (R207). -/
def misReg (sz r : Nat) : Bool := (sz == 5 && r % 2 != 0) || (sz == 6 && r % 4 != 0)

/-- A value of `n` bytes as the registers of a size receive it: s8 and s16 are sign-extended (R211). -/
def extendSz (sz v : Nat) : Nat :=
  match sz with
  | 1 => wrap 32 (sext 8 v)
  | 3 => wrap 32 (sext 16 v)
  | _ => v

/-- Every destination register inside the budget receives MALFORMED (R75, R88); results are late. -/
def poisonLate (d n : Nat) (wx : Wx) (s : State) : State :=
  if wx.budget ≤ d then s else finishLanes true ⟨.v, d, min n (wx.budget - d)⟩ true (fun _ => .val 0) wx s

/-- A reduction of the split's program order that waits to perform on a sector that a load reads performs first, so that the load sees it
(R211). -/
def settleReds (wx : Wx) (ts : List (Except LVal Trans)) (s : State) : Wx × State :=
  let ps := ts.filterMap (fun t => match t with | .ok t => some (sectorBase t.place).1 | .error _ => none)
  let hit := fun (q : Store) => q.red.isSome && q.precedes wx.sp.mask && ps.contains q.place
  if wx.x.egress.any hit then
    let s := settleBy s wx.g (fun q => if hit q then some 4 else none)
    ({ wx with x := s.grp wx.g }, s)
  else (wx, s)

/-- What one lane's load returns from its target (R211); an acquire at `.sys` reads host memory and not L2 (R273). -/
def loadAt (s : State) (wx : Wx) (l : MemLit) (i : Nat) (r : Except LVal Trans) : LVal :=
  let acq := l.ord == 2 && l.scope == 4
  match r with
  | .error e => e
  | .ok t =>
    match loadPlace (if acq then { s with hostL2 := [] } else s) (wx.x.seenBy wx.sp.mask) (s.viewOf wx.x) (freeKey wx.draw 9 i) t.place (szBytes l.sz.toNat) with
    | .val v => .val (extendSz l.sz.toNat v)
    | e => e.atVa t.va

/-- After an acquire at `.sys` of host memory every clean host-homed line of the context leaves L2 (R273). -/
def acquireSys (wx : Wx) (acq : Bool) (l : MemLit) (ts : List (Except LVal Trans)) (s : State) : State :=
  if acq && l.scope == 4 && ts.any (fun t => match t with | .ok ⟨.host _ _, _, _, _⟩ => true | _ => false) then s.dropClean wx.x.ctx else s

/-- The signed displacement of a literal (R207). -/
def litDisp (l : MemLit) : Int := l.disp.toInt

/-- The orders `LD` and `LDU` refuse (R209). -/
def ldOrdBad (l : MemLit) : Bool := l.ord == 3 || (l.ord == 0 && l.scope != 0)

/-- What a load leaves in the caches; an acquire at `.sys` reads host memory itself (R197, R198, R273). -/
def leaveCopies (before : State) (wx : Wx) (l : MemLit) (ts : List (Except LVal Trans)) (s : State) : State :=
  let far := fun (t : Except LVal Trans) => l.ord == 2 && l.scope == 4 && (match t with | .ok ⟨.host _ _, _, _, _⟩ => true | _ => false)
  readDone before wx.x (s.viewOf wx.x) (Config.freeNat (freeKey wx.draw 43 0)) true (ts.filter (fun t => !far t)) s

/-- `LD` (R211). -/
def execLd (w : WA) (l : MemLit) (s : State) : Out :=
  onIssuer s (fun c s => laneWord w.pred (fun wx s =>
    let sz := l.sz.toNat
    let n := szRegs sz
    if memRsv l w.a.toNat || ldOrdBad l || w.b != 0 || misReg sz w.d.toNat then poisonLate w.d.toNat n wx s
    else
      let t := fun (i : Nat) => laneTarget s wx l w.a.toNat (litDisp l) .read (szBytes sz) i
      let (wx, s) := settleReds wx (wx.lanes.map t) s
      let u := finishLanes true ⟨.v, w.d.toNat, n⟩ false (fun i => loadAt s wx l i (t i)) wx (acquireSys wx (l.ord == 2) l (wx.lanes.map t) s)
      leaveCopies s wx l (wx.lanes.map t) u) c s)

/-- `LDU`: once for the group, into uniform registers (R212). -/
def execLdu (w : WA) (l : MemLit) (s : State) : Out :=
  onIssuer s (fun c s => laneWord w.pred (fun wx s =>
    let sz := l.sz.toNat
    let d := w.d.toNat % 64
    let n := szRegs sz
    if wx.act == 0 then s
    else if memRsv l w.a.toNat || ldOrdBad l || l.ix != 0 || w.b != 0 || 64 ≤ w.d.toNat || misReg sz d then
      finishS true d (min n (64 - d)) (.bad .malformed) wx s
    else
      let i := lowest wx.act
      let t := laneTarget s wx l 0 (litDisp l) .read (szBytes sz) i
      let (wx, s) := settleReds wx [t] s
      leaveCopies s wx l [t] (finishS true d n (loadAt s wx l i t) wx (acquireSys wx (l.ord == 2) l [t] s))) c s)

/-- The address of `LDC` in the constant space (R213). -/
def constTarget (s : State) (wx : Wx) (l : MemLit) (a i : Nat) : Except LVal Trans :=
  let base : LVal := if l.bk == 1 then wx.sReg 8 l.base.toNat else .val 0
  let idx : LVal := if l.ix == 1 then wx.lane 1 0 a i false else .val 0
  let size := szBytes l.sz.toNat
  match base, idx with
  | .val b, .val n =>
    let o : Int := b + (litDisp l) + (if l.ix == 1 then sext 32 n * (2 ^ l.scale.toNat : Nat) else 0)
    let r : Except Fail Trans :=
      if o < 0 || (wx.desc.csize : Int) < o + size then .error { cause := .bounds }
      else
        match s.ctxOf wx.x with
        | none => .error { cause := .bounds }
        | some c =>
          match translate s c .read (wrap 64 ((wx.desc.cbase.toNat : Int) + o)) (freeKey wx.draw 10 i) with
          | .error f => .error f
          | .ok t => if t.va % size != 0 then .error (vaFail t.va .bounds .misaligned) else .ok t
    onItsWay s wx.x i r
  | .val _, e => .error e
  | e, _ => .error e

/-- What `LDC` refuses (R209, R210, R213). -/
def ldcRsv (l : MemLit) (a : Nat) : Bool :=
  l.sz == 7 || l.space != 0 || !(l.bk == 1 || l.bk == 2) || (l.bk == 2 && l.base != 0) || l.ord != 0 || l.scope != 0
    || (l.ix == 0 && a != 0)

/-- `LDC` (R213). -/
def execLdc (w : WA) (l : MemLit) (s : State) : Out :=
  onIssuer s (fun c s => laneWord w.pred (fun wx s =>
    let sz := l.sz.toNat
    let n := szRegs sz
    if ldcRsv l w.a.toNat || w.b != 0 || misReg sz w.d.toNat then poisonLate w.d.toNat n wx s
    else
      let t := fun (i : Nat) => constTarget s wx l w.a.toNat i
      let (wx, s) := settleReds wx (wx.lanes.map t) s
      leaveCopies s wx l (wx.lanes.map t) (finishLanes true ⟨.v, w.d.toNat, n⟩ false (fun i => loadAt s wx l i (t i)) wx s)) c s)

/-- Whether a prefetch brings a lane's sector in: nothing of its address or of the sector fails, and the request pool has room, which is free
(R219). -/
def prefTakes (s : State) (wx : Wx) (i : Nat) (t : Except LVal Trans) : Bool :=
  match t with
  | .ok ⟨.dev k, _, _, _⟩ => (s.readError wx.x.core (s.seenAs (s.viewOf wx.x) (k / 32))).isNone && Config.freeBit (freeKey wx.draw 44 i)
  | .ok _ => Config.freeBit (freeKey wx.draw 44 i)
  | .error _ => false

/-- `PREF`: fetching a sector changes no value; only a reserved field is seen (R219). -/
def execPref (w : WA) (l : MemLit) (s : State) : Out :=
  onIssuer s (laneWord w.pred (fun wx s =>
    if memRsv l w.a.toNat || l.sz != 0 || l.space != 0 || l.ord != 0 || l.scope != 0 || w.b != 0 || 2 ≤ w.d.toNat then reservedUse wx s
    else
      let ts := wx.lanes.map (fun i => (i, laneTarget s wx l w.a.toNat (litDisp l) .read 1 i))
      readDone s wx.x (s.viewOf wx.x) (Config.freeNat (freeKey wx.draw 43 0)) (w.d == 0) ((ts.filter (fun e => prefTakes s wx e.1 e.2)).map (·.2)) s))

/-! ### Stores and reductions -/

/-- `k` data registers of a lane from `r` (R207). -/
def dataOf (wx : Wx) (k r i : Nat) : LVal :=
  if k == 4 then
    match wx.lane 2 2 r i false, wx.lane 2 4 (r + 2) i false with
    | .val a, .val b => .val (a + 2 ^ 64 * b)
    | .val _, e => e
    | e, _ => e
  else wx.lane k 2 r i false

/-- One lane's part of a store: its write, or why it makes none. The first poisoned source of base, index and data supplies the
lane's token (R210), before a failure of its address. -/
def laneStore (s : State) (wx : Wx) (l : MemLit) (w : WA) (disp : Int) (i : Nat) : Except LVal LaneStore :=
  let n := szBytes l.sz.toNat
  match laneTarget s wx l w.a.toNat disp .write n i, dataOf wx (szRegs l.sz.toNat) w.b.toNat i with
  | .ok t, .val v => .ok ⟨i, t, n, v % 2 ^ (8 * n), none⟩
  | .ok t, .tok k => .ok ⟨i, t, n, 0, some k⟩
  | .ok _, e => .error e
  | .error (.tok t), _ => .error (.tok t)
  | .error (.new ⟨.malformed, d, k, a, n⟩), _ => .error (.new ⟨.malformed, d, k, a, n⟩)
  | .error e, .val _ => .error e
  | .error _, e => .error e

/-- The write of a lane whose data registers lie outside the budget: MALFORMED is its data (R75, R214). -/
def badData (s : State) (wx : Wx) (l : MemLit) (w : WA) (disp : Int) (i : Nat) (t : Word) : Option LaneStore :=
  match laneTarget s wx l w.a.toNat disp .write (szBytes l.sz.toNat) i with
  | .ok tr => some ⟨i, tr, szBytes l.sz.toNat, 0, some t⟩
  | .error _ => none

/-- The lanes of a store with their writes; the tokens of those that make none are to be flagged (R214). Out of a region a
poisoned lane writes nothing and is flagged. -/
def laneStores (s : State) (wx : Wx) (l : MemLit) (w : WA) (disp : Int) : State × Toks × Flags × List LaneStore :=
  let opened := wx.x.region.opened
  let start := s
  wx.lanes.foldl (fun r i =>
    let (s, ts, fl, out) := r
    match laneStore start wx l w disp i with
    | .ok q =>
      match q.token with
      | some t => if opened then (s, ts, fl, out ++ [q]) else (s, ts, fl ++ [(i, t, false)], out)
      | none => (s, ts, fl, out ++ [q])
    | .error (.tok t) => (s, ts, fl ++ [(i, t, false)], out)
    | .error (.new f) =>
      let (s, ts, t) := poison s wx.g wx.pc ts f i
      match if opened then badData start wx l w disp i t else none with
      | some q => (s, ts, fl, out ++ [q])
      | none => (s, ts, fl ++ [(i, t, false)], out)
    | .error (.val _) => (s, ts, fl, out)
    | .error (.beside _) => (s, ts, fl, out)) (s, [], [], [])

/-- A store takes the place of its word and split in the group's program order (R262). -/
def Wx.place (wx : Wx) (q : Store) : Store :=
  { q with mask := wx.sp.mask, word := wx.draw, shared := Config.freeBit (freeKey wx.draw 44 0) }

/-- Stores go to the quarantine buffer of an open region, or are accepted; all flags are raised in lane order (R214, R240, R241). -/
def sendStores (wx : Wx) (ts : Toks) (fl : Flags) (qs : List Store) (s : State) : State :=
  let qs := qs.map wx.place
  if wx.x.region.opened then
    let (s, _, more) := quarantine s wx.g wx.pc wx.desc.qq ts qs
    flagAll s wx.g (fl ++ more)
  else
    let (s, _, more) := acceptStores s wx.g ts qs
    flagAll s wx.g (fl ++ more)

/-- `ST` (R214). -/
def execSt (w : WA) (l : MemLit) (s : State) : Out :=
  onIssuer s (laneWord w.pred (fun wx s =>
    let sz := l.sz.toNat
    if memRsv l w.a.toNat || ldOrdBad l || sz == 1 || sz == 3 || w.d != 0 || misReg sz w.b.toNat then reservedUse wx s
    else
      let (s, ts, fl, ls) := laneStores s wx l w (litDisp l)
      sendStores wx ts fl (formStores wx.pc l.ord.toNat l.scope.toNat 0 ls) s))

/-- AOP and the displacement of `ATOM` and `RED` (R207). -/
def litAop (l : MemLit) : Nat := l.disp.toNat / 64
def litDisp6 (l : MemLit) : Int := sext 6 l.disp.toNat

/-- What `ATOM` and `RED` both refuse (R210, R215). -/
def atomRsv (l : MemLit) (a : Nat) : Bool := memRsv l a || !(l.sz == 4 || l.sz == 5) || 11 ≤ (litAop l)

/-- The store that carries one lane's reduction. -/
def redStore (pc : BitVec 64) (l : MemLit) (q : LaneStore) : Store :=
  let (base, off) := sectorBase q.tr.place
  { place := base, va := q.tr.va / 32 * 32, line := q.tr.line, bytes := bytesAt off q.n q.data q.lane,
    ptok := match q.token with | some t => [(q.lane, t)] | none => [],
    red := some ((litAop l), q.n, q.data), lane := q.lane, ord := l.ord.toNat, scope := l.scope.toNat, stale := false, view := 0, pc := pc }

/-- A new operation of path `k`, with the number it takes among the group's accesses. -/
def mkOp (x : Group) (k view lane : Nat) (act : Mask) (pc : BitVec 64) (lease : Bool) (regs : List (RFile × Nat)) (a : AsyncKind) : AsyncOp :=
  { kind := a, pc := pc, lane := lane, act := act, view := view, done := false, pf := false, toks := [], lease := lease, seq := x.seq,
    deps := fenceDeps x k, regs := regs, rid := regionId x }

/-- An operation issues on a path: the counter rises by 1 (R204). -/
def issueOp (s : State) (g k : Nat) (view lane : Nat) (act : Mask) (pc : BitVec 64) (lease : Bool) (regs : List (RFile × Nat)) (a : AsyncKind) :
    State :=
  s.updGrp g (fun x =>
    { x with seq := x.seq + 1, paths := Map.put x.paths k { x.path k with ops := (x.path k).ops ++ [mkOp x k view lane act pc lease regs a] } })

/-- An entry of a log issues on its path as its play comes to it (R344). -/
def playOp (s : State) (g k lane : Nat) (pc : BitVec 64) (a : AsyncKind) : State :=
  s.updGrp g (fun x =>
    { x with seq := x.seq + 1
             paths := Map.put x.paths k { x.path k with ops := (x.path k).ops ++ [{ mkOp x k 0 lane 1 pc false [] a with played := true }] } })

/-- The operation issued last on a path leaves its queue with PF set (R204, R224). -/
def markPf (s : State) (g k : Nat) : State :=
  s.updGrp g (fun x =>
    let ops := (x.path k).ops
    { x with paths := Map.put x.paths k { x.path k with ops := ops.mapIdx (fun i o => if i + 1 == ops.length then { o with pf := true } else o) } })

/-- A `RED` on the `red` path, in the team's view: lanes whose reduction the view's log takes raise no counter (R217, R341). -/
def sendReds (wx : Wx) (ts : Toks) (fl : Flags) (qs : List Store) (s : State) : State :=
  let v := s.viewOf wx.x
  let qs := qs.map wx.place
  let logged := fun (q : Store) => v != 0 && q.logged
  let s := s.updGrp wx.g Group.pruneLate
  let s := if qs.any (fun q => q.ord == 2) then fullFence s wx.g ((qs.head?.map (·.scope)).getD 3) else s
  let (s, _, more) := logStores s wx.g v ts (qs.filter logged)
  let s := flagAll s wx.g (fl ++ more)
  let rest := (qs.filter (fun q => !logged q)).map (fun q => { q with view := v })
  if wx.act == 0 || (rest.isEmpty && !qs.isEmpty) then s
  else issueOp s wx.g pathRed v (lowest wx.act) wx.act wx.pc false [] (.red rest)

/-- `RED` (R217). -/
def execRed (w : WA) (l : MemLit) (s : State) : Out :=
  onIssuer s (laneWord w.pred (fun wx s =>
    if atomRsv l w.a.toNat || 8 == (litAop l) || 9 == (litAop l) || l.ord == 1 || l.ord == 3 || w.d != 0 || misReg l.sz.toNat w.b.toNat then
      reservedUse wx s
    else
      let (s, ts, fl, ls) := laneStores s wx l w (litDisp6 l)
      let qs := ls.map (redStore wx.pc l)
      if !wx.x.region.opened && l.space == 0 && 3 ≤ l.scope.toNat then sendReds wx ts fl qs s
      else sendStores wx ts fl qs s))

/-! ### Atomics -/

/-- The list in an order the device chooses (R216): free. -/
def freeOrder (key : Nat) : Nat → List Nat → List Nat
  | 0, l => l
  | f + 1, l =>
    match l[Config.freeNat key % l.length]? with
    | none => l
    | some a => a :: freeOrder (key + 1) f (l.erase a)

/-- Earlier stores that an atomic follows: those of its sectors, those that a commit has released (R242, R271), in its split's program order
all for a release, those behind a release fence, and strong ones, towards the agents in scope (R263, R267, R268). -/
def beforeAtomic (s : State) (g : Nat) (l : MemLit) (places : List Place) : State :=
  let m := s.curMask g
  let scope := l.scope.toNat
  let rel := 2 ≤ l.ord.toNat
  let s := settleBy s g (fun q =>
    if places.contains q.place || q.rel then some 4
    else if !q.precedes m then none
    else if rel then some scope
    else if 4 ≤ q.ord then some q.scope
    else if q.strong then some (min q.scope scope)
    else none)
  if rel then releaseSys s (s.grp g).ctx scope else s

/-- Whether a place lies in host or fabric memory. -/
def Place.isFar : Place → Bool
  | .host _ _ => true
  | .peer _ _ => true
  | _ => false

/-- Whether an address leads to host or fabric memory. -/
def farVa (s : State) (x : Group) (va : Nat) : Bool :=
  match (s.ctxOf x).map (fun c => translate s c .write va 0) with
  | some (.ok t) => t.place.isFar
  | _ => false

/-- One lane of `ATOM` (R216, R218); what R342 refuses in a view it refuses before any access, and before the coalescer's checks. -/
def atomLane (wx : Wx) (w : WA) (l : MemLit) (t : Except LVal Trans) (i : Nat) (s : State) : State × LVal :=
  let far := match t with
    | .ok t => t.place.isFar
    | .error (.new f) => f.cause == .peerInvalid || f.cause == .peerDead || (f.cause == .bounds && f.detail == .misaligned && l.space == 0 && farVa s wx.x f.addr)
    | .error _ => false
  let k := szRegs l.sz.toNat
  let x := dataOf wx k w.b.toNat i
  let x2 := if (litAop l) == 9 then wx.lane k 6 (w.b.toNat + k) i false else .val 0
  let v := s.viewOf wx.x
  match t with
  | .error (.tok t) => (s, .tok t)
  | .error (.new ⟨.malformed, d, k, a, n⟩) => (s, .new ⟨.malformed, d, k, a, n⟩)
  | _ =>
    match x, x2, t with
    | .val _, .val _, .error e => if v != 0 && (l.scope == 4 || far) then (s, .bad .viewScope) else (s, e)
    | .val a, .val b, .ok t =>
      if v != 0 && (l.scope == 4 || far) then (s, .bad .viewScope)
      else
        match performAtomic (touchAt s wx.x.core v l.scope.toNat t.place) wx.x v (freeKey wx.draw 9 i) t.place (litAop l) (szBytes l.sz.toNat) a b none with
        | (u, .val n) => (wroteBy s u wx.x v t.place, .val n)
        | (u, r) => (u, r.atVa t.va)
    | .val _, e, _ => (s, e)
    | e, _, _ => (s, e)

/-- The lanes of `ATOM` in the device's order: state and each lane's old value. -/
def atomLanes (wx : Wx) (w : WA) (l : MemLit) (ts : List (Nat × Except LVal Trans)) (s : State) : State × List (Nat × LVal) :=
  (freeOrder (freeKey wx.draw 21 0) 128 wx.lanes).foldl (fun r i =>
    match ts.find? (fun e => e.1 == i) with
    | none => r
    | some e => let (s, v) := atomLane wx w l e.2 i r.1; (s, Map.put r.2 i v)) (s, [])

/-- `ATOM` (R215, R216, R218). -/
def execAtom (w : WA) (l : MemLit) (s : State) : Out :=
  let k := szRegs l.sz.toNat
  visibleLane w.pred
    (fun _ => atomRsv l w.a.toNat || misReg l.sz.toNat w.d.toNat || misReg l.sz.toNat w.b.toNat)
    (poisonLate w.d.toNat k)
    (fun _ wx s =>
      let ts := wx.lanes.map (fun i => (i, laneTarget s wx l w.a.toNat (litDisp6 l) .write (szBytes l.sz.toNat) i))
      let places := ts.filterMap (fun e => match e.2 with | .ok t => some (sectorBase t.place).1 | .error _ => none)
      let s0 := beforeAtomic s wx.g l places
      let (s, out) := atomLanes wx w l ts s0
      let s := acquireSys wx (l.ord == 1 || l.ord == 3) l (ts.map (·.2)) s
      let res := fun (i : Nat) => ((out.find? (fun e => e.1 == i)).map (·.2)).getD (LVal.val 0)
      let u := finishLanes true ⟨.v, w.d.toNat, k⟩ false res wx s
      places.foldl (fun u p => stampRead s0 u wx.x (s.viewOf wx.x) p) u) s

/-! ### Translation registers -/

/-- `XLATE` (R190 to R192, R220). -/
def execXlate (w : WS) (s : State) : Out :=
  onIssuer s (scalarWord w.qual (fun wx s =>
    let k := w.sd.toNat % 8
    let wrX := fun (s : State) (r : XReg) => s.updGrp wx.g (fun x => { x with x := Map.set XReg.zero x.x k r })
    let poisoned : XReg := { XReg.zero with vbase := BitVec.ofNat 64 (2 ^ 63) }
    if oddReg w.sa.toNat || 8 ≤ w.sd.toNat || w.sb != 0 || w.sub != 0 then reservedUse wx (wrX s poisoned)
    else
      match wx.sPair 0 w.sa.toNat, s.ctxOf wx.x with
      | .val va, some c => wrX s (xlateReg s c va (freeKey wx.draw 10 0))
      | .val _, none => wrX s poisoned
      | r, _ => flagOperand wx r (wrX s poisoned)))

/-- The word of a translation register that SUB selects (R221). -/
def XReg.word (x : XReg) (k : Nat) : Nat :=
  match k with
  | 0 => x.frame.toNat
  | 1 => x.vbase.toNat
  | 2 => x.word2
  | _ => x.ptea.toNat

/-- `XINFO` (R221). -/
def execXinfo (w : WS) (s : State) : Out :=
  onIssuer s (scalarWord w.qual (fun wx s =>
    let sd := w.sd.toNat
    if oddReg sd || 4 ≤ w.sub.toNat || 8 ≤ w.sa.toNat || w.sb != 0 then finishS true sd (if sd == 63 then 1 else 2) (.bad .malformed) wx s
    else finishS true sd 2 (.val ((Map.get XReg.zero wx.x.x w.sa.toNat).word w.sub.toNat)) wx s))

end Sys2Proof.Machine
end

