-- ==== Sys2Proof/Machine/AsyncEngine.lean ====
section
/-! DEFINITION. The async engine at work on `CPY`, `GATHER`, `SCATTER` and `red`-path reductions (R204, R222 to R226). -/
namespace Sys2Proof.Machine

/-- The token of an operation's entry for a cause: at most one entry per cause, naming its first failing item (R224). -/
def opToken (s : State) (g : Nat) (o : AsyncOp) (f : Fail) : State × AsyncOp × Word :=
  match o.toks.find? (fun e => e.1 == f.cause) with
  | some e => (s, { o with pf := true }, e.2)
  | none =>
    let (s, t) := newEntryIn s g o.rid o.pc f o.lane
    (s, { o with pf := true, toks := (f.cause, t) :: o.toks }, t)

/-- A failure of an operation that is flagged for the lowest active lane of its word (R224). -/
def opFlag (s : State) (g : Nat) (o : AsyncOp) (f : Fail) : State × AsyncOp :=
  let (s, o, t) := opToken s g o f
  (flagRegion s g t o.lane false, o)

/-- The four words of a 16-byte aligned piece at a virtual address, as the engine reads them in the operation's view (R226). -/
def globWords (s : State) (x : Group) (view : Nat) (va key : Nat) : List LVal :=
  let all := fun (r : LVal) => List.replicate 4 r
  match s.ctxOf x with
  | none => all (.bad .bounds)
  | some c =>
    match translate s c .read va key with
    | .error f => all (.new f)
    | .ok t =>
      match loadPlace s { x with egress := [], region := Region.closed } view key t.place 16 with
      | .val v => (List.range 4).map (fun k => .val (bits v (32 * k) 32))
      | e => all (e.atVa va)

/-- The engine's access to a sector whose newest copy has an error: the sector is stamped with the operation's token of that cause (R252). -/
def opMeets (s : State) (g : Nat) (o : AsyncOp) (base : Place) (va item : Nat) : State × AsyncOp :=
  match readAs s (s.grp g).ctx o.view base with
  | some k =>
    if !s.latent k then (s, o)
    else
      let e := s.latentKind k
      let (s, o, t) := opToken s g o { cause := e.1, detail := e.2, akind := .virt, addr := va, item := item }
      (s.stamp k t, o)
  | none => (s, o)

/-- Page-table sectors whose errors an operation's walk has met are stamped with its token of that cause (R252). -/
def opWalked (s : State) (g : Nat) (o : AsyncOp) (va : Nat) (r : Except Fail Trans) : State :=
  match r with
  | .ok _ => s
  | .error f =>
    match if f.cause == .eccMem || f.cause == .eccCache then o.toks.find? (fun e => e.1 == f.cause) else none, s.ctxOf (s.grp g) with
    | some e, some c => ((walkSectors s c va).filter s.latent).foldl (fun s k => s.stamp k e.2) s
    | _, _ => s

/-- What a read of an operation at a virtual address leaves, once its failures have their tokens. -/
def opRead (s : State) (g : Nat) (o : AsyncOp) (va key : Nat) : State :=
  match s.ctxOf (s.grp g) with
  | some c => opWalked s g o va (translate s c .read va key)
  | none => s

/-- The same for a read at a virtual address. -/
def opReads (s : State) (g : Nat) (o : AsyncOp) (va item key : Nat) : State × AsyncOp :=
  match (s.ctxOf (s.grp g)).map (fun c => translate s c .read va key) with
  | some (.ok t) => opMeets (s.countSector (s.grp g) t.place) g o (sectorBase t.place).1 va item
  | _ => (s, o)

/-- The bytes of a team's scratchpad (R23). -/
def scrBytes (s : State) (t : Nat) : Nat := ((Map.find s.teams t).map (·.desc.scr)).getD 0 * 1024

/-- `n` words of a team's scratchpad, one by one; one outside it is BOUNDS (R222, R224). -/
def scrWords (s : State) (t off n key : Nat) (after : List (Nat × Nat) := []) : List LVal :=
  (List.range n).map (fun k =>
    if scrBytes s t < off + 4 * k + 4 then .bad .bounds
    else
      let v := s.seenWord t (off / 4 + k) key after
      if v.poison then .tok v.bits else .val v.bits.toNat)

/-- Words as the engine holds them: each with its token, failures given the operation's. -/
def opWords (s : State) (g : Nat) (o : AsyncOp) (item : Nat) : List LVal → State × AsyncOp × List (Nat × Option Word)
  | [] => (s, o, [])
  | w :: ws =>
    let (s, o, e) : State × AsyncOp × (Nat × Option Word) := match w with
      | .val v => (s, o, (v, none))
      | .tok t => (s, { o with pf := true }, (0, some t))
      | .new f => let (s, o, t) := opToken s g o { f with item := item }; (s, o, (0, some t))
      | .beside t => (s, o, (0, t))
    let (s, o, es) := opWords s g o item ws
    (s, o, e :: es)

/-- Words written into a team's scratchpad, each with its own token (R224); a sector outside it is not written. -/
def putScr (s : State) (u off : Nat) (ws : List (Nat × Option Word)) : State :=
  (ws.zip (List.range ws.length)).foldl (fun s e =>
    s.writeScr u (plainBytes (bytesAt (off + 4 * e.2) 4 e.1.1 0)) e.1.2) s

/-- The path of an operation (R204). -/
def AsyncKind.path : AsyncKind → Nat
  | .cpy .. => pathCpy
  | .items .. => pathGat
  | .red .. => pathRed
  | .getwork .. => pathWrk
  | .spawn .. => pathWrk
  | .mcast .. => pathFab
  | _ => pathTre

/-- Words written by an operation: until its group has seen it complete a read returns the old or the new value of each (R226). -/
def putLate (s : State) (g : Nat) (o : AsyncOp) (u off : Nat) (ws : List (Nat × Option Word)) : State :=
  let olds := ((Map.find s.teams u).map (·.olds)).getD []
  let new := (List.range ws.length).map (fun k => (⟨off / 4 + k, g, o.kind.path, o.seq, s.scrWord u (off / 4 + k)⟩ : OldWord))
  (putScr s u off ws).updTeam u (fun t => { t with olds := olds ++ new })

/-- A part of a sector written at a virtual address (R222, R224, R341): its first token poisons the whole sector. A failed
write writes nothing and is flagged. -/
def putGlob (s : State) (g : Nat) (o : AsyncOp) (va item key : Nat) (ws : List (Nat × Option Word)) : State × AsyncOp :=
  let x := s.grp g
  match s.ctxOf x with
  | none => (s, o)
  | some c =>
    match translate s c .write va key with
    | .error f => let (s, o) := opFlag s g o { f with item := item }; (opWalked s g o va (.error f), o)
    | .ok t =>
      let (base, off) := sectorBase t.place
      let bs := (ws.zip (List.range ws.length)).flatMap (fun e => bytesAt (off + 4 * e.2) 4 e.1.1 0)
      let token := (ws.find? (fun w => w.2.isSome)).bind (·.2)
      let v := liveView s.views 1024 o.view
      let q : Store := { place := base, va := va, line := none, bytes := bs, ptok := (token.map (fun t => (0, t))).toList, red := none,
                         lane := o.lane, ord := 1, scope := 3, stale := false, view := v, pc := o.pc }
      if v != 0 && q.logged then
        match logOp s g v (.store q) with
        | some s => (s, o)
        | none => opFlag s g o { cause := .viewLogFull, item := item }
      else
        let (s, o) := if ws.length == 8 then (s, o) else opMeets s g o base va item
        match checkedBytes s x.ctx o.view key base (plainBytes bs) token with
        | (u, none) => (wroteBy s u x o.view base, o)
        | (s, some f) => opFlag s g o { f.atVa va with item := item }

/-- The ranks of a mask, lowest first. -/
def ranksOf (m : Nat) : List Nat := (List.range 4).filter (fun r => bit m r)

/-- Words delivered to the team at a cluster rank (R222, R224). -/
def putPeer (g off item : Nat) (ws : List (Nat × Option Word)) (r : State × AsyncOp) (rank : Nat) : State × AsyncOp :=
  let (s, o) := r
  let x := s.grp g
  match (s.teamOf x).map (fun t => rankTeam s x.team t rank) with
  | some (.ok u) =>
    if scrBytes s u < off + 4 * ws.length then opFlag s g o { cause := .bounds, item := item } else (putLate s g o u off ws, o)
  | some (.error f) => opFlag s g o { f with item := item }
  | none => (s, o)

/-- The next piece of a `CPY`: the part of one row that lies in one sector of its global side, or of its destination (R222). -/
def unitCpy (s : State) (g : Nat) (o : AsyncOp) (dir dst src bytes rows pitch ranks next : Nat) : State × AsyncOp :=
  let x := s.grp g
  let total := rows * bytes
  if total ≤ next then (s, { o with done := true })
  else
    let k := next / bytes
    let pos := next % bytes
    let sA := if dir == 0 then (src + pitch * k + pos) % 2 ^ 64 else src + bytes * k + pos
    let dA := if dir == 1 then (dst + pitch * k + pos) % 2 ^ 64 else dst + bytes * k + pos
    let n := min (bytes - pos) (32 - (if dir == 0 then sA else dA) % 32)
    let key := freeKey s.draws 22 0
    let s := drainScr { s with draws := s.draws + 1 } g
    let (s, o) := if dir == 0 then opReads s g o sA k key else (s, o)
    let words := if dir == 0 then globWords s x o.view sA key ++ (if n == 32 then globWords s x o.view (sA + 16) key else [])
      else scrWords s x.team sA (n / 4) key (o.deps.map (fun d => (g, d)))
    let (s, o, ws) := opWords s g o k words
    let s := if dir == 0 then opRead s g o sA key else s
    let (s, o) := match dir with
      | 0 =>
        if scrBytes s x.team < dA + n then
          let (s, o, _) := opToken s g o { cause := .bounds, item := k }
          (putLate s g o x.team dA (ws.take ((scrBytes s x.team - dA) / 4)), o)
        else (putLate s g o x.team dA ws, o)
      | 1 => putGlob s g o dA k key ws
      | _ => (ranksOf ranks).foldl (putPeer g dA k ws) (s, o)
    (s, { o with kind := .cpy dir dst src bytes rows pitch ranks (next + n), done := decide (total ≤ next + n) })

/-- The 32-byte parts of an item, in ascending order. -/
def itemParts (isz : Nat) : List Nat := (List.range (isz / 32)).map (fun j => 32 * j)

/-- The next item of a `GATHER` or `SCATTER` (R223, R224). -/
def unitItem (s : State) (g : Nat) (o : AsyncOp) (scatter : Bool) (dst src list count isz stride next : Nat) : State × AsyncOp :=
  let x := s.grp g
  if count ≤ next then (s, { o with done := true })
  else
    let key := freeKey s.draws 22 0
    let s := drainScr { s with draws := s.draws + 1 } g
    let o' := { o with kind := .items scatter dst src list count isz stride (next + 1), done := decide (count ≤ next + 1) }
    let after := o.deps.map (fun d => (g, d))
    match scrWords s x.team (list + 4 * next) 1 key after with
    | [.val idx] =>
      if idx == 0xFFFFFFFF then (s, o')
      else
        let va := ((if scatter then dst else src) + stride * idx) % 2 ^ 64
        let off := (if scatter then src else dst) + isz * next
        let mis : Option Fail := if va % isz != 0 then some { vaFail va .bounds .misaligned with item := next } else none
        (itemParts isz).foldl (fun r j =>
          let (s, o) := r
          if scatter then
            let (s, o, ws) := opWords s g o next (scrWords s x.team (off + j) 8 key after)
            match mis with
            | some f => opFlag s g o f
            | none => putGlob s g o (va + j) next key ws
          else
            let (s, o) := if mis.isSome then (s, o) else opReads s g o (va + j) next key
            let words := match mis with
              | some f => List.replicate 8 (LVal.new f)
              | none => globWords s x o.view (va + j) key ++ globWords s x o.view (va + j + 16) key
            let (s, o, ws) := opWords s g o next words
            let s := if mis.isSome then s else opRead s g o (va + j) key
            if scrBytes s x.team < off + j + 32 then let (s, o, _) := opToken s g o { cause := .bounds, item := next }; (s, o)
            else (putLate s g o x.team (off + j) ws, o)) (s, o')
    | [.tok t] => (flagRegion s g t o.lane false, { o' with pf := true })
    | _ => opFlag s g o' { cause := .bounds, item := next }

/-- One lane's reduction of a `red`-path `RED`, in an order that the device chooses (R217). -/
def unitRed (s : State) (g : Nat) (o : AsyncOp) (stores : List Store) (pick : Nat) : State × AsyncOp :=
  match stores[pick % stores.length]? with
  | none => (s, { o with done := true })
  | some q =>
    let (s, bad) := performStoreB s g q
    let rest := stores.eraseIdx (pick % stores.length)
    (s, { o with kind := .red rest, pf := o.pf || bad, done := rest.isEmpty })

/-! ### Queues, counters and `XFENCE` (R204, R229) -/

/-- Accesses of a path that have been issued and have not completed; path 6 is synchronous. -/
def Group.openOn (x : Group) (k : Nat) : List Nat :=
  if k == 6 then (x.egress ++ x.region.qb ++ x.savedQb).map (fun q => q.seq) else ((x.path k).ops.filter (fun o => !o.done)).map (fun o => o.seq)

/-- Whether an operation may make memory accesses: its lease is granted and what it stands behind has completed (R65, R229). -/
def opReady (x : Group) (o : AsyncOp) : Bool := !o.done && !o.lease && !o.deps.any x.open_

end Sys2Proof.Machine
end

