-- ==== Sys2Proof/Machine/ScalarAlu.lean ====
section
/-! DEFINITION. The scalar, predicate and cross-lane instructions and the format register (R136 to R141, R155 to R158). -/
namespace Sys2Proof.Machine

/-- A two-source scalar word: its result to one s register, poisoned by SA then SB (R136, R137). -/
def sWord2 (w : WS) (rsv : Bool) (f : Nat → Nat → Nat) (s : State) : Out :=
  onIssuer s (scalarWord w.qual (fun wx =>
    finishS false w.sd.toNat 1
      (if rsv then .bad .malformed
       else lift2 (wx.sReg 0 w.sa.toNat) (wx.sReg 2 w.sb.toNat) (fun a b => .val (f a b % 2 ^ 32))) wx))

/-- `SADD` (R137). -/
def execSadd (w : WS) (s : State) : Out := sWord2 w false (fun a b => a + b) s
/-- `SSUB` (R137). -/
def execSsub (w : WS) (s : State) : Out := sWord2 w false (fun a b => a + (2 ^ 32 - b)) s
/-- `SMUL` (R137). -/
def execSmul (w : WS) (s : State) : Out := sWord2 w false (fun a b => a * b) s
/-- `SMIN`, signed (R137). -/
def execSmin (w : WS) (s : State) : Out := sWord2 w false (fun a b => if sext 32 a ≤ sext 32 b then a else b) s
/-- `SMAX`, signed (R137). -/
def execSmax (w : WS) (s : State) : Out := sWord2 w false (fun a b => if sext 32 a ≤ sext 32 b then b else a) s
/-- `SMOV`; SB must be zero (R137). -/
def execSmov (w : WS) (s : State) : Out :=
  onIssuer s (scalarWord w.qual (fun wx =>
    finishS false w.sd.toNat 1 (if w.sb != 0 then .bad .malformed else wx.sReg 0 w.sa.toNat) wx))
/-- `SMIN.u` (R137). -/
def execSminU (w : WS) (s : State) : Out := sWord2 w false (fun a b => min a b) s
/-- `SMAX.u` (R137). -/
def execSmaxU (w : WS) (s : State) : Out := sWord2 w false (fun a b => max a b) s
/-- `SAND`; the row holds SUB 6 and 7, which are reserved (R137). -/
def execSand (w : WS) (s : State) : Out := sWord2 w (w.sub != 0) (fun a b => a &&& b) s
/-- `SOR` (R137). -/
def execSor (w : WS) (s : State) : Out := sWord2 w false (fun a b => a ||| b) s
/-- `SXOR` (R137). -/
def execSxor (w : WS) (s : State) : Out := sWord2 w false (fun a b => a ^^^ b) s
/-- `SSHL` (R136, R137). -/
def execSshl (w : WS) (s : State) : Out := sWord2 w false shiftL s
/-- `SSHR` (R136, R137). -/
def execSshr (w : WS) (s : State) : Out := sWord2 w false shiftR s
/-- `SSAR` (R136, R137). -/
def execSsar (w : WS) (s : State) : Out := sWord2 w false shiftA s

/-- `SMAD`: SA × SB + s[SREG]; its modifier word honours SREG only, and SUB is 0 (R138). -/
def execSmad (w : WS) (x : XMod) (s : State) : Out :=
  onIssuer s (scalarWord w.qual (fun wx =>
    finishS false w.sd.toNat 1
      (if w.sub != 0 || !modOk {} { x with sreg := 0 } then .bad .malformed
       else lift3 (wx.sReg 0 w.sa.toNat) (wx.sReg 2 w.sb.toNat) (wx.sReg 4 x.sreg.toNat)
        (fun a b c => .val ((a * b + c) % 2 ^ 32))) wx))

/-- `SLDI` (R138). -/
def execSldi (w : WS) (l : Word) (s : State) : Out :=
  onIssuer s (scalarWord w.qual (fun wx =>
    finishS false w.sd.toNat 1 (if w.sub != 0 || w.sa != 0 || w.sb != 0 then .bad .malformed else .val l.toNat) wx))

/-- The write of a uniform predicate. -/
def finishQ (qd : Nat) (r : LVal) (w : Wx) (s : State) : State :=
  let (s, _, out) := resolve s w.g w.pc [] [(lowest w.act, r)]
  put s w.g (out.flatMap (fun e => laneWrites .q qd 1 (0, e.2)))

/-- `SCMP`: q[SD bits 1:0] := cond(SA, SB) (R139). -/
def execScmp (w : WS) (s : State) : Out :=
  onIssuer s (scalarWord w.qual (fun wx =>
    finishQ (w.sd.toNat % 4)
      (if 4 ≤ w.sd.toNat then .bad .malformed
       else lift2 (wx.sReg 0 w.sa.toNat) (wx.sReg 2 w.sb.toNat) (fun a b => .val (ofBool (scmpCond w.sub.toNat a b)))) wx))

/-- A uniform predicate read as data. -/
def Wx.qVal (w : Wx) (opnd r : Nat) : LVal :=
  let v := w.rdQ opnd r
  if v.poison then .tok v.bits else .val v.bits.toNat

/-- `SSEL`: the q selects after SA and SB (R139). -/
def execSsel (w : WS) (s : State) : Out :=
  onIssuer s (scalarWord w.qual (fun wx =>
    finishS false w.sd.toNat 1
      (if 4 ≤ w.sub.toNat then .bad .malformed
       else lift3 (wx.sReg 0 w.sa.toNat) (wx.sReg 2 w.sb.toNat) (wx.qVal 4 (w.sub.toNat % 4))
        (fun a b q => .val (if q == 1 then a else b))) wx))

/-- The special register number of a format S word: bits 14:3 (R140). -/
def specialNo (w : WS) : Nat := w.sa.toNat * 64 + w.sb.toNat

/-- Word `k` of a mask; words at or above W/32 read 0 (R140). -/
def maskWord (W : Nat) (m : Mask) (k : Nat) : Nat := if k < W / 32 then bits m.toNat (32 * k) 32 else 0

/-- Clocks of the group's core since its last reset (R140). -/
def clkOf (s : State) (x : Group) : Nat := ((s.time - (s.coreOf x.core).clk0) / 10) % 2 ^ 64

/-- The special registers of R140: value and number of words; `none` for an unlisted number. -/
def specialReg (s : State) (w : Wx) (n : Nat) : Option (Nat × Nat) :=
  match n with
  | 0x000 => some (w.W, 1)
  | 0x001 => some (w.x.idx, 1)
  | 0x002 => some (w.team.vteam, 1)
  | 0x003 => some (s.nteams w.x, 1)
  | 0x004 => some (w.team.vcore, 1)
  | 0x005 => some (if w.team.tuple.isSome then w.team.crank else 0xFFFFFFFF, 1)
  | 0x006 => some (ofBool w.x.role, 1)
  | 0x007 => some (w.sp.depth, 1)
  | 0x008 => some (clkOf s w.x, 2)
  | 0x00A => some (s.gtime % 2 ^ 64, 2)
  | 0x010 => some (maskWord w.W w.x.live 0, 1)
  | 0x011 => some (maskWord w.W w.x.live 1, 1)
  | 0x012 => some (maskWord w.W w.x.live 2, 1)
  | 0x013 => some (maskWord w.W w.x.live 3, 1)
  | 0x014 => some (maskWord w.W w.sp.mask 0, 1)
  | 0x015 => some (maskWord w.W w.sp.mask 1, 1)
  | 0x016 => some (maskWord w.W w.sp.mask 2, 1)
  | 0x017 => some (maskWord w.W w.sp.mask 3, 1)
  | 0x018 => some (s.ncores w.x, 1)
  | 0x020 => some (w.mark.toNat, 1)
  | _ => none

/-- `SREAD` (R140): variable latency. -/
def execSread (w : WS) (s : State) : Out :=
  onIssuer s (scalarWord w.qual (fun wx s =>
    match specialReg s wx (specialNo w) with
    | some (v, n) =>
      if n == 2 && oddReg w.sd.toNat then finishS true w.sd.toNat 1 (.bad .malformed) wx s
      else finishS true w.sd.toNat n (if w.sub != 0 then .bad .malformed else .val v) wx s
    | none => finishS true w.sd.toNat 1 (.bad .malformed) wx s))

/-- `SWRITE`: only MARK is written; a poisoned source leaves it and flags (R140). -/
def execSwrite (w : WS) (s : State) : Out :=
  onIssuer s (scalarWord w.qual (fun wx s =>
    if w.sub != 0 || specialNo w != 0x020 then reservedUse wx s
    else
      match wx.sReg 0 w.sd.toNat with
      | .val n => s.updGrp wx.g (fun x => { x with mark := BitVec.ofNat 32 n })
      | r => flagOperand wx r s))

/-- FMT as `FMTSET` writes it: bit 15 is written as zero (R141). -/
def fmtOfBits (n : Nat) : Word := BitVec.ofNat 32 (setBits n 15 1 0)

/-- `FMTSET` from SA; the row holds SUB 2 to 7, which are reserved (R141). -/
def execFmtset (w : WS) (s : State) : Out :=
  onIssuer s (scalarWord w.qual (fun wx s =>
    if w.sub != 0 || w.sd != 0 || w.sb != 0 then reservedUse wx s
    else
      match wx.sReg 0 w.sa.toNat with
      | .val n => s.updSpl wx.g wx.slot (fun sp => { sp with fmt := fmtOfBits n })
      | r => flagOperand wx r s))

/-- `FMTSET` from its literal (R141). -/
def execFmtsetLit (w : WS) (l : Word) (s : State) : Out :=
  onIssuer s (scalarWord w.qual (fun wx s =>
    if w.sd != 0 || w.sa != 0 || w.sb != 0 then reservedUse wx s
    else s.updSpl wx.g wx.slot (fun sp => { sp with fmt := fmtOfBits l.toNat })))

/-- `FMTGET` (R141). -/
def execFmtget (w : WS) (s : State) : Out :=
  onIssuer s (scalarWord w.qual (fun wx =>
    finishS false w.sd.toNat 1 (if w.sub != 0 || w.sa != 0 || w.sb != 0 then .bad .malformed else .val wx.fmt.toNat) wx))

/-! ### Predicates (R155) -/

/-- A predicate operation: operation numbers, p7 as a destination and nonzero bits 6:3 of A or B are reserved uses with no destination; a
nonzero B where it must be 0 is a reserved field value of a word with one (R88, R155). -/
def predWord (w : WA) (op : Nat) (one : Bool) (f : Nat → Nat → Nat) (s : State) : Out :=
  let pa := w.a.toNat
  let pb := w.b.toNat
  onIssuer s (laneWord w.pred (fun wx s =>
    if w.d.toNat / 8 != op || w.d.toNat % 8 == 7 || 8 ≤ pa || 8 ≤ pb then reservedUse wx s
    else
      finishLanes false ⟨.p, w.d.toNat % 8, 1⟩ (one && pb != 0) (fun i =>
        if one then lift1 (wx.predVal 0 pa i false) (fun a => .val (f a 0))
        else lift2 (wx.predVal 0 pa i false) (wx.predVal 2 pb i false) (fun a b => .val (f a b))) wx s))

/-- `PAND`; the row holds operations 5 to 15, which are reserved (R155). -/
def execPand (w : WA) (s : State) : Out := predWord w 0 false (fun a b => a &&& b) s
/-- `POR` (R155). -/
def execPor (w : WA) (s : State) : Out := predWord w 1 false (fun a b => a ||| b) s
/-- `PXOR` (R155). -/
def execPxor (w : WA) (s : State) : Out := predWord w 2 false (fun a b => a ^^^ b) s
/-- `PNOT` (R155). -/
def execPnot (w : WA) (s : State) : Out := predWord w 3 true (fun a _ => 1 - a) s
/-- `PMOV` (R155). -/
def execPmov (w : WA) (s : State) : Out := predWord w 4 true (fun a _ => a) s

/-! ### Cross-lane (R156 to R158) -/

/-- `VSHFL` (R156); its X word honours nothing. -/
def execVshfl (w : WA) (x : Option XMod) (s : State) : Out :=
  onIssuer s (laneWord w.pred (fun wx =>
    finishLanes false ⟨.v, w.d.toNat, 1⟩ (!modOk {} (x.getD plainX)) (fun i =>
      lift1 (wx.lane 1 2 w.b.toNat i true) (fun b =>
        if bit b 7 then .val 0 else wx.crossLane 1 0 w.a.toNat ((b % 128 : Nat) : Int) i)) wx))

/-- A vote over the source predicate of the active lanes: a poisoned source gives its token to every destination (R157). -/
def voteWord (d : VDest) (rsv noDest : Bool) (w : WB) (x : Option XMod) (f : Wx → List Nat → Nat → LVal) (s : State) : Out :=
  let pa := w.a.toNat % 8
  onIssuer s (laneWord w.pred (fun wx s =>
    if noDest then reservedUse wx s
    else
      let tok := (wx.lanes.find? (fun i => (wx.rdP 0 pa i true).poison)).map (fun i => (wx.rdP 0 pa i true).bits)
      let on := wx.lanes.filter (fun i => (wx.rdP 0 pa i true).bits == 1)
      finishLanes false d (rsv || 8 ≤ w.a.toNat || !modOk {} (x.getD plainX)) (fun i =>
        match tok with
        | some t => .tok t
        | none => f wx on i) wx s))

/-- A vote into a predicate: p7 has no destination, and D bits 6:3 are zero (R157). -/
def votePred (w : WB) (x : Option XMod) (f : Wx → List Nat → Bool) (s : State) : Out :=
  voteWord ⟨.p, w.d.toNat % 8, 1⟩ (8 ≤ w.d.toNat) (w.d.toNat % 8 == 7) w x (fun wx on _ => .val (ofBool (f wx on))) s

/-- `VVOTE` ALL. The row holds FUNC 6 to 127, which name no destination and are reserved (R157, log entry 13). -/
def execVvoteAll (w : WB) (x : Option XMod) (s : State) : Out :=
  if w.func != 0 then onIssuer s (laneWord w.pred reservedUse)
  else votePred w x (fun wx on => on.length == wx.lanes.length) s
/-- `VVOTE` ANY (R157). -/
def execVvoteAny (w : WB) (x : Option XMod) (s : State) : Out := votePred w x (fun _ on => !on.isEmpty) s
/-- `VVOTE` UNI (R157). -/
def execVvoteUni (w : WB) (x : Option XMod) (s : State) : Out :=
  votePred w x (fun wx on => on.isEmpty || on.length == wx.lanes.length) s

/-- `VVOTE` BALLOT: register d + k holds lanes 32k to 32k + 31. A range beyond the budget is reserved: its registers inside
the budget are poisoned (R75, R157). -/
def execVvoteBallot (w : WB) (x : Option XMod) (s : State) : Out :=
  let d := w.d.toNat
  onIssuer s (fun c s =>
    let wx := wxOf c s
    let n := wx.W / 32
    let fit := min n (wx.budget - d)
    match voteWord ⟨.v, d, fit⟩ (fit < n) false w x (fun _ on _ => .val (maskOf on).toNat) s with
    | .next s => s
    | _ => s)
/-- `VVOTE` COUNT (R157). -/
def execVvoteCount (w : WB) (x : Option XMod) (s : State) : Out :=
  voteWord ⟨.v, w.d.toNat, 1⟩ false false w x (fun _ on _ => .val on.length) s
/-- `VVOTE` LANEID: A must be 0 (R157). -/
def execVvoteLaneid (w : WB) (x : Option XMod) (s : State) : Out :=
  onIssuer s (laneWord w.pred (fun wx =>
    finishLanes false ⟨.v, w.d.toNat, 1⟩ (w.a != 0 || !modOk {} (x.getD plainX)) (fun i => .val i) wx))

/-- The operations 0 to 10 of `VRED` and `VSCAN` over a contributing set (R158): `none` is Poison(FP_INVALID). -/
def reduceOp (op : Nat) (mode : RMode) (vs : List Nat) : Option Nat :=
  match op with
  | 0 => some (vs.foldl (fun a b => (a + b) % 2 ^ 32) 0)
  | 1 => some (vs.foldl (fun a b => if sext 32 a ≤ sext 32 b then a else b) 0x7FFFFFFF)
  | 2 => some (vs.foldl (fun a b => if sext 32 a ≤ sext 32 b then b else a) 0x80000000)
  | 3 => some (vs.foldl min 0xFFFFFFFF)
  | 4 => some (vs.foldl max 0)
  | 5 => some (vs.foldl (fun a b => a &&& b) 0xFFFFFFFF)
  | 6 => some (vs.foldl (fun a b => a ||| b) 0)
  | 7 => some (vs.foldl (fun a b => a ^^^ b) 0)
  | 8 =>
    windowSum (vs.map (fun v =>
      match fp32.decode v with
      | .nan true => Term.invalid
      | .nan false => .nan
      | y => .num y)) (.fin true 0 0) mode
  | _ =>
    if vs.any (fun v => (fp32.decode v).isSNaN) then none
    else if vs.any (fun v => (fp32.decode v).isNaN) then some fp32.qnan
    else
      vs.foldl (fun a b => a.bind (fun a => fMinMax fp32 (op == 10) a b))
        (some (if op == 9 then fp32.infBits else fp32.signBit + fp32.infBits))

/-- `VRED` and `VSCAN`: the contributing lanes of each lane, in ascending order (R158). -/
def reduceWord (w : WB) (x : Option XMod) (rsv : Bool) (among : Nat → Nat → Bool) (s : State) : Out :=
  let m := x.getD plainX
  let op := w.func.toNat % 16
  onIssuer s (laneWord w.pred (fun wx =>
    finishLanes false ⟨.v, w.d.toNat, 1⟩ (rsv || 10 < op || !modOk { rnd := decide (8 ≤ op) } m) (fun i =>
      match wx.modeIf (op == 8) m i with
      | none => .bad .malformed
      | some mode =>
        let mine := (wx.lanes.filter (fun j => among j i)).map (fun j => wx.lane 1 (128 + j) w.a.toNat j true i)
        match mine.find? (fun v => !v.isVal) with
        | some e => e
        | none => .ofNum (reduceOp op mode (mine.map (fun v => match v with | .val n => n | _ => 0)))) wx))

/-- `VRED`: every active lane contributes; FUNC bits 6:4 are zero (R158). -/
def execVred (w : WB) (x : Option XMod) (s : State) : Out := reduceWord w x (16 ≤ w.func.toNat) (fun _ _ => true) s
/-- `VSCAN`: inclusive, or exclusive with FUNC bit 4; bits 6:5 are zero (R158). -/
def execVscan (w : WB) (x : Option XMod) (s : State) : Out :=
  reduceWord w x (32 ≤ w.func.toNat) (fun j i => if bit w.func.toNat 4 then j < i else j ≤ i) s

end Sys2Proof.Machine
end

