-- ==== Sys2Proof/Machine/Trap.lean ====
section
/-! DEFINITION. Taking a trap (R376 to R380) and resuming from its handler (R379, R382); waiting inside a word (R104). -/
namespace Sys2Proof.Machine

/-- The split that issues stays at its word and waits inside it (R104); `wph` when only the waiting phase remains. -/
def hold (c : Cur) (w : Wait) (wph : Bool) (deadline : Option Nat) (s : State) : State :=
  s.updSpl c.gid c.slot (fun sp =>
    { sp with pc := c.pc, hdr := c.hdr, clause := some c.clause, wait := some w, wph := wph, deadline := deadline,
              expired := c.expired, since := c.since })

/-- What a capture completes first (R83, R176, R377): results, the matrix queue, and the image of the split-stack area (R99). -/
def capture (s : State) (g : Nat) : State :=
  let s := drainMx s g
  writeArea (freshDistances (s.updGrp g Group.settle) g) g

/-- Kinds of trap (R376). -/
inductive TrapKind where
  | encoding | priv | stallCheck | bkpt | trap | singleStep
deriving DecidableEq, Repr

def TrapKind.code : TrapKind → Nat
  | .encoding => 1 | .priv => 2 | .stallCheck => 3 | .bkpt => 4 | .trap => 5 | .singleStep => 6

/-- The trap frame (R378). What it holds of an invalid other slot is free but for OSTATE. -/
def frameOf (x : Group) (slot : Nat) (kind : TrapKind) (detail tdata : Nat) (tpc thdr : BitVec 64) (key : Nat) : TrapFrame :=
  let sp := (x.split slot).getD Split.blank
  let o := x.split (1 - slot)
  { treason := BitVec.ofNat 32 (kind.code + detail % 256 * 256 + slot * 65536)
    tdata := BitVec.ofNat 32 tdata
    tpc := tpc
    thdr := thdr
    tfmt := sp.fmt
    tdepth := BitVec.ofNat 32 sp.depth
    tmask := sp.mask
    opc := (o.map (·.pc)).getD (BitVec.ofNat 64 (Config.freeNat key))
    ohdr := (o.map (·.hdr)).getD (BitVec.ofNat 64 (Config.freeNat (key + 1)))
    omask := (o.map (·.mask)).getD (BitVec.ofNat 128 (Config.freeNat (key + 2)))
    ostate := (o.map (fun y => BitVec.ofNat 32 (1 + ofBool y.wph * 2 + y.depth * 256))).getD 0
    sstate := BitVec.ofNat 32 (x.sshw % 65536 + linkBits x.ssfree * 65536)
    step := x.trap.step }

/-- The handler's split and its fresh split table (R377). -/
def Group.enter (x : Group) (slot : Nat) (f : TrapFrame) (lanes : Mask) (traph : BitVec 64) (now : Nat) : Group :=
  { x with
    trap := f
    saved := some ⟨slot, x.s0, x.s1, x.sshw, x.ssfree, x.oldest, x.newest, x.region, x.rid⟩
    s0 := some { Split.blank with pc := traph, hdr := traph, mask := lanes, fmt := f.tfmt, took := now, idle := now }
    s1 := none
    last := 0
    ssfree := none
    oldest := none
    newest := none
    region := .closed }

/-- Taking a trap of the split in `slot` with handler lanes `lanes` (R377 to R380): the trapping split is to resume at `tpc` in
the clause at `thdr`. Inside a handler the group ends with DOUBLE_TRAP, and without a handler with TRAP_UNHANDLED. -/
def takeTrap (s : State) (g slot : Nat) (kind : TrapKind) (detail tdata : Nat) (lanes : Mask) (tpc thdr : BitVec 64) : State :=
  let s := capture s g
  let x := s.grp g
  let traph := ((s.teamOf x).map (·.desc.traph)).getD 0
  if x.saved.isSome then endGroup s g (some 3)
  else if traph == 0 then endGroup s g (some 2)
  else
    let s := { s with draws := s.draws + 1 }
    let f := frameOf x slot kind detail tdata tpc thdr (freeKey s.draws 20 0)
    s.updGrp g (fun x => x.enter slot f lanes traph s.time)

/-- One saved slot as it resumes (R382): its mask is cut to the live mask, and the trapping split goes where the frame says. -/
def resumeSlot (x : Group) (t : SavedTable) (k : Nat) (sp : Option Split) (now : Nat) : Option Split :=
  sp.map (fun y =>
    if k == t.tslot then
      { y with
        pc := x.trap.tpc
        hdr := x.trap.thdr
        fmt := x.trap.tfmt
        mask := x.trap.tmask &&& x.live
        clause := none
        wait := none
        wph := false
        deadline := none
        expired := false
        again := false
        idle := now
        haz := []
        step := x.trap.step.getLsbD 0 }
    else { y.restart with mask := y.mask &&& x.live, haz := [] })

/-- A resumed slot with an empty mask is freed (R382). -/
def Group.freeEmpty (x : Group) (k : Nat) : Group :=
  match x.split k with
  | some sp => if sp.mask == 0 then (x.setSplit k none).drop sp.frl else x
  | none => x

/-- The group goes on where the trap left it (R379, R382). Merges owed by lanes that exited in the handler complete now, and so does the
commit of R246 where only CLEAN lanes are left. -/
def resume (s : State) (g : Nat) : State :=
  let x := s.grp g
  match x.saved with
  | none => s
  | some t =>
    let x1 := x.settle
    let y := { x1 with
      s0 := resumeSlot x t 0 t.s0 s.time
      s1 := resumeSlot x t 1 t.s1 s.time
      sshw := t.sshw
      ssfree := t.ssfree
      oldest := t.oldest
      newest := t.newest
      region := t.region
      rid := t.rid
      saved := none
      pool := x.pool.filter (fun e => e.1 < t.sshw) }
    let sp := ((y.split t.tslot).getD Split.blank)
    let kept := if y.onlyClean then sp.frl else none
    let s := s.updGrp g (fun _ => ((y.incRef kept).freeEmpty 0).freeEmpty 1)
    let s := (dueEntries (s.grp g)).foldl (fun s e => completeEntry s g t.tslot e false) s
    let s := refill s g
    if (s.grp g).onlyClean then (commitNoLanes s g t.tslot sp x.trap.tpc).updGrp g (fun x => if x.ended then x else x.drop kept) else s

/-- The handler has ended by `EXIT` of its last split: the group resumes as `RTE` would (R379). A region the handler left open
is discarded (DESIGN CHOICE, log entry 31). -/
def resumeIfOver (s : State) (g : Nat) : State :=
  let x := s.grp g
  if x.saved.isSome && x.s0.isNone && x.s1.isNone && x.newest.isNone then resume s g else s

end Sys2Proof.Machine
end

