-- ==== Sys2Proof/Machine/Waits.lean ====
section
/-! DEFINITION. Waiting inside a word (R227, R278, R294, R386): barriers as the waits read them (R276, R277), and the waiting
phase that `WAIT`, `BAR` and `SIGW` share. -/
namespace Sys2Proof.Machine

/-- A change to a barrier at its holder. -/
def updBar (s : State) (x : Group) (level num : Nat) (f : Barrier → Barrier) : State :=
  let go := fun (m : List (Nat × Barrier)) => Map.modify Barrier.zero m num f
  match level, s.teamOf x with
  | 0, _ => s.updTeam x.team (fun t => { t with bars := go t.bars })
  | 1, some t =>
    match t.tuple.bind (fun k => (Map.find s.tuples k).map (fun u => (k, u))) with
    | some (k, u) => { s with tuples := Map.put s.tuples k { u with bars := go u.bars } }
    | none => s
  | _, some t => s.updGrid t.grid (fun r => { r with bars := go r.bars })
  | _, none => s

/-- EXPECTED: the member count of R276. -/
def barExpected (s : State) (x : Group) (level : Nat) : Nat :=
  match s.teamOf x with
  | none => 0
  | some t =>
    match level with
    | 0 => t.groups.length
    | 1 => t.desc.clu * t.desc.teamg
    | _ => ((Map.find s.grids t.grid).map (fun r => r.teams * r.desc.teamg)).getD 0

/-- Barriers that exist for the group: their numbers by level (R276, R278). -/
def barExists (x : Team) (level num : Nat) : Bool :=
  match level with
  | 0 => num < 16
  | 1 => num < 8 && x.desc.clu != 0
  | 2 => num < 4 && x.desc.gbar
  | _ => false

/-! ### Waiting -/

/-- The word goes on with a wait it began before (R104). -/
def Cur.resumed (c : Cur) : Bool := c.wait.isSome || c.wph

/-- The deadline of a wait with exponent `e` (R227); a word that goes on keeps its own, unless a rotation has restarted it. -/
def waitDue (s : State) (c : Cur) (e : Nat) : Option Nat :=
  match c.deadline with
  | some d => some d
  | none => if e ≤ 14 then some (s.time + 10 * 2 ^ (e + 5)) else none

/-- A status to s[SD] (R227, R279). -/
def status (sd n : Nat) (wx : Wx) (s : State) : State := finishS true sd 1 (.val n) wx s

/-- The waiting phase (R227, R278, R294, R386): satisfied, abandoned, timed out, or the split waits on. `first` when an abandon
request comes before the condition. -/
def waitPhase (c : Cur) (wt : Wait) (wph : Bool) (e sd : Nat) (first : Bool) (met : Wx → State → State) (wx : Wx) (s : State) : State :=
  let ab := abandoned s wx.x
  let ok := waitMet s wx.x wt
  if ab && (first || !ok) then status sd 3 wx s
  else if ok then met wx s
  else if e == 0 || c.expired then status sd 1 wx s
  else hold c wt wph (waitDue s c e) s

end Sys2Proof.Machine
end

