-- ==== Sys2Proof/Machine/Async.lean ====
section
/-! DEFINITION. The ASYNC words of the `cpy` and `gat` paths, and the waits and fences of the paths (R222, R223, R227 to R229). -/
namespace Sys2Proof.Machine

/-- A request joins its die's leave governor (R65, R66). -/
def askLeave (s : State) (core : Nat) (r : LeaveReq) : State := s.updDie (dieOf core) (fun d => { d with leave := d.leave ++ [r] })

/-- An operation issues; one that needs a copy lease asks for it (R65). -/
def issueBulk (k : Nat) (lease : Bool) (a : AsyncKind) (wx : Wx) (s : State) : State :=
  let x := s.grp wx.g
  let s' := issueOp s wx.g k (s.viewOf wx.x) (lowest wx.act) wx.act wx.pc lease [] a
  if lease then askLeave s' x.core (.copy wx.g k x.seq) else s'

/-- An operation carried out at once, without a counter: one that a view's log holds (R341). -/
def runLogged (unit : State → AsyncOp → State × AsyncOp) : Nat → State → AsyncOp → State
  | 0, s, _ => s
  | f + 1, s, o => if o.done then s else let (s, o) := unit s o; runLogged unit f s o

/-- A write to global memory: logged at once where it stands in a non-root view and every target lies in host or fabric memory,
and issued on its path otherwise (R222, R341). -/
def issueWrite (k : Nat) (lease : Bool) (a : AsyncKind) (targets : List Nat) (fuel : Nat) (unit : State → AsyncOp → State × AsyncOp)
    (wx : Wx) (s : State) : State :=
  let v := s.viewOf wx.x
  if v != 0 && !targets.isEmpty && targets.all (farVa s wx.x) then
    runLogged unit fuel s (mkOp (s.grp wx.g) k v (lowest wx.act) wx.act wx.pc false [] a)
  else issueBulk k lease a wx s

/-- A poisoned register flags its token, and any other misuse a MALFORMED one; no counter is raised (R222, R223). -/
def asyncBad (r : LVal) (wx : Wx) (s : State) : State := flagOperand wx r s

/-- Operands of an ASYNC word: a poisoned register comes first, then reserved values and misalignment (R222). -/
def asyncCheck (a b d : LVal) (ok : Nat → Nat → Nat → Bool) : Except LVal (Nat × Nat × Nat) :=
  match a, b, d with
  | .val a, .val b, .val d => if ok a b d then .ok (a, b, d) else .error (.bad .malformed)
  | .val _, .val _, r => .error r
  | .val _, r, _ => .error r
  | r, _, _ => .error r

/-- The cluster rank of a clustered team (R59). -/
def ownRankBit (t : Team) (m : Nat) : Bool := t.tuple.isSome && bit m t.crank

def rowsOf (l : CpyLit) : Nat := l.rowsm1.toNat + 1

/-- `CPY.g2s`: not externally visible; the row holds SUB 3 to 7, which are reserved (R222, R225). -/
def execCpyG2s (w : WS) (l : CpyLit) (s : State) : Out :=
  onIssuer s (scalarWord w.qual (fun wx s =>
    match asyncCheck (wx.sPair 0 w.sa.toNat) (wx.sReg 2 w.sb.toNat) (wx.sReg 4 w.sd.toNat) (fun a b d =>
        w.sub == 0 && !oddReg w.sa.toNat && l.mmask == 0 && a % 16 == 0 && b % 16 == 0 && d % 16 == 0) with
    | .error r => asyncBad r wx s
    | .ok (a, b, d) => issueBulk pathCpy (16384 < rowsOf l * b) (.cpy 0 d a b (rowsOf l) (32 * l.gstr.toNat) 0 0) wx s))

/-- `CPY.s2g` (R222, R225). -/
def execCpyS2g (w : WS) (l : CpyLit) (s : State) : Out :=
  visibleChecked w.qual
    (fun _ wx => asyncCheck (wx.sReg 0 w.sa.toNat) (wx.sReg 2 w.sb.toNat) (wx.sPair 4 w.sd.toNat) (fun a b d =>
      !oddReg w.sd.toNat && l.mmask == 0 && a % 16 == 0 && b % 16 == 0 && d % 16 == 0))
    asyncBad
    (fun p _ wx s =>
      let (a, b, d) := p
      let pitch := 32 * l.gstr.toNat
      issueWrite pathCpy (16384 < rowsOf l * b) (.cpy 1 d a b (rowsOf l) pitch 0 0)
        (if b == 0 then [] else (List.range (rowsOf l)).map (fun k => (d + pitch * k) % 2 ^ 64)) (rowsOf l * b / 16 + 1)
        (fun s o => match o.kind with
          | .cpy dir dst src bytes rows pitch ranks next => unitCpy s wx.g o dir dst src bytes rows pitch ranks next
          | _ => (s, { o with done := true })) wx s) s

/-- `CPY.s2p` (R222, R225). -/
def execCpyS2p (w : WS) (l : CpyLit) (s : State) : Out :=
  visibleChecked w.qual
    (fun _ wx => asyncCheck (wx.sReg 0 w.sa.toNat) (wx.sReg 2 w.sb.toNat) (wx.sReg 4 w.sd.toNat) (fun a b d =>
      l.gstr == 0 && !ownRankBit wx.team l.mmask.toNat && a % 16 == 0 && b % 16 == 0 && d % 16 == 0))
    asyncBad
    (fun p _ wx s =>
      let (a, b, d) := p
      issueBulk pathCpy (16384 < rowsOf l * b) (.cpy 2 d a b (rowsOf l) 0 l.mmask.toNat 0) wx s) s

/-- The item size of SUB 0 to 3 (R223). -/
def itemSize (sub : Nat) : Nat := 32 * 2 ^ sub

/-- The fields of `GATHER` and `SCATTER` that hold reserved values (R223). -/
def gatRsv (w : WS) (l : GatLit) (pair : Nat) : Bool := 4 ≤ w.sub.toNat || oddReg w.sb.toNat || oddReg pair || l.rsv != 0 || l.stride == 0

/-- The list offset and count of an SB pair: a 4-byte aligned offset, and at most 65 536 items (R223). -/
def listOk (p : Nat) : Bool := p % 2 ^ 32 % 4 == 0 && p / 2 ^ 32 ≤ 65536

/-- `GATHER` (R223, R225). -/
def execGather (w : WS) (l : GatLit) (s : State) : Out :=
  onIssuer s (scalarWord w.qual (fun wx s =>
    let isz := itemSize (w.sub.toNat % 4)
    match asyncCheck (wx.sPair 0 w.sa.toNat) (wx.sPair 2 w.sb.toNat) (wx.sReg 4 w.sd.toNat) (fun _ b d =>
        !gatRsv w l w.sa.toNat && listOk b && d % isz == 0) with
    | .error r => asyncBad r wx s
    | .ok (a, b, d) =>
      let n := b / 2 ^ 32
      issueBulk pathGat (512 < n * (isz / 32)) (.items false d a (b % 2 ^ 32) n isz (32 * l.stride.toNat) 0) wx s))

/-- The item addresses of a `SCATTER` as its list stands (R223). -/
def scatterTargets (s : State) (x : Group) (base list n stride : Nat) : List Nat :=
  (scrWords s x.team list n (freeKey s.draws 22 0) (s.settled x pathGat)).filterMap (fun v => match v with
    | .val i => if i == 0xFFFFFFFF then none else some ((base + stride * i) % 2 ^ 64)
    | _ => none)

/-- `SCATTER` (R223, R225). -/
def execScatter (w : WS) (l : GatLit) (s : State) : Out :=
  let isz := itemSize (w.sub.toNat % 4)
  visibleChecked w.qual
    (fun _ wx => asyncCheck (wx.sReg 0 w.sa.toNat) (wx.sPair 2 w.sb.toNat) (wx.sPair 4 w.sd.toNat) (fun a b _ =>
      !gatRsv w l w.sd.toNat && listOk b && a % isz == 0))
    asyncBad
    (fun p _ wx s =>
      let (a, b, d) := p
      let n := b / 2 ^ 32
      let stride := 32 * l.stride.toNat
      let targets := if s.viewOf wx.x == 0 then [] else scatterTargets s wx.x d (b % 2 ^ 32) n stride
      issueWrite pathGat false (.items true d a (b % 2 ^ 32) n isz stride 0) targets (n + 1)
        (fun s o => match o.kind with
          | .items sc dst src list count isz stride next => unitItem s wx.g o sc dst src list count isz stride next
          | _ => (s, { o with done := true })) wx s) s

/-! ### `WAIT`, `CNT`, `XFENCE` -/

/-- A satisfied `WAIT`: PF is the status, and is cleared (R227). -/
def waitDone (k sd : Nat) (wx : Wx) (s : State) : State :=
  let p := (s.grp wx.g).path k
  status sd (if p.pf then 2 else 0) wx ((seePath s wx.g k).updGrp wx.g (fun x => { x with paths := Map.set Path.zero x.paths k { p with pf := false } }))

/-- `WAIT`; the row holds SUB 6 and 7, which are reserved (R227). -/
def execWait (w : WS) (s : State) : Out :=
  let sd := w.sd.toNat
  let go := fun (c : Cur) (k h : Nat) => waitPhase c (.path k h) false (w.sb.toNat % 16) sd true (waitDone k sd)
  onIssuer s (fun c s =>
    match c.wait with
    | some (.path k h) => go c k h (wxOf c s) s
    | _ =>
      scalarWord w.qual (fun wx s =>
        if 6 ≤ w.sub.toNat || 16 ≤ w.sb.toNat then finishS true sd 1 (.bad .malformed) wx s
        else
          match wx.sReg 0 w.sa.toNat with
          | .val h => go c w.sub.toNat h wx s
          | r => finishS true sd 1 r wx s) c s)

/-- `CNT`; the row holds SUB 6 and 7, which are reserved (R228). -/
def execCnt (w : WS) (s : State) : Out :=
  onIssuer s (scalarWord w.qual (fun wx s =>
    if 6 ≤ w.sub.toNat || w.sa != 0 || w.sb != 0 then finishS true w.sd.toNat 1 (.bad .malformed) wx s
    else finishS true w.sd.toNat 1 (.val (wx.x.path w.sub.toNat).ops.length) wx (seePath s wx.g w.sub.toNat)))

/-- A read may still find what an operation of a group has written over (R226). -/
def State.writesOld (s : State) (g n : Nat) : Bool := s.teams.any (fun t => t.2.olds.any (fun o => o.gid == g && o.seq == n))

/-- `XFENCE` (R229): later accesses of the to-path stand behind the from-path's accesses issued so far. -/
def execXfence (w : WS) (s : State) : Out :=
  onIssuer s (scalarWord w.qual (fun wx s =>
    if 7 ≤ w.sd.toNat || 7 ≤ w.sa.toNat || w.sb != 0 || w.sub != 0 then reservedUse wx s
    else s.updGrp wx.g (fun x =>
      { x with xfences := x.xfences.filter (fun f => f.deps.any (fun d => x.open_ d || s.writesOld wx.g d)) ++ [⟨w.sa.toNat, x.openOn w.sd.toNat⟩] })))

end Sys2Proof.Machine
end

