-- ==== Sys2Proof/Machine/Control.lean ====
section
/-! DEFINITION. The CONTROL words that move program counters (R110 to R115). -/
namespace Sys2Proof.Machine

/-- `NOP`: nothing but its stall count (R114). -/
def execNop (_w : WC) (s : State) : Out := onIssuer s (fun _ s => s)

/-- The reconvergence header of `BRA` and `BRX`, if their literal names one (R110). -/
def reconvOf (pc : BitVec 64) (l : ReconvLit) : Option (BitVec 64) :=
  if l.rk == 0 then some (pc + BitVec.ofInt 64 (4 * l.roff.toInt)) else none

/-- `BRA` (R110). -/
def execBra (w : WD) (l : ReconvLit) (s : State) : Out :=
  onIssuer s (fun c => laneWord w.pred (fun wx s =>
    if 2 ≤ l.rk.toNat then reservedUse wx s
    else branch s c (wx.lanes.map (fun i => (i, offTarget c.pc w.off))) (reconvOf c.pc l)) c)

/-- `BRU`: every lane of the split when QUAL holds (R110). -/
def execBru (w : WD) (s : State) : Out :=
  onIssuer s (fun c => scalarWord w.pred (fun wx s => branch s c (wx.lanes.map (fun i => (i, offTarget c.pc w.off))) none) c)

/-- The per-lane targets of `BRX` and `CALLX`: the lanes whose target is valid (R110). A lane whose predicate or pair is poisoned would flag its
token, and the lowest with another invalid target creates a MALFORMED entry and would flag that; a word flags one token, that of the lowest of
these lanes (R98). -/
def laneTargets (wx : Wx) (bad : Option (Nat × Word)) (a : Nat) (s : State) : State × List (Nat × BitVec 64) :=
  let rs := wx.lanes.map (fun i => (i, wx.lane 2 0 a i false))
  let ok := fun (n : Nat) => n % 4 == 0 && n < 2 ^ 57
  let tok := rs.findSome? (fun e => match e.2 with | .tok t => some (e.1, t) | _ => none)
  let (s, own) := match rs.find? (fun e => match e.2 with | .val n => !ok n | _ => false) with
    | some (i, _) => let (s, t) := newEntry s wx.g wx.pc { cause := .malformed } i; (s, some (i, t))
    | none => (s, none)
  let lower := fun (x y : Option (Nat × Word)) => match x, y with
    | some a, some b => some (if a.1 < b.1 then a else b)
    | some a, none => some a
    | none, o => o
  let s := match lower bad (lower tok own) with
    | some (i, t) => flagRegion s wx.g t i false
    | none => s
  (s, rs.filterMap (fun e => match e.2 with | .val n => if ok n then some (e.1, BitVec.ofNat 64 n) else none | _ => none))

/-- Whether the target pair of `BRX` or `CALLX` and its zero fields are reserved uses (R110, R111). -/
def targetRsv (wx : Wx) (w : WB) : Bool := w.d != 0 || w.func != 0 || wx.budget < w.a.toNat + 2

/-- A word with a target pair: a reserved use, or what it does with the active lanes and their targets (R98, R110, R111). -/
def targetWord (w : WB) (rsv : Bool) (f : Wx → List (Nat × BitVec 64) → State → State) (c : Cur) (s : State) : State :=
  let wx := wxOf c s
  if rsv || targetRsv wx w then laneWord w.pred reservedUse c s
  else
    let (act, bad) := wx.under w.pred.toNat
    let wx := { wx with act := act }
    let (s, ts) := laneTargets wx bad w.a.toNat s
    f wx ts s

/-- `BRX` (R110). -/
def execBrx (w : WB) (l : ReconvLit) (s : State) : Out :=
  onIssuer s (fun c => targetWord w (2 ≤ l.rk.toNat) (fun _ ts s => branch s c ts (reconvOf c.pc l)) c)

/-- `CALL` (R111). -/
def execCall (w : WD) (s : State) : Out :=
  onIssuer s (fun c => laneWord w.pred (fun wx s => call s c (wx.lanes.map (fun i => (i, offTarget c.pc w.off))) wx.act) c)

/-- `CALLX` (R111). -/
def execCallx (w : WB) (s : State) : Out :=
  onIssuer s (fun c => targetWord w false (fun wx ts s => call s c ts wx.act) c)

/-- A `RET` of part of a split: the returning lanes form a new split under R101, which then returns (R111). -/
def returnPart (s : State) (c : Cur) (act : Mask) : State :=
  let g := c.gid
  let sp := s.spl g c.slot
  let new := { sp with mask := act, clause := none, step := false, fmt := (wxOf c s).fmt }
  let s := s.updGrp g (fun x => (x.incRef sp.frl).updSplit c.slot (fun y => { y with mask := y.mask &&& ~~~act }))
  let s := placeSplit s g c.slot new
  if (s.grp g).ended then s else doReturn s g c.slot (1 - c.slot) new

/-- `RET` (R106, R111). -/
def execRet (w : WC) (s : State) : Out :=
  onIssuer s (fun c => laneWord w.pred (fun wx s =>
    if wx.sp.depth == 0 then reservedUse wx s
    else if wx.act == 0 then s
    else if wx.act == wx.sp.mask then doReturn s c.gid c.slot c.slot (s.spl c.gid c.slot)
    else returnPart s c wx.act) c)

/-- The split parks at the entry it is owed to (R102). -/
def joinAt (s : State) (c : Cur) (e : Nat) (p : PoolEntry) : State :=
  let g := c.gid
  let sp := s.spl g c.slot
  let s := s.updGrp g (fun x => ({ x with pool := Map.put x.pool e (p.arrive sp (c.next, c.nextHdr)) }.setSplit c.slot none).drop sp.frl)
  refill (completeEntry s g c.slot e true) g

/-- `JOIN` (R102, R112). -/
def execJoin (w : WC) (s : State) : Out :=
  onIssuer s (fun c s =>
    if w.pred != 7 then laneWord w.pred reservedUse c s
    else
      let sp := s.spl c.gid c.slot
      match sp.rel.bind (fun e => (Map.find (s.grp c.gid).pool e).map (fun p => (e, p))) with
      | some (e, .reconv ex ar rpc rhdr fmt parent frl depth false born cont) =>
        if c.hdr == rpc && c.pc == c.hdr + 4 && depth == sp.depth then
          joinAt s c e (.reconv ex ar rpc rhdr fmt parent frl depth false born cont)
        else s
      | _ => s)

/-- After lanes have exited: the commit with no lanes of R246, and the end of a handler (R379). -/
def afterExit (s : State) (c : Cur) (sp : Split) : State :=
  let g := c.gid
  let x := s.grp g
  if x.ended then s
  else if x.onlyClean then commitNoLanes s g c.slot sp c.pc
  else resumeIfOver s g

/-- `EXIT` (R105, R113, R246). -/
def execExit (w : WC) (s : State) : Out :=
  onIssuer s (fun c => laneWord w.pred (fun wx s =>
    if wx.act == 0 then s
    else
      let whole := wx.act == wx.x.live
      let (s, ok) := if whole then implicitCommit s c else (s, true)
      if !ok then s
      else
        let act := if whole then (wx.again w.pred.toNat c s).act else wx.act
        let sp := s.spl c.gid c.slot
        let kept := if (s.grp c.gid).cleanLanes == 0 then none else sp.frl   -- CLEAN lanes go on in their split's frame
        let s := s.updGrp c.gid (fun x => x.incRef kept)
        let s := exitLanes s c.gid c.slot act none
        let s := afterExit s c sp
        s.updGrp c.gid (fun x => if x.ended then x else x.drop kept)) c)

/-- `YIELD`: the group becomes the youngest of its pipe; the other split is preferred, as after every issue (R97, R114). -/
def execYieldw (w : WC) (s : State) : Out :=
  onIssuer s (fun c s =>
    if w.pred != 7 then laneWord w.pred reservedUse c s
    else
      let core := (s.grp c.gid).core
      (s.updCore core (fun k => { k with order := k.order.filter (fun h => h != c.gid) ++ [c.gid] })).updGrp c.gid
        (fun x => { x with last := c.slot }))

/-- M, PMASK.sync and all six counters would be satisfied (R72, R115): in this model every synchronous access has returned or been
accepted by the end of its step. -/
def Group.drained (x : Group) : Bool := x.paths.all (fun p => p.2.ops.isEmpty)

/-- Reserved uses of `ROLE` (R115). -/
def roleRsv (x : Group) (d : Desc) (w : WC) (slot : Nat) : Bool :=
  !d.roleen || w.pred != 7 || w.d != 0 || 2 ≤ w.imm.toNat || (x.split (1 - slot)).isSome
    || x.pool.any (fun e => ((x.saved.map (·.sshw)).getD 0 ≤ e.1) && (match e.2 with | .free _ => false | _ => true))

/-- The group takes its new role: registers it gains read zero in its live lanes, and it restarts at the role's entry (R115). -/
def takeRole (s : State) (c : Cur) (d : Desc) (consumer : Bool) : State :=
  let s := freshDistances (s.updGrp c.gid Group.settle) c.gid
  let x := s.grp c.gid
  let old := budget d x.role
  let new := budget d consumer
  let entry := if consumer then d.entry1 else d.entry0
  let gained := fun (key : Nat) => old ≤ key / 128 && key / 128 < new && inMask x.live (key % 128)
  (s.updGrp c.gid (fun x => { x with role := consumer, v := x.v.filter (fun e => !gained e.1) })).updSpl c.gid c.slot
    (fun sp => { sp with pc := entry, hdr := entry, clause := none, wait := none, wph := false })

/-- `ROLE` (R115). -/
def execRole (w : WC) (s : State) : Out :=
  onIssuer s (fun c s =>
    let wx := wxOf c s
    if roleRsv wx.x wx.desc w c.slot then laneWord w.pred reservedUse c s
    else
      match implicitCommit s c with
      | (s, false) => s
      | (s, true) =>
        let s := drainMx s c.gid
        if !(s.grp c.gid).drained then hold c .drain false none s
        else takeRole (seeAll s c.gid) c wx.desc (w.imm.toNat == 1))

end Sys2Proof.Machine
end

