-- ==== Sys2Proof/Machine/Work.lean ====
section
/-! DEFINITION. Bins and the words that use them: `GETWORK` and `SPAWN` (R30, R63, R295 to R297). -/
namespace Sys2Proof.Machine

/-! ### Bins -/

/-- A happening that is due now. -/
def dueNow (s : State) (i : Instr) : State := { s with agenda := insertDue s.agenda ⟨s.time, .event i⟩ }

/-- Whether a launched node's bin is eligible (R63). -/
def Node.eligible (n : Node) : Bool := n.kind == 0 && !n.bin.isEmpty && (32 * 2 ^ n.desc.width ≤ n.bin.length || n.lapsed)

/-- The partition of a launch. -/
def State.partOf (s : State) (grid : Nat) : Nat :=
  (((Map.find s.grids grid).bind (fun r => Map.find s.ctxs r.ctx)).map (·.part)).getD 0

/-- Whether a bin has room for a record (R297). -/
def Node.room (n : Node) : Bool := n.bin.length < n.cap

/-- A record enters a bin (R63, R295): an empty launched bin starts its timer, waiting requests are served, and a launched node
that becomes eligible calls for a dispatch pass (R58). -/
def enterBin (s : State) (grid n : Nat) (r : BitVec 128) : State :=
  match s.node grid n with
  | none => s
  | some d =>
    let d1 := { d with bin := d.bin ++ [r] }
    let d1 := if d.kind == 0 && d.bin.isEmpty then { d1 with timerAt := some (s.time + d.timer * 2100), lapsed := false } else d1
    let s := s.updNode grid n (fun _ => d1)
    if d.kind == 0 then (if d1.eligible && !d.eligible then dueNow s (.dispatchPass (s.partOf grid)) else s)
    else serveNode s grid n (d.waiting.length + 1)

/-- One producer of a node retires (R295). -/
def produce (s : State) (grid n : Nat) : State := s.updNode grid n (fun d => { d with produced := d.produced + 1 })

/-- A node that may be named by a `SPAWN` of its launch (R297). -/
def spawnable (s : State) (grid n : Nat) : Bool :=
  match s.node grid n with
  | some d => n < 65536 && d.kind != 2 && !d.ended
  | none => false

/-! ### `GETWORK` -/

def gridNo (s : State) (x : Group) : Nat := ((s.teamOf x).map (·.grid)).getD 0

/-- The offset and the request of a `GETWORK` (R296). -/
def getworkCheck (w : WS) (s : State) (wx : Wx) : Except LVal (Nat × Nat) :=
  match operands2 (wx.sReg 0 w.sa.toNat) (wx.sReg 4 w.sd.toNat) with
  | .error r => .error r
  | .ok (a, o) =>
    let k := bits a 16 7
    let d := s.node (gridNo s wx.x) (a % 65536)
    require (a < 2 ^ 23 && 1 ≤ k && k ≤ 64 && o % 16 == 0 && o + 16 + 16 * k ≤ wx.desc.scr * 1024 && w.sb == 0 && w.sub.toNat < 2
      && ((d.map (fun d => d.kind != 0)).getD false)) (.ok (a, o))

/-- `GETWORK` (R296, R342). -/
def getworkWord (w : WS) (nw : Bool) (s : State) : Out :=
  visibleChecked w.qual (getworkCheck w) asyncBad
    (fun p _ wx s =>
      let v := s.viewOf wx.x
      if v != 0 then
        let (s, t) := newEntry s wx.g wx.pc { cause := .viewScope } (lowest wx.act)
        flagTok wx t s
      else issueOp s wx.g pathWrk v (lowest wx.act) wx.act wx.pc false [] (.getwork (p.1 % 65536) p.2 (bits p.1 16 7) nw none)) s

/-- `GETWORK`; the row holds SUB 2 to 7, which are reserved (R296). -/
def execGetwork (w : WS) (s : State) : Out := getworkWord w false s
/-- `GETWORK.nw` (R296). -/
def execGetworkNw (w : WS) (s : State) : Out := getworkWord w true s

/-- A `GETWORK` request arrives at its bin, or its answer is written in the team's scratchpad (R296). -/
def unitGetwork (s : State) (g : Nat) (o : AsyncOp) (n off k : Nat) (nw : Bool) (ans : Option (List (BitVec 128) × Nat × Nat)) : State × AsyncOp :=
  let x := s.grp g
  let grid := gridNo s x
  match ans with
  | some (recs, w1, w2) =>
    let words := fun (v : Nat) => (List.range 4).map (fun k => (bits v (32 * k) 32, (none : Option Word)))
    let all := words (recs.length + 2 ^ 32 * w1 + 2 ^ 64 * (w2 % 2 ^ 32)) ++ recs.flatMap (fun r => words r.toNat)
    (putLate (drainScr s g) g o x.team off all, { o with done := true })
  | none =>
    match s.node grid n with
    | none => (s, { o with done := true })
    | some d =>
      let give := fun (a : List (BitVec 128) × Nat × Nat) => { o with kind := .getwork n off k nw (some a) }
      if d.waiting.contains (g, o.seq) then (s, o)
      else if d.ended then (s, give ([], 1, d.handed))
      else if d.available != 0 && d.waiting.isEmpty then
        let (recs, w2, d) := d.take k
        (s.updNode grid n (fun _ => d), give (recs, 0, w2))
      else if nw && d.kind != 2 then (s, give ([], 2, d.handed))   -- a range node has records until its end token (R304)
      else (s.updNode grid n (fun d => { d with waiting := d.waiting ++ [(g, o.seq)] }), o)

/-! ### `SPAWN` -/

/-- The record of one lane, from v[A] to v[A + 3], and the node it names (R297). -/
def spawnLane (wx : Wx) (w : WA) (l : SpawnLit) (i : Nat) : LVal × LVal :=
  let a := w.a.toNat
  let word := fun (k : Nat) => wx.lane 1 (32 + k) (a + k) i false
  let rec_ := match word 0, word 1, word 2, word 3 with
    | .val p, .val q, .val r, .val t => LVal.val (p + 2 ^ 32 * q + 2 ^ 64 * r + 2 ^ 96 * t)
    | .val _, .val _, .val _, e => e
    | .val _, .val _, e, _ => e
    | .val _, e, _, _ => e
    | e, _, _, _ => e
  (rec_, if l.nodereg == 1 then wx.lane 1 2 w.b.toNat i false else .val l.node.toNat)

/-- The lanes that append, and the flags of those that do not; `ok` is the node check (R297). -/
def spawnLanes (wx : Wx) (w : WA) (l : SpawnLit) (ok : Nat → Bool) (s : State) : State × Flags × List (Nat × Nat × BitVec 128) :=
  let (s, _, fl, out) := wx.lanes.foldl (fun (r : State × Toks × Flags × List (Nat × Nat × BitVec 128)) i =>
    let (s, ts, fl, out) := r
    let bad := fun (v : LVal) => match v with
      | .tok t => (s, ts, fl ++ [(i, t, false)], out)
      | .new f => let (s, ts, t) := poison s wx.g wx.pc ts f i; (s, ts, fl ++ [(i, t, false)], out)
      | .val _ => (s, ts, fl, out)
      | .beside _ => (s, ts, fl, out)
    match spawnLane wx w l i with
    | (.val rc, .val n) => if ok n then (s, ts, fl, out ++ [(i, n, BitVec.ofNat 128 rc)]) else bad (.bad .malformed)
    | (.val _, r) => bad r
    | (r, _) => bad r) (s, [], [], [])
  (s, fl, out)

/-- The nodes that a `SPAWN` with LAST names as a producer of (R297). -/
def lastNodes (wx : Wx) (w : WA) (l : SpawnLit) : List Nat :=
  if l.last == 0 then []
  else if l.nodereg == 0 then [l.node.toNat]
  else (wx.lanes.filterMap (fun i => match (spawnLane wx w l i).2 with | .val n => some n | _ => none)).eraseDups

/-- A `SPAWN` in a non-root view: an entry of the log for each lane, and one more for its producer count (R297, R341). -/
def logSpawn (wx : Wx) (w : WA) (l : SpawnLit) (v : Nat) (s : State) : State :=
  let grid := gridNo s wx.x
  let (s, fl, recs) := spawnLanes wx w l (fun _ => true) s
  let ops : List (Nat × LogOp) := recs.map (fun e => (e.1, .spawn grid e.2.1 e.2.2))
    ++ (if l.last == 1 then [(lowest wx.act, .spawnLast grid (lastNodes wx w l))] else [])
  let (s, _, fl) := ops.foldl (fun (r : State × Toks × Flags) e =>
    let (s, ts, fl) := r
    match logOp s wx.g v e.2 with
    | some s => (s, ts, fl)
    | none => let (s, ts, more) := failLanes s wx.g wx.pc ts { cause := .viewLogFull } [e.1]; (s, ts, fl ++ more)) (s, [], fl)
  flagAll s wx.g fl

/-- `SPAWN` (R297). -/
def execSpawn (w : WA) (l : SpawnLit) (s : State) : Out :=
  visibleLane w.pred
    (fun wx => w.d != 0 || l.rsv != 0 || (l.nodereg == 0 && w.b != 0) || wx.budget < w.a.toNat + 4)
    reservedUse
    (fun _ wx s =>
      let v := s.viewOf wx.x
      if v != 0 then logSpawn wx w l v s
      else
        let grid := gridNo s wx.x
        let (s, fl, recs) := spawnLanes wx w l (spawnable s grid) s
        let s := issueOp (flagAll s wx.g fl) wx.g pathWrk v (lowest wx.act) wx.act wx.pc false []
          (.spawn recs ((lastNodes wx w l).filter (spawnable s grid)))
        if fl.isEmpty then s else markPf s wx.g pathWrk) s

/-- Producer counts whose records have all entered their bins are made (R295). -/
def spawnCounts (s : State) (grid : Nat) (recs : List (Nat × Nat × BitVec 128)) (last : List Nat) : State × List Nat :=
  let (now, later) := last.partition (fun n => !recs.any (fun r => r.2.1 == n))
  (now.foldl (fun s n => produce s grid n) s, later)

/-- Whether an earlier `SPAWN` of the group still has a record for the node (R297). -/
def earlierSpawn (x : Group) (o : AsyncOp) (n : Nat) : Bool :=
  (x.path pathWrk).ops.any (fun a => a.seq < o.seq && !a.done && (match a.kind with
    | .spawn recs _ => recs.any (fun r => r.2.1 == n)
    | _ => false))

/-- The next record of a `SPAWN` that can enter its bin does so (R297). -/
def unitSpawn (s : State) (g : Nat) (o : AsyncOp) (recs : List (Nat × Nat × BitVec 128)) (last : List Nat) : State × AsyncOp :=
  let x := s.grp g
  let grid := gridNo s x
  let can := fun (r : Nat × Nat × BitVec 128) => ((s.node grid r.2.1).map (·.room)).getD true && !earlierSpawn x o r.2.1
  let first := fun (r : Nat × Nat × BitVec 128) => recs.find? (fun e => e.2.1 == r.2.1) == some r
  match recs.find? (fun r => can r && first r) with
  | none =>
    let (s, last) := spawnCounts s grid recs last
    (s, { o with kind := .spawn recs last, done := recs.isEmpty && last.isEmpty })
  | some r =>
    let s := enterBin s grid r.2.1 r.2.2
    let rest := recs.erase r
    let (s, last) := spawnCounts s grid rest last
    (s, { o with kind := .spawn rest last, done := rest.isEmpty && last.isEmpty })

end Sys2Proof.Machine
end

