-- ==== Sys2Proof/Machine/Landau.lean ====
section
/-! DEFINITION. Landau, the search-tree engine (R312 to R328): trees in device memory, the steps of its operations, reclaim, and
the words of the `tre` path. -/
namespace Sys2Proof.Machine

/-! ### Trees and nodes (R312, R314) -/

/-- A bit field of a number replaced. -/
def withBits (n lo len v : Nat) : Nat := n - bits n lo len * 2 ^ lo + v % 2 ^ len * 2 ^ lo

/-- The number that stands for "none" in a link. -/
def noNode : Nat := 0xFFFFFFFF

def treePool (d : Nat) : Nat := bits d 0 64
def treeNpool (d : Nat) : Nat := bits d 64 32
def treeRoot (d : Nat) : Nat := bits d 96 32
def treeFreeh (d : Nat) : Nat := bits d 128 32
def treeHwm (d : Nat) : Nat := bits d 160 32
def treeC (d : Nat) : Nat := bits d 192 32
def treeL (d : Nat) : Nat := bits d 224 32
def treeF (d : Nat) : Nat := bits d 256 32
def treeGen (d : Nat) : Nat := bits d 288 8
def treeSign (d : Nat) : Bool := bit d 299
def treeRecl (d : Nat) : Bool := bit d 300

def nodeN (n : Nat) : Nat := bits n 0 32
def nodeW (n : Nat) : Nat := bits n 32 32
def nodeP (n : Nat) : Nat := bits n 64 32
def nodeV (n : Nat) : Nat := bits n 96 16
def nodeCnt (n : Nat) : Nat := bits n 112 16
def nodeFirst (n : Nat) : Nat := bits n 128 32
def nodeParent (n : Nat) : Nat := bits n 160 32
def nodeAction (n : Nat) : Nat := bits n 192 32
def nodeExp (n : Nat) : Bool := bit n 224
def nodeTerm (n : Nat) : Bool := bit n 225
def nodePend (n : Nat) : Bool := bit n 226
def nodeDead (n : Nat) : Bool := bit n 227
def nodeFree (n : Nat) : Bool := bit n 228
def nodeGone (n : Nat) : Bool := nodeDead n || nodeFree n

def withV (n v : Nat) : Nat := withBits n 96 16 v

/-- Where a tree's byte lies in device memory; a tree elsewhere is not readable. -/
def treePlace (s : State) (ctx : Nat) (acc : Acc) (va key : Nat) : Except LVal Nat :=
  match Map.find s.ctxs ctx with
  | none => .error (.bad .bounds)
  | some c =>
    match translate s c acc va key with
    | .error f => .error (.new f)
    | .ok ⟨.dev k, _, _, _⟩ => .ok k
    | .ok _ => .error (.new (vaFail va .bounds .none))

/-- The region whose Landau owns a tree (R312). -/
def treeHome (d : Nat) : Nat := bits d 296 3

/-- A whole sector of device memory written in the root by the Landau of a region, whose node cache holds its line (R313). -/
def writeWhole (s : State) (region k data : Nat) : State :=
  (landauTouch s region (k / 32)).writeRoot (k / 32) ((List.range 32).map (fun i => (i, BitVec.ofNat 8 (data / 2 ^ (8 * i))))) none

/-- A node of a tree written by Landau: its reserved bits as zero (R314). -/
def writeNode (s : State) (d k n : Nat) : State := writeWhole s (treeHome d) k (n % 2 ^ 229)

/-- A sector of a tree as Landau reads it: an error in its newest copy gives its cause (R252). -/
def treeSector (s : State) (va k : Nat) : Except LVal Nat :=
  if s.latent k then (let e := s.latentKind k; .error (.new (vaFail va e.1 e.2)))
  else
    match (s.rootSector k).token with
    | some t => .error (.tok t)
    | none => .ok (s.rootSector k).data

/-- The 1024 bits of a descriptor (R312, R328). -/
def readTree (s : State) (ctx va key : Nat) : Except LVal Nat :=
  if va % 128 != 0 then .error (.new (vaFail va .bounds .misaligned))
  else
    match treePlace s ctx .read va key with
    | .error e => .error e
    | .ok k =>
      (List.range 4).foldl (fun (r : Except LVal Nat) i =>
        match r, treeSector s (va + 32 * i) (k / 32 + i) with
        | .ok d, .ok n => .ok (d + 2 ^ (256 * i) * n)
        | .ok _, .error e => .error e
        | .error e, _ => .error e) (.ok 0)

/-- The checks of a descriptor (R328). -/
def treeOk (d : Nat) : Bool :=
  bits d 301 723 == 0 && treePool d % 32 == 0 && treePool d < 2 ^ 57 && treeNpool d != 0 && treeHwm d ≤ treeNpool d
    && treeRoot d < treeNpool d

def checkTree (s : State) (ctx va key : Nat) : Except LVal Nat :=
  match readTree s ctx va key with
  | .error e => .error e
  | .ok d => if treeOk d then .ok d else .error (.bad .malformed)

/-- The descriptor's changing fields written back. -/
def writeTree (s : State) (ctx va key d : Nat) : State :=
  match treePlace s ctx .write va key with
  | .error _ => s
  | .ok k => writeWhole (writeWhole s (treeHome d) k (bits d 0 256)) (treeHome d) (k + 32) (bits d 256 256)

/-- A node: where it lies, and its 256 bits (R314, R316). -/
def readNode (s : State) (ctx d u : Nat) (acc : Acc) (key : Nat) : Except LVal (Nat × Nat) :=
  if treeNpool d ≤ u then .error (.bad .bounds)
  else
    match treePlace s ctx acc (treePool d + 32 * u) key with
    | .error e => .error e
    | .ok k =>
      (treeSector s (treePool d + 32 * u) (k / 32)).map (fun n => (k, n))

/-- A node changed, where it can be read. -/
def updNodeAt (s : State) (ctx d u key : Nat) (f : Nat → Nat) : State :=
  match readNode s ctx d u .write key with
  | .ok (k, n) => writeNode s d k (f n)
  | .error _ => s

/-- Node `u` set whole. -/
def setNode (s : State) (ctx d u key n : Nat) : State :=
  match treePlace s ctx .write (treePool d + 32 * u) key with
  | .ok k => writeNode s d k n
  | .error _ => s

/-- The lines of a tree's descriptor and of some of its nodes enter the node cache of the tree's region (R313). -/
def enterLandau (s : State) (ctx desc key : Nat) (us : List Nat) : State :=
  match treePlace s ctx .read desc key, readTree s ctx desc key with
  | .ok k, .ok d =>
    let ps := us.filterMap (fun u => if treeNpool d ≤ u then none else
      match treePlace s ctx .read (treePool d + 32 * u) key with
      | .ok p => some (p / 32)
      | .error _ => none)
    ([k / 32, k / 32 + 2] ++ ps).foldl (fun s n => landauTouch s (treeHome d) n) s
  | _, _ => s

/-- The nodes that a step at a node reads: it and its children (R316). -/
def nodesOf (s : State) (ctx desc u key : Nat) : List Nat :=
  match readTree s ctx desc key with
  | .error _ => []
  | .ok d =>
    match readNode s ctx d u .read key with
    | .ok (_, n) => u :: (List.range (nodeCnt n)).map (fun j => nodeFirst n + j)
    | .error _ => [u]

/-- The nodes of a block in ascending order, or the first failure among them (R316). -/
def readBlock (s : State) (ctx d key : Nat) : Nat → Nat → Except LVal (List Nat)
  | 0, _ => .ok []
  | c + 1, u =>
    match readNode s ctx d u .read key with
    | .error e => .error e
    | .ok (_, n) =>
      match readBlock s ctx d key c (u + 1) with
      | .error e => .error e
      | .ok ns => .ok (n :: ns)

/-! ### The selection rule (R316) -/

/-- FP32 arithmetic at RNE that carries NaN: an invalid operation gives the canonical NaN (R316, R325). -/
def ieee (r : Option Nat) : Nat := r.getD fp32.qnan
def rAdd (a b : Nat) : Nat := ieee (fAdd fp32 .rne (fp32.decode a) (fp32.decode b))
def rSub (a b : Nat) : Nat := ieee (fSub fp32 .rne (fp32.decode a) (fp32.decode b))
def rMul (a b : Nat) : Nat := ieee (fMul fp32 .rne (fp32.decode a) (fp32.decode b))
def rDiv (a b : Nat) : Nat := ieee (fDiv fp32 .rne (fp32.decode a) (fp32.decode b))
def rSqrt (a : Nat) : Nat := ieee (fSqrt fp32 .rne (fp32.decode a))
def rInt (n : Nat) : Nat := roundFloat fp32 .rne (.fin false n 0)
/-- R(x × V) of an FP32 number and an exact integer. -/
def rMulInt (a n : Nat) : Nat := ieee (arith2 fp32 .rne FNum.mul (fp32.decode a) (.fin false n 0))

/-- The score of a child (R316). -/
def childScore (d sq c : Nat) : Nat :=
  let nc := nodeN c + nodeV c
  let q := if nc == 0 then treeF d else rDiv (rSub (nodeW c) (rMulInt (treeL d) (nodeV c))) (rInt nc)
  let x := rDiv (rMul (rMul (treeC d) (nodeP c)) sq) (rInt (1 + nc))
  rAdd q x

/-- Whether score `b` is above score `a`; a NaN is below every other score (R316). -/
def above (b a : Nat) : Bool :=
  let x := fp32.decode b
  let y := fp32.decode a
  !x.isNaN && (y.isNaN || FNum.cmp x y == 1)

/-- The child with the greatest score, ties to the lowest (R316). -/
def bestChild (scores : List Nat) : Nat :=
  ((scores.zip (List.range scores.length)).foldl (fun (best : Option (Nat × Nat)) e =>
    match best with
    | none => some e
    | some b => if above e.1 b.1 then some e else some b) none).map (·.2) |>.getD 0

/-! ### Steps -/

/-- An entry in which a cause that it records arises in a lower lane names that lane (R233, R328). -/
def lowerLane (s : State) (g : Nat) (t : Word) (lane : Nat) : State :=
  let low := fun (m : List (Nat × SideEntry)) => m.map (fun e =>
    if e.2.gid == g && e.2.token == t then (e.1, { e.2 with lane := min e.2.lane lane }) else e)
  (s.updCore (s.grp g).core (fun c => { c with side := low c.side })).updGrp g (fun x => { x with savedSide := low x.savedSide })

/-- The sectors whose errors an access of Landau to a virtual address has met, its page-table sectors and its own, are stamped with the token of
its operation (R252). -/
def stampTree (s : State) (g : Nat) (f : Fail) (t : Word) : State :=
  match if f.akind == .virt && (f.cause == .eccMem || f.cause == .eccCache) then s.ctxOf (s.grp g) else none with
  | none => s
  | some c =>
    let own := match translate s c .read f.addr 0 with
      | .ok ⟨.dev k, _, _, _⟩ => [k / 32]
      | _ => []
    ((walkSectors s c f.addr ++ own).filter s.latent).foldl (fun s k => s.stamp k t) s

/-- The token of a failure that an operation meets in a lane: inherited, or its entry for the cause, which names the lowest lane in
which the cause arose (R328). -/
def failTok (s : State) (g : Nat) (o : AsyncOp) (lane : Nat) (r : LVal) : State × AsyncOp × Word :=
  match r with
  | .tok t => (s, { o with pf := true }, t)
  | .new f =>
    let (s, p, t) := opToken s g { o with lane := lane } f
    (stampTree (lowerLane s g t lane) g f t, { p with lane := o.lane }, t)
  | .val _ => (s, o, 0)
  | .beside _ => (s, o, 0)

/-- A lane that ends with poison in every destination. -/
def TreeLane.poisoned (l : TreeLane) (t : Word) : TreeLane := { l with res := [.tok t, .tok t, .tok t, .tok t], phase := 2 }

/-- A lane that ends with results. -/
def TreeLane.finish (l : TreeLane) (st : Nat) (res : List Nat) : TreeLane := { l with res := res.map LVal.val, status := st, phase := 2 }

/-- A descent that meets a failure takes back its increments (R316). -/
def abortWith (g : Nat) (l : TreeLane) (r : LVal) (s : State) (o : AsyncOp) : State × AsyncOp × TreeLane :=
  let (s, o, t) := failTok s g o l.lane r
  (s, o, { l.poisoned t with phase := if l.path.isEmpty then 2 else 1 })

/-- One step of a descent (R316, R317). -/
def stepDescent (s : State) (g : Nat) (o : AsyncOp) (desc key : Nat) (l : TreeLane) : State × AsyncOp × TreeLane :=
  let ctx := (s.grp g).ctx
  match readTree s ctx desc key with
  | .error r => abortWith g l r s o
  | .ok d =>
    match readNode s ctx d l.node .write key with
    | .error r => abortWith g l r s o
    | .ok (k, n) =>
      if 4096 < l.depth then abortWith g l (.bad .malformed) s o
      else
        let n := withV n (min (nodeV n + 1) 65535)
        let stop := fun (n st : Nat) =>
          (writeNode s d k n, o, { l.finish st [l.node, l.depth, st] with value := BitVec.ofNat 32 (nodeAction n) })
        if nodeGone n then stop n 3
        else if nodeTerm n || (nodeExp n && nodeCnt n == 0) then stop n 1
        else if nodePend n then stop n 2
        else if !nodeExp n then stop (withBits n 226 1 1) 0
        else
          let s := writeNode s d k n
          let l := { l with path := l.node :: l.path }
          match readBlock s ctx d key (nodeCnt n) (nodeFirst n) with
          | .error r => abortWith g l r s o
          | .ok cs =>
            let sq := rSqrt (rInt (nodeN n + nodeV n))
            (s, o, { l with node := nodeFirst n + bestChild (cs.map (childScore d sq)), depth := l.depth + 1, phase := 0 })

/-- One step of an abort (R316). -/
def stepAbort (s : State) (g : Nat) (o : AsyncOp) (desc key : Nat) (l : TreeLane) : State × AsyncOp × TreeLane :=
  let ctx := (s.grp g).ctx
  match l.path with
  | [] => (s, o, { l with phase := 2 })
  | u :: rest =>
    let s := match readTree s ctx desc key with
      | .ok d => updNodeAt s ctx d u key (fun n => withV n (nodeV n - 1))
      | .error _ => s
    (s, o, { l with path := rest, phase := if rest.isEmpty then 2 else 1 })

/-- The state after an allocation of `k` nodes and the first of them (R315): `none` waits, `some none` fails. -/
def allocate (s : State) (ctx desc d k key : Nat) : Option (Option (State × Nat)) :=
  let h := treeFreeh d
  let head := if h == noNode then none else match readNode s ctx d h .read key with
    | .ok (_, n) => if k ≤ nodeFirst n then some n else none
    | .error _ => none
  match head with
  | some n =>
    if nodeFirst n == k then some (some (writeTree s ctx desc key (withBits d 128 32 (nodeParent n)), h))
    else
      let s := updNodeAt s ctx d (h + k) key (fun m => withBits (withBits m 128 32 (nodeFirst n - k)) 160 32 (nodeParent n))
      some (some (writeTree s ctx desc key (withBits d 128 32 (h + k)), h))
  | none =>
    if treeHwm d + k ≤ treeNpool d then some (some (writeTree s ctx desc key (withBits d 160 32 (treeHwm d + k)), treeHwm d))
    else if treeRecl d then none
    else some none

/-- A new child (R324). -/
def freshChild (u prior action : Nat) : Nat := prior * 2 ^ 64 + noNode * 2 ^ 128 + u * 2 ^ 160 + action * 2 ^ 192

/-- The words of the child records, or the first failure among them (R324); what stands in `after` has been waited for (R229). -/
def childWords (s : State) (team off n key : Nat) (after : List (Nat × Nat)) : Except LVal (List Nat) :=
  let ws := (List.range n).map (fun i =>
    if scrBytes s team < off + 4 * i + 4 then LVal.bad .bounds else s.readScr team (off + 4 * i) 4 key after)
  match ws.find? (fun w => !w.isVal) with
  | some e => .error e
  | none => .ok (ws.map (fun w => match w with | .val v => v | _ => 0))

/-- A lane that ends with the token of a failure. -/
def failLane (g : Nat) (l : TreeLane) (r : LVal) (s : State) (o : AsyncOp) : State × AsyncOp × TreeLane :=
  let (s, o, t) := failTok s g o l.lane r
  (s, o, l.poisoned t)

/-- The tree of an operation. -/
def AsyncKind.tree : AsyncKind → Option Nat
  | .tdesc d _ _ _ => some d
  | .texp d _ _ _ => some d
  | .tback d _ _ => some d
  | .treuse d _ _ => some d
  | .tnode d _ _ _ => some d
  | _ => none

/-- The lanes of a tree operation. -/
def AsyncKind.lanes : AsyncKind → List TreeLane
  | .tdesc _ _ _ l => l
  | .texp _ _ _ l => l
  | .tback _ _ l => l
  | .tnode _ _ _ l => l
  | _ => []

/-- The lanes of a context's operations on a tree. -/
def State.lanesOn (s : State) (ctx desc : Nat) : List TreeLane :=
  s.groups.flatMap (fun e => if e.2.ctx != ctx then [] else
    (e.2.path pathTre).ops.flatMap (fun o => if !o.done && o.kind.tree == some desc then o.kind.lanes else []))

/-- Whether an allocation that arrived at the descriptor earlier still waits there (R315). -/
def behindAlloc (s : State) (ctx desc : Nat) (l : TreeLane) : Bool :=
  (s.lanesOn ctx desc).any (fun a => a.phase == 4 && a.asked != 0 && (l.asked == 0 || a.asked < l.asked))

/-- The step of an expansion (R324); while its allocation waits the step is not taken. -/
def stepExpand (s : State) (g : Nat) (o : AsyncOp) (desc boff key : Nat) (l : TreeLane) : State × AsyncOp × TreeLane :=
  let x := s.grp g
  let s := drainScr s g
  match childWords s x.team (boff + l.r) (2 * l.k) key (o.deps.map (fun d => (g, d))) with
  | .error r => failLane g l r s o
  | .ok ws =>
    match readTree s x.ctx desc key with
    | .error r => failLane g l r s o
    | .ok d =>
      match readNode s x.ctx d l.node .write key with
      | .error r => failLane g l r s o
      | .ok (_, n) =>
        if nodeGone n then (s, o, l.finish 3 [0, 3])
        else if nodeTerm n then (s, o, l.finish 2 [0, 2])
        else if nodeExp n then (s, o, l.finish 1 [nodeFirst n, 1])
        else
          match if behindAlloc s x.ctx desc l then none else allocate s x.ctx desc d l.k key with
          | none => (s, o, if l.asked == 0 then { l with asked := s.draws } else l)
          | some none => failLane g l (.bad .nodePool) s o
          | some (some (s, first)) =>
            let s := (List.range l.k).foldl (fun s i =>
              setNode s x.ctx d (first + i) key (freshChild l.node (ws.getD (2 * i) 0) (ws.getD (2 * i + 1) 0))) s
            let s := updNodeAt s x.ctx d l.node key (fun n => withBits (withBits (withBits n 128 32 first) 112 16 l.k) 224 1 1)
            (s, o, l.finish 0 [first, 0])

/-- What a backup does at a node (R325). -/
def backNode (mode : Nat) (leaf neg : Bool) (value n : Nat) : Nat :=
  let n := withV n (nodeV n - 1)
  if mode == 2 then n
  else
    let n := withBits n 0 32 (min (nodeN n + 1) (2 ^ 32 - 1))
    let n := withBits n 32 32 (rAdd (nodeW n) (if neg then value ^^^ 2 ^ 31 else value))
    if leaf then (let n := withBits n 226 1 0; if mode == 1 then withBits n 225 1 1 else n) else n

/-- One step of a backup (R325); a failure is held as orphaned poison (R328). -/
def stepBack (s : State) (g : Nat) (o : AsyncOp) (desc mode key : Nat) (l : TreeLane) : State × AsyncOp × TreeLane :=
  let ctx := (s.grp g).ctx
  let fail := fun (r : LVal) => let (s, o, t) := failTok s g o l.lane r; (orphan s g t, o, { l with phase := 2 })
  match readTree s ctx desc key with
  | .error r => fail r
  | .ok d =>
    match readNode s ctx d l.node .write key with
    | .error r => fail r
    | .ok (k, n) =>
      if nodeGone n then (s, o, { l with phase := 2 })
      else
        let s := writeNode s d k (backNode mode (l.depth == 0) l.neg l.value.toNat n)
        if l.node == treeRoot d || nodeParent n == noNode then (s, o, { l with phase := 2 })
        else (s, o, { l with node := nodeParent n, depth := l.depth + 1, neg := if treeSign d then !l.neg else l.neg, phase := 0 })

/-- The step of `TNODE` (R327). -/
def stepRead (s : State) (g : Nat) (o : AsyncOp) (desc : Nat) (link : Bool) (key : Nat) (l : TreeLane) : State × AsyncOp × TreeLane :=
  let ctx := (s.grp g).ctx
  match readTree s ctx desc key with
  | .error r => failLane g l r s o
  | .ok d =>
    match readNode s ctx d l.node .read key with
    | .error r => failLane g l r s o
    | .ok (_, n) =>
      (s, o, l.finish 0 (if link then [nodeCnt n, nodeFirst n, nodeParent n, nodeAction n]
        else [nodeN n, nodeW n, nodeP n, nodeV n + bits n 224 5 * 2 ^ 16]))

/-! ### `TREUSE` and reclaim (R326) -/

/-- Whether an operation that has not completed has arrived at Landau. -/
def AsyncOp.arrived (o : AsyncOp) : Bool := o.kind.lanes.any (fun l => l.phase != 3 && l.phase != 2)

/-- The operations on a tree that have arrived and not completed (R326). -/
def openOnTree (s : State) (ctx desc : Nat) : List (Nat × Nat) :=
  s.groups.flatMap (fun e =>
    if e.2.ctx != ctx then []
    else ((e.2.path pathTre).ops.filter (fun o => !o.done && o.arrived && o.kind.tree == some desc)).map (fun o => (e.1, o.seq)))

/-- DEAD set in every node of a block but one. -/
def markDead (s : State) (ctx d key first cnt keep : Nat) : State :=
  (List.range cnt).foldl (fun s j => if first + j == keep then s else updNodeAt s ctx d (first + j) key (fun n => withBits n 227 1 1)) s

/-- `TREUSE`'s step at the root (R326): the state and the status, or a failure. -/
def reuse (s : State) (ctx desc c key : Nat) : State × LVal :=
  match checkTree s ctx desc key with
  | .error r => (s, r)
  | .ok d =>
    let root := treeRoot d
    if treeNpool d ≤ c then (s, .bad .bounds)
    else
      match readNode s ctx d root .write key, readNode s ctx d c .write key with
      | .error r, _ => (s, r)
      | .ok (_, n), r =>
        let child := nodeExp n && nodeFirst n ≤ c && c < nodeFirst n + nodeCnt n
        let no := (s, LVal.val (1 + treeGen d * 256))
        if !child then no
        else
          match r with
          | .error r => (s, r)
          | .ok (_, m) =>
            if nodeDead m then no
            else
              let gen := (treeGen d + 1) % 256
              let before := openOnTree s ctx desc
              let s := markDead s ctx d key (nodeFirst n) (nodeCnt n) c
              let s := updNodeAt s ctx d root key (fun n => withBits n 227 1 1)
              let s := updNodeAt s ctx d c key (fun n => withBits n 160 32 noNode)
              let s := writeTree s ctx desc key (withBits (withBits (withBits d 96 32 c) 288 8 gen) 300 1 1)
              let sibs := ((List.range (nodeCnt n)).map (fun j => nodeFirst n + j)).filter (fun u => u != c && u < treeNpool d)
              let runs := [(nodeFirst n, c - nodeFirst n, 0), (c + 1, nodeFirst n + nodeCnt n - c - 1, 0), (root, 1, 0)]
              let r : Reclaim := ⟨ctx, desc, root, c, before, root :: sibs, [], runs.filter (fun b => b.2.1 != 0)⟩
              ({ s with reclaims := s.reclaims ++ [r] }, .val (gen * 256))

/-- A run pushed at FREEH (R326): its nodes await reclaim no longer, and are free. -/
def pushRun (s : State) (ctx desc key : Nat) (b : Nat × Nat × Nat) : State :=
  match readTree s ctx desc key with
  | .error _ => s
  | .ok d =>
    let s := (List.range b.2.1).foldl (fun s j => updNodeAt s ctx d (b.1 + j) key (fun n => withBits (withBits n 227 1 0) 228 1 1)) s
    let s := updNodeAt s ctx d b.1 key (fun n => withBits (withBits n 160 32 (treeFreeh d)) 128 32 b.2.1)
    writeTree s ctx desc key (withBits d 128 32 b.1)

/-- A visit to a DEAD node (R326). The children of the old root were marked by the `TREUSE`. -/
def visit (s : State) (r : Reclaim) (u key : Nat) : State × Reclaim :=
  match readTree s r.ctx r.desc key with
  | .error _ => (s, { r with dead := [], blocks := [] })
  | .ok d =>
    let r := { r with dead := r.dead.filter (fun v => v != u), seen := u :: r.seen }
    match readNode s r.ctx d u .read key with
    | .error _ => (s, r)
    | .ok (_, n) =>
      if u == r.old || !nodeExp n || nodeCnt n == 0 then (s, r)
      else
        let s := markDead s r.ctx d key (nodeFirst n) (nodeCnt n) (treeRoot d)
        let cs := ((List.range (nodeCnt n)).map (fun j => nodeFirst n + j)).filter (fun v =>
          v != treeRoot d && v < treeNpool d && !r.seen.contains v && !r.dead.contains v)
        (s, { r with dead := r.dead ++ cs, blocks := r.blocks ++ [(nodeFirst n, nodeCnt n, 0)] })

/-- Runs all of whose nodes have been visited are pushed. -/
def pushSeen (s : State) (r : Reclaim) (key : Nat) : State × Reclaim :=
  let full := fun (b : Nat × Nat × Nat) => (List.range b.2.1).all (fun j => r.seen.contains (b.1 + j))
  ((r.blocks.filter full).foldl (fun s b => pushRun s r.ctx r.desc key b) s, { r with blocks := r.blocks.filter (fun b => !full b) })

/-- RECL falls when no reclaim of the tree is left (R326). -/
def endReclaim (s : State) (r : Reclaim) (key : Nat) : State :=
  if s.reclaims.any (fun q => q.ctx == r.ctx && q.desc == r.desc) then s
  else
    match readTree s r.ctx r.desc key with
    | .ok d => writeTree s r.ctx r.desc key (withBits d 300 1 0)
    | .error _ => s

/-- Whether the operations a reclaim waits for have completed. -/
def reclaimReady (s : State) (r : Reclaim) : Bool :=
  !r.before.any (fun b => ((s.grp b.1).path pathTre).ops.any (fun o => o.seq == b.2 && !o.done))

/-- The next visit of the `k`-th reclaim, to a DEAD node of its choice (R326). -/
def reclaimStep (s : State) (k n : Nat) : State :=
  match s.reclaims[k]? with
  | none => s
  | some r =>
    if !reclaimReady s r then s
    else
      let s := { s with draws := s.draws + 1 }
      let key := freeKey s.draws 23 0
      let (s, r) := match r.dead[n % r.dead.length]? with
        | some u => let (s, r) := visit (enterLandau s r.ctx r.desc key (nodesOf s r.ctx r.desc u key)) r u key; pushSeen s r key
        | none => (s, r)
      if r.dead.isEmpty then endReclaim { s with reclaims := s.reclaims.eraseIdx k } r key
      else { s with reclaims := s.reclaims.set k r }

/-! ### Operations at work (R318, R319, R328) -/

/-- The lanes of an operation replaced. -/
def AsyncKind.withLanes (l : List TreeLane) : AsyncKind → AsyncKind
  | .tdesc d v b _ => .tdesc d v b l
  | .texp d v b _ => .texp d v b l
  | .tback d m _ => .tback d m l
  | .tnode d v k _ => .tnode d v k l
  | k => k

/-- Whether the results of an operation are a backup's, which has none. -/
def AsyncKind.isBack : AsyncKind → Bool
  | .tback .. => true
  | _ => false

/-- A lane's arrival at Landau: its index and its other operands are checked (R328). -/
def arriveLane (k : AsyncKind) (d : Nat) (l : TreeLane) : Except LVal TreeLane :=
  let at_ := fun (u : Nat) (ok : Bool) =>
    if treeNpool d ≤ u then .error (.bad .bounds) else if ok then .ok { l with node := u, phase := 4 } else .error (.bad .malformed)
  match k with
  | .tdesc _ _ b _ => at_ (treeRoot d) (match b with | some o => o % 16 == 0 | none => true)
  | .texp _ _ _ _ => at_ l.node (1 ≤ l.k && l.k ≤ 4096 && l.r % 8 == 0)
  | _ => at_ l.node true

/-- A lane that failed on arrival: a backup's token is orphaned, another's is the lane's result. -/
def arriveFail (g : Nat) (back : Bool) (l : TreeLane) (r : LVal) (s : State) (o : AsyncOp) : State × AsyncOp × TreeLane :=
  let (s, o, l) := failLane g l r s o
  match back, l.res with
  | true, .tok t :: _ => (orphan s g t, o, l)
  | _, _ => (s, o, l)

/-- An operation arrives: its descriptor is checked once for every lane (R328). -/
def arriveOp (s : State) (g : Nat) (o : AsyncOp) (desc key : Nat) : State × AsyncOp :=
  let d := checkTree s (s.grp g).ctx desc key
  let (s, o, ls) := o.kind.lanes.foldl (fun (r : State × AsyncOp × List TreeLane) l =>
    let (s, o, ls) := r
    if l.phase != 3 then (s, o, ls ++ [l])
    else
      match d with
      | .error e => let (s, o, l) := arriveFail g o.kind.isBack l e s o; (s, o, ls ++ [l])
      | .ok d =>
        match arriveLane o.kind d l with
        | .error e => let (s, o, l) := arriveFail g o.kind.isBack l e s o; (s, o, ls ++ [l])
        | .ok l => (s, o, ls ++ [{ l with came := s.draws }])) (s, o, [])
  (s, { o with kind := o.kind.withLanes ls })

/-- Late results of an operation whose group still lives: `regs` results of each lane from v[d] (R81, R399). -/
def laneResults (s : State) (g d regs : Nat) (ls : List TreeLane) : State :=
  if (s.grp g).ended then s
  else
    put s g (ls.flatMap (fun l => ((l.res.take regs).zip (List.range regs)).map (fun e =>
      (⟨.v, d + e.2, l.lane, match e.1 with
        | .val n => ⟨BitVec.ofNat 32 n, false⟩
        | .tok t => ⟨t, true⟩
        | .new _ => Val.zero
        | .beside _ => Val.zero⟩ : RegWrite))))

/-- The entry of a batch for one lane (R318). -/
def batchEntry (l : TreeLane) : List (Nat × Option Word) :=
  match l.res with
  | [.val leaf, .val depth, .val st] => [(leaf, none), (l.value.toNat, none), (depth, none), (st + l.lane * 256, none)]
  | .tok t :: _ => List.replicate 4 (0, some t)
  | _ => []

/-- The batch of a `TDESC` (R318); it lands while the team lives (R399). -/
def writeBatch (s : State) (g : Nat) (o : AsyncOp) (off : Nat) (ls : List TreeLane) : State × AsyncOp :=
  let x := s.grp g
  if !Map.has s.teams x.team || off % 16 != 0 then (s, o)
  else if scrBytes s x.team < off + 16 + 16 * ls.length then opFlag s g o { cause := .bounds }
  else
    let fresh := (ls.filter (fun l => l.status == 0 && l.res.all LVal.isVal)).length
    (putLate (drainScr s g) g o x.team off ([(ls.length, none), (fresh, none), (0, none), (0, none)] ++ ls.flatMap batchEntry), o)

/-- An operation whose lanes have all ended completes (R318, R323 to R327). -/
def finishTree (s : State) (g : Nat) (o : AsyncOp) : State × AsyncOp :=
  if o.kind.lanes.any (fun l => l.phase != 2) then (s, o)
  else
    match o.kind with
    | .tdesc _ d b ls =>
      let (s, o) := match b with
        | some off => writeBatch s g o off ls
        | none => (s, o)
      (laneResults s g d 3 ls, { o with done := true })
    | .texp _ d _ ls => (laneResults s g d 2 ls, { o with done := true })
    | .tnode _ d _ ls => (laneResults s g d 4 ls, { o with done := true })
    | _ => (s, { o with done := true })

/-- One step of a lane of an operation. -/
def stepLane (s : State) (g : Nat) (o : AsyncOp) (key : Nat) (l : TreeLane) : State × AsyncOp × TreeLane :=
  if l.phase == 5 then stepAbort s g o ((o.kind.tree).getD 0) key l
  else
    match o.kind with
    | .tdesc desc _ _ _ => stepDescent s g o desc key l
    | .texp desc _ boff _ => stepExpand s g o desc boff key l
    | .tback desc mode _ => stepBack s g o desc mode key l
    | .tnode desc _ link _ => stepRead s g o desc link key l
    | _ => (s, o, l)

/-- Whether an earlier operation of the group on the tree has not yet arrived (R319). -/
def behindOp (x : Group) (o : AsyncOp) : Bool :=
  (x.path pathTre).ops.any (fun a => a.seq < o.seq && !a.done && a.kind.tree == o.kind.tree
    && (a.kind.lanes.isEmpty || a.kind.lanes.any (fun l => l.phase == 3)))

/-- The node at which a lane's next step is. -/
def TreeLane.spot (l : TreeLane) : Nat := if l.phase == 1 || l.phase == 5 then l.path.headD l.node else l.node

/-- Whether a lane that came to node `u` before the arrival numbered `came` still waits there for its step (R319). -/
def behindLane (s : State) (ctx desc u came : Nat) : Bool :=
  (s.lanesOn ctx desc).any (fun l => (l.phase == 4 || l.phase == 5) && l.spot == u && l.came < came)

/-- A lane reaches the node of its next step, or steps there in its turn (R319). -/
def moveLane (s : State) (g : Nat) (o : AsyncOp) (key : Nat) (l : TreeLane) : State × AsyncOp × TreeLane :=
  if l.phase == 0 || l.phase == 1 then (s, o, { l with phase := l.phase + 4, came := s.draws })
  else if behindLane s (s.grp g).ctx ((o.kind.tree).getD 0) l.spot l.came then (s, o, l)
  else
    let desc := (o.kind.tree).getD 0
    stepLane (enterLandau s (s.grp g).ctx desc key (nodesOf s (s.grp g).ctx desc l.spot key)) g o key l

/-- The requests of a group's operation at a tree count as its kernel's traffic where another region's Landau owns the tree (R64). -/
def countTree (s : State) (x : Group) (desc key n : Nat) : State :=
  match readTree s x.ctx desc key with
  | .ok d => if treeHome d == dieOf x.core then s else s.countBytes x (dieOf x.core) (32 * n)
  | .error _ => s

/-- The next step of a tree operation: its arrival, or one of its lanes' arrival at a node or step there (R319). -/
def unitTree (s : State) (g : Nat) (o : AsyncOp) (pick : Nat) : State × AsyncOp :=
  let x := s.grp g
  let s := { s with draws := s.draws + 1 }
  let key := freeKey s.draws 23 0
  if behindOp x o then (s, o)
  else if o.kind.lanes.any (fun l => l.phase == 3) then
    let desc := (o.kind.tree).getD 0
    let s := countTree s x desc key (o.kind.lanes.filter (fun l => l.phase == 3)).length
    let (s, o) := arriveOp (enterLandau s x.ctx desc key []) g o desc key
    finishTree s g o
  else
    let live := o.kind.lanes.filter (fun l => l.phase != 2)
    match live[pick % live.length]? with
    | none => finishTree s g o
    | some l =>
      let (s, o, l') := moveLane s g o key l
      finishTree s g { o with kind := o.kind.withLanes (o.kind.lanes.map (fun a => if a.lane == l.lane then l' else a)) }

/-- `TREUSE` at the root (R326). -/
def unitReuse (s : State) (g : Nat) (o : AsyncOp) (desc c sd : Nat) : State × AsyncOp :=
  let x := s.grp g
  let s := { s with draws := s.draws + 1 }
  let key := freeKey s.draws 23 0
  let root := match readTree s x.ctx desc key with
    | .ok d => treeRoot d
    | .error _ => noNode
  if behindOp x o || behindLane s x.ctx desc root s.draws then (s, o)
  else
    let out := fun (s : State) (v : Val) => if (s.grp g).ended || o.played then s else put s g [⟨.s, sd, 0, v⟩]
    match reuse (enterLandau (countTree s x desc key 1) x.ctx desc key (root :: nodesOf s x.ctx desc c key)) x.ctx desc c key with
    | (s, .val n) => (out s ⟨BitVec.ofNat 32 n, false⟩, { o with done := true })
    | (s, r) => let (s, o, t) := failTok s g o o.lane r; (if o.played then orphan s g t else out s ⟨t, true⟩, { o with done := true })

/-! ### A log played in the root (R344) -/

/-- A logged `TBACK` lane is issued by the play of its log. -/
def playTback (s : State) (g : Nat) (pc : BitVec 64) (desc mode leaf : Nat) (value : Word) : State :=
  playOp s g pathTre 0 pc (.tback desc mode [⟨0, leaf, 0, [], 0, 0, value, false, 3, [], 0, 0, 0⟩])

/-- A logged `TREUSE` is issued by the play of its log; it writes no register (R326, R344). -/
def playTreuse (s : State) (g : Nat) (pc : BitVec 64) (desc c : Nat) : State := playOp s g pathTre 0 pc (.treuse desc c 0)

/-! ### The words (R322 to R328) -/

/-- Literal fields that no instruction lets be nonzero (R322). -/
def treeRsv (l : TreeLit) : Bool := l.rsv != 0 || l.desc.toNat % 2 == 1

/-- A lane as its word issues: ended with a token where a source is no value (R328). -/
def issueLane (wx : Wx) (i : Nat) (r : Except LVal TreeLane) (s : State) (ts : Toks) : State × Toks × TreeLane :=
  let blank : TreeLane := ⟨i, 0, 0, [], 0, 0, 0, false, 2, [], 0, 0, 0⟩
  match r with
  | .ok l => (s, ts, l)
  | .error (.tok t) => (s, ts, blank.poisoned t)
  | .error (.new f) => let (s, ts, t) := poison s wx.g wx.pc ts f i; (s, ts, blank.poisoned t)
  | .error (.val _) => (s, ts, blank)
  | .error (.beside _) => (s, ts, blank)

/-- The lanes of a word as it issues, in ascending order. -/
def issueLanes (wx : Wx) (f : Nat → Except LVal TreeLane) (s : State) : State × Toks × List TreeLane :=
  wx.lanes.foldl (fun (r : State × Toks × List TreeLane) i =>
    let (s, ts, ls) := r
    let (s, ts, l) := issueLane wx i (f i) s ts
    (s, ts, ls ++ [l])) (s, [], [])

/-- A tree operation issues on the `tre` path. -/
def issueTree (wx : Wx) (regs : List (RFile × Nat)) (f : Nat → Except LVal TreeLane) (kind : List TreeLane → AsyncKind) (s : State) : State :=
  if wx.act == 0 then s
  else
    let (s, ts, ls) := issueLanes wx f s
    let x := s.grp wx.g
    let s := issueOp s wx.g pathTre (s.viewOf x) (lowest wx.act) wx.act wx.pc false regs (kind ls)
    let bad := ls.any (fun l => l.phase == 2)
    s.updGrp wx.g (fun y => { y with paths := y.paths.map (fun p => if p.1 == pathTre then
      (p.1, { p.2 with ops := p.2.ops.map (fun o => if o.seq == x.seq then { o with toks := ts, pf := bad } else o) }) else p) })

/-- `n` registers of the v file from `d`. -/
def vRegs (d n : Nat) : List (RFile × Nat) := (List.range n).map (fun k => (RFile.v, d + k))

/-- A lane that begins its operation at node `u` when `r` is a value. -/
def laneAt (i u k r : Nat) (value : Word) : TreeLane := ⟨i, u, 0, [], k, r, value, false, 3, [], 0, 0, 0⟩

/-- The value of a register, or the failure it carries. -/
def LVal.must : LVal → Except LVal Nat
  | .val n => .ok n
  | e => .error e

/-- VIEW_SCOPE in every destination (R321, R342). -/
def viewRefused (d n : Nat) (wx : Wx) (s : State) : State := finishLanes true ⟨.v, d, n⟩ false (fun _ => .bad .viewScope) wx s

/-- Where the batch of a `TDESC` with BEN = 1 would lie, if it fits (R318). -/
def batchPlace (l : TreeLit) (wx : Wx) (s : State) : Option (Nat × Nat) :=
  match l.ben == 1, wx.sReg 10 l.boff.toNat with
  | true, .val o => if o % 16 == 0 && o + 16 + 16 * wx.lanes.length ≤ scrBytes s wx.x.team then some (o, 4 + 4 * wx.lanes.length) else none
  | _, _ => none

/-- A `TDESC` that is refused poisons its registers and the words of its batch with one token (R88, R321). -/
def refuseTdesc (d : Nat) (l : TreeLit) (f : Fail) (wx : Wx) (s : State) : State :=
  let batch := batchPlace l wx s
  if wx.act == 0 || (wx.budget ≤ d && batch.isNone) then s
  else
    let (s, t) := newEntry s wx.g wx.pc f (lowest wx.act)
    let s := if wx.budget ≤ d then s else finishLanes true ⟨.v, d, min 3 (wx.budget - d)⟩ false (fun _ => .tok t) wx s
    match batch with
    | some (o, n) => putScr (drainScr s wx.g) wx.x.team o (List.replicate n (0, some t))
    | none => s

/-- `TDESC` (R322, R323). -/
def execTdesc (w : WA) (l : TreeLit) (s : State) : Out :=
  let d := w.d.toNat
  visibleLane w.pred
    (fun wx => treeRsv l || l.mode != 0 || (l.ben == 0 && l.boff != 0) || w.a != 0 || w.b != 0 || wx.budget < d + 3)
    (refuseTdesc d l { cause := .malformed })
    (fun _ wx s =>
      if s.viewOf wx.x != 0 then refuseTdesc d l { cause := .viewScope } wx s
      else
        let desc := wx.sPair 8 l.desc.toNat
        let boff := if l.ben == 1 then wx.sReg 10 l.boff.toNat else .val 0
        issueTree wx (vRegs d 3)
          (fun i => match desc, boff with
            | .val _, .val _ => .ok (laneAt i 0 0 0 0)
            | .val _, e => .error e
            | e, _ => .error e)
          (.tdesc (match desc with | .val n => n | _ => 0) d (match l.ben == 1, boff with | true, .val o => some o | _, _ => none)) s) s

/-- `TEXP` (R322, R324). -/
def execTexp (w : WA) (l : TreeLit) (s : State) : Out :=
  let d := w.d.toNat
  let a := w.a.toNat
  visibleLane w.pred
    (fun wx => treeRsv l || l.mode != 0 || l.ben != 0 || w.b != 0 || wx.budget < d + 2)
    (poisonLate d 2)
    (fun _ wx s =>
      if s.viewOf wx.x != 0 then viewRefused d 2 wx s
      else
        let desc := wx.sPair 8 l.desc.toNat
        let boff := wx.sReg 10 l.boff.toNat
        issueTree wx (vRegs d 2)
          (fun i => match wx.lane 1 0 a i false, wx.lane 1 1 (a + 1) i false, wx.lane 1 2 (a + 2) i false, desc, boff with
            | .val u, .val k, .val r, .val _, .val _ => .ok (laneAt i u k r 0)
            | .val _, .val _, .val _, .val _, e => .error e
            | .val _, .val _, .val _, e, _ => .error e
            | .val _, .val _, e, _, _ => .error e
            | .val _, e, _, _, _ => .error e
            | e, _, _, _, _ => .error e)
          (.texp (match desc with | .val n => n | _ => 0) d (match boff with | .val o => o | _ => 0)) s) s

/-- The sources of one lane of `TBACK`: leaf, value, descriptor (R322, R325). -/
def backLane (wx : Wx) (w : WA) (mode : Nat) (desc : LVal) (i : Nat) : Except LVal TreeLane :=
  match wx.lane 1 0 w.a.toNat i false, (if mode == 2 then .val 0 else wx.lane 1 2 w.b.toNat i false), desc with
  | .val u, .val v, .val _ => .ok (laneAt i u 0 0 (BitVec.ofNat 32 v))
  | .val _, .val _, e => .error e
  | .val _, e, _ => .error e
  | e, _, _ => .error e

/-- A `TBACK` in a non-root view: one entry of the log for each lane (R321, R341). -/
def logTback (wx : Wx) (v desc mode : Nat) (ls : List TreeLane) (ts : Toks) (s : State) : State :=
  let (s, _, fl) := ls.foldl (fun (r : State × Toks × Flags) l =>
    let (s, ts, fl) := r
    if l.phase == 2 then r
    else
      match logOp s wx.g v (.tback desc mode l.node l.value) with
      | some s => (s, ts, fl)
      | none => let (s, ts, more) := failLanes s wx.g wx.pc ts { cause := .viewLogFull } [l.lane]; (s, ts, fl ++ more)) (s, ts, [])
  flagAll s wx.g fl

/-- `TBACK` (R322, R325). -/
def execTback (w : WA) (l : TreeLit) (s : State) : Out :=
  let mode := l.mode.toNat
  visibleLane w.pred
    (fun _ => treeRsv l || mode == 3 || l.ben != 0 || l.boff != 0 || w.d != 0 || (mode == 2 && w.b != 0))
    reservedUse
    (fun _ wx s =>
      let pair := wx.sPair 8 l.desc.toNat
      let desc := match pair with | .val n => n | _ => 0
      let v := s.viewOf wx.x
      let (s', ts, ls) := issueLanes wx (backLane wx w mode pair) s
      let s' := flagAll s' wx.g (ls.filterMap (fun l => match l.res with | .tok t :: _ => some (l.lane, t, false) | _ => none))
      if v != 0 then logTback wx v desc mode ls ts s'
      else
        let y := s'.grp wx.g
        if wx.act == 0 then s
        else
          let s := issueOp s' wx.g pathTre v (lowest wx.act) wx.act wx.pc false [] (.tback desc mode ls)
          s.updGrp wx.g (fun x => { x with paths := x.paths.map (fun p => if p.1 == pathTre then
            (p.1, { p.2 with ops := p.2.ops.map (fun o => if o.seq == y.seq then { o with toks := ts, pf := ls.any (fun l => l.phase == 2) } else o) })
            else p) })) s

/-- `TREUSE` (R322, R326, R328): a failure's token goes to s[SD]. -/
def execTreuse (w : WS) (s : State) : Out :=
  let sd := w.sd.toNat
  visibleChecked w.qual
    (fun _ wx =>
      if w.sub != 0 || oddReg w.sa.toNat then .error (.bad .malformed)
      else operands2 (wx.sPair 0 w.sa.toNat) (wx.sReg 2 w.sb.toNat))
    (fun r => finishS true sd 1 r)
    (fun p _ wx s =>
      let v := s.viewOf wx.x
      if v != 0 then
        match logOp s wx.g v (.treuse p.1 p.2) with
        | some s => finishS true sd 1 (.val 2) wx s
        | none => finishS true sd 1 (.bad .viewLogFull) wx s
      else issueOp s wx.g pathTre v (lowest wx.act) wx.act wx.pc false [(.s, sd)] (.treuse p.1 p.2 sd)) s

/-- `TNODE` of both forms (R322, R327). -/
def tnodeWord (w : WA) (link : Bool) (s : State) : Out :=
  let d := w.d.toNat
  visibleLane w.pred
    (fun wx => w.b.toNat % 2 == 1 || wx.budget < d + 4)
    (poisonLate d 4)
    (fun _ wx s =>
      let desc := wx.sPair 8 (w.b.toNat % 64)
      issueTree wx (vRegs d 4)
        (fun i => match wx.lane 1 0 w.a.toNat i false, desc with
          | .val u, .val _ => .ok (laneAt i u 0 0 0)
          | .val _, e => .error e
          | e, _ => .error e)
        (.tnode (match desc with | .val n => n | _ => 0) d link) s) s

/-- `TNODE` (R327). -/
def execTnode (w : WA) (s : State) : Out := tnodeWord w false s
/-- `TNODE.link` (R327). -/
def execTnodeLink (w : WA) (s : State) : Out := tnodeWord w true s

end Sys2Proof.Machine
end

