-- ==== Sys2Proof/Machine/Fabric.lean ====
section
/-! DEFINITION. The scale-up fabric (R355 to R369): multicast groups, the words `STMC` and `REDMC`, reduction instances, and what
arrives from the fabric. -/
namespace Sys2Proof.Machine

/-! ### Groups and planes (R356, R360) -/

/-- The entry of a leaf for a group. -/
def State.leafEntry (s : State) (leaf gid : Nat) : Nat := (Map.get 0 s.mcLeaf (4096 * leaf + gid)).toNat

def leafDown (e : Nat) : Nat := bits e 64 64
def leafRspine (e : Nat) : Nat := bits e 58 6
def leafUp (e : Nat) : Bool := bit e 57
def leafV (e : Nat) : Bool := bit e 56
def leafNmem (e : Nat) : Nat := bits e 45 11
def leafRbase (e : Nat) : Nat := bits e 35 10

/-- The leaves a packet of the package reaches: its own, and through the root spine those in LEAVES (R361). -/
def State.mcLeaves (s : State) (gid : Nat) : List Nat :=
  let own := s.peerNo / 64
  let e := s.leafEntry own gid
  let sp := (Map.get 0 s.mcSpine (4096 * leafRspine e + gid)).toNat
  own :: (if leafUp e && bit sp 64 then (List.range 64).filter (fun l => bit sp l && l != own) else [])

/-- The members a leaf delivers to: rank and peer number (R360). -/
def leafMembers (leaf e : Nat) : List (Nat × Nat) :=
  if !leafV e then []
  else ((List.range 64).filter (fun k => bit (leafDown e) k)).map (fun k => (leafRbase e + popCount k (leafDown e), 64 * leaf + k))

/-- The members of a group, by rank (R360, R361). -/
def State.members (s : State) (gid : Nat) : List (Nat × Nat) :=
  ((s.mcLeaves gid).flatMap (fun l => leafMembers l (s.leafEntry l gid))).foldl (fun m e => Map.put m e.1 e.2) []

/-- Whether a package's port on a plane is up. -/
def State.portUp (s : State) (peer plane : Nat) : Bool := !Map.get false s.portDown (16 * peer + plane)

/-- The plane of a fabric offset of a group: bits 9:6 counted through the planes that are live for its members (R356, R368); none is live where
every one of them has lost some port. -/
def State.planeOf (s : State) (gid off : Nat) : Option Nat :=
  let live := (List.range 16).filter (fun p => ((s.members gid).map (·.2) ++ [s.peerNo]).all (fun q => s.portUp q p))
  live[bits off 6 4 % live.length]?

/-! ### Statuses (R361) -/

/-- The failure a status stands for, of the member at a rank (R361, R366). -/
def statusFail (st det rank peer : Nat) : Option Fail :=
  let f := fun (c : Cause) (d : Detail) => some ({ cause := c, detail := d, akind := .peer, addr := peer, item := rank } : Fail)
  match st with
  | 1 => f .remoteUnmapped .none
  | 2 => f .peerDead .none
  | 3 => f .linkTimeout .fabricLink
  | 4 => f .fpInvalid .none
  | 5 => f .peerInvalid (if det == Detail.code .unpopulated then .unpopulated else if det == Detail.code .disabled then .disabled else .outsidePartition)
  | _ => none

/-- What the sender's own peer-state table says of a member (R361): status and detail. -/
def State.peerStatus (s : State) (peer : Nat) : Option (Nat × Nat) :=
  match Map.get 0 s.peers peer with
  | 0 => some (5, Detail.code .unpopulated)
  | 1 => some (5, Detail.code .disabled)
  | 3 => some (2, 0)
  | _ => none

/-! ### Sending -/

/-- Bytes written from a device key on, by the sectors they fall in: key of the sector and bytes. -/
def bySector (key : Nat) (bs : List (Nat × Byte)) : List (Nat × List (Nat × Byte)) :=
  let at_ := bs.map (fun b => (key + b.1, b.2))
  ((at_.map (fun b => b.1 / 32)).eraseDups).map (fun k => (k, (at_.filter (fun b => b.1 / 32 == k)).map (fun b => (b.1 % 32, b.2))))

/-- Bytes of the root written; with a token the sectors they fall in are poisoned. -/
def rootBytes (s : State) (key : Nat) (bs : List (Nat × Byte)) (token : Option Word) : State :=
  (bySector key bs).foldl (fun s e => s.writeRoot e.1 e.2 token) s

/-- A packet that arrives at the package's own window is admitted whole or refused (R358): the state, and status 0 or REMOTE_UNMAPPED. A poisoned
result names no bytes: it poisons its sector (R365). -/
def mcDeliver (s : State) (ftid off : Nat) (k : InKind) (bs : List (Nat × Byte)) (token : Option Word) : State × Nat :=
  match inbound s ftid off k with
  | some key => (if token.isSome then s.writeRoot (key / 32) bs token else rootBytes s key bs none, 0)
  | none => (s, 1)

/-- Whether the package's own copy or result of an offset comes back to it: over a live plane, and unless every resend fails, which is free (R361). -/
def comesBack (s : State) (gid off : Nat) : Bool :=
  (s.planeOf gid off).isSome && !Config.freeBit (Config.freeNat ((s.draws * 256 + 49) * 2048) + 4096 * off + gid)

/-- A packet of an `STMC` leaves: the package's own copy performs, and its status is kept (R361). -/
def sendCopy (s : State) (ctx gid : Nat) (q : McSector) : State × McSector :=
  match (s.members gid).find? (fun m => m.2 == s.peerNo) with
  | some (rank, p) =>
    if (s.peerStatus p).isSome then (s, { q with sent := true })
    else if !comesBack s gid q.off then (s, { q with sent := true, acks := [(rank, 3, 0)] })
    else
      let (s, st) := mcDeliver s (s.ftid ctx) q.off .write (plainBytes q.bytes) none
      (s, { q with sent := true, acks := [(rank, st, 0)] })
  | none => (s, { q with sent := true })

/-- The elements of a reduction sector, one for each lane: offset, value or token (R365). -/
def elements (size : Nat) (q : McSector) : List (Nat × Nat × Option Word) :=
  (q.bytes.map (fun b => b.2.2)).eraseDups.filterMap (fun i =>
    let bs := q.bytes.filter (fun b => b.2.2 == i)
    match bs with
    | [] => none
    | b :: _ => some (b.1, ofBytes (bs.map (fun b => b.2.1)) % 2 ^ (8 * size), (q.toks.find? (fun t => t.1 == i)).map (·.2)))

/-- A sector of a `REDMC` leaves: it joins its instance on a plane, or the leaf refuses a sender that is no member (R356, R365). -/
def sendShare (s : State) (op : Nat × Nat) (gid size aop : Nat) (q : McSector) : State × McSector :=
  let ms := s.members gid
  if !ms.any (fun m => m.2 == s.peerNo) then
    (s, { q with sent := true, acks := ms.map (fun m => (m.1, 5, Detail.code .outsidePartition)) })
  else
    let key := 2 ^ 41 * gid + q.off
    let n := Map.get 0 s.mcSeq key
    match s.planeOf gid q.off with
    | none => (s, { q with sent := true, acks := ms.map (fun m => (m.1, 3, 0)) })
    | some plane =>
      ({ s with mcSeq := Map.put s.mcSeq key (n + 1), reds := s.reds ++ [⟨gid, q.off, n, op, size, aop, elements size q, plane⟩] },
        { q with sent := true, inst := n })

/-! ### Completion (R366) -/

/-- The statuses of each member over all packets of an operation, each once, with rank and peer: 0 where every one is 0. `sts` are the
statuses returned by other packages. -/
def mergeStatus (s : State) (gid : Nat) (secs : List McSector) (sts : List (Nat × Nat)) : List (Nat × Nat × Nat × Nat) :=
  (s.members gid).flatMap (fun m =>
    let acks := secs.flatMap (fun q => (q.acks.filter (fun a => a.1 == m.1 && a.2.1 != 0)).map (·.2))
    let back := if m.2 == s.peerNo then [] else (sts.filter (fun e => e.1 == m.1 && e.2 % 6 != 0)).map (fun e => (e.2 % 6, 0))
    match s.peerStatus m.2, (acks ++ back).eraseDups with
    | some (st, d), _ => [(m.1, m.2, st, d)]
    | none, [] => [(m.1, m.2, 0, 0)]
    | none, l => l.map (fun e => (m.1, m.2, e.1, e.2)))

/-- The member an entry names for a status: of PEER_DEAD a dead one first, else the lowest in rank (R366, R369). -/
def namedMember (s : State) (st : Nat) (ms : List (Nat × Nat × Nat × Nat)) : Option (Nat × Nat × Nat × Nat) :=
  let l := ms.filter (fun m => m.2.2.1 == st)
  match l.find? (fun m => Map.get 0 s.peers m.2.1 == 3) with
  | some m => some m
  | none => l.head?

/-- One entry for each cause among the statuses (R366); of a played entry the token is orphaned (R344). -/
def statusEntries (s : State) (g : Nat) (o : AsyncOp) (lane : Nat) (ms : List (Nat × Nat × Nat × Nat)) : State × AsyncOp :=
  [1, 2, 3, 4, 5].foldl (fun (r : State × AsyncOp) st =>
    match namedMember r.1 st ms with
    | some (rank, peer, _, d) =>
      match statusFail st d rank peer with
      | some f => let (s, t) := newEntryIn r.1 g r.2.rid r.2.pc f lane; (if r.2.played then orphan s g t else s, { r.2 with pf := true })
      | none => r
    | none => r) (s, o)

/-- Orphaned poison of a bitmap that cannot be written: one BOUNDS token (R366). -/
def bitmapFail (s : State) (g : Nat) (o : AsyncOp) (f : Fail) : State :=
  let (s, t) := newEntryIn s g o.rid o.pc f o.lane
  orphan s g t

/-- The failure bitmap (R366); a token for one that is not written is held as orphaned poison, whatever region is open by now. -/
def writeBitmap (s : State) (g : Nat) (o : AsyncOp) (nmem : Nat) (ack : Option LVal) (ms : List (Nat × Nat × Nat × Nat)) : State × AsyncOp :=
  let x := s.grp g
  let bytes := 32 * ((nmem + 255) / 256)
  match ack with
  | none => (s, o)
  | some (.val off) =>
    if !Map.has s.teams x.team then (s, o)
    else if off % 32 != 0 || scrBytes s x.team < off + bytes then (bitmapFail s g o { cause := .bounds }, o)
    else
      let m := ms.foldl (fun a e => if e.2.2.1 != 0 then a ||| 2 ^ e.1 else a) 0
      (putLate (drainScr s g) g o x.team off ((List.range (bytes / 4)).map (fun k => (bits m (32 * k) 32, none))), o)
  | some (.tok t) => (orphan s g t, o)
  | some (.new f) => (bitmapFail s g o f, o)
  | some (.beside _) => (s, o)

/-- The lowest lane that sent a sector. -/
def sendLane (secs : List McSector) (o : AsyncOp) : Nat :=
  ((secs.flatMap (fun q => q.bytes.map (fun b => b.2.2))).foldl (fun (a : Option Nat) i => some (match a with | some b => min b i | none => i)) none).getD o.lane

/-- The aggregated acknowledgement of an operation that has sent every sector (R366). -/
def ackOp (s : State) (g : Nat) (o : AsyncOp) (sts : List (Nat × Nat)) : State × AsyncOp :=
  match o.kind with
  | .mcast _ gid _ _ ack secs =>
    let ms := mergeStatus s gid secs sts
    let (s, o) := statusEntries s g o (sendLane secs o) ms
    let (s, o) := writeBitmap s g o (leafNmem (s.leafEntry (s.peerNo / 64) gid)) ack ms
    (s, { o with done := true })
  | _ => (s, o)

/-- The next packet of a `STMC` or sector of a `REDMC` leaves; one that sends nothing completes (R364 to R366). -/
def unitMcast (s : State) (g : Nat) (o : AsyncOp) (red : Bool) (gid size aop : Nat) (ack : Option LVal) (secs : List McSector) :
    State × AsyncOp :=
  if secs.isEmpty then (s, { o with done := true })
  else
    match secs.find? (fun q => !q.sent) with
    | none => (s, o)
    | some q =>
      let s := { s.countBytes (s.grp g) 8 32 with draws := s.draws + 1 }
      let (s, q') := if red then sendShare s (g, o.seq) gid size aop q else sendCopy s (s.grp g).ctx gid q
      (s, { o with kind := .mcast red gid size aop ack (secs.map (fun a => if a.off == q.off then q' else a)) })

/-- Every sector sent, and no instance outstanding. -/
def mcastSettled (s : State) (g : Nat) (o : AsyncOp) : Bool :=
  match o.kind with
  | .mcast _ _ _ _ _ secs => !o.done && secs.all (·.sent) && !s.reds.any (fun r => r.op == (g, o.seq))
  | _ => false

/-- The aggregated acknowledgement returns (R366). -/
def execMulticastAckReturn (g k : Nat) (sts : List (Nat × Nat)) (s : State) : Out :=
  onDevice s (fun s =>
    match ((s.grp g).path pathFab).ops[k]? with
    | none => s
    | some o =>
      if mcastSettled s g o then
        let (s, o) := ackOp s g o sts
        storeOp s g pathFab o
      else s)

/-! ### Reductions (R365) -/

/-- A combination of elements in a float format: exact, rounded once to nearest even. -/
def exactSum (F : FFmt) (vs : List Nat) : Option Nat :=
  let xs := vs.map F.decode
  if xs.any (·.isSNaN) then none
  else
    let r := xs.foldl (fun (a : Option FNum) x => a.bind (fun y => FNum.add .rne y x)) (some (.fin true 0 0))
    match r with
    | none => none
    | some x =>
      -- opposite infinities are invalid whatever stands beside them
      if xs.any (fun x => x == .inf false) && xs.any (fun x => x == .inf true) then none
      else if x.isNaN then some F.qnan else some (roundFloat F .rne x)

/-- One element of every value that names it (R365): `none` is an invalid operation. -/
def combine (aop size : Nat) (vs : List Nat) : Option Nat :=
  match aop with
  | 8 =>
    if size == 4 then windowSum (vs.map (fun v => product 0 (fp32.decode v) (.fin false 1 0))) (.fin true 0 0) .rne
    else exactSum fp64 vs
  | 9 =>
    match exactSum bf16 (vs.map (fun v => v % 2 ^ 16)), exactSum bf16 (vs.map (fun v => bits v 16 16)) with
    | some l, some h => some (l + 2 ^ 16 * h)
    | _, _ => none
  | _ =>
    match vs with
    | [] => some 0
    | v :: vs => vs.foldl (fun a x => a.bind (fun a => atomicOp aop size a x 0)) (some v)

/-- Every contribution to an instance with its peer, in ascending order of peer. -/
def allShares (peerNo : Nat) (own : List (Nat × Nat × Option Word)) (others : List McShare) : List (Nat × List (Nat × Nat × Option Word)) :=
  (others.foldl (fun m q => Map.put m q.peer q.elems) [(peerNo, own)])

/-- The result of an instance: a token for the sector, the bytes written, or an invalid operation (R365). -/
def reduceAll (aop size : Nat) (shares : List (Nat × List (Nat × Nat × Option Word))) : Option (Option Word × List (Nat × Byte)) :=
  let es := shares.flatMap (·.2)
  match es.find? (fun e => e.2.2.isSome) with
  | some e => some (e.2.2, [])
  | none =>
    ((es.map (·.1)).eraseDups).foldl (fun (r : Option (Option Word × List (Nat × Byte))) off =>
      r.bind (fun p => (combine aop size ((es.filter (fun e => e.1 == off)).map (·.2.1))).map (fun v =>
        (p.1, p.2 ++ plainBytes (bytesAt off size v 0))))) (some (none, []))

/-- What an instance's end leaves in the operation that contributed: its sector's statuses, and PF where the result is poisoned. -/
def endInstance (s : State) (r : RedInst) (acks : List (Nat × Nat × Nat)) (poisoned : Bool) : State :=
  let s := { s with reds := s.reds.filter (fun q => q != r) }
  s.updGrp r.op.1 (fun x => { x with paths := x.paths.map (fun p => if p.1 == pathFab then
    (p.1, { p.2 with ops := p.2.ops.map (fun o =>
      if o.seq == r.op.2 then
        match o.kind with
        | .mcast red gid size aop ack secs =>
          { o with pf := o.pf || poisoned
                   kind := .mcast red gid size aop ack (secs.map (fun q => if q.off == r.off then { q with acks := acks } else q)) }
        | _ => o
      else o) }) else p) })

/-- The members that have not contributed to an instance. -/
def missing (s : State) (gid : Nat) (others : List McShare) : List (Nat × Nat) :=
  (s.members gid).filter (fun m => m.2 != s.peerNo && !others.any (fun q => q.peer == m.2))

/-- An instance ends (R365, R369): a member that is not up and has not contributed fails it at once; with every contribution there, an invalid
operation fails it, or every member receives the result. -/
def finishInstance (s : State) (r : RedInst) (others : List McShare) : State :=
  let ms := s.members r.gid
  let fail := fun (st : Nat) =>
    let acks := ms.map (fun m => match s.peerStatus m.2 with | some e => (m.1, e.1, e.2) | none => (m.1, st, 0))
    endInstance s r acks false
  let gone := missing s r.gid others
  if gone.any (fun m => (s.peerStatus m.2).isSome) then fail 2
  else if !gone.isEmpty then s
  else
    match reduceAll r.aop r.size (allShares s.peerNo r.elems others) with
    | none => fail 4
    | some (token, bs) =>
      let ctx := (s.grp r.op.1).ctx
      let (s, st) := match s.peerStatus s.peerNo with
        | some (st, _) => (s, st)
        | none => if comesBack s r.gid r.off then mcDeliver s (s.ftid ctx) r.off .atomic bs token else (s, 3)
      let acks := (ms.filter (fun m => m.2 == s.peerNo)).map (fun m => (m.1, st, 0))
      endInstance s r acks token.isSome

/-- Every member has contributed to an instance, or is known not to (R365, R369); what other packages contribute is an input. -/
def execReductionInstanceComplete (gid off n : Nat) (others : List McShare) (s : State) : Out :=
  onDevice s (fun s =>
    match s.reds.find? (fun r => r.gid == gid && r.off == off && r.n == n) with
    | none => s
    | some r => finishInstance s r others)

/-! ### The words (R362, R363) -/

/-- The multicast displacement of a literal. -/
def mcDisp (l : McLit) : Int := l.disp.toInt

/-- What `STMC` and `REDMC` refuse (R363). -/
def mcRsv (red : Bool) (w : WA) (l : McLit) : Bool :=
  let sz := l.sz.toNat
  !(sz == 4 || sz == 5 || (sz == 6 && !red)) || (if red then 10 ≤ l.aop.toNat || (sz == 5 && l.aop == 9) else l.aop != 0)
    || l.base.toNat % 2 == 1 || w.d != 0 || (l.ix == 0 && w.a != 0) || (l.acken == 0 && l.ackr != 0)

/-- The target offset of a lane, or why it sends nothing (R363). -/
def mcTarget (s : State) (wx : Wx) (w : WA) (l : McLit) (i : Nat) : Except LVal Nat :=
  let idx : LVal := if l.ix == 1 then wx.lane 1 0 w.a.toNat i false else .val 0
  let size := szBytes l.sz.toNat
  match wx.sPair 8 l.base.toNat, idx with
  | .val b, .val n =>
    let gid := bits b 41 12
    let t : Int := bits b 0 41 + mcDisp l + (if l.ix == 1 then sext 32 n * (2 ^ l.scale.toNat : Nat) else 0)
    if bits b 53 11 != 0 || t < 0 || (2 ^ 41 : Int) ≤ t then .error (.bad .bounds)
    else if t % size != 0 then .error (.new { cause := .bounds, detail := .misaligned })
    else if !(((s.ctxOf wx.x).map (fun c => c.gmask.getLsbD gid)).getD false) then
      .error (.new { cause := .peerInvalid, detail := .outsidePartition })
    else if !leafV (s.leafEntry (s.peerNo / 64) gid) then .error (.new { cause := .peerInvalid, detail := .unpopulated })
    else .ok t.toNat
  | .val _, e => .error e
  | e, _ => .error e

/-- A lane's part: its offset, data and the token of a poisoned reduction element. A poisoned source supplies the lane's token
before a failure of its target. -/
def mcLane (red : Bool) (s : State) (wx : Wx) (w : WA) (l : McLit) (i : Nat) : Except LVal (Nat × Nat × Option Word) :=
  match mcTarget s wx w l i, dataOf wx (szRegs l.sz.toNat) w.b.toNat i with
  | .ok off, .val v => .ok (off, v, none)
  | .ok off, .tok t => if red then .ok (off, 0, some t) else .error (.tok t)
  | .ok _, e => .error e
  | .error (.tok t), _ => .error (.tok t)
  | .error (.new ⟨.malformed, d, k, a, n⟩), _ => .error (.new ⟨.malformed, d, k, a, n⟩)
  | .error e, .val _ => .error e
  | .error e, d => .error (if red then e else d)

/-- The target of a reduction lane whose data registers lie outside the budget: it sends MALFORMED (R75, R363). -/
def mcBadData (red : Bool) (s : State) (wx : Wx) (w : WA) (l : McLit) (i : Nat) : Option Nat :=
  match red, mcTarget s wx w l i with
  | true, .ok off => some off
  | _, _ => none

/-- What a word sends, in units of 64-byte lines or 32-byte sectors: of an `STMC` the highest lane gives a byte that several write (R364, R365). -/
def mcSectors (red : Bool) (u n : Nat) (ls : List (Nat × Nat × Nat × Option Word)) : List McSector :=
  ((ls.map (fun e => e.2.1 / u)).eraseDups).map (fun b =>
    let mine := ls.filter (fun e => e.2.1 / u == b)
    let all := mine.flatMap (fun e => bytesAt (e.2.1 % u) n e.2.2.1 e.1)
    { off := u * b
      bytes := if red then all else all.foldl (fun bs b => bs.filter (fun c => c.1 != b.1) ++ [b]) []
      toks := mine.filterMap (fun e => e.2.2.2.map (fun t => (e.1, t)))
      inst := 0
      acks := []
      sent := false })

/-- The lanes that send, and the flags of those that do not (R363). -/
def mcLanes (red : Bool) (wx : Wx) (w : WA) (l : McLit) (s : State) : State × Toks × Flags × List (Nat × Nat × Nat × Option Word) :=
  let start := s
  wx.lanes.foldl (fun r i =>
    let (s, ts, fl, out) := r
    match mcLane red start wx w l i with
    | .ok e => (s, ts, fl, out ++ [(i, e)])
    | .error (.tok t) => (s, ts, fl ++ [(i, t, false)], out)
    | .error (.new f) =>
      let (s, ts, t) := poison s wx.g wx.pc ts f i
      match mcBadData red start wx w l i with
      | some off => (s, ts, fl, out ++ [(i, off, 0, some t)])
      | none => (s, ts, fl ++ [(i, t, false)], out)
    | .error (.val _) => (s, ts, fl, out)
    | .error (.beside _) => (s, ts, fl, out)) (s, [], [], [])

/-- Sectors logged in a non-root view (R341). -/
def logMcast (wx : Wx) (v gid size aop : Nat) (red rel : Bool) (secs : List McSector) (ts : Toks) (s : State) : State × Flags :=
  let (s, _, fl) := secs.foldl (fun (r : State × Toks × Flags) q =>
    let (s, ts, fl) := r
    match logOp s wx.g v (.multicast red gid size aop rel q) with
    | some s => (s, ts, fl)
    | none =>
      let (s, ts, more) := failLanes s wx.g wx.pc ts { cause := .viewLogFull } (q.bytes.map (fun b => b.2.2)).eraseDups
      (s, ts, fl ++ more)) (s, ts, [])
  (s, fl)

/-- `STMC` and `REDMC` (R362 to R367). -/
def mcWord (red : Bool) (w : WA) (l : McLit) (s : State) : Out :=
  visibleLane w.pred (fun _ => mcRsv red w l) reservedUse
    (fun _ wx s =>
      let v := s.viewOf wx.x
      let size := szBytes l.sz.toNat
      let gid := match wx.sPair 8 l.base.toNat with | .val b => bits b 41 12 | _ => 0
      let s := if l.rel == 1 && v == 0 then fullFence s wx.g 4 else s
      let (s, ts, fl, ls) := mcLanes red wx w l s
      let secs := mcSectors red (if red || v != 0 then 32 else 64) size ls   -- a view's log holds sectors (R341)
      if v != 0 then
        let (s, more) := logMcast wx v gid size l.aop.toNat red (l.rel == 1) secs ts s
        flagAll s wx.g (fl ++ more)
      else
        let s := flagAll s wx.g fl
        let ack := if l.acken == 1 then some (wx.sReg 10 l.ackr.toNat) else none
        if wx.act == 0 then s
        else issueOp s wx.g pathFab v (lowest wx.act) wx.act wx.pc false [] (.mcast red gid size l.aop.toNat ack secs)) s

/-- `STMC` (R364). -/
def execStmc (w : WA) (l : McLit) (s : State) : Out := mcWord false w l s
/-- `REDMC` (R365). -/
def execRedmc (w : WA) (l : McLit) (s : State) : Out := mcWord true w l s

/-! ### From the fabric (R358, R361, R368, R369) -/

/-- A logged sector is issued by the play of its log (R344). -/
def playMcast (s : State) (g : Nat) (pc : BitVec 64) (red : Bool) (gid size aop : Nat) (rel : Bool) (q : McSector) : State :=
  let s := if rel then fullFence s g 4 else s
  playOp s g pathFab (((q.bytes.map (fun b => b.2.2)).min?).getD 0) pc (.mcast red gid size aop none [q])

/-- A response to another package. -/
def respond (s : State) (words : List Nat) : State := { s with outbox := s.outbox ++ [⟨0, 6, words.map (BitVec.ofNat 64)⟩] }

/-- The bytes of a request by the sectors they fall in: device key of the sector and bytes. -/
def inSectors (key size data : Nat) : List (Nat × List (Nat × Byte)) :=
  bySector key ((List.range size).map (fun i => (i, BitVec.ofNat 8 (data / 2 ^ (8 * i)))))

/-- An admitted write, in the root (R358). -/
def inWrite (s : State) (key size data : Nat) (token : Option Word) : State :=
  (inSectors key size data).foldl (fun s e => s.writeRoot e.1 e.2 token) s

/-- Bytes of the root as a device agent reads them: the first poisoned sector's token, or the value. -/
def inRead (s : State) (key size : Nat) : LVal :=
  match (inSectors key size 0).findSome? (fun e => (s.baseSector e.1).token) with
  | some t => .tok t
  | none => .val (bits ((inSectors key size 0).foldr (fun e a => (s.rootSector e.1).data + 2 ^ 256 * a) 0) (8 * (key % 32)) (8 * size))

/-- A read-modify-write of the root, and the old value: poison is returned and left unchanged (R215, R288). -/
def inAtomic (s : State) (key size aop data data2 : Nat) (token : Option Word) : State × LVal :=
  match inRead s key size, token with
  | .val old, none =>
    match atomicOp aop size old data data2 with
    | some r => (inWrite (hitchTouch (s.passLine (key / 64)) (key / 64)) key size r none, .val old)
    | none => (s, .bad .fpInvalid)
  | .val _, some t => (s, .tok t)
  | e, _ => (s, e)

/-- The response to a value: status 0 and the value, status 1 and a token, or status 2 (an invalid operation). -/
def respondWith (s : State) (r : LVal) : State :=
  match r with
  | .val n => respond s [0, n % 2 ^ 64, n / 2 ^ 64]
  | .tok t => respond s [1, t.toNat]
  | .new _ => respond s [2]
  | .beside _ => respond s [2]

/-- The kind of a request. -/
def inWhat (r : InReq) : InKind := if r.kind == 0 then .read else if r.kind == 1 then .write else .atomic

/-- An admitted atomic, or a reduction, which returns no value and whose poisoned data poisons its unit (R237, R265, R358). -/
def inUpdate (s : State) (r : InReq) (key : Nat) : State :=
  match decide (r.kind = 3), r.token with
  | true, some t => respond (inWrite s key r.size r.data (some t)) [0]
  | red, _ =>
    let (s, v) := inAtomic s key r.size r.aop r.data r.data2 r.token
    if red && v.isVal then respond s [0] else respondWith s v

/-- A fabric request at an inbound window (R358): refused, or performed in the root. -/
def inboundAt (s : State) (r : InReq) : State :=
  match inbound s r.ftid.toNat r.off (inWhat r) with
  | none => respond s [4]
  | some key =>
    match (inWhat r) with
    | .read => respondWith s (inRead s key r.size)
    | .write => respond (inWrite s key r.size r.data r.token) [0]
    | .atomic => inUpdate s r key

/-- Held packets of a source that come next in its sequence are delivered. -/
def deliverEarly (src : Nat) : Nat → State → State
  | 0, s => s
  | f + 1, s =>
    let n := Map.get 0 s.fabNext src
    match s.fabEarly.find? (fun r => r.src == src && r.num == n) with
    | none => s
    | some r =>
      deliverEarly src f (inboundAt { s with fabEarly := s.fabEarly.erase r, fabNext := Map.put s.fabNext src (n + 1) } r)

/-- A unicast packet arrives: it is delivered in the sequence of its source, and held while an earlier one is missing; one that has been delivered
before, resent, is not delivered again (R356, R359; DEDUCED, log entry 34). -/
def fabricArrival (s : State) (r : InReq) : State :=
  let n := Map.get 0 s.fabNext r.src
  if r.num < n then s
  else if n < r.num then { s with fabEarly := s.fabEarly ++ [r] }
  else deliverEarly r.src s.fabEarly.length (inboundAt { s with fabNext := Map.put s.fabNext r.src (n + 1) } r)

/-- A fabric request arrives (R356, R358); a stopped package takes none (R14). -/
def execRemoteInboundRequest (r : InReq) (s : State) : Out := onDevice s (fun s => if s.phase == 0 then fabricArrival s r else s)

/-- A copy of another package's multicast, or the result of a reduction, reaches the package (R361, R365): it writes. -/
def multicastAt (s : State) (r : InReq) : State :=
  match inbound s r.ftid.toNat r.off (inWhat r) with
  | none => respond s [4]
  | some key => respond (inWrite s key r.size r.data r.token) [0]

/-- A multicast copy arrives (R361). -/
def execMulticastCopyArrival (r : InReq) (s : State) : Out := onDevice s (fun s => if s.phase == 0 then multicastAt s r else s)

/-- Whether two stores travel in one packet: those of one word to one line of a peer (R359). -/
def Store.packet (p q : Store) : Bool :=
  match p.place, q.place with
  | .peer a x, .peer b y => p == q || (p.word == q.word && p.word != 0 && a == b && x / 64 == y / 64)
  | _, _ => false

/-- A packet to a peer is resent on another plane; after four resends without success it completes with LINK_TIMEOUT, and with PEER_DEAD where
the peer has died (R359, R369). -/
def resend (s : State) (g k : Nat) : State :=
  match (s.grp g).egress[k]? with
  | none => s
  | some q =>
    match q.place with
    | .peer p _ =>
      let fail := fun (f : Fail) =>
        let mine := (s.grp g).egress.filter q.packet
        let s := s.updGrp g (fun x => { x with egress := x.egress.filter (fun r => !q.packet r) })
        mine.foldl (fun s r => let (s, t) := lateToken s g r f; orphan s g t) s
      let others := (s.livePlanes s.peerNo).filter (fun n => some n != q.plane)
      let next := others[Config.freeNat (freeKey s.draws 49 0) % others.length]?
      if Map.get 0 s.peers p == 3 then fail { cause := .peerDead, akind := .peer, addr := p }
      else if q.tries < 4 then
        { s.updGrp g (fun x => { x with egress := x.egress.map (fun r => if q.packet r then { r with tries := r.tries + 1, plane := next } else r) }) with
          draws := s.draws + 1 }
      else fail { cause := .linkTimeout, detail := .fabricLink, akind := .peer, addr := p }
    | _ => s

/-- FABRIC_RESEND (R359). -/
def execFabricResend (g k : Nat) (s : State) : Out := onDevice s (fun s => resend s g k)

/-- A port's silence (R368): it goes down on its plane, the instances in progress there fail, and with every port down the fabric
manager floods a death notice. -/
def portSilence (s : State) (peer plane : Nat) : State :=
  let hit := s.reds.filter (fun r => r.plane == plane % 16)
  let s := { s with portDown := Map.put s.portDown (16 * peer + plane % 16) true }
  let s := hit.foldl (fun s r =>
    let acks := (s.members r.gid).map (fun m => (m.1, 3, 0))
    endInstance s r acks false) s
  if (List.range 16).any (fun p => s.portUp peer p) then s else dueNow s (.deathNotice peer)

/-- FABRIC_PORT_SILENCE (R368). -/
def execFabricPortSilence (peer plane : Nat) (s : State) : Out := onDevice s (fun s => if s.phase == 0 then portSilence s peer plane else s)

/-- A death notice sets the peer's state to dead (R368); what it means for requests follows from that state (R357, R361, R369). A stopped package
takes none (R14). -/
def execDeathNotice (peer : Nat) (s : State) : Out :=
  onDevice s (fun s => if s.phase == 0 then { s with peers := Map.put s.peers (peer % 4096) 3 } else s)

end Sys2Proof.Machine
end

