-- ==== Sys2Proof/Machine/Place.lean ====
section
/-! DEFINITION. Placing teams on cores: needs and quotas (R55, R56), admission (R57), the dispatch pass (R58 to R61), node bins
(R62, R63) and the remote-traffic share (R64). -/
namespace Sys2Proof.Machine

/-! ### Needs and quotas (R55, R56) -/

/-- Lane registers per lane that a slot of the kernel reserves (R24, R26). -/
def Desc.regsR (d : Desc) : Nat := if d.roleen then max d.regs0 d.regs1 else d.regs0

/-- W / 32 of the kernel. -/
def Desc.passes (d : Desc) : Nat := 2 ^ d.width

/-- The need of one team (R56). -/
def Desc.need (d : Desc) : Need :=
  ⟨d.teamg * d.passes, d.teamg * d.regsR * d.passes, d.scr, d.teamg * d.tasb * d.passes, d.teamg * d.qq⟩

/-- The need of one group, without the team's scratchpad. -/
def Desc.groupNeed (d : Desc) : Need := ⟨d.passes, d.regsR * d.passes, 0, d.tasb * d.passes, d.qq⟩

def Need.plus (a b : Need) : Need := ⟨a.slots + b.slots, a.regc + b.regc, a.scrk + b.scrk, a.tasu + b.tasu, a.qbe + b.qbe⟩
def Need.within (a b : Need) : Bool :=
  a.slots ≤ b.slots && a.regc ≤ b.regc && a.scrk ≤ b.scrk && a.tasu ≤ b.tasu && a.qbe ≤ b.qbe
def Need.zero : Need := ⟨0, 0, 0, 0, 0⟩

/-- The limits in one word of a quota record (R55). -/
def limitOf (w : Nat) : Need := ⟨bits w 14 7, bits w 21 14, bits w 35 9, bits w 44 8, bits w 52 12⟩

/-- Whether each field of a quota word is in its range, and its reserved bits are zero (R55). -/
def limitOk (w : Nat) : Bool :=
  bits w 0 14 == 0 && (limitOf w).within ⟨64, 8192, 448, 128, 2048⟩

def kernelLimit (c : Ctx) : Need := limitOf (bits c.quota.toNat 0 64)
def contextLimit (c : Ctx) : Need := limitOf (bits c.quota.toNat 64 64)

/-! ### Use of a core (R57, R399) -/

/-- The resident teams of a core that have not retired. -/
def State.teamsOn (s : State) (core : Nat) : List (Nat × Team) := s.teams.filter (fun e => e.2.core == core && e.2.resident)

/-- What a team holds on its core: its scratchpad, and the share of each group that has not ended (R399, R400). -/
def State.held (s : State) (t : Team) : Need :=
  t.groups.foldl (fun n g => if (s.grp g).ended then n else n.plus t.desc.groupNeed) { Need.zero with scrk := t.desc.scr }

/-- The use of a core by the teams that satisfy a condition. -/
def State.use (s : State) (core : Nat) (p : Team → Bool) : Need :=
  ((s.teamsOn core).filter (fun e => p e.2)).foldl (fun n e => n.plus (s.held e.2)) Need.zero

/-- The quota condition of R57. DESIGN CHOICE: the teams of a launch whose descriptors have one address are one kernel under the kernel limits
(log entry 61). -/
def quotaOk (s : State) (grid ctx : Nat) (d : Desc) (core : Nat) : Bool :=
  match Map.find s.ctxs ctx with
  | none => false
  | some c =>
    ((s.use core (fun t => t.grid == grid && t.desc.addr == d.addr)).plus d.need).within (kernelLimit c)
      && ((s.use core (fun t => t.ctx == ctx)).plus d.need).within (contextLimit c)

/-- The live groups of a core on a pipe. -/
def State.onPipe (s : State) (core pipe : Nat) : List Group :=
  (s.groups.map (·.2)).filter (fun x => x.core == core && x.pipe == pipe && x.resident && !x.ended)

/-- Slots and register columns taken on a pipe. -/
def pipeUse (s : State) (core pipe : Nat) : Nat × Nat :=
  (s.onPipe core pipe).foldl (fun (r : Nat × Nat) x =>
    let d := ((s.teamOf x).map (·.desc)).getD Desc.blank
    (r.1 + d.passes, r.2 + d.regsR * d.passes)) (0, 0)

/-- Group numbers 0 to `n − 1` that land on a pipe from a start. -/
def groupsOnPipe (n start pipe : Nat) : Nat := ((List.range n).filter (fun g => (start + g) % 4 == pipe)).length

/-- Whether every pipe has room when group 0 goes to pipe `start` (R57). -/
def pipesOk (s : State) (core : Nat) (d : Desc) (start : Nat) : Bool :=
  (List.range 4).all (fun p =>
    let n := groupsOnPipe d.teamg start p
    let (sl, rc) := pipeUse s core p
    sl + n * d.passes ≤ 16 && rc + n * d.regsR * d.passes ≤ 2048)

/-- The start that succeeds, tried from the rotation pointer (R57). -/
def pipeStart (s : State) (core : Nat) (d : Desc) : Option Nat :=
  ((List.range 4).map (fun j => ((s.coreOf core).p0 + j) % 4)).find? (pipesOk s core d)

/-- The L1 condition of R57. -/
def l1Ok (s : State) (core : Nat) (d : Desc) : Bool :=
  let ts := s.teamsOn core
  if ts.isEmpty then true
  else
    let l := (s.coreOf core).l.getD 0
    d.l1u ≤ l && d.scr + 32 * l + (ts.map (fun e => e.2.desc.scr)).foldl (· + ·) 0 ≤ 512

/-- Whether a core admits a team of a kernel (R57), and the pipe of its group 0. -/
def admits (s : State) (grid ctx : Nat) (d : Desc) (core : Nat) : Option Nat :=
  let u := s.use core (fun _ => true)
  if quotaOk s grid ctx d core && u.tasu + d.need.tasu ≤ 128 && u.qbe + d.need.qbe ≤ 2048 && l1Ok s core d then pipeStart s core d else none

/-! ### Cores a team may go to -/

/-- Whether a compute die belongs to a device (R34). -/
def dieOnDev (mode dev die : Nat) : Bool :=
  if mode == 8 then die == dev else if mode == 2 then die / 4 == dev else true

/-- Whether a die takes part in dispatch (R394). -/
def State.dieUp (s : State) (die : Nat) : Bool := !(Map.get Die.idle s.dies die).fenced

/-- The virtual cores of a map that a condition on their physical core admits, in ascending order. -/
def virtualCores (map : List Nat) (p : Nat → Bool) : List (Nat × Nat) := ((List.range map.length).zip map).filter (fun e => p e.2)

/-- The share of a kernel of a launch on a die among those kept of the last sample: the launch's own kernel stands at the die's number. -/
def shareKey (no die : Nat) : Nat := 16 * no + die

/-- The remote-traffic share holds a kernel back from a die (R64). -/
def heldBack (s : State) (grid : Nat) (r : Grid) (d : Desc) (die : Nat) : Bool :=
  d.rshare != 0 && d.rshare < Map.get 0 r.shares (shareKey (r.kernelNo d) die)
    && s.teams.any (fun e => e.2.grid == grid && e.2.desc.addr == d.addr && e.2.resident && dieOf e.2.core == die)

/-- The cores of a launch's device that dispatch considers. -/
def dispatchCores (s : State) (r : Grid) : List (Nat × Nat) :=
  let mode := ((Map.find s.ctxs r.ctx).map (·.mode)).getD 1
  virtualCores r.map (fun c => dieOnDev mode r.dev (dieOf c) && s.dieUp (dieOf c))

/-- Occupied group slots of a core. -/
def State.slotsUsed (s : State) (core : Nat) : Nat := (s.use core (fun _ => true)).slots

/-- The core for an unclustered team: the fewest occupied slots, ties to the lowest virtual core (R59). -/
def bestCore (s : State) (grid ctx : Nat) (d : Desc) (cores : List (Nat × Nat)) : Option (Nat × Nat × Nat) :=
  (cores.filterMap (fun e => (admits s grid ctx d e.2).map (fun st => (e.1, e.2, st)))).foldl (fun (b : Option (Nat × Nat × Nat)) e =>
    match b with
    | none => some e
    | some a => if s.slotsUsed e.2.1 < s.slotsUsed a.2.1 then some e else some a) none

/-- The cores of a clustered tuple: the lowest virtual cluster in which enough cores admit its teams (R59). -/
def clusterCores (s : State) (grid ctx : Nat) (d : Desc) (cores : List (Nat × Nat)) (clusters : Nat) : Option (List (Nat × Nat × Nat)) :=
  (List.range clusters).findSome? (fun k =>
    let ok := (cores.filter (fun e => e.1 / 4 == k)).filterMap (fun e => (admits s grid ctx d e.2).map (fun st => (e.1, e.2, st)))
    if d.clu ≤ ok.length then some (ok.take d.clu) else none)

/-! ### Starting a team (R24, R30, R40, R95) -/

/-- The lowest slot number of a pipe from which a group's slots are free. -/
def freeSlot (s : State) (core pipe passes : Nat) : Nat :=
  let taken := (s.onPipe core pipe).flatMap (fun x => (List.range (x.width / 32)).map (fun i => x.slot + i))
  let free := fun (i : Nat) => (List.range passes).all (fun j => !taken.contains (16 * pipe + i + j))
  16 * pipe + ((List.range (17 - passes)).find? free).getD (((List.range 16).find? (fun i => !taken.contains (16 * pipe + i))).getD 0)

/-- v0 to v3 of a launched-node group: a record per lane, and in lanes beyond the last one any value (R30). -/
def recordRegs (key width : Nat) (recs : List (BitVec 128)) : List RegWrite :=
  (List.range width).flatMap (fun i => (List.range 4).map (fun k =>
    (⟨.v, k, i, ⟨BitVec.ofNat 32 (match recs[i]? with
      | some r => bits r.toNat (32 * k) 32
      | none => Config.freeNat (key + 4 * i + k)), false⟩⟩ : RegWrite)))

/-- A group as it starts (R24, R95). -/
def startGroup (team ctx idx core slot pipe : Nat) (d : Desc) (argp : BitVec 64) (live : Mask) (now : Nat) : Group :=
  let consumer := d.roleen && d.prodg ≤ idx
  let entry := if consumer then d.entry1 else d.entry0
  { Group.blank with
    team := team, ctx := ctx, idx := idx, width := 32 * d.passes, core := core, slot := slot, pipe := pipe, live := live,
    s0 := some { Split.blank with pc := entry, hdr := entry, mask := live, took := now, idle := now },
    last := 1,
    s := Map.set Val.zero (Map.set Val.zero [] 0 ⟨argp.setWidth 32, false⟩) 1 ⟨(argp >>> 32).setWidth 32, false⟩,
    role := consumer }

/-- Team `t` starts on a core, its groups from pipe `start` on (R57, R95); `recs` are the records of a launched node's group. -/
def startTeam (s : State) (t : Team) (start : Nat) (recs : Option (List (BitVec 128))) : State :=
  let tid := s.ids
  let d := t.desc
  let s := { s with ids := tid + 1, draws := s.draws + 1 }
  let key := freeKey s.draws 24 0
  let live := match recs with
    | some l => firstLanes l.length
    | none => firstLanes (32 * d.passes)
  let s := s.updCore t.core (fun c =>
    { c with p0 := (start + d.teamg) % 4, l := if (s.teamsOn t.core).isEmpty then some d.l1u else c.l })
  let (s, gs) := (List.range d.teamg).foldl (fun (r : State × List Nat) g =>
    let (s, gs) := r
    let gid := s.ids
    let pipe := (start + g) % 4
    let x := startGroup tid t.ctx g t.core (freeSlot s t.core pipe d.passes) pipe d t.argp live s.time
    let x := match recs with
      | some l => x.wrAll (recordRegs key (32 * d.passes) l)
      | none => x
    ({ s.updCore t.core (fun c => { c with order := c.order ++ [gid] }) with groups := Map.put s.groups gid x, ids := gid + 1 },
      gs ++ [gid])) ({ s with teams := Map.put s.teams tid { t with groups := [] } }, [])
  askWake { s with teams := Map.put s.teams tid { t with groups := gs } } (dieOf t.core)

/-- A team of a launch as it is placed. -/
def launchTeam (grid : Nat) (r : Grid) (vteam vcore core crank : Nat) (tuple : Option Nat) : Team :=
  { Team.blank with grid := grid, ctx := r.ctx, vteam := vteam, vcore := vcore, core := core, crank := crank, tuple := tuple,
                    desc := r.desc, argp := r.argp }

/-- The next unclustered team of a launch placed, if a core admits it (R59). -/
def placeTeam (s : State) (grid : Nat) (r : Grid) (cores : List (Nat × Nat)) : Option State :=
  (bestCore s grid r.ctx r.desc cores).map (fun e =>
    let s := startTeam s (launchTeam grid r r.next e.1 e.2.1 0 none) e.2.2 none
    s.updGrid grid (fun r => { r with next := r.next + 1 }))

/-- The next tuple of a clustered launch placed (R59). DESIGN CHOICE: where TEAMS is no multiple of CLU the last tuple has CLU teams all the same
(log entry 61). -/
def placeTuple (s : State) (grid : Nat) (r : Grid) (cores : List (Nat × Nat)) : Option State :=
  (clusterCores s grid r.ctx r.desc cores ((r.map.length + 3) / 4)).map (fun l =>
    let k := s.ids
    let s := { s with ids := k + 1 }
    let (s, ts) := (l.zip (List.range l.length)).foldl (fun (q : State × List Nat) e =>
      (startTeam q.1 (launchTeam grid r (r.next + e.2) e.1.1 e.1.2.1 e.2 (some k)) e.1.2.2 none, q.2 ++ [q.1.ids])) (s, [])
    { s with tuples := Map.put s.tuples k ⟨grid, ts, [], []⟩ }.updGrid grid (fun r => { r with next := r.next + l.length }))

/-- The next team or tuple of a launch placed. -/
def placeNext (s : State) (grid : Nat) (r : Grid) (cores : List (Nat × Nat)) : Option State :=
  if r.desc.clu == 0 then placeTeam s grid r cores else placeTuple s grid r cores

/-- Every team of a launch placed at once, or none (R61). -/
def placeWhole (grid : Nat) : Nat → State → Option State
  | 0, s => some s
  | f + 1, s =>
    match Map.find s.grids grid with
    | none => some s
    | some r =>
      if r.teams ≤ r.next then some s
      else
        match placeNext s grid r (dispatchCores s r) with
        | none => none
        | some s => placeWhole grid f s

/-- The test of CORESIDENCY: the whole launch on its device with every core idle (R61). -/
def coresident (s : State) (grid : Nat) (r : Grid) : Bool :=
  let idle := { s with teams := [], groups := [], cores := [], tuples := [], grids := [(grid, { r with shares := [] })] }
  (placeWhole grid (r.teams + 1) idle).isSome

/-! ### The pass (R58 to R60) -/

/-- A launch whose teams are placed all at once (R61). -/
def Desc.whole (d : Desc) : Bool := d.clu != 0 || d.gbar

/-- Whether a launch has a team still to place. -/
def Grid.waiting (r : Grid) : Bool := decide (r.next < r.teams) || r.nodes.any Node.eligible

/-- Whether some promoted kernel of a partition has an unplaced team (R60). -/
def promotedWaits (s : State) (pid : Nat) : Bool := s.grids.any (fun e => e.2.promoted && e.2.waiting && s.partOf e.1 == pid)

/-- A promoted kernel with an unplaced team keeps every unpromoted kernel of its partition from placing one (R60). -/
def held (s : State) (grid : Nat) (r : Grid) : Bool := !r.promoted && promotedWaits s (s.partOf grid)

/-- A team left unplaced in a pass is a refusal: some core passes the quota condition and none admits it. A kernel that its share alone holds
back, because a core of a die closed to it admits the team or no other passes its quota, is not refused (R60, R64). Of a grid that is placed at
once and fails by its own quota alone, R60 counts none and R61 one: it counts where some core passes the quota for its first team (DESIGN
CHOICE, log entry 61). -/
def refusedOn (s : State) (grid : Nat) (r : Grid) (d : Desc) (cores : List (Nat × Nat)) : Bool :=
  (cores.filter (fun e => !heldBack s grid r d (dieOf e.2))).any (fun e => quotaOk s grid r.ctx d e.2)
    && (d.whole || cores.all (fun e => (admits s grid r.ctx d e.2).isNone))

/-- The cores of the device that the share does not hold back (R64). -/
def openCores (s : State) (grid : Nat) (r : Grid) (d : Desc) : List (Nat × Nat) :=
  (dispatchCores s r).filter (fun e => !heldBack s grid r d (dieOf e.2))

/-- A promoted kernel's first placement returns it to its PRIO (R60). -/
def Grid.placed (r : Grid) : Grid := if r.promoted then { r with promoted := false, starv := 0 } else r

/-- One refusal more (R60). -/
def Grid.refused (r : Grid) : Grid := { r with starv := r.starv + 1, promoted := r.promoted || 64 ≤ r.starv + 1 }

/-- As many of a launch's next teams as the cores admit; the flag says whether its next team is refused (R59, R60, R64). -/
def placeTeams (grid : Nat) : Nat → State → State × Bool
  | 0, s => (s, false)
  | f + 1, s =>
    match Map.find s.grids grid with
    | none => (s, false)
    | some r =>
      if r.teams ≤ r.next then (s, false)
      else if held s grid r then
        (s, refusedOn s grid r r.desc (dispatchCores s r) && (!r.desc.whole || (placeWhole grid (r.teams + 1) s).isNone))
      else if r.desc.whole then
        match placeWhole grid (r.teams + 1) s with
        | some s => (s.updGrid grid Grid.placed, false)
        | none => (s, refusedOn s grid r r.desc (dispatchCores s r))
      else
        match placeNext s grid r (openCores s grid r r.desc) with
        | some s => placeTeams grid f (s.updGrid grid Grid.placed)
        | none => (s, refusedOn s grid r r.desc (dispatchCores s r))

/-- The pending team of an eligible launched node placed: it takes the oldest records, and a timer that has records left starts
again (R63). -/
def placeNode (s : State) (grid n : Nat) (r : Grid) (d : Node) : Option State :=
  (bestCore s grid r.ctx d.desc (openCores s grid r d.desc)).map (fun e =>
    let (recs, _, d') := d.take (32 * d.desc.passes)
    let d' := { d' with timerAt := if d'.bin.isEmpty then none else some (s.time + d.timer * 2100), lapsed := false }
    let t := { launchTeam grid r 0 e.1 e.2.1 0 none with desc := d.desc, node := some n }
    (startTeam s t e.2.2 (some recs)).updNode grid n (fun _ => d') |>.updGrid grid Grid.placed)

/-- Eligible launched nodes of a launch, in ascending order: each is placed while its bin stays eligible. -/
def placeNodes (grid n : Nat) : Nat → State → State × Bool
  | 0, s => (s, false)
  | f + 1, s =>
    match Map.find s.grids grid, s.node grid n with
    | some r, some d =>
      if !d.eligible then (s, false)
      else if held s grid r then (s, refusedOn s grid r d.desc (dispatchCores s r))
      else
        match placeNode s grid n r d with
        | some s => placeNodes grid n f s
        | none => (s, refusedOn s grid r d.desc (dispatchCores s r))
    | _, _ => (s, false)

/-- The state of a context's device (R387). -/
def State.devOf (s : State) (ctx dev : Nat) : DevRun := ((Map.find s.ctxs ctx).map (fun c => Map.get DevRun.zero c.devs dev)).getD DevRun.zero

/-- One launch in a pass (R59, R60, R387). DESIGN CHOICE: its own kernel and the kernels of its launched nodes share one starvation count and
one promotion (log entry 61). -/
def passGrid (s : State) (grid : Nat) : State :=
  match Map.find s.grids grid with
  | none => s
  | some r =>
    if (s.devOf r.ctx r.dev).state != 0 then s
    else
      let (s, bad) := placeTeams grid (r.teams + 1) s
      let (s, bad) := (List.range r.nodes.length).foldl (fun (q : State × Bool) n =>
        let fuel := ((s.node grid n).map (fun d => d.bin.length)).getD 0 + 1
        let (s, b) := placeNodes grid n fuel q.1
        (s, q.2 || b)) (s, bad)
      if bad then s.updGrid grid Grid.refused else s

/-- The launches of a partition in the order of a pass: promoted first, then by priority, each by age (R59). -/
def passOrder (s : State) (pid : Nat) : List Nat :=
  let mine := s.grids.filter (fun e => s.partOf e.1 == pid)
  let byAge := fun (l : List (Nat × Grid)) => ((l.foldl (fun m e => Map.put m e.2.age e.1) []) : List (Nat × Nat)).map (·.2)
  byAge (mine.filter (fun e => e.2.promoted))
    ++ [3, 2, 1, 0].flatMap (fun p => byAge (mine.filter (fun e => !e.2.promoted && e.2.prio == p)))

/-- A dispatch pass over a partition (R58 to R61). -/
def passOver (s : State) (pid : Nat) : State :=
  (passOrder s pid).foldl passGrid s

/-- DISPATCH_PASS (R58, R59). -/
def execDispatchPass (pid : Nat) (s : State) : Out := onDevice s (fun s => passOver s pid)

/-- The partitions that have a launch. -/
def State.busyParts (s : State) : List Nat := (s.grids.map (fun e => s.partOf e.1)).eraseDups

/-- A fraction in 1/256, rounded up: it exceeds a share as the fraction does. -/
def shareOf (bytes full : Nat) : Nat := (256 * bytes + full - 1) / full

/-- FB or FF of a kernel, the greater, over the last 8 samples (R64): a link carries 160 TB/s, the fabric ports 3.58 TB/s. -/
def fraction (samples : List (List (Nat × Nat))) (grid no die : Nat) : Nat :=
  let total := fun (port : Nat) => samples.foldl (fun a m => a + Map.get 0 m (trafficKey grid no port)) 0
  max (shareOf (total die) 1280000000) (shareOf (total 8) 28640000)

/-- The shares of a launch's kernels on each die. -/
def Grid.sampled (r : Grid) (samples : List (List (Nat × Nat))) (grid : Nat) : Grid :=
  let keys := (List.range (r.nodes.length + 1)).flatMap (fun no => (List.range 8).map (fun d => (no, d)))
  { r with shares := keys.foldl (fun m k => Map.set 0 m (shareKey k.1 k.2) (fraction samples grid k.1 k.2)) [] }

/-- The sample of the counters taken every 1 µs (R64). -/
def sample (s : State) : State :=
  let w := (s.traffic :: s.samples).take 8
  { s with traffic := [], samples := w, grids := s.grids.map (fun e => (e.1, e.2.sampled w e.1)) }

/-- REMOTE_TRAFFIC_SAMPLE: the counters are sampled, and a pass over every partition follows (R58, R64). A sample that carries shares, by launch
and die in 1/256, brings what counters outside the model have measured in their place (log entry 42). -/
def execRemoteTrafficSample (l : List (Nat × Nat × Nat)) (s : State) : Out :=
  onDevice s (fun s =>
    let s := if l.isEmpty then sample s else s
    let s := l.foldl (fun s e => s.updGrid e.1 (fun r => { r with shares := Map.set 0 r.shares e.2.1 e.2.2 })) s
    s.busyParts.foldl (fun s p => dueNow s (.dispatchPass p)) s)

/-- BIN_TIMER_LAPSE (R63): a launched node's timer has come to its time. -/
def timerLapse (s : State) (grid n : Nat) : State :=
  match s.node grid n with
  | none => s
  | some d =>
    match d.timerAt with
    | none => s
    | some t =>
      if s.time < t then s
      else
        let d' := { d with timerAt := none, lapsed := true }
        let s := s.updNode grid n (fun _ => d')
        if d'.eligible && !d.eligible then dueNow s (.dispatchPass (s.partOf grid)) else s

def execBinTimerLapse (grid node : Nat) (s : State) : Out := onDevice s (fun s => timerLapse s grid node)

end Sys2Proof.Machine
end

