-- ==== Sys2Proof/Machine/Sync.lean ====
section
/-! DEFINITION. Barriers, fences and signals (R276 to R282, R292 to R294). -/
namespace Sys2Proof.Machine

/-! ### Barriers -/

/-- LEVEL and BNUM of SA (R278). -/
def barLevel (sa : Nat) : Nat := sa / 16
def barNum (sa : Nat) : Nat := sa % 16

/-- A phase of a barrier, as what a split wrote before its arrival there names it (R132). -/
def phaseKey (level num phase : Nat) : Nat := 2 ^ 32 * barKey level num + phase

/-- A split's arrival has been counted: what it wrote before stands, for the other splits of the group, behind the barrier (R132). -/
def Group.arrived (x : Group) (m : Mask) (key : Nat) : Group :=
  x.mapSplits (fun sp => { sp with haz := sp.haz.map (fun h => if h.foreign && h.lanes &&& ~~~m == 0 then { h with bars := key :: h.bars } else h) })

/-- A split has seen a phase complete: the writes of others before their arrival in it are ordered before its reads across lanes (R132). -/
def seePhase (s : State) (g slot key : Nat) : State :=
  if (s.spl g slot).haz.any (fun h => h.bars.contains key) then
    s.updSpl g slot (fun sp => { sp with haz := sp.haz.filter (fun h => !h.bars.contains key) })
  else s

/-- A completed arrival phase: the acquire is made, or the barrier is broken (R278). -/
def barDone (level num sd : Nat) (phase : Option Nat) (wx : Wx) (s : State) : State :=
  match (barOf s wx.x level num).broken, phase with
  | true, _ => status sd 4 wx s
  | false, none => status sd 0 wx s
  | false, some p => status sd 0 wx (seePhase s wx.g wx.slot (phaseKey level num p))

/-- The waiting phase of `BAR` (R278): a broken barrier answers 4 (R282), a completed arrival 0. -/
def barWait (c : Cur) (level num e sd : Nat) (wph : Bool) (wx : Wx) (s : State) : State :=
  let x := s.grp wx.g
  match c.wait with
  | some (.barrier l n p) => waitPhase c (.barrier l n p) wph e sd false (barDone l n sd (some p)) wx s
  | _ =>
    match apOf x level num with
    | none => barDone level num sd none wx s
    | some p => waitPhase c (.barrier level num p) wph e sd false (barDone level num sd (some p)) wx s

/-- An entry of the arrival log (R286): an arrival has KIND 0, a completion KIND 1. -/
def alogEntry (phase steam dteam sgroup num level kind : Nat) : BitVec 128 :=
  BitVec.ofNat 128 (phase % 2 ^ 32 * 2 ^ 96 + steam * 2 ^ 64 + dteam * 2 ^ 44 + sgroup * 2 ^ 40 + num * 2 ^ 32 + level * 2 ^ 30 + kind * 2 ^ 28 + 1)

/-- An entry is appended to a context's arrival log, and the base writes it (R286); a full log takes none. `k` is the tuple of an arrival. -/
def alogAdd (s : State) (ctx k : Nat) (e : BitVec 128) : State :=
  match Map.find s.ctxs ctx with
  | none => s
  | some c =>
    if c.alogLen ≤ c.alog.length then s
    else
      let s := s.updCtx ctx (fun c => { c with alog := c.alog ++ [(k, e)] })
      { s with agenda := insertDue s.agenda ⟨s.time, .extra (.alogWrite ctx c.alog.length)⟩ }

/-- The completion of a grid barrier's phase is aimed at every member; of those a forced save has captured it stands in the log (R286). -/
def logCompletion (s : State) (g num phase : Nat) : State :=
  let x := s.grp g
  let grid := ((s.teamOf x).map (·.grid)).getD 0
  (s.teams.filter (fun e => e.2.grid == grid && e.2.node.isNone && !e.2.resident)).foldl
    (fun s e => alogAdd s x.ctx 0 (alogEntry phase e.2.vteam e.2.vteam x.idx num 2 1)) s

/-- An arrival is counted at its barrier; the last one completes the phase (R277). -/
def countArrival (s : State) (g level num : Nat) : State :=
  let x := s.grp g
  let b := barOf s x level num
  let n := b.arrived + 1
  if n == barExpected s x level then
    let s := updBar s x level num (fun b => { b with phase := (b.phase + 1) % 2 ^ 32, arrived := 0 })
    if level == 2 then logCompletion s g num b.phase else s
  else updBar s x level num (fun b => { b with arrived := n })

/-- The virtual team of a group, and of the holder of its cluster barriers (R286). -/
def alogTeams (s : State) (x : Group) : Nat × Nat :=
  match s.teamOf x with
  | some t => (t.vteam, t.vteam - t.crank)
  | none => (0, 0)

/-- The arrival of `BAR` at a barrier that is not broken (R277): a release at the barrier's scope, and the count where the group has not yet
arrived. An arrival aimed at a holder that has been captured goes into the arrival log and is counted by its replay (R286). -/
def barArrive (s : State) (g level num : Nat) : State :=
  let s := fullFence s g (level + 1)
  let x := s.grp g
  let b := barOf s x level num
  if apOf x level num == some b.phase then s
  else
    let s' := s.updGrp g (fun x => ({ x with ap := Map.put x.ap (barKey level num) b.phase }).arrived (s.curMask g) (phaseKey level num b.phase))
    if !holderSaved s x level then countArrival s' g level num
    else if alogFull s x.ctx then s
    else alogAdd s' x.ctx (((s.teamOf x).bind (·.tuple)).getD 0) (alogEntry b.phase (alogTeams s x).1 (alogTeams s x).2 x.idx num level 0)

/-- Reserved uses of `BAR` (R278). -/
def barRsv (wx : Wx) (w : WS) (arv : Bool) : Bool :=
  4 ≤ w.sub.toNat + 1 || 16 ≤ w.sb.toNat || !barExists wx.team (barLevel w.sa.toNat) (barNum w.sa.toNat) || (arv && w.sb != 0)

/-- MALFORMED to the status register (R278, R294). -/
def statusBad (sd : Nat) (wx : Wx) (s : State) : State := finishS true sd 1 (.bad .malformed) wx s

/-- `BAR.arv`; the row holds SUB 3 to 7, which are reserved (R278). -/
def execBarArv (w : WS) (s : State) : Out :=
  let level := barLevel w.sa.toNat
  let num := barNum w.sa.toNat
  visibleScalar w.qual (fun wx => barRsv wx w true) (statusBad w.sd.toNat)
    (fun _ wx s =>
      if (barOf s wx.x level num).broken then status w.sd.toNat 4 wx s
      else
        let s := barArrive s wx.g level num
        status w.sd.toNat ((apOf (s.grp wx.g) level num).getD 0) wx s) s

/-- `BAR.wait` (R278). -/
def execBarWait (w : WS) (s : State) : Out :=
  let level := barLevel w.sa.toNat
  let num := barNum w.sa.toNat
  let go := fun c wx s => barWait c level num w.sb.toNat w.sd.toNat false wx s
  onIssuer s (fun c s =>
    if c.resumed then go c (wxOf c s) s
    else
      scalarWord w.qual (fun wx s =>
        if barRsv wx w false then statusBad w.sd.toNat wx s
        else
          match implicitCommit s c with
          | (s, true) => go c { wxOf c s with draw := wx.draw } s
          | (s, false) => s) c s)

/-- `BAR.sync`: its arrival, then its waiting phase, which alone goes on after a wait (R104, R278). -/
def execBarSync (w : WS) (s : State) : Out :=
  let level := barLevel w.sa.toNat
  let num := barNum w.sa.toNat
  let go := fun c wx s => barWait c level num w.sb.toNat w.sd.toNat true wx s
  onIssuer s (fun c s =>
    if c.resumed then go c (wxOf c s) s
    else
      scalarWord w.qual (fun wx s =>
        if barRsv wx w false then statusBad w.sd.toNat wx s
        else
          match implicitCommit s c with
          | (s, false) => s
          | (s, true) =>
            if (barOf s wx.x level num).broken then status w.sd.toNat 4 wx s
            else go c { wxOf c s with draw := wx.draw } (barArrive s wx.g level num)) c s)

/-- `BARQ` (R280). -/
def execBarq (w : WS) (s : State) : Out :=
  let level := barLevel w.sa.toNat
  let num := barNum w.sa.toNat
  visibleScalar w.qual
    (fun wx => 5 ≤ w.sub.toNat || w.sb != 0 || !barExists wx.team level num)
    (statusBad w.sd.toNat)
    (fun _ wx s =>
      let b := barOf s wx.x level num
      status w.sd.toNat (match w.sub.toNat with
        | 0 => b.phase
        | 1 => b.arrived
        | 2 => barExpected s wx.x level
        | 3 => (apOf wx.x level num).getD 0xFFFFFFFF
        | _ => ofBool b.broken) wx s) s

/-! ### Fences -/

/-- A release fence stands in the egress queue behind what it orders; it writes nothing (R269). -/
def fenceMark (pc : BitVec 64) (scope : Nat) : Store :=
  { place := .scr 0 0, va := 0, line := none, bytes := [], ptok := [], red := none, lane := 0, ord := 4, scope := scope, stale := false,
    view := 0, pc := pc }

/-- A release fence: later stores perform after every earlier access (R269, R292). -/
def relFence (s : State) (g scope : Nat) (pc : BitVec 64) : State :=
  if scope == 4 then fullFence s g scope
  else s.updGrp g (fun x => if x.egress.isEmpty then x else { x with egress := x.egress ++ [{ fenceMark pc scope with mask := s.curMask g }] })

/-- `FENCE` (R292): its commit, then its effect once when a lane is active. -/
def fenceWord (w : WC) (rsv : Bool) (f : State → Nat → Nat → BitVec 64 → State) (s : State) : Out :=
  let scope := w.imm.toNat / 4 % 8
  visibleLane w.pred (fun _ => rsv || w.d != 0 || 32 ≤ w.imm.toNat || 5 ≤ scope) reservedUse
    (fun c wx s => if wx.act == 0 then s else f s wx.g scope c.pc) s

/-- `FENCE.acq`: loads perform as they issue, so that every earlier one precedes every later access; the row holds KIND 3, which is
reserved (R292). -/
def execFenceAcq (w : WC) (s : State) : Out := fenceWord w (w.imm.toNat % 4 != 0) (fun s _ _ _ => s) s
/-- `FENCE.rel` (R292). -/
def execFenceRel (w : WC) (s : State) : Out := fenceWord w false (fun s g scope pc => relFence s g scope pc) s
/-- `FENCE.full` (R292). -/
def execFenceFull (w : WC) (s : State) : Out := fenceWord w false (fun s g scope _ => fullFence s g scope) s

/-! ### Signals -/

/-- The Hitch tests the condition of a registered `SIGW` on a change to its signal (R294). -/
def Split.meetSignal (n : Nat) (v : BitVec 64) (sp : Split) : Split :=
  match sp.wait with
  | some (.signal k cond cmp) => if k == n && signalCond cond v cmp then { sp with wait := some .signalMet } else sp
  | _ => sp

/-- A signal operation at its Hitch: set, or add modulo 2^64 (R47, R293), and the test of the waits registered there (R294). -/
def signalOp (s : State) (ctx n : Nat) (add : Bool) (v : BitVec 64) : State :=
  let old := s.sigVal ctx n
  let new := if add then old + v else v
  let s := s.updCtx ctx (fun c => { c with signals := Map.set 0 c.signals n new })
  { s with groups := s.groups.map (fun e => if e.2.ctx == ctx then (e.1, e.2.mapSplits (Split.meetSignal n new)) else e) }

/-- NSIG of a context. -/
def State.nsig (s : State) (ctx : Nat) : Nat := ((Map.find s.ctxs ctx).map (·.nsig)).getD 0

/-- The signal and operand of a `SIG`; a reserved use comes first, then a poisoned SA or operand (R293). -/
def sigCheck (w : WS) (l : Option Word) (ret : Bool) (s : State) (wx : Wx) : Except LVal (Nat × Nat) :=
  let n := match l with
    | some n => LVal.val n.toNat
    | none => wx.sReg 0 w.sa.toNat
  let bad := match n with
    | .val n => n == 0 || s.nsig wx.x.ctx < n || 65536 ≤ n
    | _ => false
  require (!(bad || oddReg w.sb.toNat || oddReg w.sd.toNat || (l.isSome && w.sa != 0) || (!ret && w.sd != 0)))
    (operands2 n (wx.sPair 2 w.sb.toNat))

/-- What a form of `SIG` does with a result that is no value. -/
def sigFail (sd : Nat) (ret : Bool) (r : LVal) (wx : Wx) (s : State) : State :=
  if ret then finishS true sd (if sd == 63 then 1 else 2) r wx s else flagOperand wx r s

/-- A `SIG` that names signal `n` with its operand (R293, R341, R342). -/
def sigDo (w : WS) (add ret : Bool) (n : Nat) (v : Nat) (wx : Wx) (s : State) : State :=
  let ctx := wx.x.ctx
  let view := s.viewOf wx.x
  if view != 0 then
    if ret then finishS true w.sd.toNat 2 (.bad .viewScope) wx s
    else
      match logOp s wx.g view (.sig w.sub.toNat n (BitVec.ofNat 64 v)) with
      | some s => s
      | none =>
        let (s, _, fl) := failLanes s wx.g wx.pc [] { cause := .viewLogFull } [lowest wx.act]
        flagAll s wx.g fl
  else
    let s := fullFence s wx.g (if bit w.sub.toNat 2 then 4 else 3)
    let old := s.sigVal ctx n
    let s := signalOp s ctx n add (BitVec.ofNat 64 v)
    if ret then finishS true w.sd.toNat 2 (.val old.toNat) wx s else s

/-- `SIG` (R293). -/
def sigWord (w : WS) (l : Option Word) (add ret : Bool) (s : State) : Out :=
  visibleChecked w.qual (sigCheck w l ret) (sigFail w.sd.toNat ret) (fun a _ wx s => sigDo w add ret a.1 a.2 wx s) s

/-- `SIG.set` (R293). -/
def execSigSet (w : WS) (l : Option Word) (s : State) : Out := sigWord w l false false s
/-- `SIG.add` (R293). -/
def execSigAdd (w : WS) (l : Option Word) (s : State) : Out := sigWord w l true false s
/-- `SIG.set.ret` (R293). -/
def execSigSetRet (w : WS) (l : Option Word) (s : State) : Out := sigWord w l false true s
/-- `SIG.add.ret` (R293). -/
def execSigAddRet (w : WS) (l : Option Word) (s : State) : Out := sigWord w l true true s

/-- The parameters of `SIGW` and its comparison value (R294). -/
def sigwCheck (w : WS) (s : State) (wx : Wx) : Except LVal (Nat × Nat) :=
  require (w.sub.toNat < 6 && !oddReg w.sb.toNat) (
    match operands2 (wx.sReg 0 w.sa.toNat) (wx.sPair 2 w.sb.toNat) with
    | .ok (p, cmp) => require (p % 65536 != 0 && p % 65536 ≤ s.nsig wx.x.ctx && p < 2 ^ 21) (.ok (p, cmp))
    | e => e)

/-- `SIGW`; the row holds SUB 6 and 7, which are reserved (R294). A wait that goes on keeps what it waits for. -/
def execSigw (w : WS) (s : State) : Out :=
  match s.cur with
  | some { wait := some (.signal n k cmp), .. } =>
    onIssuer s (fun c s =>
      waitPhase c (.signal n k cmp) false (if c.deadline.isSome then 14 else 15) w.sd.toNat true (status w.sd.toNat 0) (wxOf c s) s)
  | some { wait := some .signalMet, .. } =>
    onIssuer s (fun c s => waitPhase c .signalMet false 15 w.sd.toNat true (status w.sd.toNat 0) (wxOf c s) s)
  | _ =>
    visibleChecked w.qual (sigwCheck w) (fun r => finishS true w.sd.toNat 1 r)
      (fun a c => waitPhase c (.signal (a.1 % 65536) w.sub.toNat (BitVec.ofNat 64 a.2)) false (bits a.1 16 4) w.sd.toNat true
        (status w.sd.toNat 0)) s

end Sys2Proof.Machine
end

