-- ==== Sys2Proof/Machine/Views.lean ====
section
/-! DEFINITION. Fork-world (R334 to R347): `FORK`, `CHOOSE` with the play of its log, and `VIEW`. -/
namespace Sys2Proof.Machine

/-! ### Rivals (R338) -/

/-- A rival's copy of a group, in the place that its start gave it (R338). -/
def copyGroup (x y : Group) (now : Nat) : Group :=
  let fresh := fun (sp : Split) => { sp.restart with haz := [], since := now, took := now, idle := now }
  { y with
    live := x.live
    s0 := x.s0.map fresh
    s1 := x.s1.map fresh
    last := x.last
    sshw := x.sshw
    ssfree := x.ssfree
    oldest := x.oldest
    newest := x.newest
    pool := x.pool.map (fun e => (e.1, match e.2 with
      | .spilled sp o n _ => .spilled (fresh sp) o n now
      | p => p))
    born := x.born
    v := x.v
    s := x.s
    p := x.p
    q := x.q
    x := x.x
    tas := x.tas
    rid := x.rid
    role := x.role
    mark := x.mark
    trap := x.trap
    saved := x.saved.map (fun t => { t with s0 := t.s0.map fresh, s1 := t.s1.map fresh })
    ap := x.ap
    ended := x.ended }

/-- Waits of a team's rendezvous that is over. -/
def Group.forked (x : Group) : Group :=
  let f := fun (sp : Split) => match sp.wait with
    | some (.rendezvous false) => { sp with wait := some (.rendezvous true) }
    | _ => sp
  { x with
    s0 := x.s0.map f
    s1 := x.s1.map f
    pool := x.pool.map (fun e => (e.1, match e.2 with
      | .spilled sp o n t => .spilled (f sp) o n t
      | p => p))
    saved := x.saved.map (fun t => { t with s0 := t.s0.map f, s1 := t.s1.map f }) }

/-- The result words of one arrival (R336, R337). -/
def resultTo (s : State) (g : Nat) (a : Arrival) (v : Val) : State :=
  put s g ((a.sd :: a.also).map (fun r => ⟨.s, r, 0, v⟩))

/-- The rendezvous is over: results are written, and every waiting split goes on. -/
def endRendezvous (s : State) (t : Nat) (as : List Arrival) (f : State → Arrival → State × Val) : State :=
  let s := as.foldl (fun s a =>
    let (s, v) := f s a
    (resultTo s a.gid a v).updGrp a.gid Group.forked) s
  s.updTeam t (fun t => { t with forks := [] })

/-- The arrivals that fail (R337): by their own operands, by two splits that differ, or against the reference group. -/
def failing (as : List Arrival) : List Arrival :=
  let ownOk := fun (a : Arrival) => a.fail.isNone && a.agrees
  match as.find? ownOk with
  | none => as
  | some r => as.filter (fun a => !ownOk a || a.k != r.k || a.area != r.area || a.alen != r.alen)

/-- Free entries of the view table, lowest first (R337). -/
def freeViews (s : State) (k : Nat) : List Nat := (((List.range 1024).filter (fun v => v != 0 && !Map.has s.views v)).take k)

/-- The rivals' teams placed as unclustered teams of the partition, with the state after (R337); `none` when there is no room. -/
def placeRivals (grid : Nat) (r : Grid) (t : Team) : Nat → State → Option (State × List Nat)
  | 0, s => some (s, [])
  | n + 1, s =>
    match bestCore s grid r.ctx t.desc (virtualCores r.map (fun c => s.dieUp (dieOf c))) with
    | none => none
    | some (v, c, st) =>
      let id := s.ids
      (placeRivals grid r t n (startTeam s { t with vcore := v, core := c, forks := [], tuple := none } st none)).map
        (fun e => (e.1, id :: e.2))

/-- A rival team takes its copy of the team (R338). -/
def copyTeam (s : State) (t : Team) (id view rival : Nat) (as : List Arrival) : State :=
  match Map.find s.teams id with
  | none => s
  | some u =>
    let s := (t.groups.zip u.groups).foldl (fun s e =>
      let s := s.updGrp e.2 (fun y => (copyGroup (s.grp e.1) y s.time).forked)
      match as.find? (fun a => a.gid == e.1) with
      | some a => resultTo s e.2 a ⟨BitVec.ofNat 32 (view + rival * 2 ^ 12), false⟩
      | none => s) s
    s.updTeam id (fun u => { u with view := view, scr := t.scr, bars := t.bars })

/-- The `j`-th view of a new family. -/
def newView (t : Team) (parent depth fam clan k j area alen : Nat) : View :=
  { state := 1, area := BitVec.ofNat 64 area, alen := alen, sect := 0, win := 0, dec := false, rival := j, km1 := k - 1, depth := depth,
    ctx := t.ctx, parent := parent, fam := fam, log := [], sects := [], clan := clan }

/-- What precedes the copy of a team (R83, R176, R338): every word its groups have issued writes its results. -/
def quiet (s : State) (t : Team) : State :=
  t.groups.foldl (fun s g => freshDistances ((drainMx s g).updGrp g Group.settle) g) s

/-- The bytes of a family's area are arbitrary from now on (R340): each page of it that the root view maps stands for free bytes until it is
written. -/
def looseArea (s : State) (ctx area alen : Nat) : State :=
  let n := Config.freeNat ((s.draws * 256 + 50) * 2048)
  (List.range alen).foldl (fun s i =>
    match treePlace s ctx .read (area + 4096 * i) 0 with
    | .ok k => { s with loose := Map.put s.loose (k / 4096) (n + i, BitVec.allOnes 128) }
    | .error _ => s) s

/-- The fork takes place, or is refused (R337, R338). -/
def decideFork (s : State) (tid : Nat) : State :=
  match Map.find s.teams tid with
  | none => s
  | some t =>
    let s := sweepViews (quiet s t)
    let as := (t.forks.filter (fun a => !(s.grp a.gid).ended)).foldl (fun m a => Map.put m (s.grp a.gid).idx a) [] |>.map (·.2)
    let each := fun (c : Cause) => endRendezvous s tid as (fun s a =>
      let x := s.grp a.gid
      let (s, tok) := newEntry s a.gid ((x.split a.slot).getD Split.blank).pc { cause := c } (lowest x.live)
      (s, ⟨tok, true⟩))
    match failing as with
    | bad :: _ =>
      let (s, tok) := match bad.fail with
        | some (.tok k) => (s, k)
        | _ =>
          let x := s.grp bad.gid
          newEntry s bad.gid ((x.split bad.slot).getD Split.blank).pc { cause := .malformed } (lowest x.live)
      endRendezvous s tid as (fun s _ => (s, ⟨tok, true⟩))
    | [] =>
      match as.head?, Map.find s.grids t.grid with
      | some a, some r =>
        let depth := ((Map.find s.views t.view).map (·.depth)).getD 0
        let vs := freeViews s a.k
        if depth == 4 || vs.length < a.k then each .viewSpace
        else
          match placeRivals t.grid r t (a.k - 1) s with
          | none => endRendezvous s tid as (fun s _ => (s, ⟨BitVec.ofNat 32 (t.view + 2 ^ 16), false⟩))
          | some (s, ids) =>
            let fam := vs.headD 0
            let clan := s.ids
            let s := { s with ids := clan + 1 }
            let s := { s with views := (vs.zip (List.range vs.length)).foldl (fun m e =>
              Map.put m e.1 (newView t t.view (depth + 1) fam clan a.k e.2 a.area a.alen)) s.views }
            let s := looseArea s r.ctx a.area a.alen
            let s := ((vs.drop 1).zip (ids.zip (List.range ids.length))).foldl (fun s e => copyTeam s t e.2.1 e.1 (e.2.2 + 1) as) s
            endRendezvous (s.updTeam tid (fun t => { t with view := fam })) tid as (fun s _ => (s, ⟨BitVec.ofNat 32 fam, false⟩))
      | _, _ => s

/-! ### `FORK` (R336, R337) -/

/-- A group's operands as it arrives: they may fail (R337). -/
def arrivalOf (c : Cur) (w : WS) (wx : Wx) : Arrival :=
  let blank : Arrival := ⟨c.gid, c.slot, w.sd.toNat, 0, 0, 0, none, [], true⟩
  if w.sub == 0 || oddReg w.sa.toNat then { blank with fail := some (.bad .malformed) }
  else
    match operands2 (wx.sPair 0 w.sa.toNat) (wx.sReg 2 w.sb.toNat) with
    | .error r => { blank with fail := some r }
    | .ok (area, alen) =>
      let bad := area % 4096 != 0 || 2 ^ 57 ≤ area || alen == 0 || wx.desc.clu != 0 || wx.desc.gbar
      { blank with k := w.sub.toNat + 1, area := area, alen := alen, fail := if bad then some (.bad .malformed) else none }

/-- Two splits of a group name the same operands. -/
def Arrival.same (a b : Arrival) : Bool := a.k == b.k && a.area == b.area && a.alen == b.alen && a.fail.isNone && b.fail.isNone

/-- The group's arrival is recorded; its other splits make no second one (R337). -/
def arriveFork (s : State) (tid : Nat) (a : Arrival) : State :=
  s.updTeam tid (fun t =>
    if t.forks.any (fun b => b.gid == a.gid) then
      { t with forks := t.forks.map (fun b =>
          if b.gid == a.gid then
            { b with also := b.also ++ [a.sd]
                     agrees := b.agrees && b.same a
                     fail := match b.fail with | some f => some f | none => a.fail }
          else b) }
    else { t with forks := t.forks ++ [a] })

/-- The rendezvous as it stands for a split that has arrived: decided when every group has come (R337). -/
def meetFork (c : Cur) (s : State) : State :=
  let tid := (s.grp c.gid).team
  match Map.find s.teams tid with
  | none => s
  | some t => if allArrived s t then decideFork s tid else hold c (.rendezvous false) true none s

/-- A group whose paths have drained arrives (R337). -/
def enterFork (w : WS) (c : Cur) (s : State) : State :=
  let s := drainMx (s.updGrp c.gid Group.settle) c.gid
  if !(s.grp c.gid).drained then hold c .drain false none s
  else meetFork c (arriveFork (seeAll s c.gid) (s.grp c.gid).team (arrivalOf c w (wxOf c s)))

/-- `FORK` (R336, R337). -/
def execFork (w : WS) (s : State) : Out :=
  onIssuer s (fun c s =>
    match c.wait with
    | some (.rendezvous true) => s
    | some (.rendezvous false) => meetFork c s
    | some .drain => enterFork w c s
    | _ =>
      scalarWord w.qual (fun _ s =>
        match implicitCommit s c with
        | (s, true) => enterFork w c s
        | (s, false) => s) c s)

/-! ### `CHOOSE` (R340, R343, R345) -/

/-- One private sector of view `u` merged into the parent (R340, R343): each byte the view wrote replaces the parent's. An error in a copy that no
core's read has met poisons it as the base takes it (R252; log entry 40). -/
def mergeSect (s : State) (u p k : Nat) (q : PrivSector) : State :=
  let sec := s.copyAt (tagged u k) q.sec
  let bs := ((List.range 32).filter (fun i => q.written.getLsbD i)).map (fun i => (i, BitVec.ofNat 8 (bits sec.data (8 * i) 8)))
  if p == 0 then s.writeRoot k bs sec.token
  else
    match Map.find s.views p with
    | none => s
    | some x =>
      let y := match Map.find x.sects k with
        | some own =>
          { x with sects := Map.put x.sects k { own with sec := (s.copyAt (tagged p k) own.sec).write bs sec.token, written := own.written ||| q.written } }
        | none =>
          { x with sects := Map.put x.sects k ⟨(s.copyAt (s.seenAs p k) (s.devSector p k)).write bs sec.token, q.written, q.slotOf⟩, sect := x.sect + 1 }
      { s with views := Map.put s.views p y }.dropCopies (tagged p k)

/-- The groups of teams left in lost views end; a saved group ends when it is restored (R345). -/
def endLostGroups (s : State) : State :=
  let lost := fun (v : Nat) => (Map.find s.views v).map (·.state) == some 3
  ((s.teams.filter (fun e => lost e.2.view)).flatMap (fun e => e.2.groups)).foldl (fun s g =>
    if (s.grp g).resident && !(s.grp g).ended then endLost s g else s) s

/-- The family of view `u` is decided for it, and its sectors and log merge into its parent; the log that reached the root
(R343). -/
def chooseView (s : State) (u : Nat) (x : View) : State × List (Nat × LogOp) :=
  let chain := fun (v : Nat) => s.chain v
  let rivals := (s.views.filter (fun e => e.2.clan == x.clan && e.1 != u)).map (·.1)
  let s := { s with views := s.views.map (fun e =>
    let y := if e.2.clan == x.clan then { e.2 with dec := true, win := u } else e.2
    (e.1, if e.1 == u then { y with state := 2 } else if (chain e.1).any rivals.contains then y.lose else y)) }
  let s := x.sects.foldl (fun s e => mergeSect s u x.parent e.1 e.2) s
  let s := ((s.views.filter (fun e => e.2.state == 3 || e.1 == u)).map (·.1)).foldl State.dropView s
  let s := looseArea s x.ctx x.area.toNat x.alen
  let s := match Map.find s.views u with
    | some y => { s with views := Map.put s.views u { y with sects := [], log := [], sect := 0 } }
    | none => s
  if x.parent == 0 then (s, x.log)
  else
    match Map.find s.views x.parent with
    | some p => ({ s with views := Map.put s.views x.parent { p with log := p.log ++ x.log } }, [])
    | none => (s, [])

/-- The chain chosen, innermost first: the state, the parent of the last view chosen, whether it was won whole, and the log that
reached the root. A view that this team has chosen before, by a `CHOOSE` of another of its groups, is passed over (R343): a view of its chain is no
other team's to choose, since no team is in a view that has a live child (R335). -/
def chooseChain (s : State) (at_ : Nat) : List Nat → State × Nat × Bool × List (Nat × LogOp)
  | [] => (s, at_, true, [])
  | u :: us =>
    match Map.find s.views u with
    | none => chooseChain s at_ us
    | some x =>
      if x.state == 2 then chooseChain s at_ us
      else if x.dec then (s, at_, false, [])
      else
        let (s, log) := chooseView s u x
        let (s, p, ok, more) := chooseChain s x.parent us
        (s, p, ok, log ++ more)

/-- A played entry that fails (R344). -/
def playFail (s : State) (g : Nat) (c : Cause) (pc : BitVec 64) : State :=
  let (s, t) := newEntry s g pc { cause := c } 0
  orphan s g t

/-- One entry of a log that has reached the root, played by the choosing group; records that a full bin holds back stay in the
list (R344). -/
def playEntry (g : Nat) (pc : BitVec 64) (r : State × List (Nat × Nat × BitVec 128) × List Nat) (e : LogOp) :
    State × List (Nat × Nat × BitVec 128) × List Nat :=
  let (s, recs, last) := r
  let s := { s with draws := s.draws + 1 }
  match e with
  | .store q =>
    let s := if 2 ≤ q.ord then fullFence s g q.scope else s
    (performNext s g { q with view := 0, rel := true }, recs, last)
  | .reds qs =>
    let s := if qs.any (fun q => q.ord == 2) then fullFence s g ((qs.head?.map (·.scope)).getD 3) else s
    (qs.foldl (fun s q => performNext s g { q with view := 0, rel := true }) s, recs, last)
  | .sig sub n v => (signalOp (fullFence s g (if bit sub 2 then 4 else 3)) (s.grp g).ctx n (bit sub 0) v, recs, last)
  | .spawn grid node rc =>
    if !spawnable s grid node then (playFail s g .malformed pc, recs, last)
    else if recs.any (fun e => e.2.1 == node) || !((s.node grid node).map (·.room)).getD true then (s, recs ++ [(0, node, rc)], last)
    else (enterBin s grid node rc, recs, last)
  | .spawnLast grid nodes =>
    let ok := nodes.filter (spawnable s grid)
    let now := ok.filter (fun n => !recs.any (fun e => e.2.1 == n))
    (now.foldl (fun s n => produce s grid n) s, recs, last ++ ok.filter (fun n => recs.any (fun e => e.2.1 == n)))
  | .tback desc mode leaf value => (playTback s g pc desc mode leaf value, recs, last)
  | .treuse desc node => (playTreuse s g pc desc node, recs, last)
  | .multicast red gid size aop rel q => (playMcast s g pc red gid size aop rel q, recs, last)

/-- A log that has reached the root is played in entry order; `CHOOSE` waits for what a full bin or another package still holds (R344). -/
def playLog (s : State) (g : Nat) : State :=
  match s.plays.find? (fun p => p.gid == g) with
  | none => s
  | some p =>
    let (s, recs, last) := p.log.foldl (playEntry g p.pc) ({ s with plays := s.plays.filter (fun q => q.gid != g) }, [], [])
    if recs.isEmpty then s else playOp s g pathWrk 0 p.pc (.spawn recs last)

/-- What a `CHOOSE` names (R343). -/
def chooseCheck (w : WS) (s : State) (wx : Wx) : Except LVal Nat :=
  if w.sb != 0 || w.sub != 0 then .error (.bad .malformed)
  else
    match wx.sReg 0 w.sa.toNat with
    | .val n => require (n % 1024 != 0 && (s.chain wx.team.view).contains (n % 1024)) (.ok (n % 1024))
    | r => .error r

/-- The status of a `CHOOSE` whose play has completed, or its wait for it. -/
def chooseEnd (c : Cur) (sd : Nat) (s : State) : State :=
  if waitMet s (s.grp c.gid) (.choose c.gid sd) then put s c.gid [⟨.s, sd, 0, ⟨0, false⟩⟩] else hold c (.choose c.gid sd) true none s

/-- `CHOOSE` of view `v` goes to the base with the chain from the team's view up to `v` (R343). -/
def chooseSend (v sd : Nat) (c : Cur) (wx : Wx) (s : State) : State :=
  let own := ((Map.find s.teams wx.x.team).map (·.view)).getD 0
  hold c (.chooseStep ((s.chain own).takeWhile (fun u => u != v) ++ [v]) sd) true none s

/-- `CHOOSE` of a chain at the base: one indivisible step, with the play of a log that has reached the root to follow (R343, R344). -/
def chooseStep (chain : List Nat) (sd : Nat) (c : Cur) (s : State) : State :=
  let s := fullFence s c.gid 3
  let tid := (s.grp c.gid).team
  let own := ((Map.find s.teams tid).map (·.view)).getD 0
  let (s, at_, won, log) := chooseChain s own chain
  let s := s.updTeam tid (fun t => { t with view := at_ })
  let s := endLostGroups s
  let s := if log.isEmpty then s else { s with plays := s.plays ++ [⟨c.gid, c.pc, log.map (·.2)⟩] }
  if won then chooseEnd c sd s else put s c.gid [⟨.s, sd, 0, ⟨1, false⟩⟩]

/-- `CHOOSE` (R343). -/
def execChoose (w : WS) (s : State) : Out :=
  match s.cur with
  | some { wait := some (.choose _ sd), .. } => onIssuer s (fun c s => chooseEnd c sd s)
  | some { wait := some (.chooseStep chain sd), .. } => onIssuer s (fun c s => chooseStep chain sd c s)
  | _ => visibleChecked w.qual (chooseCheck w) (fun r => finishS true w.sd.toNat 1 r) (fun v c => chooseSend v w.sd.toNat c) s

/-! ### `VIEW` (R346) -/

/-- SECT summed over a family. -/
def State.familySect (s : State) (x : View) : Nat :=
  (s.views.filter (fun e => e.2.clan == x.clan)).foldl (fun n e => n + e.2.sect) 0

/-- A field of the team's view to s[SD] (R346). -/
def viewWord (w : WS) (rsv : Bool) (f : State → Nat → View → Nat) (s : State) : Out :=
  onIssuer s (scalarWord w.qual (fun wx s =>
    let v := s.viewOf wx.x
    if rsv || w.sa != 0 || w.sb != 0 then finishS true w.sd.toNat 1 (.bad .malformed) wx s
    else finishS true w.sd.toNat 1 (.val (((Map.find s.views v).map (f s v)).getD 0)) wx s))

/-- `VIEW.id`; the row holds SUB 7, which is reserved (R346). -/
def execViewId (w : WS) (s : State) : Out := viewWord w (w.sub != 0) (fun _ v _ => v) s
/-- `VIEW.rival` (R346). -/
def execViewRival (w : WS) (s : State) : Out := viewWord w false (fun _ _ x => x.rival) s
/-- `VIEW.depth` (R346). -/
def execViewDepth (w : WS) (s : State) : Out := viewWord w false (fun _ _ x => x.depth) s
/-- `VIEW.parent` (R346). -/
def execViewParent (w : WS) (s : State) : Out := viewWord w false (fun _ _ x => x.parent) s
/-- `VIEW.log` (R346). -/
def execViewLog (w : WS) (s : State) : Out := viewWord w false (fun s v _ => s.logn v) s
/-- `VIEW.sect` (R346). -/
def execViewSect (w : WS) (s : State) : Out := viewWord w false (fun s _ x => s.familySect x) s
/-- `VIEW.dec` (R346). -/
def execViewDec (w : WS) (s : State) : Out := viewWord w false (fun _ _ x => ofBool x.dec + x.win * 4) s

end Sys2Proof.Machine
end

