-- ==== Sys2Proof/Machine/Packets.lean ====
section
/-! DEFINITION. Queues and the packets that need no core (R35 to R52): agents' accesses, completion, `SIGNAL_SET`, `SIGNAL_WAIT`,
`COPY`, `NODE_FEED`, `NOP`. -/
namespace Sys2Proof.Machine

/-! ### Memory as the Coachhouse reads and writes it: the root view of a context -/

/-- The parts of a range of virtual addresses that lie in one sector each: address and length. -/
def sectorParts : Nat → Nat → Nat → List (Nat × Nat)
  | 0, _, _ => []
  | f + 1, va, n => if n == 0 then [] else let k := min n (32 - va % 32); (va, k) :: sectorParts f (va + k) (n - k)

def partsOf (va n : Nat) : List (Nat × Nat) := sectorParts (n / 32 + 2) va n

/-- A part of one sector as an agent of the base reads it. -/
def agentPart (s : State) (ctx va n key : Nat) : LVal :=
  match Map.find s.ctxs ctx with
  | none => .bad .bounds
  | some c =>
    match translate s c .read va key with
    | .error f => .new f
    | .ok t =>
      let (base, off) := sectorBase t.place
      let sec : Except Fail Sector := match base with
        | .dev k => .ok (s.baseSector (k / 32))
        | .host p a => s.hostSector (hostKey p a / 32)
        | .peer p o => s.peerSector ctx p o key
        | .scr _ _ => .ok ⟨0, none⟩
      match sec with
      | .error f => .tok (BitVec.ofNat 32 (Config.freeNat (Config.freeNat key + f.addr)))
      | .ok x =>
        match x.token with
        | some t => .tok t
        | none => .val (bits x.data (8 * off) (8 * n))

/-- `n` bytes at a virtual address: the first part that is poisoned or cannot be read, or their value. -/
def agentRead (s : State) (ctx va n key : Nat) : LVal :=
  let rs := (partsOf va n).map (fun e => (e.1 - va, agentPart s ctx (e.1 % 2 ^ 64) e.2 key))
  match rs.find? (fun e => !e.2.isVal) with
  | some e => e.2
  | none => .val (rs.foldl (fun a e => a + (match e.2 with | .val v => v | _ => 0) * 2 ^ (8 * e.1)) 0)

/-- A part of one sector written by an agent of the base; host memory is written through. The flag says whether it could. -/
def agentWrite1 (s : State) (ctx va n data key : Nat) (token : Option Word) : State × Bool :=
  match Map.find s.ctxs ctx with
  | none => (s, false)
  | some c =>
    match translate s c .write va key with
    | .error _ => (s, false)
    | .ok t =>
      let (base, off) := sectorBase t.place
      let (s, r) := checkedBytes s ctx 0 key base (plainBytes (bytesAt off n data 0)) token
      (match base with
       | .host p a => s.writeBack (hostKey p a / 32)
       | _ => s, r.isNone)

/-- `n` bytes written at a virtual address; a part that cannot be written is left. -/
def agentWrite (s : State) (ctx va n data key : Nat) : State × Bool :=
  (partsOf va n).foldl (fun (r : State × Bool) e =>
    let (s, ok) := agentWrite1 r.1 ctx (e.1 % 2 ^ 64) e.2 (bits data (8 * (e.1 - va)) (8 * e.2)) key none
    (s, r.2 && ok)) (s, true)

/-! ### Queues (R35, R36, R38, R50) -/

def State.queueOf (s : State) (c q : Nat) : Queue := ((Map.find s.ctxs c).map (fun x => Map.get Queue.zero x.queues q)).getD Queue.zero

def State.updQueue (s : State) (c q : Nat) (f : Queue → Queue) : State :=
  s.updCtx c (fun x => { x with queues := Map.set Queue.zero x.queues q (f (Map.get Queue.zero x.queues q)) })

/-- The packets of a queue's ring. -/
def Queue.size (q : Queue) : Nat := 2 ^ q.logsz

/-- An event of a queue (R50): its number is held at most once. -/
def wakeQueue (s : State) (c q : Nat) : State :=
  let k := 64 * c + q
  if s.coach.contains k then s else { s with coach := s.coach ++ [k] }

/-- The device of a queue (R34). -/
def devOfQueue (mode q : Nat) : Nat := if mode == 8 then q / 8 else if mode == 2 then q / 32 else 0

/-- Whether the device mode gives a context a queue number (R34). -/
def queueExists (dz860 : Bool) (mode q : Nat) : Bool := q < 64 && !(mode == 8 && dz860 && 56 ≤ q)

/-- A queue stops; a stop already recorded is kept (R36, R43). -/
def Queue.stop (q : Queue) (byDoorbell : Bool) (st : Nat) (idx : BitVec 32) : Queue :=
  if q.stopped then q else { q with stopped := true, byDoorbell := byDoorbell, lastst := st, stopidx := idx }

/-- The completion record of a packet (R41). -/
def recordBits (p : Pkt) (st xst info : Nat) : Nat :=
  info % 2 ^ 64 * 2 ^ 64 + p.hdr.tag.toNat * 2 ^ 32 + p.hdr.typ.toNat * 2 ^ 24 + xst % 256 * 256 + st % 256

/-- The index of a packet. -/
def pktNo (p : Pkt) : BitVec 32 := BitVec.ofNat 32 p.idx

/-- The completion operation of a packet that ended well (R39, R45). -/
def completionOp (s : State) (p : Pkt) : State :=
  if p.hdr.csig == 0 || p.hdr.cop == 0 then s
  else signalOp s p.ctx p.hdr.csig.toNat (p.hdr.cop == 1) p.hdr.cdelta

/-- A packet completes (R41, R43, R45): its record, its completion operation or the stop of its queue, and an event. DESIGN CHOICE:
the record goes to the completion area as CPLBASE and LOGSZ stand then, and one that cannot be written is lost while the completion operation
is performed (log entry 59). -/
def finishPkt (s : State) (p : Pkt) (st xst info : Nat) : State :=
  let q := s.queueOf p.ctx p.q
  let s := { s with draws := s.draws + 1 }
  let (s, _) := agentWrite s p.ctx ((q.cplbase.toNat + 16 * (p.idx % q.size)) % 2 ^ 64) 16 (recordBits p st xst info) (freeKey s.draws 26 0)
  let s := s.updQueue p.ctx p.q (fun q => { q with started := q.started.filter (fun e => e.pkt.idx != p.idx) })
  let s := if st == 0 then completionOp s p else s.updQueue p.ctx p.q (fun q => q.stop false st (pktNo p))
  wakeQueue s p.ctx p.q

/-- A started packet that has not completed (R44). -/
def startBody (s : State) (p : Pkt) (b : Body) : State := s.updQueue p.ctx p.q (fun q => { q with started := q.started ++ [⟨p, b⟩] })

/-- The body of a started packet replaced. -/
def setBody (s : State) (p : Pkt) (b : Body) : State :=
  s.updQueue p.ctx p.q (fun q => { q with started := q.started.map (fun e => if e.pkt.idx == p.idx then ⟨p, b⟩ else e) })

/-- RDIDX goes on to an index; where the indices begin again at 0, a new epoch of packet numbers begins (R36). -/
def Queue.pass (q : Queue) (i : BitVec 32) : Queue := { q with rdidx := i, epoch := if i.toNat < q.rdidx.toNat then q.epoch + 1 else q.epoch }

/-- The key of a queue's retirement records: they outlive the context, and are read through its function's mailbox (R403). -/
def State.recordKey (s : State) (ctx q : Nat) : Nat := 64 * ((Map.find s.ctxs ctx).map (·.fn)).getD 0 + q

/-- The last 64 retirement records of a queue are kept (R403). -/
def keepRecord (s : State) (p : Pkt) (b : Nat) : State :=
  { s with records := Map.modify [] s.records (s.recordKey p.ctx p.q) (fun l => (⟨pktNo p, BitVec.ofNat 256 b⟩ :: l).take 64) }

/-- The partition of a context. -/
def State.partOfCtx (s : State) (ctx : Nat) : Nat := ((Map.find s.ctxs ctx).map (·.part)).getD 0

/-- A LAUNCH that starts and completes at once has its retirement record, in which nothing has been met (R403), and its start calls for a
dispatch pass (R44, R58). -/
def finishLaunch (s : State) (p : Pkt) (st : Nat) : State :=
  dueNow (finishPkt (keepRecord s p 0) p st 0 0) (.dispatchPass (s.partOfCtx p.ctx))

/-- A packet is refused as it starts (R42, R43). -/
def refuseStart (s : State) (p : Pkt) (st : Nat) : State := if p.hdr.typ == 1 then finishLaunch s p st else finishPkt s p st 0 0

/-- A packet starts (R37, R42, R44): RDIDX advances past it, and the queue is looked at again; a refused header completes at once. DESIGN
CHOICE: of several faults, an undefined TYPE comes first, then the reserved bits and refused values, CSIG, and what the type itself checks,
TEAMS before R27 (log entry 63). -/
def startPkt (p : Pkt) (rsv : Bool) (f : State → State) (s : State) : Out :=
  onDevice s (fun s =>
    if !Map.has s.ctxs p.ctx then s
    else
      let s := wakeQueue (s.updQueue p.ctx p.q (fun q => q.pass (pktNo p + 1))) p.ctx p.q
      if rsv || p.hdr.cop == 3 then refuseStart s p 0x11
      else if s.nsig p.ctx < p.hdr.csig.toNat then refuseStart s p 0x12
      else f s)

/-- NOP_PACKET (R44). -/
def execNopPacket (p : Pkt) (s : State) : Out := startPkt p false (fun s => finishPkt s p 0 0 0) s

/-- SIGNAL_SET (R40, R42, R44). -/
def execSignalSet (p : Pkt) (value : BitVec 64) (sig : BitVec 16) (op : BitVec 2) (s : State) : Out :=
  startPkt p (2 ≤ op.toNat) (fun s =>
    if sig == 0 || s.nsig p.ctx < sig.toNat then finishPkt s p 0x12 0 0
    else finishPkt (signalOp s p.ctx sig.toNat (op == 1) value) p 0 0 0) s

/-- A `SIGNAL_WAIT` whose condition holds completes (R44, R45). -/
def tryWait (s : State) (p : Pkt) (cmpv : BitVec 64) (sig cond : Nat) : State :=
  let v := s.sigVal p.ctx sig
  if signalCond cond v cmpv then finishPkt s p 0 0 v.toNat else s

/-- SIGNAL_WAIT (R40, R42, R44). -/
def execSignalWait (p : Pkt) (cmpv : BitVec 64) (sig : BitVec 16) (cond : BitVec 3) (tmo : BitVec 32) (s : State) : Out :=
  startPkt p (6 ≤ cond.toNat) (fun s =>
    if sig == 0 || s.nsig p.ctx < sig.toNat then finishPkt s p 0x12 0 0
    else
      let due := if tmo == 0 then none else some (s.time + tmo.toNat * 21000)
      let s := (startBody s p (.wait cmpv sig.toNat cond.toNat due)).updQueue p.ctx p.q (fun q => { q with waitAt := s.time })
      let s := match due with
        | some d => { s with agenda := insertDue s.agenda ⟨d, .event (.signalWaitTimeout p.ctx p.q p.idx)⟩ }
        | none => s
      tryWait s p cmpv sig.toNat cond.toNat) s

/-- The started packet of a queue with an index. -/
def State.startedAt (s : State) (c q idx : Nat) : Option Started := (s.queueOf c q).started.find? (fun e => e.pkt.idx == idx)

/-- SIGNAL_WAIT_TIMEOUT (R42, R43): the wait still stands and its time has come. -/
def waitTimeout (s : State) (c q idx : Nat) : State :=
  match s.startedAt c q idx with
  | some ⟨p, .wait cmpv sig cond (some due)⟩ =>
    if s.time < due then s
    else if signalCond cond (s.sigVal c sig) cmpv then tryWait s p cmpv sig cond
    else finishPkt s p 0x18 0 0
  | _ => s

def execSignalWaitTimeout (c q idx : Nat) (s : State) : Out := onDevice s (fun s => waitTimeout s c q idx)

/-! ### COPY (R43, R46) -/

/-- Whether two ranges of `n` bytes overlap. -/
def rangesMeet (a b n : Nat) : Bool := n != 0 && a < b + n && b < a + n

/-- COPY (R40, R42): its bytes are written by the time it completes. -/
def execCopy (p : Pkt) (src dst : BitVec 64) (bytes : BitVec 40) (s : State) : Out :=
  startPkt p false (fun s =>
    if rangesMeet src.toNat dst.toNat bytes.toNat then finishPkt s p 0x17 0 0
    else startBody s p (.copy src dst bytes.toNat 0 false)) s

/-- The next part of a copy: it lies in one sector of the source and one of the destination. DESIGN CHOICE: a source sector that a fabric peer
does not give is copied as poison with a free token, and a walk or a write that fails in any way is COPY_FAULT (log entry 43). -/
def copyPart (s : State) (ctx src dst n : Nat) : State × Bool × Bool :=
  let s := { s with draws := s.draws + 1 }
  let key := freeKey s.draws 27 0
  match agentPart s ctx src n key with
  | .val v => let (s, ok) := agentWrite1 s ctx dst n v key none; (s, ok, false)
  | .tok t => let (s, ok) := agentWrite1 s ctx dst n 0 key (some t); (s, ok, true)
  | .new _ => (s, false, false)
  | .beside _ => (s, false, false)

/-- The bytes of a copy from `done` on, until the first page that cannot be reached: bytes written, poison met, success. -/
def copyBytes (ctx src dst total : Nat) : Nat → State → Nat → Bool → State × Nat × Bool × Bool
  | 0, s, d, px => (s, d, px, true)
  | f + 1, s, d, px =>
    if total ≤ d then (s, d, px, true)
    else
      let a := (src + d) % 2 ^ 64
      let b := (dst + d) % 2 ^ 64
      let n := min (total - d) (min (32 - a % 32) (32 - b % 32))
      match copyPart s ctx a b n with
      | (s, true, x) => copyBytes ctx src dst total f s (d + n) (px || x)
      | (s, false, _) => (s, d, px, false)

/-- COPY_COMPLETION (R43, R44, R46). -/
def copyDone (s : State) (c q idx : Nat) : State :=
  match s.startedAt c q idx with
  | some ⟨p, .copy src dst bytes done px⟩ =>
    let (s, n, px, ok) := copyBytes c src.toNat dst.toNat bytes (bytes / 16 + 4) s done px
    finishPkt s p (if ok then 0 else 0x16) (ofBool px) n
  | _ => s

def execCopyCompletion (c q idx : Nat) (s : State) : Out := onDevice s (fun s => copyDone s c q idx)

/-! ### NODE_FEED (R40, R42 to R44, R295) -/

/-- The live launch of a context that names a node table. -/
def liveTable (s : State) (ctx ntab : Nat) : Option Nat :=
  (s.grids.find? (fun e => e.2.ctx == ctx && !e.2.nodes.isEmpty && e.2.ntab.toNat == ntab)).map (·.1)

/-- Records of a feed enter the bin while there is room: done so far, and whether a record could not be read. -/
def feedRecords (ctx grid node raddr count : Nat) : Nat → State → Nat → State × Nat × Bool
  | 0, s, d => (s, d, false)
  | f + 1, s, d =>
    if count ≤ d || !((s.node grid node).map (·.room)).getD false then (s, d, false)
    else
      let s := { s with draws := s.draws + 1 }
      match agentRead s ctx ((raddr + 16 * d) % 2 ^ 64) 16 (freeKey s.draws 28 0) with
      | .val v => feedRecords ctx grid node raddr count f (enterBin s grid node (BitVec.ofNat 128 v)) (d + 1)
      | _ => (s, d, true)

/-- A started feed goes on (R43, R44, R295). -/
def feedStep (s : State) (p : Pkt) (ntab raddr : BitVec 64) (count node : Nat) (last : Bool) (done : Nat) : State :=
  match liveTable s p.ctx ntab.toNat with
  | none => finishPkt s p 0x15 0 done
  | some grid =>
    if ((s.node grid node).map (·.ended)).getD true then finishPkt s p 0x15 0 done
    else
      let (s, d, bad) := feedRecords p.ctx grid node raddr.toNat count (count + 1) s done
      if bad then finishPkt s p 0x19 0 d
      else if count ≤ d then finishPkt (if last then produce s grid node else s) p 0 0 d
      else setBody s p (.feed ntab raddr count node last d)

/-- NODE_FEED (R40, R42). -/
def execNodeFeed (p : Pkt) (ntab raddr : BitVec 64) (count : BitVec 32) (node : BitVec 16) (last : Bool) (s : State) : Out :=
  startPkt p false (fun s =>
    match liveTable s p.ctx ntab.toNat with
    | none => finishPkt s p 0x14 0 0
    | some grid =>
      match s.node grid node.toNat with
      | none => finishPkt s p 0x14 0 0
      | some d =>
        if d.kind == 2 || raddr.toNat % 16 != 0 then finishPkt s p 0x14 0 0
        else if d.ended then finishPkt s p 0x15 0 0
        else
          let s := startBody s p (.feed ntab raddr count.toNat node.toNat last 0)
          feedStep s p ntab raddr count.toNat node.toNat last 0) s

/-- Records that a full bin held back enter as room frees: the `SPAWN` records of each group in turn, then the feeds (R297, R44). -/
def admitFeeds (s : State) (grid node : Nat) : State :=
  let ctx := ((Map.find s.grids grid).map (·.ctx)).getD 0
  let qs := ((Map.find s.ctxs ctx).map (·.queues)).getD []
  (qs.flatMap (fun q => q.2.started)).foldl (fun s e =>
    match e.body with
    | .feed ntab raddr count n last done => if n == node && liveTable s ctx ntab.toNat == some grid then feedStep s e.pkt ntab raddr count n last done else s
    | _ => s) s

/-- The `SPAWN` operations of a group go on as far as their bins admit. -/
def spawnOn (g : Nat) : Nat → State → State
  | 0, s => s
  | f + 1, s =>
    let x := s.grp g
    match (x.path pathWrk).ops.find? (fun o => opReady x o && (match o.kind with
      | .spawn recs _ => recs.any (fun r => ((s.node (gridNo s x) r.2.1).map (·.room)).getD true && !earlierSpawn x o r.2.1)
      | _ => false)) with
    | none => s
    | some o =>
      match o.kind with
      | .spawn recs last => let (s, o) := unitSpawn s g o recs last; spawnOn g f (storeOp s g pathWrk o)
      | _ => s

/-- BIN_ADMIT (R297). -/
def binAdmit (s : State) (grid node : Nat) : State :=
  let gs := (s.groups.filter (fun e => gridNo s e.2 == grid)).map (·.1)
  let room := ((s.node grid node).map (fun d => d.cap - d.bin.length)).getD 0
  admitFeeds (gs.foldl (fun s g => spawnOn g (room + 1) s) s) grid node

def execBinAdmit (grid node : Nat) (s : State) : Out := onDevice s (fun s => binAdmit s grid node)

end Sys2Proof.Machine
end

