-- ==== Sys2Proof/Machine/Launch.lean ====
section
/-! DEFINITION. Launching: the kernel descriptor, the node table and the virtual-grid map as they are read and checked (R23 to
R31), the LAUNCH packet (R44), the retirement of teams and grids (R400 to R403), and the end of a node (R295). -/
namespace Sys2Proof.Machine

/-! ### The kernel descriptor (R23, R27) -/

/-- Reserved bits of a descriptor. -/
def descRsv (b : Nat) : Bool :=
  bits b 624 1424 != 0 || bits b 556 4 != 0 || bits b 540 4 != 0 || bits b 529 3 != 0 || bits b 517 3 != 0 || bits b 500 12 != 0
    || bits b 473 3 != 0

/-- A descriptor from its 2048 bits (R23). -/
def descOf (addr b : Nat) : Desc :=
  { addr := BitVec.ofNat 64 addr
    nnode := bits b 608 16
    csize := bits b 576 32
    sspg := bits b 560 16
    qq := bits b 544 12
    tasb := bits b 532 8
    scr := bits b 520 9
    l1u := bits b 512 5
    rshare := bits b 492 8
    regs1 := bits b 484 8
    regs0 := bits b 476 8
    clu := bits b 470 3
    prodg := bits b 465 5
    teamg := bits b 460 5
    gbar := bit b 459
    roleen := bit b 458
    width := bits b 456 2
    version := bits b 448 8
    cbase := BitVec.ofNat 64 (bits b 384 64)
    vgmap := BitVec.ofNat 64 (bits b 320 64)
    ntab := BitVec.ofNat 64 (bits b 256 64)
    ssbase := BitVec.ofNat 64 (bits b 192 64)
    traph := BitVec.ofNat 64 (bits b 128 64)
    entry1 := BitVec.ofNat 64 (bits b 64 64)
    entry0 := BitVec.ofNat 64 (bits b 0 64)
    rsv := descRsv b }

/-- An address that is aligned and has bits 63:57 zero. -/
def addrOk (a : BitVec 64) (n : Nat) : Bool := a.toNat % n == 0 && a.toNat < 2 ^ 57

def budgetOk (r : Nat) : Bool := 8 ≤ r && r ≤ 128 && r % 8 == 0
def ceil4 (n : Nat) : Nat := (n + 3) / 4

/-- Checks 0x02 to 0x0B of R27 in their order: the first that fails, 0 for none. -/
def descCheck (d : Desc) : Nat :=
  if d.version != 1 then 0x02
  else if d.rsv || (!d.roleen && (d.regs1 != 0 || d.prodg != 0 || d.entry1 != 0)) then 0x03
  else if d.width == 3 then 0x04
  else if d.teamg == 0 || 16 < d.teamg || d.teamg < d.prodg || d.clu == 1 || 5 ≤ d.clu then 0x05
  else if !budgetOk d.regs0 || (d.roleen && !budgetOk d.regs1) || 2048 < ceil4 d.teamg * d.regsR * d.passes
      || 16 < ceil4 d.teamg * d.passes then 0x06
  else if d.l1u < 2 || 16 < d.l1u || 448 < d.scr || 512 < d.scr + 32 * d.l1u then 0x07
  else if 128 < d.tasb || 262144 < d.teamg * d.tasb * (32 * d.passes) * 64 then 0x08
  else if 2048 < d.qq || 2048 < d.teamg * d.qq then 0x09
  else if d.sspg == 0 || !addrOk d.ssbase 64 then 0x0A
  else if !addrOk d.entry0 4 || !addrOk d.entry1 4 || !addrOk d.traph 4 || !addrOk d.cbase 64 then 0x0B
  else 0

/-- A descriptor read at its address, or the first status of R27 that refuses it. -/
def readDesc (s : State) (ctx addr key : Nat) : Except Nat Desc :=
  if addr % 256 != 0 then .error 0x01
  else
    match agentRead s ctx addr 256 key with
    | .val b =>
      let d := descOf addr b
      let st := descCheck d
      if st == 0 then .ok d else .error st
    | _ => .error 0x01

/-- One team's need against the limits of the context (PARTITION_QUOTA, R56). -/
def quotaFits (c : Ctx) (d : Desc) : Bool := d.need.within (kernelLimit c) && d.need.within (contextLimit c)

/-! ### The node table (R29, R62) -/

/-- The constraints on an entry's fields (R29). -/
def entryOk (b : Nat) : Bool :=
  let kind := bits b 0 2
  let dim := bits b 2 2
  let x := bits b 96 32
  let y := bits b 128 32
  let z := bits b 160 32
  let range := kind == 2
  kind != 3 && bits b 4 24 == 0 && bits b 64 32 == 0 && bits b 192 64 % 256 == 0
    && (if range then dim != 0 else dim == 0)
    && (range || x == 0) && (2 ≤ dim || y == 0) && (3 ≤ dim || z == 0)
    && (if kind == 0 then bits b 48 16 != 0 else bits b 48 16 == 0)
    && (!range || bits b 32 16 == 0)
    && (!range || (x != 0 && (dim < 2 || y != 0) && (dim < 3 || z != 0) && x * max y 1 * max z 1 ≤ 2 ^ 32))

/-- A node from its entry. -/
def nodeOf (b : Nat) (d : Desc) : Node :=
  { kdesc := BitVec.ofNat 64 (bits b 192 64), extx := bits b 96 32, exty := bits b 128 32, extz := bits b 160 32,
    timer := bits b 48 16, nprod := bits b 32 16, cap := 2 ^ (10 + bits b 28 4), dim := bits b 2 2, kind := bits b 0 2,
    desc := d, bin := [], produced := 0, handed := 0, returned := [], timerAt := none, lapsed := false, waiting := [], ended := false }

/-! ### The virtual grid (R31) -/

/-- Physical clusters of a partition: die and cluster. -/
def partClusters (m : BitVec 128) : List (Nat × Nat) :=
  ((List.range 128).filter (fun i => m.getLsbD i)).map (fun i => (i / 16, i % 16))

/-- The physical cores of a physical cluster (R15). -/
def State.clusterOf (s : State) (die c : Nat) : List Nat :=
  (((s.clusterMap[die]?).bind (fun d => d[c]?)).getD []).map (fun p => 68 * die + p)

/-- One map entry: its physical core, where it is well formed. -/
def mapEntry (s : State) (e : Nat) : Option Nat :=
  let die := bits e 13 3
  if bit e 31 && bits e 16 15 == 0 && bits e 0 6 == 0 && bits e 6 7 < 68 && !(s.dz860 && die == 7) then some (68 * die + bits e 6 7) else none

/-- Each virtual cluster lies on one physical cluster of the partition, and every core is named at most once (R31). -/
def mapOk (s : State) (clusters : List (Nat × Nat)) (cores : List Nat) : Bool :=
  decide (cores.eraseDups.length = cores.length)
    && (List.range (cores.length / 4)).all (fun k =>
      let four := (cores.drop (4 * k)).take 4
      clusters.any (fun e => let ps := s.clusterOf e.1 e.2; four.all ps.contains))

/-- The physical core of each virtual core; `none` is VGMAP. -/
def readMap (s : State) (c : Ctx) (ctx : Nat) (d : Desc) (key : Nat) : Option (List Nat) :=
  let clusters := partClusters (((Map.find s.parts c.part).map (·.clusters)).getD 0)
  let n := 4 * clusters.length
  if !addrOk d.vgmap 64 then none
  else
    match agentRead s ctx d.vgmap.toNat (4 * n) key with
    | .val b =>
      let es := (List.range n).map (fun i => mapEntry s (bits b (32 * i) 32))
      if es.any (·.isNone) then none
      else
        let cores := es.filterMap id
        if mapOk s clusters cores then some cores else none
    | _ => none

/-! ### Launched nodes (R28, R29, R62) -/

/-- The kernels that the launched nodes of a descriptor's own table name; none where the table breaks a constraint (R29). -/
def tableKernels (s : State) (ctx : Nat) (d : Desc) (key : Nat) : Option (List Nat) :=
  if d.nnode == 0 then some []
  else if !addrOk d.ntab 32 then none
  else
    (List.range d.nnode).foldr (fun i (l : Option (List Nat)) =>
      match agentRead s ctx (d.ntab.toNat + 32 * i) 32 key, l with
      | .val b, some l => if !entryOk b then none else if bits b 0 2 == 0 then some (bits b 192 64 :: l) else some l
      | _, _ => none) (some [])

/-- The kernel of a launched node passes the checks of R27 and R62 but for those on the kernels that its own table names, which are
answered. -/
def nodeKernel (s : State) (c : Ctx) (ctx addr key : Nat) : Option (Desc × List Nat) :=
  match readDesc s ctx addr key with
  | .error _ => none
  | .ok d =>
    if d.teamg == 1 && d.clu == 0 && !d.gbar && (readMap s c ctx d (key + 2)).isSome && quotaFits c d then
      (tableKernels s ctx d (key + 1)).map (fun l => (d, l))
    else none

/-- Every kernel that is named, and every one that their tables name in turn, passes; one that has been looked at is not looked at again. The
fuel exceeds the number of entries that tables in device memory can have. -/
def kernelsOk (s : State) (c : Ctx) (ctx key : Nat) : Nat → List Nat → List Nat → Bool
  | 0, _, _ => false
  | _, [], _ => true
  | f + 1, a :: l, seen =>
    if seen.contains a then kernelsOk s c ctx key f l seen
    else
      match nodeKernel s c ctx a key with
      | none => false
      | some e => kernelsOk s c ctx key f (e.2 ++ l) (a :: seen)

/-- The kernel of a launched node passes every check, from DESC_ADDR to PARTITION_QUOTA (R27, R29, R62). -/
def nodeDesc (s : State) (c : Ctx) (ctx addr key : Nat) : Option Desc :=
  match nodeKernel s c ctx addr key with
  | none => none
  | some (d, l) => if kernelsOk s c ctx key (2 ^ 50) l [addr] then some d else none

/-- The entries of a table from entry `i` on; `none` is NODE_TABLE. -/
def readNodes (s : State) (c : Ctx) (ctx ntab key : Nat) : Nat → Nat → Option (List Node)
  | 0, _ => some []
  | n + 1, i =>
    match agentRead s ctx (ntab + 32 * i) 32 (Config.freeNat key + i) with
    | .val b =>
      if !entryOk b then none
      else
        let d := if bits b 0 2 == 0 then nodeDesc s c ctx (bits b 192 64) (Config.freeNat key + i) else some Desc.blank
        match d, readNodes s c ctx ntab key n (i + 1) with
        | some d, some ns => some (nodeOf b d :: ns)
        | _, _ => none
    | _ => none

/-- The node table of a launch (R28, R29, R44): a table of a live launch cannot be named again. -/
def nodeTable (s : State) (c : Ctx) (ctx : Nat) (d : Desc) (key : Nat) : Option (List Node) :=
  if d.nnode == 0 then some []
  else if !addrOk d.ntab 32 || (liveTable s ctx d.ntab.toNat).isSome then none
  else readNodes s c ctx d.ntab.toNat key d.nnode 0

/-! ### LAUNCH (R27, R44) -/

/-- The launch a packet asks for, or the status that refuses it (R27). -/
def launchOf (s : State) (p : Pkt) (kdesc argp : BitVec 64) (teams prio : Nat) : Except Nat Grid :=
  let key := freeKey s.draws 29 0
  match Map.find s.ctxs p.ctx with
  | none => .error 0x0F
  | some c =>
    match readDesc s p.ctx kdesc.toNat key with
    | .error e => .error e
    | .ok d =>
      match nodeTable s c p.ctx d key with
      | none => .error 0x0C
      | some nodes =>
        if teams == 0 && nodes.any (fun n => n.kind != 0) then .error 0x05
        else
          match readMap s c p.ctx d key with
          | none => .error 0x0D
          | some map =>
            let r : Grid :=
              { ctx := p.ctx, dev := devOfQueue c.mode p.q, pkt := p, ntab := d.ntab, desc := d, nodes := nodes, map := map, argp := argp,
                teams := teams, prio := prio, age := s.ages, starv := 0, promoted := false, next := 0, retired := 0, shares := [], cond := 0,
                orph := [], hcode := none, bars := [] }
            if !quotaFits c d then .error 0x0E
            else if teams != 0 && !(map.any (fun k => dieOnDev c.mode r.dev (dieOf k))) then .error 0x0F
            else if d.whole && !coresident s s.ids r then .error 0x0F
            else .ok r

/-- The retirement record of a launch (R403). -/
def retireBits (r : Grid) (xst : Nat) : Nat :=
  let tok := (r.orph.head?).map (·.token)
  let e := (r.orph.head?).bind (·.entry)
  xst + r.cond.toNat * 2 ^ 8 + (r.hcode.getD 0) * 2 ^ 72 + ((tok.map (·.toNat)).getD 0) * 2 ^ 96
    + ((e.map (fun e => e.akind.code * 2 ^ 64 + e.detail.code * 2 ^ 80 + e.pc.toNat * 2 ^ 128 + e.addr.toNat * 2 ^ 192)).getD 0)

/-- At a launch's start the instruction caches of its device are invalidated for its context (R89). -/
def dropCode (s : State) (ctx dev : Nat) : State :=
  let mode := ((Map.find s.ctxs ctx).map (·.mode)).getD 1
  { s with cores := s.cores.map (fun (e : Nat × Core) =>
      if dieOnDev mode dev (dieOf e.1) then (e.1, { e.2 with icache := e.2.icache.filter (fun c => c.1 / 2 ^ 90 != ctx) }) else e) }

/-- LAUNCH (R42, R44). -/
def execLaunch (p : Pkt) (kdesc argp : BitVec 64) (teams : BitVec 21) (prio : BitVec 2) (s : State) : Out :=
  startPkt p false (fun s =>
    let mode := ((Map.find s.ctxs p.ctx).map (·.mode)).getD 1
    let s := dropCode { s with draws := s.draws + 1 } p.ctx (devOfQueue mode p.q)
    if 2 ^ 20 < teams.toNat then finishLaunch s p 0x13
    else
      match launchOf s p kdesc argp teams.toNat prio.toNat with
      | .error e => finishLaunch s p e
      | .ok r =>
        if teams == 0 && r.nodes.isEmpty then finishLaunch { s with ages := s.ages + 1 } p 0
        else
          let n := s.ids
          let s := startBody { s with ids := n + 1, ages := s.ages + 1, grids := Map.put s.grids n r } p (.launch n)
          dueNow s (.dispatchPass (s.partOf n))) s

/-! ### Ends (R295, R400 to R402) -/

/-- Whether a `SPAWN` is in flight to a node (R295). -/
def spawnInFlight (s : State) (grid node : Nat) : Bool :=
  s.groups.any (fun e => gridNo s e.2 == grid && (e.2.path pathWrk).ops.any (fun o => !o.done && (match o.kind with
    | .spawn recs last => recs.any (fun r => r.2.1 == node) || last.contains node
    | _ => false)))

/-- Whether a record handed out by a node awaits writing (R295). -/
def awaitsWriting (s : State) (grid node : Nat) : Bool :=
  s.groups.any (fun e => gridNo s e.2 == grid && (e.2.path pathWrk).ops.any (fun o => !o.done && (match o.kind with
    | .getwork n _ _ _ (some (recs, _, _)) => n == node && !recs.isEmpty
    | _ => false)))

/-- The condition of a node's end token (R295). -/
def nodeOver (s : State) (grid node : Nat) (d : Node) : Bool :=
  if d.kind == 2 then d.available == 0 && !awaitsWriting s grid node
  else
    d.nprod ≤ d.produced && d.bin.isEmpty && !spawnInFlight s grid node
      && (if d.kind == 0 then !s.teams.any (fun e => e.2.grid == grid && e.2.node == some node && s.teamLive e.2) else !awaitsWriting s grid node)

/-- NODE_END_TOKEN (R295): every pending `GETWORK` is answered with END. -/
def endToken (s : State) (grid node : Nat) : State :=
  match s.node grid node with
  | none => s
  | some d =>
    if d.ended || !nodeOver s grid node d then s
    else
      let s := s.updNode grid node (fun d => { d with ended := true, waiting := [] })
      d.waiting.foldl (fun s w => answer s w.1 w.2 ([], 1, d.handed)) s

def execNodeEndToken (grid node : Nat) (s : State) : Out := onDevice s (fun s => endToken s grid node)

/-- Whether a team may retire (R400); one that a die fence has ended waits until the fence completes. -/
def teamOver (s : State) (t : Team) : Bool :=
  t.resident && !t.lost && t.groups.all (fun g =>
    let x := s.grp g
    x.ended && x.egress.isEmpty && x.paths.all (fun p => p.2.ops.all (fun o => o.done)))

/-- A context that has ended is gone once its last team has retired (R52, R400); what it left dirty in L2 is evicted. -/
def dropCtx (s : State) (ctx : Nat) : State :=
  if ((Map.find s.ctxs ctx).map (·.isOver)).getD false && !s.teams.any (fun e => e.2.ctx == ctx) then
    let s := (s.writeBackCtx ctx).dropClean ctx
    { s with ctxs := Map.del s.ctxs ctx }
  else s

/-- TEAM_RETIRE (R57, R400): its scratchpad, barriers and groups are freed; an idle core's L1 size is unset. -/
def retireTeam (s : State) (t : Nat) : State :=
  match Map.find s.teams t with
  | none => s
  | some x =>
    if !teamOver s x then s
    else
      let pid := s.partOfCtx x.ctx
      let aps := if x.node.isSome then [] else x.groups.map (fun g => (16 * x.vteam + (s.grp g).idx, (s.grp g).ap))
      let s := { s with teams := Map.del s.teams t, groups := s.groups.filter (fun e => e.2.team != t) }
      let s := s.updCore x.core (fun c => if (s.teamsOn x.core).isEmpty then { c with l := none, l1 := [] } else c)
      let s := s.updGrid x.grid (fun r => { r with retired := r.retired + 1, gone := r.gone ++ aps })
      let s := match x.tuple with
        | some k => if s.teams.any (fun e => e.2.tuple == some k) then s else { s with tuples := Map.del s.tuples k }
        | none => s
      dueNow (dropCtx (sweepViews (sweepLost s)) x.ctx) (.dispatchPass pid)

def execTeamRetire (t : Nat) (s : State) : Out := onDevice s (fun s => retireTeam s t)

/-- XSTAT from the conditions met (R402). -/
def xstatOf (c : BitVec 5) : Nat := ((List.range 5).map (fun i => if c.getLsbD (4 - i) then 5 - i else 0)).foldl (fun a x => if a == 0 then x else a) 0

/-- Whether a grid may retire (R44, R401). -/
def gridOver (s : State) (grid : Nat) (r : Grid) : Bool :=
  r.teams ≤ r.next && !s.teams.any (fun e => e.2.grid == grid) && r.nodes.all (·.ended)

/-- GRID_RETIRE (R45, R401 to R403). -/
def retireGrid (s : State) (grid : Nat) : State :=
  match Map.find s.grids grid with
  | none => s
  | some r =>
    if !gridOver s grid r then s
    else
      let xst := xstatOf r.cond
      let s := { s with grids := Map.del s.grids grid }
      finishPkt (keepRecord s r.pkt (retireBits r xst)) r.pkt 0 xst r.retired

def execGridRetire (grid : Nat) (s : State) : Out := onDevice s (fun s => retireGrid s grid)

end Sys2Proof.Machine
end

