-- ==== Sys2Proof/Machine/Ends.lean ====
section
/-! DEFINITION. The end of a context (R52), replies to the host, and the answer of the replay service (R245, R246). -/
namespace Sys2Proof.Machine

/-! ### Replies -/

/-- A reply through the management mailbox of a function (R403). -/
def reply (s : State) (fn : Nat) (words : List (BitVec 64)) : State := { s with outbox := s.outbox ++ [⟨fn, 4, words⟩] }

/-- A command carried out: status 0, as a slot write answers it (R398). -/
def replyOk (s : State) (fn : Nat) : State := reply s fn [0]

/-- A refused command with the status the spec gives. -/
def refuse (s : State) (fn st : Nat) : State := reply s fn [BitVec.ofNat 64 st]

/-- A refused command whose status the spec does not give: it is free. -/
def refuseFree (s : State) (fn : Nat) : State :=
  let s := { s with draws := s.draws + 1 }
  refuse s fn (Config.freeNat (freeKey s.draws 31 0))

/-- Read data to a host (R49, R261). -/
def answerHost (s : State) (fn : Nat) (words : List (BitVec 64)) : State := { s with outbox := s.outbox ++ [⟨fn, 3, words⟩] }

/-- `n` 64-bit words of a number, lowest first. -/
def words64 (n v : Nat) : List (BitVec 64) := (List.range n).map (fun k => BitVec.ofNat 64 (bits v (64 * k) 64))

/-! ### Functions and ports (R32, R33) -/

/-- The port of a function: 0 and 1 are the physical functions, 2 to 33 the virtual ones (R32). -/
def State.portOf (s : State) (fn : Nat) : Option Nat :=
  if fn < 2 then some fn
  else if fn < 34 && s.vfs.getLsbD (2 * (fn - 2)) then some (ofBool (s.vfs.getLsbD (2 * (fn - 2) + 1)))
  else none

/-- A host's request through a function arrives: the package runs and the port is up (R14, R32, R398). -/
def State.reached (s : State) (fn : Nat) : Bool :=
  s.phase == 0 && (match s.portOf fn with
    | some p => !Map.get false s.pcieDown p
    | none => false)

/-- The context a host's request reaches. Of a function that holds no live context the spec gives its windows no answer (log entry 59). -/
def State.hostCtx (s : State) (c : Nat) : Option Ctx :=
  match Map.find s.ctxs c with
  | some x => if !x.isOver && s.reached x.fn then some x else none
  | none => none

/-- A host's request to a context; one that does not arrive, or finds no live context, changes nothing and is not answered (DESIGN CHOICE for
the windows of a function without one, log entry 59). -/
def atHost (c : Nat) (f : Ctx → State → State) (s : State) : State :=
  match s.hostCtx c with
  | some x => f x s
  | none => s

def onHost (c : Nat) (f : Ctx → State → State) (s : State) : Out := onDevice s (atHost c f)

/-- A command through the mailbox of a function. -/
def onMailbox (fn : Nat) (f : State → State) (s : State) : Out := onDevice s (fun s => if s.reached fn then f s else s)

/-! ### The end of a context (R52) -/

/-- What a started packet has done when its context ends (R41). -/
def Body.doneSoFar (b : Body) (s : State) : Nat :=
  match b with
  | .launch n => ((Map.find s.grids n).map (·.retired)).getD 0
  | .feed _ _ _ _ _ d => d
  | .copy _ _ _ d _ => d
  | _ => 0

/-- A started packet completes with CONTEXT_ENDED (R52, R402). -/
def endPacket (s : State) (e : Started) : State :=
  let s := match e.body with
    | .launch n => match Map.find s.grids n with
      | some r => keepRecord s e.pkt (retireBits r 0)
      | none => s
    | _ => s
  finishPkt s e.pkt 0x1B 0 (e.body.doneSoFar s)

/-- The images of a context's saved teams are discarded (R393). -/
def discardImages (s : State) (c : Nat) : State :=
  let ts := (s.teams.filter (fun e => e.2.ctx == c && !e.2.resident)).map (·.1)
  { s with teams := s.teams.filter (fun e => !ts.contains e.1), groups := s.groups.filter (fun e => !ts.contains e.2.team) }

/-- The context ends (R52): its started packets complete with CONTEXT_ENDED, its queues stop and are disabled, its groups end, and
its inbound windows are cleared (R358). Its number is free again once its teams have retired. -/
def endContext (s : State) (c : Nat) : State :=
  match Map.find s.ctxs c with
  | none => s
  | some x =>
    if x.isOver then s
    else
      let s := ((x.queues.flatMap (fun q => q.2.started))).foldl endPacket s
      let s := ((s.groups.filter (fun e => e.2.ctx == c)).map (·.1)).foldl (fun s g => endGroup s g none) s
      let s := discardImages s c
      let s := s.updCtx c (fun x => { x with
        isOver := true, abandon := false, graceDue := none, devs := [],
        queues := x.queues.map (fun q => (q.1, { q.2 with en := false, stopped := true, started := [] })) })
      let s := { s with
        grids := s.grids.filter (fun e => e.2.ctx != c)
        windows := s.windows.filter (fun e => e.2.ctx != c)
        reclaims := s.reclaims.filter (fun r => r.ctx != c)
        coach := s.coach.filter (fun k => k / 64 != c) }
      dropCtx (sweepViews (sweepLost s)) c

/-! ### The replay service (R245, R246) -/

/-- The slot that holds a parked split. -/
def Group.parkedSlot (x : Group) : Option Nat :=
  let p : Option Split → Bool := fun sp => (sp.map (fun y => y.wait == some Wait.parked)).getD false
  if p x.s0 then some 0 else if p x.s1 then some 1 else none

/-- The side-table entries that the region's flagged tokens name, in the core's table or in the group's image. -/
def flaggedEntries (s : State) (x : Group) : List SideEntry :=
  x.region.toks.eraseDups.filterMap (fun t =>
    [Map.find (s.coreOf x.core).side (tokIndex t), Map.find x.savedSide (tokIndex t)].findSome? (fun e => e.bind (fun e => if e.token == t then some e else none)))

/-- A sector whose clean copy some region's L2 holds with an error is invalidated in every region's L2 (R245, R405). -/
def cleanBad (s : State) (sec : Nat) : State := if s.l2bad.any (fun b => b.1 / 8 == sec) then s.l2Clean sec else s

/-- The Coachhouse invalidates the sector that an entry's access met: one of the page tables on its way, or the one that its address names, in
the view of the group's team (R245, R339, R405). -/
def refetch (s : State) (x : Group) (e : SideEntry) : State :=
  let at_ := fun (s : State) (p : Place) => match p with
    | .dev k => cleanBad s (s.seenAs (s.viewOf x) (k / 32))
    | .host q a => cleanBad s (hostSec (hostKey q a / 32))
    | _ => s
  if e.detail != .l2Clean then s
  else
    match e.akind, s.ctxOf x with
    | .phys, _ => at_ s (.dev e.addr.toNat)
    | .virt, some c =>
      let s := (walkSectors s c e.addr.toNat).foldl cleanBad s
      (match translate s c .read e.addr.toNat 0 with
        | .ok t => at_ s t.place
        | .error _ => s)
    | _, _ => s

/-- An entry whose link cannot come back: the die is fenced or the peer is dead (R245). -/
def hopeless (s : State) (x : Group) (e : SideEntry) : Bool :=
  e.token.toNat / 2 ^ 24 == Cause.code .linkTimeout
    && (if e.akind == .peer then Map.get 0 s.peers (e.addr.toNat % 4096) == 3 else (s.dieAt (dieOf x.core)).fenced)

/-- The parked split replays from START with the lanes PM (R245). -/
def replay (s : State) (g slot : Nat) : State :=
  let s := freshDistances (s.updGrp g Group.settle) g
  let x := s.grp g
  let r := x.region
  let s := s.bumpPerf x 10 1
  let s := s.updGrp g (fun x => { x with
    asked := false
    service := none
    region := { r with replays := r.replays + 1, flag := false, pm := 0, nqtok := none, first := 0, toks := [], allrpl := true } })
  s.updSpl g slot (fun sp =>
    { sp with pc := r.start.1, hdr := r.start.2, mask := r.pm &&& x.live, clause := none, wait := none, wph := false, deadline := none,
              expired := false, again := false, idle := s.time })

/-- The answer takes effect: a replay, or the recovery (R245). -/
def actOnAnswer (s : State) (g slot : Nat) (done : Bool) : State :=
  if done then replay s g slot else (recover s g slot).updGrp g (fun x => { x with asked := false, service := none })

/-- The answer reaches a parked group; one that is saved keeps it until it is restored (R245, R246). -/
def serviceAnswer (s : State) (g : Nat) (done : Bool) : State :=
  let x := s.grp g
  match x.parkedSlot with
  | none => s
  | some slot =>
    if !x.asked || x.service.isSome then s
    else
      let es := flaggedEntries s x
      let ok := done && !es.any (hopeless s x)
      let s := if ok then es.foldl (fun s e => refetch s x e) s else s
      if x.resident then actOnAnswer s g slot ok else s.updGrp g (fun x => { x with service := some ok })

/-- REPLAY_SERVICE_ANSWER (R245). -/
def execReplayServiceAnswer (g : Nat) (done : Bool) (s : State) : Out := onDevice s (fun s => serviceAnswer s g done)

/-- The fault limit has passed without an answer, which counts as declined (R245). -/
def limitExpired (s : State) (g : Nat) : State :=
  let x := s.grp g
  match x.parkedSlot.bind x.split with
  | some sp => if (sp.deadline.map (fun d => decide (d ≤ s.time))).getD false then serviceAnswer s g false else s
  | none => s

/-- FAULT_LIMIT_EXPIRY (R245). -/
def execFaultLimitExpiry (g : Nat) (s : State) : Out := onDevice s (fun s => limitExpired s g)

/-! ### Abandonment (R386) -/

/-- An abandon request of a context (R386): the grace time begins. -/
def abandonCtx (s : State) (c : Nat) : State :=
  match Map.find s.ctxs c with
  | none => s
  | some x =>
    if x.abandon || x.isOver then s
    else
      let due := s.time + x.graceUs * 21000
      let s := s.updCtx c (fun x => { x with abandon := true, graceDue := some due })
      { s with agenda := insertDue s.agenda ⟨due, .event (.abandonGraceExpiry c)⟩ }

/-- ABANDON_REQUEST by the host driver (R386). -/
def execAbandonRequest (c : Nat) (s : State) : Out := onHost c (fun _ s => abandonCtx s c) s

/-- What is still live of the context after its grace time is ended (R386). -/
def graceOver (s : State) (c : Nat) : State :=
  match (Map.find s.ctxs c).bind (·.graceDue) with
  | some due => if due ≤ s.time then endContext s c else s
  | none => s

/-- ABANDON_GRACE_EXPIRY (R386). -/
def execAbandonGraceExpiry (c : Nat) (s : State) : Out := onDevice s (fun s => graceOver s c)

end Sys2Proof.Machine
end

