-- ==== Sys2Proof/Machine/Host.lean ====
section
/-! DEFINITION. What a host does to the package: queue registers and doorbells (R35 to R38), signal windows (R48, R49), mailbox
commands (R15, R33, R53 to R55, R355 to R360, R403, R404), its memory aperture (R261), and the Coachhouse that reads the queues
(R50). -/
namespace Sys2Proof.Machine

/-! ### Queue registers (R35, R36, R38) -/

/-- A register write of queue `q` of a context (R35); queues are numbered 0 to 63. -/
def onQueue (c q : Nat) (f : Ctx → Queue → Queue) (s : State) : Out :=
  onHost c (fun x s => if 64 ≤ q then s else wakeQueue (s.updQueue c q (f x)) c q) s

/-- A DOORBELL value (R36). The last value accepted is the last that raised W. -/
def Queue.ring (q : Queue) (v : BitVec 32) : Queue :=
  if !q.en then q
  else if q.size < (v - q.rdidx).toNat then q.stop true 0x1A q.rdidx
  else if (q.w - q.rdidx).toNat < (v - q.rdidx).toNat then { q with w := v, lastDb := v }
  else q

/-- DOORBELL (R36): bits 63:32 are ignored. -/
def execDoorbell (c q : Nat) (v : BitVec 64) (s : State) : Out := onQueue c q (fun _ x => x.ring (v.setWidth 32)) s

/-- A stopped queue runs again. Started packets are not started a second time, so that starting goes on at RDIDX (R38). -/
def Queue.resume (q : Queue) : Queue := if q.stopped then { q with stopped := false } else q

/-- QCTL = 1 (R38). -/
def execQctlResume (c q : Nat) (s : State) : Out := onQueue c q (fun _ x => x.resume) s

/-- RDIDX and W return to the last accepted value, and the queue runs if it is enabled (R38). -/
def Queue.restart (q : Queue) : Queue := { q.pass q.lastDb with w := q.lastDb, stopped := if q.en then false else q.stopped }

/-- QCTL = 2 (R38). -/
def execQctlReset (c q : Nat) (s : State) : Out := onQueue c q (fun _ x => x.restart) s

/-- A QCFG write to a queue that the device mode gives, or does not give, the context (R35, R36). DESIGN CHOICE: an address with a nonzero
bit 63:57 counts as misaligned (log entry 59). -/
def Queue.configure (q : Queue) (given : Bool) (v : BitVec 64) : Queue :=
  let en := v.getLsbD 0
  if q.en then (if en then q else { q with en := false })
  else
    let q := { q with logsz := bits v.toNat 8 4 }
    if en && given && 4 ≤ q.logsz && q.logsz ≤ 15 && addrOk q.qbase 64 && addrOk q.cplbase 16 then
      { q with en := true, w := 0, rdidx := 0, lastDb := 0, stopped := false, epoch := q.epoch + 1 }
    else q

/-- QCFG (R35). -/
def execQcfgWrite (c q : Nat) (v : BitVec 64) (s : State) : Out :=
  onQueue c q (fun x y => y.configure (queueExists s.dz860 x.mode q) v) s

/-- A write at an offset of a queue's block (R35): read-only and reserved registers ignore it. -/
def Queue.writeAt (q : Queue) (given : Bool) (off : Nat) (v : BitVec 64) : Queue :=
  match off with
  | 0x00 => if q.en then q else { q with qbase := v }
  | 0x08 => q.configure given v
  | 0x10 => if q.en then q else { q with cplbase := v }
  | 0x18 => q.ring (v.setWidth 32)
  | 0x30 => if v == 1 then q.resume else if v == 2 then q.restart else q
  | _ => q

/-- REGISTER_WRITE (R35). -/
def execRegisterWrite (c q off : Nat) (v : BitVec 64) (s : State) : Out :=
  onQueue c q (fun x y => y.writeAt (queueExists s.dz860 x.mode q) off v) s

/-- QSTAT (R35): STATE is 0 disabled, 1 running or 2 stopped; LASTST and STOPIDX stand from the last stop. -/
def Queue.status (q : Queue) : BitVec 64 :=
  BitVec.ofNat 64 (q.stopidx.toNat * 2 ^ 32 + q.lastst % 256 * 2 ^ 8 + (if !q.en then 0 else if q.stopped then 2 else 1))

/-- A read at an offset of a queue's block (R35): reserved registers and bits read as zero (R5). So do the write-only DOORBELL and QCTL, of which
the spec states no read (DESIGN CHOICE, log entry 59). -/
def Queue.readAt (q : Queue) (off : Nat) : BitVec 64 :=
  match off with
  | 0x00 => q.qbase
  | 0x08 => BitVec.ofNat 64 (q.logsz % 16 * 2 ^ 8 + ofBool q.en)
  | 0x10 => q.cplbase
  | 0x20 => q.rdidx.setWidth 64
  | 0x28 => q.status
  | _ => 0

/-- The port of a function is up. -/
def State.fnUp (s : State) (fn : Nat) : Bool :=
  match s.portOf fn with
  | some p => !Map.get false s.pcieDown p
  | none => false

/-- A host's read of `size` bytes of an aperture. In recovery every bit reads one, and `c`, as no context is left, stands for the function that
it comes through (R398). -/
def readHost (c size : Nat) (f : Ctx → State → State) (s : State) : State :=
  if s.phase != 2 then atHost c f s
  else if s.fnUp c then answerHost s c (0 :: words64 ((size + 7) / 8) (2 ^ (8 * size) - 1)) else s

def onHostRead (c size : Nat) (f : Ctx → State → State) (s : State) : Out := onDevice s (readHost c size f)

/-- A host reads a register of a queue's block (R35). -/
def registerRead (c q off : Nat) (s : State) : State :=
  readHost c 8 (fun x s => answerHost s x.fn [0, if 64 ≤ q then 0 else (s.queueOf c q).readAt off]) s

/-! ### Signal windows (R48, R49) -/

/-- A host acquire (R49): the value as it stands, answered after the write-back of the context's dirty host lines. -/
def signalAcquire (c n : Nat) (x : Ctx) (s : State) : State :=
  if n == 0 || x.nsig < n then answerHost s x.fn [0, 0]
  else
    let v := s.sigVal c n
    answerHost (s.writeBackCtx c) x.fn [0, v]

/-- SIGNAL_WINDOW_ACQUIRE (R48, R49). -/
def execSignalWindowAcquire (c n : Nat) (s : State) : Out := onHostRead c 8 (signalAcquire c n) s

/-- SIGNAL_WINDOW_WRITE (R48). -/
def execSignalWindowWrite (c n : Nat) (v : BitVec 64) (s : State) : Out :=
  onHost c (fun x s => if n == 0 || x.nsig < n then s else signalOp s c n false v) s

/-- A host's read of `size` bytes at an offset of the signal window (R48): a 64-bit read at +0 is an acquire, one at +8 answers the value; every
other reads as zero. -/
def signalRead (c off size : Nat) (s : State) : State :=
  readHost c size (fun x s =>
    let n := off / 16
    if size != 8 || n == 0 || x.nsig < n then answerHost s x.fn [0, 0]
    else if off % 16 == 0 then signalAcquire c n x s
    else if off % 16 == 8 then answerHost s x.fn [0, s.sigVal c n]
    else answerHost s x.fn [0, 0]) s

/-- A host's write of `size` bytes at an offset of the signal window (R48): a 64-bit write at +8 sets the value; every other is ignored. -/
def signalStore (c off size : Nat) (v : BitVec 64) (s : State) : State :=
  atHost c (fun x s => if size != 8 || off % 16 != 8 || off / 16 == 0 || x.nsig < off / 16 then s else signalOp s c (off / 16) false v) s

/-! ### The Coachhouse (R37, R39, R40, R42, R44, R50) -/

/-- The header of a packet (R39). -/
def pktHdr (b : Nat) : PktHdr :=
  ⟨BitVec.ofNat 64 (bits b 64 64), BitVec.ofNat 32 (bits b 32 32), BitVec.ofNat 16 (bits b 16 16), BitVec.ofNat 2 (bits b 10 2), bit b 8,
    BitVec.ofNat 8 b⟩

/-- A field of a packet's body. -/
def fld (b lo n : Nat) : BitVec n := BitVec.ofNat n (bits b lo n)

/-- What a packet's 512 bits ask for, or the status that refuses it (R39, R40, R42). -/
def packetOf (p : Pkt) (b : Nat) : Except Nat Instr :=
  let rsv := bits b 12 4 != 0 || bit b 9
  let go := fun (bad : Bool) (i : Instr) => if rsv || bad then Except.error 0x11 else Except.ok i
  match p.hdr.typ.toNat with
  | 1 => go (bits b 277 3 != 0 || bits b 282 230 != 0) (.launch p (fld b 128 64) (fld b 192 64) (fld b 256 21) (fld b 280 2))
  | 2 => go (bits b 305 207 != 0) (.nodeFeed p (fld b 128 64) (fld b 192 64) (fld b 256 32) (fld b 288 16) (bit b 304))
  | 3 => go (bits b 210 302 != 0) (.signalSet p (fld b 128 64) (fld b 192 16) (fld b 208 2))
  | 4 => go (bits b 211 13 != 0 || bits b 256 256 != 0) (.signalWait p (fld b 128 64) (fld b 192 16) (fld b 208 3) (fld b 224 32))
  | 5 => go (bits b 296 216 != 0) (.copy p (fld b 128 64) (fld b 192 64) (fld b 256 40))
  | 6 =>
    go (bits b 131 29 != 0 || bits b 192 320 != 0 || 2 ≤ bits b 128 2)
      (if bits b 128 2 == 0 then .preemptSave p (bit b 130) (fld b 160 32) else .preemptRestore p)
  | 7 => go (bits b 128 384 != 0) (.nopPacket p)
  | _ => .error 0x10

/-- A packet refused as it is read: it starts and completes (R42, R43). -/
def refusePkt (s : State) (p : Pkt) (st : Nat) : State :=
  refuseStart (s.updQueue p.ctx p.q (fun q => q.pass (pktNo p + 1))) p st

/-- A wait of a queue that its signal satisfies. -/
def waitHolds (s : State) (c : Nat) (e : Started) : Bool :=
  match e.body with
  | .wait cmpv sig cond _ => signalCond cond (s.sigVal c sig) cmpv
  | _ => false

/-- The queues with a satisfied wait: its satisfaction is an event (R50). -/
def satisfiedQueues (s : State) : List (Nat × Nat) :=
  s.ctxs.flatMap (fun c => (c.2.queues.filter (fun q => q.2.started.any (waitHolds s c.1))).map (fun q => (c.1, q.1)))

/-- The satisfied waits of a queue complete (R44, R45). -/
def completeWaits (s : State) (c q : Nat) : State :=
  (s.queueOf c q).started.foldl (fun s e =>
    match e.body with
    | .wait cmpv sig cond _ => tryWait s e.pkt cmpv sig cond
    | _ => s) s

/-- Whether a queue may start its next packet, but for ORD (R36, R44). -/
def Queue.mayStart (q : Queue) : Bool :=
  q.en && !q.stopped && q.rdidx != q.w && !q.started.any (fun e => match e.body with | .wait .. => true | _ => false)

/-- The next packet of a queue as it is read (R37); the bits of one that cannot be read are free. -/
def readPacket (s : State) (c : Nat) (x : Queue) : Nat :=
  let key := freeKey s.draws 32 0
  match agentRead s c ((x.qbase.toNat + 64 * (x.rdidx.toNat % x.size)) % 2 ^ 64) 64 key with
  | .val b => b
  | _ => Config.freeNat (key + 1) % 2 ^ 512

/-- The next packet of a queue starts, if it may (R44): it is refused, or it is the next happening. -/
def startNext (s : State) (c q : Nat) : State :=
  let x := s.queueOf c q
  if !x.mayStart then s
  else
    let s := { s with draws := s.draws + 1 }
    let b := readPacket s c x
    let p : Pkt := ⟨c, q, x.epoch * 2 ^ 32 + x.rdidx.toNat, pktHdr b⟩
    if p.hdr.ord && !x.started.isEmpty then s
    else
      match packetOf p b with
      | .error st => refusePkt s p st
      | .ok i => { s with agenda := ⟨s.time, .event i⟩ :: s.agenda }

/-- A Coachhouse core ends its work on an entry of the event queue. Up to 12 cores have taken the oldest entries and work in parallel: which of
them ends first is free (R50; log entry 63). -/
def coachStep (s : State) : State :=
  let n := Config.freeNat (freeKey s.draws 44 0) % min 12 s.coach.length
  match s.coach[n]? with
  | none => s
  | some k =>
    let s := completeWaits { s with coach := s.coach.eraseIdx n, draws := s.draws + 1 } (k / 64) (k % 64)
    startNext s (k / 64) (k % 64)

/-- COACHHOUSE_EVENT (R50). -/
def execCoachhouseEvent (s : State) : Out :=
  onDevice s (fun s => coachStep ((satisfiedQueues s).foldl (fun s e => wakeQueue s e.1 e.2) s))

/-! ### Contexts (R33) -/

/-- The parameters that creation fixes lie in their ranges (R33, R34, R185, R245, R283, R286, R386, R391). -/
def CtxRecOk (r : CtxRec) : Bool :=
  (r.mode == 1 || r.mode == 2 || r.mode == 8) && 1024 ≤ r.nsig && r.nsig ≤ 65535 && r.rootlog ≤ 19 && r.ptroot.toNat < 2 ^ 54
    && r.ptroot.toNat % (max (8 * 2 ^ r.rootlog) 4096) == 0 && 20 ≤ r.bwlog && r.bwlog ≤ 40 && 20 ≤ r.cwlog && r.cwlog ≤ 40
    && 10 ≤ r.graceUs && r.graceUs ≤ 1000000 && 1000 ≤ r.faultUs && r.faultUs ≤ 10000000 && addrOk r.diagBase 64 && 64 ≤ r.diagLen
    && addrOk r.alogBase 16 && 64 ≤ r.alogLen && addrOk r.saveBase 4096

/-- A context as it is created: its signals, counters and masks read zero (R47, R55, R404). -/
def newCtx (r : CtxRec) (port : Nat) : Ctx :=
  { fn := r.fn, port := port, part := r.pid, mode := r.mode, nsig := r.nsig, memRestore := r.memRestore, stchk := r.stchk,
    ptroot := r.ptroot.toNat, rootlog := r.rootlog, hostAtomics := r.hostAtomics, ftid := r.ftid.toNat, bwlog := r.bwlog,
    cwlog := r.cwlog, graceUs := r.graceUs, faultUs := r.faultUs, diagBase := r.diagBase.toNat, diagLen := r.diagLen,
    alogBase := r.alogBase.toNat, alogLen := r.alogLen, saveBase := r.saveBase.toNat, saveLen := r.saveLen, reach := 0, gmask := 0,
    isOver := false, abandon := false, graceDue := none, quota := 0, signals := [], queues := [], devs := [], alog := [], perf := [] }

/-- Creation (R33): one context to a function, 32 to the package, in a partition of the function's port; the context takes the
lowest free number. -/
def createCtx (r : CtxRec) (s : State) : State :=
  match s.portOf r.fn, (List.range 32).find? (fun c => !Map.has s.ctxs c) with
  | some port, some c =>
    if s.ctxs.any (fun e => e.2.fn == r.fn) || (Map.find s.parts r.pid).map (·.port) != some port || !CtxRecOk r then refuseFree s r.fn
    else replyOk { s with ctxs := Map.put s.ctxs c (newCtx r port), records := s.records.filter (fun e => e.1 / 64 != r.fn) } r.fn
  | _, _ => refuseFree s r.fn

/-- CONTEXT_CREATE (R33). -/
def execContextCreate (r : CtxRec) (s : State) : Out := onMailbox r.fn (createCtx r) s

/-! ### Partitions and quotas (R53 to R55) -/

/-- Whether a socket carries an enabled compute die (R11). -/
def dieEnabled (dz860 : Bool) (d : Nat) : Bool := d < 8 && !(dz860 && d == 7)

/-- Statuses 0x21 to 0x23 of a partition record; clusters of partition `own` count as free (R53, R54). -/
def partCheck (s : State) (r : BitVec 256) (own : Option Nat) : Nat :=
  let m : BitVec 128 := r.setWidth 128
  if m == 0 then 0x21
  else if (s.parts.any (fun p => some p.1 != own && p.2.clusters &&& m != 0))
      || (List.range 8).any (fun d => !dieEnabled s.dz860 d && bits m.toNat (16 * d) 16 != 0) then 0x22
  else if bits r.toNat 134 122 != 0 then 0x23
  else 0

def recPid (r : BitVec 256) : Nat := bits r.toNat 128 6

/-- Creation of a partition, which belongs to the port (R53). -/
def createPart (port : Nat) (r : BitVec 256) (s : State) : State :=
  if Map.has s.parts (recPid r) then refuse s port 0x20
  else
    match partCheck s r none with
    | 0 => replyOk { s with parts := Map.put s.parts (recPid r) ⟨port, r.setWidth 128⟩ } port
    | st => refuse s port st

/-- PARTITION_CREATE (R53). -/
def execPartitionCreate (port : Nat) (r : BitVec 256) (s : State) : Out := onMailbox (port % 2) (createPart (port % 2) r) s

/-- Why a partition cannot be rewritten or deleted through a port: its PID is not in use there, or a context is bound to it (R54). DESIGN
CHOICE: a partition that belongs to the other port counts as not in use (log entry 60). -/
def partBusy (s : State) (port pid : Nat) : Nat :=
  if (Map.find s.parts pid).map (·.port) != some port then 0x26
  else if s.ctxs.any (fun c => c.2.part == pid) then 0x25
  else 0

/-- The rewrite of a partition (R54). -/
def rewritePart (port : Nat) (r : BitVec 256) (s : State) : State :=
  match partBusy s port (recPid r), partCheck s r (some (recPid r)) with
  | 0, 0 => replyOk { s with parts := Map.put s.parts (recPid r) ⟨port, r.setWidth 128⟩ } port
  | 0, st => refuse s port st
  | st, _ => refuse s port st

/-- PARTITION_REWRITE (R54). -/
def execPartitionRewrite (port : Nat) (r : BitVec 256) (s : State) : Out := onMailbox (port % 2) (rewritePart (port % 2) r) s

/-- The deletion of a partition (R54). -/
def deletePart (port pid : Nat) (s : State) : State :=
  match partBusy s port pid with
  | 0 => replyOk { s with parts := Map.del s.parts pid } port
  | st => refuse s port st

/-- PARTITION_DELETE (R54). -/
def execPartitionDelete (port pid : Nat) (s : State) : Out := onMailbox (port % 2) (deletePart (port % 2) pid) s

/-- A quota record (R55): a dispatch pass follows (R58). -/
def writeQuota (c : Nat) (r : BitVec 128) (x : Ctx) (s : State) : State :=
  if !(limitOk (bits r.toNat 0 64) && limitOk (bits r.toNat 64 64)) then refuse s x.fn 0x23
  else dueNow (replyOk (s.updCtx c (fun y => { y with quota := r })) x.fn) (.dispatchPass x.part)

/-- QUOTA_WRITE (R55). -/
def execQuotaWrite (c : Nat) (r : BitVec 128) (s : State) : Out := onHost c (writeQuota c r) s

/-! ### Reads through the mailbox -/

/-- The cluster map of a die: a word for each physical cluster with its four cores, and one with the disabled cores (R15). DESIGN CHOICE: how
the report packs core numbers into words, and that a die number that names no enabled die is answered with status 0 and the words of an empty or
fused map (log entry 58). -/
def clusterWords (s : State) (die : Nat) : List (BitVec 64) :=
  let cs := (s.clusterMap[die]?).getD []
  let pack := fun (l : List Nat) => BitVec.ofNat 64 (l.foldr (fun c a => c + 256 * a) 0)
  cs.map pack ++ [pack ((List.range 68).filter (fun p => !cs.any (fun c => c.contains p)))]

/-- CLUSTER_MAP_READ (R15). -/
def execClusterMapRead (port die : Nat) (s : State) : Out := onMailbox (port % 2) (fun s => reply s (port % 2) (0 :: clusterWords s die)) s

/-- PEER_NUMBER_READ (R355). -/
def execPeerNumberRead (fn : Nat) (s : State) : Out := onMailbox fn (fun s => reply s fn [0, BitVec.ofNat 64 s.peerNo]) s

/-- REACH_MASK_SET (R357). -/
def execReachMaskSet (c : Nat) (m : BitVec 4096) (s : State) : Out :=
  onHost c (fun x s => replyOk (s.updCtx c (fun y => { y with reach := m })) x.fn) s

/-- GROUP_MASK_SET (R360). -/
def execGroupMaskSet (c : Nat) (m : BitVec 4096) (s : State) : Out :=
  onHost c (fun x s => replyOk (s.updCtx c (fun y => { y with gmask := m })) x.fn) s

/-- An inbound window entry (R358). -/
def windowOf (r : Nat) : Window :=
  ⟨bits r 64 64, bits r 48 16, bits r 30 18, bits r 4 5, bit r 2, bit r 1, bit r 0⟩

/-- The constraints on an entry, and that it names the context that writes it (R358). -/
def windowOk (s : State) (c w r : Nat) : Bool :=
  let x := windowOf r
  w < 4096 && bits r 9 21 == 0 && !bit r 3 && x.base % 4096 == 0 && x.base < 2 ^ 54 && x.len ≤ 131072 && x.ctx == c
    && (match Map.find s.windows w with
      | some y => !y.v || y.ctx == c
      | none => true)

/-- An entry written by the driver of its owning context (R358): every request admitted under the old entry has completed. -/
def writeWindow (c w : Nat) (r : BitVec 128) (x : Ctx) (s : State) : State :=
  if windowOk s c w r.toNat then replyOk { s with windows := Map.put s.windows w (windowOf r.toNat) } x.fn else refuseFree s x.fn

/-- INBOUND_WINDOW_WRITE (R358). -/
def execInboundWindowWrite (c w : Nat) (r : BitVec 128) (s : State) : Out := onHost c (writeWindow c w r) s

/-- RETIREMENT_RECORD_READ (R403): the records of a function stand after its context has ended. -/
def execRetirementRecordRead (fn q : Nat) (idx : BitVec 32) (s : State) : Out :=
  onMailbox fn (fun s =>
    match (Map.get [] s.records (64 * fn + q)).find? (fun r => r.idx == idx) with
    | some r => reply s fn (0 :: words64 4 r.bits.toNat)
    | none => refuse s fn 0x24) s

/-- A performance counter (R404). -/
def perfValue (x : Ctx) (core n : Nat) : BitVec 64 := BitVec.ofNat 64 (Map.get 0 x.perf (16 * core + n))

/-- PERF_COUNTER_READ (R404). -/
def execPerfCounterRead (c core n : Nat) (s : State) : Out :=
  onHost c (fun x s => if 14 ≤ n then refuseFree s x.fn else reply s x.fn [0, perfValue x core n]) s

/-- An entry of the view table (R334); entry 0 is the root, which is always live. -/
def viewBits (v : Nat) (x : Option View) : Nat :=
  match x with
  | none => if v == 0 then 2 ^ 58 else 0
  | some x =>
    x.area.toNat * 2 ^ 192 + x.alen * 2 ^ 160 + x.sect * 2 ^ 128 + x.win * 2 ^ 102 + ofBool x.dec * 2 ^ 101 + x.log.length * 2 ^ 94
      + x.rival * 2 ^ 91 + x.km1 * 2 ^ 88 + x.depth * 2 ^ 85 + x.ctx * 2 ^ 80 + x.parent * 2 ^ 70 + x.fam * 2 ^ 60 + x.state * 2 ^ 58

/-- VIEW_TABLE_READ (R334). -/
def execViewTableRead (fn v : Nat) (s : State) : Out :=
  onMailbox fn (fun s =>
    reply s fn (0 :: words64 4 (viewBits (v % 1024) (Map.find s.views (v % 1024))))) s

/-! ### The fabric manager (R357, R360) -/

/-- PEER_STATE_WRITE (R357); a stopped package takes none (R14). -/
def execPeerStateWrite (peer : Nat) (v : BitVec 2) (s : State) : Out :=
  onDevice s (fun s => if s.phase != 0 then s else { s with peers := Map.set 0 s.peers (peer % 4096) v.toNat })

/-- MULTICAST_TABLE_INSTALL in a leaf or a spine switch (R360). -/
def execMulticastTableInstall (spine : Bool) (sw gid : Nat) (r : BitVec 128) (s : State) : Out :=
  onDevice s (fun s =>
    let k := 4096 * (sw % 64) + gid % 4096
    if spine then { s with mcSpine := Map.set 0 s.mcSpine k r } else { s with mcLeaf := Map.set 0 s.mcLeaf k r })

/-! ### The memory aperture (R261) and the ports (R32) -/

/-- The device byte of a physical address of the aperture. -/
def apertureKey (s : State) (pa : Nat) : Option Nat := if pa < 2 ^ 54 then devKey s.stackCount pa else none

/-- A host load: the value, the token of a poisoned sector (R237), or a free value where no device memory lies. -/
def apertureLoad (s : State) (fn : Nat) (r : HostReq) : State :=
  match apertureKey s r.pa with
  | none => let s := { s with draws := s.draws + 1 }; answerHost s fn [0, BitVec.ofNat 64 (Config.freeNat (freeKey s.draws 34 0))]
  | some k =>
    match inRead s k r.size with
    | .val v => answerHost s fn (0 :: words64 ((r.size + 7) / 8) v)
    | .tok t => answerHost s fn [1, t.setWidth 64]
    | .new _ => s
    | .beside _ => s

/-- A host atomic: FetchAdd, Swap or CAS of 4 or 8 bytes at the Hitch (R218, R290), answered with the old value. -/
def apertureAtomic (s : State) (fn : Nat) (r : HostReq) : State :=
  match apertureKey s r.pa with
  | none => s
  | some k =>
    if !(r.aop == 0 || r.aop == 8 || r.aop == 9) || !(r.size == 4 || r.size == 8) || r.pa % r.size != 0 then s
    else
      match inAtomic s k r.size r.aop (r.data % 2 ^ (8 * r.size)) (r.data2 % 2 ^ (8 * r.size)) none with
      | (s, .val v) => answerHost s fn [0, BitVec.ofNat 64 v]
      | (s, .tok t) => answerHost s fn [1, t.setWidth 64]
      | (s, .new _) => s
      | (s, .beside _) => s

/-- A host access through its function's aperture performs in the root (R261); an access does not cross a 4 KiB block. -/
def aperture (r : HostReq) (x : Ctx) (s : State) : State :=
  let r := { r with size := min r.size (4096 - r.pa % 4096) }
  match r.kind with
  | 0 => apertureLoad s x.fn r
  | 1 => (match apertureKey s r.pa with
    | some k => inWrite s k r.size r.data none
    | none => s)
  | _ => apertureAtomic s x.fn r

/-- HOST_APERTURE_ACCESS (R261). -/
def execHostApertureAccess (c : Nat) (r : HostReq) (s : State) : Out :=
  if r.kind == 1 then onHost c (aperture r) s else onHostRead c r.size (aperture r) s

/-- PCIE_PORT_DOWN (R32): the functions behind the port are no longer reached. -/
def execPciePortDown (port : Nat) (s : State) : Out :=
  onDevice s (fun s => if port < 2 then { s with pcieDown := Map.put s.pcieDown port true } else s)

end Sys2Proof.Machine
end

