-- ==== Sys2Proof/Machine/Dies.lean ====
section
/-! DEFINITION. Compute dies and their links (R201, R202, R394), the package stop (R14), starts and recovery (R396 to R398). -/
namespace Sys2Proof.Machine

/-! ### Waking links (R201) -/

/-- The snoops held for a die are delivered: the writers that wait for them go on at their next try (log entry 40). -/
def deliverHeld (s : State) (d : Nat) : State := s.updDie d (fun x => { x with held := [] })

/-- A link that has carried no request for 20 µs sleeps (R201). -/
def sleepLink (s : State) (d : Nat) : State :=
  let x := s.dieAt d
  if x.fenced || x.asleep || s.time < x.lastReq + 420000 then s
  else s.updDie d (fun x => { x with asleep := true, waking := none, flush := false })

/-- LINK_SLEEP (R201). -/
def execLinkSleep (die : Nat) (s : State) : Out := onDevice s (fun s => sleepLink s die)

/-- A waking die's beacon: held snoops, then new traffic. A die marked for WAKE_FLUSH invalidates its whole L1 (R201). -/
def beacon (s : State) (d : Nat) : State :=
  let x := s.dieAt d
  if x.fenced || !x.asleep || x.waking.isNone then s
  else
    let s := (if x.flush then s.flushL1 d else s)
    (deliverHeld s d).updDie d (fun x => { x with asleep := false, waking := none, flush := false, lastReq := s.time })

/-- WAKE_BEACON (R201). -/
def execWakeBeacon (die : Nat) (s : State) : Out := onDevice s (fun s => beacon s die)

/-- No beacon 1.5 µs after the wake request: held snoops complete, and the die is marked for WAKE_FLUSH (R201). -/
def holdTimeout (s : State) (d : Nat) : State :=
  let x := s.dieAt d
  match x.waking with
  | none => s
  | some t =>
    if !x.asleep || x.flush || s.time < t + 31500 then s
    else
      let lines := (s.dieAt d).held.map (·.1)
      let s := (deliverHeld s d).updDie d (fun x => { x with flush := true })
      let s := { s with filters := s.filters.filter (fun e => !(e.1 % 8 == d && lines.any (fun l => superOf (2 * l) == e.1 / 8))) }
      { s with health := s.health ++ [(2, d)] }

/-- WAKE_HOLD_TIMEOUT (R201). -/
def execWakeHoldTimeout (die : Nat) (s : State) : Out := onDevice s (fun s => holdTimeout s die)

/-! ### Fencing (R254, R394, R395) -/

/-- Of the stores a fenced die's group has not seen performed, those the base had acknowledged form a prefix in program order: how
long it is the spec leaves open (R254). -/
def loseEgress (s : State) (g : Nat) : State :=
  let s := { s with draws := s.draws + 1 }
  let e := (s.grp g).egress
  let n := Config.freeNat (freeKey s.draws 35 0) % (e.length + 1)
  (e.take n).foldl (fun s q => performNext s g q) (s.updGrp g (fun x => { x with egress := [] }))

/-- A group on the fenced die ends with DIE_FENCED (R254, R394): what its core's engines held is lost, and what Landau, the bins and
the fabric hold completes there (R321). -/
def fenceGroup (s : State) (g : Nat) : State :=
  let s := loseEgress s g
  let s := s.updGrp g (fun x => { x with paths := x.paths.map (fun p => if p.1 < 3 then (p.1, { p.2 with ops := [] }) else p) })
  endGroup s g (some 4)

/-- The grid barriers of a launch break (R282). -/
def breakGrid (s : State) (grid : Nat) : State :=
  s.updGrid grid (fun r => { r with bars := [0, 1, 2, 3].foldl (fun m n => Map.modify Barrier.zero m n (fun b => { b with broken := true })) r.bars })

/-- The cluster barriers of a tuple break (R282): members that a forced save has captured outlive those on the die (R395). -/
def breakTuple (s : State) (k : Nat) : State :=
  match Map.find s.tuples k with
  | none => s
  | some t =>
    { s with tuples := Map.put s.tuples k { t with
        bars := (List.range 8).foldl (fun m n => Map.modify Barrier.zero m n (fun b => { b with broken := true })) t.bars } }

/-- The groups of a die's cores that are there. -/
def groupsOnDie (s : State) (d : Nat) : List (Nat × Group) := s.groups.filter (fun e => dieOf e.2.core == d && e.2.resident && !e.2.ended)

/-- Cluster ranks on the die stay known as fenced, for the requests of their peers (R254). -/
def markFenced (s : State) (d : Nat) : State :=
  { s with tuples := s.tuples.map (fun e =>
      let gone := (List.range e.2.teams.length).filter (fun r =>
        match (e.2.teams[r]?).bind (Map.find s.teams) with
        | some t => dieOf t.core == d && t.resident
        | none => false)
      (e.1, { e.2 with fenced := (e.2.fenced ++ gone).eraseDups })) }

/-- The fence of a die (R394). The groups that a forced save has captured are in the base, and stay (R395). -/
def fenceDie (s : State) (d : Nat) : State :=
  if !dieEnabled s.dz860 d || (s.dieAt d).fenced then s
  else
    let s := (deliverHeld (s.flushL1 d) d).updDie d (fun x => { x with fenced := true, asleep := false, waking := none, flush := false, leave := [] })
    let gs : List (Nat × Group) := groupsOnDie s d
    let s := (gs.map (·.1)).foldl playLog s   -- a CHOOSE whose step has reached the base is performed in full: its play is issued (R347)
    let grids := (gs.filterMap (fun e => (s.teamOf e.2).bind (fun t => if t.node.isNone && t.desc.gbar then some t.grid else none))).eraseDups
    let tuples := (gs.filterMap (fun e => (s.teamOf e.2).bind (·.tuple))).eraseDups
    let s := closeJoins (markFenced s d) (gs.map (·.1))
    let s := (gs.map (·.1)).foldl fenceGroup s
    let s := tuples.foldl breakTuple (grids.foldl breakGrid s)
    let s := { s with teams := s.teams.map (fun (e : Nat × Team) =>
      if dieOf e.2.core == d && e.2.resident then (e.1, { e.2 with lost := true }) else e) }
    { s with cores := s.cores.map (fun (e : Nat × Core) =>
        if dieOf e.1 == d then (e.1, { e.2 with mxq := [], lease := none, asked := false, joins := [], order := [] }) else e) }

/-- A die declared DEAD (R202): it sent no beacon within 4 µs of a wake request, or missed two heartbeats while awake. -/
def declareDead (s : State) (d : Nat) : State :=
  let x := s.dieAt d
  let late := match x.waking with
    | some t => decide (t + 84000 ≤ s.time)
    | none => false
  if x.fenced || !dieEnabled s.dz860 d || (x.asleep && !late) then s
  else fenceDie { s with health := s.health ++ [(3, d)] } d

/-- DIE_DECLARED_DEAD (R202). -/
def execDieDeclaredDead (die : Nat) (s : State) : Out := onDevice s (fun s => declareDead s die)

/-- DIE_FENCE_COMMAND (R394). -/
def execDieFenceCommand (die : Nat) (s : State) : Out := onDevice s (fun s => if s.phase == 0 then fenceDie s die else s)

/-- The fence of a die completes: what its groups' operations have not done by then is dropped, so that its teams retire now (R400; DEDUCED,
log entry 66). -/
def fenceOver (s : State) (d : Nat) : State :=
  let ts := (s.teams.filter (fun e => dieOf e.2.core == d && e.2.lost)).map (·.1)
  let s := { s with teams := s.teams.map (fun (e : Nat × Team) => if ts.contains e.1 then (e.1, { e.2 with lost := false }) else e) }
  { s with groups := s.groups.map (fun (e : Nat × Group) => if ts.contains e.2.team then (e.1, { e.2 with paths := [], egress := [] }) else e) }

/-- A fenced die has been reset and tested (R232, R394): it rejoins empty, or stays out. -/
def dieTested (s : State) (d : Nat) (pass : Bool) : State :=
  let x := s.dieAt d
  if !x.fenced || x.failed then s
  else
    let s := fenceOver s d
    let s := { s with cores := s.cores.map (fun (e : Nat × Core) => if dieOf e.1 == d then (e.1, { Core.zero with clk0 := s.time }) else e) }
    if pass then s.updDie d (fun x => { Die.idle with headroom := x.headroom, headAt := x.headAt, lastReq := s.time })
    else { s.updDie d (fun x => { x with failed := true }) with health := s.health ++ [(4, d)] }

/-- DIE_TEST_COMPLETE (R394). -/
def execDieTestComplete (die : Nat) (pass : Bool) (s : State) : Out := onDevice s (fun s => dieTested s die pass)

/-! ### Package stop (R14) -/

/-- Every context ends. -/
def endAll (s : State) : State := (s.ctxs.map (·.1)).foldl endContext s

/-- What lives only while the package runs is gone: contexts and all they had, and the base SRAM (R14, R396). -/
def State.cleared (s : State) : State :=
  { s with
    l2 := []
    dir := []
    filters := []
    l2bad := []
    hostL2 := []
    hitch := []
    landau := []
    views := []
    plays := []
    traffic := []
    samples := []
    windows := []
    mcSeq := []
    reds := []
    parts := []
    ctxs := []
    records := []
    grids := []
    tuples := []
    teams := []
    groups := []
    invals := []
    reclaims := []
    coach := []
    upload := []
    cur := none }

/-- An uncorrectable fault of the base stops the package (R14): the failure record names the structure and the region. -/
def stopPackage (s : State) (what region : Nat) : State :=
  if s.phase != 0 then s
  else
    let s := (endAll s).cleared
    let m := [BitVec.ofNat 64 what, BitVec.ofNat 64 region]
    { s with phase := 1, failure := s.failure ++ [(what, region)], outbox := s.outbox ++ [⟨0, 5, m⟩, ⟨1, 5, m⟩] }

/-- PACKAGE_STOP (R14). -/
def execPackageStop (what region : Nat) (s : State) : Out := onDevice s (fun s => stopPackage s what region)

/-! ### Firmware (R397, R398) -/

/-- The failure-record status of an image (R397, R398): it can be read, its signature verifies under the vendor key whose digest the identity
root holds, and its security version is at least the minimum; 0 passes. -/
def imgStatus (id : Identity) (minSvn : Nat) (i : FwImage) : Nat :=
  if !i.readable then 1
  else if !Config.signatureOk id.keyDigest i.bytes then 2
  else if Config.imageSvn i.bytes < minSvn then 3
  else 0

def Firmware.slot (f : Firmware) (n : Nat) : FwImage := if n == 0 then f.a else f.b

/-- A slot becomes active, and its measurement is kept (R397). -/
def Firmware.take (f : Firmware) (n : Nat) : Firmware := { f with active := n, measured := Config.shake256 (f.slot n).bytes }

/-- The cold sequence (R397): the active slot, then the other; `none` when both fail. -/
def Firmware.cold (f : Firmware) (id : Identity) : Option Firmware :=
  if imgStatus id f.minSvn (f.slot f.active) == 0 then some (f.take f.active)
  else if imgStatus id f.minSvn (f.slot (1 - f.active)) == 0 then some (f.take (1 - f.active))
  else none

/-- The warm sequence (R397). -/
def Firmware.warm (f : Firmware) (id : Identity) : Option Firmware :=
  let i := f.slot f.active
  if i.readable && Config.shake256 i.bytes == f.measured then some f else f.cold id

/-- Recovery (R398): the failure record gives a status for each slot. -/
def enterRecovery (s : State) : State :=
  { s with phase := 2, failure := [(0, imgStatus s.identity s.fw.minSvn s.fw.a), (1, imgStatus s.identity s.fw.minSvn s.fw.b)] }

/-! ### Starts (R396) -/

/-- The compute-die logic test: which dies pass is free; a die that fails stays fenced. -/
def testDies (s : State) : State :=
  let s := { s with draws := s.draws + 1 }
  { s with dies := (List.range 8).map (fun d =>
      let bad := Config.freeBit (freeKey s.draws 36 d)
      (d, { Die.idle with fenced := bad, failed := bad, headAt := s.time, lastReq := s.time })) }

/-- The management controller's split of the virtual functions (R32): free. -/
def assignVfs (s : State) : State :=
  let s := { s with draws := s.draws + 1 }
  { s with vfs := BitVec.ofNat 64 (Config.freeNat (freeKey s.draws 37 0)) }

/-- Cores as a start leaves them: side tables empty, every generation at 127 (R232). -/
def freshCores (s : State) : State := { s with cores := (List.range 544).map (fun k => (k, { Core.zero with clk0 := s.time })) }

/-- The steps that both starts share once the firmware has passed: the PCIe ports and the package's own fabric ports are trained. -/
def released (s : State) : State :=
  let own := s.portDown.filter (fun e => e.1 / 16 != s.peerNo)
  let s := freshCores (assignVfs (testDies { s with phase := 0, pcieDown := [], portDown := own }))
  { s with health := s.health ++ [(5, 0)] }

/-- A cold start (R396): the stacks are zeroed, GTIME begins at 0, and the fabric manager names the package anew. -/
def cold (s : State) : State :=
  let s := s.cleared
  match s.fw.cold s.identity with
  | none => enterRecovery s
  | some f =>
    let s := { s with
      fw := f
      draws := s.draws + 1
      mem := []
      poisoned := []
      stackBad := []
      time := 0
      agenda := s.agenda.map (fun e => { e with at_ := e.at_ - s.time })
      peerNo := Config.freeNat (freeKey (s.draws + 1) 38 0) % 4096
      peers := [] }
    released s

/-- COLD_START (R396, R397). -/
def execColdStart (s : State) : Out := onDevice s cold

/-- A warm start (R396): every context ends, what is dirty goes to its home, and memory and GTIME are kept. -/
def warm (s : State) : State :=
  if s.phase != 0 then s
  else
    let s := endAll s
    let s := (s.hostL2.map (·.1)).foldl (fun s k => s.writeBack k) s
    let s := (s.l2.map (·.1)).foldl (fun s k => s.l2Drop (k % 8) (k / 8)) s   -- what is dirty goes to its home
    let s := s.cleared
    match s.fw.warm s.identity with
    | none => enterRecovery s
    | some f => released { s with fw := f }

/-- WARM_START (R396, R397). -/
def execWarmStart (s : State) : Out := onDevice s warm

/-- In recovery the image that stands in the upload window is written to a slot if it passes (R398); the answer, on the port of the command, is the
status. -/
def writeSlot (s : State) (slot port : Nat) : State :=
  if s.phase != 2 || 2 ≤ slot || 2 ≤ port || !s.fnUp port then s
  else
    let img : FwImage := ⟨true, s.upload⟩
    let st := imgStatus s.identity s.fw.minSvn img
    let s := if st != 0 then s else { s with fw := if slot == 0 then { s.fw with a := img } else { s.fw with b := img } }
    reply s port [BitVec.ofNat 64 st]

/-- RECOVERY_SLOT_WRITE (R398). -/
def execRecoverySlotWrite (slot port : Nat) (s : State) : Out := onDevice s (fun s => writeSlot s slot port)

/-- What a host reaches through a port in recovery beside the mailbox (R398). -/
def inRecovery (port : Nat) (f : State → State) (s : State) : State := if s.phase == 2 && port < 2 && s.fnUp port then f s else s

/-- The identity certificate (R18): the product identifier of R1, as its grade and form, and the serial number. How they are laid out in words
is a DESIGN CHOICE (log entry 45). -/
def identityRead (port : Nat) (s : State) : State :=
  inRecovery port (fun s => answerHost s port
    [0, BitVec.ofNat 64 (if s.dz860 then 860 else 880), BitVec.ofNat 64 (ofBool s.identity.module), BitVec.ofNat 64 s.identity.serial]) s

/-- The failure record (R14, R398): its entries in order. -/
def failureRead (port : Nat) (s : State) : State :=
  inRecovery port (fun s => answerHost s port (0 :: s.failure.flatMap (fun e => [BitVec.ofNat 64 e.1, BitVec.ofNat 64 e.2]))) s

/-- A write into the image upload window of 64 MiB (R398); one that does not lie inside it is dropped. -/
def uploadWrite (port off size data : Nat) (s : State) : State :=
  inRecovery port (fun s =>
    if off + size ≤ 2 ^ 26 then
      { s with upload := setCells s.upload off ((List.range size).map (fun i => (i, BitVec.ofNat 8 (data / 2 ^ (8 * i))))) }
    else s) s

end Sys2Proof.Machine
end

