-- ==== Sys2Proof/Machine/Preempt.lean ====
section
/-! DEFINITION. Pre-emption (R387 to R393), the barrier watchdog (R283 to R285), the context watchdog (R386) and the deadlines of
waiting words. -/
namespace Sys2Proof.Machine

/-! ### The state of a context's device (R387) -/

/-- A change to the pre-emption state of a device of a context. -/
def updDev (s : State) (c dev : Nat) (f : DevRun → DevRun) : State :=
  s.updCtx c (fun x => { x with devs := Map.set DevRun.zero x.devs dev (f (Map.get DevRun.zero x.devs dev)) })

/-- The teams of a context on a device that are on their cores. -/
def devTeams (s : State) (c dev : Nat) : List (Nat × Team) :=
  s.teams.filter (fun e => e.2.ctx == c && e.2.resident && ((Map.find s.grids e.2.grid).map (fun r => r.dev == dev)).getD false)

/-- The started PREEMPT packet of a device. -/
def preemptPkt (s : State) (c dev : Nat) : Option Pkt :=
  let qs := ((Map.find s.ctxs c).map (·.queues)).getD []
  ((qs.flatMap (fun q => q.2.started)).find? (fun e => e.body == .preempt dev)).map (·.pkt)

/-- The PREEMPT of a device completes well. -/
def preemptDone (s : State) (c dev : Nat) : State :=
  match preemptPkt s c dev with
  | some p => finishPkt s p 0 0 0
  | none => s

/-! ### The forced save (R389, R390) -/

/-- A split as an image holds it (R104, R246, R389): a parked split keeps its fault limit, any other timeout starts again, and the
time it has spent waiting stands in `since`. -/
def imageOf (now : Nat) (sp : Split) : Split :=
  let r := sp.restart
  { r with haz := [], deadline := (if sp.wait == some .parked then sp.deadline else none), since := now - sp.since }

/-- One group is captured (R389): its side-table entries go with it. -/
def saveGroup (s : State) (g : Nat) : State :=
  let s := capture s g
  let x := s.grp g
  let mine := (s.coreOf x.core).side.filter (fun e => e.2.gid == g)
  let s := s.updCore x.core (fun c =>
    { c with
      side := c.side.filter (fun e => e.2.gid != g)
      order := c.order.filter (fun h => h != g)
      lease := none })
  s.updGrp g (fun x => { x.mapSplits (imageOf s.time) with savedSide := mine, resident := false })

/-- One team is captured: its core's L1 size is unset when no team is left there. -/
def saveTeam (s : State) (t : Nat) : State :=
  match Map.find s.teams t with
  | none => s
  | some x =>
    let s := x.groups.foldl saveGroup (closeJoins s x.groups)
    let s := s.updTeam t (fun x => { x with resident := false })
    s.updCore x.core (fun c => if (s.teamsOn x.core).isEmpty then { c with l := none } else c)

/-- The bytes of a team's image (log entry 27): its scratchpad, registers, TAS, quarantined entries, and 1 KiB for the rest of a group. -/
def imageBytes (d : Desc) : Nat :=
  let n := d.need
  1024 * n.scrk + 1024 * n.regc + 1024 * n.tasu + 32 * n.qbe + 1024 * d.teamg

/-- The device of a team's launch. -/
def State.devOfTeam (s : State) (t : Team) : Nat := ((Map.find s.grids t.grid).map (·.dev)).getD 0

/-- An image is in its region's shadow store: its team has been captured, and the base has not copied it to the save area (R389, R391). -/
def inShadow (s : State) (id : Nat) (t : Team) : Bool := !t.resident && !(s.devOf t.ctx (s.devOfTeam t)).inArea.contains id

/-- The bytes in use of a region's shadow store. -/
def shadowUse (s : State) (region : Nat) : Nat :=
  (s.teams.filter (fun e => regionOf e.2.core == region && inShadow s e.1 e.2)).foldl (fun n e => n + imageBytes e.2.desc) 0

/-- The teams of a context's device on one core. -/
def coreTeams (s : State) (c dev core : Nat) : List (Nat × Team) := (devTeams s c dev).filter (fun e => e.2.core == core)

/-- The shadow store beneath a core, 128 MiB, has room for what is to be captured there (R12, R389). -/
def shadowRoom (s : State) (c dev core : Nat) : Bool :=
  decide (shadowUse s (regionOf core) + (coreTeams s c dev core).foldl (fun n e => n + imageBytes e.2.desc) 0 ≤ 2 ^ 27)

/-- A device has an image in a shadow store (R391). -/
def DevRun.toCopy (d : DevRun) : Bool := (d.state == 2 || d.state == 3) && d.teams.any (fun t => !d.inArea.contains t)

/-- The PREEMPT of a forced save completes once the device is SAVED and its images have reached the save area: until then a write-out that fails,
or the end of the context, completes it with CONTEXT_ENDED (R391, R393; DEDUCED, log entry 65). -/
def saveOver (s : State) (c dev : Nat) : State :=
  let d := s.devOf c dev
  if d.state == 3 && !d.toCopy then preemptDone s c dev else s

/-- A save with nothing left to capture: the device is SAVED (R387, R389). -/
def saveDone (s : State) (c dev : Nat) : State :=
  if (s.devOf c dev).state == 2 && (devTeams s c dev).isEmpty then saveOver (updDev s c dev (fun d => { d with state := 3 })) c dev else s

/-- One core is captured (R286, R389); a shadow store without room makes it wait. -/
def saveCore (s : State) (c dev core : Nat) : State :=
  if (s.devOf c dev).state != 2 then s
  else if shadowRoom s c dev core then
    let ts := (coreTeams s c dev core).map (·.1)
    let s := ts.foldl saveTeam s
    saveDone (updDev s c dev (fun d => { d with teams := d.teams ++ ts })) c dev
  else s

/-- The forced save of a device (R389): it is SAVING, and its cores are captured one at a time. -/
def forcedSave (s : State) (c dev : Nat) : State := saveDone (updDev s c dev (fun _ => ⟨2, none, [], []⟩)) c dev

/-- The base writes an entry of the arrival log in the root view (R286); a write that fails ends the context. -/
def alogWrite (s : State) (c k : Nat) : State :=
  match Map.find s.ctxs c with
  | none => s
  | some x =>
    match x.alog[k]? with
    | none => s
    | some e =>
      let s := { s with draws := s.draws + 1 }
      match agentWrite s c (x.alogBase + 16 * k) 16 e.2.toNat (freeKey s.draws 35 0) with
      | (s, true) => s
      | (s, false) => endContext s c

/-- The DRAIN limit of a save in time units (R388). -/
def drainUnits (drain : BitVec 32) : Nat := (if drain == 0 then 200 else drain.toNat) * 21000

/-- A drain is over when every resident team has retired (R387). -/
def drainStep (s : State) (c dev : Nat) : State :=
  if (s.devOf c dev).state == 1 && (devTeams s c dev).isEmpty then
    preemptDone (updDev s c dev (fun _ => ⟨3, none, [], []⟩)) c dev
  else s

/-- PREEMPT_SAVE (R40, R387 to R389). -/
def execPreemptSave (p : Pkt) (force : Bool) (drain : BitVec 32) (s : State) : Out :=
  startPkt p false (fun s =>
    let dev := devOfQueue (((Map.find s.ctxs p.ctx).map (·.mode)).getD 1) p.q
    if (s.devOf p.ctx dev).state != 0 then finishPkt s p 0x1C 0 0
    else
      let s := startBody s p (.preempt dev)
      if force then forcedSave s p.ctx dev
      else
        let due := s.time + drainUnits drain
        let s := updDev s p.ctx dev (fun _ => ⟨1, some due, [], []⟩)
        drainStep { s with agenda := insertDue s.agenda ⟨due, .event (.drainLimit p.ctx dev)⟩ } p.ctx dev) s

/-- DRAIN_COMPLETE (R387, R388). -/
def execDrainComplete (c dev : Nat) (s : State) : Out := onDevice s (fun s => drainStep s c dev)

/-- The drain limit has been reached (R387, R388). -/
def drainOver (s : State) (c dev : Nat) : State :=
  let d := s.devOf c dev
  if d.state == 1 && (d.drainDue.map (fun t => decide (t ≤ s.time))).getD false then forcedSave s c dev else s

/-- DRAIN_LIMIT (R387, R388). -/
def execDrainLimit (c dev : Nat) (s : State) : Out := onDevice s (fun s => drainOver s c dev)

/-- The images that stand in the shadow store go to the save area, whose layout is private: its bytes are free from then on. An area that
cannot hold them, or a write that fails, ends the context (R391). -/
def writeout (s : State) (c dev : Nat) (fits : Bool) : State :=
  match Map.find s.ctxs c with
  | none => s
  | some x =>
    if !(s.devOf c dev).toCopy then s
    else
      let s := { s with draws := s.draws + 1 }
      let key := freeKey s.draws 36 1
      match agentWrite s c x.saveBase x.saveLen (Config.freeNat key) key with
      | (s, true) => if fits then saveOver (updDev s c dev (fun d => { d with inArea := d.teams })) c dev else endContext s c
      | (s, false) => endContext s c

/-- SAVE_AREA_WRITEOUT (R391). -/
def execSaveAreaWriteout (c dev : Nat) (fits : Bool) (s : State) : Out := onDevice s (fun s => writeout s c dev fits)

/-! ### The restore (R387, R392) -/

/-- PREEMPT_RESTORE (R40, R387): a save whose images still stand in the shadow store is complete with it (log entry 65). -/
def execPreemptRestore (p : Pkt) (s : State) : Out :=
  startPkt p false (fun s =>
    let dev := devOfQueue (((Map.find s.ctxs p.ctx).map (·.mode)).getD 1) p.q
    if (s.devOf p.ctx dev).state != 3 then finishPkt s p 0x1C 0 0
    else startBody (updDev (preemptDone s p.ctx dev) p.ctx dev (fun d => { d with state := 4 })) p (.preempt dev)) s

/-- An operation that is in flight in the sense of R390: it has not completed. -/
def opInFlight (o : AsyncOp) : Bool := !o.done

/-- Whether nothing of a saved team is in flight, and its die is there (R390, R394). -/
def teamSettled (s : State) (t : Team) : Bool :=
  s.dieUp (dieOf t.core) && t.groups.all (fun g =>
    let x := s.grp g
    x.egress.isEmpty && x.paths.all (fun p => p.2.ops.all (fun o => !opInFlight o)))

/-- A saved team takes its core again, its groups from pipe `start` on (R57, R392). -/
def seatTeam (s : State) (id : Nat) (t : Team) (start : Nat) : State :=
  let s := s.updCore t.core (fun c =>
    { c with p0 := (start + t.desc.teamg) % 4, l := if (s.teamsOn t.core).isEmpty then some t.desc.l1u else c.l })
  let s := s.updTeam id (fun t => { t with resident := true })
  t.groups.foldl (fun s g =>
    let x := s.grp g
    let pipe := (start + x.idx) % 4
    let slot := freeSlot s t.core pipe t.desc.passes
    let s := s.updGrp g (fun x => { x with pipe := pipe, slot := slot, resident := true })
    if x.ended then s else s.updCore t.core (fun c => { c with order := c.order ++ [g] })) s

/-- All saved teams take their cores in one pass, or none does (R392). -/
def seatAll : List Nat → State → Option State
  | [], s => some s
  | t :: ts, s =>
    match Map.find s.teams t with
    | none => seatAll ts s
    | some x =>
      match admits s x.grid x.ctx x.desc x.core with
      | none => none
      | some st => seatAll ts (seatTeam s t x st)

/-- An image is written back (R232, R392): a side-table entry whose index is taken is dropped, and saved time does not count. -/
def loadGroup (s : State) (g : Nat) : State :=
  let x := s.grp g
  let now := s.time
  let s := x.savedSide.foldl (fun s e => s.updCore x.core (fun c =>
    if Map.has c.side e.1 then c
    else { c with side := Map.put c.side e.1 { e.2 with slot := x.slot }, gens := Map.set 127 c.gens e.1 (bits e.2.token.toNat 9 7) })) s
  s.updGrp g (fun x =>
    { x.mapSplits (fun sp => { sp with since := now - sp.since, took := now, idle := now }) with savedSide := [] })

/-- An entry of the arrival log is applied (R286, R287): an arrival counts toward its phase at the barriers of its tuple, whether or not the team
that arrived has retired since; of a completion the phase stands already at its one holder. -/
def replayArrival (s : State) (e : Nat × BitVec 128) : State :=
  let w := e.2.toNat
  let num := bits w 32 4
  match Map.find s.tuples e.1 with
  | none => s
  | some t =>
    let b := Map.get Barrier.zero t.bars num
    if bit w 0 && bits w 28 2 == 0 && bits w 30 2 == 1 && b.phase == bits w 96 32 then
      let d := ((Map.find s.grids t.grid).map (·.desc)).getD Desc.blank
      let b := if b.arrived + 1 == d.clu * d.teamg then { b with phase := (b.phase + 1) % 2 ^ 32, arrived := 0 } else { b with arrived := b.arrived + 1 }
      { s with tuples := Map.put s.tuples e.1 { t with bars := Map.set Barrier.zero t.bars num b } }
    else s

/-- The arrival log of a context is emptied (R287): in memory each of its entries is in use no more (V = 0; log entry 65). A write that fails ends
the context (R286). -/
def emptyLog (s : State) (c : Nat) : State :=
  match Map.find s.ctxs c with
  | none => s
  | some x =>
    (x.alog.zip (List.range x.alog.length)).foldl (fun s e =>
      match agentWrite s c (x.alogBase + 16 * e.2) 16 (e.1.2.toNat - 1) (freeKey s.draws 35 e.2) with
      | (s, true) => s
      | (s, false) => endContext s c) ({ s with draws := s.draws + 1 }.updCtx c (fun x => { x with alog := [] }))

/-- A parked group whose service has answered goes on (R245, R246). -/
def takeAnswer (s : State) (g : Nat) : State :=
  let x := s.grp g
  match x.parkedSlot, x.service with
  | some slot, some ok => actOnAnswer s g slot ok
  | _, _ => s

/-- The restore (R392): placement, images, arrival log, and the groups issue. -/
def restoreStep (s : State) (c dev : Nat) : State :=
  let d := s.devOf c dev
  let ts := d.teams.filterMap (fun t => Map.find s.teams t)
  if d.state != 4 || !ts.all (teamSettled s) then s
  else
    match seatAll d.teams s with
    | none => s
    | some s =>
      let gs := ts.flatMap (·.groups)
      let s := gs.foldl loadGroup s
      let s := (((Map.find s.ctxs c).map (·.alog)).getD []).foldl replayArrival s
      let s := emptyLog (updDev s c dev (fun _ => DevRun.zero)) c
      if ((Map.find s.ctxs c).map (·.isOver)).getD true then s else
      let s := gs.foldl takeAnswer (endLostGroups s)
      dueNow (preemptDone s c dev) (.dispatchPass (s.partOfCtx c))

/-- RESTORE_PLACEMENT (R387, R392). -/
def execRestorePlacement (c dev : Nat) (s : State) : Out := onDevice s (fun s => restoreStep s c dev)

/-! ### Watchdogs (R283 to R285, R386) -/

/-- The lowest lane of a split's mask that is live in a group, with its PC (R285). -/
def lowPc (x : Group) : Nat :=
  match x.s0, x.s1 with
  | some a, some b => if lowest a.mask ≤ lowest b.mask then a.pc.toNat else b.pc.toNat
  | some a, none => a.pc.toNat
  | none, some b => b.pc.toNat
  | none, none => 0

/-- What a split waits for inside a word, and whether without bound; a rotated split is still in its wait (R283, R386). -/
def Split.waitsFor (sp : Split) : Option (Wait × Bool) :=
  if sp.again then sp.waited else sp.wait.map (fun w => (w, sp.deadline.isNone && !sp.expired))

/-- A split that waits for a barrier or a rendezvous. -/
def waitsAt (level num : Nat) (sp : Split) : Bool :=
  match sp.waitsFor with
  | some (.barrier l n _, _) => l == level && n == num
  | some (.rendezvous _, _) => level == 3
  | _ => false

/-- Whether a group has arrived: at a barrier in its phase, or at its team's fork rendezvous (R284, R337). -/
def hasArrived (s : State) (x : Group) (gid level num phase : Nat) : Bool :=
  if level == 3 then ((s.teamOf x).map (fun t => t.forks.any (fun a => a.gid == gid))).getD false else apOf x level num == some phase

/-- The split a watchdog watches: in slot 0 or 1, put aside by a trap as number 2 or 3, or rotated out into entry `k` of the area as number
`k + 4` (R283, R386). -/
def Group.watchedAt (x : Group) (k : Nat) : Option Split :=
  if k < 2 then x.split k
  else if k < 4 then x.saved.bind (fun t => if k == 2 then t.s0 else t.s1)
  else
    match Map.find x.pool (k - 4) with
    | some (.spilled sp _ _ _) => some sp
    | _ => none

/-- The numbers of the splits of a group that a watchdog may watch. -/
def Group.watchNumbers (x : Group) : List Nat := [0, 1, 2, 3] ++ x.pool.map (fun e => e.1 + 4)

/-- A member of a barrier: its virtual team and group index, and its group while the team has not retired. -/
structure Member where
  team : Nat
  idx : Nat
  gid : Option Nat
deriving DecidableEq, Repr

/-- The members among the groups of a virtual team of a launch; `view` names the version of the team that is meant (R334). -/
def teamMembers (s : State) (grid view teamg v : Nat) : List Member :=
  let ts := (s.teams.filter (fun e => e.2.grid == grid && e.2.node.isNone && e.2.vteam == v)).map (·.2)
  match (ts.find? (fun t => t.view == view)).or ts.head? with
  | some t => t.groups.map (fun g => ⟨v, (s.grp g).idx, some g⟩)
  | none => (List.range teamg).map (fun k => ⟨v, k, none⟩)

/-- The member entry of a group (R285); a group whose team has retired has ended, and its arrival phases are kept. -/
def memberEntry (s : State) (grid : Nat) (m : Member) (level num phase : Nat) : Nat :=
  match m.gid with
  | none =>
    let ap := ((Map.find s.grids grid).bind (fun r => Map.find r.gone (16 * m.team + m.idx))).bind (fun a => Map.find a (barKey level num))
    m.team * 2 ^ 44 + m.idx * 2 ^ 40 + 3 * 2 ^ 37 + ofBool (ap == some phase) * 2 ^ 36
  | some gid =>
  let x := s.grp gid
  let arrived := hasArrived s x gid level num phase
  let waits := x.watchNumbers.any (fun k => ((x.watchedAt k).map (waitsAt level num)).getD false)
  let state := if x.ended then 3 else if !x.resident then 4 else if !arrived then 0 else if waits then 1 else 2
  let team := ((s.teamOf x).map (·.vteam)).getD 0
  (if x.ended then 0 else lowPc x) * 2 ^ 64 + team * 2 ^ 44 + x.idx * 2 ^ 40 + state * 2 ^ 37 + ofBool arrived * 2 ^ 36

/-- The member groups of a barrier in ascending virtual team and group index; level 3 is the fork rendezvous (R276, R337). -/
def barMembers (s : State) (x : Group) (level : Nat) : List Member :=
  match s.teamOf x with
  | none => []
  | some t =>
    if level == 0 || level == 3 then t.groups.map (fun g => ⟨t.vteam, (s.grp g).idx, some g⟩)
    else
      let vs := if level == 1 then (List.range t.desc.clu).map (fun k => t.vteam - t.crank + k) else List.range (((s.gridOf x).map (·.teams)).getD 0)
      vs.flatMap (teamMembers s t.grid t.view t.desc.teamg)

/-- The bits of the groups of a team that satisfy a condition, by index. -/
def groupBits (s : State) (gs : List Nat) (p : Nat → Bool) : Nat :=
  gs.foldl (fun a g => a ||| (if p g then 2 ^ (s.grp g).idx else 0)) 0

/-- The diagnostic record of R284 with its member entries (R285), as a number, and its length in bytes. -/
def diagRecord (s : State) (gid level num : Nat) (diagLen : Nat) : Nat × Nat :=
  let x := s.grp gid
  let t := (s.teamOf x).getD Team.blank
  let phase := if level == 3 then 0 else (barOf s x level num).phase
  let nmem := if level == 3 then t.desc.teamg else barExpected s x level
  let team := level == 0 || level == 3
  let nlist := min nmem ((diagLen - 64) / 16)
  let ms := (barMembers s x level).take nlist
  let head := t.desc.addr.toNat * 2 ^ 448 + s.gtime % 2 ^ 64 * 2 ^ 384 + phase * 2 ^ 352 + nmem * 2 ^ 320 + nlist * 2 ^ 288 + t.vteam * 2 ^ 268
    + x.idx * 2 ^ 264 + (if team then groupBits s t.groups (fun _ => true) else 0) * 2 ^ 240
    + (if team then groupBits s t.groups (fun g => hasArrived s (s.grp g) g level num phase) else 0) * 2 ^ 224
    + x.ctx * 2 ^ 213 + level * 2 ^ 211 + num * 2 ^ 207
  let body := (ms.zip (List.range ms.length)).foldl (fun a e => a + memberEntry s t.grid e.1 level num phase * 2 ^ (512 + 128 * e.2)) 0
  (head + body, 64 + 16 * ms.length)

/-- What the barrier watchdog watches in a split: level and number (R283, R337). -/
def watched (sp : Split) : Option (Nat × Nat) :=
  match sp.waitsFor with
  | some (.barrier l n _, true) => some (l, n)
  | some (.rendezvous false, true) => some (3, 0)
  | _ => none

/-- The barrier watchdog fires (R283). -/
def fireBarrier (s : State) (gid level num : Nat) : State :=
  let x := s.grp gid
  match s.ctxOf x with
  | none => s
  | some c =>
    let (v, n) := diagRecord s gid level num c.diagLen
    let s := { s with draws := s.draws + 1 }
    let (s, _) := agentWrite s x.ctx c.diagBase n v (freeKey s.draws 36 0)
    endContext { s with outbox := s.outbox ++ [⟨c.fn, 1, [BitVec.ofNat 64 c.diagBase]⟩] } x.ctx

/-- A resident split has waited for the limit of a watchdog (R283, R386). -/
def waitedFor (s : State) (x : Group) (sp : Split) (log : Nat) : Bool := x.resident && !x.ended && decide (sp.since + 10 * 2 ^ log ≤ s.time)

/-- A member group past the limit of its context's barrier watchdog: since when it waits, its virtual team and index, its group and barrier. -/
structure Lapse where
  since : Nat
  team : Nat
  idx : Nat
  gid : Nat
  level : Nat
  num : Nat
deriving DecidableEq, Repr

/-- The split with number `k` of a group has waited for the limit of the barrier watchdog (R283). -/
def lapseAt (s : State) (g k : Nat) : Option Lapse :=
  let x := s.grp g
  match x.watchedAt k, s.ctxOf x with
  | some sp, some c =>
    (watched sp).bind (fun b =>
      if waitedFor s x sp c.bwlog then some ⟨sp.since, ((s.teamOf x).map (·.vteam)).getD 0, x.idx, g, b.1, b.2⟩ else none)
  | _, _ => none

/-- Of two members the watchdog names the one whose limit came first; in one clock the lowest virtual team, then the lowest group index
(R308). -/
def Lapse.before (a b : Lapse) : Bool :=
  a.since / 10 < b.since / 10 || (a.since / 10 == b.since / 10 && (a.team < b.team || (a.team == b.team && a.idx ≤ b.idx)))

/-- The member of a context whose wait fires its barrier watchdog (R283, R308). -/
def firstLapse (s : State) (ctx : Nat) : Option Lapse :=
  let ls := (s.groups.filter (fun e => (s.grp e.1).ctx == ctx)).flatMap (fun e => e.2.watchNumbers.filterMap (lapseAt s e.1))
  ls.foldl (fun (m : Option Lapse) l => match m with
    | some a => if a.before l then m else some l
    | none => some l) none

/-- The barrier watchdog of a split's context fires when the split has waited for its limit (R283, R308). -/
def barrierLapse (s : State) (g slot : Nat) : State :=
  match lapseAt s g slot, firstLapse s (s.grp g).ctx with
  | some _, some l => fireBarrier s l.gid l.level l.num
  | _, _ => s

/-- BARRIER_WATCHDOG (R283). -/
def execBarrierWatchdog (g slot : Nat) (s : State) : Out := onDevice s (fun s => barrierLapse s g slot)

/-- The context watchdog watches a `WAIT` or `SIGW` without a timeout (R386). -/
def unbounded (sp : Split) : Bool :=
  match sp.waitsFor with
  | some (.path _ _, true) => true
  | some (.signal _ _ _, true) => true
  | some (.signalMet, true) => true
  | _ => false

/-- The context watchdog fires (R386): an abandon request, and an event that names the group's slot and PC. -/
def contextLapse (s : State) (g slot : Nat) : State :=
  let x := s.grp g
  match x.watchedAt slot, s.ctxOf x with
  | some sp, some c =>
    if unbounded sp && waitedFor s x sp c.cwlog && !c.abandon then
      abandonCtx { s with outbox := s.outbox ++ [⟨c.fn, 2, [BitVec.ofNat 64 x.slot, sp.pc]⟩] } x.ctx
    else s
  | _, _ => s

/-- CONTEXT_WATCHDOG (R386). -/
def execContextWatchdog (g slot : Nat) (s : State) : Out := onDevice s (fun s => contextLapse s g slot)

/-! ### Deadlines (R227, R278, R294) -/

/-- A waiting split whose deadline has come is to issue its word at once, which then returns its timeout status. -/
def deadlinePast (s : State) (g slot : Nat) (p : Wait → Bool) : State :=
  match (s.grp g).split slot with
  | some sp =>
    let due := (sp.deadline.map (fun d => decide (d ≤ s.time))).getD false
    if due && !sp.expired && (s.grp g).resident && (sp.wait.map p).getD false then
      { s.updSpl g slot (fun sp => { sp with expired := true }) with agenda := ⟨s.time, .issue g slot⟩ :: s.agenda }
    else s
  | none => s

/-- WAIT_DEADLINE (R227). -/
def execWaitDeadline (g slot : Nat) (s : State) : Out :=
  onDevice s (fun s => deadlinePast s g slot (fun w => match w with | .path _ _ => true | _ => false))

/-- BAR_WAIT_DEADLINE (R278). -/
def execBarWaitDeadline (g slot : Nat) (s : State) : Out :=
  onDevice s (fun s => deadlinePast s g slot (fun w => match w with | .barrier _ _ _ => true | _ => false))

/-- SIGW_DEADLINE (R294). -/
def execSigwDeadline (g slot : Nat) (s : State) : Out :=
  onDevice s (fun s => deadlinePast s g slot Wait.isSignal)

/-! ### The context watchdog of a packet (R40, R386) -/

/-- The queue's started SIGNAL_WAIT without a timeout. -/
def Queue.openWait (q : Queue) : Option Started := q.started.find? (fun e => match e.body with | .wait _ _ _ none => true | _ => false)

/-- A SIGNAL_WAIT without a timeout has waited for the limit of its context's watchdog. -/
def packetLate (s : State) (x : Ctx) (q : Queue) : Bool := q.openWait.isSome && !x.abandon && !x.isOver && decide (q.waitAt + 10 * 2 ^ x.cwlog ≤ s.time)

/-- The context watchdog fires for a SIGNAL_WAIT (R40, R386): an abandon request, and an event that names the queue and the packet's index, as
there is no group (log entry 62). -/
def packetLapse (s : State) (c q : Nat) : State :=
  match Map.find s.ctxs c with
  | none => s
  | some x =>
    let y := s.queueOf c q
    match packetLate s x y, y.openWait with
    | true, some e => abandonCtx { s with outbox := s.outbox ++ [⟨x.fn, 2, [BitVec.ofNat 64 q, (pktNo e.pkt).setWidth 64]⟩] } c
    | _, _ => s

end Sys2Proof.Machine
end

