-- ==== Sys2Proof/Machine/Engines.lean ====
section
/-! DEFINITION. What a core's and a region's engines do on their own: leave (R65 to R67), the age wrap (R97), results written late
(R81), the matrix queue (R173), join windows (R165), asynchronous operations (R204), stores (R205), invalidations (R194), the Hitch
(R289), Landau's reclaim (R326), and the fetch of a clause (R87, R89). -/
namespace Sys2Proof.Machine

/-! ### Leave (R65 to R67) -/

/-- A governor's headroom now, in 1/350 A: 60 A/µs up to 8 A (R66). -/
def Die.room (d : Die) (now : Nat) : Nat := min 2800 (d.headroom + (now - d.headAt))

/-- What a request asks for: 4 A or 0.5 A (R65). -/
def LeaveReq.current : LeaveReq → Nat
  | .matrix _ => 1400
  | .copy _ _ _ => 175

/-- A granted lease (R65): a matrix lease lapses 256 cc after its grant; an operation may begin. -/
def LeaveReq.grant (r : LeaveReq) (s : State) : State :=
  match r with
  | .matrix core => s.updCore core (fun c => { c with lease := some (s.time + 2560), asked := false })
  | .copy g path seq =>
    s.updGrp g (fun x =>
      let p := x.path path
      { x with paths := Map.set Path.zero x.paths path { p with ops := p.ops.map (fun o => if o.seq == seq then { o with lease := false } else o) } })

/-- The oldest request of a die is granted once the headroom covers it (R66). -/
def leaveStep (s : State) (d : Nat) : State :=
  let x := s.dieAt d
  match x.leave with
  | [] => s
  | r :: rs =>
    let h := x.room s.time
    if h < r.current then s
    else r.grant (s.updDie d (fun x => { x with leave := rs, headroom := h - r.current, headAt := s.time }))

/-- LEAVE_GRANT (R66). -/
def execLeaveGrant (die : Nat) (s : State) : Out := onDevice s (fun s => leaveStep s die)

/-- MATRIX_LEASE_LAPSE (R65). -/
def execMatrixLeaseLapse (core : Nat) (s : State) : Out :=
  onDevice s (fun s =>
    match (s.coreOf core).lease with
    | some t => if t ≤ s.time then s.updCore core (fun c => { c with lease := none }) else s
    | none => s)

/-- A matrix lease is asked for, unless one is live or has been asked for (R65, R67). -/
def askMatrix (s : State) (core : Nat) : State :=
  if leaseLive s core || (s.coreOf core).asked then s
  else askLeave (s.updCore core (fun c => { c with asked := true })) core (.matrix core)

/-! ### Arbitration (R97) -/

/-- The oldest group of a pipe becomes its youngest (R97). -/
def wrapPipe (s : State) (core pipe : Nat) : State :=
  s.updCore core (fun c =>
    match c.order.find? (fun g => (s.grp g).pipe == pipe) with
    | some g => { c with order := c.order.filter (fun h => h != g) ++ [g] }
    | none => c)

/-- AGE_WRAP (R97). -/
def execAgeWrap (core pipe : Nat) (s : State) : Out := onDevice s (fun s => wrapPipe s core pipe)

/-- Every pipe that has groups wraps its age order. -/
def wrapAll (s : State) : State :=
  s.cores.foldl (fun s e => if e.2.order.isEmpty then s else [0, 1, 2, 3].foldl (fun s p => wrapPipe s e.1 p) s) s

/-! ### Results, the matrix queue, join windows -/

/-- One owed result is written (R81). -/
def writeResult (s : State) (g k : Nat) : State :=
  s.updGrp g (fun x =>
    match x.board[k]? with
    | some ws => { x.wrAll ws with board := x.board.eraseIdx k }
    | none => x)

/-- VARIABLE_RESULT_WRITE (R81). -/
def execVariableResultWrite (g k : Nat) (s : State) : Out := onDevice s (fun s => writeResult s g k)

/-- MATRIX_QUEUE_EXECUTE (R173). -/
def execMatrixQueueExecute (core : Nat) (s : State) : Out := onDevice s (fun s => mxStep s core)

/-- JOIN_WINDOW_CLOSE (R165): a window 64 cc old closes. -/
def execJoinWindowClose (core tag : Nat) (s : State) : Out :=
  onDevice s (fun s => closeWhere s (fun k j => k == core && j.mtag == tag && j.due ≤ s.time))

/-! ### Asynchronous operations (R204) -/

/-- One unit of an operation's work. -/
def opUnit (s : State) (g : Nat) (o : AsyncOp) (pick : Nat) : State × AsyncOp :=
  match o.kind with
  | .cpy dir dst src bytes rows pitch ranks next => unitCpy s g o dir dst src bytes rows pitch ranks next
  | .items scatter dst src list count isz stride next => unitItem s g o scatter dst src list count isz stride next
  | .red stores => unitRed s g o stores pick
  | .getwork n off k nw ans => unitGetwork s g o n off k nw ans
  | .spawn recs last => unitSpawn s g o recs last
  | .treuse desc c sd => unitReuse s g o desc c sd
  | .mcast red gid size aop ack secs => unitMcast s g o red gid size aop ack secs
  | .tdesc _ _ _ _ => unitTree s g o pick
  | .texp _ _ _ _ => unitTree s g o pick
  | .tback _ _ _ => unitTree s g o pick
  | .tnode _ _ _ _ => unitTree s g o pick

/-- Whether an `STMC` or `REDMC` has sent a packet. -/
def AsyncOp.sending (o : AsyncOp) : Bool :=
  match o.kind with
  | .mcast _ _ _ _ _ secs => secs.any (·.sent)
  | _ => false

/-- The `fab` operations of a core in flight, of which there are at most 256: the rest stay queued (R367). -/
def State.fabInFlight (s : State) (core : Nat) : Nat :=
  (s.groups.map (fun e => if e.2.core == core then ((e.2.path pathFab).ops.filter (fun o => !o.done && o.sending)).length else 0)).sum

/-- The `k`-th operation of a path goes on, if it may: completed operations leave in order (R204), and views that no access is
tagged with any more are freed (R335). -/
def opStep (s : State) (g path k pick : Nat) : State :=
  let x := s.grp g
  match (x.path path).ops[k]? with
  | none => s
  | some o =>
    if !opReady x o || (path == pathFab && !o.sending && 256 ≤ s.fabInFlight x.core) then s
    else
      let (s, o) := opUnit s g o pick
      sweepViews (storeOp s g path o)

/-- An operation that the core's own engine carries out uses the die's link: a die that sleeps is asked to wake first (R201). -/
def opLink (s : State) (g path k pick : Nat) : State :=
  let d := dieOf (s.grp g).core
  if 3 ≤ path then opStep s g path k pick
  else if (s.dieAt d).asleep then askWake s d
  else opStep (s.updDie d (fun x => { x with lastReq := s.time })) g path k pick

/-- ASYNC_OP_COMPLETE (R204, R222 to R225, R296, R297, R318 to R327, R364 to R366). -/
def execAsyncOpComplete (g path k lane : Nat) (s : State) : Out := onDevice s (fun s => opLink s g path k lane)

/-- A store goes over the die's link as it performs, unless it stays on the die: a die that sleeps is asked to wake first (R201). -/
def storeLink (s : State) (g k : Nat) : State :=
  let x := s.grp g
  let d := dieOf x.core
  let local_ := match x.egress[k]? with
    | some q => !overLink s x q.place
    | none => true
  if local_ then performNth s g k
  else if (s.dieAt d).asleep then askWake s d
  else performNth (s.updDie d (fun x => { x with lastReq := s.time })) g k

/-- STORE_COMPLETION (R205, R244). -/
def execStoreCompletion (g k : Nat) (s : State) : Out := onDevice s (fun s => sweepViews (storeLink s g k))

/-! ### Invalidations, the Hitch, Landau -/

/-- A core's drain marker has reached every target of the requests ahead of it, and the core acknowledges (R194). -/
def ackCore (s : State) (line core : Nat) : State :=
  let mine := fun (i : Inval) => if i.line == line then (i.pend.filter (fun p => p.1 == core)).map (fun p => p.2.1) else []
  let gs := (s.invals.flatMap mine).eraseDups
  let left := (s.invals.map (fun i => if i.line == line then { i with pend := i.pend.filter (fun p => p.1 != core) } else i)).filter (fun i => !i.pend.isEmpty)
  gs.foldl (fun s g => drainReds (drainEgress s g) g (fun q => q.line == some line)) { s with invals := left }

/-- INVALIDATION_ACK (R194). -/
def execInvalidationAck (line core : Nat) (s : State) : Out := onDevice s (fun s => ackCore s line core)

/-- HITCH_LINE_RETURN (R289). -/
def execHitchLineReturn (line : Nat) (s : State) : Out := onDevice s (fun s => hitchReturn s line)

/-- LANDAU_RECLAIM (R326). -/
def execLandauReclaim (k n : Nat) (s : State) : Out := onDevice s (fun s => reclaimStep s k n)

/-! ### Fetching a clause (R72, R87, R89) -/

/-- What a fetched clause asks of its core: the lease it needs itself (R65), and, with L set, the lease of the next clause (R67), which is the
one that follows it in memory also where a word of this one may branch (DESIGN CHOICE, log entry 53). -/
def askLeases (s : State) (g hdr : Nat) (h : Header) : State :=
  let core := (s.grp g).core
  let s := if h.cls == some .matrix then askMatrix s core else s
  if !h.l then s
  else
    match codeWord s g (hdr + 4 + 4 * h.count) with
    | (s, .ok n) => if (Header.of n).cls == some .matrix then askMatrix s core else s
    | (s, .error _) => s

/-- A split fetches the clause at its header; a clause that fails a check traps with ENCODING (R87, R376). -/
def fetchClause (s : State) (g slot : Nat) : State :=
  let x := s.grp g
  match x.split slot with
  | none => s
  | some sp =>
    if sp.clause.isSome || x.ended || !x.resident then s
    else if (s.dieAt (dieOf x.core)).asleep then askWake s (dieOf x.core)   -- a clause comes from the core's base (R89, R201)
    else
      match codeClause (s.updDie (dieOf x.core) (fun d => { d with lastReq := s.time })) g sp.hdr.toNat with
      | (s, .error e) => takeTrap s g slot .encoding e.code 0 sp.mask sp.pc sp.hdr
      | (s, .ok c) => askLeases (s.updSpl g slot (fun sp => { sp with clause := some c })) g sp.hdr.toNat (Header.of c.hdr)

/-- CLAUSE_FETCH (R87). -/
def execClauseFetch (g slot : Nat) (s : State) : Out := onDevice s (fun s => fetchClause s g slot)

end Sys2Proof.Machine
end

