-- ==== Sys2Proof/Machine/Errors.lean ====
section
/-! DEFINITION. Errors that the hardware's own checks find (R252, R253): how each arises, and where a group's words meet those that stand in
registers, the multiplier, the crossbar and the die's link. That an error arises is an input; nothing in the machine brings one about
(log entry 40). -/
namespace Sys2Proof.Machine

/-! ### How an error arises -/

/-- A register of a group as the key of an error that stands in it. -/
def regKey (f : RFile) (r lane : Nat) : Nat :=
  let k := match f with
    | .v => 0
    | .s => 1
    | .p => 2
    | .q => 3
    | .fmt => 4
    | .mark => 5
  (k * 128 + r) * 128 + lane

/-- An error that a group is to meet. -/
def arm (s : State) (g : Nat) (d : Detail) (k : Nat) : State :=
  s.updGrp g (fun x => if x.ended || x.armed.contains (d, k) then x else { x with armed := x.armed ++ [(d, k)] })

/-- A scratchpad word is poisoned; its entry stands beside the team's first group that lives, whose place in its code it records (R252). -/
def strikeScr (s : State) (t w : Nat) : State :=
  match Map.find s.teams t with
  | none => s
  | some tm =>
    match tm.groups.find? (fun g => !(s.grp g).ended) with
    | none => s
    | some g =>
      if tm.desc.scr * 256 ≤ w then s
      else
        let x := s.grp g
        let pc := ((x.s0.orElse (fun _ => x.s1)).map (·.pc)).getD 0
        let (s, tok) := newEntry s g pc { cause := .eccCache, detail := .scratch } 0
        s.updTeam t (fun tm => { tm with scr := Map.set Val.zero tm.scr w ⟨tok, true⟩ })

/-- An entry of the quarantine buffer of an open region: the region is flagged for the entry's lowest lane (R252). -/
def strikeQb (s : State) (g k : Nat) : State :=
  let x := s.grp g
  match if x.region.opened then x.region.qb[k]? else none with
  | none => s
  | some q =>
    let lane := (q.lanes.min?).getD q.lane
    let (s, t) := newEntry s g q.pc { cause := .eccCache, detail := .qb } lane
    flagRegion s g t lane false

/-- A store that the die's link has given up (R252). -/
def strikeStore (s : State) (g k : Nat) : State :=
  let x := s.grp g
  match x.egress[k]? with
  | none => s
  | some q =>
    match q.place with
    | .scr _ _ => s
    | _ =>
      if 4 ≤ q.ord then s
      else
        let s := s.updGrp g (fun x => { x with egress := x.egress.eraseIdx k })
        let (s, t) := lateToken s g q { cause := .linkTimeout, detail := .dieLink }
        flagStore s g q t

/-- Parity of the Coachhouse's scratch memory: its event is abandoned, and the context of it ends (R52, R253). -/
def strikeCoach (s : State) : State :=
  match s.coach with
  | [] => s
  | k :: rest => endContext { s with coach := rest } (k / 64)

/-- Whether a stack holds a cached sector: a root sector, or a view's private copy in its slot (R340). -/
def State.onStack (s : State) (sec : Nat) : Bool :=
  decide (plainSec sec < s.stackCount * 2 ^ 32)
    && (viewTag sec == 0 || ((Map.find s.views (viewTag sec)).map (fun v => Map.has v.sects (plainSec sec))).getD false)

/-- An error arises (R252, R253). -/
def errorStep (e : HwError) (s : State) : State :=
  match e with
  | .register g f r lane => if f == .fmt || f == .mark || (f == .p && r == 7) then s else arm s g .regfile (regKey f r lane)
  | .tas g key => arm s g .tas key
  | .scratch t w => strikeScr s t w
  | .l1 core sb => evict s (.l1 core sb)
  | .qb g k => strikeQb s g k
  | .l2 region sec => if region < 8 && s.l2Has region sec then { s with l2bad := Map.put s.l2bad (inRegion sec region) true } else s
  | .stack sec => if !s.onStack sec then s else { s with stackBad := Map.put s.stackBad sec false }
  | .residue g lane => arm s g .residue lane
  | .xbar g lane => arm s g .xbar lane
  | .link g lane => arm s g .dieLink lane
  | .linkStore g k => strikeStore s g k
  | .coach => strikeCoach s
  | .corrected what => { s with health := s.health ++ [(6, what)] }

/-! ### Where a word meets one -/

/-- The registers with errors that a word reads in some lanes: file, register, lane. -/
def badReads (x : Group) (reads : List RegUse) (m : Mask) : List (RFile × Nat × Nat) :=
  reads.flatMap (fun e =>
    let lanes := if e.file == .v || e.file == .p then (if e.cross then List.range 128 else lanesOf m) else [0]
    (lanes.filter (fun i => x.armed.contains (.regfile, regKey e.file e.reg i))).map (fun i => (e.file, e.reg, i)))

/-- Registers found in error hold the token of the word's entry from then on (R252; log entry 40). -/
def meetAt (s : State) (g : Nat) (pc : BitVec 64) (low : Nat) (t : Option Word) (bad : List (RFile × Nat × Nat)) : State × Option Word :=
  if bad.isEmpty then (s, t)
  else
    let lane := (bad.foldl (fun m e => min m (if e.1 == .v || e.1 == .p then e.2.2 else low)) 127)
    let (s, t) := match t with
      | some t => (s, t)
      | none => newEntry s g pc { cause := .eccCache, detail := .regfile } lane
    let s := put s g (bad.map (fun e => ⟨e.1, e.2.1, e.2.2, ⟨t, true⟩⟩))
    (s.updGrp g (fun x => { x with armed := x.armed.filter (fun a => !bad.any (fun e => a == (.regfile, regKey e.1 e.2.1 e.2.2))) }), some t)

/-- A word that multiplies (R253). -/
def multiplies (n : NextWord) : Bool :=
  n.cls == .alu && ((opOf n.word == 0x30 && field n.word 0 3 == 2) || [0x02, 0x03, 0x04, 0x15, 0x18, 0x19, 0x20, 0x21, 0x23, 0x24, 0x32].contains (opOf n.word))

/-- The residue of a multiply is wrong in some lanes of a group's word: their results are poison (R253). -/
def residueAt (s : State) (g : Nat) (pc : BitVec 64) (u : Uses) (lanes : Mask) : State :=
  let x := s.grp g
  let bud := budget (((Map.find s.teams x.team).map (·.desc)).getD Desc.blank) x.role
  let at_ := fun (f : RFile) (i : Nat) => if f == .v || f == .p then i else 0
  let sites := (lanesOf lanes).flatMap (fun i =>
    if !x.armed.contains (.residue, i) then []
    else (u.writes.filter (fun e => (e.1 != .v || e.2 < bud) && !(Map.get Val.zero (match e.1 with
      | .v => x.v
      | .p => x.p
      | .s => x.s
      | .q => x.q
      | .fmt => []
      | .mark => []) (if e.1 == .v || e.1 == .p then 128 * e.2 + i else e.2)).poison)).map (fun e => (e.1, e.2, at_ e.1 i, i)))
  match sites with
  | [] => s
  | q :: _ =>
    let (s, t) := newEntry s g pc { cause := .eccCache, detail := .residue } q.2.2.2
    put s g (sites.map (fun e => ⟨e.1, e.2.1, e.2.2.1, ⟨t, true⟩⟩))

/-- What a word that has issued leaves of the errors before its group: those of its accesses and its multiplier it has met, and a register that
it writes holds none. -/
def spendErrors (s : State) (g : Nat) (n : NextWord) (u : Uses) (lanes : Mask) : State :=
  let x := s.grp g
  if x.armed.isEmpty then s
  else
    let s := if multiplies n then residueAt s g n.pc u lanes else s
    let wrote := fun (k : Nat) => u.writes.any (fun e =>
      if e.1 == .v || e.1 == .p then (lanesOf lanes).any (fun i => k == regKey e.1 e.2 i) else k == regKey e.1 e.2 0)
    let spent := fun (a : Detail × Nat) => match a.1 with
      | .xbar => n.cls == .memory
      | .dieLink => n.cls == .memory
      | .residue => multiplies n
      | .regfile => wrote a.2
      | _ => false
    s.updGrp g (fun x => { x with armed := x.armed.filter (fun a => !spent a) })

end Sys2Proof.Machine
end

