-- ==== Sys2Proof/Machine/Issue.lean ====
section
/-! DEFINITION. What the issue of a word does around the word's own meaning (R71, R73, R78 to R83, R104, R173, R385): before it, and
after it. -/
namespace Sys2Proof.Machine

/-! ### Before the word -/

/-- Whether the group's matrix words complete before a word issues: it accesses memory, or it may commit, release or leave the group. -/
def afterMatrix (n : NextWord) : Bool :=
  match n.cls with
  | .matrix => false
  | .alu => false
  | .async => false
  | .control => mayCommit n
  | _ => true

/-- What a word waits for is brought about: the matrix queue, where it goes ahead of the word's accesses (R173, R176), scratchpad stores ahead
of a matrix word (R174), and, before an access, the stores of other groups that precede it in their own scopes (R263). -/
def clearWay (s : State) (g : Nat) (n : NextWord) : State :=
  let s := if afterMatrix n then drainMx s g else s
  match n.cls with
  | .matrix => drainScr (settleOwed s g) g
  | .memory => settleOwed s g
  | _ => s

/-- The word has been issued before: it waited, or was rotated out of its wait (R104). -/
def Split.resumed (sp : Split) : Bool := sp.wait.isSome || sp.wph || sp.again

/-- The word becomes the current one and its split stands behind it: on its path (R71), with the word counted and its stall count begun
(R78). -/
def prepare (s : State) (g slot : Nat) (sp : Split) (c : Clause) (n : NextWord) : State :=
  let cur : Cur :=
    { gid := g, slot := slot, pc := n.pc, hdr := sp.hdr, next := n.next, nextHdr := n.nextHdr, clause := c, word := n.word, wait := sp.wait,
      wph := sp.wph, deadline := sp.deadline, expired := sp.expired, since := if sp.resumed then sp.since else s.time }
  { s with draws := s.draws + 1, cur := some cur }.updSpl g slot (fun y =>
    { y with
      pc := n.next
      hdr := n.nextHdr
      clause := if n.nextHdr == sp.hdr then y.clause else none
      wait := none
      wph := false
      deadline := none
      expired := false
      again := false
      step := false
      idle := s.time
      due := s.time + 10 * (stepOf n.word * ((s.grp g).width / 32))
      ran := s.time
      dist := if sp.resumed then sp.dist else sp.dist + stepOf n.word })

/-- Whether a hazard stands too close (R79): `cross` for the cross-lane distance. -/
def Hazard.close (h : Hazard) (sp : Split) (f : RFile) (r : Nat) (cross : Bool) : Bool :=
  h.file == f && h.reg == r && sp.dist - h.at_ < (if cross then h.needX else h.need)

/-- A branch, call or return that divides its split copies FMT (R79, R101). -/
def copiesFmt (wx : Wx) (n : NextWord) : Bool :=
  let op := opOf n.word
  if n.cls != .control || !(op == 1 || (3 ≤ op && op ≤ 6)) then false
  else
    let act := (wx.under (field n.word 21 3).toNat).1
    let part := act != 0 && act != wx.sp.mask
    let far := fun (i : Nat) => wx.lane 2 0 (field n.word 7 7).toNat i false
    part || ((op == 3 || op == 5) && 1 < ((lanesOf act).map far).eraseDups.length)

/-- The register that a word reads or writes too soon, with whether it writes it: the checker counts along the split's own path (R78, R82).
Where there are several, the first named is a read before a write: the predicate, then the sources in the order of `usesOf` (DESIGN CHOICE,
log entry 54). -/
def violation (sp : Split) (u : Uses) (fmt : Bool) : Option (Bool × RFile × Nat) :=
  let reads := u.reads ++ (if fmt then readFmt else [])
  let own := sp.haz.filter (fun h => !h.foreign)
  match reads.find? (fun e => own.any (fun h => h.close sp e.file e.reg e.cross)) with
  | some e => some (false, e.file, e.reg)
  | none => (u.writes.find? (fun e => own.any (fun h => h.close sp e.1 e.2 false))).map (fun e => (true, e.1, e.2))

/-- TDATA of a STALL_CHECK trap (R378), which names no coding for MARK: a free value (log entry 54). -/
def stallData (key : Nat) (f : RFile) (r : Nat) : Nat :=
  match f with
  | .v => r
  | .s => r + 2 ^ 8
  | .p => r + 2 ^ 9
  | .q => r + 3 * 2 ^ 8
  | .fmt => 2 ^ 10
  | .mark => Config.freeNat key % 2 ^ 32

/-- Registers with errors that a word reads (R252): its predicate's first, then those of its active lanes. -/
def meetErrors (s : State) (g slot : Nat) (sp : Split) (c : Clause) (n : NextWord) : State :=
  if !(s.grp g).armed.any (fun a => a.1 == .regfile) then s
  else
    let u := usesOf n.cls n.word n.x sp.fmt (s.grp g).width
    let test := fun (e : RegUse) => e.file == .p || e.file == .q
    let low := lowest sp.mask
    let (s, t) := meetAt s g n.pc low none (badReads (s.grp g) (u.reads.filter test) sp.mask)
    let act := match (prepare s g slot sp c n).cur with
      | some k => ((wxOf k (prepare s g slot sp c n)).under (if readsQual n.cls (opOf n.word) then 7 else (field n.word 21 3).toNat)).1
      | none => 0
    (meetAt s g n.pc low t (badReads (s.grp g) (u.reads.filter (fun e => !test e)) act)).1

/-- The checker's finding for a word about to issue; `s` is the state prepared for it (R82). -/
def stallFound (s : State) (sp : Split) (n : NextWord) : Option (Bool × RFile × Nat) :=
  match s.cur with
  | none => none
  | some c =>
    let x := s.grp c.gid
    if sp.resumed || !((s.ctxOf x).map (·.stchk)).getD false then none
    else violation sp (usesOf n.cls n.word n.x sp.fmt x.width) (copiesFmt (wxOf c s) n)

/-! ### After the word -/

/-- What a register holds, lane by lane. -/
def valuesOf (x : Group) (fmt : Word) (f : RFile) (r : Nat) : List (Nat × Val) :=
  let lanes := fun (m : List (Nat × Val)) => (m.filter (fun e => e.1 / 128 == r)).map (fun e => (e.1 % 128, e.2))
  match f with
  | .v => lanes x.v
  | .p => lanes x.p
  | .s => [(0, x.rdS r)]
  | .q => [(0, x.rdQ r)]
  | .fmt => [(0, ⟨fmt, false⟩)]
  | .mark => [(0, ⟨x.mark, false⟩)]

/-- The lanes in which a word writes its fixed-latency results: its active lanes, or lane 0 where it writes for the group (R98, R136). -/
def writtenLanes (wx : Wx) (n : NextWord) : Mask :=
  let k := (field n.word 21 3).toNat
  if readsQual n.cls (opOf n.word) then (if k == 7 || (let v := wx.rdQ 13 k; !v.poison && v.bits == 1) then 1 else 0)
  else (wx.under k).1

/-- A register written twice too close: each lane that both words wrote is left with one of the two values, and which is free (R80). -/
def chooseWrite (key : Nat) (before : Group) (fmt : Word) (lanes : Mask) (s : State) (g slot : Nat) (f : RFile) (r : Nat) : State :=
  let pick := fun (i : Nat) => Config.freeBit (key + 16 * (2 * i) + r % 16)
  match f with
  | .fmt => if pick 0 then s.updSpl g slot (fun sp => { sp with fmt := fmt }) else s
  | .mark => if pick 0 then s.updGrp g (fun x => { x with mark := before.mark }) else s
  | _ =>
    let old := valuesOf before fmt f r
    put s g (((lanesOf lanes).filter pick).map (fun i => ⟨f, r, i, Map.get Val.zero old i⟩))

/-- The lanes of a register in which an earlier word's result stands too close to a word that writes it (R80). -/
def twiceLanes (sp : Split) (f : RFile) (r : Nat) : Mask :=
  (sp.haz.filter (fun h => h.close sp f r false)).foldl (fun m h => m ||| h.lanes) 0

/-- The fixed-latency results of a word (R79), made when its split had counted `at_`. -/
def newHazards (sp0 : Split) (at_ : Nat) (u : Uses) (lanes : Mask) (before : Group) : List Hazard :=
  match u.row with
  | some (need, needX) => u.writes.map (fun e => ⟨e.1, e.2, at_, need, needX, valuesOf before sp0.fmt e.1 e.2, lanes, false, []⟩)
  | none => []

/-- No distance of a split's own words orders it behind this. -/
def noDistance : Nat := 2 ^ 64

/-- What a word writes, as it stands for the other splits of its group (R94, R132): a lane register of its lanes is ordered before their reads
across lanes by a merge or a barrier only, whatever its latency; a register of the group that it writes with fixed latency is one to them
as to the split that wrote it, and they count their own words from here (log entry 51). -/
def foreignHazards (sp : Split) (sp0 : Split) (u : Uses) (lanes : Mask) (before : Group) : List Hazard :=
  u.writes.filterMap (fun e =>
    let h : Hazard := ⟨e.1, e.2, sp.dist, 0, noDistance, valuesOf before sp0.fmt e.1 e.2, lanes, true, []⟩
    if e.1 == .v || e.1 == .p then some h
    else if e.1 == .fmt then none
    else u.row.map (fun r => { h with need := r.1, needX := r.2 }))

/-- Another split of the group takes note of a word's results. -/
def Split.notes (sp0 : Split) (u : Uses) (lanes : Mask) (before : Group) (sp : Split) : Split :=
  { sp with haz := foreignHazards sp sp0 u lanes before ++ sp.haz }

/-- The results of a word take their place among those before it (R79, R80), for its own split and the others of the group. -/
def settleHazards (s : State) (g slot : Nat) (sp0 : Split) (u : Uses) (lanes : Mask) (before : Group) : State :=
  match (s.grp g).split slot with
  | none => s
  | some sp =>
    if sp.wait.isSome then s
    else
      let clash := u.writes.filter (fun e => sp0.haz.any (fun h => h.close sp0 e.1 e.2 false))
      let s := if clash.isEmpty || u.row.isSome then s else s.updGrp g Group.settle
      let s := (clash.zip (List.range clash.length)).foldl (fun s e =>
        chooseWrite (freeKey s.draws (64 + e.2 % 60) 0) before sp0.fmt (twiceLanes sp0 e.1.1 e.1.2 &&& lanes) s g slot e.1.1 e.1.2) s
      let new := newHazards sp0 sp0.dist u lanes before
      let note := Split.notes sp0 u lanes before
      let s := if u.writes.isEmpty || lanes == 0 then s
        else s.updGrp g (fun x => { x.updSplit (1 - slot) note with
          pool := x.pool.map (fun e => (e.1, match e.2 with
            | .spilled sp o n t => .spilled (note sp) o n t
            | p => p)) })
      s.updSpl g slot (fun sp => { sp with haz := (new ++ sp.haz).filter (fun h => sp.dist < h.at_ + max h.need h.needX) })

/-- A split that single-steps takes its trap after the word, while bit 0 of STEP is set; one that waits inside the word, after it has gone on (R385). -/
def stepTrap (s : State) (g slot : Nat) (sp0 : Split) : State :=
  let x := s.grp g
  match x.split slot with
  | none => s
  | some sp =>
    if !sp0.step || !x.trap.step.getLsbD 0 || x.saved.isSome || sp.took != sp0.took || sp.mask &&& sp0.mask == 0 then s
    else if sp.wait.isSome then s.updSpl g slot (fun sp => { sp with step := true })
    else takeTrap s g slot .singleStep 0 0 sp.mask sp.pc sp.hdr

/-- The group issued: its pipe is taken for the word's passes (R96), it is the one whose slot issued last, a matrix word issued under the lease
renews it (R65), and with Y set at its clause's end the group becomes its pipe's youngest (R73, R97). -/
def issued (s : State) (x : Group) (g slot : Nat) (n : NextWord) (c : Clause) (waits same first : Bool) : State :=
  let gone := (s.grp g).ended
  let s := if same && !gone then s.updGrp g (fun x => { x with last := slot }) else s
  let s := s.updCore x.core (fun k => { k with busy := Map.put k.busy x.pipe (s.time + 10 * (x.width / 32)) })
  let s := if n.cls == .matrix && leaseLive s x.core then s.updCore x.core (fun k => { k with lease := some (s.time + 2560) }) else s
  let s := if needsLink x n then s.updDie (dieOf x.core) (fun d => { d with lastReq := s.time }) else s
  let s := if first then s.bumpPerf x 0 1 else s
  if (Header.of c.hdr).y && n.next == n.nextHdr && !waits && !gone then
    s.updCore x.core (fun k => { k with order := k.order.filter (fun h => h != g) ++ [g] })
  else s

/-- The area's image follows its entries while a handler runs (R99). -/
def keepArea (before s : State) (g : Nat) : State :=
  let x := s.grp g
  if x.saved.isSome && !x.ended && decide (x.pool ≠ (before.grp g).pool) then writeArea s g else s

/-- What follows a word's own effect; `before` is the state it began in. -/
def conclude (before s : State) (g slot : Nat) (sp0 : Split) (c : Clause) (n : NextWord) : State :=
  let s := { s with cur := none }
  let x := before.grp g
  let lanes := match (prepare before g slot sp0 c n).cur with
    | some k => writtenLanes (wxOf k (prepare before g slot sp0 c n)) n
    | none => 0
  let waits := (((s.grp g).split slot).map (fun sp => sp.wait.isSome)).getD false
  let table := (s.grp g).saved.isSome == x.saved.isSome
  let same := (((s.grp g).split slot).map (fun sp => sp.took == sp0.took)).getD false && table
  let u := usesOf n.cls n.word n.x sp0.fmt x.width
  let s := if same then settleHazards s g slot sp0 u lanes x else s
  let s := spendErrors s g n u lanes
  stepTrap (keepArea before (issued s x g slot n c waits table (!sp0.resumed)) g) g slot sp0

/-- What a word that cannot issue asks for: its die is to wake if it needs the link (R201), and a MATRIX-class clause whose lease has lapsed
before its first word asks again (R65; log entry 23). -/
def wakeFor (s : State) (g : Nat) (cls : Cls) : State :=
  let d := dieOf (s.grp g).core
  if cls == .matrix then askMatrix s (s.grp g).core
  else askWake s d

/-- A split whose PC names no instruction word of its clause goes on at the header that follows it. -/
def skipClause (s : State) (g slot : Nat) (c : Clause) : State :=
  s.updSpl g slot (fun sp => let a := afterClause sp.hdr (Header.of c.hdr); { sp with pc := a, hdr := a, clause := none })

/-! ### Rotation (R104) -/

/-- The live split in a slot and the oldest spilled split change places (R103, R104). -/
def rotate (s : State) (g slot : Nat) : State :=
  let x := s.grp g
  match x.split slot, x.oldest with
  | some sp, some e =>
    match Map.find x.pool e, areaFail s x e with
    | _, some c => splitStackFail s g c (some e) sp.pc (lowest sp.mask)
    | some (.spilled old _ newer _), none =>
      let now := s.time
      let last := if newer.isNone then none else x.newest
      s.updGrp g (fun x =>
        let x := setNewer (setOlder x newer none) last (some e)
        { x with pool := Map.put x.pool e (.spilled sp.restart last none now), newest := some e, oldest := some (newer.getD e) }.setSplit slot
          (some { old with took := now, idle := now }))
    | _, none => s
  | _, _ => s

/-- When the oldest spilled split was spilled. -/
def Group.oldestAt (x : Group) : Option Nat :=
  x.oldest.bind (fun e => match Map.find x.pool e with
    | some (.spilled _ _ _ t) => some t
    | _ => none)

/-- The slot whose split has held it longer; of two that have held theirs equally long, which R104 leaves open, slot 0 (DESIGN CHOICE, log
entry 50). -/
def Group.longest (x : Group) : Nat :=
  match x.s0, x.s1 with
  | some a, some b => if b.took < a.took then 1 else 0
  | none, some _ => 1
  | _, none => 0

/-- Whether the split in a slot is to be rotated out (R104): it has issued nothing for 4096 clocks though it lost no arbitration, or the
oldest spilled split has waited 65 536 clocks and this one has held its slot longer. A parked split holds its slot (R246). -/
def rotationDue (s : State) (g slot : Nat) : Bool :=
  let x := s.grp g
  match x.split slot, x.oldestAt with
  | some sp, some t =>
    !x.ended && x.resident && sp.wait != some .parked
      && ((sp.idle + 40960 ≤ s.time && !splitReady s g slot) || (t + 655360 ≤ s.time && x.longest == slot))
  | _, _ => false

/-- SPLIT_ROTATION (R104). -/
def execSplitRotation (g slot : Nat) (s : State) : Out := onDevice s (fun t => if rotationDue t g slot then keepArea t (rotate t g slot) g else t)

/-! ### Clocks (R97, R104, R404) -/

/-- Why the split in a slot issues nothing at this clock, by counter index of R404: 2 leave, 3 its header's waits, 4 the scoreboard, 5 a full
matrix queue, 6 a drain, 7 a barrier, 8 arbitration. -/
def stallOf (s : State) (g slot : Nat) (x : Group) (sp : Split) : Option Nat :=
  match sp.wait, sp.clause with
  | some .drain, _ => some 6
  | some (.barrier _ _ _), _ => some 7
  | none, some c =>
    let h := Header.of c.hdr
    match nextWord sp c with
    | none => none
    | some n =>
      let u := usesOf n.cls n.word n.x sp.fmt x.width
      let atHdr := sp.pc == sp.hdr
      if splitReady s g slot then some 8
      else if atHdr && h.cls == some .matrix && headerMet s g x h && !leaseLive s x.core && decide (sp.due ≤ s.time) && wordReady s g x slot sp n then
        some 2
      else if atHdr && !headerMet s g x h then some 3
      else if (scoreboard s g x slot).any (fun e => u.names e.1 e.2) then some 4
      else if n.cls == .matrix && decide (4 ≤ (s.coreOf x.core).mxq.length) then some 5
      else none
  | _, _ => none

/-- A clock in which a resident group issues no pass is counted under the first reason that holds (R404). -/
def countStall (s : State) (g : Nat) (x : Group) : State :=
  let busy := [x.s0, x.s1].any (fun o => (o.map (fun sp => decide (s.time < sp.ran + 10 * (x.width / 32)))).getD false)
  let why := [(0, x.s0), (1, x.s1)].filterMap (fun e => e.2.bind (stallOf s g e.1 x))
  match busy || x.ended || !x.resident, why with
  | false, k :: l => s.bumpPerf x (l.foldl min k) 1
  | _, _ => s

/-- A ready split that has not issued lost arbitration: its 4096 clocks begin again (R104). -/
def Group.lost (s : State) (g : Nat) (x : Group) : Group :=
  let f := fun (k : Nat) (sp : Split) => if splitReady s g k then { sp with idle := s.time + 10 } else sp
  (x.updSplit 0 (f 0)).updSplit 1 (f 1)

/-- A clock passes (R96, R104, R404); every 256 clocks the age orders wrap (R97), and every 1 µs the traffic is sampled (R58, R64). -/
def tick (s : State) : State :=
  let s1 := s.groups.foldl (fun s e => countStall s e.1 e.2) s
  let t := s.time + 10
  let s' := { s1 with time := t, acts := 0, groups := s.groups.map (fun e => (e.1, e.2.lost s e.1)) }
  let s' := if s.time / 2560 != t / 2560 then wrapAll s' else s'
  if s.phase == 0 && s.time / 21000 != t / 21000 then dueNow s' (.remoteTrafficSample []) else s'

end Sys2Proof.Machine
end

