-- ==== Sys2Proof/Machine/Matrix.lean ====
section
/-! DEFINITION. The matrix instructions as they issue (R168, R169, R177 to R180). -/
namespace Sys2Proof.Machine

/-- A register of a matrix operand as it issues; each register of a row is an operand of its own (R80). -/
def Wx.mreg (w : Wx) (k r i : Nat) : LVal := w.lane 1 (32 + k) r i false

/-- `n` registers from `r` in each of the lanes `rows` (R161). -/
def Wx.mrows (w : Wx) (r n : Nat) (rows : List Nat) : List (Nat × List LVal) :=
  rows.map (fun i => (i, (List.range n).map (fun k => w.mreg k (r + k) i)))

/-- The word's entry of the queue. -/
def Wx.mx (w : Wx) (op : MxOp) : MxEntry := { gid := w.g, pc := w.pc, fmt := w.fmt, op := op }

/-- A reserved use of a word whose destinations are blocks from `d` (R169). -/
def mxReserved (w : Wx) (d n : Nat) (s : State) : State :=
  let tasb := w.desc.tasb
  if tasb ≤ d then reservedUse w s
  else mxAccept s (w.mx (.fill d (min (d + n) tasb - d) w.lanes (.bad .malformed)))

/-- The registers that earlier queue entries of the group still write are written first (R81, R173). -/
def syncRegs (s : State) (g : Nat) : State :=
  let pend := (s.coreOf (s.grp g).core).mxq.any (fun e => e.gid == g && (match e.op with
    | .store .. => true
    | .convert .. => true
    | _ => false))
  if pend then drainMx s g else s

/-- A matrix word: its predicate is tested after the registers it reads are written. -/
def matrixWord (pred : BitVec 3) (f : Wx → State → State) (s : State) : Out :=
  onIssuer s (fun c s => laneWord pred f c (syncRegs s c.gid))

/-- Rows of a tile by MCODE (R159). -/
def tileRows (m : BitVec 2) : Nat := 32 * 2 ^ m.toNat

/-- The literal fields that must be zero, by instruction (R168). -/
def mmaZeroBad (op : Nat) (l : MmaLit) : Bool :=
  l.rsv != 0 || (op != 3 && (l.mrec != 0 || l.iacc != 0)) || (op != 2 && l.bmode != 0)
    || (l.sat == 1 && (op == 0 || (op == 3 && l.iacc == 0)))

/-- The reserved uses that are seen before any record is read (R169). -/
def mmaRsv (op : Nat) (wx : Wx) (w : WA) (l : MmaLit) : Bool :=
  let fmt := wx.fmt
  l.mcode == 3 || l.ncode == 0 || wx.W < tileRows l.mcode || wx.desc.tasb < w.d.toNat + l.ncode.toNat
    || (mulK op (l.iacc == 1) (afmtOf fmt) (bfmtOf fmt)).isNone
    || (isFloatMul op (l.iacc == 1) && (rmodeOf (bits fmt.toNat 12 3)).isNone)
    || oddReg w.b.toNat || 64 ≤ w.b.toNat || (op == 3 && oddReg l.mrec.toNat) || mmaZeroBad op l
    || (op == 0 && afmtOf fmt == 3 && oddReg w.a.toNat)

/-- A B record refused by R162. -/
def brecBad (b : Nat) : Bool := bits b 48 16 != 0 || bit b 31 || bits b 0 6 != 0 || (4 ≤ bits b 32 3 && bits b 32 3 != 7)
/-- A metadata record refused by R172. -/
def mrecBad (m : Nat) : Bool := bits m 19 45 != 0 || bits m 0 6 != 0

/-- A request with MJOIN for a peer's B opens a join window at the owner's core, or joins the one that is open, and waits for its delivery; one
that differs from the window's is served alone (R165). The window whose 64 clocks are over closes first. -/
def openJoin (wx : Wx) (b n : Nat) (s : State) : State × Option Nat :=
  if !bit b 35 || 4 ≤ bits b 32 3 then (s, none)
  else
    match rankTeam s wx.x.team wx.team (bits b 32 3) with
    | .error _ => (s, none)
    | .ok u =>
      if u == wx.x.team then (s, none)
      else
        let core := ((Map.find s.teams u).map (·.core)).getD 0
        let key := fun (j : JoinWin) => j.owner == u && j.mtag == bits b 36 12
        let s := closeWhere s (fun _ j => key j && j.due ≤ s.time)
        match (s.coreOf core).joins.find? key with
        | some j =>
          if j.off == bits b 0 19 && j.cstr == bits b 19 12 && j.n == n then
            (s.updCore core (fun c => { c with joins := c.joins.map (fun k => if k.id == j.id then { k with members := k.members ++ [wx.g] } else k) }),
              some j.id)
          else (s, none)
        | none =>
          let j : JoinWin := ⟨u, bits b 36 12, bits b 0 19, bits b 19 12, n, s.time + 640, [wx.g], s.ids⟩
          ({ s with ids := s.ids + 1 }.updCore core (fun c => { c with joins := c.joins ++ [j] }), some j.id)

/-- The multiplies as they issue: `op` 0 `MMA`, 1 `MMAI`, 2 `MMAB`, 3 `MMAS` (R162, R168, R169, R172). -/
def issueMul (op : Nat) (w : WA) (l : MmaLit) (wx : Wx) (s : State) : State :=
  let d := w.d.toNat
  let n := if l.ncode == 0 then 1 else l.ncode.toNat
  let rows := wx.lanes.filter (fun i => i < tileRows l.mcode)
  if mmaRsv op wx w l then mxReserved wx d n s
  else
    match wx.sPair 8 (w.b.toNat % 64), (if op == 3 then wx.sPair 10 l.mrec.toNat else .val 0) with
    | .val b, .val m =>
      if brecBad b || (op == 3 && mrecBad m) then mxReserved wx d n s
      else
        let (s, join) := openJoin wx b n s
        mxAccept s { wx.mx (.mul op d l (wx.mrows w.a.toNat (aRegs op) rows) b m) with join := join }
    | .val b, t => if brecBad b then mxReserved wx d n s else mxAccept s (wx.mx (.fill d n rows t))
    | t, .val m => if op == 3 && mrecBad m then mxReserved wx d n s else mxAccept s (wx.mx (.fill d n rows t))
    | t, _ => mxAccept s (wx.mx (.fill d n rows t))

/-- `MMA` (R168 to R171). -/
def execMma (w : WA) (l : MmaLit) (s : State) : Out := matrixWord w.pred (issueMul 0 w l) s
/-- `MMAI` (R168 to R171). -/
def execMmai (w : WA) (l : MmaLit) (s : State) : Out := matrixWord w.pred (issueMul 1 w l) s
/-- `MMAB` (R168 to R171). -/
def execMmab (w : WA) (l : MmaLit) (s : State) : Out := matrixWord w.pred (issueMul 2 w l) s
/-- `MMAS` (R168 to R172). -/
def execMmas (w : WA) (l : MmaLit) (s : State) : Out := matrixWord w.pred (issueMul 3 w l) s

/-- `ACLR` (R177). -/
def execAclr (w : WC) (s : State) : Out :=
  matrixWord w.pred (fun wx s =>
    let n := w.imm.toNat % 256
    let d := w.d.toNat
    if n == 0 || 128 < n || 256 ≤ w.imm.toNat || wx.desc.tasb < d + n then mxReserved wx d (if n == 0 then 1 else n) s
    else mxAccept s (wx.mx (.fill d n wx.lanes (.val 0)))) s

/-- `ALD` (R178). -/
def execAld (w : WB) (s : State) : Out :=
  matrixWord w.pred (fun wx s =>
    let n := w.func.toNat % 8 + 1
    let d := w.d.toNat
    if 8 ≤ w.func.toNat || wx.desc.tasb < d + n then mxReserved wx d n s
    else mxAccept s (wx.mx (.load d (wx.mrows w.a.toNat (16 * n) wx.lanes)))) s

/-- The registers from `d` that lie inside the budget receive MALFORMED (R75, R88). -/
def poisonRegs (wx : Wx) (d n : Nat) (s : State) : State :=
  finishLanes false ⟨.v, d, min n (wx.budget - d)⟩ true (fun _ => .val 0) wx s

/-- `AST` (R178). -/
def execAst (w : WB) (s : State) : Out :=
  matrixWord w.pred (fun wx s =>
    let n := w.func.toNat % 8 + 1
    let d := w.d.toNat
    if 8 ≤ w.func.toNat || wx.desc.tasb < w.a.toNat + n || wx.budget < d + 16 * n then poisonRegs wx d (16 * n) (drainMx s wx.g)
    else mxAccept s (wx.mx (.store d w.a.toNat n wx.lanes))) s

/-- `ACVT` (R179). -/
def execAcvt (w : WB) (x : Option XMod) (s : State) : Out :=
  matrixWord w.pred (fun wx s =>
    let m := x.getD plainX
    let n := w.func.toNat % 8 + 1
    let d := w.d.toNat
    let of := ofmtOf wx.fmt
    let code := if m.rnd == 7 then bits wx.fmt.toNat 12 3 else m.rnd.toNat
    let rounds := of != 2 && of != 3
    match cvtRegs of n with
    | none => reservedUse wx s
    | some k =>
      if !modOk { rnd := true } m || ((rounds || m.rnd != 7) && (rmodeOf code).isNone) || 16 ≤ w.func.toNat
          || wx.desc.tasb < w.a.toNat + n || (of == 3 && oddReg d) || wx.budget < d + k then
        poisonRegs wx d k (drainMx s wx.g)
      else mxAccept s (wx.mx (.convert d w.a.toNat n (bit w.func.toNat 3) code wx.lanes))) s

/-- What `ALDS` and `ASTS` refuse (R180). -/
def spBad (wx : Wx) (w : WA) (l : SpLit) : Bool :=
  l.nblk == 0 || wx.desc.tasb < w.d.toNat + l.nblk.toNat || w.a != 0 || 64 ≤ w.b.toNat

/-- `ALDS` (R180). -/
def execAlds (w : WA) (l : SpLit) (s : State) : Out :=
  matrixWord w.pred (fun wx s =>
    let d := w.d.toNat
    let n := if l.nblk == 0 then 1 else l.nblk.toNat
    if spBad wx w l then mxReserved wx d n s
    else
      match wx.sReg 8 w.b.toNat with
      | .val o => if o % 64 != 0 then mxReserved wx d n s else mxAccept s (wx.mx (.alds d o l wx.lanes))
      | t => mxAccept s (wx.mx (.fill d n wx.lanes t))) s

/-- `ASTS` (R180). -/
def execAsts (w : WA) (l : SpLit) (s : State) : Out :=
  matrixWord w.pred (fun wx s =>
    if spBad wx w l then reservedUse wx s
    else
      match wx.sReg 8 w.b.toNat with
      | .val o => if o % 64 != 0 then reservedUse wx s else mxAccept s (wx.mx (.asts w.d.toNat o l wx.lanes))
      | t => flagOperand wx t s) s

end Sys2Proof.Machine
end

