-- ==== Sys2Proof/Machine/System.lean ====
section
/-! DEFINITION. The SYSTEM words (R381 to R384). -/
namespace Sys2Proof.Machine

/-- `TRAP` and `BKPT` (R377, R381): with a nonzero D the word does not trap. -/
def softTrap (kind : TrapKind) (w : WC) (s : State) : Out :=
  onIssuer s (fun c => laneWord w.pred (fun wx s =>
    if w.d != 0 then reservedUse wx s
    else if wx.act == 0 then s
    else takeTrap s c.gid c.slot kind 0 w.imm.toNat wx.act c.next c.nextHdr) c)

/-- `TRAP` (R381). -/
def execTrap (w : WC) (s : State) : Out := softTrap .trap w s
/-- `BKPT` (R381). -/
def execBkpt (w : WC) (s : State) : Out := softTrap .bkpt w s

/-- A privileged word outside a handler takes PRIV, when a lane is active (R376, R377). -/
def privTrap (c : Cur) (wx : Wx) (s : State) : State :=
  if wx.act == 0 then s else takeTrap s c.gid c.slot .priv 0 c.word.toNat wx.act c.pc c.hdr

/-- What keeps a handler from returning (R382). -/
def rteRsv (x : Group) (w : WC) (slot : Nat) : Bool :=
  let lo := (x.saved.map (·.sshw)).getD 0
  w.pred != 7 || w.d != 0 || (x.split (1 - slot)).isSome || x.newest.isSome || x.region.opened
    || x.pool.any (fun e => lo ≤ e.1 && (match e.2 with | .free _ => false | _ => true))

/-- `RTE` (R382). -/
def execRte (w : WC) (s : State) : Out :=
  onIssuer s (fun c => laneWord w.pred (fun wx s =>
    if wx.x.saved.isNone then privTrap c wx s
    else if rteRsv wx.x w c.slot then reservedUse wx s
    else resume s c.gid) c)

/-- The privileged special registers of R378: value and number of words. -/
def privReg (x : Group) (n : Nat) : Option (Nat × Nat) :=
  let f := x.trap
  match n with
  | 0x000 => some (f.treason.toNat, 1)
  | 0x001 => some (f.tdata.toNat, 1)
  | 0x002 => some (f.tpc.toNat, 2)
  | 0x004 => some (f.thdr.toNat, 2)
  | 0x006 => some (f.tfmt.toNat, 1)
  | 0x007 => some (f.tdepth.toNat, 1)
  | 0x008 => some (maskWord x.width f.tmask 0, 1)
  | 0x009 => some (maskWord x.width f.tmask 1, 1)
  | 0x00A => some (maskWord x.width f.tmask 2, 1)
  | 0x00B => some (maskWord x.width f.tmask 3, 1)
  | 0x00C => some (f.opc.toNat, 2)
  | 0x00E => some (f.ohdr.toNat, 2)
  | 0x010 => some (maskWord x.width f.omask 0, 1)
  | 0x011 => some (maskWord x.width f.omask 1, 1)
  | 0x012 => some (maskWord x.width f.omask 2, 1)
  | 0x013 => some (maskWord x.width f.omask 3, 1)
  | 0x014 => some (f.ostate.toNat, 1)
  | 0x016 => some (f.sstate.toNat, 1)
  | 0x017 => some (f.step.toNat, 1)
  | _ => none

/-- `SREADP` (R383). -/
def execSreadp (w : WS) (s : State) : Out :=
  onIssuer s (fun c => scalarWord w.qual (fun wx s =>
    if wx.x.saved.isNone then privTrap c wx s
    else
      match privReg wx.x (specialNo w) with
      | some (v, n) =>
        if n == 2 && oddReg w.sd.toNat then finishS true w.sd.toNat 1 (.bad .malformed) wx s
        else finishS true w.sd.toNat n (if w.sub != 0 then .bad .malformed else .val v) wx s
      | none => finishS true w.sd.toNat 1 (.bad .malformed) wx s) c)

/-- A write of one of the RW registers of R378. -/
def TrapFrame.write (f : TrapFrame) (n v : Nat) : TrapFrame :=
  match n with
  | 0x002 => { f with tpc := BitVec.ofNat 64 (v / 4 * 4) }
  | 0x004 => { f with thdr := BitVec.ofNat 64 (v / 4 * 4) }
  | 0x006 => { f with tfmt := fmtOfBits v }
  | 0x017 => { f with step := BitVec.ofNat 32 (v % 2) }
  | _ => f

/-- `SWRITEP` (R383): a poisoned source leaves the register and flags; a pair begins at an even register (R135). -/
def execSwritep (w : WS) (s : State) : Out :=
  onIssuer s (fun c => scalarWord w.qual (fun wx s =>
    let n := specialNo w
    let wide := n == 0x002 || n == 0x004
    if wx.x.saved.isNone then privTrap c wx s
    else if w.sub != 0 || !(wide || n == 0x006 || n == 0x017) || (wide && oddReg w.sd.toNat) then reservedUse wx s
    else
      match (if wide then wx.sPair 0 w.sd.toNat else wx.sReg 0 w.sd.toNat) with
      | .val v => s.updGrp wx.g (fun x => { x with trap := x.trap.write n v })
      | r => flagOperand wx r s) c)

/-- The group ends by `HALTG`: no commit; the code of the kernel's first is kept (R384, R402). -/
def haltGroup (s : State) (g code : Nat) : State :=
  let s := match s.teamOf (s.grp g) with
    | some t => s.updGrid t.grid (fun r => { r with hcode := some (r.hcode.getD code) })
    | none => s
  endGroup s g (some 1)

/-- `HALTG` (R384). -/
def execHaltg (w : WC) (s : State) : Out :=
  onIssuer s (fun c => laneWord w.pred (fun wx s =>
    if 256 ≤ w.imm.toNat || w.d != 0 then reservedUse wx s
    else if wx.act == 0 then s
    else haltGroup s c.gid w.imm.toNat) c)

end Sys2Proof.Machine
end

