-- ==== Sys2Proof/Machine/Dispatch.lean ====
section
/-! DEFINITION. One arm per instruction. -/
namespace Sys2Proof.Machine

/-- The meaning of an instruction: a direct call of its own definition. -/
def exec (i : Instr) (s : State) : Host.Outcome State Fault Refusal :=
  match i with
  | .vadd w x => Sys2Proof.Machine.execVadd w x s
  | .vsub w x => Sys2Proof.Machine.execVsub w x s
  | .vmul w x => Sys2Proof.Machine.execVmul w x s
  | .vmulh w x => Sys2Proof.Machine.execVmulh w x s
  | .vmad w x => Sys2Proof.Machine.execVmad w x s
  | .vand w x => Sys2Proof.Machine.execVand w x s
  | .vor w x => Sys2Proof.Machine.execVor w x s
  | .vxor w x => Sys2Proof.Machine.execVxor w x s
  | .vshl w x => Sys2Proof.Machine.execVshl w x s
  | .vshr w x => Sys2Proof.Machine.execVshr w x s
  | .vsar w x => Sys2Proof.Machine.execVsar w x s
  | .vmin w x => Sys2Proof.Machine.execVmin w x s
  | .vmax w x => Sys2Proof.Machine.execVmax w x s
  | .vabs w x => Sys2Proof.Machine.execVabs w x s
  | .vpopc w x => Sys2Proof.Machine.execVpopc w x s
  | .vclz w x => Sys2Proof.Machine.execVclz w x s
  | .vbrev w x => Sys2Proof.Machine.execVbrev w x s
  | .vbfe w x => Sys2Proof.Machine.execVbfe w x s
  | .vbfi w x => Sys2Proof.Machine.execVbfi w x s
  | .vcmp w x => Sys2Proof.Machine.execVcmp w x s
  | .vsel w x => Sys2Proof.Machine.execVsel w x s
  | .vmov w x => Sys2Proof.Machine.execVmov w x s
  | .vldi w l => Sys2Proof.Machine.execVldi w l s
  | .vadd64 w x => Sys2Proof.Machine.execVadd64 w x s
  | .vmad64 w x => Sys2Proof.Machine.execVmad64 w x s
  | .fadd w x => Sys2Proof.Machine.execFadd w x s
  | .fsub w x => Sys2Proof.Machine.execFsub w x s
  | .fmul w x => Sys2Proof.Machine.execFmul w x s
  | .ffma w x => Sys2Proof.Machine.execFfma w x s
  | .fmin w x => Sys2Proof.Machine.execFmin w x s
  | .fmax w x => Sys2Proof.Machine.execFmax w x s
  | .fcmp w x => Sys2Proof.Machine.execFcmp w x s
  | .fdiv w x => Sys2Proof.Machine.execFdiv w x s
  | .fsqrt w x => Sys2Proof.Machine.execFsqrt w x s
  | .frcp w x => Sys2Proof.Machine.execFrcp w x s
  | .frsq w x => Sys2Proof.Machine.execFrsq w x s
  | .fexp2 w x => Sys2Proof.Machine.execFexp2 w x s
  | .flog2 w x => Sys2Proof.Machine.execFlog2 w x s
  | .fsin w x => Sys2Proof.Machine.execFsin w x s
  | .fcos w x => Sys2Proof.Machine.execFcos w x s
  | .dadd w x => Sys2Proof.Machine.execDadd w x s
  | .dmul w x => Sys2Proof.Machine.execDmul w x s
  | .dfma w x => Sys2Proof.Machine.execDfma w x s
  | .hadd2 w x => Sys2Proof.Machine.execHadd2 w x s
  | .hmul2 w x => Sys2Proof.Machine.execHmul2 w x s
  | .hfma2 w x => Sys2Proof.Machine.execHfma2 w x s
  | .fcvt w x => Sys2Proof.Machine.execFcvt w x s
  | .fpack w x => Sys2Proof.Machine.execFpack w x s
  | .funpk w x => Sys2Proof.Machine.execFunpk w x s
  | .vshfl w x => Sys2Proof.Machine.execVshfl w x s
  | .vvoteAll w x => Sys2Proof.Machine.execVvoteAll w x s
  | .vvoteAny w x => Sys2Proof.Machine.execVvoteAny w x s
  | .vvoteUni w x => Sys2Proof.Machine.execVvoteUni w x s
  | .vvoteBallot w x => Sys2Proof.Machine.execVvoteBallot w x s
  | .vvoteCount w x => Sys2Proof.Machine.execVvoteCount w x s
  | .vvoteLaneid w x => Sys2Proof.Machine.execVvoteLaneid w x s
  | .vred w x => Sys2Proof.Machine.execVred w x s
  | .vscan w x => Sys2Proof.Machine.execVscan w x s
  | .pand w => Sys2Proof.Machine.execPand w s
  | .por w => Sys2Proof.Machine.execPor w s
  | .pxor w => Sys2Proof.Machine.execPxor w s
  | .pnot w => Sys2Proof.Machine.execPnot w s
  | .pmov w => Sys2Proof.Machine.execPmov w s
  | .sadd w => Sys2Proof.Machine.execSadd w s
  | .ssub w => Sys2Proof.Machine.execSsub w s
  | .smul w => Sys2Proof.Machine.execSmul w s
  | .smin w => Sys2Proof.Machine.execSmin w s
  | .smax w => Sys2Proof.Machine.execSmax w s
  | .smov w => Sys2Proof.Machine.execSmov w s
  | .sminU w => Sys2Proof.Machine.execSminU w s
  | .smaxU w => Sys2Proof.Machine.execSmaxU w s
  | .sand w => Sys2Proof.Machine.execSand w s
  | .sor w => Sys2Proof.Machine.execSor w s
  | .sxor w => Sys2Proof.Machine.execSxor w s
  | .sshl w => Sys2Proof.Machine.execSshl w s
  | .sshr w => Sys2Proof.Machine.execSshr w s
  | .ssar w => Sys2Proof.Machine.execSsar w s
  | .smad w x => Sys2Proof.Machine.execSmad w x s
  | .sldi w l => Sys2Proof.Machine.execSldi w l s
  | .scmp w => Sys2Proof.Machine.execScmp w s
  | .ssel w => Sys2Proof.Machine.execSsel w s
  | .sread w => Sys2Proof.Machine.execSread w s
  | .swrite w => Sys2Proof.Machine.execSwrite w s
  | .fmtset w => Sys2Proof.Machine.execFmtset w s
  | .fmtsetLit w l => Sys2Proof.Machine.execFmtsetLit w l s
  | .fmtget w => Sys2Proof.Machine.execFmtget w s
  | .nop w => Sys2Proof.Machine.execNop w s
  | .bra w l => Sys2Proof.Machine.execBra w l s
  | .bru w => Sys2Proof.Machine.execBru w s
  | .brx w l => Sys2Proof.Machine.execBrx w l s
  | .call w => Sys2Proof.Machine.execCall w s
  | .callx w => Sys2Proof.Machine.execCallx w s
  | .ret w => Sys2Proof.Machine.execRet w s
  | .join w => Sys2Proof.Machine.execJoin w s
  | .exit w => Sys2Proof.Machine.execExit w s
  | .yieldw w => Sys2Proof.Machine.execYieldw w s
  | .role w => Sys2Proof.Machine.execRole w s
  | .region w l => Sys2Proof.Machine.execRegion w l s
  | .commitRel w => Sys2Proof.Machine.execCommitRel w s
  | .commitRpl w => Sys2Proof.Machine.execCommitRpl w s
  | .commitFwd w => Sys2Proof.Machine.execCommitFwd w s
  | .commit w => Sys2Proof.Machine.execCommit w s
  | .pchk w => Sys2Proof.Machine.execPchk w s
  | .pchkP w => Sys2Proof.Machine.execPchkP w s
  | .pchkS w => Sys2Proof.Machine.execPchkS w s
  | .pchkReg w => Sys2Proof.Machine.execPchkReg w s
  | .pchkOrph w => Sys2Proof.Machine.execPchkOrph w s
  | .pinfo w => Sys2Proof.Machine.execPinfo w s
  | .pset w => Sys2Proof.Machine.execPset w s
  | .psetS w => Sys2Proof.Machine.execPsetS w s
  | .pclr w => Sys2Proof.Machine.execPclr w s
  | .pclrS w => Sys2Proof.Machine.execPclrS w s
  | .pclrTab w => Sys2Proof.Machine.execPclrTab w s
  | .mma w l => Sys2Proof.Machine.execMma w l s
  | .mmai w l => Sys2Proof.Machine.execMmai w l s
  | .mmab w l => Sys2Proof.Machine.execMmab w l s
  | .mmas w l => Sys2Proof.Machine.execMmas w l s
  | .aclr w => Sys2Proof.Machine.execAclr w s
  | .ald w => Sys2Proof.Machine.execAld w s
  | .ast w => Sys2Proof.Machine.execAst w s
  | .acvt w x => Sys2Proof.Machine.execAcvt w x s
  | .alds w l => Sys2Proof.Machine.execAlds w l s
  | .asts w l => Sys2Proof.Machine.execAsts w l s
  | .ld w l => Sys2Proof.Machine.execLd w l s
  | .st w l => Sys2Proof.Machine.execSt w l s
  | .ldu w l => Sys2Proof.Machine.execLdu w l s
  | .ldc w l => Sys2Proof.Machine.execLdc w l s
  | .atom w l => Sys2Proof.Machine.execAtom w l s
  | .red w l => Sys2Proof.Machine.execRed w l s
  | .pref w l => Sys2Proof.Machine.execPref w l s
  | .xlate w => Sys2Proof.Machine.execXlate w s
  | .xinfo w => Sys2Proof.Machine.execXinfo w s
  | .cpyG2s w l => Sys2Proof.Machine.execCpyG2s w l s
  | .cpyS2g w l => Sys2Proof.Machine.execCpyS2g w l s
  | .cpyS2p w l => Sys2Proof.Machine.execCpyS2p w l s
  | .gather w l => Sys2Proof.Machine.execGather w l s
  | .scatter w l => Sys2Proof.Machine.execScatter w l s
  | .wait w => Sys2Proof.Machine.execWait w s
  | .cnt w => Sys2Proof.Machine.execCnt w s
  | .xfence w => Sys2Proof.Machine.execXfence w s
  | .getwork w => Sys2Proof.Machine.execGetwork w s
  | .getworkNw w => Sys2Proof.Machine.execGetworkNw w s
  | .spawn w l => Sys2Proof.Machine.execSpawn w l s
  | .stmc w l => Sys2Proof.Machine.execStmc w l s
  | .redmc w l => Sys2Proof.Machine.execRedmc w l s
  | .tdesc w l => Sys2Proof.Machine.execTdesc w l s
  | .texp w l => Sys2Proof.Machine.execTexp w l s
  | .tback w l => Sys2Proof.Machine.execTback w l s
  | .treuse w => Sys2Proof.Machine.execTreuse w s
  | .tnode w => Sys2Proof.Machine.execTnode w s
  | .tnodeLink w => Sys2Proof.Machine.execTnodeLink w s
  | .barArv w => Sys2Proof.Machine.execBarArv w s
  | .barWait w => Sys2Proof.Machine.execBarWait w s
  | .barSync w => Sys2Proof.Machine.execBarSync w s
  | .barq w => Sys2Proof.Machine.execBarq w s
  | .fenceAcq w => Sys2Proof.Machine.execFenceAcq w s
  | .fenceRel w => Sys2Proof.Machine.execFenceRel w s
  | .fenceFull w => Sys2Proof.Machine.execFenceFull w s
  | .sigSet w l => Sys2Proof.Machine.execSigSet w l s
  | .sigAdd w l => Sys2Proof.Machine.execSigAdd w l s
  | .sigSetRet w l => Sys2Proof.Machine.execSigSetRet w l s
  | .sigAddRet w l => Sys2Proof.Machine.execSigAddRet w l s
  | .sigw w => Sys2Proof.Machine.execSigw w s
  | .fork w => Sys2Proof.Machine.execFork w s
  | .choose w => Sys2Proof.Machine.execChoose w s
  | .viewId w => Sys2Proof.Machine.execViewId w s
  | .viewRival w => Sys2Proof.Machine.execViewRival w s
  | .viewDepth w => Sys2Proof.Machine.execViewDepth w s
  | .viewParent w => Sys2Proof.Machine.execViewParent w s
  | .viewLog w => Sys2Proof.Machine.execViewLog w s
  | .viewSect w => Sys2Proof.Machine.execViewSect w s
  | .viewDec w => Sys2Proof.Machine.execViewDec w s
  | .trap w => Sys2Proof.Machine.execTrap w s
  | .bkpt w => Sys2Proof.Machine.execBkpt w s
  | .rte w => Sys2Proof.Machine.execRte w s
  | .sreadp w => Sys2Proof.Machine.execSreadp w s
  | .swritep w => Sys2Proof.Machine.execSwritep w s
  | .haltg w => Sys2Proof.Machine.execHaltg w s
  | .launch p kdesc argp teams prio => Sys2Proof.Machine.execLaunch p kdesc argp teams prio s
  | .nodeFeed p ntab raddr count node last => Sys2Proof.Machine.execNodeFeed p ntab raddr count node last s
  | .signalSet p value sig op => Sys2Proof.Machine.execSignalSet p value sig op s
  | .signalWait p cmpv sig cond tmo => Sys2Proof.Machine.execSignalWait p cmpv sig cond tmo s
  | .signalWaitTimeout c q idx => Sys2Proof.Machine.execSignalWaitTimeout c q idx s
  | .copy p src dst bytes => Sys2Proof.Machine.execCopy p src dst bytes s
  | .preemptSave p force drain => Sys2Proof.Machine.execPreemptSave p force drain s
  | .preemptRestore p => Sys2Proof.Machine.execPreemptRestore p s
  | .nopPacket p => Sys2Proof.Machine.execNopPacket p s
  | .coachhouseEvent => Sys2Proof.Machine.execCoachhouseEvent s
  | .replayServiceAnswer g done => Sys2Proof.Machine.execReplayServiceAnswer g done s
  | .faultLimitExpiry g => Sys2Proof.Machine.execFaultLimitExpiry g s
  | .deathNotice peer => Sys2Proof.Machine.execDeathNotice peer s
  | .dispatchPass pid => Sys2Proof.Machine.execDispatchPass pid s
  | .remoteTrafficSample l => Sys2Proof.Machine.execRemoteTrafficSample l s
  | .binTimerLapse grid node => Sys2Proof.Machine.execBinTimerLapse grid node s
  | .binAdmit grid node => Sys2Proof.Machine.execBinAdmit grid node s
  | .nodeEndToken grid node => Sys2Proof.Machine.execNodeEndToken grid node s
  | .leaveGrant die => Sys2Proof.Machine.execLeaveGrant die s
  | .matrixLeaseLapse core => Sys2Proof.Machine.execMatrixLeaseLapse core s
  | .clauseFetch g slot => Sys2Proof.Machine.execClauseFetch g slot s
  | .ageWrap core pipe => Sys2Proof.Machine.execAgeWrap core pipe s
  | .splitRotation g slot => Sys2Proof.Machine.execSplitRotation g slot s
  | .variableResultWrite g k => Sys2Proof.Machine.execVariableResultWrite g k s
  | .matrixQueueExecute core => Sys2Proof.Machine.execMatrixQueueExecute core s
  | .joinWindowClose core tag => Sys2Proof.Machine.execJoinWindowClose core tag s
  | .asyncOpComplete g path k lane => Sys2Proof.Machine.execAsyncOpComplete g path k lane s
  | .invalidationAck line core => Sys2Proof.Machine.execInvalidationAck line core s
  | .hitchLineReturn line => Sys2Proof.Machine.execHitchLineReturn line s
  | .linkSleep die => Sys2Proof.Machine.execLinkSleep die s
  | .wakeBeacon die => Sys2Proof.Machine.execWakeBeacon die s
  | .wakeHoldTimeout die => Sys2Proof.Machine.execWakeHoldTimeout die s
  | .dieDeclaredDead die => Sys2Proof.Machine.execDieDeclaredDead die s
  | .dieFenceCommand die => Sys2Proof.Machine.execDieFenceCommand die s
  | .dieTestComplete die pass => Sys2Proof.Machine.execDieTestComplete die pass s
  | .coldStart => Sys2Proof.Machine.execColdStart s
  | .warmStart => Sys2Proof.Machine.execWarmStart s
  | .barrierWatchdog g slot => Sys2Proof.Machine.execBarrierWatchdog g slot s
  | .contextWatchdog g slot => Sys2Proof.Machine.execContextWatchdog g slot s
  | .abandonGraceExpiry c => Sys2Proof.Machine.execAbandonGraceExpiry c s
  | .drainLimit c dev => Sys2Proof.Machine.execDrainLimit c dev s
  | .drainComplete c dev => Sys2Proof.Machine.execDrainComplete c dev s
  | .saveAreaWriteout c dev fits => Sys2Proof.Machine.execSaveAreaWriteout c dev fits s
  | .restorePlacement c dev => Sys2Proof.Machine.execRestorePlacement c dev s
  | .teamRetire t => Sys2Proof.Machine.execTeamRetire t s
  | .gridRetire grid => Sys2Proof.Machine.execGridRetire grid s
  | .landauReclaim k n => Sys2Proof.Machine.execLandauReclaim k n s
  | .remoteInboundRequest r => Sys2Proof.Machine.execRemoteInboundRequest r s
  | .multicastCopyArrival r => Sys2Proof.Machine.execMulticastCopyArrival r s
  | .reductionInstanceComplete gid off n others => Sys2Proof.Machine.execReductionInstanceComplete gid off n others s
  | .multicastAckReturn g k sts => Sys2Proof.Machine.execMulticastAckReturn g k sts s
  | .fabricResend g k => Sys2Proof.Machine.execFabricResend g k s
  | .fabricPortSilence peer plane => Sys2Proof.Machine.execFabricPortSilence peer plane s
  | .waitDeadline g slot => Sys2Proof.Machine.execWaitDeadline g slot s
  | .barWaitDeadline g slot => Sys2Proof.Machine.execBarWaitDeadline g slot s
  | .sigwDeadline g slot => Sys2Proof.Machine.execSigwDeadline g slot s
  | .storeCompletion g k => Sys2Proof.Machine.execStoreCompletion g k s
  | .copyCompletion c q idx => Sys2Proof.Machine.execCopyCompletion c q idx s
  | .contextCreate r => Sys2Proof.Machine.execContextCreate r s
  | .partitionCreate port r => Sys2Proof.Machine.execPartitionCreate port r s
  | .partitionRewrite port r => Sys2Proof.Machine.execPartitionRewrite port r s
  | .partitionDelete port pid => Sys2Proof.Machine.execPartitionDelete port pid s
  | .quotaWrite c r => Sys2Proof.Machine.execQuotaWrite c r s
  | .clusterMapRead port die => Sys2Proof.Machine.execClusterMapRead port die s
  | .peerNumberRead fn => Sys2Proof.Machine.execPeerNumberRead fn s
  | .reachMaskSet c m => Sys2Proof.Machine.execReachMaskSet c m s
  | .groupMaskSet c m => Sys2Proof.Machine.execGroupMaskSet c m s
  | .inboundWindowWrite c w r => Sys2Proof.Machine.execInboundWindowWrite c w r s
  | .retirementRecordRead fn q idx => Sys2Proof.Machine.execRetirementRecordRead fn q idx s
  | .perfCounterRead c core n => Sys2Proof.Machine.execPerfCounterRead c core n s
  | .viewTableRead fn v => Sys2Proof.Machine.execViewTableRead fn v s
  | .abandonRequest c => Sys2Proof.Machine.execAbandonRequest c s
  | .peerStateWrite peer v => Sys2Proof.Machine.execPeerStateWrite peer v s
  | .multicastTableInstall spine sw gid r => Sys2Proof.Machine.execMulticastTableInstall spine sw gid r s
  | .recoverySlotWrite slot port => Sys2Proof.Machine.execRecoverySlotWrite slot port s
  | .packageStop what region => Sys2Proof.Machine.execPackageStop what region s
  | .hostApertureAccess c r => Sys2Proof.Machine.execHostApertureAccess c r s
  | .doorbell c q v => Sys2Proof.Machine.execDoorbell c q v s
  | .qctlResume c q => Sys2Proof.Machine.execQctlResume c q s
  | .qctlReset c q => Sys2Proof.Machine.execQctlReset c q s
  | .qcfgWrite c q v => Sys2Proof.Machine.execQcfgWrite c q v s
  | .registerWrite c q off v => Sys2Proof.Machine.execRegisterWrite c q off v s
  | .signalWindowAcquire c n => Sys2Proof.Machine.execSignalWindowAcquire c n s
  | .signalWindowWrite c n v => Sys2Proof.Machine.execSignalWindowWrite c n v s
  | .pciePortDown port => Sys2Proof.Machine.execPciePortDown port s

end Sys2Proof.Machine
end

