-- ==== Sys2Proof/Machine/Extra.lean ====
section
/-! DEFINITION. What the spec names as happening to the package, or in it, without a row of the opcode table. -/
namespace Sys2Proof.Machine

/-- A release at `.sys` writes its target in host memory through (R273). -/
def writeThrough (s : State) (k : Nat) : State :=
  match Map.find s.hostL2 k with
  | some l => if l.through then s.writeBack k else s
  | none => s

/-- The meaning of such a happening. -/
def extraStep (e : Extra) (s : State) : State :=
  match e with
  | .identityRead p => identityRead p s
  | .failureRead p => failureRead p s
  | .uploadWrite p off n d => uploadWrite p off n d s
  | .saveCore c dev core => saveCore s c dev core
  | .alogWrite c k => alogWrite s c k
  | .logPlay g => playLog s g
  | .viewSweep => sweepViews s
  | .codeFill c k v va => codeFill s c k v va
  | .l2Fill region sec => if 8 ≤ region || s.stackCount * 2 ^ 32 ≤ sec then s else s.l2Fill region sec
  | .evict e => evict s e
  | .error e => errorStep e s
  | .registerRead c q off => registerRead c q off s
  | .signalRead c off size => signalRead c off size s
  | .signalStore c off size v => signalStore c off size v s
  | .hostStore port pa size data poison => s.storeHost port pa size data poison
  | .hostEvict k => s.evictHost k
  | .writeThrough k => writeThrough s k
  | .packetWatchdog c q => packetLapse s c q

end Sys2Proof.Machine
end

