-- ==== Sys2Proof/Machine/Run.lean ====
section
/-! DEFINITION. The machine at work: the issue of a split's next word around its meaning (R71, R87, R96, R97), and which happening
comes next. The spec orders happenings of different agents in no way; of those that may happen, a free value names the next
(log entry 7). -/
namespace Sys2Proof.Machine

/-! ### Issuing a word -/

/-- The instruction runs in the prepared state, and what follows it is done. -/
def runInstr (i : Instr) (before s : State) (g slot : Nat) (sp : Split) (c : Clause) (n : NextWord) : Out :=
  match exec i s with
  | .next t => .next (conclude before t g slot sp c n)
  | .fault f => .fault f
  | .refused r => .refused r

/-- A word 0 that has passed its header's waits has seen the counters that PMASK names (R72, R226). -/
def seeHeader (s : State) (g : Nat) (sp : Split) (c : Clause) : State :=
  let h := Header.of c.hdr
  if sp.pc != sp.hdr then s else ((List.range 6).filter (fun k => h.pmask.getLsbD (5 - k))).foldl (fun s k => seePath s g k) s

/-- A ready split issues a word: the checker of R82 comes before the word's own effect. A word that stands in no class, which no
fetched clause holds, traps as R87 says. -/
def runWord (s : State) (g slot : Nat) (sp : Split) (c : Clause) (n : NextWord) : Out :=
  let before := clearWay (seeHeader s g sp c) g n
  match stallFound (prepare before g slot sp c n) sp n with
  | some (w, f, r) => .next (takeTrap before g slot .stallCheck (ofBool w) (stallData (freeKey before.draws 33 0) f r) sp.mask n.pc sp.hdr)
  | none =>
    match decodeWord n.cls n.word n.x with
    | some i =>
      let before := meetErrors before g slot sp c n
      runInstr i before (prepare before g slot sp c n) g slot sp c n
    | none => .next (takeTrap before g slot .encoding EncReason.opRsv.code 0 sp.mask n.pc sp.hdr)

/-- The split in a slot, its clause fetched, issues its next word if its pipe selects it (R97); otherwise it asks for what it waits for. -/
def issueFetched (s : State) (g slot : Nat) (sp : Split) (c : Clause) : Out :=
  if !selected s g slot then .next (wakeFor s g (((nextWord sp c).map (·.cls)).getD .control))
  else
    match nextWord sp c with
    | none => .next (skipClause s g slot c)
    | some n => runWord s g slot sp c n

/-- The split in a slot fetches its clause if it has none, which takes no issue slot (R72, R87), and issues its next word. -/
def issueAt (s : State) (g slot : Nat) : Out :=
  let s := fetchClause s g slot
  match (s.grp g).split slot with
  | none => .next s
  | some sp =>
    match sp.clause with
    | none => .next s
    | some c => issueFetched s g slot sp c

/-! ### What may happen next -/

/-- A split that cannot go on because its die sleeps, and has not asked it to wake (R201). -/
def wantsLink (s : State) (g slot : Nat) : Bool :=
  let x := s.grp g
  let d := s.dieAt (dieOf x.core)
  d.asleep && d.waking.isNone && !x.ended && x.resident && (match x.split slot with
    | some sp => sp.wait.isNone && (sp.clause.isNone || match sp.clause.bind (nextWord sp) with
        | some n => needsLink x n
        | none => false)
    | none => false)

/-- A split at the header of a MATRIX-class clause whose core holds no lease and has asked for none (R65). -/
def wantsLease (s : State) (g slot : Nat) : Bool :=
  let x := s.grp g
  !x.ended && x.resident && !leaseLive s x.core && !(s.coreOf x.core).asked && (match x.split slot with
    | some sp => sp.wait.isNone && sp.pc == sp.hdr && (sp.clause.map (fun c => (Header.of c.hdr).cls == some .matrix)).getD false
    | none => false)

/-- Issues that the pipes select (R97). -/
def issueChoices (s : State) : List Act :=
  s.cores.flatMap (fun e =>
    if e.2.order.isEmpty then [] else [0, 1, 2, 3].filterMap (fun p => (pipeIssue s e.1 p).map (fun q => Act.issue q.1 q.2)))

/-- A due deadline. -/
def dueBy (s : State) (t : Option Nat) : Bool := (t.map (fun d => decide (d ≤ s.time))).getD false

/-- What the split in a slot may bring about while it waits. -/
def splitChoices (s : State) (g slot : Nat) (x : Group) (sp : Split) : List Act :=
  let fetch := sp.clause.isNone && sp.wait != some .parked && x.resident && !x.ended && !(s.dieAt (dieOf x.core)).asleep
  if fetch || wantsLink s g slot || wantsLease s g slot then [Act.issue g slot] else []

/-- The deadline of a waiting split has come (R227, R278, R294). -/
def endChoices (s : State) (g slot : Nat) (x : Group) (sp : Split) : List Act :=
  if !dueBy s sp.deadline || sp.expired || !x.resident then []
  else
    match sp.wait with
    | some (.path _ _) => [Act.event (.waitDeadline g slot)]
    | some (.barrier _ _ _) => [Act.event (.barWaitDeadline g slot)]
    | some w => if w.isSignal then [Act.event (.sigwDeadline g slot)] else []
    | none => []

/-- The watchdogs that have run out for a split, live, put aside or rotated out (R283, R386). -/
def dogChoices (s : State) (g : Nat) (x : Group) (k : Nat) : List Act :=
  match x.watchedAt k, s.ctxOf x with
  | some sp, some c =>
    (if (lapseAt s g k).isSome then [Act.event (.barrierWatchdog g k)] else [])
      ++ (if unbounded sp && waitedFor s x sp c.cwlog && !c.abandon then [Act.event (.contextWatchdog g k)] else [])
  | _, _ => []

/-- The package's own group members alone: nothing that another package would send is awaited. -/
def soleMember (s : State) (gid : Nat) : Bool := (s.members gid).all (fun m => m.2 == s.peerNo)

/-- What an operation may do: its next unit of work, on a lane of the device's choice, or its acknowledgement (R366). -/
def opChoices (s : State) (g path k lane : Nat) (x : Group) (o : AsyncOp) : List Act :=
  let go := if opReady x o then [Act.event (.asyncOpComplete g path k lane)] else []
  let ack := match o.kind with
    | .mcast _ gid _ _ _ _ => if mcastSettled s g o && soleMember s gid then [Act.event (.multicastAckReturn g k [])] else []
    | _ => []
  go ++ ack

/-- What a group may bring about apart from issuing. -/
def groupChoices (s : State) (lane g : Nat) (x : Group) : List Act :=
  let owed := (List.range x.board.length).map (fun k => Act.event (.variableResultWrite g k))
  let stores := (List.range x.egress.length).map (fun k => Act.event (.storeCompletion g k))
  let ops := x.paths.flatMap (fun p => (p.2.ops.zip (List.range p.2.ops.length)).flatMap (fun e => opChoices s g p.1 e.2 lane x e.1))
  let splits := [(0, x.s0), (1, x.s1)].flatMap (fun e => match e.2 with
    | some sp => splitChoices s g e.1 x sp
    | none => [])
  let parked := match x.parkedSlot.bind x.split with
    | some _ => if !x.asked || x.service.isSome then [] else [Act.event (.replayServiceAnswer g true)]
    | none => []
  let code := if x.resident && !x.ended then
    [Act.extra (.codeFill x.ctx x.core (s.viewOf x) (32 * Config.freeNat (freeKey s.draws 38 lane)))] else []
  owed ++ stores ++ ops ++ splits ++ parked ++ code

/-- What a core's engines may do. -/
def coreChoices (k : Nat) (c : Core) : List Act :=
  match c.mxq with
  | [] => []
  | e :: _ => if e.join.isSome then [] else [Act.event (.matrixQueueExecute k)]

/-- What a launch may do: its nodes' timers, admissions and ends, and its retirement. -/
def gridChoices (s : State) (n : Nat) (r : Grid) : List Act :=
  let nodes := (r.nodes.zip (List.range r.nodes.length)).flatMap (fun e =>
    (if e.1.room then [Act.event (.binAdmit n e.2)] else [])
      ++ (if !e.1.ended && nodeOver s n e.2 e.1 then [Act.event (.nodeEndToken n e.2)] else []))
  nodes ++ (if gridOver s n r then [Act.event (.gridRetire n)] else [])

/-- What a context's queues and devices may do. -/
def ctxChoices (s : State) (c : Nat) (x : Ctx) : List Act :=
  let copies := x.queues.flatMap (fun q => q.2.started.filterMap (fun e => match e.body with
    | .copy _ _ _ _ _ => some (Act.event (.copyCompletion c q.1 e.pkt.idx))
    | _ => none))
  let devs := x.devs.flatMap (fun d =>
    if d.2.state == 1 && (devTeams s c d.1).isEmpty then [Act.event (.drainComplete c d.1)]
    else if d.2.state == 2 then
      let cores := ((devTeams s c d.1).map (fun t => t.2.core)).eraseDups
      ((if cores.isEmpty then [0] else cores).filter (shadowRoom s c d.1)).map (fun k => Act.extra (.saveCore c d.1 k))
        ++ (if d.2.toCopy then [Act.event (.saveAreaWriteout c d.1 (Config.freeBit (freeKey s.draws 41 d.1)))] else [])
    else if d.2.toCopy then [Act.event (.saveAreaWriteout c d.1 (Config.freeBit (freeKey s.draws 41 d.1)))]
    else if d.2.state == 4 then [Act.event (.restorePlacement c d.1)]
    else [])
  copies ++ devs

/-- What the base may do. -/
def baseChoices (s : State) (lane : Nat) : List Act :=
  (if s.coach.isEmpty && (satisfiedQueues s).isEmpty then [] else [Act.event .coachhouseEvent])
    ++ (s.teams.filter (fun e => teamOver s e.2)).map (fun e => Act.event (.teamRetire e.1))
    ++ s.invals.flatMap (fun i => i.pend.map (fun p => Act.event (.invalidationAck i.line p.1)))
    ++ ((s.reclaims.zip (List.range s.reclaims.length)).filter (fun e => reclaimReady s e.1)).map (fun e => Act.event (.landauReclaim e.2 lane))
    ++ (s.dies.filter (fun d => d.2.asleep && d.2.waking.isSome && !d.2.fenced && dieEnabled s.dz860 d.1)).map (fun d => Act.event (.wakeBeacon d.1))
    ++ s.plays.map (fun p => Act.extra (.logPlay p.gid))
    ++ (if s.sweepable then [Act.extra .viewSweep] else [])
    ++ (s.reds.filter (fun r => soleMember s r.gid || (s.members r.gid).any (fun m => (s.peerStatus m.2).isSome))).map (fun r => Act.event (.reductionInstanceComplete r.gid r.off r.n []))

/-- What the caches may do of themselves: take a sector for a reader, replace, and write host-homed lines back or through (R46, R197 to R199,
R273). -/
def cacheChoices (s : State) (lane : Nat) : List Act :=
  let n := Config.freeNat (freeKey s.draws 43 lane)
  let code := (s.ctxs[n % s.ctxs.length]?).map (fun e => Act.extra (.codeFill e.1 (n / 16 % 544) 0 (32 * (n / 2 ^ 14))))
  code.toList ++ [Act.extra (.l2Fill (n % 8) (n / 8 % (s.stackCount * 2 ^ 32)))]
    ++ s.cores.flatMap (fun e => e.2.l1.map (fun b => Act.extra (.evict (.l1 e.1 b.sb))))
    ++ s.l2.map (fun e => Act.extra (.evict (.l2 (e.1 % 8) (e.1 / 8))))
    ++ s.dir.map (fun e => Act.extra (.evict (.dir e.1)))
    ++ s.filters.map (fun e => Act.extra (.evict (.filter (e.1 % 8) (e.1 / 8))))
    ++ s.hostL2.flatMap (fun e => Act.extra (.hostEvict e.1) :: (if e.2.through then [Act.extra (.writeThrough e.1)] else []))

/-- What may happen now and need not, of the machine's own accord. -/
def choices (s : State) : List Act :=
  let lane := Config.freeNat (freeKey s.draws 40 0) % 128
  s.groups.flatMap (fun e => groupChoices s lane e.1 e.2)
    ++ s.cores.flatMap (fun e => coreChoices e.1 e.2)
    ++ s.grids.flatMap (fun e => gridChoices s e.1 e.2)
    ++ s.ctxs.flatMap (fun e => ctxChoices s e.1 e.2)
    ++ baseChoices s lane ++ cacheChoices s lane

/-- What a group's split has waited for as long as anything takes: its clause, and its results. The spec gives no number (log entry 7). -/
def slowChoices (s : State) (g : Nat) (x : Group) : List Act :=
  let late := fun (sp : Split) => decide (sp.due ≤ s.time) && decide (max sp.ran sp.took + Config.latencyBound ≤ s.time)
  let fetch := [(0, x.s0), (1, x.s1)].flatMap (fun e => match e.2 with
    | some sp => if !(splitChoices s g e.1 x sp).isEmpty && sp.clause.isNone && late sp then [Act.issue g e.1] else []
    | none => [])
  let owed := if !x.board.isEmpty && [x.s0, x.s1].all (fun o => (o.map late).getD true) then [Act.event (.variableResultWrite g 0)] else []
  fetch ++ owed

/-- Rotations that are due (R104). -/
def turnChoices (s : State) : List Act :=
  s.groups.flatMap (fun e => [0, 1].filterMap (fun k => if rotationDue s e.1 k then some (Act.event (.splitRotation e.1 k)) else none))

/-- The deadlines and limits of a group that have come (R227, R245, R278, R283, R294, R386). -/
def groupLimits (s : State) (g : Nat) (x : Group) : List Act :=
  let ends := [(0, x.s0), (1, x.s1)].flatMap (fun e => match e.2 with
    | some sp => endChoices s g e.1 x sp
    | none => [])
  let parked := match x.parkedSlot.bind x.split with
    | some sp => if x.asked && x.service.isNone && dueBy s sp.deadline then [Act.event (.faultLimitExpiry g)] else []
    | none => []
  ends ++ parked ++ x.watchNumbers.flatMap (dogChoices s g x)

/-- The limits of a core that have come (R65, R165). -/
def coreLimits (s : State) (k : Nat) (c : Core) : List Act :=
  (if dueBy s c.lease then [Act.event (.matrixLeaseLapse k)] else [])
    ++ (c.joins.filter (fun j => j.due ≤ s.time)).map (fun j => Act.event (.joinWindowClose k j.mtag))

/-- What a die's leave governor does: its oldest request is granted as soon as the headroom covers it (R66). -/
def leaveLimits (s : State) (k : Nat) (d : Die) : List Act :=
  match d.leave with
  | [] => []
  | r :: _ => if r.current ≤ d.room s.time then [Act.event (.leaveGrant k)] else []

/-- A link whose die has made no request for 20 µs, and owes none, sleeps (R201). -/
def sleepDue (s : State) (k : Nat) (d : Die) : Bool := !d.fenced && !d.asleep && dieEnabled s.dz860 k && decide (d.lastReq + 420000 ≤ s.time)

/-- The limits of a die that have come (R66, R201, R202). -/
def dieLimits (s : State) (k : Nat) (d : Die) : List Act :=
  let late := fun (n : Nat) => d.asleep && (d.waking.map (fun t => decide (t + n ≤ s.time))).getD false
  (if late 31500 && !d.flush then [Act.event (.wakeHoldTimeout k)] else [])
    ++ (if late 84000 && !d.fenced && dieEnabled s.dz860 k then [Act.event (.dieDeclaredDead k)] else [])
    ++ (if sleepDue s k d then [Act.event (.linkSleep k)] else []) ++ leaveLimits s k d

/-- The timers of a launch's nodes that have come (R63). -/
def gridLimits (s : State) (n : Nat) (r : Grid) : List Act :=
  (r.nodes.zip (List.range r.nodes.length)).flatMap (fun e => if dueBy s e.1.timerAt then [Act.event (.binTimerLapse n e.2)] else [])

/-- The SIGNAL_WAITs of a context that have come to its watchdog's limit (R40, R386). -/
def ctxLimits (s : State) (c : Nat) (x : Ctx) : List Act :=
  x.queues.flatMap (fun q => if packetLate s x q.2 then [Act.extra (.packetWatchdog c q.1)] else [])

/-- Deadlines and limits that have come. -/
def limits (s : State) : List Act :=
  s.groups.flatMap (fun e => groupLimits s e.1 e.2) ++ s.cores.flatMap (fun e => coreLimits s e.1 e.2)
    ++ s.dies.flatMap (fun e => dieLimits s e.1 e.2) ++ s.grids.flatMap (fun e => gridLimits s e.1 e.2)
    ++ s.ctxs.flatMap (fun e => ctxLimits s e.1 e.2)
    ++ (s.hitch.filter (fun h => h.2 + 210000 ≤ s.time)).map (fun h => Act.event (.hitchLineReturn h.1))

/-- What happens before the clock is over: due rotations (R104), what the pipes issue (R97), the deadlines and limits that have come, and what has
taken as long as it may (R108). The limits of packets stand in the agenda. -/
def forced (s : State) : List Act := turnChoices s ++ issueChoices s ++ limits s ++ s.groups.flatMap (fun e => slowChoices s e.1 e.2)

/-! ### One step -/

/-- Before a happening, the stores that precede what it does perform: to an operation's unit of work those owed to its group, and to the base
those owed to its device (R263). -/
def beforeEvent (i : Instr) (s : State) : State :=
  match i with
  | .asyncOpComplete g _ _ _ => settleOwed s g
  | .storeCompletion _ _ => s
  | _ => settleDevices s

/-- A reduction that 384 operations on its line have passed is served: a word has at most 128 more, and none is passed by more than 512 (R290). -/
def promote (s : State) : State :=
  let old := fun (q : Store) => q.red.isSome && decide (384 ≤ q.passed)
  let has := fun (x : Group) => x.egress.any old || x.paths.any (fun p => p.2.ops.any (fun o => match o.kind with
    | .red qs => qs.any old
    | _ => false))
  s.groups.foldl (fun s e => if has e.2 then drainReds (settleWith s e.1 (fun q => if old q then 5 else 0)) e.1 old else s) s

/-- A happening. -/
def happen (a : Act) (s : State) : Out :=
  match a with
  | .event i => exec i (beforeEvent i (promote s))
  | .issue g slot => issueAt (promote s) g slot
  | .extra e => .next (extraStep e s)

/-- What stands for a happening among those that wait for a die. -/
def Act.writer : Act → Nat
  | .issue g slot => 4 * g + slot
  | .event (.storeCompletion g _) => 4 * g + 2
  | .event (.asyncOpComplete g _ _ _) => 4 * g + 3
  | _ => 2 ^ 64

/-- A happening that has to wait: the snoops that it makes are held by the dies that sleep (R201), or a join window that stands before it is open
(R165). Nothing of it has happened. -/
def holdBack (a : Act) (s : State) (bl : List (Nat × Nat)) : State :=
  bl.foldl (fun s e => if e.1 == joinWait then s else holdSnoop s e.2 a.writer e.1) s

/-- A happening takes place, unless it has to wait; `later` is what is done of one that has to. -/
def orWait (a : Act) (before : State) (later : State → State) (o : Out) : Out :=
  match o with
  | .next t => if t.blocked.isEmpty then .next t else .next (later (holdBack a before t.blocked))
  | o => o

/-- A split whose word has to wait tries again at the next clock. -/
def retry (a : Act) (s : State) : State :=
  match a with
  | .issue g slot => s.updSpl g slot (fun sp => { sp with due := max sp.due (s.time + 10) })
  | _ => s

/-- The clock passes. -/
def passClock (s : State) : State := { tick s with blocked := [] }

/-- How many happenings that nothing binds to a clock fit into it (log entry 7). -/
def perClock : Nat := 64

/-- No input is due: something happens, by a free value, or the clock passes. A clock passes only when what belongs to it has happened, or waits,
and so every clock is passed (R97, R104, R108). -/
def ownStep (s : State) : Out :=
  let must := forced s
  let free := if s.acts < perClock then choices s else []
  let l := free.map some ++ (if must.isEmpty then [none] else must.map some)
  let k := Config.freeNat (freeKey s.draws 39 0) % l.length
  match l[k]? with
  | some (some a) =>
    let t := { s with draws := s.draws + 1, acts := s.acts + 1 }
    orWait a t (fun u => if k < free.length then u else match a with
      | .issue _ _ => retry a u
      | _ => passClock u) (happen a t)
  | _ => .next (passClock { s with draws := s.draws + 1 })

/-- An input that is due happens, or waits for the next clock; otherwise the machine goes on by itself. -/
def stepState (s : State) : Out :=
  match s.agenda with
  | [] => ownStep s
  | d :: rest =>
    if d.at_ ≤ s.time then
      let t := { s with agenda := rest }
      orWait d.act t (fun u => { u with agenda := insertDue u.agenda { d with at_ := s.time + 10 } }) (happen d.act t)
    else ownStep s

end Sys2Proof.Machine
end

