-- ==== Sys2Proof/Machine/Boot.lean ====
section
/-! DEFINITION. One instruction placed where the machine fetches next (log entry 15): a program reaches the package from outside, by
a host that fills memory and launches a kernel, and this stands for that load. A context, a grid of one team of one 32-lane group, and a
clause of the one instruction at the group's entry are put in place, and the group's issue is the next happening. -/
namespace Sys2Proof.Machine

/-- `n` bytes of a number written at a device physical address; their sectors hold no poison and no error. -/
def writePa (s : State) (pa n v : Nat) : State :=
  match devKey s.stackCount pa with
  | some k =>
    { s with
      mem := setCells s.mem k ((List.range n).map (fun i => (i, BitVec.ofNat 8 (v >>> (8 * i)))))
      poisoned := s.poisoned.filter (fun e => e.1 != k / 32)
      l2bad := s.l2bad.filter (fun e => e.1 / 8 != k / 32)
      stackBad := Map.del s.stackBad (k / 32)
      loose := Map.del s.loose (k / 4096) }
  | none => s

/-- The words of a clause that holds one instruction (R69). -/
def clauseOf (c : Code) : List Word :=
  match c.x with
  | none => [headerWord 1 c.cls 0, c.word]
  | some x => [headerWord 2 c.cls 2, c.word, x]

/-- The kernel: 32 lanes, one group to a team, entry 4096 and a handler at 16384 (R23). -/
def bootDesc : Desc :=
  { Desc.blank with
    addr := 0x2000, csize := 256, sspg := 16, qq := 16, tasb := 8, scr := 64, l1u := 2, regs0 := 128, teamg := 1, version := 1, cbase := 0x3000,
    traph := 0x4000, ssbase := 0x100000, entry0 := 0x1000 }

/-- The context: one device, root table at 65536, 1024 signals (R33). -/
def bootCtx : Ctx :=
  newCtx { fn := 0, pid := 0, mode := 1, nsig := 1024, memRestore := false, stchk := false, ptroot := 0x10000, rootlog := 0, hostAtomics := true,
           ftid := 0, bwlog := 40, cwlog := 40, graceUs := 1000000, faultUs := 10000000, diagBase := 0x200000, diagLen := 64,
           alogBase := 0x201000, alogLen := 64, saveBase := 0x202000, saveLen := 4096 } 0

/-- The grid of one team. -/
def bootGrid : Grid :=
  { ctx := 0, dev := 0, pkt := ⟨0, 0, 0, ⟨0, 0, 0, 0, false, 1⟩⟩, ntab := 0, desc := bootDesc, nodes := [], map := [0, 1, 2, 3], argp := 0,
    teams := 1, prio := 0, age := 0, starv := 0, promoted := false, next := 1, retired := 0, shares := [], cond := 0, orph := [],
    hcode := none, bars := [] }

/-- A page table whose one page of 512 MiB maps the first virtual addresses to the same physical ones, writable and executable
(R185 to R187). -/
def bootTable (s : State) : State := writePa (writePa s 0x10000 8 0x11001) 0x11000 8 0x4000000000000003

/-- The clause at the kernel's entry. -/
def bootWords (s : State) (c : Code) : State :=
  let w := clauseOf c
  writePa s 0x1000 (4 * w.length) ((w.zip (List.range w.length)).foldl (fun a e => a + e.1.toNat * 2 ^ (32 * e.2)) 0)

/-- The team and its group on core 0, which holds a matrix lease. -/
def bootTeam (s : State) : State :=
  let n := s.ids
  let t : Team := { Team.blank with grid := n, ctx := 0, desc := bootDesc, groups := [n + 2] }
  let x := startGroup (n + 1) 0 0 0 0 0 bootDesc 0 (firstLanes 32) s.time
  { s with
    ids := n + 3
    parts := Map.put s.parts 0 ⟨0, 1⟩
    ctxs := Map.put s.ctxs 0 bootCtx
    grids := Map.put s.grids n bootGrid
    teams := Map.put s.teams (n + 1) t
    groups := Map.put s.groups (n + 2) x
    cores := Map.put s.cores 0 { Core.zero with l := some 2, clk0 := s.time, lease := some (s.time + 2560), order := [n + 2] }
    dies := Map.put s.dies 0 { Die.idle with headAt := s.time, lastReq := s.time }
    agenda := ⟨s.time, .issue (n + 2) 0⟩ :: s.agenda }

/-- A state in which the very next step fetches and runs the instruction of a code; without a code it is unchanged. -/
def placeCode (s : State) (c : Option Code) : State :=
  match c with
  | some c => bootTeam (bootWords (bootTable { s with phase := 0 }) c)
  | none => s

end Sys2Proof.Machine
end

