-- ==== Sys2Proof/Machine/Step.lean ====
section
/-! DEFINITION. One step of the machine. -/
namespace Sys2Proof.Machine

/-- The step: an input that is due, the issue of a split's word, or another happening. -/
def step (s : State) : Host.Outcome State Fault Refusal := stepState s

/-- The state in which the instruction of a table word is fetched and run by the very next step. -/
def State.withFetchWord (s : State) (nbits w : Nat) : State := placeCode s (tableCode nbits w)

end Sys2Proof.Machine
end

