-- ==== Sys2Proof/Safety.lean ====
section
/-! DEFINITION. The terms that claims use: a run that never stops, a word that is issuing with settled operands, and what it means
that a word leaves the rest of the machine alone. -/
namespace Sys2Proof.Machine

/-! ### Safe runs -/

/-- The states that `n` steps lead to, if no step stops. -/
def runSteps : Nat → State → Option State
  | 0, s => some s
  | n + 1, s =>
    match step s with
    | .next t => runSteps n t
    | .fault _ => none
    | .refused _ => none

/-- A state from which no run stops: every step has a next state. -/
def Safe (s : State) : Prop := ∀ n, (runSteps n s).isSome = true

/-- Both memories are in their canonical form. -/
def CanonicalMemory (s : State) : Prop := Memory.wf s.mem = true ∧ Memory.wf s.hostMem = true

/-! ### Leaving the rest alone -/

/-- Of the machine outside group `g`, a word changes at most what poison bookkeeping changes: side tables, one performance counter, and
a launch's orphan record (R232, R247, R402, R404). -/
structure RestKept (s t : State) (g : Nat) : Prop where
  plain : t = { s with groups := t.groups, cores := t.cores, ctxs := t.ctxs, grids := t.grids }
  groups : ∀ h, h ≠ g → Map.find t.groups h = Map.find s.groups h
  cores : ∀ k, t.coreOf k = { s.coreOf k with side := (t.coreOf k).side, gens := (t.coreOf k).gens, ovf := (t.coreOf k).ovf }
  ctxs : ∀ n c, Map.find s.ctxs n = some c → ∃ p, Map.find t.ctxs n = some { c with perf := p }
  grids : ∀ n r, Map.find s.grids n = some r → ∃ o c, Map.find t.grids n = some { r with orph := o, cond := c }

/-- Every byte of memory reads as before. -/
def MemoryKept (s t : State) : Prop :=
  (∀ v k, t.devSector v k = s.devSector v k) ∧ (∀ a, Map.get Memory.unlisted t.hostMem a = Map.get Memory.unlisted s.hostMem a)

/-! ### A word that is issuing -/

/-- `c` is issuing: its group, on its core, its split and its team are there, and no result of an earlier word stands too close to be
read (R79). -/
structure Issuing (s : State) (c : Cur) (x : Group) (sp : Split) (t : Team) : Prop where
  cur : s.cur = some c
  group : Map.find s.groups c.gid = some x
  split : x.split c.slot = some sp
  team : Map.find s.teams x.team = some t
  resident : x.resident = true
  settled : sp.haz = []

/-- Lane `i` is active under predicate `p` (R98): it is in the split's mask and its predicate is true and not poisoned. -/
def active (x : Group) (sp : Split) (p i : Nat) : Bool := inMask sp.mask i && x.rdP p i == ⟨1, false⟩

/-- No lane of the split holds poison in predicate `p`. -/
def CleanPred (x : Group) (sp : Split) (p : Nat) : Prop := ∀ i, inMask sp.mask i = true → (x.rdP p i).poison = false

/-- Registers `r` to `r + n − 1` lie inside the group's budget (R75). -/
def InBudget (x : Group) (t : Team) (r n : Nat) : Prop := r + n ≤ budget t.desc x.role

/-- A scalar word's qualifier lets it act (R98): 7, or a uniform predicate that holds 1 and is not poisoned. -/
def qualified (x : Group) (q : Nat) : Prop := q = 7 ∨ x.rdQ q = ⟨1, false⟩

/-- A register of a file: lane `i` of it for lane registers and predicates. -/
def Group.rd (x : Group) (f : RFile) (r i : Nat) : Val :=
  match f with
  | .v => x.rdV r i
  | .p => x.rdP r i
  | .s => x.rdS r
  | .q => x.rdQ r
  | .fmt => Val.zero
  | .mark => ⟨x.mark, false⟩

/-- What a result leaves in word `k` of its destination: a value's bits, an inherited token, or a new token of its cause (R230, R231). -/
def Leaves (r : LVal) (k : Nat) (v : Val) : Prop :=
  match r with
  | .val n => v = ⟨BitVec.ofNat 32 (n >>> (32 * k)), false⟩
  | .tok t => v = ⟨t, true⟩
  | .new f => v.poison = true ∧ v.bits.toNat / 2 ^ 24 = f.cause.code
  | .beside (some t) => v = ⟨t, true⟩
  | .beside none => v.poison = true ∧ v.bits.toNat / 2 ^ 24 = Cause.code .malformed

/-- Register `r` of file `f`, lane `j`, is one that a word writes. -/
def written (on : Nat → Bool) (d : VDest) (f : RFile) (r j : Nat) : Bool := f == d.file && d.reg ≤ r && r < d.reg + d.n && on j

/-- The writes of a word: its results stand in its destination, in the lanes that it acts on, and every other register keeps its value. -/
structure WritesOf (x : Group) (on : Nat → Bool) (d : VDest) (res : Nat → LVal) (ws : List RegWrite) : Prop where
  dest : ∀ f r j, j < 128 → written on d f r j = true → Leaves (res j) (r - d.reg) ((x.wrAll ws).rd f r j)
  rest : ∀ f r j, j < 128 → written on d f r j = false → (x.wrAll ws).rd f r j = x.rd f r j
  files : x.wrAll ws = { x with v := (x.wrAll ws).v, s := (x.wrAll ws).s, p := (x.wrAll ws).p, q := (x.wrAll ws).q }

/-- A group after the writes of a fixed-latency word, or owing those of a variable-latency one (R79, R81). -/
def Group.after (x : Group) (late : Bool) (ws : List RegWrite) : Group :=
  if late then (if ws.isEmpty then x else { x with board := x.board ++ [ws] }) else x.wrAll ws

/-- The instruction completes: its results are written, or owed, and nothing else changes but what new tokens change. -/
def Results (i : Instr) (s : State) (g : Nat) (x : Group) (late : Bool) (on : Nat → Bool) (d : VDest) (res : Nat → LVal) : Prop :=
  ∃ t ws, exec i s = .next t ∧ RestKept s t g ∧ Map.find t.groups g = some (x.after late ws) ∧ WritesOf x on d res ws

end Sys2Proof.Machine
end

