-- ==== Sys2Proof/Certificates/Slice0/Obligations.lean ====
section
/-! DEFINITION. The statements about the machine, from the spec's numbered rules. -/
namespace Sys2Proof.Machine

/-! ### Words used in the statements -/

/-- A 32-bit number as unsigned, or as two's complement. -/
def asInt (u : Bool) (a : Nat) : Int := if u then (a : Int) else (BitVec.ofNat 32 a).toInt

/-- A 64-bit number as unsigned, or as two's complement. -/
def asInt64 (u : Bool) (a : Nat) : Int := if u then (a : Int) else (BitVec.ofNat 64 a).toInt

/-- An exact result in `n` bits: wrapped, or clamped to the signed or unsigned range (R134). -/
def narrowed (n : Nat) (sat u : Bool) (r : Int) : Nat :=
  if sat then
    if u then (max 0 (min (2 ^ n - 1) r)).toNat else (BitVec.ofInt n (max (-2 ^ (n - 1)) (min (2 ^ (n - 1) - 1) r))).toNat
  else (BitVec.ofInt n r).toNat

/-- A function of words on the numbers of two 32-bit registers. -/
def onWords (f : Word → Word → Word) (a b : Nat) : Nat := (f (BitVec.ofNat 32 a) (BitVec.ofNat 32 b)).toNat

/-- One lane's result of a two-source word: reserved fields poison it, else the first source that is no value is the result (R88, R231). -/
def result2 (ok : Bool) (a b : LVal) (f : Nat → Nat → LVal) : LVal := if ok then lift2 a b f else .bad .malformed

/-- One lane's result of a one-source word, and of a three-source word. -/
def result1 (ok : Bool) (a : LVal) (f : Nat → LVal) : LVal := if ok then lift1 a f else .bad .malformed
def result3 (ok : Bool) (a b z : LVal) (f : Nat → Nat → Nat → LVal) : LVal := if ok then lift3 a b z f else .bad .malformed

/-- A pair begins at an even register (R135). -/
def even (r : BitVec 7) : Bool := r.toNat % 2 == 0

/-- The rounding mode a word names: RND 0 to 3, or FMT's RMODE for RND 7 (R124). -/
def modeOf (sp : Split) (m : XMod) : Option RMode := rmodeOf (if m.rnd = 7 then (sp.fmt.extractLsb' 12 3).toNat else m.rnd.toNat)

/-- A float result: FP_INVALID for none, clamped to 0 … 1 by SAT (R127, R134). -/
def floatResult (F : FFmt) (sat : Bool) (r : Option Nat) : LVal :=
  match r with
  | none => .bad .fpInvalid
  | some n => .val (if sat then fSat F n else n)

/-- A result that needs a rounding mode: a reserved one poisons (R88, R123). -/
def rounded (mode : Option RMode) (f : RMode → LVal) : LVal :=
  match mode with
  | none => .bad .malformed
  | some r => f r

/-- A register as data: its number, or its token. -/
def asLVal (v : Val) : LVal := if v.poison then .tok v.bits else .val v.bits.toNat

/-- A lane register inside the budget as data; a poisoned register outside it (R75). -/
def laneData (x : Group) (t : Team) (r i : Nat) : LVal := if r + 1 ≤ budget t.desc x.role then asLVal (x.rdV r i) else .bad .malformed

/-- A predicate as data. -/
def predData (x : Group) (p i : Nat) : LVal := asLVal (x.rdP p i)

/-- The first of a list of lanes whose datum is poisoned gives its token, else the lanes' values (R157, R158). -/
def gathered (l : List Nat) (v : Nat → LVal) (f : List Nat → LVal) : LVal :=
  match (l.map v).find? (fun r => !r.isVal) with
  | some e => e
  | none => f ((l.map v).map (fun r => match r with | .val n => n | _ => 0))

/-- The instruction completes, and all that changes is the group, which becomes `y`. -/
def Becomes (i : Instr) (s : State) (g : Nat) (y : Group) : Prop := exec i s = .next { s with groups := Map.put s.groups g y }

/-- The active lanes of a lane word, as a mask. -/
def activeMask (x : Group) (sp : Split) (p : Nat) : Mask := maskOf ((List.range 128).filter (active x sp p))

/-- The word is a reserved use with no destination: one MALFORMED token is flagged for its active lanes (R88). -/
def ReservedUse (i : Instr) (s : State) (c : Cur) (lanes : Mask) : Prop := exec i s = .next (malformedNoDest s c.gid c.pc lanes)

/-- The next entry of the group's split-stack area is free and can be written (R99, R107). -/
def AreaRoom (s : State) (x : Group) (t : Team) (n : Nat) : Prop :=
  x.ssfree = none ∧ x.sshw + n ≤ t.desc.sspg ∧ ∀ k < n, areaFail s x (x.sshw + k) = none

/-- A split of its own, with nothing spilled, no call frame and no handler. -/
structure Lone (x : Group) (c : Cur) (sp : Split) : Prop where
  slot : c.slot < 2
  other : x.split (1 - c.slot) = none
  newest : x.newest = none
  frame : sp.frl = none
  saved : x.saved = none
  live : x.ended = false

/-- The trap frame of kind `kind` taken by split `sp` in `slot` with an empty other slot (R378). -/
structure FrameOf (x : Group) (slot : Nat) (sp : Split) (kind tdata : Nat) (tpc thdr : BitVec 64) (f : TrapFrame) : Prop where
  treason : f.treason = BitVec.ofNat 32 (kind + 65536 * slot)
  tdata : f.tdata = BitVec.ofNat 32 tdata
  tpc : f.tpc = tpc
  thdr : f.thdr = thdr
  tfmt : f.tfmt = sp.fmt
  tdepth : f.tdepth = BitVec.ofNat 32 sp.depth
  tmask : f.tmask = sp.mask
  ostate : f.ostate = 0
  sstate : f.sstate = BitVec.ofNat 32 (x.sshw % 65536 + (match x.ssfree with | none => 65535 | some e => e % 65536) * 65536)
  step : f.step = x.trap.step

/-- The instruction takes a trap (R377): the frame is saved, and one split of the handler's lanes starts at TRAPH on a fresh split table. -/
def Traps (i : Instr) (s : State) (c : Cur) (x : Group) (sp : Split) (t : Team) (kind tdata : Nat) (tpc thdr : BitVec 64) (lanes : Mask) : Prop :=
  ∃ f, FrameOf x c.slot sp kind tdata tpc thdr f ∧
    exec i s = .next { s with
      draws := s.draws + 1
      groups := Map.put s.groups c.gid { x with
        trap := f, saved := some ⟨c.slot, x.s0, x.s1, x.sshw, x.ssfree, x.oldest, x.newest, x.region, x.rid⟩
        s0 := some { Split.blank with pc := t.desc.traph, hdr := t.desc.traph, mask := lanes, fmt := sp.fmt, took := s.time, idle := s.time }
        s1 := none, last := 0, ssfree := none, oldest := none, newest := none, region := .closed } }

/-- The instruction ends its group, and its launch records condition `n` of R402. -/
def EndsGroup (i : Instr) (s : State) (c : Cur) (x : Group) (r : Grid) (grid n : Nat) (hcode : Option Nat) : Prop :=
  ∃ u y r', exec i s = .next u ∧ Map.find u.groups c.gid = some y ∧ y.ended = true ∧ y.live = 0 ∧ y.s0 = none ∧ y.s1 = none ∧ y.region = .closed ∧
    Map.find u.grids grid = some r' ∧ r'.cond = r.cond ||| (if x.orphan.isSome then 1 else 0) ||| BitVec.ofNat 5 (2 ^ n) ∧ r'.hcode = hcode

/-- A number with its `n` bits from bit `lo` replaced. -/
def replacedBits (d lo n v : Nat) : Nat := d - d / 2 ^ lo % 2 ^ n * 2 ^ lo + v % 2 ^ n * 2 ^ lo

/-- The value or token, with the modifiers of a 32-bit integer source: absolute value first, then negation (R131). -/
def modified (ab ng : Bool) (v : LVal) : LVal :=
  match v with
  | .val n =>
    let w : Word := BitVec.ofNat 32 n
    let w := if ab && w.msb then -w else w
    .val (if ng then -w else w).toNat
  | e => e

/-- The memory fields hold no reserved value (R209, R210). -/
def MemOk (l : MemLit) (a : BitVec 7) : Prop :=
  l.sz ≠ 7 ∧ l.space ≠ 2 ∧ l.space ≠ 3 ∧ l.bk ≠ 3 ∧ l.scope.toNat < 5 ∧ (l.ix = 0 → a = 0) ∧ (l.bk = 0 → l.base.toNat < 8 ∧ l.space = 0) ∧
    (l.bk = 2 → l.base = 0) ∧ (l.bk = 1 → l.space = 0 → l.base.toNat % 2 = 0)

/-- The orders that plain loads and stores take (R209). -/
def OrdOk (l : MemLit) : Prop := l.ord ≠ 3 ∧ (l.ord = 0 → l.scope = 0)

/-- The first data register is one that the size allows (R207). -/
def SizeOk (l : MemLit) (r : BitVec 7) : Prop := (l.sz = 5 → r.toNat % 2 = 0) ∧ (l.sz = 6 → r.toNat % 4 = 0)

/-- The sizes, operations and orders of an atomic or reduction (R215). -/
def AtomicOk (l : MemLit) : Prop := (l.sz = 4 ∨ l.sz = 5) ∧ l.disp.toNat / 64 < 11

/-- Neither the group's region is open nor its team in a view. -/
structure Plain (x : Group) (t : Team) : Prop where
  closed : x.region.opened = false
  root : t.view = 0

/-- The stores of a quarantine buffer released by a split of lanes `m`, for the root view: they stand behind the group's earlier ones, in order (R244, R271). -/
def Group.releases (x : Group) (m : Mask) (qs : List Store) : Group :=
  { x with egress := x.egress ++ qs.map (fun q => { q with rel := true, mask := q.mask ||| m, view := 0, toks := [] }), seq := x.seq + qs.length }

/-- The operation issues on path `k` of its group, whose counter rises by 1; it asks for a copy lease if it needs one; nothing else changes (R65, R204). -/
def Issues (i : Instr) (s : State) (c : Cur) (x : Group) (k view : Nat) (act : Mask) (lease : Bool) (regs : List (RFile × Nat)) (a : AsyncKind) : Prop :=
  let op := mkOp x k view (lowest act) act c.pc lease regs a
  exec i s = .next { s with
    groups := Map.put s.groups c.gid { x with seq := x.seq + 1, paths := Map.put x.paths k { x.path k with ops := (x.path k).ops ++ [op] } }
    dies := if lease then Map.put s.dies (dieOf x.core) { s.dieAt (dieOf x.core) with leave := (s.dieAt (dieOf x.core)).leave ++ [.copy c.gid k x.seq] } else s.dies }

/-- The lane registers `r` to `r + n − 1` hold no poison in the lanes. -/
def CleanLanes (x : Group) (lanes : List Nat) (r n : Nat) : Prop := ∀ i ∈ lanes, ∀ k < n, (x.rdV (r + k) i).poison = false

/-- An uniform register, and a pair, that holds no poison. -/
def CleanReg (x : Group) (r : Nat) : Prop := (x.rdS r).poison = false
def CleanPair (x : Group) (r : Nat) : Prop := (x.rdS r).poison = false ∧ (x.rdS (r + 1)).poison = false

/-- The number in a uniform register, in a pair, and in a lane's register. -/
def Group.reg (x : Group) (r : Nat) : Nat := (x.rdS r).bits.toNat
def Group.pair (x : Group) (r : Nat) : Nat := x.reg r + x.reg (r + 1) * 2 ^ 32
def Group.laneReg (x : Group) (r i : Nat) : Nat := (x.rdV r i).bits.toNat

/-- No operation of the group bears the number of its next access. -/
def FreshSeq (x : Group) : Prop := ∀ p ∈ x.paths, ∀ o ∈ p.2.ops, o.seq ≠ x.seq

/-- The word is issued afresh: it goes on with no wait of its own (R104). -/
structure Fresh (c : Cur) : Prop where
  wait : c.wait = none
  wph : c.wph = false
  deadline : c.deadline = none
  expired : c.expired = false

/-- The group owes a number to one uniform register (R81). -/
def Group.owes (x : Group) (sd n : Nat) : Group := { x with board := x.board ++ [[⟨.s, sd, 0, ⟨BitVec.ofNat 32 n, false⟩⟩]] }

/-- The group with its issuing split waiting inside its word (R104). -/
def Group.waits (x : Group) (c : Cur) (sp : Split) (w : Wait) (wph : Bool) (deadline : Option Nat) : Group :=
  x.setSplit c.slot (some { sp with
    pc := c.pc, hdr := c.hdr, clause := some c.clause, wait := some w, wph := wph, deadline := deadline, expired := c.expired, since := c.since })

/-- The deadline of a wait with exponent `e`: 2^(e+5) core clocks, none for 15 (R227). -/
def waitEnd (s : State) (e : Nat) : Option Nat := if e ≤ 14 then some (s.time + 10 * 2 ^ (e + 5)) else none

/-- The context of the group has been asked to be abandoned (R386). -/
def Abandoned (s : State) (x : Group) : Prop := ∃ k, Map.find s.ctxs x.ctx = some k ∧ k.abandon = true

/-- A wait that ends in `met` when it is met: status 3 when abandoned, status 1 with exponent 0 or once its deadline has passed, else the split waits inside
the word, until the deadline that it already has or the one that its exponent gives (R104, R227, R386). `first` when an abandon request comes before the
condition; `seen` is the machine as the word's end leaves it but for its group. -/
def WaitsFor (i : Instr) (s seen : State) (c : Cur) (x : Group) (sp : Split) (w : Wait) (wph first : Bool) (e sd : Nat) (ok : Prop) (met : Group) : Prop :=
  (ok → ¬Abandoned s x ∨ first = false → exec i s = .next { seen with groups := Map.put s.groups c.gid met }) ∧ (Abandoned s x → first = true ∨ ¬ok → Becomes i s c.gid (x.owes sd 3)) ∧
    (¬ok → ¬Abandoned s x →
      Becomes i s c.gid (if e = 0 ∨ c.expired = true then x.owes sd 1 else x.waits c sp w wph (if c.deadline.isSome then c.deadline else waitEnd s e)))

/-- Of the machine outside group `g`, a word that reads memory changes at most what a word of results does, what the caches hold and write back, what
its kernel's traffic is, and sectors in whose copies an error stands (R64, R197 to R199, R252). -/
structure ReadKept (s t : State) (g : Nat) : Prop where
  plain : t = { s with
    groups := t.groups, cores := t.cores, ctxs := t.ctxs, grids := t.grids, mem := t.mem, poisoned := t.poisoned, loose := t.loose, l2 := t.l2, dir := t.dir,
    filters := t.filters, l2bad := t.l2bad, stackBad := t.stackBad, hostMem := t.hostMem, hostPoison := t.hostPoison, hostL2 := t.hostL2,
    views := t.views, traffic := t.traffic, draws := t.draws, blocked := t.blocked }
  groups : ∀ h, h ≠ g → Map.find t.groups h = Map.find s.groups h
  cores : ∀ k, t.coreOf k = { s.coreOf k with side := (t.coreOf k).side, gens := (t.coreOf k).gens, ovf := (t.coreOf k).ovf, l1 := (t.coreOf k).l1 }
  ctxs : ∀ n c, Map.find s.ctxs n = some c → ∃ p, Map.find t.ctxs n = some { c with perf := p }
  grids : ∀ n r, Map.find s.grids n = some r → ∃ o c, Map.find t.grids n = some { r with orph := o, cond := c }
  memory : s.l2bad = [] → s.stackBad = [] → t.mem = s.mem ∧ t.poisoned = s.poisoned ∧ t.loose = s.loose ∧ t.views = s.views
  host : (∀ e ∈ s.hostL2, e.2.dirty = []) → t.hostMem = s.hostMem ∧ t.hostPoison = s.hostPoison ∧ t.draws = s.draws

/-- Of the machine, an engine of the base that writes device memory changes at most memory, what the caches hold, the L1s of cores, and what a write to a
page-table line does: translation registers and quarantined stores (R193, R195, R199). -/
structure EngineKept (s t : State) : Prop where
  plain : t = { s with
    mem := t.mem, poisoned := t.poisoned, loose := t.loose, l2 := t.l2, dir := t.dir, filters := t.filters, l2bad := t.l2bad, stackBad := t.stackBad,
    hitch := t.hitch, spill := t.spill, landau := t.landau, groups := t.groups, cores := t.cores, invals := t.invals, reclaims := t.reclaims,
    draws := t.draws, blocked := t.blocked }
  groups : ∀ g y, Map.find s.groups g = some y → ∃ z, Map.find t.groups g = some z ∧ z = { y with x := z.x, region := z.region, saved := z.saved } ∧
    z.region = { y.region with qb := z.region.qb }
  cores : ∀ k, t.coreOf k = { s.coreOf k with l1 := (t.coreOf k).l1 }

/-- Uniform register `sd` of a group holds a value, and every other register keeps its own. -/
def WroteVal (x y : Group) (sd : Nat) (v : Val) : Prop :=
  y.rdS sd = v ∧ (∀ r, r ≠ sd → y.rdS r = x.rdS r) ∧ y.v = x.v ∧ y.p = x.p ∧ y.q = x.q

/-- Uniform register `sd` of a group holds a number, and every other register keeps its value. -/
def WroteStatus (x y : Group) (sd n : Nat) : Prop := WroteVal x y sd ⟨BitVec.ofNat 32 n, false⟩

/-- No error stands in an L2 or in a stack (R252). -/
structure NoErrors (s : State) : Prop where
  l2 : s.l2bad = []
  unstruck : s.stackBad = []

/-- A scratchpad word over which no asynchronous operation stands whose end has not been seen (R226). -/
def SeenWord (s : State) (t w : Nat) : Prop := ∀ m, Map.find s.teams t = some m → ∀ o ∈ m.olds, o.word ≠ w

/-- Nothing of the group or of the machine is on its way to memory. -/
structure Still (s : State) (x : Group) : Prop where
  egress : x.egress = []
  invals : s.invals = []
  lines : s.hostL2 = []

/-- The holder of a barrier level of the team is there (R276). -/
def HasBarriers (s : State) (t : Team) (level : Nat) : Prop :=
  (level = 1 → (t.tuple.bind (Map.find s.tuples)).isSome = true) ∧ (level = 2 → (Map.find s.grids t.grid).isSome = true)

/-- A context's signals after the completion operation of a packet's header (R39, R45). -/
def doneSignals (p : Pkt) (m : List (Nat × BitVec 64)) : List (Nat × BitVec 64) :=
  if p.hdr.csig = 0 ∨ p.hdr.cop = 0 then m
  else Map.set 0 m p.hdr.csig.toNat (if p.hdr.cop = 1 then Map.get 0 m p.hdr.csig.toNat + p.hdr.cdelta else p.hdr.cdelta)

/-- A packet has completed with a status (R43 to R45, R50): it is no longer started, its queue has stopped if the status is not 0, the context's signals
are `sigs`, and its queue's event is pending. -/
structure Completed (s u : State) (p : Pkt) (st : Nat) (sigs : List (Nat × BitVec 64)) : Prop where
  signals : ∃ k, Map.find u.ctxs p.ctx = some k ∧ k.signals = sigs
  started : (u.queueOf p.ctx p.q).started = (s.queueOf p.ctx p.q).started.filter (fun e => e.pkt.idx != p.idx)
  stopped : (u.queueOf p.ctx p.q).stopped = ((s.queueOf p.ctx p.q).stopped || st != 0)
  event : 64 * p.ctx + p.q ∈ u.coach

/-- A packet has started and not completed (R37, R44). -/
structure Begun (s u : State) (p : Pkt) (b : Body) : Prop where
  rdidx : (u.queueOf p.ctx p.q).rdidx = BitVec.ofNat 32 p.idx + 1
  started : (u.queueOf p.ctx p.q).started = (s.queueOf p.ctx p.q).started ++ [⟨p, b⟩]
  event : 64 * p.ctx + p.q ∈ u.coach

end Sys2Proof.Machine

open Sys2Proof Sys2Proof.Machine

/-- R142: the integer words of two 32-bit sources, every modifier word included (R131 to R134). -/
def Obligations.IntegerWords : Prop :=
  ∀ s c x sp t (w : WA) (xm : Option XMod), Issuing s c x sp t → CleanPred x sp w.pred.toNat → InBudget x t w.d.toNat 1 →
    let m := xm.getD plainX
    let u := isU m
    let sat := isSat m
    let src := fun who (r : BitVec 7) i => (wxOf c s).src m .i32 who r.toNat i
    let sums : Honour := { negA := true, negB := true, sat := true, xlm := .full, u := true }
    let plain : Honour := { xlm := .full }
    ∀ e ∈ ([(.vadd w xm, sums, fun a b => narrowed 32 sat u (asInt u a + asInt u b)),
            (.vsub w xm, sums, fun a b => narrowed 32 sat u (asInt u a - asInt u b)),
            (.vmul w xm, { sums with u := false }, fun a b => narrowed 32 sat false (asInt false a * asInt false b)),
            (.vmulh w xm, { sums with sat := false }, fun a b => narrowed 32 false false (asInt u a * asInt u b / 2 ^ 32)),
            (.vmin w xm, { sums with sat := false }, fun a b => narrowed 32 false false (min (asInt u a) (asInt u b))),
            (.vmax w xm, { sums with sat := false }, fun a b => narrowed 32 false false (max (asInt u a) (asInt u b))),
            (.vand w xm, plain, onWords (fun a b => a &&& b)),
            (.vor w xm, plain, onWords (fun a b => a ||| b)),
            (.vxor w xm, plain, onWords (fun a b => a ^^^ b)),
            (.vshl w xm, plain, onWords (fun a b => a <<< (b.toNat % 256))),
            (.vshr w xm, plain, onWords (fun a b => a >>> (b.toNat % 256))),
            (.vsar w xm, plain, onWords (fun a b => a.sshiftRight (b.toNat % 256)))] : List (Instr × Honour × (Nat → Nat → Nat))),
      Results e.1 s c.gid x false (active x sp w.pred.toNat) ⟨.v, w.d.toNat, 1⟩ (fun i =>
        result2 (modOk e.2.1 m) (src .a w.a i) (src .b w.b i) (fun a b => .val (e.2.2 a b)))

/-- R142, R144, R145: the multiply-add, the bit-field insert and the select by a predicate, their modifier words included (R131, R88). -/
def Obligations.IntegerThreeSourceWords : Prop :=
  ∀ s c x sp t (w : WA) (m : XMod), Issuing s c x sp t → CleanPred x sp w.pred.toNat → InBudget x t w.d.toNat 1 →
    let src := fun who (r : BitVec 7) i => (wxOf c s).src m .i32 who r.toNat i
    let act := active x sp w.pred.toNat
    let pos := fun (y : Nat) => y % 32
    let len := fun (y : Nat) => min (y / 256 % 64) (32 - y % 32)
    Results (.vmad w m) s c.gid x false act ⟨.v, w.d.toNat, 1⟩ (fun i =>
        result3 (modOk { c := true, negA := true, negB := true, negC := true, sat := true, xlm := .not4 } m) (src .a w.a i) (src .b w.b i) (src .c m.c i)
          (fun a b z => .val (narrowed 32 (isSat m) false (asInt false a * asInt false b + asInt false z)))) ∧
      Results (.vbfi w m) s c.gid x false act ⟨.v, w.d.toNat, 1⟩ (fun i =>
        result3 (modOk { c := true, xlm := .not4 } m) (src .a w.a i) (src .b w.b i) (src .c m.c i)
          (fun a y z => .val (z - z / 2 ^ pos y % 2 ^ len y * 2 ^ pos y + a % 2 ^ len y * 2 ^ pos y))) ∧
      Results (.vsel w m) s c.gid x false act ⟨.v, w.d.toNat, 1⟩ (fun i =>
        result3 (m.c.toNat < 8 && modOk { c := true, xlm := .not4 } m) (src .a w.a i) (src .b w.b i) (asLVal (x.rdP (m.c.toNat % 8) i))
          (fun a b p => .val (if p = 1 then a else b)))

/-- R143 to R145: the integer words of one source, the bit-field extract and the load of a constant. -/
def Sys2Proof.Machine.IntegerOneSourceWordsStated : Prop :=
  ∀ s c x sp t (w : WB) (v : WA) (k : WC) (xm : Option XMod) (lit : Option Word), Issuing s c x sp t → CleanPred x sp w.pred.toNat →
    InBudget x t w.d.toNat 1 → v.pred = w.pred → v.d = w.d → k.pred = w.pred → k.d = w.d →
    let m := xm.getD plainX
    let src := fun who (r : BitVec 7) i => (wxOf c s).src m .i32 who r.toNat i
    let act := active x sp w.pred.toNat
    let onA : Honour := { xlm := .onA }
    (∀ e ∈ ([(.vabs w xm, w.func = 0 ∧ modOk { onA with sat := true } m, fun a => narrowed 32 (isSat m) false (max (asInt false a) (-asInt false a))),
             (.vpopc w xm, modOk onA m, fun a => ((List.range 32).filter (fun i => a.testBit i)).length),
             (.vclz w xm, modOk onA m, fun a => (BitVec.ofNat 32 a).clz.toNat),
             (.vbrev w xm, modOk onA m, fun a => (BitVec.ofNat 32 a).reverse.toNat),
             (.vmov w xm, w.func = 0 ∧ modOk onA m, fun a => a)] : List (Instr × Bool × (Nat → Nat))),
      Results e.1 s c.gid x false act ⟨.v, w.d.toNat, 1⟩ (fun i => result1 e.2.1 (src .a w.a i) (fun a => .val (e.2.2 a)))) ∧
    Results (.vbfe v xm) s c.gid x false act ⟨.v, w.d.toNat, 1⟩ (fun i =>
      result2 (modOk { xlm := .full, u := true } m) (src .a v.a i) (src .b v.b i) (fun a y =>
        let len := min (y / 256 % 64) (32 - y % 32)
        let r := a / 2 ^ (y % 32) % 2 ^ len
        .val (if isU m then r else ((BitVec.ofNat len r).signExtend 32).toNat))) ∧
    Results (.vldi k lit) s c.gid x false act ⟨.v, w.d.toNat, 1⟩ (fun _ =>
      match lit with
      | none => .val (k.imm.signExtend 32).toNat
      | some l => if k.imm = 0 then .val l.toNat else .bad .malformed)

/-- R146: the 64-bit words on register pairs. -/
def Sys2Proof.Machine.IntegerPairWordsStated : Prop :=
  ∀ s c x sp t (w : WA) (xm : Option XMod) (m : XMod), Issuing s c x sp t → CleanPred x sp w.pred.toNat → InBudget x t w.d.toNat 2 →
    let n := xm.getD plainX
    let act := active x sp w.pred.toNat
    Results (.vadd64 w xm) s c.gid x false act ⟨.v, w.d.toNat, 2⟩ (fun i =>
        result2 (even w.d && even w.a && even w.b && modOk { negA := true, negB := true, sat := true, xlm := .full, u := true, wide := true } n)
          ((wxOf c s).src n .i64 .a w.a.toNat i) ((wxOf c s).src n .i64 .b w.b.toNat i)
          (fun a b => .val (narrowed 64 (isSat n) (isU n) (asInt64 (isU n) a + asInt64 (isU n) b)))) ∧
      Results (.vmad64 w m) s c.gid x false act ⟨.v, w.d.toNat, 2⟩ (fun i =>
        result3 (even w.d && even m.c && modOk { c := true, xlm := .not4 } m)
          ((wxOf c s).src m .i32 .a w.a.toNat i) ((wxOf c s).src m .i32 .b w.b.toNat i) ((wxOf c s).src m .i64 .c m.c.toNat i)
          (fun a b z => .val ((a * b + z) % 2 ^ 64)))

/-- R143 to R145: the integer words of one source, the bit-field extract and the load of a constant. R146: the 64-bit words on register pairs. -/
def Obligations.IntegerOneSourceAndPairWords : Prop := IntegerOneSourceWordsStated ∧ IntegerPairWordsStated

/-- R84, R145, R148: the compares write a predicate; a condition outside the list poisons it, and p7 is no destination. -/
def Obligations.CompareWords : Prop :=
  ∀ s c x sp t (w : WA) (xm : Option XMod), Issuing s c x sp t → CleanPred x sp w.pred.toNat →
    let m := xm.getD plainX
    let cond := w.d.toNat / 8
    let pd := w.d.toNat % 8
    let h : Honour := { negA := true, negB := true, xlm := .full }
    let truth := fun (b : Bool) => LVal.val (if b then 1 else 0)
    (pd < 7 →
      Results (.vcmp w xm) s c.gid x false (active x sp w.pred.toNat) ⟨.p, pd, 1⟩ (fun i =>
          result2 (cond ≤ 9 && modOk h m) ((wxOf c s).src m .i32 .a w.a.toNat i) ((wxOf c s).src m .i32 .b w.b.toNat i) (fun a b =>
            let p : Word := BitVec.ofNat 32 a
            let q : Word := BitVec.ofNat 32 b
            truth ([p == q, p != q, p.slt q, p.sle q, q.slt p, q.sle p, p.ult q, p.ule q, q.ult p, q.ule p].getD cond false))) ∧
        Results (.fcmp w xm) s c.gid x false (active x sp w.pred.toNat) ⟨.p, pd, 1⟩ (fun i =>
          result2 (cond ≤ 7 && modOk h m) ((wxOf c s).src m .f32 .a w.a.toNat i) ((wxOf c s).src m .f32 .b w.b.toNat i) (fun a b =>
            let u := fp32.decode a
            let v := fp32.decode b
            let o := FNum.cmp u v
            if u.isSNaN || v.isSNaN then .bad .fpInvalid
            else if u.isNaN || v.isNaN then truth (cond == 1 || cond == 6)
            else truth ([o == 0, o != 0, o < 0, o ≤ 0, 0 < o, 0 ≤ o, false, true].getD cond false)))) ∧
      (pd = 7 → ∀ i ∈ [Instr.vcmp w xm, Instr.fcmp w xm], exec i s = .next (malformedNoDest s c.gid c.pc (maskOf ((List.range 128).filter (active x sp w.pred.toNat)))))

/-- R131 to R133: a 32-bit integer source as a lane reads it: the lane that XLM names, the absolute value, the negation. -/
def Obligations.SourceOperands : Prop :=
  ∀ s c x sp t (m : XMod) (who : Who) (r : BitVec 7) (i : Nat), Issuing s c x sp t → m.xlm ≠ 7 → i < 128 →
    let names := (who == .a && m.xls == 0) || (who == .b && m.xls == 1)
    let fromLane := fun (j : Int) => if 0 ≤ j ∧ j < x.width then laneData x t r.toNat j.toNat else .bad .laneRange
    let limm := m.limm.toNat
    let found :=
      if !names || m.xlm = 0 then laneData x t r.toNat i
      else if m.xlm = 1 then fromLane (i ^^^ limm : Nat)
      else if m.xlm = 2 then fromLane ((i : Int) - limm)
      else if m.xlm = 3 then fromLane (i + limm)
      else if m.xlm = 4 then
        match laneData x t m.c.toNat i with
        | .val n => fromLane (n % 128 : Nat)
        | e => e
      else if m.xlm = 5 then fromLane limm
      else asLVal (x.rdS m.sreg.toNat)
    (wxOf c s).src m .i32 who r.toNat i =
      modified (who == .a && m.absA == 1) ((who == .a && m.negA == 1) || (who == .b && m.negB == 1) || (who == .c && m.negC == 1)) found

/-- Two registers as a 64-bit number, or the lower one's token before the higher one's (R135, R231). -/
def Sys2Proof.Machine.asPair (lo hi : Val) : LVal := if lo.poison then .tok lo.bits else if hi.poison then .tok hi.bits else .val (lo.bits.toNat + hi.bits.toNat * 2 ^ 32)

/-- What `k` registers from `r` are to lane `i` as source `who` of a word, before the modifiers: those of the lane that XLM names, or uniform ones (R131, R132). -/
def Sys2Proof.Machine.sourceFound (x : Group) (t : Team) (m : XMod) (who : Who) (k r i : Nat) : LVal :=
  let names := (who == .a && m.xls == 0) || (who == .b && m.xls == 1)
  let own := fun (j : Nat) =>
    if r + k ≤ budget t.desc x.role then (if k = 1 then asLVal (x.rdV r j) else asPair (x.rdV r j) (x.rdV (r + 1) j)) else .bad .malformed
  let fromLane := fun (j : Int) => if 0 ≤ j ∧ j < x.width then own j.toNat else .bad .laneRange
  let limm := m.limm.toNat
  if !names || m.xlm = 0 then own i
  else if m.xlm = 1 then fromLane (i ^^^ limm : Nat)
  else if m.xlm = 2 then fromLane ((i : Int) - limm)
  else if m.xlm = 3 then fromLane (i + limm)
  else if m.xlm = 4 then
    match laneData x t m.c.toNat i with
    | .val n => fromLane (n % 128 : Nat)
    | e => e
  else if m.xlm = 5 then fromLane limm
  else if k = 1 then asLVal (x.rdS m.sreg.toNat)
  else asPair (x.rdS m.sreg.toNat) (x.rdS (m.sreg.toNat + 1))

/-- R131, R132, R135, R151: the signs of a float source, FP32, FP64 in a pair, or both packed halves, as each cross-lane mode finds it: ABSA clears the sign
bits and the negation flips them, NaNs included. -/
def Obligations.FloatSigns : Prop :=
  ∀ s c x sp t (m : XMod) (who : Who) (r : BitVec 7) (i : Nat), Issuing s c x sp t → m.xlm ≠ 7 → i < 128 →
    let flips := (who = .a ∧ m.negA = 1) ∨ (who = .b ∧ m.negB = 1) ∨ (who = .c ∧ m.negC = 1)
    let signed := fun (n : Nat) (signs : BitVec n) (v : LVal) =>
      match v with
      | .val a =>
        let b := BitVec.ofNat n a
        let b := if who = .a ∧ m.absA = 1 then b &&& ~~~signs else b
        .val (if flips then b ^^^ signs else b).toNat
      | e => e
    (wxOf c s).src m .f32 who r.toNat i = signed 32 0x80000000 (sourceFound x t m who 1 r.toNat i) ∧
      (wxOf c s).src m .f64 who r.toNat i = signed 64 0x8000000000000000 (sourceFound x t m who 2 r.toNat i) ∧
      (wxOf c s).src m .f16x2 who r.toNat i = signed 32 0x80008000 (sourceFound x t m who 1 r.toNat i)

/-- R80: a read of a lane register gives its value, or, while a word that wrote it stands closer than its distance, may give an older one. -/
def Sys2Proof.Machine.ReadsTooCloseStated : Prop :=
  ∀ s c x sp t (o r i : Nat) (cross : Bool), s.cur = some c → Map.find s.groups c.gid = some x → x.split c.slot = some sp →
    Map.find s.teams x.team = some t →
    let near := fun (h : Hazard) => h.file = .v ∧ h.reg = r ∧ inMask h.lanes i = true ∧ sp.dist - stepOf c.word - h.at_ < (if cross then h.needX else h.need)
    ((∀ h ∈ sp.haz, ¬near h) → (wxOf c s).rdV o r i cross = x.rdV r i) ∧
      ((wxOf c s).rdV o r i cross = x.rdV r i ∨ ∃ h ∈ sp.haz, near h ∧ (wxOf c s).rdV o r i cross = Map.get Val.zero h.old i)

/-- The lane words whose destination is one lane register, and whether their results are late (R79, R81). -/
def Sys2Proof.Machine.oneRegForms (w : WA) (v : WB) (k : WC) (xm : Option XMod) (m : XMod) (lit : Option Word) : List (Instr × Bool) :=
  ([Instr.vadd w xm, .vsub w xm, .vmul w xm, .vmulh w xm, .vmad w m, .vand w xm, .vor w xm, .vxor w xm, .vshl w xm, .vshr w xm, .vsar w xm,
    .vmin w xm, .vmax w xm, .vabs v xm, .vpopc v xm, .vclz v xm, .vbrev v xm, .vbfe w xm, .vbfi w m, .vsel w m, .vmov v xm, .vldi k lit,
    .fadd w xm, .fsub w xm, .fmul w xm, .ffma w m, .fmin w xm, .fmax w xm, .hadd2 w xm, .hmul2 w xm, .hfma2 w m, .funpk v xm, .vshfl w xm,
    .vvoteCount v xm, .vvoteLaneid v xm, .vred v xm, .vscan v xm].map fun i => (i, false)) ++
  ([Instr.fdiv w xm, .fsqrt v xm, .frcp v xm, .frsq v xm, .fexp2 v xm, .flog2 v xm, .fsin v xm, .fcos v xm].map fun i => (i, true))

/-- The lane words whose destination is a pair of lane registers. -/
def Sys2Proof.Machine.pairForms (w : WA) (xm : Option XMod) (m : XMod) : List Instr := [.vadd64 w xm, .vmad64 w m, .dadd w xm, .dmul w xm, .dfma w m]

/-- R75 (log entry 39): a destination outside the budget is not written, and the word changes nothing, whatever it would have made of its reserved fields and of
lanes outside its group. -/
def Sys2Proof.Machine.OutOfBudgetDestinationStated : Prop :=
  ∀ s c x sp t (w : WA) (v : WB) (k : WC) (xm : Option XMod) (m : XMod) (lit : Option Word), Issuing s c x sp t → CleanPred x sp w.pred.toNat →
    v.pred = w.pred → v.d = w.d → k.pred = w.pred → k.d = w.d →
    (¬InBudget x t w.d.toNat 1 →
      ∀ e ∈ oneRegForms w v k xm m lit, exec e.1 s = .next s) ∧
      (¬InBudget x t w.d.toNat 2 → ∀ i ∈ pairForms w xm m, exec i s = .next s)

/-- One token of lane `k` flags the open region of a group, or is held as orphaned poison (R241, R247). -/
def Sys2Proof.Machine.Flagged (x y : Group) (tok : Word) (k : Nat) : Prop :=
  if x.region.opened then
    let r := x.region
    y = { x with region :=
      { r with flag := true, first := if r.flag then r.first else tok, pm := r.pm ||| maskOf [k], allrpl := y.region.allrpl,
               nqtok := some (r.nqtok.getD tok), toks := r.toks ++ [tok] } } ∧ (y.region.allrpl = true → r.allrpl = true)
  else y = { x with orphan := some (x.orphan.getD tok) }

/-- R98, R241, R247: a poisoned predicate acts as false in its lane for every lane word with a destination, and the token of the lowest such lane flags the open
region, or is orphaned; no other register changes. -/
def Sys2Proof.Machine.PoisonedPredicateWordsStated : Prop :=
  ∀ s c x sp t (w : WA) (v : WB) (kw : WC) (xm : Option XMod) (m : XMod) (lit : Option Word) (k : Nat) (tok : Word), Issuing s c x sp t → x.ended = false →
    v.pred = w.pred → v.d = w.d → kw.pred = w.pred → kw.d = w.d →
    inMask sp.mask k = true → k < 128 → x.rdP w.pred.toNat k = ⟨tok, true⟩ → (∀ j < k, inMask sp.mask j = true → (x.rdP w.pred.toNat j).poison = false) →
    let acts := fun (i : Instr) (late : Bool) (d : VDest) => ∃ u ws res y, exec i s = .next u ∧ RestKept s u c.gid ∧
      WritesOf x (active x sp w.pred.toNat) d res ws ∧ Map.find u.groups c.gid = some y ∧ Flagged (x.after late ws) y tok k
    (InBudget x t w.d.toNat 1 → ∀ e ∈ oneRegForms w v kw xm m lit, acts e.1 e.2 ⟨.v, w.d.toNat, 1⟩) ∧
      (InBudget x t w.d.toNat 2 → ∀ i ∈ pairForms w xm m, acts i false ⟨.v, w.d.toNat, 2⟩) ∧
      (w.d.toNat % 8 < 7 → ∀ i ∈ [Instr.vcmp w xm, .fcmp w xm, .vvoteAny v xm, .vvoteUni v xm], acts i false ⟨.p, w.d.toNat % 8, 1⟩)

/-- R98, R241, R247: what the active lanes of a word with a poisoned predicate write is what they write without it: an addition. -/
def Sys2Proof.Machine.PoisonedPredicateStated : Prop :=
  ∀ s c x sp t (w : WA) (k : Nat) (tok : Word), Issuing s c x sp t → x.ended = false → InBudget x t w.d.toNat 1 →
    inMask sp.mask k = true → k < 128 → x.rdP w.pred.toNat k = ⟨tok, true⟩ → (∀ j < k, inMask sp.mask j = true → (x.rdP w.pred.toNat j).poison = false) →
    ∃ u ws, exec (.vadd w none) s = .next u ∧ RestKept s u c.gid ∧
      WritesOf x (active x sp w.pred.toNat) ⟨.v, w.d.toNat, 1⟩ (fun i =>
        lift2 (laneData x t w.a.toNat i) (laneData x t w.b.toNat i) (fun a b => .val (a + b))) ws ∧
      ∃ y, Map.find u.groups c.gid = some y ∧ Flagged (x.wrAll ws) y tok k

/-- R80: a read of a lane register gives its value, or, while a word that wrote it stands closer than its distance, may give an older one. R75 (log entry 39): a
destination outside the budget is not written, and the word changes nothing. R98, R241, R247: a poisoned predicate acts as false, and the token of the lowest
such lane flags the open region, or is orphaned. -/
def Obligations.PoisonedUse : Prop := ReadsTooCloseStated ∧ OutOfBudgetDestinationStated ∧ PoisonedPredicateWordsStated ∧ PoisonedPredicateStated

/-- R147: the FP32 arithmetic, fused multiply-add, division, minimum and maximum; that each operation rounds its exact result once is part of SpecialInputs. -/
def Obligations.FloatWords : Prop :=
  ∀ s c x sp t (w : WA) (xm : Option XMod) (z : XMod), Issuing s c x sp t → CleanPred x sp w.pred.toNat → InBudget x t w.d.toNat 1 →
    let m := xm.getD plainX
    let act := active x sp w.pred.toNat
    let src := fun (m : XMod) who (r : BitVec 7) i => (wxOf c s).src m .f32 who r.toNat i
    let h : Honour := { negA := true, negB := true, rnd := true, sat := true, xlm := .full }
    (∀ e ∈ ([(.fadd w xm, false, fAdd fp32), (.fsub w xm, false, fSub fp32), (.fmul w xm, false, fMul fp32), (.fdiv w xm, true, fDiv fp32)] :
        List (Instr × Bool × (RMode → FNum → FNum → Option Nat))),
      Results e.1 s c.gid x e.2.1 act ⟨.v, w.d.toNat, 1⟩ (fun i => rounded (modeOf sp m) (fun r =>
        result2 (modOk h m) (src m .a w.a i) (src m .b w.b i) (fun a b => floatResult fp32 (isSat m) (e.2.2 r (fp32.decode a) (fp32.decode b)))))) ∧
      Results (.ffma w z) s c.gid x false act ⟨.v, w.d.toNat, 1⟩ (fun i => rounded (modeOf sp z) (fun r =>
        result3 (modOk { h with c := true, negC := true, xlm := .not4 } z) (src z .a w.a i) (src z .b w.b i) (src z .c z.c i) (fun a b d =>
          floatResult fp32 (isSat z) (fFma fp32 r (fp32.decode a) (fp32.decode b) (fp32.decode d))))) ∧
      (∀ e ∈ [(Instr.fmin w xm, false), (.fmax w xm, true)],
        Results e.1 s c.gid x false act ⟨.v, w.d.toNat, 1⟩ (fun i =>
          result2 (modOk { negA := true, negB := true, xlm := .full } m) (src m .a w.a i) (src m .b w.b i) (fun a b =>
            floatResult fp32 false (fMinMax fp32 e.2 a b))))

/-- The exact value of a finite number. -/
def Sys2Proof.Machine.exactValue : FNum → Rat
  | .fin s m e => (if s then -1 else 1) * (m : Rat) * 2 ^ e
  | _ => 0

/-- A number that is neither a NaN nor an infinity. -/
def Sys2Proof.Machine.IsFinite (x : FNum) : Prop := x.isNaN = false ∧ x.isInf = false

/-- `b` is the pattern that a nonzero real `x` rounds to in format `F` (R126): the nearest finite value and of two the even one, or the nearest in the direction
of the mode; beyond the largest finite value what the mode gives; always with the sign of `x`. -/
def Sys2Proof.Machine.IsRounded (F : FFmt) (mode : RMode) (x : Rat) (b : Nat) : Prop :=
  let v := fun (c : Nat) => exactValue (F.decode c)
  let finite := fun (c : Nat) => c < 2 * F.signBit ∧ IsFinite (F.decode c)
  let size := fun (q : Rat) => if q < 0 then -q else q
  let top := v F.maxBits
  let half : Rat := 2 ^ ((F.bias : Int) - F.fbits - 1)
  b < 2 * F.signBit ∧ (x < 0 ↔ F.signBit ≤ b) ∧
    match mode with
    | .rne => if top + half ≤ size x then b % F.signBit = F.infBits
        else finite b ∧ ∀ c, finite c → size (x - v b) ≤ size (x - v c) ∧ (size (x - v b) = size (x - v c) → v c = v b ∨ b % 2 = 0)
    | .rz => finite b ∧ size (v b) ≤ size x ∧ ∀ c, finite c → size (v c) ≤ size x → size (v c) ≤ size (v b)
    | .rd => if x < -top then b % F.signBit = F.infBits else finite b ∧ v b ≤ x ∧ ∀ c, finite c → v c ≤ x → v c ≤ v b
    | .ru => if top < x then b % F.signBit = F.infBits else finite b ∧ x ≤ v b ∧ ∀ c, finite c → x ≤ v c → v b ≤ v c

/-- The pattern of a signed zero. -/
def Sys2Proof.Machine.zeroOf (F : FFmt) (neg : Bool) : Nat := if neg then F.signBit else 0

/-- R126, R127, R147, R150, R151: in every float format and mode the exact sum, difference, product, quotient and fused product and sum are rounded once; an exact
zero has the sign that IEEE 754-2019 gives it. -/
def Sys2Proof.Machine.ExactArithmeticStated : Prop :=
  ∀ F ∈ [fp64, fp32, fp16, bf16], ∀ (mode : RMode),
    (∀ s m e, m ≠ 0 → IsRounded F mode (exactValue (.fin s m e)) (roundFloat F mode (.fin s m e))) ∧
    (∀ s e, roundFloat F mode (.fin s 0 e) = zeroOf F s) ∧ (∀ s, roundFloat F mode (.inf s) = zeroOf F s + F.infBits) ∧
    ∀ x y z, IsFinite x → IsFinite y → IsFinite z →
      let v := exactValue
      let gives := fun (r : Option Nat) (q : Rat) (neg : Bool) => ∃ b, r = some b ∧ (q ≠ 0 → IsRounded F mode q b) ∧ (q = 0 → b = zeroOf F neg)
      let sumSign := fun (zeros : Bool) (a b : Bool) => if zeros && a == b then a else decide (mode = .rd)
      let xor := x.isNeg != y.isNeg
      gives (fAdd F mode x y) (v x + v y) (sumSign (x.isZero && y.isZero) x.isNeg y.isNeg) ∧
        gives (fSub F mode x y) (v x - v y) (sumSign (x.isZero && y.isZero) x.isNeg !y.isNeg) ∧
        gives (fMul F mode x y) (v x * v y) xor ∧
        (y.isZero = false → gives (fDiv F mode x y) (v x / v y) xor) ∧
        gives (fFma F mode x y z) (v x * v y + v z) (sumSign ((x.isZero || y.isZero) && z.isZero) xor z.isNeg) ∧
        (FNum.cmp x y < 0 ↔ v x < v y) ∧ (FNum.cmp x y = 0 ↔ v x = v y)

/-- The terms of a matrix sum as exact numbers (R128). -/
def Sys2Proof.Machine.termsOf (P : List Term) (acc : FNum) : List FNum := P.filterMap (fun t => match t with | .num x => some x | _ => none) ++ [acc]

/-- R125, R128: a matrix sum: what its invalid operations, NaNs and infinities give; of finite terms the part at or above 2^(E − 79) is added exactly, what lies
below adds a quarter of that unit with its sign, and the sum is rounded once to FP32; an exact zero takes ZeroSign. The product of two elements is exact. -/
def Sys2Proof.Machine.MatrixSumStated : Prop :=
  (∀ (P : List Term) (acc : FNum) (mode : RMode),
    let T := termsOf P acc
    let bad := acc.isSNaN = true ∨ Term.invalid ∈ P ∨ (FNum.inf true ∈ T ∧ FNum.inf false ∈ T)
    let nan := acc.isNaN = true ∨ Term.nan ∈ P
    let sum := fun (l : List Rat) => l.foldl (fun a b => a + b) 0
    let negZero := fun (x : FNum) => x.isZero && x.isNeg
    let none0 := if (T.dropLast.all negZero && acc.isZero) = true then zeroOf fp32 acc.isNeg else zeroOf fp32 (decide (mode = .rd))
    (bad → windowSum P acc mode = none) ∧
      (¬bad → nan → windowSum P acc mode = some 0x7FC00000) ∧
      (¬bad → ¬nan → ∀ s, FNum.inf s ∈ T → windowSum P acc mode = some (zeroOf fp32 s + fp32.infBits)) ∧
      (¬bad → ¬nan → (∀ x ∈ T, IsFinite x) → (∀ x ∈ T, x.isZero = true) → windowSum P acc mode = some none0) ∧
      (¬bad → ¬nan → (∀ x ∈ T, IsFinite x) → ∀ E : Int, (∀ x ∈ T, exactValue x < 2 ^ (E + 1) ∧ -2 ^ (E + 1) < exactValue x) →
        (∃ x ∈ T, 2 ^ E ≤ exactValue x ∨ exactValue x ≤ -2 ^ E) →
        let q : Rat := 2 ^ (E - 79)
        let part := fun (t : Rat) => if t < 0 then -(((-t / q).floor : Int) : Rat) * q else ((t / q).floor : Rat) * q
        let ts := T.map exactValue
        let H := sum (ts.map part)
        let L := sum (ts.map (fun t => t - part t))
        ∃ b, windowSum P acc mode = some b ∧ (H = 0 → L = 0 → b = none0) ∧
          (H ≠ 0 ∨ L ≠ 0 → IsRounded fp32 mode (H + (if L < 0 then -1 else if 0 < L then 1 else 0) * q / 4) b))) ∧
  (∀ (k : Int) (a b : FNum),
    (a.isSNaN = true ∨ b.isSNaN = true ∨ (a.isZero = true ∧ b.isInf = true) ∨ (a.isInf = true ∧ b.isZero = true) → product k a b = .invalid) ∧
      (a.isSNaN = false → b.isSNaN = false → a.isNaN = true ∨ b.isNaN = true → product k a b = .nan) ∧
      (IsFinite a → IsFinite b → ∃ p, product k a b = .num p ∧ IsFinite p ∧ exactValue p = exactValue a * exactValue b * 2 ^ k ∧ p.isNeg = (a.isNeg != b.isNeg)))

/-- R127, R147: what the float operations make of NaNs, infinities and zeros. -/
def Sys2Proof.Machine.FloatSpecialOperandsStated : Prop :=
  ∀ (r : RMode) (a b z : FNum),
    (a.isSNaN = true ∨ b.isSNaN = true → fAdd fp32 r a b = none ∧ fSub fp32 r a b = none ∧ fMul fp32 r a b = none ∧ fDiv fp32 r a b = none ∧ fFma fp32 r a b z = none) ∧
      (a.isSNaN = false → b.isSNaN = false → a.isNaN = true ∨ b.isNaN = true →
        fAdd fp32 r a b = some 0x7FC00000 ∧ fSub fp32 r a b = some 0x7FC00000 ∧ fMul fp32 r a b = some 0x7FC00000 ∧ fDiv fp32 r a b = some 0x7FC00000) ∧
      (z.isSNaN = true → fFma fp32 r a b z = none) ∧
      (a.isSNaN = false → b.isSNaN = false → z.isSNaN = false → a.isNaN = true ∨ b.isNaN = true ∨ (z.isNaN = true ∧ FNum.mul a b ≠ none) →
        fFma fp32 r a b z = some 0x7FC00000) ∧
      (∀ mx m n, ((fp32.decode m).isSNaN = true ∨ (fp32.decode n).isSNaN = true → fMinMax fp32 mx m n = none) ∧
        ((fp32.decode m).isSNaN = false → (fp32.decode n).isSNaN = false → (fp32.decode m).isNaN = true ∨ (fp32.decode n).isNaN = true →
          fMinMax fp32 mx m n = some 0x7FC00000) ∧
        ((fp32.decode m).isNaN = false → (fp32.decode n).isNaN = false → ∃ k, fMinMax fp32 mx m n = some k ∧ (k = m ∨ k = n) ∧
          ∀ j ∈ [m, n], if mx then 0 ≤ FNum.cmp (fp32.decode k) (fp32.decode j) else FNum.cmp (fp32.decode k) (fp32.decode j) ≤ 0)) ∧
      fMinMax fp32 false 0 0x80000000 = some 0x80000000 ∧ fMinMax fp32 false 0x80000000 0 = some 0x80000000 ∧
      fMinMax fp32 true 0 0x80000000 = some 0 ∧ fMinMax fp32 true 0x80000000 0 = some 0 ∧
      (a.isZero = true → b.isInf = true → fMul fp32 r a b = none ∧ fMul fp32 r b a = none ∧ fFma fp32 r a b z = none) ∧
      (a.isInf = true → b.isInf = true → fDiv fp32 r a b = none ∧ (a.isNeg ≠ b.isNeg → fAdd fp32 r a b = none) ∧ (a.isNeg = b.isNeg → fSub fp32 r a b = none)) ∧
      (a.isZero = true → b.isZero = true → fDiv fp32 r a b = none) ∧
      (a.isZero = false → a.isNaN = false → b.isZero = true → fDiv fp32 r a b = some (if a.isNeg = b.isNeg then 0x7F800000 else 0xFF800000))

/-- R149: the SFU forms; their results are owed, and FUNC 7 to 127 of the shared opcode poison. -/
def Obligations.SfuWords : Prop :=
  ∀ s c x sp t (w : WB) (xm : Option XMod), Issuing s c x sp t → CleanPred x sp w.pred.toNat → InBudget x t w.d.toNat 1 →
    let m := xm.getD plainX
    let act := active x sp w.pred.toNat
    let src := fun i => (wxOf c s).src m .f32 .a w.a.toNat i
    Results (.fsqrt w xm) s c.gid x true act ⟨.v, w.d.toNat, 1⟩ (fun i => rounded (modeOf sp m) (fun r =>
        result1 (w.func == 0 && modOk { negA := true, rnd := true, sat := true, xlm := .onA } m) (src i) (fun a =>
          floatResult fp32 (isSat m) (fSqrt fp32 r (fp32.decode a))))) ∧
      ∀ e ∈ [(Instr.frcp w xm, 1), (.frsq w xm, 2), (.fexp2 w xm, 3), (.flog2 w xm, 4), (.fsin w xm, 5), (.fcos w xm, 6)],
        Results e.1 s c.gid x true act ⟨.v, w.d.toNat, 1⟩ (fun i =>
          result1 (modOk { negA := true, sat := true, xlm := .onA } m) (src i) (fun a => floatResult fp32 (isSat m) (sfu e.2 a)))

/-- R149: where the SFU forms are exact: the sine and cosine at integers and halfway between them, the power at integers, the logarithm at powers of two. -/
def Sys2Proof.Machine.SfuExactInputsStated : Prop :=
  let power := fun (n : Int) => if -126 ≤ n then ((n + 127) * 2 ^ 23).toNat else 2 ^ (n + 149).toNat
  let unit := fun (n : Int) => some (if n % 2 = 0 then 0x3F800000 else 0xBF800000)
  (∀ a (n : Int), IsFinite (fp32.decode a) → exactValue (fp32.decode a) = n →
      sfu 5 a = some (zeroOf fp32 (fp32.decode a).isNeg) ∧ sfu 6 a = unit n ∧ (-149 ≤ n → n ≤ 127 → sfu 3 a = some (power n))) ∧
    (∀ a (n : Int), IsFinite (fp32.decode a) → exactValue (fp32.decode a) = n + 1 / 2 → sfu 5 a = unit n ∧ sfu 6 a = some 0) ∧
    ∀ n : Int, -149 ≤ n → n ≤ 127 → exactValue (fp32.decode (power n)) = 2 ^ n ∧
      ∃ b, sfu 4 (power n) = some b ∧ IsFinite (fp32.decode b) ∧ exactValue (fp32.decode b) = n ∧ (n = 0 → b = 0)

/-- R149: the special inputs of the SFU forms. -/
def Sys2Proof.Machine.SfuSpecialInputsStated : Prop :=
  (∀ r : RMode, fSqrt fp32 r (fp32.decode 0x80000000) = some 0x80000000 ∧ fSqrt fp32 r (fp32.decode 0x7F800000) = some 0x7F800000 ∧
      fSqrt fp32 r (fp32.decode 0xBF800000) = none ∧ fSqrt fp32 r (fp32.decode 0xFF800000) = none) ∧
    sfu 1 0 = some 0x7F800000 ∧ sfu 1 0x80000000 = some 0xFF800000 ∧ sfu 1 0x7F800000 = some 0 ∧ sfu 1 0xFF800000 = some 0x80000000 ∧
    sfu 2 0 = some 0x7F800000 ∧ sfu 2 0x80000000 = some 0xFF800000 ∧ sfu 2 0x7F800000 = some 0 ∧ sfu 2 0xBF800000 = none ∧
    sfu 3 0xFF800000 = some 0 ∧ sfu 3 0x7F800000 = some 0x7F800000 ∧
    sfu 4 0 = some 0xFF800000 ∧ sfu 4 0x80000000 = some 0xFF800000 ∧ sfu 4 0x3F800000 = some 0 ∧ sfu 4 0x7F800000 = some 0x7F800000 ∧ sfu 4 0xBF800000 = none ∧
    sfu 5 0x7F800000 = none ∧ sfu 5 0xFF800000 = none ∧ sfu 6 0x7F800000 = none ∧ sfu 6 0xFF800000 = none ∧
    (∀ f ∈ [1, 2, 3, 4, 5, 6], ∀ a, (fp32.decode a).isSNaN = true → sfu f a = none) ∧
    (∀ f ∈ [1, 2, 3, 4, 5, 6], ∀ a, (fp32.decode a).isNaN = true → (fp32.decode a).isSNaN = false → sfu f a = some 0x7FC00000)

/-- R150: the FP64 words on register pairs, without SAT; that each operation rounds its exact result once is part of SpecialInputs. -/
def Obligations.DoubleWords : Prop :=
  ∀ s c x sp t (w : WA) (xm : Option XMod) (z : XMod), Issuing s c x sp t → CleanPred x sp w.pred.toNat → InBudget x t w.d.toNat 2 →
    let m := xm.getD plainX
    let act := active x sp w.pred.toNat
    let src := fun (m : XMod) who (r : BitVec 7) i => (wxOf c s).src m .f64 who r.toNat i
    let h : Honour := { negA := true, negB := true, rnd := true, xlm := .full, wide := true }
    (∀ e ∈ ([(.dadd w xm, fAdd fp64), (.dmul w xm, fMul fp64)] : List (Instr × (RMode → FNum → FNum → Option Nat))),
      Results e.1 s c.gid x false act ⟨.v, w.d.toNat, 2⟩ (fun i => rounded (modeOf sp m) (fun r =>
        result2 (even w.d && even w.a && even w.b && modOk h m) (src m .a w.a i) (src m .b w.b i) (fun a b =>
          floatResult fp64 false (e.2 r (fp64.decode a) (fp64.decode b)))))) ∧
      Results (.dfma w z) s c.gid x false act ⟨.v, w.d.toNat, 2⟩ (fun i => rounded (modeOf sp z) (fun r =>
        result3 (even w.d && even w.a && even w.b && even z.c && modOk { h with c := true, negC := true, xlm := .not4 } z)
          (src z .a w.a i) (src z .b w.b i) (src z .c z.c i) (fun a b d =>
            floatResult fp64 false (fFma fp64 r (fp64.decode a) (fp64.decode b) (fp64.decode d)))))

/-- R151: the packed halves: BF16 or FP16 by AFMT, each half on its own, and one invalid half poisons the register; that each operation rounds its exact result
once is part of SpecialInputs. -/
def Obligations.PackedHalfWords : Prop :=
  ∀ s c x sp t (w : WA) (xm : Option XMod) (z : XMod), Issuing s c x sp t → CleanPred x sp w.pred.toNat → InBudget x t w.d.toNat 1 →
    let m := xm.getD plainX
    let act := active x sp w.pred.toNat
    let src := fun (m : XMod) who (r : BitVec 7) i => (wxOf c s).src m .f16x2 who r.toNat i
    let h : Honour := { negA := true, negB := true, rnd := true, sat := true, xlm := .full }
    let both := fun (F : FFmt) sat (lo hi : Option Nat) =>
      match lo, hi with
      | some p, some q => LVal.val ((if sat then fSat F p else p) + (if sat then fSat F q else q) * 65536)
      | _, _ => LVal.bad .fpInvalid
    let inHalf := fun (m : XMod) (f : FFmt → RMode → LVal) =>
      let code := sp.fmt.extractLsb' 0 4
      if code = 0 then rounded (modeOf sp m) (f bf16) else if code = 1 then rounded (modeOf sp m) (f fp16) else .bad .malformed
    (∀ e ∈ ([(.hadd2 w xm, fAdd), (.hmul2 w xm, fMul)] : List (Instr × (FFmt → RMode → FNum → FNum → Option Nat))),
      Results e.1 s c.gid x false act ⟨.v, w.d.toNat, 1⟩ (fun i => inHalf m (fun F r =>
        result2 (modOk h m) (src m .a w.a i) (src m .b w.b i) (fun a b =>
          both F (isSat m) (e.2 F r (F.decode (a % 65536)) (F.decode (b % 65536))) (e.2 F r (F.decode (a / 65536)) (F.decode (b / 65536))))))) ∧
      Results (.hfma2 w z) s c.gid x false act ⟨.v, w.d.toNat, 1⟩ (fun i => inHalf z (fun F r =>
        result3 (modOk { h with c := true, negC := true, xlm := .not4 } z) (src z .a w.a i) (src z .b w.b i) (src z .c z.c i) (fun a b d =>
          both F (isSat z) (fFma F r (F.decode (a % 65536)) (F.decode (b % 65536)) (F.decode (d % 65536)))
            (fFma F r (F.decode (a / 65536)) (F.decode (b / 65536)) (F.decode (d / 65536))))))

/-- R152: the conversions of FCVT; FUNC 14 to 127 poison. -/
def Obligations.ConversionWords : Prop :=
  ∀ s c x sp t (w : WB) (xm : Option XMod), Issuing s c x sp t → CleanPred x sp w.pred.toNat →
    let m := xm.getD plainX
    let act := active x sp w.pred.toNat
    let toFloat := fun (F G : FFmt) (r : RMode) (a : Nat) => if (F.decode a).isSNaN then none else some (roundFloat G r (F.decode a))
    let ofSigned := fun (F : FFmt) (r : RMode) (a : Nat) => some (roundFloat F r (.ofInt (asInt false a)))
    let toInt := fun (F : FFmt) (lo hi : Int) (r : RMode) (a : Nat) => (roundInt lo hi r (F.decode a)).map (fun z => (BitVec.ofInt 32 z).toNat)
    let h := fun (sat wide : Bool) => ({ negA := true, rnd := true, sat := sat, xlm := .onA, wide := wide } : Honour)
    (∀ e ∈ ([(0, .i32, 1, some fp32, true, ofSigned fp32), (1, .i32, 1, some fp32, true, fun r a => some (roundFloat fp32 r (.ofInt a))),
             (2, .f32, 1, none, true, toInt fp32 (-2147483648) 2147483647), (3, .f32, 1, none, true, toInt fp32 0 4294967295),
             (4, .f32, 2, some fp64, false, toFloat fp32 fp64), (5, .f64, 1, some fp32, true, toFloat fp64 fp32), (6, .i32, 2, some fp64, false, ofSigned fp64),
             (7, .f64, 1, none, true, toInt fp64 (-2147483648) 2147483647), (8, .f32, 1, some fp16, true, toFloat fp32 fp16),
             (9, .f16x2, 1, some fp32, false, fun r a => toFloat fp16 fp32 r (a % 65536)), (10, .f32, 1, some bf16, true, toFloat fp32 bf16),
             (11, .f16x2, 1, some fp32, false, fun r a => toFloat bf16 fp32 r (a % 65536)), (12, .f32, 1, some fp32, true, cvtIntegral fp32),
             (13, .f64, 2, some fp64, true, cvtIntegral fp64)] : List (Nat × Kind × Nat × Option FFmt × Bool × (RMode → Nat → Option Nat))),
      let wide := e.2.1 == .f64
      w.func.toNat = e.1 → InBudget x t w.d.toNat e.2.2.1 →
      Results (.fcvt w xm) s c.gid x false act ⟨.v, w.d.toNat, e.2.2.1⟩ (fun i =>
        rounded (if e.2.2.2.2.1 = false ∧ m.rnd = 7 then some .rne else modeOf sp m) (fun r =>
          result1 ((e.2.2.1 == 1 || even w.d) && (!wide || even w.a) && modOk (h e.2.2.2.1.isSome wide) m) ((wxOf c s).src m e.2.1 .a w.a.toNat i) (fun a =>
            floatResult (e.2.2.2.1.getD fp32) (e.2.2.2.1.isSome && isSat m) (e.2.2.2.2.2 r a))))) ∧
      (14 ≤ w.func.toNat → InBudget x t w.d.toNat 1 →
        Results (.fcvt w xm) s c.gid x false act ⟨.v, w.d.toNat, 1⟩ (fun _ => .bad .malformed))

/-- R153, R154: packing two floats into elements of OFMT, and taking an element of AFMT out. -/
def Obligations.PackWords : Prop :=
  ∀ s c x sp t (w : WA) (v : WB) (xm : Option XMod), Issuing s c x sp t → CleanPred x sp w.pred.toNat → v.pred = w.pred → v.d = w.d →
    let m := xm.getD plainX
    let act := active x sp w.pred.toNat
    let ofmt := (sp.fmt.extractLsb' 8 4).toNat
    let afmt := (sp.fmt.extractLsb' 0 4).toNat
    let scale := (sp.fmt.extractLsb' 24 8).toInt
    let n := if ofmt = 3 then 2 else 1
    let pairs := [1, 1, 2, 5, 2].getD ofmt 0
    let width := [16, 16, 8, 6, 8].getD ofmt 0
    let k := m.limm.toNat
    let elem := fun (r : RMode) (a : FNum) =>
      if a.isSNaN then none
      else
        let y := a.scale scale
        if ofmt = 0 then some (roundFloat bf16 r y) else if ofmt = 1 then some (roundFloat fp16 r y) else if ofmt = 2 then some (encodeTapered t8 y)
        else if ofmt = 3 then some (encodeTapered t6 y) else (roundInt (-128) 127 r y).map (fun z => (BitVec.ofInt 8 z).toNat)
    (InBudget x t w.d.toNat n →
      Results (.fpack w xm) s c.gid x false act ⟨.v, w.d.toNat, n⟩ (fun i =>
        if 4 < ofmt then .bad .malformed
        else
          rounded (if (ofmt = 2 ∨ ofmt = 3) ∧ m.rnd = 7 then some .rne else modeOf sp m) (fun r =>
            result3 (k < pairs && (n == 1 || even w.d) && modOk { negA := true, negB := true, rnd := true, xlm := .limm } m)
              ((wxOf c s).src m .f32 .a w.a.toNat i) ((wxOf c s).src m .f32 .b w.b.toNat i)
              (if n = 1 then laneData x t w.d.toNat i else lift2 (laneData x t w.d.toNat i) (laneData x t (w.d.toNat + 1) i) (fun l h => .val (l + h * 2 ^ 32)))
              (fun a b d =>
                match elem r (fp32.decode a), elem r (fp32.decode b) with
                | some p, some q =>
                  let z := replacedBits (replacedBits d (2 * k * width) width p) ((2 * k + 1) * width) width q
                  .val (if n = 2 then z % 2 ^ 60 else z)
                | _, _ => .bad .fpInvalid)))) ∧
      (InBudget x t v.d.toNat 1 →
        Results (.funpk v xm) s c.gid x false act ⟨.v, v.d.toNat, 1⟩ (fun i => rounded (modeOf sp m) (fun r =>
          result1 (v.func.toNat < [2, 2, 4, 10, 4, 4, 8, 32].getD afmt 0 && (afmt != 3 || even v.a) && modOk { rnd := true, xlm := .onA, wide := afmt == 3 } m)
            ((wxOf c s).src m (if afmt = 3 then .i64 else .i32) .a v.a.toNat i) (fun a =>
              let e := [16, 16, 8, 6, 8, 8, 4, 1].getD afmt 0
              match decodeElem afmt (a / 2 ^ (e * v.func.toNat) % 2 ^ e) with
              | none => .bad .fpInvalid
              | some y => if y.isSNaN then .bad .fpInvalid else .val (roundFloat fp32 r (y.scale (-scale)))))))

/-- R88, R155: the predicate words complete; a nonzero B where it must be 0 poisons the destination, and other operations, p7 and register bits above 2
leave no destination; the word that stands for each. -/
def Obligations.PredicateWords : Prop :=
  ∀ s c x sp t (w : WA), Issuing s c x sp t → CleanPred x sp w.pred.toNat →
    let act := active x sp w.pred.toNat
    let pd := w.d.toNat % 8
    let ops : List (Instr × Nat × Bool × (Nat → Nat → Nat)) :=
      [(.pand w, 0, false, fun a b => a &&& b), (.por w, 1, false, fun a b => a ||| b), (.pxor w, 2, false, fun a b => a ^^^ b),
       (.pnot w, 3, true, fun a _ => 1 - a), (.pmov w, 4, true, fun a _ => a)]
    decodeWord .alu (WA.word 0x2C w) none =
        some (if w.d.toNat / 8 = 1 then .por w else if w.d.toNat / 8 = 2 then .pxor w else if w.d.toNat / 8 = 3 then .pnot w else if w.d.toNat / 8 = 4 then .pmov w else .pand w) ∧
    ∀ e ∈ ops,
      let ok := w.d.toNat / 8 = e.2.1 ∧ pd ≠ 7 ∧ w.a.toNat < 8 ∧ w.b.toNat < 8
      (ok →
        Results e.1 s c.gid x false act ⟨.p, pd, 1⟩ (fun i =>
          if e.2.2.1 ∧ w.b ≠ 0 then .bad .malformed
          else if e.2.2.1 then lift1 (predData x w.a.toNat i) (fun a => .val (e.2.2.2 a 0))
          else lift2 (predData x w.a.toNat i) (predData x w.b.toNat i) (fun a b => .val (e.2.2.2 a b)))) ∧
        (¬ok → exec e.1 s = .next (malformedNoDest s c.gid c.pc (maskOf ((List.range 128).filter act))))

/-- R156, R157: the shuffle and the votes, in every active lane alike; the reserved forms that name no destination. -/
def Obligations.CrossLaneWords : Prop :=
  ∀ s c x sp t (w : WA) (v : WB) (xm : Option XMod), Issuing s c x sp t → CleanPred x sp w.pred.toNat → v.pred = w.pred → v.d = w.d →
    let m := xm.getD plainX
    let act := active x sp w.pred.toNat
    let lanes := (List.range 128).filter act
    let plain := modOk {} m
    let pd := v.d.toNat % 8
    let vote := fun (ok : Bool) (f : List Nat → LVal) => if ok && v.a.toNat < 8 && plain then gathered lanes (predData x (v.a.toNat % 8)) f else LVal.bad .malformed
    let ones := fun (l : List Nat) => (l.filter (fun b => b == 1)).length
    let noDest := fun (i : Instr) => exec i s = .next (malformedNoDest s c.gid c.pc (maskOf lanes))
    (InBudget x t w.d.toNat 1 →
      Results (.vshfl w xm) s c.gid x false act ⟨.v, w.d.toNat, 1⟩ (fun i =>
        result1 plain (laneData x t w.b.toNat i) (fun b =>
          if b.testBit 7 then .val 0 else if b % 128 < x.width then laneData x t w.a.toNat (b % 128) else .bad .laneRange))) ∧
      (pd ≠ 7 → v.func = 0 →
        Results (.vvoteAll v xm) s c.gid x false act ⟨.p, pd, 1⟩ (fun _ => vote (v.d.toNat < 8) (fun l => .val (if ones l = l.length then 1 else 0)))) ∧
      (pd ≠ 7 → Results (.vvoteAny v xm) s c.gid x false act ⟨.p, pd, 1⟩ (fun _ => vote (v.d.toNat < 8) (fun l => .val (if 0 < ones l then 1 else 0)))) ∧
      (pd ≠ 7 →
        Results (.vvoteUni v xm) s c.gid x false act ⟨.p, pd, 1⟩ (fun _ => vote (v.d.toNat < 8) (fun l => .val (if ones l = 0 ∨ ones l = l.length then 1 else 0)))) ∧
      (InBudget x t v.d.toNat (x.width / 32) →
        Results (.vvoteBallot v xm) s c.gid x false act ⟨.v, v.d.toNat, x.width / 32⟩ (fun _ => vote true (fun _ =>
          .val (maskOf (lanes.filter (fun i => (x.rdP (v.a.toNat % 8) i).bits == 1))).toNat))) ∧
      (InBudget x t v.d.toNat 1 → Results (.vvoteCount v xm) s c.gid x false act ⟨.v, v.d.toNat, 1⟩ (fun _ => vote true (fun l => .val (ones l)))) ∧
      (InBudget x t v.d.toNat 1 →
        Results (.vvoteLaneid v xm) s c.gid x false act ⟨.v, v.d.toNat, 1⟩ (fun i => if v.a = 0 ∧ plain = true then .val i else .bad .malformed)) ∧
      (pd = 7 → v.func = 0 → noDest (.vvoteAll v xm)) ∧ (pd = 7 → noDest (.vvoteAny v xm)) ∧ (pd = 7 → noDest (.vvoteUni v xm)) ∧
      (v.func ≠ 0 → noDest (.vvoteAll v xm))

/-- R158: reductions and scans over the active lanes that contribute, in ascending order. -/
def Obligations.ReductionWords : Prop :=
  ∀ s c x sp t (w : WB) (xm : Option XMod), Issuing s c x sp t → CleanPred x sp w.pred.toNat → InBudget x t w.d.toNat 1 →
    let m := xm.getD plainX
    let act := active x sp w.pred.toNat
    let op := w.func.toNat % 16
    let word := fun (n : Nat) => (BitVec.ofNat 32 n : Word)
    let fold := fun (f : Word → Word → Word) (e : Word) (l : List Nat) => LVal.val (l.foldl (fun a b => f a (word b)) e).toNat
    let float := fun (l : List Nat) (g : LVal) =>
      if l.any (fun a => (fp32.decode a).isSNaN) then LVal.bad .fpInvalid else if l.any (fun a => (fp32.decode a).isNaN) then .val 0x7FC00000 else g
    let combine := fun (r : RMode) (l : List Nat) =>
      match op with
      | 0 => fold (fun a b => a + b) 0 l
      | 1 => fold (fun a b => if a.sle b then a else b) 0x7FFFFFFF l
      | 2 => fold (fun a b => if a.sle b then b else a) 0x80000000 l
      | 3 => fold (fun a b => if a.ule b then a else b) 0xFFFFFFFF l
      | 4 => fold (fun a b => if a.ule b then b else a) 0 l
      | 5 => fold (fun a b => a &&& b) 0xFFFFFFFF l
      | 6 => fold (fun a b => a ||| b) 0 l
      | 7 => fold (fun a b => a ^^^ b) 0 l
      | 8 =>
        let P := l.map (fun n => match fp32.decode n with | .nan true => Term.invalid | .nan false => Term.nan | y => Term.num y)
        floatResult fp32 false (windowSum P (.fin true 0 0) r)
      | 9 => float l (floatResult fp32 false (l.foldl (fun a b => a.bind (fun a => fMinMax fp32 false a b)) (some 0x7F800000)))
      | _ => float l (floatResult fp32 false (l.foldl (fun a b => a.bind (fun a => fMinMax fp32 true a b)) (some 0xFF800000)))
    let mode := if op ≠ 8 ∧ m.rnd = 7 then some .rne else modeOf sp m
    let isOver := fun (ok : Bool) (among : Nat → Nat → Bool) (i : Nat) => rounded mode (fun r =>
      if ok && op ≤ 10 && modOk { rnd := decide (8 ≤ op) } m then
        gathered ((List.range 128).filter (fun j => act j && among j i)) (fun j => laneData x t w.a.toNat j) (combine r)
      else .bad .malformed)
    Results (.vred w xm) s c.gid x false act ⟨.v, w.d.toNat, 1⟩ (isOver (w.func.toNat < 16) (fun _ _ => true)) ∧
      Results (.vscan w xm) s c.gid x false act ⟨.v, w.d.toNat, 1⟩ (isOver (w.func.toNat < 32) (fun j i => if w.func.toNat.testBit 4 then j < i else j ≤ i))

/-- R126 to R128, R147: the exact result of a float operation rounded once, and of a matrix sum; what they make of NaNs, infinities and zeros. R149: the special
inputs of the SFU forms, and where they are exact. -/
def Obligations.SpecialInputs : Prop :=
  ExactArithmeticStated ∧ MatrixSumStated ∧ FloatSpecialOperandsStated ∧ SfuExactInputsStated ∧ SfuSpecialInputsStated

/-- R136 to R138: the scalar words with two sources, the move, the multiply-add and the literal. -/
def Obligations.ScalarWords : Prop :=
  ∀ s c x sp t (w : WS) (z : XMod) (lit : Word), Issuing s c x sp t → qualified x w.qual.toNat →
    let a := asLVal (x.rdS w.sa.toNat)
    let b := asLVal (x.rdS w.sb.toNat)
    let out := fun (i : Instr) (r : LVal) => Results i s c.gid x false (fun _ => true) ⟨.s, w.sd.toNat, 1⟩ (fun _ => r)
    (∀ e ∈ ([(.sadd w, fun a b => a + b), (.ssub w, fun a b => a - b), (.smul w, fun a b => a * b), (.smin w, fun a b => if a.sle b then a else b),
             (.smax w, fun a b => if a.sle b then b else a), (.sminU w, fun a b => if a.ule b then a else b), (.smaxU w, fun a b => if a.ule b then b else a),
             (.sor w, fun a b => a ||| b), (.sxor w, fun a b => a ^^^ b), (.sshl w, fun a b => a <<< (b.toNat % 256)),
             (.sshr w, fun a b => a >>> (b.toNat % 256)), (.ssar w, fun a b => a.sshiftRight (b.toNat % 256))] : List (Instr × (Word → Word → Word))),
      out e.1 (lift2 a b (fun a b => .val (onWords e.2 a b)))) ∧
      out (.sand w) (if w.sub = 0 then lift2 a b (fun a b => .val (onWords (fun a b => a &&& b) a b)) else .bad .malformed) ∧
      out (.smov w) (if w.sb = 0 then a else .bad .malformed) ∧
      out (.smad w z) (if w.sub = 0 ∧ modOk {} { z with sreg := 0 } = true then
          lift3 a b (asLVal (x.rdS z.sreg.toNat)) (fun a b d => .val ((a * b + d) % 2 ^ 32)) else .bad .malformed) ∧
      out (.sldi w lit) (if w.sub = 0 ∧ w.sa = 0 ∧ w.sb = 0 then .val lit.toNat else .bad .malformed)

/-- The words of format S, and `BRU`, which carries a qualifier in its place of PRED (R84, R98, R110). -/
def Sys2Proof.Machine.qualifiedForms (w : WS) (d : WD) (z : XMod) (lit : Word) (ol : Option Word) (l : CpyLit) (g : GatLit) : List Instr :=
  [.sadd w, .ssub w, .smul w, .smin w, .smax w, .smov w, .sminU w, .smaxU w, .sand w, .sor w, .sxor w, .sshl w, .sshr w, .ssar w, .smad w z, .sldi w lit,
   .scmp w, .ssel w, .sread w, .swrite w, .fmtset w, .fmtsetLit w lit, .fmtget w, .pinfo w, .xlate w, .xinfo w] ++
  [.cpyG2s w l, .cpyS2g w l, .cpyS2p w l, .gather w g, .scatter w g, .wait w, .cnt w, .xfence w, .getwork w, .getworkNw w, .treuse w, .barArv w, .barWait w,
   .barSync w, .barq w, .sigSet w ol, .sigAdd w ol, .sigSetRet w ol, .sigAddRet w ol, .sigw w, .fork w, .choose w] ++
  [.viewId w, .viewRival w, .viewDepth w, .viewParent w, .viewLog w, .viewSect w, .viewDec w, .sreadp w, .swritep w, .bru d]

/-- R98, R136: a word whose qualifier is 0, issued afresh, does nothing; one whose qualifier is poisoned flags its token and does nothing else. -/
def Sys2Proof.Machine.ScalarQualifierStated : Prop :=
  ∀ s c x sp t (w : WS) (d : WD) (z : XMod) (lit : Word) (ol : Option Word) (l : CpyLit) (g : GatLit), Issuing s c x sp t → Fresh c → w.qual.toNat < 4 →
    d.pred = w.qual →
    let v := x.rdQ w.qual.toNat
    (v.poison = false → v.bits ≠ 1 → ∀ i ∈ qualifiedForms w d z lit ol l g, exec i s = .next s) ∧
      (v.poison = true → ∀ i ∈ qualifiedForms w d z lit ol l g, exec i s = .next (flagRegion s c.gid v.bits (lowest sp.mask) false))

/-- R139: the scalar compare writes a uniform predicate, and the select reads one after its two sources. -/
def Sys2Proof.Machine.ScalarCompareSelectStated : Prop :=
  ∀ s c x sp t (w : WS), Issuing s c x sp t → qualified x w.qual.toNat →
    let a := asLVal (x.rdS w.sa.toNat)
    let b := asLVal (x.rdS w.sb.toNat)
    Results (.scmp w) s c.gid x false (fun _ => true) ⟨.q, w.sd.toNat % 4, 1⟩ (fun _ =>
        if w.sd.toNat < 4 then
          lift2 a b (fun a b =>
            let p : Word := BitVec.ofNat 32 a
            let q : Word := BitVec.ofNat 32 b
            .val (if [p == q, p != q, p.slt q, p.sle q, q.slt p, q.sle p, p.ult q, q.ule p].getD w.sub.toNat false then 1 else 0))
        else .bad .malformed) ∧
      Results (.ssel w) s c.gid x false (fun _ => true) ⟨.s, w.sd.toNat, 1⟩ (fun _ =>
        if w.sub.toNat < 4 then lift3 a b (asLVal (x.rdQ w.sub.toNat)) (fun a b q => .val (if q = 1 then a else b)) else .bad .malformed)

/-- R98, R136: a word whose qualifier is 0 does nothing; one whose qualifier is poisoned flags its token and does nothing else. R139: the scalar compare writes a uniform predicate, and the select reads one after its two sources. -/
def Obligations.QualifierAndSelect : Prop := ScalarQualifierStated ∧ ScalarCompareSelectStated

/-- R140: the special registers, owed to SD; an unlisted number and an odd pair poison; MARK alone can be written. -/
def Obligations.SpecialRegisters : Prop :=
  ∀ s c x sp t (w : WS), Issuing s c x sp t → qualified x w.qual.toNat →
    let n := w.sa.toNat * 64 + w.sb.toNat
    let word := fun (m : Mask) (k : Nat) => if k < x.width / 32 then (m.extractLsb' (32 * k) 32).toNat else 0
    let clk := (s.time - (s.coreOf x.core).clk0) / 10 % 2 ^ 64
    let regs : List (Nat × Nat × Nat) :=
      [(0x000, x.width, 1), (0x001, x.idx, 1), (0x002, t.vteam, 1), (0x003, s.nteams x, 1), (0x004, t.vcore, 1),
       (0x005, if t.tuple.isSome then t.crank else 0xFFFFFFFF, 1), (0x006, if x.role then 1 else 0, 1), (0x007, sp.depth, 1), (0x008, clk, 2),
       (0x00A, s.time / 21 % 2 ^ 64, 2), (0x010, word x.live 0, 1), (0x011, word x.live 1, 1), (0x012, word x.live 2, 1), (0x013, word x.live 3, 1),
       (0x014, word sp.mask 0, 1), (0x015, word sp.mask 1, 1), (0x016, word sp.mask 2, 1), (0x017, word sp.mask 3, 1), (0x018, s.ncores x, 1),
       (0x020, x.mark.toNat, 1)]
    let out := fun (k : Nat) (r : LVal) => Results (.sread w) s c.gid x true (fun _ => true) ⟨.s, w.sd.toNat, k⟩ (fun _ => r)
    (∀ e ∈ regs, n = e.1 → w.sub = 0 → (e.2.2 = 2 → w.sd.toNat % 2 = 0) → out e.2.2 (.val e.2.1)) ∧
      (∀ e ∈ regs, n = e.1 → e.2.2 = 2 → w.sd.toNat % 2 = 1 → out 1 (.bad .malformed)) ∧
      (∀ e ∈ regs, n = e.1 → w.sub ≠ 0 → (e.2.2 = 2 → w.sd.toNat % 2 = 0) → out e.2.2 (.bad .malformed)) ∧
      ((∀ e ∈ regs, n ≠ e.1) → out 1 (.bad .malformed)) ∧
      (w.sub = 0 → n = 0x020 → (x.rdS w.sd.toNat).poison = false →
        exec (.swrite w) s = .next { s with groups := Map.put s.groups c.gid { x with mark := (x.rdS w.sd.toNat).bits } }) ∧
      (w.sub = 0 → n = 0x020 → (x.rdS w.sd.toNat).poison = true →
        exec (.swrite w) s = .next (flagRegion s c.gid (x.rdS w.sd.toNat).bits (lowest sp.mask) false)) ∧
      (w.sub ≠ 0 ∨ n ≠ 0x020 → exec (.swrite w) s = .next (malformedNoDest s c.gid c.pc sp.mask))

/-- R122, R141: FMT of the issuing split is written, with bit 15 as zero, and read; the words that stand for it. -/
def Sys2Proof.Machine.FormatRegisterStated : Prop :=
  ∀ s c x sp t (w : WS) (lit : Word), Issuing s c x sp t → qualified x w.qual.toNat →
    let set := fun (v : Word) => Host.Outcome.next (φ := Fault) (ρ := Refusal)
      { s with groups := Map.put s.groups c.gid (x.setSplit c.slot (some { sp with fmt := v &&& 0xFFFF7FFF })) }
    let bad := Host.Outcome.next (φ := Fault) (ρ := Refusal) (malformedNoDest s c.gid c.pc sp.mask)
    (w.sub ≠ 1 → decodeWord .alu (WS.word 0x38 w) none = some (.fmtset w)) ∧
      (w.sub = 1 → decodeWord .alu (WS.word 0x38 w) (some lit) = some (.fmtsetLit w lit)) ∧
      decodeWord .alu (WS.word 0x39 w) none = some (.fmtget w) ∧
      (w.sub = 0 → w.sd = 0 → w.sb = 0 → (x.rdS w.sa.toNat).poison = false → exec (.fmtset w) s = set (x.rdS w.sa.toNat).bits) ∧
      (w.sub = 0 → w.sd = 0 → w.sb = 0 → (x.rdS w.sa.toNat).poison = true →
        exec (.fmtset w) s = .next (flagRegion s c.gid (x.rdS w.sa.toNat).bits (lowest sp.mask) false)) ∧
      (w.sub ≠ 0 ∨ w.sd ≠ 0 ∨ w.sb ≠ 0 → exec (.fmtset w) s = bad) ∧
      (w.sd = 0 → w.sa = 0 → w.sb = 0 → exec (.fmtsetLit w lit) s = set lit) ∧
      (w.sd ≠ 0 ∨ w.sa ≠ 0 ∨ w.sb ≠ 0 → exec (.fmtsetLit w lit) s = bad) ∧
      Results (.fmtget w) s c.gid x false (fun _ => true) ⟨.s, w.sd.toNat, 1⟩ (fun _ =>
        if w.sub = 0 ∧ w.sa = 0 ∧ w.sb = 0 then .val sp.fmt.toNat else .bad .malformed)

/-- R71, R97, R114: a no-operation changes nothing, and a yield moves its group to the youngest position. -/
def Sys2Proof.Machine.NopAndYieldStated : Prop :=
  ∀ s c x sp t (w : WC), Issuing s c x sp t →
    exec (.nop w) s = .next s ∧
      (w.pred = 7 →
        exec (.yieldw w) s = .next
          { s with
            cores := Map.put s.cores x.core { s.coreOf x.core with order := (s.coreOf x.core).order.filter (fun h => h != c.gid) ++ [c.gid] }
            groups := Map.put s.groups c.gid { x with last := c.slot } }) ∧
      (w.pred ≠ 7 → CleanPred x sp w.pred.toNat → ReservedUse (.yieldw w) s c (activeMask x sp w.pred.toNat))

/-- R122, R141: FMT of the issuing split is written, with bit 15 as zero, and read. R71, R97, R114: a no-operation changes nothing, and a yield moves its group to the youngest position. -/
def Obligations.FormatNopYield : Prop := FormatRegisterStated ∧ NopAndYieldStated

/-- R101, R109, R110: a branch that no lane takes goes on, one that all lanes take moves the split, and one that some take divides it: the rest
stay, and the lanes that transfer form a split in the free slot, owed to the reconvergence entry if the word names one; they issue no earlier than 6 clocks
after the word's last pass. -/
def Sys2Proof.Machine.BranchesStated : Prop :=
  ∀ s c x sp t (w : WD) (l : ReconvLit), Issuing s c x sp t → CleanPred x sp w.pred.toNat → sp.mask ≠ 0 →
    let T := activeMask x sp w.pred.toNat
    let target := c.pc + BitVec.ofInt 64 (4 * w.off.toInt)
    let rp := c.pc + BitVec.ofInt 64 (4 * l.roff.toInt)
    let moved := { sp with pc := target, hdr := target, clause := none, due := max sp.due (s.landing c.gid) }
    (l.rk.toNat < 2 → T = 0 → exec (.bra w l) s = .next s) ∧
      (l.rk.toNat < 2 → T = sp.mask → Becomes (.bra w l) s c.gid (x.setSplit c.slot (some moved))) ∧
      (2 ≤ l.rk.toNat → ReservedUse (.bra w l) s c T) ∧
      (l.rk = 1 → T ≠ 0 → T ≠ sp.mask → Lone x c sp →
        Becomes (.bra w l) s c.gid ((x.setSplit c.slot (some { sp with mask := sp.mask &&& ~~~T })).setSplit (1 - c.slot)
          (some { moved with mask := T, took := s.time, idle := s.time }))) ∧
      (l.rk = 0 → T ≠ 0 → T ≠ sp.mask → Lone x c sp → AreaRoom s x t 1 →
        let owed := PoolEntry.reconv sp.mask 0 rp rp sp.fmt sp.rel none sp.depth false x.born none
        let y := { x with sshw := x.sshw + 1, born := x.born + 1, pool := Map.put x.pool x.sshw owed }
        Becomes (.bra w l) s c.gid ((y.setSplit c.slot (some { sp with mask := sp.mask &&& ~~~T, rel := some x.sshw })).setSplit (1 - c.slot)
          (some { moved with mask := T, rel := some x.sshw, took := s.time, idle := s.time })))

/-- R110: BRU moves the whole split when its qualifier holds; BRX goes where the lanes' pairs point, and reserved fields or register
pairs beyond the budget transfer no lane. -/
def Sys2Proof.Machine.UniformAndIndirectBranchesStated : Prop :=
  ∀ s c x sp t (w : WD) (v : WB) (l : ReconvLit) (a : BitVec 64), Issuing s c x sp t → CleanPred x sp v.pred.toNat → sp.mask ≠ 0 →
    let T := activeMask x sp v.pred.toNat
    let near := c.pc + BitVec.ofInt 64 (4 * w.off.toInt)
    let due := max sp.due (s.landing c.gid)
    (qualified x w.pred.toNat → Becomes (.bru w) s c.gid (x.setSplit c.slot (some { sp with pc := near, hdr := near, clause := none, due := due }))) ∧
      (w.pred.toNat < 4 → (x.rdQ w.pred.toNat).poison = false → (x.rdQ w.pred.toNat).bits ≠ 1 → exec (.bru w) s = .next s) ∧
      (l.rk.toNat < 2 → v.d = 0 → v.func = 0 → InBudget x t v.a.toNat 2 → T = sp.mask → a.toNat % 4 = 0 → a.toNat < 2 ^ 57 →
        (∀ j, active x sp v.pred.toNat j = true → x.rdV v.a.toNat j = ⟨a.extractLsb' 0 32, false⟩ ∧ x.rdV (v.a.toNat + 1) j = ⟨a.extractLsb' 32 32, false⟩) →
        Becomes (.brx v l) s c.gid (x.setSplit c.slot (some { sp with pc := a, hdr := a, clause := none, due := due }))) ∧
      (2 ≤ l.rk.toNat ∨ v.d ≠ 0 ∨ v.func ≠ 0 ∨ ¬InBudget x t v.a.toNat 2 → ReservedUse (.brx v l) s c T)

/-- R101, R110: a branch that no lane takes goes on, one that all lanes take moves the split, and one that some take divides it: the rest stay, and the lanes that transfer form a split in the free slot, owed to the reconvergence entry if the word names one. R110: BRU moves the whole split when its qualifier holds; BRX goes where the lanes' pairs point, and reserved fields or register pairs beyond the budget transfer no lane. -/
def Obligations.BranchWords : Prop := BranchesStated ∧ UniformAndIndirectBranchesStated

/-- R106, R111: a call of all lanes pushes a frame and enters the callee; one of some lanes parks the others at a new entry; depth 255 is a
reserved use, and so is a target pair beyond the budget. -/
def Sys2Proof.Machine.CallsStated : Prop :=
  ∀ s c x sp t (w : WD) (v : WB) (a : BitVec 64), Issuing s c x sp t → CleanPred x sp w.pred.toNat → v.pred = w.pred → sp.mask ≠ 0 →
    let T := activeMask x sp w.pred.toNat
    let target := c.pc + BitVec.ofInt 64 (4 * w.off.toInt)
    let enter := fun (a : BitVec 64) (frame : Nat) =>
      { sp with pc := a, hdr := a, clause := none, mask := T, depth := sp.depth + 1, frl := some frame, due := max sp.due (s.landing c.gid) }
    let whole := { x with sshw := x.sshw + 1, pool := Map.put x.pool x.sshw (.frame c.next c.nextHdr sp.frl 1) }
    let pairs := ∀ j, active x sp w.pred.toNat j = true →
      x.rdV v.a.toNat j = ⟨a.extractLsb' 0 32, false⟩ ∧ x.rdV (v.a.toNat + 1) j = ⟨a.extractLsb' 32 32, false⟩
    (T = 0 → exec (.call w) s = .next s) ∧
      (T = sp.mask → sp.depth ≠ 255 → AreaRoom s x t 1 → Becomes (.call w) s c.gid (whole.setSplit c.slot (some (enter target x.sshw)))) ∧
      (v.d = 0 → v.func = 0 → InBudget x t v.a.toNat 2 → T = sp.mask → sp.depth ≠ 255 → AreaRoom s x t 1 → a.toNat % 4 = 0 → a.toNat < 2 ^ 57 → pairs →
        Becomes (.callx v) s c.gid (whole.setSplit c.slot (some (enter a x.sshw)))) ∧
      (T ≠ 0 → T ≠ sp.mask → sp.depth ≠ 255 → sp.frl = none → AreaRoom s x t 2 →
        let parked := PoolEntry.reconv sp.mask (sp.mask &&& ~~~T) c.next c.nextHdr sp.fmt sp.rel none sp.depth true x.born (some ⟨c.next, c.nextHdr, 1, sp.dist, []⟩)
        let y := { x with sshw := x.sshw + 2, born := x.born + 1, pool := Map.put (Map.put x.pool x.sshw parked) (x.sshw + 1) (.frame c.next c.nextHdr none 1) }
        Becomes (.call w) s c.gid (y.setSplit c.slot (some { enter target (x.sshw + 1) with rel := some x.sshw }))) ∧
      (T ≠ 0 → sp.depth = 255 → ReservedUse (.call w) s c T) ∧
      (v.d ≠ 0 ∨ v.func ≠ 0 ∨ ¬InBudget x t v.a.toNat 2 → ReservedUse (.callx v) s c T)

/-- R106, R111: a return goes on at its frame's return address, one call shallower, and frees the frame that nothing else names; at depth 0
it is a reserved use. -/
def Sys2Proof.Machine.ReturnsStated : Prop :=
  ∀ s c x sp t (w : WC) (e : Nat) (pc hdr : BitVec 64), Issuing s c x sp t → CleanPred x sp w.pred.toNat →
    let T := activeMask x sp w.pred.toNat
    let back := { sp with pc := pc, hdr := hdr, clause := none, frl := none, depth := sp.depth - 1, due := max sp.due (s.landing c.gid) }
    (T = 0 → sp.depth ≠ 0 → exec (.ret w) s = .next s) ∧
      (sp.depth = 0 → ReservedUse (.ret w) s c T) ∧
      (T ≠ 0 → T = sp.mask → sp.depth ≠ 0 → sp.rel = none → sp.frl = some e → Map.find x.pool e = some (.frame pc hdr none 1) →
        Becomes (.ret w) s c.gid ({ x with pool := Map.put x.pool e (.free x.ssfree), ssfree := some e }.setSplit c.slot (some back))) ∧
      (T ≠ 0 → T ≠ sp.mask → sp.depth ≠ 0 → sp.rel = none → sp.frl = some e → Map.find x.pool e = some (.frame pc hdr none 1) → c.slot < 2 →
        x.split (1 - c.slot) = none → x.ended = false →
        Becomes (.ret w) s c.gid ((({ x with pool := Map.put x.pool e (.frame pc hdr none 1) }).setSplit c.slot (some { sp with mask := sp.mask &&& ~~~T })).setSplit
          (1 - c.slot) (some { back with mask := T, step := false, took := s.time, idle := s.time })))

/-- R106, R111: a call of all lanes pushes a frame and enters the callee; one of some lanes parks the others at a new entry; depth 255 is a reserved use, and so is a target pair beyond the budget. R106, R111: a return goes on at its frame's return address, one call shallower, and frees the frame that nothing else names; at depth 0 it is a reserved use. -/
def Obligations.CallsAndReturns : Prop := CallsStated ∧ ReturnsStated

/-- R78, R102, R112, R132: a join that names no pending entry has no effect; at its entry's header the split parks, and the last arrival forms the merged
split, which goes on after the join, with no distance owed but to what other splits wrote in other lanes. With both slots free it takes slot 0, and it counts
as having issued at the merge: both are the model's choice (log entry 50), since the spec says neither. -/
def Obligations.Joins : Prop :=
  ∀ s c x sp t (w : WC), Issuing s c x sp t →
    (w.pred = 7 → sp.rel = none → exec (.join w) s = .next s) ∧
      (w.pred ≠ 7 → CleanPred x sp w.pred.toNat → ReservedUse (.join w) s c (activeMask x sp w.pred.toNat)) ∧
      ∀ e ex ar rhdr fmt parent frl born cont, w.pred = 7 → sp.rel = some e → Map.find x.pool e = some (.reconv ex ar c.hdr rhdr fmt parent frl sp.depth false born cont) →
        c.pc = c.hdr + 4 → Lone x c sp →
        let ar2 := ar ||| sp.mask
        let fmt2 := if inMask sp.mask (lowest ar2) then sp.fmt else fmt
        let was : Parked := cont.getD ⟨c.next, c.nextHdr, 0, 0, []⟩
        let dist := max was.dist sp.dist
        let go : Parked := { was with n := was.n + 1, dist := dist, haz := was.haz.map (fun h => { h with at_ := h.at_ + (dist - was.dist) }) }
        (ar2 ≠ ex →
          Becomes (.join w) s c.gid ({ x with pool := Map.put x.pool e (.reconv ex ar2 c.hdr rhdr fmt2 parent frl sp.depth false born (some go)) }.setSplit c.slot none)) ∧
          (ar2 = ex → ex ≠ 0 →
            frl = none →
            let outside := go.haz.filter (fun h => h.foreign && h.lanes &&& ~~~ex != 0)
            let merged := { Split.blank with pc := go.pc, hdr := go.hdr, mask := ex, depth := sp.depth, fmt := fmt2, rel := parent,
                                             since := s.time, took := s.time, idle := s.time, due := s.landing c.gid, ran := s.time,
                                             dist := if 2 ≤ go.n then 0 else go.dist,
                                             haz := if 2 ≤ go.n then outside.map (fun h => { h with at_ := 0 }) else go.haz }
            let y := ({ x with pool := Map.put x.pool e (.free x.ssfree), ssfree := some e }.joinOrder ex).setSplit c.slot none
            Becomes (.join w) s c.gid (y.setSplit 0 (some merged)))

/-- R105, R113, R399: lanes that exit leave the live mask and their split; when none is left the group ends and leaves its core's age order. -/
def Sys2Proof.Machine.ExitsStated : Prop :=
  ∀ s c x sp t (w : WC), Issuing s c x sp t → CleanPred x sp w.pred.toNat → Lone x c sp → x.pool = [] → x.region.opened = false →
    let T := activeMask x sp w.pred.toNat
    (T = 0 → exec (.exit w) s = .next s) ∧
      (T ≠ 0 → T ≠ sp.mask → x.live &&& ~~~T ≠ 0 →
        Becomes (.exit w) s c.gid ({ x with live := x.live &&& ~~~T }.setSplit c.slot (some { sp with mask := sp.mask &&& ~~~T }))) ∧
      (T ≠ 0 → T = x.live →
        ∃ u y, exec (.exit w) s = .next u ∧ Map.find u.groups c.gid = some y ∧ y.ended = true ∧ y.live = 0 ∧ y.s0 = none ∧ y.s1 = none ∧
          c.gid ∉ (u.coreOf x.core).order ∧ u.mem = s.mem ∧ u.hostMem = s.hostMem ∧
          ((x.path pathWrk).ops = [] → ∀ g, g ≠ c.gid → Map.find u.groups g = Map.find s.groups g))

/-- R115: the role switch: a reserved use where the kernel or the split stack does not allow it, a wait while an operation is in flight, and
otherwise the new role's entry, with the registers gained reading zero in the live lanes; the group has then seen every counter at 0 (R226). -/
def Sys2Proof.Machine.RoleSwitchStated : Prop :=
  ∀ s c x sp t (w : WC), Issuing s c x sp t → c.slot < 2 →
    let allowed := t.desc.roleen = true ∧ w.pred = 7 ∧ w.d = 0 ∧ w.imm.toNat < 2 ∧ x.split (1 - c.slot) = none ∧ x.pool = []
    let role := w.imm.toNat == 1
    let entry := if role then t.desc.entry1 else t.desc.entry0
    (t.desc.roleen = false ∨ w.d ≠ 0 ∨ 2 ≤ w.imm.toNat ∨ w.pred ≠ 7 ∨ (x.split (1 - c.slot)).isSome → CleanPred x sp w.pred.toNat →
      ReservedUse (.role w) s c (activeMask x sp w.pred.toNat)) ∧
    (allowed → x.region.opened = false → (s.coreOf x.core).mxq = [] → x.drained = false →
      Becomes (.role w) s c.gid (x.setSplit c.slot (some { sp with
        pc := c.pc, hdr := c.hdr, clause := some c.clause, wait := some .drain, wph := false, deadline := none, expired := c.expired, since := c.since }))) ∧
      (allowed → x.region.opened = false → (s.coreOf x.core).mxq = [] → x.drained = true → x.board = [] →
        ∃ v, exec (.role w) s = .next { seeAll s c.gid with groups := Map.put s.groups c.gid ({ x with role := role, v := v }.setSplit c.slot
            (some { sp with pc := entry, hdr := entry, clause := none, wait := none, wph := false })) } ∧
          ∀ r j, j < 128 → ({ x with v := v } : Group).rdV r j =
            if budget t.desc x.role ≤ r ∧ r < budget t.desc role ∧ inMask x.live j = true then Val.zero else x.rdV r j)

/-- R105, R113, R399: lanes that exit leave the live mask and their split; when none is left the group ends and leaves its core's age order. R115: the role switch: a reserved use where the kernel or the split stack does not allow it, a wait while an operation is in flight, and otherwise the new role's entry, with the registers gained reading zero in the live lanes. -/
def Obligations.ExitsAndRoles : Prop := ExitsStated ∧ RoleSwitchStated

/-- R239, R242 to R246: a region opens, after the commit of one that is open; a commit of a clean region closes it and releases its entries in order; a
flagged one branches to recovery in mode rel with its first token in s63 and discards its entries, releases them in mode fwd with its token orphaned, or parks
its failing lanes for replay in mode rpl with the bytes of the others released; lanes that a replay left waiting go on; reserved fields flag. -/
def Obligations.Regions : Prop :=
  ∀ s c x sp t (w : WD) (l : RegionLit) (v : WC), Issuing s c x sp t → Lone x c sp → x.pool = [] → x.board = [] → x.late = [] → t.view = 0 →
    (s.coreOf x.core).mxq = [] → (∀ q ∈ x.egress ++ x.region.qb, ∀ u o, q.place ≠ .scr u o) → (∀ q ∈ x.region.qb, q.stale = false) →
    let r := x.region
    let commits := [Instr.commitRel v, .commitRpl v, .commitFwd v, .commit v]
    let closed := fun (i : Instr) (y : Group) => ∃ u, exec i s = .next u ∧ RestKept s u c.gid ∧ Map.find u.groups c.gid = some y
    let recovers := fun (i : Instr) => ∃ z, closed i ({ x with region := .closed, s := z }.setSplit c.slot (some { sp with
        pc := r.recov, hdr := r.recov, clause := none, wait := none, wph := false, deadline := none, expired := false })) ∧
      ∀ k, ({ x with s := z } : Group).rdS k = if k = 63 then ⟨r.first, false⟩ else x.rdS k
    let openWord := w.pred = 7 ∧ l.mode ≠ 3 ∧ l.rsv = 0
    let closeWord := v.pred = 7 ∧ v.d = 0 ∧ v.imm.toNat < 4
    let opens := fun (y : Group) => { y with rid := (x.rid + 1) % 65535, region := { Region.closed with
        opened := true, mode := l.mode.toNat, limit := l.limit.toNat, start := (c.next, c.nextHdr), recov := c.pc + BitVec.ofInt 64 (4 * w.off.toInt) } }
    let released := { x with region := .closed }.releases sp.mask r.qb
    let kept := r.qb.filterMap (fun q => match q.red with
      | some _ => if inMask r.pm q.lane then none else some q
      | none =>
        let bs := q.bytes.filter (fun e => !inMask r.pm (e.2.2 % 128))
        if bs.isEmpty then none else some { q with bytes := bs, ptok := q.ptok.filter (fun e => !inMask r.pm (e.1 % 128)) })
    (openWord → r.opened = false → Becomes (.region w l) s c.gid (opens x)) ∧
      (openWord → r.opened = true → r.clean = [] → r.flag = false → closed (.region w l) (opens released)) ∧
      (openWord → r.opened = true → r.clean = [] → r.flag = true → r.mode = 0 → recovers (.region w l)) ∧
      (CleanPred x sp w.pred.toNat → ¬openWord → ReservedUse (.region w l) s c (activeMask x sp w.pred.toNat)) ∧
      (CleanPred x sp v.pred.toNat → ¬closeWord → ∀ i ∈ commits, ReservedUse i s c (activeMask x sp v.pred.toNat)) ∧
      (closeWord → r.opened = false → ∀ i ∈ commits, exec i s = .next s) ∧
      (closeWord → r.opened = true → r.flag = false → r.clean = [] → ∀ i ∈ commits, closed i released) ∧
      (closeWord → r.opened = true → r.flag = false → r.qb = [] → x.egress = [] → ∀ m, m ≠ 0 → r.clean = [(c.next, c.nextHdr, m)] →
        ∀ i ∈ commits, closed i ({ x with region := .closed }.setSplit c.slot (some { sp with mask := sp.mask ||| m }))) ∧
      (closeWord → r.opened = true → r.flag = true → r.clean = [] →
        recovers (.commitRel v) ∧ (r.mode = 0 → recovers (.commit v)) ∧ (r.allrpl = false ∨ r.limit ≤ r.replays → recovers (.commitRpl v))) ∧
      (closeWord → r.opened = true → r.flag = true → r.clean = [] →
        closed (.commitFwd v) { released with orphan := match r.nqtok with | some k => some (x.orphan.getD k) | none => x.orphan }) ∧
      (closeWord → r.opened = true → r.flag = true → r.clean = [] → r.allrpl = true → r.replays < r.limit →
        let others := sp.mask &&& ~~~r.pm
        ∃ u, exec (.commitRpl v) s = .next u ∧ Map.find u.groups c.gid = some (({ x with
            region := { r with qb := [], used := 0, clean := if others = 0 then [] else [(c.next, c.nextHdr, others)] }, asked := true, service := none }.releases
              sp.mask kept).setSplit c.slot
          (some { sp with pc := c.pc, hdr := c.hdr, mask := sp.mask &&& r.pm, wait := some .parked, wph := true,
                          deadline := some (s.time + ((Map.find s.ctxs x.ctx).map Ctx.faultUs).getD 100000 * 21000), since := s.time })))

/-- R236, R248 to R251: the poison-control words. A `PCLR.TAB` whose D or A is not 0 is a reserved use with no destination, flagged for lane 0 where no lane is
active; one that no lane is active for frees nothing, as `PSET.s` and `PCLR.s` then write nothing: that is the model's reading (log entry 44). -/
def Obligations.PoisonControlWords : Prop :=
  ∀ s c x sp t (w : WB) (v : WS), Issuing s c x sp t → CleanPred x sp w.pred.toNat →
    let act := active x sp w.pred.toNat
    let T := activeMask x sp w.pred.toNat
    let pd := w.d.toNat % 8
    let truth := fun (b : Bool) => LVal.val (if b then 1 else 0)
    let a7 := w.a.toNat
    let checks : List (Instr × Bool × (Nat → Bool)) :=
      [(.pchk w, w.func == 0, fun i => !(laneData x t a7 i).isVal), (.pchkP w, a7 < 8, fun i => (x.rdP (a7 % 8) i).poison),
       (.pchkS w, a7 < 64, fun _ => (x.rdS (a7 % 64)).poison), (.pchkReg w, w.a == 0, fun _ => x.region.opened && x.region.flag),
       (.pchkOrph w, w.a == 0, fun _ => x.orphan.isSome)]
    let bitsOf := fun (i : Nat) => match laneData x t a7 i with | .tok k => .val k.toNat | e => e
    let scalar := fun (i : Instr) (r : LVal) => Results i s c.gid x true (fun _ => true) ⟨.s, w.d.toNat % 64, 1⟩ (fun _ => r)
    decodeWord .control (WB.word 0x12 w) none =
        some (if w.func = 1 then .pchkP w else if w.func = 2 then .pchkS w else if w.func = 3 then .pchkReg w else if w.func = 4 then .pchkOrph w else .pchk w) ∧
      decodeWord .control (WS.word 0x13 v) none = some (.pinfo v) ∧
      (v.qual.toNat < 4 → x.rdQ v.qual.toNat = ⟨0, false⟩ → exec (.pinfo v) s = .next s) ∧
      (pd ≠ 7 → ∀ e ∈ checks, Results e.1 s c.gid x true act ⟨.p, pd, 1⟩ (fun i => if e.2.1 && w.d.toNat < 8 then truth (e.2.2 i) else .bad .malformed)) ∧
      (pd = 7 → ∀ e ∈ checks, ReservedUse e.1 s c T) ∧
      (InBudget x t w.d.toNat 1 →
        Results (.pset w) s c.gid x true act ⟨.v, w.d.toNat, 1⟩ (fun i =>
            if w.func = 0 then (match laneData x t a7 i with | .tok k => .tok k | .val n => .tok (BitVec.ofNat 32 n) | e => e) else .bad .malformed) ∧
          (w.func ≠ 0 ∨ InBudget x t a7 1 →
            Results (.pclr w) s c.gid x true act ⟨.v, w.d.toNat, 1⟩ (fun i => if w.func = 0 then bitsOf i else .bad .malformed)) ∧
          (w.func = 0 → ¬InBudget x t a7 1 →
            ∃ u ws k, exec (.pclr w) s = .next u ∧ RestKept s u c.gid ∧ Map.find u.groups c.gid = some (x.after true ws) ∧ k / 2 ^ 24 = Cause.code .malformed ∧
              x.wrAll ws = { x with v := (x.wrAll ws).v } ∧
              ∀ r j, j < 128 → (x.wrAll ws).rdV r j = if r = w.d.toNat ∧ act j = true then ⟨BitVec.ofNat 32 k, false⟩ else x.rdV r j)) ∧
      (T ≠ 0 →
        scalar (.psetS w) (if w.d.toNat < 64 ∧ a7 < 64 then .tok (x.rdS a7).bits else .bad .malformed) ∧
          scalar (.pclrS w) (if w.d.toNat < 64 ∧ a7 < 64 then .val (x.rdS a7).bits.toNat else .bad .malformed) ∧
          (w.d = 0 → w.a = 0 → exec (.pclrTab w) s = .next { s with cores := Map.put s.cores x.core { s.coreOf x.core with
            side := (s.coreOf x.core).side.filter (fun e => !(e.2.slot == x.slot && e.2.ctx == x.ctx)) } })) ∧
      (w.d ≠ 0 ∨ w.a ≠ 0 → ReservedUse (.pclrTab w) s c T) ∧
      (T = 0 → exec (.psetS w) s = .next s ∧ exec (.pclrS w) s = .next s ∧ (w.d = 0 → w.a = 0 → exec (.pclrTab w) s = .next s)) ∧
      (qualified x v.qual.toNat →
        (v.sub.toNat < 6 → v.sd.toNat % 2 = 0 → v.sb = 0 →
          let k := (x.rdS v.sa.toNat).bits
          let entry := Map.find (s.coreOf x.core).side (k.toNat / 65536 % 256)
          let own := k.toNat % 512 = t.vcore
          Results (.pinfo v) s c.gid x true (fun _ => true) ⟨.s, v.sd.toNat, 2⟩ (fun _ =>
            match entry with
            | some e =>
              if own ∧ e.token = k then .val (entryWord (s.coreOf x.core) (k.toNat / 65536 % 256) e v.sub.toNat).toNat
              else .val (if v.sub = 0 then k.toNat else 0)
            | none => .val (if v.sub = 0 then k.toNat else 0))) ∧
        (6 ≤ v.sub.toNat ∨ v.sd.toNat % 2 = 1 ∨ v.sb ≠ 0 →
          Results (.pinfo v) s c.gid x true (fun _ => true) ⟨.s, v.sd.toNat, if v.sd.toNat = 63 then 1 else 2⟩ (fun _ => .bad .malformed)))

/-- R377, R378, R381: TRAP and BKPT save the frame, TDATA the word's number, and start the handler with the active lanes; with no active lane
they do nothing, and with a nonzero D they are reserved uses. -/
def Sys2Proof.Machine.SoftwareTrapsStated : Prop :=
  ∀ s c x sp t (w : WC), Issuing s c x sp t → CleanPred x sp w.pred.toNat →
    let T := activeMask x sp w.pred.toNat
    (w.d = 0 → T ≠ 0 → Lone x c sp → x.pool = [] → x.board = [] → (s.coreOf x.core).mxq = [] → t.desc.traph ≠ 0 →
      Traps (.trap w) s c x sp t 5 w.imm.toNat c.next c.nextHdr T ∧ Traps (.bkpt w) s c x sp t 4 w.imm.toNat c.next c.nextHdr T) ∧
    (w.d = 0 → T = 0 → exec (.trap w) s = .next s ∧ exec (.bkpt w) s = .next s) ∧
      (w.d ≠ 0 → ReservedUse (.trap w) s c T ∧ ReservedUse (.bkpt w) s c T)

/-- R376, R377: outside a handler RTE, SREADP and SWRITEP take PRIV: TDATA is the word, and the word is not executed. -/
def Sys2Proof.Machine.PrivilegedOutsideHandlerStated : Prop :=
  ∀ s c x sp t (w : WC) (v : WS), Issuing s c x sp t → Lone x c sp → x.pool = [] → x.board = [] → (s.coreOf x.core).mxq = [] → t.desc.traph ≠ 0 →
    sp.mask ≠ 0 →
    (CleanPred x sp w.pred.toNat → activeMask x sp w.pred.toNat ≠ 0 →
      Traps (.rte w) s c x sp t 2 c.word.toNat c.pc c.hdr (activeMask x sp w.pred.toNat)) ∧
      (qualified x v.qual.toNat →
        Traps (.sreadp v) s c x sp t 2 c.word.toNat c.pc c.hdr sp.mask ∧ Traps (.swritep v) s c x sp t 2 c.word.toNat c.pc c.hdr sp.mask)

/-- R377, R378, R381: TRAP and BKPT save the frame, TDATA the word's number, and start the handler with the active lanes; with no active lane they do nothing, and with a nonzero D they are reserved uses. R376, R377: outside a handler RTE, SREADP and SWRITEP take PRIV: TDATA is the word, and the word is not executed. -/
def Obligations.TrapsTaken : Prop := SoftwareTrapsStated ∧ PrivilegedOutsideHandlerStated

/-- R382: RTE restores what the trap saved: the trapping split goes on at TPC in the clause at THDR with TFMT and its lanes still live. -/
def Obligations.ReturnFromTrap : Prop :=
  ∀ s c x sp t (w : WC) (k : SavedTable) (z : Split), Issuing s c x sp t → CleanPred x sp w.pred.toNat → c.slot = 0 → x.saved = some k →
    (w.pred = 7 → w.d = 0 → x.s1 = none → x.newest = none → x.region.opened = false → x.pool = [] → x.board = [] → x.ended = false →
      k.tslot = 0 → k.s0 = some z → k.s1 = none → k.newest = none → k.region.clean = [] → x.trap.tmask &&& x.live ≠ 0 →
      Becomes (.rte w) s c.gid { x with
        s0 := some { z with pc := x.trap.tpc, hdr := x.trap.thdr, fmt := x.trap.tfmt, mask := x.trap.tmask &&& x.live, clause := none, wait := none,
                            wph := false, deadline := none, expired := false, again := false, idle := s.time, haz := [], step := x.trap.step.getLsbD 0 }
        s1 := none, sshw := k.sshw, ssfree := k.ssfree, oldest := k.oldest, newest := none, region := k.region, rid := k.rid, saved := none }) ∧
      (w.pred ≠ 7 ∨ w.d ≠ 0 ∨ x.s1.isSome ∨ x.newest.isSome ∨ x.region.opened = true → ReservedUse (.rte w) s c (activeMask x sp w.pred.toNat))

/-- R378, R383: in a handler SREADP reads the trap frame, and SWRITEP writes TPC, THDR, TFMT and STEP, with their fixed bits as zero. -/
def Obligations.PrivilegedRegisters : Prop :=
  ∀ s c x sp t (w : WS), Issuing s c x sp t → qualified x w.qual.toNat → x.saved.isSome = true →
    let n := w.sa.toNat * 64 + w.sb.toNat
    let f := x.trap
    let word := fun (m : Mask) (k : Nat) => if k < x.width / 32 then (m.extractLsb' (32 * k) 32).toNat else 0
    let regs : List (Nat × Nat × Nat) :=
      [(0x000, f.treason.toNat, 1), (0x001, f.tdata.toNat, 1), (0x002, f.tpc.toNat, 2), (0x004, f.thdr.toNat, 2), (0x006, f.tfmt.toNat, 1),
       (0x007, f.tdepth.toNat, 1), (0x008, word f.tmask 0, 1), (0x009, word f.tmask 1, 1), (0x00A, word f.tmask 2, 1), (0x00B, word f.tmask 3, 1),
       (0x00C, f.opc.toNat, 2), (0x00E, f.ohdr.toNat, 2), (0x010, word f.omask 0, 1), (0x011, word f.omask 1, 1), (0x012, word f.omask 2, 1),
       (0x013, word f.omask 3, 1), (0x014, f.ostate.toNat, 1), (0x016, f.sstate.toNat, 1), (0x017, f.step.toNat, 1)]
    let out := fun (k : Nat) (r : LVal) => Results (.sreadp w) s c.gid x true (fun _ => true) ⟨.s, w.sd.toNat, k⟩ (fun _ => r)
    let clean := fun (r : Nat) => (x.rdS r).poison = false
    let lo := (x.rdS w.sd.toNat).bits
    let pair := (x.rdS (w.sd.toNat + 1)).bits ++ lo
    let writes := fun (g : TrapFrame) => Becomes (.swritep w) s c.gid { x with trap := g }
    (∀ e ∈ regs, n = e.1 → w.sub = 0 → (e.2.2 = 2 → w.sd.toNat % 2 = 0) → out e.2.2 (.val e.2.1)) ∧
      (∀ e ∈ regs, n = e.1 → e.2.2 = 2 → w.sd.toNat % 2 = 1 → out 1 (.bad .malformed)) ∧
      (∀ e ∈ regs, n = e.1 → w.sub ≠ 0 → (e.2.2 = 2 → w.sd.toNat % 2 = 0) → out e.2.2 (.bad .malformed)) ∧
      ((∀ e ∈ regs, n ≠ e.1) → out 1 (.bad .malformed)) ∧
      (w.sub = 0 → w.sd.toNat % 2 = 0 → clean w.sd.toNat → clean (w.sd.toNat + 1) →
        (n = 0x002 → writes { f with tpc := pair &&& ~~~3 }) ∧ (n = 0x004 → writes { f with thdr := pair &&& ~~~3 })) ∧
      (w.sub = 0 → clean w.sd.toNat →
        (n = 0x006 → writes { f with tfmt := lo &&& 0xFFFF7FFF }) ∧ (n = 0x017 → writes { f with step := lo &&& 1 })) ∧
      (w.sub ≠ 0 ∨ n ∉ [0x002, 0x004, 0x006, 0x017] ∨ (n ∈ [0x002, 0x004] ∧ w.sd.toNat % 2 = 1) → ReservedUse (.swritep w) s c sp.mask)

/-- R377, R380, R384, R402: without a handler a trap ends the group with TRAP_UNHANDLED, in a handler with DOUBLE_TRAP; HALTG ends it with HALTED
and the launch's first code. -/
def Obligations.GroupsEndedByTraps : Prop :=
  ∀ s c x sp t (w : WC) (r : Grid), Issuing s c x sp t → CleanPred x sp w.pred.toNat → x.ended = false → Map.find s.grids t.grid = some r →
    let T := activeMask x sp w.pred.toNat
    (w.d = 0 → T ≠ 0 → x.pool = [] → (s.coreOf x.core).mxq = [] →
      (x.saved.isSome = true → EndsGroup (.trap w) s c x r t.grid 3 r.hcode ∧ EndsGroup (.bkpt w) s c x r t.grid 3 r.hcode) ∧
      (x.saved = none → t.desc.traph = 0 → EndsGroup (.trap w) s c x r t.grid 2 r.hcode ∧ EndsGroup (.bkpt w) s c x r t.grid 2 r.hcode)) ∧
    (w.d = 0 → w.imm.toNat < 256 → T ≠ 0 → EndsGroup (.haltg w) s c x r t.grid 1 (some (r.hcode.getD w.imm.toNat))) ∧
      (w.d = 0 → w.imm.toNat < 256 → T = 0 → exec (.haltg w) s = .next s) ∧
      (w.d ≠ 0 ∨ 256 ≤ w.imm.toNat → ReservedUse (.haltg w) s c T)

/-- R168, R169, R173, R177 to R180: a matrix word whose fields are in order is accepted into its core's queue with what it read as it issued:
its active rows, its registers and records, and FMT; nothing else changes. -/
def Obligations.MatrixWordsAccepted : Prop :=
  ∀ s c x sp t (w : WA) (v : WB) (k : WC) (l : MmaLit) (z : SpLit), Issuing s c x sp t → CleanPred x sp w.pred.toNat → v.pred = w.pred → k.pred = w.pred →
    (s.coreOf x.core).mxq.length < 4 → (∀ e ∈ (s.coreOf x.core).mxq, e.gid ≠ c.gid) →
    let lanes := (List.range 128).filter (active x sp w.pred.toNat)
    let accepts := fun (i : Instr) (op : MxOp) => exec i s = .next { s with
      cores := Map.put s.cores x.core { s.coreOf x.core with mxq := (s.coreOf x.core).mxq ++ [⟨c.gid, c.pc, sp.fmt, op, none, none⟩] } }
    let regs := fun (a n : Nat) (rows : List Nat) => rows.map (fun i => (i, (List.range n).map (fun k => laneData x t (a + k) i)))
    let n := v.func.toNat % 8 + 1
    let pair := fun (r : Nat) => (x.rdS r).bits.toNat + (x.rdS (r + 1)).bits.toNat * 2 ^ 32
    let clean := fun (r : Nat) => (x.rdS r).poison = false ∧ (x.rdS (r + 1)).poison = false
    let rows := lanes.filter (fun i => i < 32 * 2 ^ l.mcode.toNat)
    let b := pair w.b.toNat
    (∀ e ∈ [(Instr.mma w l, 0), (.mmai w l, 1), (.mmab w l, 2)], mmaRsv e.2 (wxOf c s) w l = false → clean w.b.toNat → brecBad b = false → b.testBit 35 = false →
      accepts e.1 (.mul e.2 w.d.toNat l (regs w.a.toNat 16 rows) b 0)) ∧
      (mmaRsv 3 (wxOf c s) w l = false → clean w.b.toNat → clean l.mrec.toNat → brecBad b = false → mrecBad (pair l.mrec.toNat) = false → b.testBit 35 = false →
        accepts (.mmas w l) (.mul 3 w.d.toNat l (regs w.a.toNat 32 rows) b (pair l.mrec.toNat))) ∧
      (0 < k.imm.toNat → k.imm.toNat ≤ 128 → k.d.toNat + k.imm.toNat ≤ t.desc.tasb → accepts (.aclr k) (.fill k.d.toNat k.imm.toNat lanes (.val 0))) ∧
      (v.func.toNat < 8 → v.d.toNat + n ≤ t.desc.tasb → accepts (.ald v) (.load v.d.toNat (regs v.a.toNat (16 * n) lanes))) ∧
      (v.func.toNat < 8 → v.a.toNat + n ≤ t.desc.tasb → InBudget x t v.d.toNat (16 * n) → accepts (.ast v) (.store v.d.toNat v.a.toNat n lanes)) ∧
      (∀ r, cvtRegs (sp.fmt.extractLsb' 8 4).toNat n = some r → (modeOf sp plainX).isSome → v.func.toNat < 16 → v.a.toNat + n ≤ t.desc.tasb → InBudget x t v.d.toNat r →
        even v.d = true → accepts (.acvt v none) (.convert v.d.toNat v.a.toNat n (v.func.toNat.testBit 3) (sp.fmt.extractLsb' 12 3).toNat lanes)) ∧
      (z.nblk ≠ 0 → w.d.toNat + z.nblk.toNat ≤ t.desc.tasb → w.a = 0 → w.b.toNat < 64 → (x.rdS w.b.toNat).poison = false → (x.rdS w.b.toNat).bits.toNat % 64 = 0 →
        accepts (.alds w z) (.alds w.d.toNat (x.rdS w.b.toNat).bits.toNat z lanes) ∧ accepts (.asts w z) (.asts w.d.toNat (x.rdS w.b.toNat).bits.toNat z lanes))

/-- R179: register `j` of one lane's `ACVT` of `n` blocks whose elements are `v`: each element as FP32 or a signed integer, times 2^`osc`, converted to format `of`
and placed where the table puts it; the token of a poisoned element, and FP_INVALID for a signalling NaN or any NaN to INT8, the lowest-numbered element first. -/
def Sys2Proof.Machine.converted (of : Nat) (osc : Int) (mode : RMode) (int : Bool) (n : Nat) (v : Nat → Val) (j : Nat) : LVal :=
  let num := fun (e : Nat) => (if int then FNum.ofInt (v e).bits.toInt else fp32.decode (v e).bits.toNat).scale osc
  let invalid := fun (e : Nat) => (num e).isSNaN || (of == 4 && (num e).isNaN)
  let coded := fun (e : Nat) =>
    if of = 8 then roundFloat fp32 mode (num e)
    else if of = 0 then roundFloat bf16 mode (num e)
    else if of = 1 then roundFloat fp16 mode (num e)
    else if of = 2 then encodeTapered t8 (num e)
    else if of = 3 then encodeTapered t6 (num e)
    else (((roundInt (-128) 127 mode (num e)).getD 0) % 256).toNat
  -- the elements written into the register, each with its lowest bit counted from bit 0 of its register, or of its pair for T6
  let places : List (Nat × Nat) :=
    if of = 8 then [(j, 0)]
    else if of = 0 ∨ of = 1 then [(2 * j, 0), (2 * j + 1, 16)]
    else if of = 3 then (if j % 2 = 0 then [0, 1, 2, 3, 4, 5] else [5, 6, 7, 8, 9]).map (fun q => (10 * (j / 2) + q, 6 * q))
    else [(4 * j, 0), (4 * j + 1, 8), (4 * j + 2, 16), (4 * j + 3, 24)]
  let held := places.filter (fun p => p.1 < 16 * n)
  match held.find? (fun p => (v p.1).poison || invalid p.1) with
  | some p => if (v p.1).poison then .tok (v p.1).bits else .bad .fpInvalid
  | none => .val ((held.map (fun p => coded p.1 * 2 ^ p.2)).sum / 2 ^ (if of = 3 then 32 * (j % 2) else 0) % 2 ^ 32)

/-- R170, R173, R177 to R180: the head of a core's matrix queue takes effect: a multiply writes its elements from its rows, its columns and the old
accumulators, a clear and a load write elements, a store and a conversion write registers, and `ALDS` and `ASTS` move rows from and to scratchpad; an entry
that waits for a join window does not (R165). -/
def Sys2Proof.Machine.MatrixQueueHeadStated : Prop :=
  ∀ s core e q x t, (s.coreOf core).mxq = e :: q → Map.find s.groups e.gid = some x → Map.find s.teams x.team = some t → x.ended = false → x.resident = true →
    e.join = none → x.armed = [] → (∀ h ∈ s.groups, ∀ q ∈ h.2.egress, q.owed = 0) →
    let fmt := e.fmt
    ∃ u y, exec (.matrixQueueExecute core) s = .next u ∧ (u.coreOf core).mxq = q ∧ Map.find u.groups e.gid = some y ∧ MemoryKept s u ∧
      match e.op with
      | .mul op d l rows b m =>
        y = { x with tas := y.tas } ∧
          ((rows.map (fun r => r.1)).Nodup → (∀ r ∈ rows, r.1 < 128) → bits b 32 3 = 7 → ∀ K, mulK op (l.iacc == 1) (afmtOf fmt) (bfmtOf fmt) = some K →
            ∀ r ∈ rows, ∀ j < 16 * l.ncode.toNat, ∀ rn re cn ce, rowOf (afmtOf fmt) K r.2 = .ok (rn, re) →
              columnOf { s with draws := s.draws + 1 } x (.ok x.team) x.team op K (bfmtOf fmt) b m j e.got = .ok (cn, ce) →
              Leaves (mulElem op l (pscaleOf fmt) ((rmodeOf (bits fmt.toNat 12 3)).getD .rne) rn re cn ce (x.tasAt (d + j / 16) r.1 (j % 16))) 0
                (y.tasAt (d + j / 16) r.1 (j % 16)))
      | .fill d n rows v => y = { x with tas := y.tas } ∧ (rows.Nodup → ∀ i ∈ rows, i < 128 → ∀ b < n, ∀ k < 16, Leaves v 0 (y.tasAt (d + b) i k))
      | .load d rows =>
        y = { x with tas := y.tas } ∧ ((rows.map (fun r => r.1)).Nodup → ∀ r ∈ rows, r.1 < 128 → ∀ k v, r.2[k]? = some v → Leaves v 0 (y.tasAt (d + k / 16) r.1 (k % 16)))
      | .store d a n rows =>
        y = { x with v := y.v } ∧ (rows.Nodup → ∀ i ∈ rows, i < 128 → ∀ k < 16 * n, y.rdV (d + k) i = x.tasAt (a + k / 16) i (k % 16))
      | .convert d a n int rm rows =>
        y = { x with v := y.v } ∧
          (rows.Nodup → ∀ i ∈ rows, i < 128 → ∀ mode, rmodeOf rm = some mode → ∀ k, cvtRegs (ofmtOf fmt) n = some k →
            ∀ j < k, Leaves (converted (ofmtOf fmt) (oscaleOf fmt) mode int n (fun e => x.tasAt (a + e / 16) i (e % 16)) j) 0 (y.rdV (d + j) i))
      | .alds d o l rows =>
        y = { x with tas := y.tas } ∧
          (rows.Nodup → x.pending = [] → ∀ i ∈ rows, i < 128 → ∀ b < l.nblk.toNat, ∀ k < 16,
            let at_ := o + 64 * (l.bstr.toNat * b + l.rstr.toNat * i)
            (t.desc.scr * 1024 < at_ + 64 → Leaves (.bad .bounds) 0 (y.tasAt (d + b) i k)) ∧
              (at_ + 64 ≤ t.desc.scr * 1024 → at_ % 4 = 0 → SeenWord s x.team (at_ / 4 + k) → y.tasAt (d + b) i k = s.scrWord x.team (at_ / 4 + k)))
      | .asts d o l rows =>
        y.v = x.v ∧ y.tas = x.tas ∧
          (rows.Nodup → o % 64 = 0 → x.region.opened = false →
            let at_ := fun (b i : Nat) => o + 64 * (l.bstr.toNat * b + l.rstr.toNat * i)
            let inside := fun (b i : Nat) => i ∈ rows ∧ b < l.nblk.toNat ∧ at_ b i + 64 ≤ t.desc.scr * 1024
            (∀ b i, inside b i → i < 128 → (∀ c j, inside c j → at_ c j = at_ b i → c = b ∧ j = i) →
              ∀ k < 16, u.scrWord x.team (at_ b i / 4 + k) = x.tasAt (d + b) i k) ∧
            (∀ m w, m ≠ x.team ∨ (∀ b i, inside b i → w < at_ b i / 4 ∨ at_ b i / 4 + 16 ≤ w) → u.scrWord m w = s.scrWord m w) ∧
            ((∃ i ∈ rows, ∃ b < l.nblk.toNat, t.desc.scr * 1024 < at_ b i + 64) →
              ∃ tok, y.orphan = some (x.orphan.getD tok) ∧ tok.toNat / 2 ^ 24 = Cause.code .bounds) ∧
            ((∀ i ∈ rows, ∀ b < l.nblk.toNat, at_ b i + 64 ≤ t.desc.scr * 1024) → y = x))

/-- R116, R161, R171: a row of A: its registers form one little-endian string; a poisoned register gives its token, a NaV the cause FP_INVALID. -/
def Sys2Proof.Machine.MatrixRowsStated : Prop :=
  (∀ (fmt K : Nat) (rs : List Nat), (∀ n ∈ rs, n < 2 ^ 32) →
    let row := rs.foldr (fun n a => n + a * 2 ^ 32) 0
    let es := (List.range K).map (fun k => decodeElem fmt (if fmt = 3 then row / 2 ^ (64 * (k / 10) + 6 * (k % 10)) % 64 else row / 2 ^ (elemWidth fmt * k) % 2 ^ elemWidth fmt))
    (none ∈ es → rowOf fmt K (rs.map .val) = .error (.bad .fpInvalid)) ∧ (none ∉ es → rowOf fmt K (rs.map .val) = .ok (row, es.filterMap id))) ∧
  ∀ (fmt K : Nat) (rs : List Nat) (t : Word) (l : List LVal), rowOf fmt K (rs.map .val ++ .tok t :: l) = .error (.tok t)

/-- R162 to R165, R171, R172: a column of B: 64 bytes of its owner's scratchpad, or of what a join window delivered; of `MMAS` each kept element at the place that
its metadata gives; one that cannot be read, holds poison, or holds a NaV or a signalling NaN gives one cause or token to the whole column. -/
def Sys2Proof.Machine.MatrixColumnsStated : Prop :=
  ∀ (s : State) (x : Group) (z : Team) (owner op K fmt b m j : Nat), Map.find s.teams owner = some z → x.pending = [] → op < 3 →
    let off := b % 2 ^ 19 + 64 * (b / 2 ^ 19 % 2 ^ 12) * j
    let col := columnOf s x (.ok owner) x.team op K fmt b m j none
    let words := (List.range 16).map (fun k => s.scrWord owner (off / 4 + k))
    let n := words.foldr (fun v a => v.bits.toNat + a * 2 ^ 32) 0
    let es := elems fmt K n
    (∀ f, columnOf s x (.error f) x.team op K fmt b m j none = .error (.new f)) ∧
    (z.desc.scr * 1024 < off + 64 → col = .error (.bad .bounds)) ∧
    (off + 64 ≤ z.desc.scr * 1024 → off % 4 = 0 → (∀ k < 16, SeenWord s owner (off / 4 + k)) →
      (∀ v, words.find? (·.poison) = some v → col = .error (.tok v.bits)) ∧
      ((∀ v ∈ words, v.poison = false) →
        (es = none ∨ (∃ l, es = some l ∧ ∃ e ∈ l, e.isSNaN = true) → col = .error (.bad .fpInvalid)) ∧
        (∀ l, es = some l → (∀ e ∈ l, e.isSNaN = false) → col = .ok (n, (List.range K).zip l) ∧
          ∀ (got : List LVal) (t : Except Fail Nat), got[j]? = some (.val n) → columnOf s x t x.team op K fmt b m j (some got) = .ok (n, (List.range K).zip l)))) ∧
    ∀ (l : List FNum) (md : Nat) (own : Team), elems fmt (K / 2) n = some l → (∀ e ∈ l, e.isSNaN = false) → K % 8 = 0 → Map.find s.teams x.team = some own →
      let mo := m % 2 ^ 19 + K / 8 * j
      let kept := columnOf s x (.error { cause := .bounds }) x.team 3 K fmt b m j (some (List.replicate (j + 1) (.val n)))
      let nib := fun (g : Nat) => md / 16 ^ g % 16
      (own.desc.scr * 1024 < mo + K / 8 → kept = .error (.bad .bounds)) ∧
      (mo + K / 8 ≤ own.desc.scr * 1024 → scrSeen s x x.team mo (K / 8) = .val md →
        ((∃ g < K / 4, nib g / 4 ≤ nib g % 4) → kept = .error (.bad .malformed)) ∧
        ((∀ g < K / 4, nib g % 4 < nib g / 4) →
          kept = .ok (n, ((List.range (K / 2)).map (fun e => 4 * (e / 2) + (if e % 2 = 0 then nib (e / 2) % 4 else nib (e / 2) / 4))).zip l)))

/-- R129, R162, R170: one element of a multiply: the token of a poisoned old value that is kept, the sum of the products of its row and column, the integer sum in
ascending order, clamped after each term under SAT, or the count of a binary one. -/
def Sys2Proof.Machine.MatrixElementsStated : Prop :=
  ∀ (l : MmaLit) (k : Int) (mode : RMode) (rn cn : Nat) (row : List FNum) (col : List (Nat × FNum)) (old : Val),
    let elem := fun (op : Nat) (row : List FNum) (col : List (Nat × FNum)) => mulElem op l k mode rn row cn col old
    let acc := if l.zero = 1 then 0 else old.bits.toNat
    let step := fun (a t : Int) => if l.sat = 1 then max (-2 ^ 31) (min (2 ^ 31 - 1) (a + t)) else (a + t + 2 ^ 31) % 2 ^ 32 - 2 ^ 31
    let start := (BitVec.ofNat 32 acc).toInt
    let count := fun (p : Nat → Bool) => (((List.range 512).filter p).length : Int)
    (l.zero = 0 → old.poison = true → ∀ op, elem op row col = .tok old.bits) ∧
    (l.zero = 1 ∨ old.poison = false →
      (∀ op, op = 0 ∨ (op = 3 ∧ l.iacc = 0) → ∀ as : List FNum, as.length = col.length → (∀ e ∈ col.zip as, row[e.1.1]? = some e.2) →
        elem op row col = floatResult fp32 false (windowSum ((as.zip (col.map (·.2))).map (fun e => product k e.1 e.2)) (fp32.decode acc) mode)) ∧
      (∀ op, op = 1 ∨ (op = 3 ∧ l.iacc = 1) → ∀ as bs : List Int, as.length = bs.length → col.map (·.2) = bs.map FNum.ofInt →
        (∀ e ∈ col.zip as, row[e.1.1]? = some (FNum.ofInt e.2)) →
        elem op row col = .val (BitVec.ofInt 32 ((as.zip bs).foldl (fun a e => step a (e.1 * e.2)) start)).toNat) ∧
      elem 2 row col = .val (BitVec.ofInt 32 (step start (if l.bmode = 0 then 512 - 2 * count (fun i => rn.testBit i != cn.testBit i)
        else count (fun i => rn.testBit i && cn.testBit i)))).toNat)

/-- R170, R173, R177 to R180: the head of a core's matrix queue takes effect and leaves it: multiplies, zeroing, block moves, conversions and the moves to and from
scratchpad, each on the elements, registers or words it names and on nothing else. R161 to R165, R171, R172: the rows and columns of a multiply, and one element;
its sum is part of SpecialInputs. -/
def Obligations.MatrixQueueExecutes : Prop := MatrixQueueHeadStated ∧ MatrixRowsStated ∧ MatrixColumnsStated ∧ MatrixElementsStated

/-- R207 to R213, R219: a load's lanes receive what their addresses hold, late, and everything else keeps its value; reserved fields poison its registers. -/
def Sys2Proof.Machine.LoadWordsStated : Prop :=
  ∀ s c x sp t (w : WA) (l : MemLit), Issuing s c x sp t → CleanPred x sp w.pred.toNat → (∀ q ∈ x.egress, q.red = none) →
    let act := active x sp w.pred.toNat
    let n := szRegs l.sz.toNat
    let size := szBytes l.sz.toNat
    let wx := wxOf c s
    let i0 := lowest (activeMask x sp w.pred.toNat)
    let constant := l.sz ≠ 7 ∧ l.space = 0 ∧ (l.bk = 1 ∨ (l.bk = 2 ∧ l.base = 0)) ∧ l.ord = 0 ∧ l.scope = 0 ∧ (l.ix = 0 → w.a = 0) ∧ w.b = 0 ∧ SizeOk l w.d
    let loads := MemOk l w.a ∧ OrdOk l ∧ w.b = 0
    let loaded := fun (i : Instr) (on : Nat → Bool) (d : VDest) (res : Nat → LVal) => ∃ u ws, exec i s = .next u ∧ ReadKept s u c.gid ∧
      Map.find u.groups c.gid = some (x.after true ws) ∧ WritesOf x on d res ws
    let spoiled := fun (i : Instr) => ∀ m, InBudget x t w.d.toNat m → m ≤ n → (m < n → ¬InBudget x t w.d.toNat (m + 1)) → 0 < m →
      Results i s c.gid x true act ⟨.v, w.d.toNat, m⟩ (fun _ => .bad .malformed)
    (loads → SizeOk l w.d → InBudget x t w.d.toNat n →
      loaded (.ld w l) act ⟨.v, w.d.toNat, n⟩ (fun i => loadAt s wx l i (laneTarget s wx l w.a.toNat l.disp.toInt .read size i))) ∧
    (constant → InBudget x t w.d.toNat n →
      loaded (.ldc w l) act ⟨.v, w.d.toNat, n⟩ (fun i => loadAt s wx l i (constTarget s wx l w.a.toNat i))) ∧
    (loads → SizeOk l w.d → l.ix = 0 → w.d.toNat < 64 → activeMask x sp w.pred.toNat ≠ 0 →
      loaded (.ldu w l) (fun _ => true) ⟨.s, w.d.toNat, n⟩ (fun _ => loadAt s wx l i0 (laneTarget s wx l 0 l.disp.toInt .read size i0))) ∧
    (activeMask x sp w.pred.toNat = 0 → exec (.ldu w l) s = .next s) ∧
    (MemOk l w.a → l.sz = 0 → l.space = 0 → l.ord = 0 → l.scope = 0 → w.b = 0 → w.d.toNat < 2 →
      ∃ u, exec (.pref w l) s = .next u ∧ ReadKept s u c.gid ∧ u.groups = s.groups ∧ u.mem = s.mem ∧ u.poisoned = s.poisoned) ∧
    (¬(loads ∧ SizeOk l w.d) → spoiled (.ld w l)) ∧ (¬constant → spoiled (.ldc w l)) ∧
    (¬(loads ∧ SizeOk l w.d ∧ l.ix = 0 ∧ w.d.toNat < 64) → activeMask x sp w.pred.toNat ≠ 0 →
      Results (.ldu w l) s c.gid x true (fun _ => true) ⟨.s, w.d.toNat % 64, min n (64 - w.d.toNat % 64)⟩ (fun _ => .bad .malformed)) ∧
    (¬(MemOk l w.a ∧ l.sz = 0 ∧ l.space = 0 ∧ l.ord = 0 ∧ l.scope = 0 ∧ w.b = 0 ∧ w.d.toNat < 2) →
      ReservedUse (.pref w l) s c (activeMask x sp w.pred.toNat))

/-- R183, R187, R191: a lane offset below LIMIT goes through its x register, another through the page table; a write needs W, and the physical address gives the
place. -/
def Sys2Proof.Machine.OffsetTranslatedStated : Prop :=
  ∀ (s : State) (k : Ctx) (r : XReg) (acc : Acc) (off : Int) (key : Nat),
    let o := (off % 2 ^ 64).toNat
    let va := (r.vbase.toNat + o) % 2 ^ 64
    (o < r.limit.toNat →
      (acc = .write → r.w = false → translateX s k r acc off key = .error (vaFail va .pageProt .write)) ∧
        (acc = .fetch → r.nx = true → translateX s k r acc off key = .error (vaFail va .pageProt .none)) ∧
        ((acc = .write → r.w = true) → (acc = .fetch → r.nx = false) → ∀ p, decodePA s k.port (r.frame.toNat + o) = .ok p →
          translateX s k r acc off key = .ok ⟨p, r.ca.toNat, pteLine s r.ptea.toNat, va⟩)) ∧
      (r.limit.toNat ≤ o → translateX s k r acc off key = translate s k acc va key)

/-- R164, R208: `Address(i)`: DISP and the scaled signed index are added to the base; global offsets and virtual addresses wrap at 2^64, scratchpad offsets do not
and lie within their owner's SCR KiB; a misaligned address fails after its translation; a poisoned base comes before a poisoned index. -/
def Sys2Proof.Machine.LaneAddressStated : Prop :=
  OffsetTranslatedStated ∧
  ∀ s c x sp t k (l : MemLit) (a : BitVec 7) (i size : Nat) (acc : Acc) (disp : Int), Issuing s c x sp t → x.armed = [] → Map.find s.ctxs x.ctx = some k → MemOk l a → 0 < size →
    let found := laneTarget s (wxOf c s) l a.toNat disp acc size i
    let key := freeKey s.draws 10 i
    let r := l.base.toNat
    let base : LVal := if l.bk ≠ 1 then .val 0 else if l.space = 0 then asPair (x.rdS r) (x.rdS (r + 1)) else asLVal (x.rdS r)
    let index : LVal := if l.ix = 1 then laneData x t a.toNat i else .val 0
    (∀ e, base = .tok e → found = .error (.tok e)) ∧
    (∀ b, base = .val b → index.isVal = false → found = .error index) ∧
    ∀ b n, base = .val b → index = .val n →
      let off : Int := disp + (if l.ix = 1 then (BitVec.ofNat 32 n).toInt * 2 ^ l.scale.toNat else 0)
      let o : Int := b + off
      let misaligned : Fail := { cause := .bounds, detail := .misaligned }
      let inPad := fun (u : Nat) (z : Team) =>
        (o < 0 ∨ (z.desc.scr * 1024 : Int) < o + size → found = .error (.bad .bounds)) ∧
          (0 ≤ o → o + size ≤ (z.desc.scr * 1024 : Int) → o % size ≠ 0 → found = .error (.new misaligned)) ∧
          (0 ≤ o → o + size ≤ (z.desc.scr * 1024 : Int) → o % size = 0 → found = .ok ⟨.scr u o.toNat, 0, none, o.toNat⟩)
      let rank := l.space.toNat - 4
      let failed := fun (cause : Cause) (d : Detail) => found = .error (.new { cause := cause, detail := d, akind := .peer, addr := rank })
      let tr := if l.bk = 0 then translateX s k (Map.get XReg.zero x.x r) acc off key else translate s k acc (o % 2 ^ 64).toNat key
      (l.space = 0 →
        (∀ e, tr = .error e → found = .error (.new e)) ∧
        ∀ v, tr = .ok v →
          (v.va % size ≠ 0 → found = .error (.new (vaFail v.va .bounds .misaligned))) ∧
          (v.va % size = 0 → (∀ p z, v.place ≠ .peer p z) → found = .ok v) ∧
          (v.va % size = 0 → ∀ p z, v.place = .peer p z → found = (match peerCheck s x.ctx p with | some e => .error (.new e) | none => .ok v))) ∧
      (l.space = 1 → inPad x.team t) ∧
      (4 ≤ l.space.toNat →
        (t.tuple.isSome = true → rank = t.crank → inPad x.team t) ∧
        (t.tuple = none → failed .peerInvalid .unpopulated) ∧
        ∀ q u, t.tuple = some q → Map.find s.tuples q = some u → rank ≠ t.crank →
          (u.teams[rank]? = none → failed .peerInvalid .unpopulated) ∧
          ∀ m, u.teams[rank]? = some m →
            (rank ∉ u.fenced → Map.find s.teams m = none → failed .peerInvalid .disabled) ∧
            (rank ∈ u.fenced → failed .dieFenced .none) ∧
            ∀ z, rank ∉ u.fenced → Map.find s.teams m = some z →
              ((∀ g ∈ z.groups, (s.grp g).ended = true) → failed .peerInvalid .disabled) ∧
              ((∃ g ∈ z.groups, (s.grp g).ended = false) → inPad m z))

/-- R200, R211, R237, R405: a load reads its group's own newest pending store, else the sector as its view sees it: the bytes in little-endian order, the token
of a poisoned sector, or ECC_CACHE; and whole clean scratchpad words. -/
def Sys2Proof.Machine.LoadedBytesStated : Prop :=
  ∀ (s : State) (x : Group) (view key k n u : Nat), 0 < n → k % 32 + n ≤ 32 →
    let dev := loadPlace s x view key (.dev k) n
    let quiet := ∀ q ∈ x.pending, q.place ≠ .dev (k / 32 * 32) ∨ q.red.isSome = true
    let seen := s.seenAs view (k / 32)
    let met := s.readError x.core seen
    let region := regionOf x.core
    let sec := s.devSector view (k / 32)
    (quiet → met = none → sec.token = none → dev = .val (sec.data / 2 ^ (8 * (k % 32)) % 2 ^ (8 * n))) ∧
      (quiet → met = none → ∀ w, sec.token = some w → dev = .tok w) ∧
      (quiet → ∀ e, met = some e → dev = .new { cause := e.1, detail := e.2, akind := .phys, addr := k / 32 * 32 }) ∧
      (quiet → (s.coreOf x.core).l1Has seen = false → Map.get false s.l2bad (inRegion seen region) = true →
        dev = .new { cause := .eccCache, detail := if s.dirtyBad region seen then .l2Dirty else .l2Clean, akind := .phys, addr := k / 32 * 32 }) ∧
      (∀ q ps v lane, x.pending = ps ++ [q] → q.place = .dev (k / 32 * 32) → q.red = none → q.ptok = [] → q.bytes = bytesAt (k % 32) n v lane →
        dev = .val (v % 2 ^ (8 * n))) ∧
      (∀ o, x.pending = [] → SeenWord s u o → (s.scrWord u o).poison = false → loadPlace s x view key (.scr u (4 * o)) 4 = .val (s.scrWord u o).bits.toNat) ∧
      (∀ o, x.pending = [] → SeenWord s u o → (s.scrWord u o).poison = true → loadPlace s x view key (.scr u (4 * o)) 4 = .tok (s.scrWord u o).bits)

/-- R208, R211: SZ gives the size; signed bytes and halfwords are extended by their sign and the others by zeros; a token stands for the lane, and a cause the load
detects names the lane's address; so for every load but an acquire at `.sys`, which reads host memory past L2 (R273). -/
def Sys2Proof.Machine.ExtendedLoadsStated : Prop :=
  (∀ k, k < 7 → [1, 1, 2, 2, 4, 8, 16][k]? = some (szBytes k)) ∧
  ∀ s c x sp t (l : MemLit) (i : Nat) (v : Trans), Issuing s c x sp t →
    let out := loadAt s (wxOf c s) l i (.ok v)
    let raw := loadPlace s (x.seenBy sp.mask) (s.viewOf x) (freeKey s.draws 9 i) v.place (szBytes l.sz.toNat)
    (∀ e, loadAt s (wxOf c s) l i (.error e) = e) ∧
    (¬(l.ord = 2 ∧ l.scope = 4) →
      (∀ n, raw = .val n → out = .val (if l.sz = 1 then ((BitVec.ofNat 8 n).signExtend 32).toNat
        else if l.sz = 3 then ((BitVec.ofNat 16 n).signExtend 32).toNat else n)) ∧
      (∀ k, raw = .tok k → out = .tok k) ∧ ∀ e, raw = .new e → out = .new (e.atVa v.va))

/-- R207 to R213, R219: a load's lanes receive what their addresses hold, late, and everything else keeps its value; reserved fields poison its registers. R164, R183,
R187, R191, R208: the address of a lane. R200, R211, R237, R405: a load reads its group's own newest pending store, else the sector as its view sees it: the bytes in
little-endian order, the token of a poisoned sector, or ECC_CACHE; and whole clean scratchpad words; small signed values are extended by their sign. -/
def Obligations.LoadWords : Prop := LoadWordsStated ∧ LaneAddressStated ∧ LoadedBytesStated ∧ ExtendedLoadsStated

/-- R205, R214, R217, R240: stores and reductions outside a region are accepted, sector by sector, behind the group's earlier ones, and in a region they are
quarantined within QQ; a reduction at `.dev` or wider goes on the `red` path; reserved fields flag MALFORMED. -/
def Sys2Proof.Machine.StoreWordsStated : Prop :=
  ∀ s c x sp t (w : WA) (l : MemLit) (qs : List LaneStore), Issuing s c x sp t → CleanPred x sp w.pred.toNat → t.view = 0 →
    let lanes := (List.range 128).filter (active x sp w.pred.toNat)
    let mask := activeMask x sp w.pred.toNat
    let clean := fun (d : Int) => qs.length = lanes.length ∧ ∀ e ∈ lanes.zip qs, laneStore s (wxOf c s) l w d e.1 = .ok e.2 ∧ e.2.token = none
    let far := ∀ q ∈ qs, ∀ u o, q.tr.place ≠ .scr u o
    let waiting := ∀ q ∈ x.egress, ∀ u o, q.place ≠ .scr u o
    let disp6 := (l.disp.extractLsb' 0 6).toInt
    let place := (wxOf c s).place
    let accepted := fun (i : Instr) (ws : List Store) =>
      let ss := ws.map place
      (x.region.opened = false → far → waiting → Becomes i s c.gid { x.pruneLate with egress := x.egress ++ numbered x.seq ss, seq := x.seq + ss.length }) ∧
        (x.region.opened = true → x.region.used + ss.length ≤ t.desc.qq →
          Becomes i s c.gid { x with seq := x.seq + ss.length, region := { x.region with qb := x.region.qb ++ numbered x.seq ss, used := x.region.used + ss.length } }) ∧
        (x.region.opened = true → x.region.used ≤ t.desc.qq → t.desc.qq < x.region.used + ss.length →
          let room := t.desc.qq - x.region.used
          let dropped := (List.range 128).filter (fun i => (ss.drop room).any (fun q => q.lanes.contains i))
          let filled := { x with seq := x.seq + room, region := { x.region with qb := x.region.qb ++ numbered x.seq (ss.take room), used := t.desc.qq } }
          ∀ i0 u tok, dropped.head? = some i0 →
            newEntry { s with groups := Map.put s.groups c.gid filled } c.gid c.pc { cause := .quarantineFull } i0 = (u, tok) →
              exec i s = .next (dropped.foldl (fun u i => flagRegion u c.gid tok i false) u))
    let stores := MemOk l w.a ∧ OrdOk l ∧ l.sz ≠ 1 ∧ l.sz ≠ 3 ∧ w.d = 0 ∧ SizeOk l w.b
    let reduces := MemOk l w.a ∧ AtomicOk l ∧ l.disp.toNat / 64 ≠ 8 ∧ l.disp.toNat / 64 ≠ 9 ∧ l.ord ≠ 1 ∧ l.ord ≠ 3 ∧ w.d = 0 ∧ SizeOk l w.b
    lanes ≠ [] →
    (stores → clean l.disp.toInt → accepted (.st w l) (formStores c.pc l.ord.toNat l.scope.toNat 0 qs)) ∧
      (reduces → clean disp6 → x.region.opened = true ∨ l.space ≠ 0 ∨ l.scope.toNat < 3 → accepted (.red w l) (qs.map (redStore c.pc l))) ∧
      (reduces → clean disp6 → x.region.opened = false → l.space = 0 → 3 ≤ l.scope.toNat → l.ord = 0 ∨ (x.egress = [] ∧ s.invals = [] ∧ s.hostL2 = []) →
        Issues (.red w l) s c x.pruneLate pathRed 0 mask false [] (.red ((qs.map (redStore c.pc l)).map place))) ∧
      (¬stores → ReservedUse (.st w l) s c mask) ∧ (¬reduces → ReservedUse (.red w l) s c mask)

/-- R214, R240: the entries that the lanes of one `ST` form: one for each sector written, in ascending order of the lowest lane that writes it; each byte with the
highest lane that writes it, and the token of each lane whose poisoned data stands in it. -/
def Sys2Proof.Machine.FormedStoresStated : Prop :=
  ∀ (pc : BitVec 64) (ord scope : Nat) (qs : List LaneStore), (qs.map (·.lane)).Pairwise (· < ·) → (∀ q ∈ qs, 0 < q.n ∧ (sectorBase q.tr.place).2 + q.n ≤ 32) →
    let ss := formStores pc ord scope 0 qs
    let home := fun (q : LaneStore) => (sectorBase q.tr.place).1
    let covers := fun (q : LaneStore) (k : Nat) => (sectorBase q.tr.place).2 ≤ k ∧ k < (sectorBase q.tr.place).2 + q.n
    (ss.map (·.place)).Nodup ∧ (ss.map (·.lane)).Pairwise (· < ·) ∧ (∀ b, b ∈ ss.map (·.place) ↔ ∃ q ∈ qs, home q = b) ∧
    ∀ e ∈ ss, e.ord = ord ∧ e.scope = scope ∧ e.pc = pc ∧ e.red = none ∧ e.view = 0 ∧ (∃ q ∈ qs, home q = e.place ∧ q.lane = e.lane) ∧
      (∀ q ∈ qs, home q = e.place → e.lane ≤ q.lane) ∧
      (∀ k b i, (k, b, i) ∈ e.bytes ↔ ∃ q ∈ qs, q.lane = i ∧ home q = e.place ∧ covers q k ∧ b = BitVec.ofNat 8 (q.data / 2 ^ (8 * (k - (sectorBase q.tr.place).2))) ∧
        ∀ p ∈ qs, home p = e.place → covers p k → p.lane ≤ i) ∧
      (∀ i tok, (i, tok) ∈ e.ptok ↔ ∃ q ∈ qs, q.lane = i ∧ home q = e.place ∧ q.token = some tok ∧ ∃ k b, (k, b, i) ∈ e.bytes)

/-- R205, R214: a store to scratchpad outside a region performs at once: each word holds what the highest lane that writes it stores there, clean; every other word
and all of memory keep what they hold. -/
def Sys2Proof.Machine.ScratchpadStoresStated : Prop :=
  ∀ s c x sp t (w : WA) (l : MemLit) (qs : List LaneStore), Issuing s c x sp t → CleanPred x sp w.pred.toNat → t.view = 0 → x.region.opened = false → x.egress = [] →
    let lanes := (List.range 128).filter (active x sp w.pred.toNat)
    MemOk l w.a → OrdOk l → l.ord.toNat < 2 → 4 ≤ l.sz.toNat → w.d = 0 → SizeOk l w.b →
    qs.length = lanes.length → (∀ e ∈ lanes.zip qs, laneStore s (wxOf c s) l w l.disp.toInt e.1 = .ok e.2 ∧ e.2.token = none ∧ ∃ u o, e.2.tr.place = .scr u o) →
    let put := fun (u o : Nat) (q : LaneStore) => match q.tr.place with | .scr v a => u == v && decide (a ≤ 4 * o) && decide (4 * o < a + q.n) | _ => false
    let off := fun (q : LaneStore) => match q.tr.place with | .scr _ a => a | _ => 0
    ∃ u, exec (.st w l) s = .next u ∧ u.mem = s.mem ∧ u.poisoned = s.poisoned ∧ u.hostMem = s.hostMem ∧
      Map.find u.groups c.gid = some { x.pruneLate with seq := x.seq + (formStores c.pc l.ord.toNat l.scope.toNat 0 qs).length } ∧
      ∀ m o, u.scrWord m o = match (qs.filter (put m o)).getLast? with
        | some q => ⟨BitVec.ofNat 32 (q.data / 2 ^ (8 * (4 * o - off q))), false⟩
        | none => s.scrWord m o

/-- R210, R214, R240, R241: a lane with a poisoned base, index or, outside a region, datum writes nothing and flags its token; in a region poisoned data is entered and
its lane flagged; lanes whose addresses fail by one cause flag the token of the one entry made for it; all in ascending order, and the other lanes' stores go on. -/
def Sys2Proof.Machine.StoreLanesThatFailStated : Prop :=
  ∀ s c x sp t (w : WA) (l : MemLit), Issuing s c x sp t → CleanPred x sp w.pred.toNat → t.view = 0 → MemOk l w.a → OrdOk l → l.sz ≠ 1 → l.sz ≠ 3 → w.d = 0 → SizeOk l w.b →
    let lanes := (List.range 128).filter (active x sp w.pred.toNat)
    let lane := laneStore s (wxOf c s) l w l.disp.toInt
    let writes := fun (i : Nat) => match lane i with | .ok q => some q | .error _ => none
    let token := fun (i : Nat) => match lane i with | .ok q => q.token | .error (.tok k) => some k | .error _ => none
    let entries := fun (qs : List LaneStore) => (formStores c.pc l.ord.toNat l.scope.toNat 0 qs).map (wxOf c s).place
    let flags := lanes.filterMap (fun i => (token i).map (fun k => (i, k)))
    let far := ∀ i ∈ lanes, ∀ q, lane i = .ok q → ∀ u o, q.tr.place ≠ .scr u o
    let waiting := ∀ q ∈ x.egress, ∀ u o, q.place ≠ .scr u o
    let withGroup := fun (y : Group) => { s with groups := Map.put s.groups c.gid y }
    ((∀ i ∈ lanes, (writes i).isSome ∨ (token i).isSome) →
      (x.region.opened = false → far → waiting →
        let ss := entries ((lanes.filterMap writes).filter (fun q => q.token.isNone))
        exec (.st w l) s = .next (flags.foldl (fun u e => flagRegion u c.gid e.2 e.1 false)
          (withGroup { x.pruneLate with egress := x.egress ++ numbered x.seq ss, seq := x.seq + ss.length }))) ∧
      (x.region.opened = true →
        let ss := entries (lanes.filterMap writes)
        x.region.used + ss.length ≤ t.desc.qq →
        exec (.st w l) s = .next (flags.foldl (fun u e => flagRegion u c.gid e.2 e.1 (ss.any (fun q => q.ptok.contains e)))
          (withGroup { x with seq := x.seq + ss.length, region := { x.region with qb := x.region.qb ++ numbered x.seq ss, used := x.region.used + ss.length } })))) ∧
    ∀ (g : Nat → Fail) (i0 : Nat) (u : State) (tok : Word), lanes.head? = some i0 → waiting →
      (∀ i ∈ lanes, lane i = .error (.new (g i)) ∧ (g i).cause = (g i0).cause ∧ ∃ e, laneTarget s (wxOf c s) l w.a.toNat l.disp.toInt .write (szBytes l.sz.toNat) i = .error e) →
      newEntry s c.gid c.pc (g i0) i0 = (u, tok) →
      exec (.st w l) s = .next (lanes.foldl (fun u i => flagRegion u c.gid tok i false) (if x.region.opened then u else u.updGrp c.gid Group.pruneLate))

/-- R205, R237, R265: an accepted store that may perform takes effect on its sector: whole and clean it clears poison, poisoned data poisons the unit; no other
byte of memory and no register changes. -/
def Sys2Proof.Machine.StorePerformsStated : Prop :=
  ∀ s g (k : Nat) x q n, Map.find s.groups g = some x → x.egress[k]? = some q → mayPerform (s.packageScope x.ctx) x.egress k = true → q.red = none → q.ord < 2 →
    q.place = .dev (32 * n) → q.view = 0 → Map.find s.views 0 = none → (∀ b ∈ q.bytes, b.1 < 32) → NoErrors s → (s.dieAt (dieOf x.core)).asleep = false →
    ∃ u y, exec (.storeCompletion g k) s = .next u ∧ Map.find u.groups g = some y ∧
      y.egress = (aheadOf (s.packageScope x.ctx) x.egress k).map (fun p => p.1.owe p.2) ++ x.egress.drop (k + 1) ∧
      y = { x with egress := y.egress, x := y.x, region := y.region, saved := y.saved } ∧
      u.rootSector n = (s.rootSector n).write (plainBytes q.bytes) ((q.ptok.head?).map (·.2)) ∧ (∀ m, m ≠ n → u.rootSector m = s.rootSector m) ∧
      (s.hostL2 = [] → u.hostMem = s.hostMem)

/-- R205, R214, R217, R240: stores and reductions outside a region are accepted, sector by sector, behind the group's earlier ones, and in a region they are quarantined within QQ; a reduction at `.dev` or wider goes on the `red` path; reserved fields flag MALFORMED. R205, R237, R265: an accepted store that may perform takes effect on its sector: whole and clean it clears poison, poisoned data poisons the unit; no other byte of memory and no register changes. R210, R214, R240, R241: the entries a word forms, its lanes that fail or carry poison or find no room in QQ, and its stores to scratchpad. -/
def Obligations.StoreWords : Prop := StoreWordsStated ∧ FormedStoresStated ∧ ScratchpadStoresStated ∧ StoreLanesThatFailStated ∧ StorePerformsStated

/-- R215, R216, R237: `ATOM` on the device or in its team's scratchpad: a lane is owed the old value and the word becomes the operation's result; of several
lanes on one word each comes once, in an order of the device; a poisoned word, an invalid sum and a lane whose address fails leave memory as it is and give the
lane their token; no other byte and no other register changes; reserved fields poison the destination registers. -/
def Obligations.AtomicWord : Prop :=
  ∀ s c x sp t (w : WA) (l : MemLit), Issuing s c x sp t → CleanPred x sp w.pred.toNat →
    let size := szBytes l.sz.toNat
    let n := szRegs l.sz.toNat
    let aop := l.disp.toNat / 64
    let lanes := (List.range 128).filter (active x sp w.pred.toNat)
    let takes := MemOk l w.a ∧ AtomicOk l ∧ SizeOk l w.d ∧ SizeOk l w.b
    let target := fun (i : Nat) => laneTarget s (wxOf c s) l w.a.toNat (l.disp.extractLsb' 0 6).toInt .write size i
    let owed := fun (i v : Nat) => (List.range n).map (fun k => (⟨.v, w.d.toNat + k, i, ⟨BitVec.ofNat 32 (v >>> (32 * k)), false⟩⟩ : RegWrite))
    let plainly := InBudget x t w.d.toNat n ∧ Plain x t ∧ NoErrors s ∧ x.egress = [] ∧ (l.ord.toNat < 2 ∨ l.scope ≠ 4 ∨ s.hostL2 = []) ∧ Map.find s.views 0 = none
    let leaves := fun (u : State) (ws : List RegWrite) => ∃ y, exec (.atom w l) s = .next u ∧ Map.find u.groups c.gid = some y ∧
      y = { x with board := x.board ++ [ws], x := y.x, region := y.region, saved := y.saved, paths := y.paths } ∧
      ((∀ p ∈ x.paths, ∀ o ∈ p.2.ops, ∀ qs, o.kind ≠ .red qs) → y.paths = x.paths) ∧ (s.hostL2 = [] → u.hostMem = s.hostMem)
    let untouched := fun (r : LVal) => ∃ u ws, leaves u ws ∧ WritesOf x (active x sp w.pred.toNat) ⟨.v, w.d.toNat, n⟩ (fun _ => r) ws ∧
      (∀ m, u.rootSector m = s.rootSector m) ∧ ∀ m j, u.scrWord m j = s.scrWord m j
    let inScr := fun (tr : Trans) => ∃ o, tr.place = .scr x.team o
    let onDev := fun (tr : Trans) => ∃ k, tr.place = .dev k ∧ k % 32 + size ≤ 32
    let held := fun (i : Nat) (tr : Trans) => loadPlace (s.nowScr tr.place) { x with egress := [], region := Region.closed } 0 (freeKey s.draws 9 i) tr.place size
    (takes → plainly → ∀ i tr a b, lanes = [i] → target i = .ok tr → onDev tr ∨ inScr tr → dataOf (wxOf c s) n w.b.toNat i = .val a →
      (if aop = 9 then (wxOf c s).lane n 6 (w.b.toNat + n) i false = .val b else b = 0) →
      (∀ old r, held i tr = .val old → atomicOp aop size old a b = some r →
        ∃ u, leaves u (owed i old) ∧
          (∀ k, tr.place = .dev k → u.rootSector (k / 32) = (s.rootSector (k / 32)).write (plainBytes (bytesAt (k % 32) size r 0)) none ∧
            ∀ m, m ≠ k / 32 → u.rootSector m = s.rootSector m) ∧
          (∀ o, tr.place = .scr x.team o → u.mem = s.mem ∧ (∀ j < n, u.scrWord x.team (o / 4 + j) = ⟨BitVec.ofNat 32 (r >>> (32 * j)), false⟩) ∧
            ∀ m j, m ≠ x.team ∨ j < o / 4 ∨ o / 4 + n ≤ j → u.scrWord m j = s.scrWord m j)) ∧
        (∀ k, held i tr = .tok k → untouched (.tok k)) ∧
        ∀ old, held i tr = .val old → atomicOp aop size old a b = none → untouched (.bad .fpInvalid)) ∧
    (takes → plainly → ∀ i a f, lanes = [i] → target i = .error (.new f) → f.cause ≠ .malformed → aop ≠ 9 → dataOf (wxOf c s) n w.b.toNat i = .val a → untouched (.new f)) ∧
    (takes → plainly → aop < 8 → lanes ≠ [] → ∀ k old (a : Nat → Nat), k % 32 + size ≤ 32 →
      (∀ i ∈ lanes, (∃ tr, target i = .ok tr ∧ tr.place = .dev k) ∧ dataOf (wxOf c s) n w.b.toNat i = .val (a i)) →
      loadPlace s { x with egress := [], region := Region.closed } 0 0 (.dev k) size = .val old →
      let op := fun (v i : Nat) => (atomicOp aop size v (a i) 0).getD v
      ∃ (u : State) (p : List Nat), p.Perm lanes ∧ leaves u (lanes.flatMap (fun i => owed i ((p.takeWhile (fun j => j != i)).foldl op old))) ∧
        u.rootSector (k / 32) = (s.rootSector (k / 32)).write (plainBytes (bytesAt (k % 32) size (p.foldl op old) 0)) none ∧
        ∀ m, m ≠ k / 32 → u.rootSector m = s.rootSector m) ∧
    (¬takes → ∀ m, InBudget x t w.d.toNat m → m ≤ n → (m < n → ¬InBudget x t w.d.toNat (m + 1)) → 0 < m →
      Results (.atom w l) s c.gid x true (active x sp w.pred.toNat) ⟨.v, w.d.toNat, m⟩ (fun _ => .bad .malformed))

/-- R190 to R192, R220, R221: `XLATE` fills a translation register from its walk, with the limit that the following leaves of its line extend, or poisons it;
`XINFO` reads its four 64-bit parts. What extends a run: a leaf of the same level in the same line whose attributes are the first one's and whose frame
continues the run, until one does not. -/
def Obligations.TranslationWords : Prop :=
  ∀ s c x sp t (w : WS) (k : Ctx), Issuing s c x sp t → qualified x w.qual.toNat → Map.find s.ctxs x.ctx = some k →
    let n := w.sd.toNat % 8
    let fills := fun (r : XReg) => Becomes (.xlate w) s c.gid { x with x := Map.set XReg.zero x.x n r }
    let va := (x.rdS w.sa.toNat).bits.toNat + (x.rdS (w.sa.toNat + 1)).bits.toNat * 2 ^ 32
    let key := freeKey s.draws 10 0
    let spoilt := { x with x := Map.set XReg.zero x.x n { XReg.zero with vbase := 0x8000000000000000 } }
    let run := fun (l : Leaf) => if l.ps = 1 then 0 else match readPte s va l.ptea key with
      | .ok e => runAfter s va (if l.ps = 3 then 2 else if l.ps = 2 then 1 else 0) key e 7 l.ptea (pteFrame e)
      | .error _ => 0
    let right := w.sa.toNat % 2 = 0 ∧ w.sd.toNat < 8 ∧ w.sb = 0 ∧ w.sub = 0
    let reg := Map.get XReg.zero x.x w.sa.toNat
    let flags := (if reg.w then 2 ^ 33 else 0) + (if reg.nx then 2 ^ 34 else 0) + reg.ca.toNat * 2 ^ 35 + reg.ps.toNat * 2 ^ 37 + (if reg.v then 2 ^ 63 else 0)
    let parts := w.sd.toNat % 2 = 0 ∧ w.sub.toNat < 4 ∧ w.sa.toNat < 8 ∧ w.sb = 0
    (right → (x.rdS w.sa.toNat).poison = false → (x.rdS (w.sa.toNat + 1)).poison = false →
      (∀ e, walk s k va key = .error e → fills { XReg.zero with vbase := BitVec.ofNat 64 va }) ∧
        (∀ l, walk s k va key = .ok l → fills ⟨BitVec.ofNat 64 l.ptea, true, BitVec.ofNat 2 l.ps, BitVec.ofNat 2 l.ca, l.nx, l.w,
          BitVec.ofNat 33 (min (2 ^ 32) (pageBytes l.ps - va % pageBytes l.ps + pageBytes l.ps * run l)), BitVec.ofNat 64 va, BitVec.ofNat 64 l.pa⟩)) ∧
      (¬right → exec (.xlate w) s = .next (malformedNoDest { s with groups := Map.put s.groups c.gid spoilt } c.gid c.pc sp.mask)) ∧
      (right → ∀ r, (if (x.rdS w.sa.toNat).poison then r = (x.rdS w.sa.toNat).bits else (x.rdS (w.sa.toNat + 1)).poison = true ∧ r = (x.rdS (w.sa.toNat + 1)).bits) →
        exec (.xlate w) s = .next (flagRegion { s with groups := Map.put s.groups c.gid spoilt } c.gid r (lowest sp.mask) false)) ∧
      decodeWord .memory (WS.word 0x08 w) none = some (.xinfo w) ∧
      (∀ level m e ptea frame, runAfter s va level key e (m + 1) ptea frame ≤ m + 1 ∧
        (0 < runAfter s va level key e (m + 1) ptea frame ↔ (ptea + 8) / 64 = ptea / 64 ∧ ∃ q, readPte s va (ptea + 8) key = .ok q ∧ pteV q = true ∧
          (level = 0 ∨ pteLeaf q = true) ∧ pteS64 q = pteS64 e ∧ q.testBit 63 = e.testBit 63 ∧ q.testBit 62 = e.testBit 62 ∧ pteCa q = pteCa e ∧
          pteFrame q = frame + (if level = 2 then 2 ^ 29 else if level = 1 then 2 ^ 21 else 2 ^ 12))) ∧
      (parts → Results (.xinfo w) s c.gid x true (fun _ => true) ⟨.s, w.sd.toNat, 2⟩ (fun _ =>
        .val (if w.sub = 0 then reg.frame.toNat else if w.sub = 1 then reg.vbase.toNat else if w.sub = 2 then reg.limit.toNat + flags else reg.ptea.toNat))) ∧
      (¬parts → Results (.xinfo w) s c.gid x true (fun _ => true) ⟨.s, w.sd.toNat, if w.sd = 63 then 1 else 2⟩ (fun _ => .bad .malformed))

/-- R204, R222, R223, R225: `CPY`, `GATHER` and `SCATTER` issue on their paths with what their operands name, and ask for a copy lease when they are long (R65);
a reserved or misaligned use raises no counter. -/
def Sys2Proof.Machine.CopyWordsIssueStated : Prop :=
  ∀ s c x sp t (w : WS) (l : CpyLit) (z : GatLit), Issuing s c x sp t → qualified x w.qual.toNat → Plain x t →
    let rows := l.rowsm1.toNat + 1
    let (sa, sb, sd) := (w.sa.toNat, w.sb.toNat, w.sd.toNat)
    let aligned := fun (a b d : Nat) => a % 16 = 0 ∧ b % 16 = 0 ∧ d % 16 = 0
    let form := fun (i : Instr) (ok : Prop) (k : Nat) (lease : Bool) (a : AsyncKind) =>
      (ok → Issues i s c x k 0 sp.mask lease [] a) ∧ (¬ok → ReservedUse i s c sp.mask)
    let long := decide (16384 < rows * x.reg sb)
    let isz := 32 * 2 ^ w.sub.toNat
    let list := x.pair sb % 2 ^ 32
    let count := x.pair sb / 2 ^ 32
    let items := w.sub.toNat < 4 ∧ sb % 2 = 0 ∧ z.rsv = 0 ∧ z.stride ≠ 0 ∧ list % 4 = 0 ∧ count ≤ 65536
    (CleanPair x sa → CleanReg x sb → CleanReg x sd →
      form (.cpyG2s w l) (w.sub = 0 ∧ sa % 2 = 0 ∧ l.mmask = 0 ∧ aligned (x.pair sa) (x.reg sb) (x.reg sd)) pathCpy long
        (.cpy 0 (x.reg sd) (x.pair sa) (x.reg sb) rows (32 * l.gstr.toNat) 0 0)) ∧
      (CleanReg x sa → CleanReg x sb → CleanPair x sd →
        form (.cpyS2g w l) (sd % 2 = 0 ∧ l.mmask = 0 ∧ aligned (x.reg sa) (x.reg sb) (x.pair sd)) pathCpy long
          (.cpy 1 (x.pair sd) (x.reg sa) (x.reg sb) rows (32 * l.gstr.toNat) 0 0)) ∧
      (CleanReg x sa → CleanReg x sb → CleanReg x sd →
        form (.cpyS2p w l) (l.gstr = 0 ∧ (t.tuple.isSome = true → l.mmask.toNat.testBit t.crank = false) ∧ aligned (x.reg sa) (x.reg sb) (x.reg sd)) pathCpy long
          (.cpy 2 (x.reg sd) (x.reg sa) (x.reg sb) rows 0 l.mmask.toNat 0)) ∧
      (CleanPair x sa → CleanPair x sb → CleanReg x sd →
        form (.gather w z) (items ∧ sa % 2 = 0 ∧ x.reg sd % isz = 0) pathGat (decide (512 < count * (isz / 32)))
          (.items false (x.reg sd) (x.pair sa) list count isz (32 * z.stride.toNat) 0)) ∧
      (CleanReg x sa → CleanPair x sb → CleanPair x sd →
        form (.scatter w z) (items ∧ sd % 2 = 0 ∧ x.reg sa % isz = 0) pathGat false (.items true (x.pair sd) (x.reg sa) list count isz (32 * z.stride.toNat) 0))

/-- R296, R297, R362 to R365: `GETWORK`, `SPAWN`, `STMC` and `REDMC` issue with the request, the records or the sectors that their operands form. -/
def Obligations.WorkAndMulticastIssue : Prop :=
  ∀ s c x sp t (w : WS) (v : WA) (l : SpawnLit) (m : McLit) (es : List (Nat × Nat × Option Word)), Issuing s c x sp t → CleanPred x sp v.pred.toNat → Plain x t →
    let lanes := (List.range 128).filter (active x sp v.pred.toNat)
    let mask := activeMask x sp v.pred.toNat
    let a := x.reg w.sa.toNat
    let k := a / 65536 % 128
    let o := x.reg w.sd.toNat
    let asks := a < 2 ^ 23 ∧ 1 ≤ k ∧ k ≤ 64 ∧ o % 16 = 0 ∧ o + 16 + 16 * k ≤ t.desc.scr * 1024 ∧ w.sb = 0 ∧ w.sub.toNat < 2 ∧
      ∃ d, s.node t.grid (a % 65536) = some d ∧ d.kind ≠ 0
    let node := fun (i : Nat) => if l.nodereg = 1 then x.laneReg v.b.toNat i else l.node.toNat
    let word := fun (j i : Nat) => x.laneReg (v.a.toNat + j) i
    let record := fun (i : Nat) => BitVec.ofNat 128 (word 0 i + 2 ^ 32 * word 1 i + 2 ^ 64 * word 2 i + 2 ^ 96 * word 3 i)
    let last := if l.last = 0 then [] else if l.nodereg = 0 then [l.node.toNat] else (lanes.map node).eraseDups
    let spawns := v.d = 0 ∧ l.rsv = 0 ∧ (l.nodereg = 0 → v.b = 0) ∧ InBudget x t v.a.toNat 4
    let sends := fun (red : Bool) => (m.sz = 4 ∨ m.sz = 5 ∨ (m.sz = 6 ∧ red = false)) ∧
      (if red then m.aop.toNat < 10 ∧ (m.sz = 5 → m.aop ≠ 9) else m.aop = 0) ∧ m.base.toNat % 2 = 0 ∧ v.d = 0 ∧ (m.ix = 0 → v.a = 0) ∧ (m.acken = 0 → m.ackr = 0)
    let still := x.egress = [] ∧ s.invals = [] ∧ s.hostL2 = []
    (qualified x w.qual.toNat → CleanReg x w.sa.toNat → CleanReg x w.sd.toNat → ∀ e ∈ [(Instr.getwork w, false), (.getworkNw w, true)],
      (asks → Issues e.1 s c x pathWrk 0 sp.mask false [] (.getwork (a % 65536) o k e.2 none)) ∧ (¬asks → ReservedUse e.1 s c sp.mask)) ∧
    (spawns → CleanLanes x lanes v.a.toNat 4 → (l.nodereg = 0 → spawnable s t.grid l.node.toNat = true) →
      (l.nodereg = 1 → InBudget x t v.b.toNat 1 ∧ CleanLanes x lanes v.b.toNat 1 ∧ ∀ i ∈ lanes, spawnable s t.grid (x.laneReg v.b.toNat i) = true) →
      Issues (.spawn v l) s c x pathWrk 0 mask false [] (.spawn (lanes.map (fun i => (i, node i, record i))) last)) ∧
    (¬spawns → ReservedUse (.spawn v l) s c mask) ∧
    (∀ e ∈ [(Instr.stmc v m, false), (.redmc v m, true)],
      (sends e.2 → lanes ≠ [] → es.length = lanes.length → (∀ r ∈ lanes.zip es, mcLane e.2 s (wxOf c s) v m r.1 = .ok r.2) → m.rel = 0 ∨ still →
        CleanPair x m.base.toNat →
        Issues e.1 s c x pathFab 0 mask false [] (.mcast e.2 (x.pair m.base.toNat / 2 ^ 41 % 2 ^ 12) (szBytes m.sz.toNat) m.aop.toNat
          (if m.acken = 1 then some (asLVal (x.rdS m.ackr.toNat)) else none) (mcSectors e.2 (if e.2 then 32 else 64) (szBytes m.sz.toNat) (lanes.zip es)))) ∧
      (¬sends e.2 → ReservedUse e.1 s c mask))

/-- R319, R322 to R328: the Landau words issue on the `tre` path with their descriptor and one walk for each active lane; `TREUSE` with its child. -/
def Obligations.TreeWordsIssue : Prop :=
  ∀ s c x sp t (w : WA) (z : WS) (l : TreeLit), Issuing s c x sp t → CleanPred x sp w.pred.toNat → Plain x t → FreshSeq x →
    let lanes := (List.range 128).filter (active x sp w.pred.toNat)
    let mask := activeMask x sp w.pred.toNat
    let lane := fun (r i : Nat) => x.laneReg (w.a.toNat + r) i
    let desc := x.pair l.desc.toNat
    let plain := l.rsv = 0 ∧ l.desc.toNat % 2 = 0
    let issues := fun (i : Instr) (n : Nat) (a : AsyncKind) => Issues i s c x pathTre 0 mask false ((List.range n).map (fun k => (RFile.v, w.d.toNat + k))) a
    let walk := fun (i u k r v : Nat) => laneAt i u k r (BitVec.ofNat 32 v)
    let sources := fun (n : Nat) => InBudget x t w.a.toNat n ∧ CleanLanes x lanes w.a.toNat n
    let backs := plain ∧ l.mode ≠ 3 ∧ l.ben = 0 ∧ l.boff = 0 ∧ w.d = 0 ∧ (l.mode = 2 → w.b = 0)
    let reuses := z.sub = 0 ∧ z.sa.toNat % 2 = 0
    (lanes ≠ [] → CleanPair x l.desc.toNat → plain → l.mode = 0 →
      ((l.ben = 0 → l.boff = 0) → w.a = 0 → w.b = 0 → InBudget x t w.d.toNat 3 → (l.ben = 1 → CleanReg x l.boff.toNat) →
        issues (.tdesc w l) 3 (.tdesc desc w.d.toNat (if l.ben = 1 then some (x.reg l.boff.toNat) else none) (lanes.map (fun i => walk i 0 0 0 0)))) ∧
      (l.ben = 0 → w.b = 0 → InBudget x t w.d.toNat 2 → sources 3 → CleanReg x l.boff.toNat →
        issues (.texp w l) 2 (.texp desc w.d.toNat (x.reg l.boff.toNat) (lanes.map (fun i => walk i (lane 0 i) (lane 1 i) (lane 2 i) 0))))) ∧
    (lanes ≠ [] → CleanPair x l.desc.toNat → backs → sources 1 → (l.mode ≠ 2 → InBudget x t w.b.toNat 1 ∧ CleanLanes x lanes w.b.toNat 1) →
      issues (.tback w l) 0 (.tback desc l.mode.toNat (lanes.map (fun i => walk i (lane 0 i) 0 0 (if l.mode = 2 then 0 else x.laneReg w.b.toNat i))))) ∧
    (¬backs → ReservedUse (.tback w l) s c mask) ∧
    (lanes ≠ [] → CleanPair x (w.b.toNat % 64) → w.b.toNat % 2 = 0 → InBudget x t w.d.toNat 4 → sources 1 → ∀ e ∈ [(Instr.tnode w, false), (.tnodeLink w, true)],
      issues e.1 4 (.tnode (x.pair (w.b.toNat % 64)) w.d.toNat e.2 (lanes.map (fun i => walk i (lane 0 i) 0 0 0)))) ∧
    (qualified x z.qual.toNat → (reuses → CleanPair x z.sa.toNat → CleanReg x z.sb.toNat →
        Issues (.treuse z) s c x pathTre 0 sp.mask false [(.s, z.sd.toNat)] (.treuse (x.pair z.sa.toNat) (x.reg z.sb.toNat) z.sd.toNat)) ∧
      (¬reuses → Results (.treuse z) s c.gid x true (fun _ => true) ⟨.s, z.sd.toNat, 1⟩ (fun _ => .bad .malformed)))

/-- R222, R226: the engine of a `CPY` from global memory to the scratchpad moves a whole sector of a row: its eight words stand at their place, the rest of the
scratchpad and of memory is unchanged, and when the copy has ended its counter falls. -/
def Sys2Proof.Machine.CopyMovesSectorsStated : Prop :=
  ∀ s g k x t o z dst src bytes rows pitch next place rest, Map.find s.groups g = some x → Map.find s.teams x.team = some t → Map.find s.ctxs x.ctx = some z →
    x.path pathCpy = ⟨o :: rest, false⟩ → k = 0 → o.kind = .cpy 0 dst src bytes rows pitch 0 next → o.done = false → o.lease = false → o.deps = [] →
    (∀ a ∈ rest, a.done = false ∧ a.seq ≠ o.seq) → (∀ q ∈ x.egress, ∀ u e, q.place ≠ .scr u e) → 0 < bytes → next < rows * bytes →
    let row := next / bytes
    let at_ := next % bytes
    let src' := (src + pitch * row + at_) % 2 ^ 64
    let dst' := dst + bytes * row + at_
    let s' := { s with draws := s.draws + 1 }
    let sec := s.devSector o.view (place / 32)
    at_ + 32 ≤ bytes → src' % 32 = 0 → dst' % 4 = 0 → dst' + 32 ≤ t.desc.scr * 1024 → place % 32 = 0 →
    (∃ r, translate s' z .read src' (freeKey s.draws 22 0) = .ok r ∧ r.place = .dev place) →
    (∃ r, translate s' z .read (src' + 16) (freeKey s.draws 22 0) = .ok r ∧ r.place = .dev (place + 16)) →
    sec.token = none → NoErrors s → (s.dieAt (dieOf x.core)).asleep = false →
    ∃ u y, exec (.asyncOpComplete g pathCpy k 0) s = .next u ∧ Map.find u.groups g = some y ∧ y = { x with paths := y.paths } ∧ u.mem = s.mem ∧ u.poisoned = s.poisoned ∧ u.hostMem = s.hostMem ∧
      (∀ j < 8, u.scrWord x.team (dst' / 4 + j) = ⟨BitVec.ofNat 32 (sec.data / 2 ^ (32 * j)), false⟩) ∧
      (∀ m j, m ≠ x.team ∨ j < dst' / 4 ∨ dst' / 4 + 8 ≤ j → u.scrWord m j = s.scrWord m j) ∧
      (y.path pathCpy).ops = if rows * bytes ≤ next + 32 then rest else { o with kind := .cpy 0 dst src bytes rows pitch 0 (next + 32) } :: rest

/-- R204, R222, R223, R225: `CPY`, `GATHER` and `SCATTER` issue on their paths with what their operands name, and ask for a copy lease when they are long (R65); a reserved or misaligned use raises no counter. R222, R226: the engine of a `CPY` from global memory to the scratchpad moves a whole sector of a row: its eight words stand at their place, the rest of the scratchpad and of memory is unchanged, and when the copy has ended its counter falls. -/
def Obligations.CopyWords : Prop := CopyWordsIssueStated ∧ CopyMovesSectorsStated

/-- R104, R204, R226 to R229: `WAIT`, afresh or resumed, ends when its counter has fallen to h, and clears the path's poison flag; `CNT` reads a counter, and its
group has then seen what the path has written; `XFENCE` holds the to-path behind what the from-path has yet to complete. -/
def Obligations.PathWaits : Prop :=
  ∀ s c x sp t (w : WS), Issuing s c x sp t → qualified x w.qual.toNat →
    let k := w.sub.toNat
    let p := x.path k
    let h := x.reg w.sa.toNat
    let sd := w.sd.toNat
    let out := fun (i : Instr) (r : LVal) => Results i s c.gid x true (fun _ => true) ⟨.s, sd, 1⟩ (fun _ => r)
    let waits := k < 6 ∧ w.sb.toNat < 16
    let waitsOn := fun (a b e : Nat) =>
      let p := x.path a
      WaitsFor (.wait w) s (seePath s c.gid a) c x sp (.path a b) false true e sd (p.ops.length ≤ b)
        (Group.owes { x with paths := Map.set Path.zero x.paths a { p with pf := false } } sd (if p.pf then 2 else 0))
    let counts := k < 6 ∧ w.sa = 0 ∧ w.sb = 0
    let fences := w.sd.toNat < 7 ∧ w.sa.toNat < 7 ∧ w.sb = 0 ∧ w.sub = 0
    decodeWord .async (WS.word 0x04 w) none = some (.cnt w) ∧
    (Fresh c → waits → CleanReg x w.sa.toNat → waitsOn k h w.sb.toNat) ∧
      (∀ a b, c.wait = some (.path a b) → waitsOn a b (w.sb.toNat % 16)) ∧
      (Fresh c → ¬waits → out (.wait w) (.bad .malformed)) ∧
      (counts → ∃ u ws, exec (.cnt w) s = .next u ∧ RestKept (seePath s c.gid k) u c.gid ∧ Map.find u.groups c.gid = some (x.after true ws) ∧
        WritesOf x (fun _ => true) ⟨.s, sd, 1⟩ (fun _ => .val p.ops.length) ws) ∧ (¬counts → out (.cnt w) (.bad .malformed)) ∧
      (fences → Becomes (.xfence w) s c.gid
        { x with xfences := x.xfences.filter (fun f => f.deps.any (fun d => x.open_ d || s.writesOld c.gid d)) ++ [⟨w.sa.toNat, x.openOn w.sd.toNat⟩] }) ∧
      (¬fences → ReservedUse (.xfence w) s c sp.mask)

/-- R104, R276 to R280, R282, R386: an arrival counts its group once in a phase and the last one turns the phase; `BAR.wait` and `BAR.sync` wait for that, afresh
or resumed, until their deadline or until their context is abandoned; `BARQ` reads a barrier; a broken barrier answers 4. -/
def Obligations.BarrierWords : Prop :=
  ∀ s c x sp t (w : WS), Issuing s c x sp t → qualified x w.qual.toNat → x.region.opened = false → x.egress = [] → s.invals = [] →
    let level := w.sa.toNat / 16
    let num := w.sa.toNat % 16
    let sd := w.sd.toNat
    let e := w.sb.toNat
    let b := barOf s x level num
    let mine := apOf x level num
    let expected := barExpected s x level
    let out := fun (i : Instr) (r : LVal) => Results i s c.gid x true (fun _ => true) ⟨.s, sd, 1⟩ (fun _ => r)
    let exists_ := level = 0 ∨ (level = 1 ∧ num < 8 ∧ t.desc.clu ≠ 0) ∨ (level = 2 ∧ num < 4 ∧ t.desc.gbar = true)
    let here := exists_ ∧ e < 16 ∧ w.sub.toNat < 3
    let marked := ({ x with ap := Map.put x.ap (16 * level + num) b.phase }).arrived sp.mask (phaseKey level num b.phase)
    let turned : Barrier := if b.arrived + 1 = expected then { b with phase := (b.phase + 1) % 2 ^ 32, arrived := 0 } else { b with arrived := b.arrived + 1 }
    let arrives := fun (i : Instr) (y : Group) => ∃ u, exec i s = .next u ∧ Map.find u.groups c.gid = some y ∧ barOf u y level num = turned ∧
      (∀ l n, l < 3 → (l, n) ≠ (level, num) → barOf u y l n = barOf s x l n) ∧ MemoryKept s u ∧ ∀ g, g ≠ c.gid → Map.find u.groups g = Map.find s.groups g
    HasBarriers s t level → holderSaved s x level = false →
    (∀ l n p, c.wait = some (.barrier l n p) → ∀ i ∈ [(Instr.barWait w, false), (.barSync w, true)],
      WaitsFor i.1 s s c x sp (.barrier l n p) i.2 false e sd ((barOf s x l n).phase ≠ p ∨ (barOf s x l n).broken = true)
        (x.owes sd (if (barOf s x l n).broken then 4 else 0))) ∧
    (Fresh c → (here → b.broken = false → mine ≠ some b.phase →
      (e = 0 → arrives (.barArv w) (marked.owes sd b.phase)) ∧
        (b.phase < 2 ^ 32 → b.arrived + 1 = expected → arrives (.barSync w) (marked.owes sd 0)) ∧
        (b.arrived + 1 ≠ expected → ¬Abandoned s x → arrives (.barSync w)
          (if e = 0 then marked.owes sd 1 else marked.waits c sp (.barrier level num b.phase) true (waitEnd s e))) ∧
        (b.phase < 2 ^ 32 → b.arrived + 1 ≠ expected → Abandoned s x → arrives (.barSync w) (marked.owes sd 3))) ∧
      (here → e = 0 → b.broken = false → mine = some b.phase → Becomes (.barArv w) s c.gid (x.owes sd b.phase)) ∧
      (here → b.broken = true → (e = 0 → Becomes (.barArv w) s c.gid (x.owes sd 4)) ∧ Becomes (.barSync w) s c.gid (x.owes sd 4)) ∧
      (here → mine = none → Becomes (.barWait w) s c.gid (x.owes sd (if b.broken then 4 else 0))) ∧
      (here → ∀ p, mine = some p →
        WaitsFor (.barWait w) s s c x sp (.barrier level num p) false false e sd (b.phase ≠ p ∨ b.broken = true) (x.owes sd (if b.broken then 4 else 0))) ∧
      (¬here → out (.barSync w) (.bad .malformed) ∧ out (.barWait w) (.bad .malformed))) ∧ (¬(here ∧ e = 0) → out (.barArv w) (.bad .malformed)) ∧
      (exists_ → e = 0 → ∀ n v, w.sub.toNat = n → (n, v) ∈ [(0, b.phase), (1, b.arrived), (2, expected), (3, mine.getD 0xFFFFFFFF), (4, if b.broken then 1 else 0)] →
        out (.barq w) (.val v)) ∧
      (¬exists_ ∨ 5 ≤ w.sub.toNat ∨ e ≠ 0 → out (.barq w) (.bad .malformed))

/-- R47, R263, R269, R292 to R294: `SIG` sets a signal or adds to it behind every earlier access, meets the waits registered on it, and may return the old
value; `SIGW` waits for a condition of one; a release fence stands behind the group's earlier stores, and a full one performs its split's earlier stores, or owes
them to the agents of a narrower scope. -/
def Obligations.SignalsAndFences : Prop :=
  ∀ s c x sp t (w : WS) (v : WC) (lit : Option Word) (k : Ctx), Issuing s c x sp t → CleanPred x sp v.pred.toNat → Plain x t → Map.find s.ctxs x.ctx = some k →
    let n := match lit with | some l => l.toNat | none => x.reg w.sa.toNat
    let sd := w.sd.toNat
    let op := BitVec.ofNat 64 (x.pair w.sb.toNat)
    let old := Map.get 0 k.signals n
    let names := 1 ≤ n ∧ n ≤ k.nsig ∧ n < 65536 ∧ w.sb.toNat % 2 = 0 ∧ w.sd.toNat % 2 = 0 ∧ (lit.isSome = true → w.sa = 0)
    let tests := fun (new : BitVec 64) => s.groups.map (fun e => if e.2.ctx == x.ctx then (e.1, e.2.mapSplits (Split.meetSignal n new)) else e)
    let does := fun (i : Instr) (new : BitVec 64) (ret : Bool) => exec i s = .next { s with
      ctxs := Map.put s.ctxs x.ctx { k with signals := Map.set 0 k.signals n new }
      groups := Map.put (tests new) c.gid { x.mapSplits (Split.meetSignal n new) with board := if ret then x.board ++
        [[⟨.s, sd, 0, ⟨old.setWidth 32, false⟩⟩, ⟨.s, sd + 1, 0, ⟨old.extractLsb' 32 32, false⟩⟩]] else x.board } }
    let h := x.reg w.sa.toNat
    let cmp := BitVec.ofNat 64 (x.pair w.sb.toNat)
    let watches := w.sub.toNat < 6 ∧ w.sb.toNat % 2 = 0 ∧ h % 65536 ≠ 0 ∧ h % 65536 ≤ k.nsig ∧ h < 2 ^ 21
    let now := Map.get 0 k.signals (h % 65536)
    let holds := fun (cond : Nat) (now cmp : BitVec 64) => match cond with
      | 0 => now = cmp | 1 => now ≠ cmp | 2 => cmp ≤ now | 3 => now < cmp | 4 => cmp.toInt ≤ now.toInt | _ => now.toInt < cmp.toInt
    let kind := v.imm.toNat % 4
    let scope := v.imm.toNat / 4
    let fences := v.d = 0 ∧ scope < 5
    let mask := activeMask x sp v.pred.toNat
    let performed := fun (i : Instr) => ∃ u y, exec i s = .next u ∧ Map.find u.groups c.gid = some y ∧ (∀ q ∈ y.egress, q.precedes sp.mask = false) ∧ y.v = x.v ∧ y.s = x.s ∧ y.p = x.p ∧ y.q = x.q
    (qualified x w.qual.toNat → (lit = none → CleanReg x w.sa.toNat) → CleanPair x w.sb.toNat →
      (names → Still s x →
        (w.sd = 0 → does (.sigSet w lit) op false ∧ does (.sigAdd w lit) (old + op) false) ∧ does (.sigSetRet w lit) op true ∧ does (.sigAddRet w lit) (old + op) true) ∧
      (¬(names ∧ w.sd = 0) → ReservedUse (.sigSet w lit) s c sp.mask ∧ ReservedUse (.sigAdd w lit) s c sp.mask)) ∧
    (qualified x w.qual.toNat → Fresh c → CleanReg x w.sa.toNat → CleanPair x w.sb.toNat →
      (watches → WaitsFor (.sigw w) s s c x sp (.signal (h % 65536) w.sub.toNat cmp) false true (h / 65536 % 16) sd (holds w.sub.toNat now cmp) (x.owes sd 0)) ∧
      (¬watches → Results (.sigw w) s c.gid x true (fun _ => true) ⟨.s, sd, 1⟩ (fun _ => .bad .malformed))) ∧
    (∀ m cond v, cond < 6 → c.wait = some (.signal m cond v) →
      WaitsFor (.sigw w) s s c x sp (.signal m cond v) false true (if c.deadline.isSome then 14 else 15) sd (holds cond (Map.get 0 k.signals m) v) (x.owes sd 0)) ∧
    (c.wait = some .signalMet → Becomes (.sigw w) s c.gid (x.owes sd (if k.abandon then 3 else 0))) ∧
    (fences → kind = 0 → exec (.fenceAcq v) s = .next s) ∧ (kind ≠ 0 → ReservedUse (.fenceAcq v) s c mask) ∧ (fences → mask = 0 → exec (.fenceRel v) s = .next s ∧ exec (.fenceFull v) s = .next s) ∧
    (fences → mask ≠ 0 → scope ≠ 4 →
      Becomes (.fenceRel v) s c.gid { x with egress := if x.egress.isEmpty then [] else x.egress ++ [{ fenceMark c.pc scope with mask := sp.mask }] }) ∧
    (fences → mask ≠ 0 → scope < s.packageScope x.ctx → scope < 3 ∨ s.invals = [] →
      let owed := owing (s.packageScope x.ctx) (fun q => if q.precedes sp.mask then scope else 0) x.egress
      Becomes (.fenceFull v) s c.gid { x with egress := owed.map (fun q => q.1.owe q.2) } ∧ owed.map (fun q => q.1) = x.egress ∧
        ∀ q ∈ owed, q.1.precedes sp.mask = true → q.2 = scope) ∧
    (fences → mask ≠ 0 → s.packageScope x.ctx ≤ scope → performed (.fenceFull v) ∧ (scope = 4 → performed (.fenceRel v))) ∧
    (¬fences → ReservedUse (.fenceAcq v) s c mask ∧ ReservedUse (.fenceRel v) s c mask ∧ ReservedUse (.fenceFull v) s c mask)

/-- R335 to R338: the last group of a team to arrive with the operands of the others completes its `FORK`: it makes a family of K views, moves the team into the
first, writes its number to every arrival's SD, and starts K − 1 rivals, each a copy of the team that finds its own view and number there; a group that arrives
before the others waits. -/
def Sys2Proof.Machine.ForkStated : Prop :=
  ∀ s c x sp t (w : WS), Issuing s c x sp t → qualified x w.qual.toNat → Fresh c → x.region.opened = false →
    let sd := w.sd.toNat
    let k := w.sub.toNat + 1
    let area := x.pair w.sa.toNat
    let alen := x.reg w.sb.toNat
    let here : Arrival := ⟨c.gid, c.slot, sd, k, area, alen, none, [], true⟩
    let all := t.forks ++ [here]
    let t1 := { t with forks := all }
    let met := sweepViews (quiet { s with groups := Map.put s.groups c.gid x, teams := Map.put s.teams x.team t1 } t1)
    let depth := match Map.find met.views t.view with | some v => v.depth | none => 0
    let vs := freeViews met k
    let good := CleanPair x w.sa.toNat ∧ CleanReg x w.sb.toNat ∧ w.sub ≠ 0 ∧ w.sa.toNat % 2 = 0 ∧ area % 4096 = 0 ∧ area < 2 ^ 57 ∧ alen ≠ 0 ∧ t.desc.clu = 0 ∧
      t.desc.gbar = false
    let came := t.groups = all.map Arrival.gid ∧ (all.map Arrival.gid).Nodup ∧ (all.map (fun a => (s.grp a.gid).idx)).Nodup ∧
      ∀ a ∈ t.forks, a = { here with gid := a.gid, slot := a.slot, sd := a.sd } ∧ ∃ z, Map.find s.groups a.gid = some z ∧ z.ended = false
    x.ended = false → x.board = [] → (s.coreOf x.core).mxq = [] → (∀ p ∈ x.paths, p.2.ops = []) → (∀ e ∈ s.teams, e.2.olds = []) → good →
      ((∃ g ∈ t.groups, g ≠ c.gid ∧ (s.grp g).ended = false ∧ ∀ a ∈ t.forks, a.gid ≠ g) → (∀ a ∈ t.forks, a.gid ≠ c.gid) →
        ∃ u, exec (.fork w) s = .next u ∧ Map.find u.teams x.team = some t1 ∧ Map.find u.groups c.gid = some (x.waits c sp (.rendezvous false) true none)) ∧
      (came → depth < 4 → vs.length = k → ∀ r s' ids, Map.find s.grids t.grid = some r → placeRivals t.grid r t1 (k - 1) met = some (s', ids) →
        ∀ t', Map.find s'.teams x.team = some t' → (x.team :: ids).Nodup →
          (t.groups ++ ids.flatMap (fun id => ((Map.find s'.teams id).map Team.groups).getD [])).Nodup →
          ∃ u, exec (.fork w) s = .next u ∧ Map.find u.teams x.team = some { t' with view := vs.headD 0, forks := [] } ∧
            (∀ a ∈ all, ∀ z, Map.find s'.groups a.gid = some z → ∃ y, Map.find u.groups a.gid = some y ∧ WroteStatus z y a.sd (vs.headD 0)) ∧
            (∀ j v, vs[j]? = some v → Map.find u.views v = some (newView t t.view (depth + 1) (vs.headD 0) s'.ids k j area alen)) ∧
            (∀ v, v ∉ vs → Map.find u.views v = Map.find s'.views v) ∧
            ∀ j id v r', ids[j]? = some id → vs[j + 1]? = some v → Map.find s'.teams id = some r' →
              Map.find u.teams id = some { r' with view := v, scr := t.scr, bars := t.bars } ∧
              ∀ a ∈ all, ∀ z h, Map.find s'.groups a.gid = some z → (a.gid, h) ∈ t.groups.zip r'.groups → (Map.find s'.groups h).isSome = true →
                ∃ y, Map.find u.groups h = some y ∧ WroteStatus z y a.sd (v + (j + 1) * 2 ^ 12) ∧ y.tas = z.tas ∧ y.x = z.x ∧ y.live = z.live ∧ y.mark = z.mark ∧
                  y.role = z.role ∧ y.ap = z.ap)

/-- R336, R337: what a `FORK` of a team of one group is refused for: reserved or poisoned operands, a fifth level of views or too few free entries, and rivals
that find no core; SD takes the token, or the team's own view with bit 16 set, and no view is made. -/
def Sys2Proof.Machine.ForkRefusedStated : Prop :=
  ∀ s c x sp t (w : WS), Issuing s c x sp t → qualified x w.qual.toNat → Fresh c → x.region.opened = false →
    let sd := w.sd.toNat
    let k := w.sub.toNat + 1
    let area := x.pair w.sa.toNat
    let alen := x.reg w.sb.toNat
    let t1 := { t with forks := [⟨c.gid, c.slot, sd, k, area, alen, none, [], true⟩] }
    let met := sweepViews (quiet { s with groups := Map.put s.groups c.gid x, teams := Map.put s.teams x.team t1 } t1)
    let depth := match Map.find met.views t.view with | some v => v.depth | none => 0
    let clean := CleanPair x w.sa.toNat ∧ CleanReg x w.sb.toNat
    let fields := w.sub ≠ 0 ∧ w.sa.toNat % 2 = 0
    let good := area % 4096 = 0 ∧ area < 2 ^ 57 ∧ alen ≠ 0 ∧ t.desc.clu = 0 ∧ t.desc.gbar = false
    let writes := fun (p : Val → Prop) => ∃ u y v, exec (.fork w) s = .next u ∧ Map.find u.groups c.gid = some y ∧ WroteVal x y sd v ∧ p v ∧
      (∀ n, (Map.find u.views n).isSome = true → Map.find u.views n = Map.find s.views n) ∧ ∃ t', Map.find u.teams x.team = some t' ∧ t'.view = t.view ∧ t'.forks = []
    let refused := fun (e : Cause) => writes (fun v => v.poison = true ∧ v.bits.toNat / 2 ^ 24 = e.code)
    t.groups = [c.gid] → t.forks = [] → x.ended = false → x.board = [] → (s.coreOf x.core).mxq = [] → (∀ p ∈ x.paths, p.2.ops = []) →
      (∀ e ∈ s.teams, e.2.olds = []) →
      (¬fields ∨ (clean ∧ ¬good) → refused .malformed) ∧
      (fields → ∀ tok, (x.rdS w.sa.toNat = ⟨tok, true⟩ ∨ ((x.rdS w.sa.toNat).poison = false ∧ x.rdS (w.sa.toNat + 1) = ⟨tok, true⟩) ∨
          (CleanPair x w.sa.toNat ∧ x.rdS w.sb.toNat = ⟨tok, true⟩)) → writes (fun v => v = ⟨tok, true⟩)) ∧
      ∀ r, Map.find s.grids t.grid = some r → fields → clean → good →
        (depth = 4 ∨ (freeViews met k).length < k → refused .viewSpace) ∧
        (depth ≠ 4 → (freeViews met k).length = k → placeRivals t.grid r t1 (k - 1) met = none →
          writes (fun v => v = ⟨BitVec.ofNat 32 (t.view + 2 ^ 16), false⟩))

/-- R340, R343, R344: `CHOOSE` names a view of its team's chain and goes to the base with the chain up to it; there the views are chosen innermost first: their
sectors merge into the root, each byte that a view wrote in the place of the root's, and the log that reached the root is left to be played before status 0; in a
family that has been decided it writes status 1; a reserved use poisons SD. The frames of a family's area stand for arbitrary bytes afterwards (R340). -/
def Sys2Proof.Machine.ChooseStated : Prop :=
  ∀ s c x sp t (w : WS), Issuing s c x sp t → qualified x w.qual.toNat → x.region.opened = false →
    let names := w.sb = 0 ∧ w.sub = 0
    let n := x.reg w.sa.toNat % 1024
    let bytesOf := fun (q : PrivSector) => ((List.range 32).filter (fun i => q.written.getLsbD i)).map (fun i => (i, BitVec.ofNat 8 (q.sec.data / 2 ^ (8 * i))))
    let merged := fun (u : State) (ps : List (Nat × PrivSector)) =>
      (∀ p ∈ ps, u.looseAt p.1 = none → u.rootSector p.1 = (s.rootSector p.1).write (bytesOf p.2) p.2.sec.token) ∧
      ∀ m, m ∉ ps.map (fun p => p.1) → Map.find u.loose (m / 128) = Map.find s.loose (m / 128) → u.rootSector m = s.rootSector m
    let ready := x.egress = [] ∧ s.invals = [] ∧ NoErrors s ∧ x.playing = false ∧ ∀ r ∈ s.plays, r.gid ≠ c.gid
    let open_ := fun (v : View) => v.state = 1 ∧ v.dec = false
    (c.wait = none →
      (names → CleanReg x w.sa.toNat → n ≠ 0 → n ∈ s.chain t.view →
        Becomes (.choose w) s c.gid (x.waits c sp (.chooseStep ((s.chain t.view).takeWhile (fun u => u != n) ++ [n]) w.sd.toNat) true none)) ∧
      (¬names ∨ (CleanReg x w.sa.toNat ∧ (n = 0 ∨ n ∉ s.chain t.view)) →
        Results (.choose w) s c.gid x true (fun _ => true) ⟨.s, w.sd.toNat, 1⟩ (fun _ => .bad .malformed))) ∧
    (∀ sd n view, c.wait = some (.chooseStep [n] sd) → t.view = n → 0 < n → n < 1024 → ready →
      (s.views = [(n, view)] → view.parent = 0 → open_ view → (view.sects.map (fun p => p.1)).Nodup →
        ∃ u y, exec (.choose w) s = .next u ∧ Map.find u.groups c.gid = some y ∧ Map.find u.teams x.team = some { t with view := 0 } ∧ merged u view.sects ∧
          if view.log = [] then WroteStatus x y sd 0 ∧ u.plays = s.plays
          else u.plays = s.plays ++ [⟨c.gid, c.pc, view.log.map (fun e => e.2)⟩] ∧ y.v = x.v ∧ y.s = x.s ∧ y.p = x.p ∧ y.q = x.q ∧
            (y.split c.slot).bind (fun z => z.wait) = some (.choose c.gid sd)) ∧
      (Map.find s.views n = some view → view.dec = true → (∀ e ∈ s.views, e.2.state < 2) →
        ∃ u y, exec (.choose w) s = .next u ∧ Map.find u.groups c.gid = some y ∧ WroteStatus x y sd 1 ∧ u.mem = s.mem ∧ u.views = s.views)) ∧
    (∀ sd m n inner outer p, c.wait = some (.chooseStep [m, n] sd) → t.view = m → 0 < n → n < m → m < 1024 → ready → s.views = [(n, outer), (m, inner)] →
      inner.parent = n → outer.parent = 0 → open_ inner → open_ outer → inner.clan ≠ outer.clan → inner.sects = [p] → outer.sects = [] → inner.log = [] → outer.log = [] →
      ∃ u y, exec (.choose w) s = .next u ∧ Map.find u.groups c.gid = some y ∧ WroteStatus x y sd 0 ∧ Map.find u.teams x.team = some { t with view := 0 } ∧ merged u [p]) ∧
    (∀ g sd, c.wait = some (.choose g sd) → (∀ r ∈ s.plays, r.gid ≠ c.gid) → x.playing = false → ∃ y, Becomes (.choose w) s c.gid y ∧ WroteStatus x y sd 0)

/-- R346: every `VIEW` completes: it reads a field of the team's view to SD, zeros in the root, and poisons SD where SA, SB or SUB is reserved. -/
def Sys2Proof.Machine.ViewWordsStated : Prop :=
  ∀ s c x sp t (w : WS), Issuing s c x sp t → qualified x w.qual.toNat →
    let out := fun (i : Instr) (r : LVal) => Results i s c.gid x true (fun _ => true) ⟨.s, w.sd.toNat, 1⟩ (fun _ => r)
    let view := Map.find s.views t.view
    let of := fun (f : View → Nat) => match view with | some v => f v | none => 0
    let sum := fun (v : View) => (s.views.filter (fun e => e.2.clan == v.clan)).foldl (fun n e => n + e.2.sect) 0
    ∀ e ∈ ([(.viewId w, of (fun _ => t.view)), (.viewRival w, of View.rival), (.viewDepth w, of View.depth), (.viewParent w, of View.parent),
        (.viewLog w, of (fun _ => s.logn t.view)), (.viewSect w, of sum), (.viewDec w, of (fun v => (if v.dec then 1 else 0) + v.win * 4))] : List (Instr × Nat)),
      (w.sa = 0 → w.sb = 0 → (e.1 = .viewId w → w.sub = 0) → out e.1 (.val e.2)) ∧
        (w.sa ≠ 0 ∨ w.sb ≠ 0 ∨ (e.1 = .viewId w ∧ w.sub ≠ 0) → out e.1 (.bad .malformed))

/-- R335 to R338: `FORK` of a team, with its rivals' copies, and what it is refused for. R340, R343, R344: `CHOOSE` of a chain of views, the merge of their sectors and
the play of their log. R346: every `VIEW` completes: it reads a field of the team's view to SD, zeros in the root, and poisons SD where SA, SB or SUB is reserved. -/
def Obligations.ForkWorldWords : Prop := ForkStated ∧ ForkRefusedStated ∧ ChooseStated ∧ ViewWordsStated

/-- R37, R39 to R46, R295, R387: each packet that starts passes RDIDX, and completes or stays started: NOP, SIGNAL_SET, SIGNAL_WAIT with its timeout, COPY with
its bytes, NODE_FEED with its records, LAUNCH with its grid, PREEMPT; a refused one stops its queue with the status given. -/
def Obligations.PacketsRun : Prop :=
  ∀ s (p : Pkt) (k : Ctx) (value : BitVec 64) (sig : BitVec 16) (op : BitVec 2) (cond : BitVec 3) (tmo : BitVec 32) (src dst : BitVec 64) (bytes : BitVec 40),
    Map.find s.ctxs p.ctx = some k → Map.find s.views 0 = none →
    let q := s.queueOf p.ctx p.q
    let begun := wakeQueue (s.updQueue p.ctx p.q (fun q => q.pass (pktNo p + 1))) p.ctx p.q
    let ends := fun (i : Instr) (st : Nat) (sigs : List (Nat × BitVec 64)) =>
      ∃ u, exec i s = .next u ∧ Completed s u p st sigs ∧ (u.queueOf p.ctx p.q).rdidx = BitVec.ofNat 32 p.idx + 1
    let stays := fun (i : Instr) (b : Body) => ∃ u, exec i s = .next u ∧ Begun s u p b
    let good := p.hdr.cop ≠ 3 ∧ p.hdr.csig.toNat ≤ k.nsig
    let named := 1 ≤ sig.toNat ∧ sig.toNat ≤ k.nsig
    let set := Map.set 0 k.signals sig.toNat (if op = 1 then Map.get 0 k.signals sig.toNat + value else value)
    let met := signalCond cond.toNat (Map.get 0 k.signals sig.toNat) value
    let meets := bytes ≠ 0 ∧ src.toNat < dst.toNat + bytes.toNat ∧ dst.toNat < src.toNat + bytes.toNat
    let record := (q.cplbase.toNat + 16 * (p.idx % 2 ^ q.logsz)) % 2 ^ 64
    let dev := if k.mode = 8 then p.q / 8 else if k.mode = 2 then p.q / 32 else 0
    (good → ends (.nopPacket p) 0 (doneSignals p k.signals)) ∧
      (good → NoErrors s → ∀ t place, record % 16 = 0 → translate s k .write record (freeKey (s.draws + 1) 26 0) = .ok t → t.place = .dev place → place % 16 = 0 →
        ∃ u, exec (.nopPacket p) s = .next u ∧ u.rootSector (place / 32) = (s.rootSector (place / 32)).write
          (plainBytes (bytesAt (place % 32) 16 (p.hdr.tag.toNat * 2 ^ 32 + p.hdr.typ.toNat * 2 ^ 24) 0)) none ∧ ∀ m, m ≠ place / 32 → u.rootSector m = s.rootSector m) ∧
      (p.hdr.cop = 3 → ends (.nopPacket p) 0x11 k.signals) ∧ (p.hdr.cop ≠ 3 → k.nsig < p.hdr.csig.toNat → ends (.nopPacket p) 0x12 k.signals) ∧
      (good → op.toNat < 2 → named → ends (.signalSet p value sig op) 0 (doneSignals p set)) ∧ (good → op.toNat < 2 → ¬named → ends (.signalSet p value sig op) 0x12 k.signals) ∧
      (2 ≤ op.toNat → ends (.signalSet p value sig op) 0x11 k.signals) ∧
      (good → cond.toNat < 6 → named → met = true →
        ends (.signalWait p value sig cond tmo) 0 (doneSignals p k.signals)) ∧
      (good → cond.toNat < 6 → named → met = false →
        stays (.signalWait p value sig cond tmo) (.wait value sig.toNat cond.toNat (if tmo = 0 then none else some (s.time + tmo.toNat * 21000)))) ∧
      (∀ due, s.startedAt p.ctx p.q p.idx = some ⟨p, .wait value sig.toNat cond.toNat (some due)⟩ → due ≤ s.time → met = false →
        ∃ u, exec (.signalWaitTimeout p.ctx p.q p.idx) s = .next u ∧ Completed s u p 0x18 k.signals) ∧
      (good → meets → ends (.copy p src dst bytes) 0x17 k.signals) ∧ (good → ¬meets → stays (.copy p src dst bytes) (.copy src dst bytes.toNat 0 false)) ∧
      (∀ r w a b, s.startedAt p.ctx p.q p.idx = some ⟨p, .copy src dst 32 0 false⟩ → src.toNat % 32 = 0 → dst.toNat % 32 = 0 →
        translate { s with draws := s.draws + 1 } k .read src.toNat (freeKey (s.draws + 1) 27 0) = .ok r → r.place = .dev (32 * a) → (s.rootSector a).token = none → NoErrors s →
        translate { s with draws := s.draws + 1 } k .write dst.toNat (freeKey (s.draws + 1) 27 0) = .ok w → w.place = .dev (32 * b) →
        ∃ z, exec (.copyCompletion p.ctx p.q p.idx) s = .next (finishPkt z p 0 0 32) ∧ z.ctxs = s.ctxs ∧ z.rootSector b = s.rootSector a ∧
          ∀ m, m ≠ b → z.rootSector m = s.rootSector m) ∧
      (∀ ntab raddr (node : BitVec 16) last g d, good → liveTable s p.ctx ntab.toNat = some g → s.node g node.toNat = some d → d.kind = 1 → d.ended = false →
        raddr.toNat % 16 = 0 → d.waiting = [] → (∀ e ∈ q.started, e.pkt.idx ≠ p.idx) →
        (ends (.nodeFeed p ntab raddr 0 node last) 0 (doneSignals p k.signals)) ∧
        (d.cap ≤ d.bin.length → stays (.nodeFeed p ntab raddr 1 node last) (.feed ntab raddr 1 node.toNat last 0)) ∧
        (d.bin.length < d.cap → ∀ v, agentRead { startBody begun p (.feed ntab raddr 1 node.toNat last 0) with draws := s.draws + 1 } p.ctx raddr.toNat 16
            (freeKey (s.draws + 1) 28 0) = .val v →
          ∃ u, exec (.nodeFeed p ntab raddr 1 node last) s = .next u ∧
            u.node g node.toNat = some { d with bin := d.bin ++ [BitVec.ofNat 128 v], produced := d.produced + if last then 1 else 0 })) ∧
      (∀ kdesc argp (teams : BitVec 21) (prio : BitVec 2), good → 2 ^ 20 < teams.toNat → ends (.launch p kdesc argp teams prio) 0x13 k.signals) ∧
      (∀ kdesc argp (teams : BitVec 21) (prio : BitVec 2), good → teams.toNat ≤ 2 ^ 20 →
        let z := { begun with draws := s.draws + 1 }
        (∀ r, teams = 0 → launchOf z p kdesc argp 0 prio.toNat = .ok r → r.nodes = [] → ends (.launch p kdesc argp teams prio) 0 (doneSignals p k.signals)) ∧
        (∀ e, launchOf z p kdesc argp teams.toNat prio.toNat = .error e → e ≠ 0 → ends (.launch p kdesc argp teams prio) e k.signals) ∧
          (∀ r, launchOf z p kdesc argp teams.toNat prio.toNat = .ok r → teams ≠ 0 → ∃ u, exec (.launch p kdesc argp teams prio) s = .next u ∧
            Begun s u p (.launch s.ids) ∧ Map.find u.grids s.ids = some r ∧ u.ids = s.ids + 1 ∧ ⟨s.time, .event (.dispatchPass k.part)⟩ ∈ u.agenda)) ∧
      (∀ force drain, good → ((s.devOf p.ctx dev).state ≠ 0 → ends (.preemptSave p force drain) 0x1C k.signals) ∧
        ((s.devOf p.ctx dev).state ≠ 3 → ends (.preemptRestore p) 0x1C k.signals) ∧
        ((s.devOf p.ctx dev).state = 3 → preemptPkt s p.ctx dev = none → ∃ u, exec (.preemptRestore p) s = .next u ∧ Begun s u p (.preempt dev) ∧ (u.devOf p.ctx dev).state = 4) ∧
        ((s.devOf p.ctx dev).state = 0 → devTeams s p.ctx dev ≠ [] → ∃ u, exec (.preemptSave p false drain) s = .next u ∧ Begun s u p (.preempt dev) ∧
          u.devOf p.ctx dev = ⟨1, some (s.time + (if drain = 0 then 200 else drain.toNat) * 21000), [], []⟩))

/-- R14, R32, R35 to R38, R48, R49, R261: what a host writes to the queue registers, the signal windows and the memory aperture of a context it reaches. -/
def Obligations.HostRegisters : Prop :=
  ∀ s c (k : Ctx) n (v : BitVec 64) (r : HostReq), Map.find s.ctxs c = some k → k.isOver = false → s.reached k.fn = true → n < 64 →
    let q := s.queueOf c n
    let v32 := v.setWidth 32
    let becomes := fun (i : Instr) (y : Queue) => ∃ u, exec i s = .next u ∧ u.queueOf c n = y ∧ 64 * c + n ∈ u.coach ∧ MemoryKept s u ∧
      ∀ d m, (d, m) ≠ (c, n) → u.queueOf d m = s.queueOf d m
    let ahead := (v32 - q.rdidx).toNat
    let rings := fun (i : Instr) =>
      (q.en = false → becomes i q) ∧
        (q.en = true → 2 ^ q.logsz < ahead → q.stopped = true → becomes i q) ∧
        (q.en = true → 2 ^ q.logsz < ahead → q.stopped = false → becomes i { q with stopped := true, byDoorbell := true, lastst := 0x1A, stopidx := q.rdidx }) ∧
        (q.en = true → ahead ≤ 2 ^ q.logsz → becomes i (if (q.w - q.rdidx).toNat < ahead then { q with w := v32, lastDb := v32 } else q))
    let given := !(k.mode == 8 && s.dz860 && decide (56 ≤ n))
    let log := v.toNat / 2 ^ 8 % 16
    let aligned := fun (a : BitVec 64) (m : Nat) => a.toNat % m = 0 ∧ a.toNat < 2 ^ 57
    let sets := given = true ∧ 4 ≤ log ∧ aligned q.qbase 64 ∧ aligned q.cplbase 16
    let configures := fun (i : Instr) =>
      (q.en = true → becomes i { q with en := v.getLsbD 0 }) ∧
        (q.en = false → v.getLsbD 0 = true → sets →
          becomes i { q with logsz := log, en := true, w := 0, rdidx := 0, lastDb := 0, stopped := false, epoch := q.epoch + 1 }) ∧
        (q.en = false → v.getLsbD 0 = false ∨ ¬sets → becomes i { q with logsz := log })
    let restarted := { q.pass q.lastDb with w := q.lastDb, stopped := if q.en then false else q.stopped }
    let reads := fun (i : Instr) (w : List (BitVec 64)) => exec i s = .next { s with outbox := s.outbox ++ [⟨k.fn, 3, w⟩] }
    (rings (.doorbell c n v) ∧ rings (.registerWrite c n 0x18 v)) ∧ (configures (.qcfgWrite c n v) ∧ configures (.registerWrite c n 8 v)) ∧
      (becomes (.qctlResume c n) { q with stopped := false } ∧ becomes (.registerWrite c n 0x30 1) { q with stopped := false }) ∧
      (becomes (.qctlReset c n) restarted ∧ becomes (.registerWrite c n 0x30 2) restarted) ∧
      (q.en = false → becomes (.registerWrite c n 0 v) { q with qbase := v } ∧ becomes (.registerWrite c n 0x10 v) { q with cplbase := v }) ∧
      (q.en = true → becomes (.registerWrite c n 0 v) q ∧ becomes (.registerWrite c n 0x10 v) q) ∧
      (∀ e ∈ ([(0x00, q.qbase), (0x08, BitVec.ofNat 64 (q.logsz % 16 * 2 ^ 8 + if q.en then 1 else 0)), (0x10, q.cplbase), (0x18, 0), (0x20, q.rdidx.setWidth 64),
          (0x28, BitVec.ofNat 64 (q.stopidx.toNat * 2 ^ 32 + q.lastst % 256 * 2 ^ 8 + if !q.en then 0 else if q.stopped then 2 else 1)), (0x30, 0), (0x38, 0)] : List (Nat × BitVec 64)),
        registerRead c n e.1 s = { s with outbox := s.outbox ++ [⟨k.fn, 3, [0, e.2]⟩] }) ∧
      (∀ m, 1 ≤ m → m ≤ k.nsig → exec (.signalWindowWrite c m v) s = .next { s with
          ctxs := Map.put s.ctxs c { k with signals := Map.set 0 k.signals m v }
          groups := s.groups.map (fun e => if e.2.ctx == c then (e.1, e.2.mapSplits (Split.meetSignal m v)) else e) } ∧
        (s.phase = 0 → s.hostL2 = [] → reads (.signalWindowAcquire c m) [0, Map.get 0 k.signals m])) ∧
      (∀ m, m = 0 ∨ k.nsig < m → exec (.signalWindowWrite c m v) s = .next s ∧ (s.phase = 0 → reads (.signalWindowAcquire c m) [0, 0])) ∧
      (∀ d, r.pa < 2 ^ 54 → devKey s.stackCount r.pa = some (32 * d) → r.size = 8 → r.pa % 32 = 0 → NoErrors s →
        let x := s.rootSector d
        let old := x.data % 2 ^ 64
        let writes := fun (u : State) (w : Nat) => u.rootSector d = x.write (plainBytes (bytesAt 0 8 w 0)) none ∧ ∀ m, m ≠ d → u.rootSector m = s.rootSector m
        (r.kind = 0 → s.phase = 0 → x.token = none → reads (.hostApertureAccess c r) [0, BitVec.ofNat 64 old]) ∧
          (r.kind = 0 → s.phase = 0 → ∀ t, x.token = some t → reads (.hostApertureAccess c r) [1, t.setWidth 64]) ∧
          (r.kind = 1 → ∃ u, exec (.hostApertureAccess c r) s = .next u ∧ writes u r.data) ∧
          (r.kind = 2 → s.phase = 0 → x.token = none → r.aop ∈ [0, 8, 9] → ∃ u, exec (.hostApertureAccess c r) s = .next u ∧
            writes u (if r.aop = 0 then (old + r.data % 2 ^ 64) % 2 ^ 64 else if r.aop = 8 then r.data % 2 ^ 64 else if old = r.data % 2 ^ 64 then r.data2 % 2 ^ 64 else old) ∧
            u.outbox = s.outbox ++ [⟨k.fn, 3, [0, BitVec.ofNat 64 old]⟩])) ∧
      (∀ port, port < 2 → exec (.pciePortDown port) s = .next { s with pcieDown := Map.put s.pcieDown port true })

/-- R15, R32, R33, R53 to R55, R334, R355, R357, R358, R360, R386, R403, R404: the commands of the managers through a mailbox that the host reaches: what each
records, and what it answers. -/
def Obligations.ManagerCommands : Prop :=
  ∀ s, let answer := fun (u : State) (fn : Nat) (w : List (BitVec 64)) => { u with outbox := u.outbox ++ [⟨fn, 4, w⟩] }
    (∀ (r : CtxRec) port c, s.reached r.fn = true → s.portOf r.fn = some port → c < 32 → Map.has s.ctxs c = false → (∀ d < c, Map.has s.ctxs d = true) →
      (∀ e ∈ s.ctxs, e.2.fn ≠ r.fn) → (∃ p, Map.find s.parts r.pid = some p ∧ p.port = port) → CtxRecOk r = true →
      exec (.contextCreate r) s = .next (answer { s with ctxs := Map.put s.ctxs c (newCtx r port), records := s.records.filter (fun e => e.1 / 64 != r.fn) } r.fn [0])) ∧
    (∀ port pid (r : BitVec 256), port < 2 → s.reached port = true → pid = (r.extractLsb' 128 6).toNat →
      let m : BitVec 128 := r.setWidth 128
      let free := fun (own : Option Nat) => m ≠ 0 ∧ (∀ p ∈ s.parts, some p.1 ≠ own → p.2.clusters &&& m = 0) ∧ (s.dz860 = true → m.extractLsb' 112 16 = 0) ∧ r.extractLsb' 134 122 = 0
      let bound := ∃ p, Map.find s.parts pid = some p ∧ p.port = port
      let taken := fun (own : Option Nat) => (∃ p ∈ s.parts, some p.1 ≠ own ∧ p.2.clusters &&& m ≠ 0) ∨ (s.dz860 = true ∧ m.extractLsb' 112 16 ≠ 0)
      let wrong := fun (own : Option Nat) (st : BitVec 64) => (m = 0 ∧ st = 0x21) ∨ (m ≠ 0 ∧ taken own ∧ st = 0x22) ∨
        (m ≠ 0 ∧ ¬taken own ∧ r.extractLsb' 134 122 ≠ 0 ∧ st = 0x23)
      let used := ∃ k ∈ s.ctxs, k.2.part = pid
      (Map.has s.parts pid = false → free none → exec (.partitionCreate port r) s = .next (answer { s with parts := Map.put s.parts pid ⟨port, m⟩ } port [0])) ∧
        (Map.has s.parts pid = true → exec (.partitionCreate port r) s = .next (answer s port [0x20])) ∧
        (∀ st, Map.has s.parts pid = false → wrong none st → exec (.partitionCreate port r) s = .next (answer s port [st])) ∧
        (∀ st, bound → ¬used → wrong (some pid) st → exec (.partitionRewrite port r) s = .next (answer s port [st])) ∧
        (bound → ¬used → free (some pid) → exec (.partitionRewrite port r) s = .next (answer { s with parts := Map.put s.parts pid ⟨port, m⟩ } port [0])) ∧
        (bound → ¬used → exec (.partitionDelete port pid) s = .next (answer { s with parts := Map.del s.parts pid } port [0])) ∧
        (bound → used → exec (.partitionRewrite port r) s = .next (answer s port [0x25]) ∧ exec (.partitionDelete port pid) s = .next (answer s port [0x25])) ∧
        (¬bound → exec (.partitionRewrite port r) s = .next (answer s port [0x26]) ∧ exec (.partitionDelete port pid) s = .next (answer s port [0x26]))) ∧
    (∀ port die cs, port < 2 → s.reached port = true → s.clusterMap[die]? = some cs → ∃ spare,
      exec (.clusterMapRead port die) s = .next (answer s port (0 :: cs.map (fun l => BitVec.ofNat 64 (l.foldr (fun c a => c + 256 * a) 0)) ++ [spare]))) ∧
    (∀ fn, s.reached fn = true → exec (.peerNumberRead fn) s = .next (answer s fn [0, BitVec.ofNat 64 s.peerNo])) ∧
    (∀ fn v, s.reached fn = true → exec (.viewTableRead fn v) s =
      .next (answer s fn (0 :: (List.range 4).map (fun j => BitVec.ofNat 64 (viewBits (v % 1024) (Map.find s.views (v % 1024)) / 2 ^ (64 * j)))))) ∧
    (∀ fn q (idx : BitVec 32), s.reached fn = true →
      let kept := Map.get [] s.records (64 * fn + q)
      (∀ x : Retired, kept.find? (fun x => x.idx == idx) = some x → exec (.retirementRecordRead fn q idx) s =
        .next (answer s fn [0, x.bits.extractLsb' 0 64, x.bits.extractLsb' 64 64, x.bits.extractLsb' 128 64, x.bits.extractLsb' 192 64])) ∧
      (kept.find? (fun x => x.idx == idx) = none → exec (.retirementRecordRead fn q idx) s = .next (answer s fn [0x24]))) ∧
    (∀ peer (v : BitVec 2), peer < 4096 → (s.phase = 0 → exec (.peerStateWrite peer v) s = .next { s with peers := Map.set 0 s.peers peer v.toNat }) ∧
      (s.phase ≠ 0 → exec (.peerStateWrite peer v) s = .next s)) ∧
    (∀ sw gid r, sw < 64 → gid < 4096 → exec (.multicastTableInstall false sw gid r) s = .next { s with mcLeaf := Map.set 0 s.mcLeaf (4096 * sw + gid) r } ∧
      exec (.multicastTableInstall true sw gid r) s = .next { s with mcSpine := Map.set 0 s.mcSpine (4096 * sw + gid) r }) ∧
    (∀ c k, Map.find s.ctxs c = some k → k.isOver = false → s.reached k.fn = true →
      let puts := fun (y : Ctx) => { s with ctxs := Map.put s.ctxs c y }
      (∀ r : BitVec 128, limitOk (r.toNat % 2 ^ 64) = true → limitOk (r.toNat / 2 ^ 64) = true →
          exec (.quotaWrite c r) s = .next (dueNow (answer (puts { k with quota := r }) k.fn [0]) (.dispatchPass k.part))) ∧
        (∀ r : BitVec 128, limitOk (r.toNat % 2 ^ 64) = false ∨ limitOk (r.toNat / 2 ^ 64) = false → exec (.quotaWrite c r) s = .next (answer s k.fn [0x23])) ∧
        (∀ m, exec (.reachMaskSet c m) s = .next (answer (puts { k with reach := m }) k.fn [0]) ∧
          exec (.groupMaskSet c m) s = .next (answer (puts { k with gmask := m }) k.fn [0])) ∧
        (∀ w r, windowOk s c w r.toNat = true →
          let x : Window := ⟨(r.extractLsb' 64 64).toNat, (r.extractLsb' 48 16).toNat, (r.extractLsb' 30 18).toNat, (r.extractLsb' 4 5).toNat, r.getLsbD 2, r.getLsbD 1, r.getLsbD 0⟩
          exec (.inboundWindowWrite c w r) s = .next (answer { s with windows := Map.put s.windows w x } k.fn [0])) ∧
        (∀ core n, n < 14 → exec (.perfCounterRead c core n) s = .next (answer s k.fn [0, BitVec.ofNat 64 (Map.get 0 k.perf (16 * core + n))])) ∧
        (k.abandon = false → ∃ u, exec (.abandonRequest c) s = .next u ∧ u.ctxs = Map.put s.ctxs c { k with abandon := true, graceDue := some (s.time + k.graceUs * 21000) } ∧
          ⟨s.time + k.graceUs * 21000, .event (.abandonGraceExpiry c)⟩ ∈ u.agenda ∧ u.groups = s.groups ∧ u.mem = s.mem))

/-- R65, R66, R81, R87, R89, R97, R104, R165, R194, R227, R289, R326: what the engines of a core and of its region do on their own: a lease granted and lapsed,
an owed result written, an age wrap, a clause fetched, a split rotated out, a deadline passed, a window closed, an invalidation acknowledged, a Hitch line
returned, a reclaim's visit. -/
def Obligations.CoreEngines : Prop :=
  ∀ s, let puts := fun (g : Nat) (y : Group) => { s with groups := Map.put s.groups g y }
    (∀ d, (s.dieAt d).leave = [] → exec (.leaveGrant d) s = .next s) ∧
    (∀ d r rs, (s.dieAt d).leave = r :: rs →
      let room := min 2800 ((s.dieAt d).headroom + (s.time - (s.dieAt d).headAt))
      let asks := match r with | .matrix _ => 1400 | .copy _ _ _ => 175
      (room < asks → exec (.leaveGrant d) s = .next s) ∧
        (asks ≤ room →
          let taken := { s with dies := Map.put s.dies d { s.dieAt d with leave := rs, headroom := room - asks, headAt := s.time } }
          match r with
          | .matrix core => exec (.leaveGrant d) s = .next
            { taken with cores := Map.put s.cores core { s.coreOf core with lease := some (s.time + 2560), asked := false } }
          | .copy g path n => ∀ x, Map.find s.groups g = some x →
            let p : Path := { x.path path with ops := (x.path path).ops.map (fun o => if o.seq = n then { o with lease := false } else o) }
            exec (.leaveGrant d) s = .next { taken with groups := Map.put s.groups g { x with paths := Map.set Path.zero x.paths path p } })) ∧
    (∀ core t, (s.coreOf core).lease = some t →
      (t ≤ s.time → exec (.matrixLeaseLapse core) s = .next { s with cores := Map.put s.cores core { s.coreOf core with lease := none } }) ∧
        (s.time < t → exec (.matrixLeaseLapse core) s = .next s)) ∧
    (∀ core pipe g, (s.coreOf core).order.find? (fun g => (s.grp g).pipe == pipe) = some g → exec (.ageWrap core pipe) s =
      .next { s with cores := Map.put s.cores core { s.coreOf core with order := (s.coreOf core).order.filter (fun h => h != g) ++ [g] } }) ∧
    (∀ g k x ws, Map.find s.groups g = some x → x.board[k]? = some ws →
      exec (.variableResultWrite g k) s = .next (puts g { x.wrAll ws with board := x.board.eraseIdx k })) ∧
    (∀ core tag,
      let due := s.cores.flatMap (fun e => (e.2.joins.filter (fun j => e.1 == core && j.mtag == tag && decide (j.due ≤ s.time))).map (fun j => (e.1, j)))
      (due = [] → exec (.joinWindowClose core tag) s = .next s) ∧
        ∀ j, due = [(core, j)] → exec (.joinWindowClose core tag) s = .next { s with cores := s.cores.map (fun e => (e.1, { e.2 with
          mxq := e.2.mxq.map (fun m => if m.join == some j.id then { m with join := none, got := j.read s } else m)
          joins := if e.1 == core then e.2.joins.filter (fun i => i.id != j.id) else e.2.joins })) }) ∧
    (∀ line core, (∀ i ∈ s.invals, ∀ p ∈ i.pend, (s.grp p.2.1).egress = [] ∧ ((s.grp p.2.1).path pathRed).ops = []) →
      ∃ u, exec (.invalidationAck line core) s = .next u ∧ u = { s with groups := u.groups, invals := u.invals } ∧
      (∀ g, Map.find u.groups g = Map.find s.groups g) ∧ u.invals = (s.invals.map (fun i => if i.line = line then { i with pend := i.pend.filter (fun p => p.1 != core) } else i)).filter (fun i => !i.pend.isEmpty)) ∧
    (∀ line, exec (.hitchLineReturn line) s = .next { s with hitch := s.hitch.filter (fun l => !(l.1 == line && decide (l.2 + 210000 ≤ s.time))) }) ∧
    (∀ k r n, s.reclaims[k]? = some r →
      (reclaimReady s r = false → exec (.landauReclaim k n) s = .next s) ∧
        (reclaimReady s r = true → r.dead = [] → ∃ u, exec (.landauReclaim k n) s = .next u ∧ u.reclaims = s.reclaims.eraseIdx k ∧ EngineKept s u) ∧
        (∀ d v, reclaimReady s r = true → NoErrors s → readTree { s with draws := s.draws + 1 } r.ctx r.desc (freeKey (s.draws + 1) 23 0) = .ok d →
          r.dead[n % r.dead.length]? = some v → (∃ w ∈ r.dead, w ≠ v) →
          ∃ u r', exec (.landauReclaim k n) s = .next u ∧ EngineKept s u ∧ u.reclaims = s.reclaims.set k r' ∧ r'.seen = v :: r.seen ∧ v ∉ r'.dead ∧
            ∀ w ∈ r.dead, w ≠ v → w ∈ r'.dead)) ∧
    (∀ g slot x sp d, Map.find s.groups g = some x → slot < 2 → x.split slot = some sp → x.resident = true → sp.deadline = some d → sp.expired = false →
      let late := puts g (x.setSplit slot (some { sp with expired := true }))
      let fires := fun (i : Instr) => (d ≤ s.time → exec i s = .next { late with agenda := ⟨s.time, .issue g slot⟩ :: s.agenda }) ∧ (s.time < d → exec i s = .next s)
      (∀ a b, sp.wait = some (.path a b) → fires (.waitDeadline g slot)) ∧ (∀ a b p, sp.wait = some (.barrier a b p) → fires (.barWaitDeadline g slot)) ∧
        ((∃ a b v, sp.wait = some (.signal a b v)) ∨ sp.wait = some .signalMet → fires (.sigwDeadline g slot))) ∧
    (∀ g slot x sp k P r1 r2, Map.find s.groups g = some x → slot < 2 → x.split slot = some sp → sp.clause = none → x.ended = false → x.resident = true →
      Map.find s.ctxs x.ctx = some k →
      let va := sp.hdr.toNat
      let key := fun (a : Nat) => freeKey (s.draws + 1) 37 (a / 32 % 128)
      let sec := s.devSector (s.viewOf x) (P / 32)
      let h := BitVec.ofNat 32 (sec.data / 2 ^ (8 * (P % 32)))
      let w := BitVec.ofNat 32 (sec.data / 2 ^ (8 * (P % 32) + 32))
      translate s k .fetch va (key va) = .ok r1 → r1.place = .dev P → translate s k .fetch (va + 4) (key (va + 4)) = .ok r2 → r2.place = .dev (P + 4) →
      P % 32 ≤ 24 → sec.token = none → NoErrors s → (s.dieAt (dieOf x.core)).asleep = false →
      Map.find (s.coreOf x.core).icache (codeKey x.ctx (s.viewOf x) (placeKey (.dev (P / 32 * 32)))) = none → (Header.of h).count = 1 → (Header.of h).cls ≠ some .matrix → (Header.of h).l = false →
      checkClause (Header.of h) [w] = none →
      ∃ u, exec (.clauseFetch g slot) s = .next u ∧ Map.find u.groups g = some (x.setSplit slot (some { sp with clause := some ⟨h, [w]⟩ })) ∧ MemoryKept s u) ∧
    (∀ g slot x sp old e t, Map.find s.groups g = some x → slot < 2 → x.split slot = some sp → x.oldest = some e → x.newest = some e →
      Map.find x.pool e = some (.spilled old none none t) → areaFail s x e = none → rotationDue s g slot = true →
      exec (.splitRotation g slot) s = .next (puts g ({ x with pool := Map.put x.pool e (.spilled sp.restart none none s.time) }.setSplit slot
        (some { old with took := s.time, idle := s.time }))))

/-- R37, R44, R50, R245, R246: the Coachhouse takes an event and starts the queue's next packet, or refuses it; the replay service's answer, or the fault limit,
sends a parked split back to the start of its region or to its recovery branch. -/
def Obligations.CoachhouseAndReplay : Prop :=
  (∀ s c q k b, Map.find s.ctxs c = some k → q < 64 → s.coach = [64 * c + q] → satisfiedQueues s = [] →
    let y := s.queueOf c q
    y.started = [] → y.en = true → y.stopped = false → y.rdidx ≠ y.w →
    let z := { s with coach := [], draws := s.draws + 2 }
    let p : Pkt := ⟨c, q, y.epoch * 2 ^ 32 + y.rdidx.toNat, pktHdr b⟩
    agentRead z c ((y.qbase.toNat + 64 * (y.rdidx.toNat % 2 ^ y.logsz)) % 2 ^ 64) 64 (freeKey (s.draws + 2) 32 0) = .val b →
      (∀ i, packetOf p b = .ok i → exec .coachhouseEvent s = .next { z with agenda := ⟨s.time, .event i⟩ :: s.agenda }) ∧
        (∀ st, packetOf p b = .error st → st ≠ 0 → ∃ u, exec .coachhouseEvent s = .next u ∧ Completed s u p st k.signals)) ∧
  (∀ s g x slot sp, Map.find s.groups g = some x → x.parkedSlot = some slot → x.split slot = some sp → x.asked = true → x.service = none → x.resident = true → x.board = [] →
    let r := x.region
    let goesOn := fun (i : Instr) (pc hdr : BitVec 64) (mask : Mask) (reg : Region) (s63 : Val) => ∃ u y z, exec i s = .next u ∧ Map.find u.groups g = some y ∧
      y.region = reg ∧ y.asked = false ∧ y.rdS 63 = s63 ∧ (∀ n, n ≠ 63 → y.rdS n = x.rdS n) ∧ y.v = x.v ∧ y.p = x.p ∧ y.q = x.q ∧ MemoryKept s u ∧
      y.split slot = some z ∧ z.pc = pc ∧ z.hdr = hdr ∧ z.mask = mask ∧ z.wait = none ∧ z.clause = none
    let recovers := fun (i : Instr) => goesOn i r.recov r.recov sp.mask Region.closed ⟨r.first, false⟩
    (r.clean = [] → recovers (.replayServiceAnswer g false)) ∧
      (r.clean = [] → ∀ d, sp.deadline = some d → d ≤ s.time → recovers (.faultLimitExpiry g)) ∧
      (∀ d, sp.deadline = some d → s.time < d → exec (.faultLimitExpiry g) s = .next s) ∧
      ((∀ e ∈ flaggedEntries s x, e.detail ≠ .l2Clean ∧ hopeless s x e = false) → goesOn (.replayServiceAnswer g true) r.start.1 r.start.2 (r.pm &&& x.live)
        { r with replays := r.replays + 1, flag := false, pm := 0, nqtok := none, first := 0, toks := [], allrpl := true } (x.rdS 63)))

/-- R14, R201, R202, R254, R394, R396 to R398: links sleep and wake, a die is fenced or declared dead and tested, the package stops, starts cold and warm, and is
written a slot in recovery. -/
def Obligations.DiesAndStarts : Prop :=
  ∀ s, (∀ d, let x := s.dieAt d
      (x.fenced = false → x.asleep = false → x.lastReq + 420000 ≤ s.time →
        exec (.linkSleep d) s = .next { s with dies := Map.put s.dies d { x with asleep := true, waking := none, flush := false } }) ∧
      (x.fenced = true ∨ x.asleep = true ∨ s.time < x.lastReq + 420000 → exec (.linkSleep d) s = .next s) ∧
      (x.fenced = false → x.asleep = true → x.waking.isSome = true → ∃ u, exec (.wakeBeacon d) s = .next u ∧
        u.dieAt d = { x with held := [], asleep := false, waking := none, flush := false, lastReq := s.time } ∧ u.mem = s.mem) ∧
      (∀ t, x.waking = some t → x.asleep = true → x.flush = false → t + 31500 ≤ s.time → ∃ u, exec (.wakeHoldTimeout d) s = .next u ∧
        u.dieAt d = { x with held := [], flush := true } ∧ u.health = s.health ++ [(2, d)] ∧ u.mem = s.mem) ∧
      (∀ t, x.waking = some t → s.time < t + 31500 → exec (.wakeHoldTimeout d) s = .next s) ∧
      (let fences := fun (i : Instr) => ∃ u, exec i s = .next u ∧ (u.dieAt d).fenced = true ∧ (∀ c, dieOf c = d → (u.coreOf c).mxq = [] ∧ (u.coreOf c).order = [] ∧ (u.coreOf c).lease = none) ∧
          ∀ g y, Map.find s.groups g = some y → dieOf y.core = d → y.resident = true → y.ended = false → ∃ z, Map.find u.groups g = some z ∧ z.ended = true ∧ z.s0 = none ∧ z.s1 = none
       let there := d < 8 ∧ (s.dz860 = true → d ≠ 7) ∧ x.fenced = false
       (s.phase = 0 → there → fences (.dieFenceCommand d)) ∧
         (there → x.asleep = false ∨ (∃ t, x.waking = some t ∧ t + 84000 ≤ s.time) → fences (.dieDeclaredDead d)) ∧
         (s.phase ≠ 0 ∨ ¬there → exec (.dieFenceCommand d) s = .next s)) ∧
      (x.fenced = true → x.failed = false → ∀ pass, ∃ u, exec (.dieTestComplete d pass) s = .next u ∧ u.mem = s.mem ∧
        ((∀ e ∈ s.teams, dieOf e.2.core = d → e.2.lost = false) → u.groups = s.groups) ∧
        (∀ g y t, Map.find s.groups g = some y → Map.find s.teams y.team = some t → t.lost = true → dieOf t.core = d →
          Map.find u.groups g = some { y with paths := [], egress := [] }) ∧
        u.dieAt d = (if pass then { Die.idle with headroom := x.headroom, headAt := x.headAt, lastReq := s.time } else { x with failed := true }) ∧
        ∀ c, dieOf c = d → Map.has s.cores c = true → u.coreOf c = { Core.zero with clk0 := s.time })) ∧
    (∀ what region, s.phase = 0 → ∃ u, exec (.packageStop what region) s = .next u ∧ u.phase = 1 ∧ u.ctxs = [] ∧ u.teams = [] ∧ u.groups = [] ∧ u.cur = none ∧
      (what, region) ∈ u.failure ∧ ⟨0, 5, [BitVec.ofNat 64 what, BitVec.ofNat 64 region]⟩ ∈ u.outbox ∧ ⟨1, 5, [BitVec.ofNat 64 what, BitVec.ofNat 64 region]⟩ ∈ u.outbox) ∧
    (let passes := fun (i : FwImage) => i.readable = true ∧ Config.signatureOk s.identity.keyDigest i.bytes = true ∧ s.fw.minSvn ≤ Config.imageSvn i.bytes
     let measure := fun (i : FwImage) => Config.shake256 i.bytes
     let slot := fun (n : Nat) => if n = 0 then s.fw.a else s.fw.b
     let own := slot s.fw.active
     let starts := fun (i : Instr) (n : Nat) (kept : Bool) => ∃ u, exec i s = .next u ∧ u.phase = 0 ∧ u.fw.active = n ∧ u.fw.measured = measure (slot n) ∧ u.ctxs = [] ∧ u.parts = [] ∧
       u.groups = [] ∧ u.teams = [] ∧ (∀ c < 544, u.coreOf c = { Core.zero with clk0 := u.time }) ∧
       (if kept then u.time = s.time ∧ (s.ctxs = [] → s.hostL2 = [] → NoErrors s → u.mem = s.mem ∧ u.poisoned = s.poisoned ∧ u.hostMem = s.hostMem) else u.time = 0 ∧ u.mem = [] ∧ u.poisoned = [])
     let recovery := fun (i : Instr) => ∃ u, exec i s = .next u ∧ u.phase = 2 ∧ u.groups = [] ∧ ∃ a b, u.failure = [(0, a), (1, b)] ∧ 1 ≤ a ∧ 1 ≤ b
     s.fw.active < 2 →
     (passes own → starts .coldStart s.fw.active false) ∧ (¬passes own → passes (slot (1 - s.fw.active)) → starts .coldStart (1 - s.fw.active) false) ∧
       (¬passes own → ¬passes (slot (1 - s.fw.active)) → recovery .coldStart) ∧
       (s.phase = 0 → own.readable = true → measure own = s.fw.measured → starts .warmStart s.fw.active true) ∧
       (s.phase = 0 → measure own ≠ s.fw.measured → passes own → starts .warmStart s.fw.active true) ∧
       (∀ n port, s.phase = 2 → n < 2 → port < 2 → Map.get false s.pcieDown port = false →
         let img : FwImage := ⟨true, s.upload⟩
         (passes img → exec (.recoverySlotWrite n port) s =
           .next { s with fw := if n = 0 then { s.fw with a := img } else { s.fw with b := img }, outbox := s.outbox ++ [⟨port, 4, [0]⟩] }) ∧
         (¬passes img → ∃ st, st ≠ 0 ∧ exec (.recoverySlotWrite n port) s = .next { s with outbox := s.outbox ++ [⟨port, 4, [st]⟩] })))

/-- R44, R45, R58 to R64, R295, R297, R400 to R403: a dispatch pass places a waiting team on the best core, a sample and a timer take effect, a bin admits, a node
ends, a team and a grid retire, the last with its completion and its record. -/
def Obligations.DispatchAndRetirement : Prop :=
  ∀ s, (∀ pid n r v core pipe, passOrder s pid = [n] → promotedWaits s pid = false → Map.find s.grids n = some r → (s.devOf r.ctx r.dev).state = 0 → r.nodes = [] →
      r.next < r.teams → r.desc.clu = 0 → r.desc.gbar = false → r.teams = r.next + 1 →
      bestCore s n r.ctx r.desc (openCores s n r r.desc) = some (v, core, pipe) → ∃ u t, exec (.dispatchPass pid) s = .next u ∧
        Map.find u.teams s.ids = some t ∧ t.grid = n ∧ t.ctx = r.ctx ∧ t.vteam = r.next ∧ t.vcore = v ∧ t.core = core ∧ t.desc = r.desc ∧ t.groups.length = r.desc.teamg ∧
        ∃ r', Map.find u.grids n = some r' ∧ r'.next = r.next + 1) ∧
    (∀ n die share r, Map.find s.grids n = some r → ∃ u, exec (.remoteTrafficSample [(n, die, share)]) s = .next u ∧
      Map.find u.grids n = some { r with shares := Map.set 0 r.shares die share } ∧ u.groups = s.groups ∧ ∀ p ∈ s.busyParts, ⟨s.time, .event (.dispatchPass p)⟩ ∈ u.agenda) ∧
    (let w := (s.traffic :: s.samples).take 8
     ∃ u, exec (.remoteTrafficSample []) s = .next u ∧ u.traffic = [] ∧ u.samples = w ∧ u.grids = s.grids.map (fun e => (e.1, e.2.sampled w e.1)) ∧
      u.groups = s.groups ∧ ∀ p ∈ s.busyParts, ⟨s.time, .event (.dispatchPass p)⟩ ∈ u.agenda) ∧
    (∀ g n d t, s.node g n = some d → d.timerAt = some t →
      (t ≤ s.time → ∃ u, exec (.binTimerLapse g n) s = .next u ∧ u.node g n = some { d with timerAt := none, lapsed := true } ∧ u.groups = s.groups) ∧
        (s.time < t → exec (.binTimerLapse g n) s = .next s)) ∧
    (∀ g n d r k q y p ntab raddr last v, s.node g n = some d → Map.find s.grids g = some r → Map.find s.ctxs r.ctx = some k → k.queues = [(q, y)] →
      y.started = [⟨p, .feed ntab raddr 1 n last 0⟩] → p.ctx = r.ctx → liveTable s r.ctx ntab.toNat = some g → d.kind = 1 → d.ended = false → d.waiting = [] →
      d.bin.length < d.cap → (∀ e ∈ s.groups, gridNo s e.2 ≠ g) →
      agentRead { s with draws := s.draws + 1 } r.ctx raddr.toNat 16 (freeKey (s.draws + 1) 28 0) = .val v →
      ∃ u, exec (.binAdmit g n) s = .next u ∧ u.node g n = some { d with bin := d.bin ++ [BitVec.ofNat 128 v], produced := d.produced + if last then 1 else 0 }) ∧
    (∀ g n d, s.node g n = some d → d.ended = false →
      (nodeOver s g n d = true → ∃ u, exec (.nodeEndToken g n) s = .next u ∧ u.node g n = some { d with ended := true, waiting := [] } ∧ u.mem = s.mem) ∧
        (nodeOver s g n d = false → exec (.nodeEndToken g n) s = .next s)) ∧
    (∀ t x r, Map.find s.teams t = some x → Map.find s.grids x.grid = some r →
      let isOver := x.resident = true ∧ x.lost = false ∧ ∀ g ∈ x.groups, (s.grp g).ended = true ∧ (s.grp g).egress = [] ∧ ∀ p ∈ (s.grp g).paths, ∀ o ∈ p.2.ops, o.done = true
      (isOver → ∃ u, exec (.teamRetire t) s = .next u ∧ Map.find u.teams t = none ∧ (∀ e, e ∈ u.groups ↔ e ∈ s.groups ∧ e.2.team ≠ t) ∧
        Map.find u.grids x.grid = some { r with
          retired := r.retired + 1
          gone := r.gone ++ (if x.node.isSome then [] else x.groups.map (fun g => (16 * x.vteam + (s.grp g).idx, (s.grp g).ap))) } ∧ ⟨s.time, .event (.dispatchPass (s.partOfCtx x.ctx))⟩ ∈ u.agenda ∧ u.mem = s.mem) ∧
        (¬isOver → exec (.teamRetire t) s = .next s)) ∧
    (∀ n r k, Map.find s.grids n = some r → Map.find s.ctxs r.pkt.ctx = some k →
      let isOver := r.teams ≤ r.next ∧ (∀ e ∈ s.teams, e.2.grid ≠ n) ∧ ∀ d ∈ r.nodes, d.ended = true
      (isOver → ∃ u, exec (.gridRetire n) s = .next u ∧ Map.find u.grids n = none ∧ Completed s u r.pkt 0 (doneSignals r.pkt k.signals) ∧
        (Map.get [] u.records (64 * k.fn + r.pkt.q)).head? = some ⟨BitVec.ofNat 32 r.pkt.idx, BitVec.ofNat 256 (retireBits r (xstatOf r.cond))⟩) ∧
        (¬isOver → exec (.gridRetire n) s = .next s))

/-- R245, R283, R386 to R392: a drain ends or reaches its limit, a device's teams are saved and restored, their images go to the save area; a watchdog fires, and
the grace of an abandoned context ends it. -/
def Obligations.PreemptionAndWatchdogs : Prop :=
  ∀ s c dev k, Map.find s.ctxs c = some k →
    let d := s.devOf c dev
    (d.state = 1 → devTeams s c dev = [] → ∃ u, exec (.drainComplete c dev) s = .next u ∧ u.devOf c dev = ⟨3, none, [], []⟩ ∧
      ∀ p, preemptPkt s c dev = some p → p.ctx = c → Completed s u p 0 (doneSignals p k.signals)) ∧
    (devTeams s c dev ≠ [] ∨ d.state ≠ 1 → exec (.drainComplete c dev) s = .next s) ∧
    (∀ t, d.state = 1 → d.drainDue = some t → t ≤ s.time → ∃ u, exec (.drainLimit c dev) s = .next u ∧
      u.devOf c dev = ⟨if devTeams s c dev = [] then 3 else 2, none, [], []⟩ ∧ u.teams = s.teams ∧ (devTeams s c dev ≠ [] → u.groups = s.groups)) ∧
    (∀ core, d.state = 2 → let u := extraStep (.saveCore c dev core) s
      (shadowRoom s c dev core = false → u = s) ∧
        (shadowRoom s c dev core = true → ∀ id x, (id, x) ∈ devTeams s c dev → x.core = core → Map.find s.teams id = some x →
          (∃ y, Map.find u.teams id = some y ∧ y.resident = false) ∧
            ∀ g z, g ∈ x.groups → Map.find s.groups g = some z → ∃ y, Map.find u.groups g = some y ∧ y.resident = false)) ∧
    (∀ t, d.drainDue = some t → s.time < t → exec (.drainLimit c dev) s = .next s) ∧
    (let key := freeKey (s.draws + 1) 36 1
     (d.toCopy = false → ∀ fits, exec (.saveAreaWriteout c dev fits) s = .next s) ∧
      (d.toCopy = true → ∀ u ok, agentWrite { s with draws := s.draws + 1 } c k.saveBase k.saveLen (Config.freeNat key) key = (u, ok) →
        (ok = true → exec (.saveAreaWriteout c dev true) s = .next (let v := updDev u c dev (fun d => { d with inArea := d.teams }); if d.state = 2 then v else preemptDone v c dev)) ∧
          ∀ fits, ok = false ∨ fits = false → exec (.saveAreaWriteout c dev fits) s = .next (endContext u c))) ∧
    (∀ id x g y pipe, d.state = 4 → d.teams = [id] → Map.find s.teams id = some x → x.groups = [g] → Map.find s.groups g = some y → y.ended = false → y.service = none →
      teamSettled s x = true → admits s x.grid x.ctx x.desc x.core = some pipe → k.alog = [] → s.views = [] → ∃ u x' y', exec (.restorePlacement c dev) s = .next u ∧
        u.devOf c dev = DevRun.zero ∧ Map.find u.teams id = some x' ∧ x'.resident = true ∧ Map.find u.groups g = some y' ∧ y'.resident = true ∧ y'.pipe = (pipe + y.idx) % 4 ∧
        y'.v = y.v ∧ y'.s = y.s ∧ y'.p = y.p ∧ y'.q = y.q ∧ y'.tas = y.tas ∧ g ∈ (u.coreOf x.core).order) ∧
    (∀ t, k.graceDue = some t → (s.time < t → exec (.abandonGraceExpiry c) s = .next s) ∧
      (t ≤ s.time → k.isOver = false → ∃ u, exec (.abandonGraceExpiry c) s = .next u ∧ (∀ k', Map.find u.ctxs c = some k' → k'.isOver = true) ∧ (∀ e ∈ u.grids, e.2.ctx ≠ c) ∧
        ∀ e ∈ u.windows, e.2.ctx ≠ c)) ∧
    (∀ g slot x sp, Map.find s.groups g = some x → x.ctx = c → x.split slot = some sp → x.resident = true → x.ended = false → slot < 2 →
      sp.again = false → sp.deadline = none → sp.expired = false →
      (∀ l n ph, sp.wait = some (.barrier l n ph) →
        (sp.since + 10 * 2 ^ k.bwlog ≤ s.time → ∃ w, exec (.barrierWatchdog g slot) s = .next (endContext w c) ∧ w.outbox = s.outbox ++ [⟨k.fn, 1, [BitVec.ofNat 64 k.diagBase]⟩]) ∧
        (s.time < sp.since + 10 * 2 ^ k.bwlog → exec (.barrierWatchdog g slot) s = .next s)) ∧
      ((∃ a b, sp.wait = some (.path a b)) ∨ (∃ a b v, sp.wait = some (.signal a b v)) ∨ sp.wait = some .signalMet → k.abandon = false → k.isOver = false →
        (sp.since + 10 * 2 ^ k.cwlog ≤ s.time → ∃ u, exec (.contextWatchdog g slot) s = .next u ∧
          u.ctxs = Map.put s.ctxs c { k with abandon := true, graceDue := some (s.time + k.graceUs * 21000) } ∧
          u.outbox = s.outbox ++ [⟨k.fn, 2, [BitVec.ofNat 64 x.slot, sp.pc]⟩] ∧ u.groups = s.groups) ∧
        (s.time < sp.since + 10 * 2 ^ k.cwlog → exec (.contextWatchdog g slot) s = .next s)))

/-- R14, R356, R358, R359, R361, R365, R366, R368, R369: a request from the fabric is taken in the sequence of its source (log entry 34) and performed behind its
window or refused; a reduction instance delivers its result, unless it is lost on its way or a member is dead; an operation completes with its acknowledgement;
a packet is resent four times, each time on another plane; a silent port goes down and the instances on its plane fail; a death notice kills a peer. -/
def Obligations.FabricEvents : Prop :=
  (∀ s (r : InReq) (w : Window) d,
    let o := r.off % 2 ^ 29
    let opens := Map.find s.windows (r.off / 2 ^ 29 % 2 ^ 12) = some w ∧ w.v = true ∧ w.ftid = r.ftid.toNat ∧ o < w.len * 4096 ∧ devKey s.stackCount (w.base + o) = some (32 * d)
    let x := s.rootSector d
    let old := x.data % 2 ^ 64
    let posted := fun (l : List Nat) => s.outbox ++ [(⟨0, 6, l.map (BitVec.ofNat 64)⟩ : Msg)]
    let writes := fun (u : State) (v : Nat) => u.rootSector d = x.write (plainBytes (bytesAt 0 8 v 0)) none ∧ ∀ m, m ≠ d → u.rootSector m = s.rootSector m
    let inTurn := r.num = Map.get 0 s.fabNext r.src ∧ ∀ e ∈ s.fabEarly, e.src ≠ r.src
    let took := { s with fabNext := Map.put s.fabNext r.src (r.num + 1) }
    (s.phase ≠ 0 → ∀ i ∈ [Instr.remoteInboundRequest r, .multicastCopyArrival r], exec i s = .next s) ∧
    (s.phase = 0 → (r.num < Map.get 0 s.fabNext r.src → exec (.remoteInboundRequest r) s = .next s) ∧
      (Map.get 0 s.fabNext r.src < r.num → exec (.remoteInboundRequest r) s = .next { s with fabEarly := s.fabEarly ++ [r] })) ∧
    (r.size = 8 → opens → s.phase = 0 → NoErrors s →
      (inTurn → r.kind = 0 → x.token = none → exec (.remoteInboundRequest r) s = .next { took with outbox := posted [0, old, 0] }) ∧
        (inTurn → r.kind = 0 → ∀ t, x.token = some t → exec (.remoteInboundRequest r) s = .next { took with outbox := posted [1, t.toNat] }) ∧
        (r.kind = 1 → w.w = true → r.token = none → ∀ i ∈ [Instr.remoteInboundRequest r, .multicastCopyArrival r], (i = .remoteInboundRequest r → inTurn) →
          ∃ u, exec i s = .next u ∧ writes u r.data ∧ u.outbox = posted [0]) ∧
        (inTurn → r.kind = 2 → w.at_ = true → r.token = none → x.token = none → ∀ v, atomicOp r.aop 8 old r.data r.data2 = some v →
          ∃ u, exec (.remoteInboundRequest r) s = .next u ∧ writes u v ∧ u.outbox = posted [0, old, 0])) ∧
    (Map.find s.windows (r.off / 2 ^ 29 % 2 ^ 12) = none ∨ (Map.find s.windows (r.off / 2 ^ 29 % 2 ^ 12) = some w ∧ (w.v = false ∨ w.ftid ≠ r.ftid.toNat ∨ w.len * 4096 ≤ o)) → s.phase = 0 →
      exec (.multicastCopyArrival r) s = .next { s with outbox := posted [4] } ∧ (inTurn → exec (.remoteInboundRequest r) s = .next { took with outbox := posted [4] }) ∧
        (r.num = Map.get 0 s.fabNext r.src → s.fabEarly = [{ r with num := r.num + 1 }] → exec (.remoteInboundRequest r) s =
          .next { took with fabNext := Map.put took.fabNext r.src (r.num + 2), fabEarly := [], outbox := posted [4] ++ [⟨0, 6, [4]⟩] }))) ∧
  (∀ s (r : RedInst) d v (x : Group), NoErrors s → s.reds = [r] → s.members r.gid = [(0, s.peerNo)] → r.elems = [(0, v, none)] → r.size = 4 → r.aop < 8 → v < 2 ^ 32 →
    Map.find s.groups r.op.1 = some x → inbound s (s.ftid x.ctx) r.off .atomic = some (32 * d) →
    let ends := exec (.reductionInstanceComplete r.gid r.off r.n []) s
    (Map.get 0 s.peers s.peerNo = 2 → comesBack s r.gid r.off = true → ∃ u, ends = .next u ∧ u.reds = [] ∧
      u.rootSector d = (s.rootSector d).write (plainBytes (bytesAt 0 4 v 0)) none ∧ ∀ m, m ≠ d → u.rootSector m = s.rootSector m) ∧
    (Map.get 0 s.peers s.peerNo ∈ [0, 1, 3] ∨ comesBack s r.gid r.off = false → ∃ u, ends = .next u ∧ u.reds = [] ∧ MemoryKept s u)) ∧
  (∀ s (r : RedInst) p rank, s.reds = [r] → (rank, p) ∈ s.members r.gid → p ≠ s.peerNo → Map.get 0 s.peers p = 3 →
    ∃ u, exec (.reductionInstanceComplete r.gid r.off r.n []) s = .next u ∧ u.reds = [] ∧ MemoryKept s u) ∧
  (∀ s g x o rest red gid size aop secs, Map.find s.groups g = some x → x.path pathFab = ⟨o :: rest, false⟩ → o.kind = .mcast red gid size aop none secs → o.done = false → s.reds = [] →
    s.members gid = [(0, s.peerNo)] → Map.get 0 s.peers s.peerNo = 2 → (∀ q ∈ secs, q.sent = true ∧ ∀ a ∈ q.acks, a.2.1 = 0) → (∀ a ∈ rest, a.done = false ∧ a.seq ≠ o.seq) →
    ∃ u y, exec (.multicastAckReturn g 0 []) s = .next u ∧ Map.find u.groups g = some y ∧ y = { x with paths := y.paths } ∧ (y.path pathFab).ops = rest ∧ MemoryKept s u) ∧
  (∀ s g k x q p off, Map.find s.groups g = some x → x.egress[k]? = some q → q.place = .peer p off → x.ended = false →
    let fails := ∃ u y, exec (.fabricResend g k) s = .next u ∧ Map.find u.groups g = some y ∧
      (y.egress.map fun p => { p with toks := [] }) = ((x.egress.filter (fun r => !q.packet r)).map fun p => { p with toks := [] }) ∧ y.orphan.isSome = true ∧ MemoryKept s u
    (Map.get 0 s.peers p ≠ 3 → q.tries < 4 → ∃ next, exec (.fabricResend g k) s = .next { s with
        draws := s.draws + 1
        groups := Map.put s.groups g { x with egress := x.egress.map (fun r => if q.packet r then { r with tries := r.tries + 1, plane := next } else r) } } ∧
      (∀ n, next = some n → n ∈ s.livePlanes s.peerNo ∧ q.plane ≠ some n) ∧ ((∃ n ∈ s.livePlanes s.peerNo, q.plane ≠ some n) → next.isSome = true)) ∧
    (Map.get 0 s.peers p = 3 → fails) ∧ (4 ≤ q.tries → fails)) ∧
  (∀ s peer plane, s.phase = 0 → (∀ r ∈ s.reds, r.plane ≠ plane) → plane < 16 →
    let down := Map.put s.portDown (16 * peer + plane) true
    ((∃ p < 16, p ≠ plane ∧ Map.get false s.portDown (16 * peer + p) = false) → exec (.fabricPortSilence peer plane) s = .next { s with portDown := down }) ∧
      ((∀ p < 16, p ≠ plane → Map.get false s.portDown (16 * peer + p) = true) → exec (.fabricPortSilence peer plane) s = .next (dueNow { s with portDown := down } (.deathNotice peer)))) ∧
  (∀ s (r : RedInst) peer, s.phase = 0 → s.reds = [r] → r.plane < 16 → ∃ u, exec (.fabricPortSilence peer r.plane) s = .next u ∧ u.reds = [] ∧
    u.portDown = Map.put s.portDown (16 * peer + r.plane) true ∧ MemoryKept s u) ∧
  (∀ s peer, peer < 4096 → (s.phase = 0 → exec (.deathNotice peer) s = .next { s with peers := Map.put s.peers peer 3 }) ∧
    (s.phase ≠ 0 → exec (.deathNotice peer) s = .next s))

/-! ### Decoding, and the machine as a whole -/

/-- R69, R74, R76, R84 to R86: words written out from the spec's encodings decode to the instructions they stand for. -/
def Obligations.DecodesSpecWords : Prop :=
  decodeWord .alu 0xC0E10082 none = some (.vadd ⟨3, 7, 4, 1, 2⟩ none) ∧
    decodeWord .alu 0x30E50418 none = some (.sadd ⟨0, 7, 10, 2, 3, 0⟩) ∧
    decodeWord .matrix 0x00E00804 (some 0x04004000) = some (.mma ⟨0, 7, 0, 16, 4⟩ ⟨1, 0, 0, 0, 0, 0, 1, 0⟩) ∧
    decodeWord .memory 0x03E00004 (some 0x90030000) = some (.st ⟨0, 7, 0, 0, 4⟩ ⟨4, 1, 0, 0, 1, 2, 0, 0, 0⟩) ∧
    decodeWord .async 0x03EB2A50 none = some (.wait ⟨0, 7, 22, 21, 10, 0⟩) ∧
    decodeWord .sync 0x00EA007A none = some (.barSync ⟨0, 7, 20, 0, 15, 2⟩) ∧
    decodeWord .control 0x01200003 (some 0x00000005) = some (.bra ⟨0, 1, 3⟩ ⟨0, 5⟩) ∧
    decodeWord .system 0x00E0002A none = some (.trap ⟨0, 7, 0, 42⟩)

/-- R69, R74, R76, R84 to R88: decoding a word that encodes a well-formed instruction gives that instruction, with all its operands; every decoded instruction is
well formed and has an encoding; a header without waits reads back. -/
def Obligations.EncodeDecode : Prop :=
  (∀ i, i.wf = true → ∀ c, encode i = some c → decodeWord c.cls c.word c.x = some i) ∧
    (∀ c w x i, decodeWord c w x = some i → i.wf = true ∧ (encode i).isSome = true) ∧
    ∀ n c xm, Header.of (headerWord n c xm) = ⟨n.toNat, some c, false, 0, false, false, xm⟩

/-- R69, R87, R88: each instruction word of a clause that passes the checks decodes; a clause that does not is refused with the first of reasons 3 to 11. -/
def Obligations.CheckedClausesDecode : Prop :=
  (∀ h words cls, h.cls = some cls → checkClause h words = none → ∀ e ∈ wordsOf words h.xmask, ∃ i, decodeWord cls e.2.1 e.2.2 = some i ∧ i.wf = true) ∧
    (∀ (h : Header) words, h.count = 0 → checkClause h words = some .countZero) ∧
    (∀ (h : Header) words, h.count ≠ 0 → h.cls = none → checkClause h words = some .classRsv) ∧
    ∀ (h : Header) words cls, h.count ≠ 0 → h.cls = some cls → h.xmask = 0 → ∀ e ∈ wordsOf words 0, opInfo cls (field e.2.1 24 6).toNat = none →
      checkClause h words = some .opRsv

/-- R14, R69, R71, R78, R82, R87, R97: a split that is due to issue fetches its clause if it has none, and runs the instruction that its next word decodes to, its path already past the word,
and what the word leaves is concluded. An input that is due runs as it is, an operation's work behind the stores that precede it. R201: what a sleeping die, or a join
window (R165), holds up has not happened: it is tried again at the next clock (the model's reading: log entries 40 and 55). -/
def Obligations.StepRunsIssuedWord : Prop :=
  ∀ s d rest, s.agenda = d :: rest → d.at_ ≤ s.time →
    let s0 := { s with agenda := rest }
    let again := fun (u : State) => let v := holdBack d.act s0 u.blocked; Host.Outcome.next { v with agenda := insertDue v.agenda { d with at_ := s.time + 10 } }
    (∀ i, d.act = .event i →
      let o := exec i (beforeEvent i (promote s0))
      ((∀ u, o = .next u → u.blocked = []) → step s = o) ∧ ∀ u, o = .next u → u.blocked ≠ [] → step s = again u) ∧
    (∀ e, d.act = .extra e → step s = if (extraStep e s0).blocked = [] then .next (extraStep e s0) else again (extraStep e s0)) ∧
    ∀ g slot, d.act = .issue g slot →
      let s0 := fetchClause (promote s0) g slot
      ∀ sp c n i, (s0.grp g).split slot = some sp → sp.clause = some c → selected s0 g slot = true → nextWord sp c = some n → decodeWord n.cls n.word n.x = some i →
        let ready := clearWay (seeHeader s0 g sp c) g n
        stallFound (prepare ready g slot sp c n) sp n = none →
          let before := meetErrors ready g slot sp c n
          let s1 := prepare before g slot sp c n
          (∃ k, s1.cur = some k ∧ k.gid = g ∧ k.slot = slot ∧ k.pc = n.pc ∧ k.hdr = sp.hdr ∧ k.next = n.next ∧ k.nextHdr = n.nextHdr ∧ k.word = n.word) ∧
            ∃ t, exec i s1 = .next t ∧
              let done := conclude before t g slot sp c n
              step s = if done.blocked = [] then .next done else again done

/-- No instruction is refused; every form has a next state while a word issues, and every happening at any time; a step whose due inputs are no program forms always
has a next state. -/
def Obligations.StepsGoOn : Prop :=
  (∀ i s r, exec i s ≠ .refused r) ∧ (∀ i s, s.cur.isSome = true ∨ encode i = none → ∃ t, exec i s = .next t) ∧ (∀ i s f, exec i s = .fault f → f = .noIssuer ∧ s.cur = none ∧ (encode i).isSome = true) ∧
    ∀ s, (∀ d ∈ s.agenda, ∀ i, d.act = .event i → encode i = none) → ∃ t, step s = .next t

/-- R14, R396: after a cold start no partition, context, queue or signal exists, GTIME stands at 0, device memory reads zero and holds no poison, and the package runs. Both memories are
in their canonical form. -/
def Obligations.ResetState : Prop :=
  State.reset.parts = [] ∧ State.reset.ctxs = [] ∧ State.reset.grids = [] ∧ State.reset.teams = [] ∧ State.reset.groups = [] ∧ State.reset.gtime = 0 ∧
    State.reset.phase = 0 ∧ (∀ v k, State.reset.devSector v k = ⟨0, none⟩) ∧ State.reset.health = [(5, 0)] ∧ CanonicalMemory State.reset

/-- Every step keeps both memories in their canonical form: addresses strictly rising, and no cell that holds what an unlisted one reads as. -/
def Obligations.StepKeepsCanonicalMemory : Prop :=
  ∀ s t, CanonicalMemory s → step s = .next t → CanonicalMemory t
end

