-- ==== Sys2Proof/Laws/Encoding.lean ====
section
/-! SUPPORT. Reading back the words that the encoder writes: every field of every format and literal. -/
namespace Sys2Proof

/-- The fields of a WA word read back. -/
@[simp] theorem WA.of_word (op : BitVec 6) (f : WA) : WA.of (WA.word op f) = f := by
  obtain ⟨stall, pred, d, a, b⟩ := f
  simp only [WA.of, WA.word, field, WA.mk.injEq]
  refine ⟨?_, ?_, ?_, ?_, ?_⟩ <;>
  · apply BitVec.eq_of_getLsbD_eq
    intro i hi
    simp only [BitVec.getLsbD_extractLsb', BitVec.getLsbD_append, hi, decide_true, Bool.true_and]
    grind

@[simp] theorem WA.op_word (op : BitVec 6) (f : WA) : field (WA.word op f) 24 6 = op := by
  simp only [WA.word, field]
  apply BitVec.eq_of_getLsbD_eq
  intro i hi
  simp only [BitVec.getLsbD_extractLsb', BitVec.getLsbD_append, hi, decide_true, Bool.true_and]
  grind

/-- The fields of a WB word read back. -/
@[simp] theorem WB.of_word (op : BitVec 6) (f : WB) : WB.of (WB.word op f) = f := by
  obtain ⟨stall, pred, d, a, func⟩ := f
  simp only [WB.of, WB.word, field, WB.mk.injEq]
  refine ⟨?_, ?_, ?_, ?_, ?_⟩ <;>
  · apply BitVec.eq_of_getLsbD_eq
    intro i hi
    simp only [BitVec.getLsbD_extractLsb', BitVec.getLsbD_append, hi, decide_true, Bool.true_and]
    grind

@[simp] theorem WB.op_word (op : BitVec 6) (f : WB) : field (WB.word op f) 24 6 = op := by
  simp only [WB.word, field]
  apply BitVec.eq_of_getLsbD_eq
  intro i hi
  simp only [BitVec.getLsbD_extractLsb', BitVec.getLsbD_append, hi, decide_true, Bool.true_and]
  grind

/-- The fields of a WC word read back. -/
@[simp] theorem WC.of_word (op : BitVec 6) (f : WC) : WC.of (WC.word op f) = f := by
  obtain ⟨stall, pred, d, imm⟩ := f
  simp only [WC.of, WC.word, field, WC.mk.injEq]
  refine ⟨?_, ?_, ?_, ?_⟩ <;>
  · apply BitVec.eq_of_getLsbD_eq
    intro i hi
    simp only [BitVec.getLsbD_extractLsb', BitVec.getLsbD_append, hi, decide_true, Bool.true_and]
    grind

@[simp] theorem WC.op_word (op : BitVec 6) (f : WC) : field (WC.word op f) 24 6 = op := by
  simp only [WC.word, field]
  apply BitVec.eq_of_getLsbD_eq
  intro i hi
  simp only [BitVec.getLsbD_extractLsb', BitVec.getLsbD_append, hi, decide_true, Bool.true_and]
  grind

/-- The fields of a WD word read back. -/
@[simp] theorem WD.of_word (op : BitVec 6) (f : WD) : WD.of (WD.word op f) = f := by
  obtain ⟨stall, pred, off⟩ := f
  simp only [WD.of, WD.word, field, WD.mk.injEq]
  refine ⟨?_, ?_, ?_⟩ <;>
  · apply BitVec.eq_of_getLsbD_eq
    intro i hi
    simp only [BitVec.getLsbD_extractLsb', BitVec.getLsbD_append, hi, decide_true, Bool.true_and]
    grind

@[simp] theorem WD.op_word (op : BitVec 6) (f : WD) : field (WD.word op f) 24 6 = op := by
  simp only [WD.word, field]
  apply BitVec.eq_of_getLsbD_eq
  intro i hi
  simp only [BitVec.getLsbD_extractLsb', BitVec.getLsbD_append, hi, decide_true, Bool.true_and]
  grind

/-- The fields of a WS word read back. -/
@[simp] theorem WS.of_word (op : BitVec 6) (f : WS) : WS.of (WS.word op f) = f := by
  obtain ⟨stall, qual, sd, sa, sb, sub⟩ := f
  simp only [WS.of, WS.word, field, WS.mk.injEq]
  refine ⟨?_, ?_, ?_, ?_, ?_, ?_⟩ <;>
  · apply BitVec.eq_of_getLsbD_eq
    intro i hi
    simp only [BitVec.getLsbD_extractLsb', BitVec.getLsbD_append, hi, decide_true, Bool.true_and]
    grind

@[simp] theorem WS.op_word (op : BitVec 6) (f : WS) : field (WS.word op f) 24 6 = op := by
  simp only [WS.word, field]
  apply BitVec.eq_of_getLsbD_eq
  intro i hi
  simp only [BitVec.getLsbD_extractLsb', BitVec.getLsbD_append, hi, decide_true, Bool.true_and]
  grind

/-- The fields of a XMod word read back. -/
@[simp] theorem XMod.of_word (f : XMod) : XMod.of (f.word) = f := by
  obtain ⟨c, absA, negC, negB, negA, rnd, sat, xlm, xls, limm, sreg⟩ := f
  simp only [XMod.of, XMod.word, field, XMod.mk.injEq]
  refine ⟨?_, ?_, ?_, ?_, ?_, ?_, ?_, ?_, ?_, ?_, ?_⟩ <;>
  · apply BitVec.eq_of_getLsbD_eq
    intro i hi
    simp only [BitVec.getLsbD_extractLsb', BitVec.getLsbD_append, hi, decide_true, Bool.true_and]
    grind

/-- The fields of a ReconvLit word read back. -/
@[simp] theorem ReconvLit.of_word (f : ReconvLit) : ReconvLit.of (f.word) = f := by
  obtain ⟨rk, roff⟩ := f
  simp only [ReconvLit.of, ReconvLit.word, field, ReconvLit.mk.injEq]
  refine ⟨?_, ?_⟩ <;>
  · apply BitVec.eq_of_getLsbD_eq
    intro i hi
    simp only [BitVec.getLsbD_extractLsb', BitVec.getLsbD_append, hi, decide_true, Bool.true_and]
    grind

/-- The fields of a RegionLit word read back. -/
@[simp] theorem RegionLit.of_word (f : RegionLit) : RegionLit.of (f.word) = f := by
  obtain ⟨mode, rsv, limit⟩ := f
  simp only [RegionLit.of, RegionLit.word, field, RegionLit.mk.injEq]
  refine ⟨?_, ?_, ?_⟩ <;>
  · apply BitVec.eq_of_getLsbD_eq
    intro i hi
    simp only [BitVec.getLsbD_extractLsb', BitVec.getLsbD_append, hi, decide_true, Bool.true_and]
    grind

/-- The fields of a MmaLit word read back. -/
@[simp] theorem MmaLit.of_word (f : MmaLit) : MmaLit.of (f.word) = f := by
  obtain ⟨ncode, mcode, mrec, sat, bmode, iacc, zero, rsv⟩ := f
  simp only [MmaLit.of, MmaLit.word, field, MmaLit.mk.injEq]
  refine ⟨?_, ?_, ?_, ?_, ?_, ?_, ?_, ?_⟩ <;>
  · apply BitVec.eq_of_getLsbD_eq
    intro i hi
    simp only [BitVec.getLsbD_extractLsb', BitVec.getLsbD_append, hi, decide_true, Bool.true_and]
    grind

/-- The fields of a SpLit word read back. -/
@[simp] theorem SpLit.of_word (f : SpLit) : SpLit.of (f.word) = f := by
  obtain ⟨rstr, bstr, nblk⟩ := f
  simp only [SpLit.of, SpLit.word, field, SpLit.mk.injEq]
  refine ⟨?_, ?_, ?_⟩ <;>
  · apply BitVec.eq_of_getLsbD_eq
    intro i hi
    simp only [BitVec.getLsbD_extractLsb', BitVec.getLsbD_append, hi, decide_true, Bool.true_and]
    grind

/-- The fields of a MemLit word read back. -/
@[simp] theorem MemLit.of_word (f : MemLit) : MemLit.of (f.word) = f := by
  obtain ⟨sz, ix, space, bk, base, scale, ord, scope, disp⟩ := f
  simp only [MemLit.of, MemLit.word, field, MemLit.mk.injEq]
  refine ⟨?_, ?_, ?_, ?_, ?_, ?_, ?_, ?_, ?_⟩ <;>
  · apply BitVec.eq_of_getLsbD_eq
    intro i hi
    simp only [BitVec.getLsbD_extractLsb', BitVec.getLsbD_append, hi, decide_true, Bool.true_and]
    grind

/-- The fields of a CpyLit word read back. -/
@[simp] theorem CpyLit.of_word (f : CpyLit) : CpyLit.of (f.word) = f := by
  obtain ⟨mmask, rowsm1, gstr⟩ := f
  simp only [CpyLit.of, CpyLit.word, field, CpyLit.mk.injEq]
  refine ⟨?_, ?_, ?_⟩ <;>
  · apply BitVec.eq_of_getLsbD_eq
    intro i hi
    simp only [BitVec.getLsbD_extractLsb', BitVec.getLsbD_append, hi, decide_true, Bool.true_and]
    grind

/-- The fields of a GatLit word read back. -/
@[simp] theorem GatLit.of_word (f : GatLit) : GatLit.of (f.word) = f := by
  obtain ⟨stride, rsv⟩ := f
  simp only [GatLit.of, GatLit.word, field, GatLit.mk.injEq]
  refine ⟨?_, ?_⟩ <;>
  · apply BitVec.eq_of_getLsbD_eq
    intro i hi
    simp only [BitVec.getLsbD_extractLsb', BitVec.getLsbD_append, hi, decide_true, Bool.true_and]
    grind

/-- The fields of a SpawnLit word read back. -/
@[simp] theorem SpawnLit.of_word (f : SpawnLit) : SpawnLit.of (f.word) = f := by
  obtain ⟨rsv, nodereg, last, node⟩ := f
  simp only [SpawnLit.of, SpawnLit.word, field, SpawnLit.mk.injEq]
  refine ⟨?_, ?_, ?_, ?_⟩ <;>
  · apply BitVec.eq_of_getLsbD_eq
    intro i hi
    simp only [BitVec.getLsbD_extractLsb', BitVec.getLsbD_append, hi, decide_true, Bool.true_and]
    grind

/-- The fields of a McLit word read back. -/
@[simp] theorem McLit.of_word (f : McLit) : McLit.of (f.word) = f := by
  obtain ⟨sz, ix, base, scale, aop, rel, acken, ackr, disp⟩ := f
  simp only [McLit.of, McLit.word, field, McLit.mk.injEq]
  refine ⟨?_, ?_, ?_, ?_, ?_, ?_, ?_, ?_, ?_⟩ <;>
  · apply BitVec.eq_of_getLsbD_eq
    intro i hi
    simp only [BitVec.getLsbD_extractLsb', BitVec.getLsbD_append, hi, decide_true, Bool.true_and]
    grind

/-- The fields of a TreeLit word read back. -/
@[simp] theorem TreeLit.of_word (f : TreeLit) : TreeLit.of (f.word) = f := by
  obtain ⟨rsv, mode, ben, boff, desc⟩ := f
  simp only [TreeLit.of, TreeLit.word, field, TreeLit.mk.injEq]
  refine ⟨?_, ?_, ?_, ?_, ?_⟩ <;>
  · apply BitVec.eq_of_getLsbD_eq
    intro i hi
    simp only [BitVec.getLsbD_extractLsb', BitVec.getLsbD_append, hi, decide_true, Bool.true_and]
    grind

/-! ### Selectors -/

@[simp] theorem WB.func_word (op : BitVec 6) (f : WB) : field (WB.word op f) 0 7 = f.func := by
  simp only [WB.word, field]
  apply BitVec.eq_of_getLsbD_eq
  intro i hi
  simp only [BitVec.getLsbD_extractLsb', BitVec.getLsbD_append, hi, decide_true, Bool.true_and]
  grind

@[simp] theorem WS.sub_word (op : BitVec 6) (f : WS) : field (WS.word op f) 0 3 = f.sub := by
  simp only [WS.word, field]
  apply BitVec.eq_of_getLsbD_eq
  intro i hi
  simp only [BitVec.getLsbD_extractLsb', BitVec.getLsbD_append, hi, decide_true, Bool.true_and]
  grind

@[simp] theorem WS.sub2_word (op : BitVec 6) (f : WS) : field (WS.word op f) 0 2 = f.sub.extractLsb' 0 2 := by
  simp only [WS.word, field]
  apply BitVec.eq_of_getLsbD_eq
  intro i hi
  simp only [BitVec.getLsbD_extractLsb', BitVec.getLsbD_append, hi, decide_true, Bool.true_and]
  grind

@[simp] theorem WS.sub1_word (op : BitVec 6) (f : WS) : field (WS.word op f) 0 1 = f.sub.extractLsb' 0 1 := by
  simp only [WS.word, field]
  apply BitVec.eq_of_getLsbD_eq
  intro i hi
  simp only [BitVec.getLsbD_extractLsb', BitVec.getLsbD_append, hi, decide_true, Bool.true_and]
  grind

@[simp] theorem WC.imm2_word (op : BitVec 6) (f : WC) : field (WC.word op f) 0 2 = f.imm.extractLsb' 0 2 := by
  simp only [WC.word, field]
  apply BitVec.eq_of_getLsbD_eq
  intro i hi
  simp only [BitVec.getLsbD_extractLsb', BitVec.getLsbD_append, hi, decide_true, Bool.true_and]
  grind

@[simp] theorem WA.dhi_word (op : BitVec 6) (f : WA) : field (WA.word op f) 17 4 = f.d.extractLsb' 3 4 := by
  simp only [WA.word, field]
  apply BitVec.eq_of_getLsbD_eq
  intro i hi
  simp only [BitVec.getLsbD_extractLsb', BitVec.getLsbD_append, hi, decide_true, Bool.true_and]
  grind

@[simp] theorem WA.bhi_word (op : BitVec 6) (f : WA) : field (WA.word op f) 6 1 = f.b.extractLsb' 6 1 := by
  simp only [WA.word, field]
  apply BitVec.eq_of_getLsbD_eq
  intro i hi
  simp only [BitVec.getLsbD_extractLsb', BitVec.getLsbD_append, hi, decide_true, Bool.true_and]
  grind

@[simp] theorem dhi_shift (d : BitVec 7) : d.toNat >>> 3 % 16 = d.toNat / 8 := by
  have := d.isLt
  rw [Nat.shiftRight_eq_div_pow]
  omega

@[simp] theorem bhi_shift (d : BitVec 7) : d.toNat >>> 6 % 2 = d.toNat / 64 := by
  have := d.isLt
  rw [Nat.shiftRight_eq_div_pow]
  omega

@[simp] theorem dhi_toNat (d : BitVec 7) : (d.extractLsb' 3 4).toNat = d.toNat / 8 := by
  rw [BitVec.extractLsb'_toNat]
  have := d.isLt
  rw [Nat.shiftRight_eq_div_pow]
  omega

@[simp] theorem bhi_toNat (d : BitVec 7) : (d.extractLsb' 6 1).toNat = d.toNat / 64 := by
  rw [BitVec.extractLsb'_toNat]
  have := d.isLt
  rw [Nat.shiftRight_eq_div_pow]
  omega

@[simp] theorem low2_toNat {n : Nat} (d : BitVec n) : (d.extractLsb' 0 2).toNat = d.toNat % 4 := by
  simp [BitVec.extractLsb'_toNat]

@[simp] theorem low1_toNat {n : Nat} (d : BitVec n) : (d.extractLsb' 0 1).toNat = d.toNat % 2 := by
  simp [BitVec.extractLsb'_toNat]

end Sys2Proof
end

