-- ==== Sys2Proof/Laws/Map.lean ====
section
/-! SUPPORT. Laws of sparse tables: what a read finds after a write, and that the canonical form is kept. -/
namespace Sys2Proof.Machine.Map

variable {α : Type}

@[simp] theorem find_nil (k : Nat) : find ([] : List (Nat × α)) k = none := rfl

theorem find_cons (j : Nat) (a : α) (m : List (Nat × α)) (k : Nat) : find ((j, a) :: m) k = if j = k then some a else find m k := by
  simp [find]

/-- A read of the key that was put finds the new entry. -/
@[simp] theorem find_put_self (m : List (Nat × α)) (k : Nat) (a : α) : find (put m k a) k = some a := by
  induction m with
  | nil => simp [put, find]
  | cons e m ih =>
    obtain ⟨j, b⟩ := e
    simp only [put]
    split
    · simp [find]
    · split
      · simp [find]
      · rename_i h; simp only [beq_iff_eq] at h; simp [find, h, ih]

/-- A read of any other key finds what it found before. -/
theorem find_put_ne (m : List (Nat × α)) {k h : Nat} (a : α) (hk : h ≠ k) : find (put m k a) h = find m h := by
  induction m with
  | nil => simp [put, find, Ne.symm hk]
  | cons e m ih =>
    obtain ⟨j, b⟩ := e
    simp only [put]
    split
    · rw [find_cons, if_neg (Ne.symm hk)]
    · split
      · rename_i h1 h2
        simp only [beq_iff_eq] at h2
        subst h2
        simp [find_cons, Ne.symm hk]
      · simp [find_cons, ih]

theorem find_put (m : List (Nat × α)) (k h : Nat) (a : α) : find (put m k a) h = if h = k then some a else find m h := by
  by_cases e : h = k
  · subst e; simp
  · rw [find_put_ne m a e, if_neg e]

@[simp] theorem find_del_self (m : List (Nat × α)) (k : Nat) : find (del m k) k = none := by
  induction m with
  | nil => rfl
  | cons e m ih =>
    obtain ⟨j, b⟩ := e
    simp only [del]
    split
    · exact ih
    · rename_i h; simp only [beq_iff_eq] at h; simp [find_cons, h, ih]

theorem find_del_ne (m : List (Nat × α)) {k h : Nat} (hk : h ≠ k) : find (del m k) h = find m h := by
  induction m with
  | nil => rfl
  | cons e m ih =>
    obtain ⟨j, b⟩ := e
    simp only [del]
    split
    · rename_i h'; simp only [beq_iff_eq] at h'; subst h'; simp [find_cons, Ne.symm hk, ih]
    · simp [find_cons, ih]

/-- What a table with a default holds after a write, in every state and for every key. -/
theorem get_set [BEq α] [LawfulBEq α] (d : α) (m : List (Nat × α)) (k h : Nat) (a : α) :
    get d (set d m k a) h = if h = k then a else get d m h := by
  unfold get set
  by_cases e : h = k
  · subst e
    split
    · rename_i hd; simp only [beq_iff_eq] at hd; simp [hd]
    · simp
  · rw [if_neg e]
    split
    · rw [find_del_ne m e]
    · rw [find_put_ne m a e]

@[simp] theorem get_set_self [BEq α] [LawfulBEq α] (d : α) (m : List (Nat × α)) (k : Nat) (a : α) : get d (set d m k a) k = a := by
  simp [get_set]

theorem get_set_ne [BEq α] [LawfulBEq α] (d : α) (m : List (Nat × α)) {k h : Nat} (a : α) (hk : h ≠ k) :
    get d (set d m k a) h = get d m h := by
  simp [get_set, hk]

/-! ### The canonical form -/

theorem wfFrom_cons [BEq α] (d : α) (lo : Option Nat) (k : Nat) (a : α) (m : List (Nat × α)) :
    wfFrom d lo ((k, a) :: m) = true ↔ (∀ l, lo = some l → l < k) ∧ (a == d) = false ∧ wfFrom d (some k) m = true := by
  cases lo <;> simp [wfFrom, and_assoc]

/-- A lower bound that is itself lower does as well. -/
theorem wfFrom_lower [BEq α] (d : α) {lo lo' : Option Nat} (m : List (Nat × α)) (h : wfFrom d lo m = true)
    (hl : ∀ l', lo' = some l' → ∃ l, lo = some l ∧ l' ≤ l) : wfFrom d lo' m = true := by
  cases m with
  | nil => rfl
  | cons e m =>
    obtain ⟨k, a⟩ := e
    rw [wfFrom_cons] at h ⊢
    refine ⟨fun l' e => ?_, h.2.1, h.2.2⟩
    obtain ⟨l, h1, h2⟩ := hl l' e
    exact Nat.lt_of_le_of_lt h2 (h.1 l h1)

theorem wfFrom_put [BEq α] (d : α) (lo : Option Nat) (m : List (Nat × α)) (k : Nat) (a : α) (h : wfFrom d lo m = true)
    (ha : (a == d) = false) (hk : ∀ l, lo = some l → l < k) : wfFrom d lo (put m k a) = true := by
  induction m generalizing lo with
  | nil => simp only [put]; rw [wfFrom_cons]; exact ⟨hk, ha, rfl⟩
  | cons e m ih =>
    obtain ⟨j, b⟩ := e
    rw [wfFrom_cons] at h
    simp only [put]
    split
    · rename_i hkj
      rw [wfFrom_cons]
      refine ⟨hk, ha, ?_⟩
      rw [wfFrom_cons]
      exact ⟨fun l e => by cases e; exact hkj, h.2.1, h.2.2⟩
    · split
      · rename_i hj
        simp only [beq_iff_eq] at hj
        subst hj
        rw [wfFrom_cons]
        exact ⟨hk, ha, h.2.2⟩
      · rename_i h1 h2
        simp only [beq_iff_eq] at h2
        rw [wfFrom_cons]
        exact ⟨h.1, h.2.1, ih (some j) h.2.2 (fun l e => by cases e; omega)⟩

theorem wfFrom_del [BEq α] (d : α) (lo : Option Nat) (m : List (Nat × α)) (k : Nat) (h : wfFrom d lo m = true) :
    wfFrom d lo (del m k) = true := by
  induction m generalizing lo with
  | nil => rfl
  | cons e m ih =>
    obtain ⟨j, b⟩ := e
    rw [wfFrom_cons] at h
    simp only [del]
    split
    · exact wfFrom_lower d _ (ih (some j) h.2.2) (fun l e => ⟨j, rfl, Nat.le_of_lt (h.1 l e)⟩)
    · rw [wfFrom_cons]
      exact ⟨h.1, h.2.1, ih (some j) h.2.2⟩

/-- A write keeps the canonical form. -/
theorem wf_set [BEq α] (d : α) (m : List (Nat × α)) (k : Nat) (a : α) (h : wf d m = true) : wf d (set d m k a) = true := by
  unfold wf set at *
  split
  · exact wfFrom_del d none m k h
  · rename_i ha
    exact wfFrom_put d none m k a h (by simpa using ha) (fun l e => by cases e)

/-- Keys below the bound find nothing. -/
theorem find_of_lt [BEq α] (d : α) (lo : Option Nat) (m : List (Nat × α)) (k : Nat) (h : wfFrom d lo m = true)
    (hk : ∃ l, lo = some l ∧ k ≤ l) : find m k = none := by
  induction m generalizing lo with
  | nil => rfl
  | cons e m ih =>
    obtain ⟨j, b⟩ := e
    rw [wfFrom_cons] at h
    obtain ⟨l, hl, hkl⟩ := hk
    have hj := h.1 l hl
    rw [find_cons, if_neg (by omega)]
    exact ih (some j) h.2.2 ⟨j, rfl, by omega⟩

/-- Two canonical tables that read alike are the same list. -/
theorem wf_ext [BEq α] [LawfulBEq α] (d : α) (m n : List (Nat × α)) (hm : wf d m = true) (hn : wf d n = true)
    (h : ∀ k, get d m k = get d n k) : m = n := by
  unfold wf at hm hn
  generalize (none : Option Nat) = lo at hm hn
  induction m generalizing n lo with
  | nil =>
    cases n with
    | nil => rfl
    | cons e n =>
      obtain ⟨j, b⟩ := e
      rw [wfFrom_cons] at hn
      have := h j
      simp [get, find_cons] at this
      simp [this] at hn
  | cons e m ih =>
    obtain ⟨j, b⟩ := e
    rw [wfFrom_cons] at hm
    cases n with
    | nil =>
      have := h j
      simp [get, find_cons] at this
      simp [this] at hm
    | cons e' n =>
      obtain ⟨j', b'⟩ := e'
      rw [wfFrom_cons] at hn
      have hjj : j = j' := by
        rcases Nat.lt_trichotomy j j' with hlt | heq | hgt
        · have := h j
          simp [get, find_cons, Nat.ne_of_gt hlt, find_of_lt d (some j') n j hn.2.2 ⟨j', rfl, Nat.le_of_lt hlt⟩] at this
          simp [this] at hm
        · exact heq
        · have := h j'
          simp [get, find_cons, Nat.ne_of_gt hgt, find_of_lt d (some j) m j' hm.2.2 ⟨j, rfl, Nat.le_of_lt hgt⟩] at this
          simp [← this] at hn
      subst hjj
      have hb : b = b' := by simpa [get, find_cons] using h j
      subst hb
      congr 1
      refine ih n (fun k => ?_) (some j) hm.2.2 hn.2.2
      by_cases e : j = k
      · subst e
        simp [get, find_of_lt d (some j) m j hm.2.2 ⟨j, rfl, Nat.le_refl _⟩, find_of_lt d (some j) n j hn.2.2 ⟨j, rfl, Nat.le_refl _⟩]
      · simpa [get, find_cons, e] using h k

end Sys2Proof.Machine.Map
end

