-- ==== Sys2Proof/Laws/State.lean ====
section
/-! SUPPORT. What each update of the state leaves of every field, and what it makes of the part it names. -/
namespace Sys2Proof.Machine

/-! ### `updGrp` -/

@[simp] theorem State.updGrp_time (s : State) (g : Nat) (f : Group → Group) : (s.updGrp g f).time = s.time := by unfold State.updGrp; split <;> rfl
@[simp] theorem State.updGrp_phase (s : State) (g : Nat) (f : Group → Group) : (s.updGrp g f).phase = s.phase := by unfold State.updGrp; split <;> rfl
@[simp] theorem State.updGrp_dz860 (s : State) (g : Nat) (f : Group → Group) : (s.updGrp g f).dz860 = s.dz860 := by unfold State.updGrp; split <;> rfl
@[simp] theorem State.updGrp_identity (s : State) (g : Nat) (f : Group → Group) : (s.updGrp g f).identity = s.identity := by unfold State.updGrp; split <;> rfl
@[simp] theorem State.updGrp_clusterMap (s : State) (g : Nat) (f : Group → Group) : (s.updGrp g f).clusterMap = s.clusterMap := by unfold State.updGrp; split <;> rfl
@[simp] theorem State.updGrp_peerNo (s : State) (g : Nat) (f : Group → Group) : (s.updGrp g f).peerNo = s.peerNo := by unfold State.updGrp; split <;> rfl
@[simp] theorem State.updGrp_fw (s : State) (g : Nat) (f : Group → Group) : (s.updGrp g f).fw = s.fw := by unfold State.updGrp; split <;> rfl
@[simp] theorem State.updGrp_failure (s : State) (g : Nat) (f : Group → Group) : (s.updGrp g f).failure = s.failure := by unfold State.updGrp; split <;> rfl
@[simp] theorem State.updGrp_upload (s : State) (g : Nat) (f : Group → Group) : (s.updGrp g f).upload = s.upload := by unfold State.updGrp; split <;> rfl
@[simp] theorem State.updGrp_health (s : State) (g : Nat) (f : Group → Group) : (s.updGrp g f).health = s.health := by unfold State.updGrp; split <;> rfl
@[simp] theorem State.updGrp_mem (s : State) (g : Nat) (f : Group → Group) : (s.updGrp g f).mem = s.mem := by unfold State.updGrp; split <;> rfl
@[simp] theorem State.updGrp_poisoned (s : State) (g : Nat) (f : Group → Group) : (s.updGrp g f).poisoned = s.poisoned := by unfold State.updGrp; split <;> rfl
@[simp] theorem State.updGrp_loose (s : State) (g : Nat) (f : Group → Group) : (s.updGrp g f).loose = s.loose := by unfold State.updGrp; split <;> rfl
@[simp] theorem State.updGrp_l2 (s : State) (g : Nat) (f : Group → Group) : (s.updGrp g f).l2 = s.l2 := by unfold State.updGrp; split <;> rfl
@[simp] theorem State.updGrp_dir (s : State) (g : Nat) (f : Group → Group) : (s.updGrp g f).dir = s.dir := by unfold State.updGrp; split <;> rfl
@[simp] theorem State.updGrp_filters (s : State) (g : Nat) (f : Group → Group) : (s.updGrp g f).filters = s.filters := by unfold State.updGrp; split <;> rfl
@[simp] theorem State.updGrp_l2bad (s : State) (g : Nat) (f : Group → Group) : (s.updGrp g f).l2bad = s.l2bad := by unfold State.updGrp; split <;> rfl
@[simp] theorem State.updGrp_stackBad (s : State) (g : Nat) (f : Group → Group) : (s.updGrp g f).stackBad = s.stackBad := by unfold State.updGrp; split <;> rfl
@[simp] theorem State.updGrp_hostMem (s : State) (g : Nat) (f : Group → Group) : (s.updGrp g f).hostMem = s.hostMem := by unfold State.updGrp; split <;> rfl
@[simp] theorem State.updGrp_hostPoison (s : State) (g : Nat) (f : Group → Group) : (s.updGrp g f).hostPoison = s.hostPoison := by unfold State.updGrp; split <;> rfl
@[simp] theorem State.updGrp_hostL2 (s : State) (g : Nat) (f : Group → Group) : (s.updGrp g f).hostL2 = s.hostL2 := by unfold State.updGrp; split <;> rfl
@[simp] theorem State.updGrp_hitch (s : State) (g : Nat) (f : Group → Group) : (s.updGrp g f).hitch = s.hitch := by unfold State.updGrp; split <;> rfl
@[simp] theorem State.updGrp_spill (s : State) (g : Nat) (f : Group → Group) : (s.updGrp g f).spill = s.spill := by unfold State.updGrp; split <;> rfl
@[simp] theorem State.updGrp_landau (s : State) (g : Nat) (f : Group → Group) : (s.updGrp g f).landau = s.landau := by unfold State.updGrp; split <;> rfl
@[simp] theorem State.updGrp_views (s : State) (g : Nat) (f : Group → Group) : (s.updGrp g f).views = s.views := by unfold State.updGrp; split <;> rfl
@[simp] theorem State.updGrp_plays (s : State) (g : Nat) (f : Group → Group) : (s.updGrp g f).plays = s.plays := by unfold State.updGrp; split <;> rfl
@[simp] theorem State.updGrp_peers (s : State) (g : Nat) (f : Group → Group) : (s.updGrp g f).peers = s.peers := by unfold State.updGrp; split <;> rfl
@[simp] theorem State.updGrp_windows (s : State) (g : Nat) (f : Group → Group) : (s.updGrp g f).windows = s.windows := by unfold State.updGrp; split <;> rfl
@[simp] theorem State.updGrp_mcLeaf (s : State) (g : Nat) (f : Group → Group) : (s.updGrp g f).mcLeaf = s.mcLeaf := by unfold State.updGrp; split <;> rfl
@[simp] theorem State.updGrp_mcSpine (s : State) (g : Nat) (f : Group → Group) : (s.updGrp g f).mcSpine = s.mcSpine := by unfold State.updGrp; split <;> rfl
@[simp] theorem State.updGrp_portDown (s : State) (g : Nat) (f : Group → Group) : (s.updGrp g f).portDown = s.portDown := by unfold State.updGrp; split <;> rfl
@[simp] theorem State.updGrp_fabNext (s : State) (g : Nat) (f : Group → Group) : (s.updGrp g f).fabNext = s.fabNext := by unfold State.updGrp; split <;> rfl
@[simp] theorem State.updGrp_fabEarly (s : State) (g : Nat) (f : Group → Group) : (s.updGrp g f).fabEarly = s.fabEarly := by unfold State.updGrp; split <;> rfl
@[simp] theorem State.updGrp_mcSeq (s : State) (g : Nat) (f : Group → Group) : (s.updGrp g f).mcSeq = s.mcSeq := by unfold State.updGrp; split <;> rfl
@[simp] theorem State.updGrp_reds (s : State) (g : Nat) (f : Group → Group) : (s.updGrp g f).reds = s.reds := by unfold State.updGrp; split <;> rfl
@[simp] theorem State.updGrp_pcieDown (s : State) (g : Nat) (f : Group → Group) : (s.updGrp g f).pcieDown = s.pcieDown := by unfold State.updGrp; split <;> rfl
@[simp] theorem State.updGrp_vfs (s : State) (g : Nat) (f : Group → Group) : (s.updGrp g f).vfs = s.vfs := by unfold State.updGrp; split <;> rfl
@[simp] theorem State.updGrp_parts (s : State) (g : Nat) (f : Group → Group) : (s.updGrp g f).parts = s.parts := by unfold State.updGrp; split <;> rfl
@[simp] theorem State.updGrp_ctxs (s : State) (g : Nat) (f : Group → Group) : (s.updGrp g f).ctxs = s.ctxs := by unfold State.updGrp; split <;> rfl
@[simp] theorem State.updGrp_records (s : State) (g : Nat) (f : Group → Group) : (s.updGrp g f).records = s.records := by unfold State.updGrp; split <;> rfl
@[simp] theorem State.updGrp_grids (s : State) (g : Nat) (f : Group → Group) : (s.updGrp g f).grids = s.grids := by unfold State.updGrp; split <;> rfl
@[simp] theorem State.updGrp_tuples (s : State) (g : Nat) (f : Group → Group) : (s.updGrp g f).tuples = s.tuples := by unfold State.updGrp; split <;> rfl
@[simp] theorem State.updGrp_teams (s : State) (g : Nat) (f : Group → Group) : (s.updGrp g f).teams = s.teams := by unfold State.updGrp; split <;> rfl
@[simp] theorem State.updGrp_cores (s : State) (g : Nat) (f : Group → Group) : (s.updGrp g f).cores = s.cores := by unfold State.updGrp; split <;> rfl
@[simp] theorem State.updGrp_dies (s : State) (g : Nat) (f : Group → Group) : (s.updGrp g f).dies = s.dies := by unfold State.updGrp; split <;> rfl
@[simp] theorem State.updGrp_invals (s : State) (g : Nat) (f : Group → Group) : (s.updGrp g f).invals = s.invals := by unfold State.updGrp; split <;> rfl
@[simp] theorem State.updGrp_reclaims (s : State) (g : Nat) (f : Group → Group) : (s.updGrp g f).reclaims = s.reclaims := by unfold State.updGrp; split <;> rfl
@[simp] theorem State.updGrp_coach (s : State) (g : Nat) (f : Group → Group) : (s.updGrp g f).coach = s.coach := by unfold State.updGrp; split <;> rfl
@[simp] theorem State.updGrp_outbox (s : State) (g : Nat) (f : Group → Group) : (s.updGrp g f).outbox = s.outbox := by unfold State.updGrp; split <;> rfl
@[simp] theorem State.updGrp_agenda (s : State) (g : Nat) (f : Group → Group) : (s.updGrp g f).agenda = s.agenda := by unfold State.updGrp; split <;> rfl
@[simp] theorem State.updGrp_cur (s : State) (g : Nat) (f : Group → Group) : (s.updGrp g f).cur = s.cur := by unfold State.updGrp; split <;> rfl
@[simp] theorem State.updGrp_ages (s : State) (g : Nat) (f : Group → Group) : (s.updGrp g f).ages = s.ages := by unfold State.updGrp; split <;> rfl
@[simp] theorem State.updGrp_ids (s : State) (g : Nat) (f : Group → Group) : (s.updGrp g f).ids = s.ids := by unfold State.updGrp; split <;> rfl
@[simp] theorem State.updGrp_draws (s : State) (g : Nat) (f : Group → Group) : (s.updGrp g f).draws = s.draws := by unfold State.updGrp; split <;> rfl
@[simp] theorem State.updGrp_traffic (s : State) (g : Nat) (f : Group → Group) : (s.updGrp g f).traffic = s.traffic := by unfold State.updGrp; split <;> rfl
@[simp] theorem State.updGrp_samples (s : State) (g : Nat) (f : Group → Group) : (s.updGrp g f).samples = s.samples := by unfold State.updGrp; split <;> rfl
@[simp] theorem State.updGrp_acts (s : State) (g : Nat) (f : Group → Group) : (s.updGrp g f).acts = s.acts := by unfold State.updGrp; split <;> rfl
@[simp] theorem State.updGrp_blocked (s : State) (g : Nat) (f : Group → Group) : (s.updGrp g f).blocked = s.blocked := by unfold State.updGrp; split <;> rfl

/-! ### `updSpl` -/

@[simp] theorem State.updSpl_time (s : State) (g slot : Nat) (f : Split → Split) : (s.updSpl g slot f).time = s.time := by simp [State.updSpl]
@[simp] theorem State.updSpl_phase (s : State) (g slot : Nat) (f : Split → Split) : (s.updSpl g slot f).phase = s.phase := by simp [State.updSpl]
@[simp] theorem State.updSpl_dz860 (s : State) (g slot : Nat) (f : Split → Split) : (s.updSpl g slot f).dz860 = s.dz860 := by simp [State.updSpl]
@[simp] theorem State.updSpl_identity (s : State) (g slot : Nat) (f : Split → Split) : (s.updSpl g slot f).identity = s.identity := by simp [State.updSpl]
@[simp] theorem State.updSpl_clusterMap (s : State) (g slot : Nat) (f : Split → Split) : (s.updSpl g slot f).clusterMap = s.clusterMap := by simp [State.updSpl]
@[simp] theorem State.updSpl_peerNo (s : State) (g slot : Nat) (f : Split → Split) : (s.updSpl g slot f).peerNo = s.peerNo := by simp [State.updSpl]
@[simp] theorem State.updSpl_fw (s : State) (g slot : Nat) (f : Split → Split) : (s.updSpl g slot f).fw = s.fw := by simp [State.updSpl]
@[simp] theorem State.updSpl_failure (s : State) (g slot : Nat) (f : Split → Split) : (s.updSpl g slot f).failure = s.failure := by simp [State.updSpl]
@[simp] theorem State.updSpl_upload (s : State) (g slot : Nat) (f : Split → Split) : (s.updSpl g slot f).upload = s.upload := by simp [State.updSpl]
@[simp] theorem State.updSpl_health (s : State) (g slot : Nat) (f : Split → Split) : (s.updSpl g slot f).health = s.health := by simp [State.updSpl]
@[simp] theorem State.updSpl_mem (s : State) (g slot : Nat) (f : Split → Split) : (s.updSpl g slot f).mem = s.mem := by simp [State.updSpl]
@[simp] theorem State.updSpl_poisoned (s : State) (g slot : Nat) (f : Split → Split) : (s.updSpl g slot f).poisoned = s.poisoned := by simp [State.updSpl]
@[simp] theorem State.updSpl_loose (s : State) (g slot : Nat) (f : Split → Split) : (s.updSpl g slot f).loose = s.loose := by simp [State.updSpl]
@[simp] theorem State.updSpl_l2 (s : State) (g slot : Nat) (f : Split → Split) : (s.updSpl g slot f).l2 = s.l2 := by simp [State.updSpl]
@[simp] theorem State.updSpl_dir (s : State) (g slot : Nat) (f : Split → Split) : (s.updSpl g slot f).dir = s.dir := by simp [State.updSpl]
@[simp] theorem State.updSpl_filters (s : State) (g slot : Nat) (f : Split → Split) : (s.updSpl g slot f).filters = s.filters := by simp [State.updSpl]
@[simp] theorem State.updSpl_l2bad (s : State) (g slot : Nat) (f : Split → Split) : (s.updSpl g slot f).l2bad = s.l2bad := by simp [State.updSpl]
@[simp] theorem State.updSpl_stackBad (s : State) (g slot : Nat) (f : Split → Split) : (s.updSpl g slot f).stackBad = s.stackBad := by simp [State.updSpl]
@[simp] theorem State.updSpl_hostMem (s : State) (g slot : Nat) (f : Split → Split) : (s.updSpl g slot f).hostMem = s.hostMem := by simp [State.updSpl]
@[simp] theorem State.updSpl_hostPoison (s : State) (g slot : Nat) (f : Split → Split) : (s.updSpl g slot f).hostPoison = s.hostPoison := by simp [State.updSpl]
@[simp] theorem State.updSpl_hostL2 (s : State) (g slot : Nat) (f : Split → Split) : (s.updSpl g slot f).hostL2 = s.hostL2 := by simp [State.updSpl]
@[simp] theorem State.updSpl_hitch (s : State) (g slot : Nat) (f : Split → Split) : (s.updSpl g slot f).hitch = s.hitch := by simp [State.updSpl]
@[simp] theorem State.updSpl_spill (s : State) (g slot : Nat) (f : Split → Split) : (s.updSpl g slot f).spill = s.spill := by simp [State.updSpl]
@[simp] theorem State.updSpl_landau (s : State) (g slot : Nat) (f : Split → Split) : (s.updSpl g slot f).landau = s.landau := by simp [State.updSpl]
@[simp] theorem State.updSpl_views (s : State) (g slot : Nat) (f : Split → Split) : (s.updSpl g slot f).views = s.views := by simp [State.updSpl]
@[simp] theorem State.updSpl_plays (s : State) (g slot : Nat) (f : Split → Split) : (s.updSpl g slot f).plays = s.plays := by simp [State.updSpl]
@[simp] theorem State.updSpl_peers (s : State) (g slot : Nat) (f : Split → Split) : (s.updSpl g slot f).peers = s.peers := by simp [State.updSpl]
@[simp] theorem State.updSpl_windows (s : State) (g slot : Nat) (f : Split → Split) : (s.updSpl g slot f).windows = s.windows := by simp [State.updSpl]
@[simp] theorem State.updSpl_mcLeaf (s : State) (g slot : Nat) (f : Split → Split) : (s.updSpl g slot f).mcLeaf = s.mcLeaf := by simp [State.updSpl]
@[simp] theorem State.updSpl_mcSpine (s : State) (g slot : Nat) (f : Split → Split) : (s.updSpl g slot f).mcSpine = s.mcSpine := by simp [State.updSpl]
@[simp] theorem State.updSpl_portDown (s : State) (g slot : Nat) (f : Split → Split) : (s.updSpl g slot f).portDown = s.portDown := by simp [State.updSpl]
@[simp] theorem State.updSpl_fabNext (s : State) (g slot : Nat) (f : Split → Split) : (s.updSpl g slot f).fabNext = s.fabNext := by simp [State.updSpl]
@[simp] theorem State.updSpl_fabEarly (s : State) (g slot : Nat) (f : Split → Split) : (s.updSpl g slot f).fabEarly = s.fabEarly := by simp [State.updSpl]
@[simp] theorem State.updSpl_mcSeq (s : State) (g slot : Nat) (f : Split → Split) : (s.updSpl g slot f).mcSeq = s.mcSeq := by simp [State.updSpl]
@[simp] theorem State.updSpl_reds (s : State) (g slot : Nat) (f : Split → Split) : (s.updSpl g slot f).reds = s.reds := by simp [State.updSpl]
@[simp] theorem State.updSpl_pcieDown (s : State) (g slot : Nat) (f : Split → Split) : (s.updSpl g slot f).pcieDown = s.pcieDown := by simp [State.updSpl]
@[simp] theorem State.updSpl_vfs (s : State) (g slot : Nat) (f : Split → Split) : (s.updSpl g slot f).vfs = s.vfs := by simp [State.updSpl]
@[simp] theorem State.updSpl_parts (s : State) (g slot : Nat) (f : Split → Split) : (s.updSpl g slot f).parts = s.parts := by simp [State.updSpl]
@[simp] theorem State.updSpl_ctxs (s : State) (g slot : Nat) (f : Split → Split) : (s.updSpl g slot f).ctxs = s.ctxs := by simp [State.updSpl]
@[simp] theorem State.updSpl_records (s : State) (g slot : Nat) (f : Split → Split) : (s.updSpl g slot f).records = s.records := by simp [State.updSpl]
@[simp] theorem State.updSpl_grids (s : State) (g slot : Nat) (f : Split → Split) : (s.updSpl g slot f).grids = s.grids := by simp [State.updSpl]
@[simp] theorem State.updSpl_tuples (s : State) (g slot : Nat) (f : Split → Split) : (s.updSpl g slot f).tuples = s.tuples := by simp [State.updSpl]
@[simp] theorem State.updSpl_teams (s : State) (g slot : Nat) (f : Split → Split) : (s.updSpl g slot f).teams = s.teams := by simp [State.updSpl]
@[simp] theorem State.updSpl_cores (s : State) (g slot : Nat) (f : Split → Split) : (s.updSpl g slot f).cores = s.cores := by simp [State.updSpl]
@[simp] theorem State.updSpl_dies (s : State) (g slot : Nat) (f : Split → Split) : (s.updSpl g slot f).dies = s.dies := by simp [State.updSpl]
@[simp] theorem State.updSpl_invals (s : State) (g slot : Nat) (f : Split → Split) : (s.updSpl g slot f).invals = s.invals := by simp [State.updSpl]
@[simp] theorem State.updSpl_reclaims (s : State) (g slot : Nat) (f : Split → Split) : (s.updSpl g slot f).reclaims = s.reclaims := by simp [State.updSpl]
@[simp] theorem State.updSpl_coach (s : State) (g slot : Nat) (f : Split → Split) : (s.updSpl g slot f).coach = s.coach := by simp [State.updSpl]
@[simp] theorem State.updSpl_outbox (s : State) (g slot : Nat) (f : Split → Split) : (s.updSpl g slot f).outbox = s.outbox := by simp [State.updSpl]
@[simp] theorem State.updSpl_agenda (s : State) (g slot : Nat) (f : Split → Split) : (s.updSpl g slot f).agenda = s.agenda := by simp [State.updSpl]
@[simp] theorem State.updSpl_cur (s : State) (g slot : Nat) (f : Split → Split) : (s.updSpl g slot f).cur = s.cur := by simp [State.updSpl]
@[simp] theorem State.updSpl_ages (s : State) (g slot : Nat) (f : Split → Split) : (s.updSpl g slot f).ages = s.ages := by simp [State.updSpl]
@[simp] theorem State.updSpl_ids (s : State) (g slot : Nat) (f : Split → Split) : (s.updSpl g slot f).ids = s.ids := by simp [State.updSpl]
@[simp] theorem State.updSpl_draws (s : State) (g slot : Nat) (f : Split → Split) : (s.updSpl g slot f).draws = s.draws := by simp [State.updSpl]
@[simp] theorem State.updSpl_traffic (s : State) (g slot : Nat) (f : Split → Split) : (s.updSpl g slot f).traffic = s.traffic := by simp [State.updSpl]
@[simp] theorem State.updSpl_samples (s : State) (g slot : Nat) (f : Split → Split) : (s.updSpl g slot f).samples = s.samples := by simp [State.updSpl]
@[simp] theorem State.updSpl_acts (s : State) (g slot : Nat) (f : Split → Split) : (s.updSpl g slot f).acts = s.acts := by simp [State.updSpl]
@[simp] theorem State.updSpl_blocked (s : State) (g slot : Nat) (f : Split → Split) : (s.updSpl g slot f).blocked = s.blocked := by simp [State.updSpl]

/-! ### `updCore` -/

@[simp] theorem State.updCore_time (s : State) (k : Nat) (f : Core → Core) : (s.updCore k f).time = s.time := rfl
@[simp] theorem State.updCore_phase (s : State) (k : Nat) (f : Core → Core) : (s.updCore k f).phase = s.phase := rfl
@[simp] theorem State.updCore_dz860 (s : State) (k : Nat) (f : Core → Core) : (s.updCore k f).dz860 = s.dz860 := rfl
@[simp] theorem State.updCore_identity (s : State) (k : Nat) (f : Core → Core) : (s.updCore k f).identity = s.identity := rfl
@[simp] theorem State.updCore_clusterMap (s : State) (k : Nat) (f : Core → Core) : (s.updCore k f).clusterMap = s.clusterMap := rfl
@[simp] theorem State.updCore_peerNo (s : State) (k : Nat) (f : Core → Core) : (s.updCore k f).peerNo = s.peerNo := rfl
@[simp] theorem State.updCore_fw (s : State) (k : Nat) (f : Core → Core) : (s.updCore k f).fw = s.fw := rfl
@[simp] theorem State.updCore_failure (s : State) (k : Nat) (f : Core → Core) : (s.updCore k f).failure = s.failure := rfl
@[simp] theorem State.updCore_upload (s : State) (k : Nat) (f : Core → Core) : (s.updCore k f).upload = s.upload := rfl
@[simp] theorem State.updCore_health (s : State) (k : Nat) (f : Core → Core) : (s.updCore k f).health = s.health := rfl
@[simp] theorem State.updCore_mem (s : State) (k : Nat) (f : Core → Core) : (s.updCore k f).mem = s.mem := rfl
@[simp] theorem State.updCore_poisoned (s : State) (k : Nat) (f : Core → Core) : (s.updCore k f).poisoned = s.poisoned := rfl
@[simp] theorem State.updCore_loose (s : State) (k : Nat) (f : Core → Core) : (s.updCore k f).loose = s.loose := rfl
@[simp] theorem State.updCore_l2 (s : State) (k : Nat) (f : Core → Core) : (s.updCore k f).l2 = s.l2 := rfl
@[simp] theorem State.updCore_dir (s : State) (k : Nat) (f : Core → Core) : (s.updCore k f).dir = s.dir := rfl
@[simp] theorem State.updCore_filters (s : State) (k : Nat) (f : Core → Core) : (s.updCore k f).filters = s.filters := rfl
@[simp] theorem State.updCore_l2bad (s : State) (k : Nat) (f : Core → Core) : (s.updCore k f).l2bad = s.l2bad := rfl
@[simp] theorem State.updCore_stackBad (s : State) (k : Nat) (f : Core → Core) : (s.updCore k f).stackBad = s.stackBad := rfl
@[simp] theorem State.updCore_hostMem (s : State) (k : Nat) (f : Core → Core) : (s.updCore k f).hostMem = s.hostMem := rfl
@[simp] theorem State.updCore_hostPoison (s : State) (k : Nat) (f : Core → Core) : (s.updCore k f).hostPoison = s.hostPoison := rfl
@[simp] theorem State.updCore_hostL2 (s : State) (k : Nat) (f : Core → Core) : (s.updCore k f).hostL2 = s.hostL2 := rfl
@[simp] theorem State.updCore_hitch (s : State) (k : Nat) (f : Core → Core) : (s.updCore k f).hitch = s.hitch := rfl
@[simp] theorem State.updCore_spill (s : State) (k : Nat) (f : Core → Core) : (s.updCore k f).spill = s.spill := rfl
@[simp] theorem State.updCore_landau (s : State) (k : Nat) (f : Core → Core) : (s.updCore k f).landau = s.landau := rfl
@[simp] theorem State.updCore_views (s : State) (k : Nat) (f : Core → Core) : (s.updCore k f).views = s.views := rfl
@[simp] theorem State.updCore_plays (s : State) (k : Nat) (f : Core → Core) : (s.updCore k f).plays = s.plays := rfl
@[simp] theorem State.updCore_peers (s : State) (k : Nat) (f : Core → Core) : (s.updCore k f).peers = s.peers := rfl
@[simp] theorem State.updCore_windows (s : State) (k : Nat) (f : Core → Core) : (s.updCore k f).windows = s.windows := rfl
@[simp] theorem State.updCore_mcLeaf (s : State) (k : Nat) (f : Core → Core) : (s.updCore k f).mcLeaf = s.mcLeaf := rfl
@[simp] theorem State.updCore_mcSpine (s : State) (k : Nat) (f : Core → Core) : (s.updCore k f).mcSpine = s.mcSpine := rfl
@[simp] theorem State.updCore_portDown (s : State) (k : Nat) (f : Core → Core) : (s.updCore k f).portDown = s.portDown := rfl
@[simp] theorem State.updCore_fabNext (s : State) (k : Nat) (f : Core → Core) : (s.updCore k f).fabNext = s.fabNext := rfl
@[simp] theorem State.updCore_fabEarly (s : State) (k : Nat) (f : Core → Core) : (s.updCore k f).fabEarly = s.fabEarly := rfl
@[simp] theorem State.updCore_mcSeq (s : State) (k : Nat) (f : Core → Core) : (s.updCore k f).mcSeq = s.mcSeq := rfl
@[simp] theorem State.updCore_reds (s : State) (k : Nat) (f : Core → Core) : (s.updCore k f).reds = s.reds := rfl
@[simp] theorem State.updCore_pcieDown (s : State) (k : Nat) (f : Core → Core) : (s.updCore k f).pcieDown = s.pcieDown := rfl
@[simp] theorem State.updCore_vfs (s : State) (k : Nat) (f : Core → Core) : (s.updCore k f).vfs = s.vfs := rfl
@[simp] theorem State.updCore_parts (s : State) (k : Nat) (f : Core → Core) : (s.updCore k f).parts = s.parts := rfl
@[simp] theorem State.updCore_ctxs (s : State) (k : Nat) (f : Core → Core) : (s.updCore k f).ctxs = s.ctxs := rfl
@[simp] theorem State.updCore_records (s : State) (k : Nat) (f : Core → Core) : (s.updCore k f).records = s.records := rfl
@[simp] theorem State.updCore_grids (s : State) (k : Nat) (f : Core → Core) : (s.updCore k f).grids = s.grids := rfl
@[simp] theorem State.updCore_tuples (s : State) (k : Nat) (f : Core → Core) : (s.updCore k f).tuples = s.tuples := rfl
@[simp] theorem State.updCore_teams (s : State) (k : Nat) (f : Core → Core) : (s.updCore k f).teams = s.teams := rfl
@[simp] theorem State.updCore_groups (s : State) (k : Nat) (f : Core → Core) : (s.updCore k f).groups = s.groups := rfl
@[simp] theorem State.updCore_dies (s : State) (k : Nat) (f : Core → Core) : (s.updCore k f).dies = s.dies := rfl
@[simp] theorem State.updCore_invals (s : State) (k : Nat) (f : Core → Core) : (s.updCore k f).invals = s.invals := rfl
@[simp] theorem State.updCore_reclaims (s : State) (k : Nat) (f : Core → Core) : (s.updCore k f).reclaims = s.reclaims := rfl
@[simp] theorem State.updCore_coach (s : State) (k : Nat) (f : Core → Core) : (s.updCore k f).coach = s.coach := rfl
@[simp] theorem State.updCore_outbox (s : State) (k : Nat) (f : Core → Core) : (s.updCore k f).outbox = s.outbox := rfl
@[simp] theorem State.updCore_agenda (s : State) (k : Nat) (f : Core → Core) : (s.updCore k f).agenda = s.agenda := rfl
@[simp] theorem State.updCore_cur (s : State) (k : Nat) (f : Core → Core) : (s.updCore k f).cur = s.cur := rfl
@[simp] theorem State.updCore_ages (s : State) (k : Nat) (f : Core → Core) : (s.updCore k f).ages = s.ages := rfl
@[simp] theorem State.updCore_ids (s : State) (k : Nat) (f : Core → Core) : (s.updCore k f).ids = s.ids := rfl
@[simp] theorem State.updCore_draws (s : State) (k : Nat) (f : Core → Core) : (s.updCore k f).draws = s.draws := rfl
@[simp] theorem State.updCore_traffic (s : State) (k : Nat) (f : Core → Core) : (s.updCore k f).traffic = s.traffic := rfl
@[simp] theorem State.updCore_samples (s : State) (k : Nat) (f : Core → Core) : (s.updCore k f).samples = s.samples := rfl
@[simp] theorem State.updCore_acts (s : State) (k : Nat) (f : Core → Core) : (s.updCore k f).acts = s.acts := rfl
@[simp] theorem State.updCore_blocked (s : State) (k : Nat) (f : Core → Core) : (s.updCore k f).blocked = s.blocked := rfl

/-! ### `updTeam` -/

@[simp] theorem State.updTeam_time (s : State) (n : Nat) (f : Team → Team) : (s.updTeam n f).time = s.time := by unfold State.updTeam; split <;> rfl
@[simp] theorem State.updTeam_phase (s : State) (n : Nat) (f : Team → Team) : (s.updTeam n f).phase = s.phase := by unfold State.updTeam; split <;> rfl
@[simp] theorem State.updTeam_dz860 (s : State) (n : Nat) (f : Team → Team) : (s.updTeam n f).dz860 = s.dz860 := by unfold State.updTeam; split <;> rfl
@[simp] theorem State.updTeam_identity (s : State) (n : Nat) (f : Team → Team) : (s.updTeam n f).identity = s.identity := by unfold State.updTeam; split <;> rfl
@[simp] theorem State.updTeam_clusterMap (s : State) (n : Nat) (f : Team → Team) : (s.updTeam n f).clusterMap = s.clusterMap := by unfold State.updTeam; split <;> rfl
@[simp] theorem State.updTeam_peerNo (s : State) (n : Nat) (f : Team → Team) : (s.updTeam n f).peerNo = s.peerNo := by unfold State.updTeam; split <;> rfl
@[simp] theorem State.updTeam_fw (s : State) (n : Nat) (f : Team → Team) : (s.updTeam n f).fw = s.fw := by unfold State.updTeam; split <;> rfl
@[simp] theorem State.updTeam_failure (s : State) (n : Nat) (f : Team → Team) : (s.updTeam n f).failure = s.failure := by unfold State.updTeam; split <;> rfl
@[simp] theorem State.updTeam_upload (s : State) (n : Nat) (f : Team → Team) : (s.updTeam n f).upload = s.upload := by unfold State.updTeam; split <;> rfl
@[simp] theorem State.updTeam_health (s : State) (n : Nat) (f : Team → Team) : (s.updTeam n f).health = s.health := by unfold State.updTeam; split <;> rfl
@[simp] theorem State.updTeam_mem (s : State) (n : Nat) (f : Team → Team) : (s.updTeam n f).mem = s.mem := by unfold State.updTeam; split <;> rfl
@[simp] theorem State.updTeam_poisoned (s : State) (n : Nat) (f : Team → Team) : (s.updTeam n f).poisoned = s.poisoned := by unfold State.updTeam; split <;> rfl
@[simp] theorem State.updTeam_loose (s : State) (n : Nat) (f : Team → Team) : (s.updTeam n f).loose = s.loose := by unfold State.updTeam; split <;> rfl
@[simp] theorem State.updTeam_l2 (s : State) (n : Nat) (f : Team → Team) : (s.updTeam n f).l2 = s.l2 := by unfold State.updTeam; split <;> rfl
@[simp] theorem State.updTeam_dir (s : State) (n : Nat) (f : Team → Team) : (s.updTeam n f).dir = s.dir := by unfold State.updTeam; split <;> rfl
@[simp] theorem State.updTeam_filters (s : State) (n : Nat) (f : Team → Team) : (s.updTeam n f).filters = s.filters := by unfold State.updTeam; split <;> rfl
@[simp] theorem State.updTeam_l2bad (s : State) (n : Nat) (f : Team → Team) : (s.updTeam n f).l2bad = s.l2bad := by unfold State.updTeam; split <;> rfl
@[simp] theorem State.updTeam_stackBad (s : State) (n : Nat) (f : Team → Team) : (s.updTeam n f).stackBad = s.stackBad := by unfold State.updTeam; split <;> rfl
@[simp] theorem State.updTeam_hostMem (s : State) (n : Nat) (f : Team → Team) : (s.updTeam n f).hostMem = s.hostMem := by unfold State.updTeam; split <;> rfl
@[simp] theorem State.updTeam_hostPoison (s : State) (n : Nat) (f : Team → Team) : (s.updTeam n f).hostPoison = s.hostPoison := by unfold State.updTeam; split <;> rfl
@[simp] theorem State.updTeam_hostL2 (s : State) (n : Nat) (f : Team → Team) : (s.updTeam n f).hostL2 = s.hostL2 := by unfold State.updTeam; split <;> rfl
@[simp] theorem State.updTeam_hitch (s : State) (n : Nat) (f : Team → Team) : (s.updTeam n f).hitch = s.hitch := by unfold State.updTeam; split <;> rfl
@[simp] theorem State.updTeam_spill (s : State) (n : Nat) (f : Team → Team) : (s.updTeam n f).spill = s.spill := by unfold State.updTeam; split <;> rfl
@[simp] theorem State.updTeam_landau (s : State) (n : Nat) (f : Team → Team) : (s.updTeam n f).landau = s.landau := by unfold State.updTeam; split <;> rfl
@[simp] theorem State.updTeam_views (s : State) (n : Nat) (f : Team → Team) : (s.updTeam n f).views = s.views := by unfold State.updTeam; split <;> rfl
@[simp] theorem State.updTeam_plays (s : State) (n : Nat) (f : Team → Team) : (s.updTeam n f).plays = s.plays := by unfold State.updTeam; split <;> rfl
@[simp] theorem State.updTeam_peers (s : State) (n : Nat) (f : Team → Team) : (s.updTeam n f).peers = s.peers := by unfold State.updTeam; split <;> rfl
@[simp] theorem State.updTeam_windows (s : State) (n : Nat) (f : Team → Team) : (s.updTeam n f).windows = s.windows := by unfold State.updTeam; split <;> rfl
@[simp] theorem State.updTeam_mcLeaf (s : State) (n : Nat) (f : Team → Team) : (s.updTeam n f).mcLeaf = s.mcLeaf := by unfold State.updTeam; split <;> rfl
@[simp] theorem State.updTeam_mcSpine (s : State) (n : Nat) (f : Team → Team) : (s.updTeam n f).mcSpine = s.mcSpine := by unfold State.updTeam; split <;> rfl
@[simp] theorem State.updTeam_portDown (s : State) (n : Nat) (f : Team → Team) : (s.updTeam n f).portDown = s.portDown := by unfold State.updTeam; split <;> rfl
@[simp] theorem State.updTeam_fabNext (s : State) (n : Nat) (f : Team → Team) : (s.updTeam n f).fabNext = s.fabNext := by unfold State.updTeam; split <;> rfl
@[simp] theorem State.updTeam_fabEarly (s : State) (n : Nat) (f : Team → Team) : (s.updTeam n f).fabEarly = s.fabEarly := by unfold State.updTeam; split <;> rfl
@[simp] theorem State.updTeam_mcSeq (s : State) (n : Nat) (f : Team → Team) : (s.updTeam n f).mcSeq = s.mcSeq := by unfold State.updTeam; split <;> rfl
@[simp] theorem State.updTeam_reds (s : State) (n : Nat) (f : Team → Team) : (s.updTeam n f).reds = s.reds := by unfold State.updTeam; split <;> rfl
@[simp] theorem State.updTeam_pcieDown (s : State) (n : Nat) (f : Team → Team) : (s.updTeam n f).pcieDown = s.pcieDown := by unfold State.updTeam; split <;> rfl
@[simp] theorem State.updTeam_vfs (s : State) (n : Nat) (f : Team → Team) : (s.updTeam n f).vfs = s.vfs := by unfold State.updTeam; split <;> rfl
@[simp] theorem State.updTeam_parts (s : State) (n : Nat) (f : Team → Team) : (s.updTeam n f).parts = s.parts := by unfold State.updTeam; split <;> rfl
@[simp] theorem State.updTeam_ctxs (s : State) (n : Nat) (f : Team → Team) : (s.updTeam n f).ctxs = s.ctxs := by unfold State.updTeam; split <;> rfl
@[simp] theorem State.updTeam_records (s : State) (n : Nat) (f : Team → Team) : (s.updTeam n f).records = s.records := by unfold State.updTeam; split <;> rfl
@[simp] theorem State.updTeam_grids (s : State) (n : Nat) (f : Team → Team) : (s.updTeam n f).grids = s.grids := by unfold State.updTeam; split <;> rfl
@[simp] theorem State.updTeam_tuples (s : State) (n : Nat) (f : Team → Team) : (s.updTeam n f).tuples = s.tuples := by unfold State.updTeam; split <;> rfl
@[simp] theorem State.updTeam_groups (s : State) (n : Nat) (f : Team → Team) : (s.updTeam n f).groups = s.groups := by unfold State.updTeam; split <;> rfl
@[simp] theorem State.updTeam_cores (s : State) (n : Nat) (f : Team → Team) : (s.updTeam n f).cores = s.cores := by unfold State.updTeam; split <;> rfl
@[simp] theorem State.updTeam_dies (s : State) (n : Nat) (f : Team → Team) : (s.updTeam n f).dies = s.dies := by unfold State.updTeam; split <;> rfl
@[simp] theorem State.updTeam_invals (s : State) (n : Nat) (f : Team → Team) : (s.updTeam n f).invals = s.invals := by unfold State.updTeam; split <;> rfl
@[simp] theorem State.updTeam_reclaims (s : State) (n : Nat) (f : Team → Team) : (s.updTeam n f).reclaims = s.reclaims := by unfold State.updTeam; split <;> rfl
@[simp] theorem State.updTeam_coach (s : State) (n : Nat) (f : Team → Team) : (s.updTeam n f).coach = s.coach := by unfold State.updTeam; split <;> rfl
@[simp] theorem State.updTeam_outbox (s : State) (n : Nat) (f : Team → Team) : (s.updTeam n f).outbox = s.outbox := by unfold State.updTeam; split <;> rfl
@[simp] theorem State.updTeam_agenda (s : State) (n : Nat) (f : Team → Team) : (s.updTeam n f).agenda = s.agenda := by unfold State.updTeam; split <;> rfl
@[simp] theorem State.updTeam_cur (s : State) (n : Nat) (f : Team → Team) : (s.updTeam n f).cur = s.cur := by unfold State.updTeam; split <;> rfl
@[simp] theorem State.updTeam_ages (s : State) (n : Nat) (f : Team → Team) : (s.updTeam n f).ages = s.ages := by unfold State.updTeam; split <;> rfl
@[simp] theorem State.updTeam_ids (s : State) (n : Nat) (f : Team → Team) : (s.updTeam n f).ids = s.ids := by unfold State.updTeam; split <;> rfl
@[simp] theorem State.updTeam_draws (s : State) (n : Nat) (f : Team → Team) : (s.updTeam n f).draws = s.draws := by unfold State.updTeam; split <;> rfl
@[simp] theorem State.updTeam_traffic (s : State) (n : Nat) (f : Team → Team) : (s.updTeam n f).traffic = s.traffic := by unfold State.updTeam; split <;> rfl
@[simp] theorem State.updTeam_samples (s : State) (n : Nat) (f : Team → Team) : (s.updTeam n f).samples = s.samples := by unfold State.updTeam; split <;> rfl
@[simp] theorem State.updTeam_acts (s : State) (n : Nat) (f : Team → Team) : (s.updTeam n f).acts = s.acts := by unfold State.updTeam; split <;> rfl
@[simp] theorem State.updTeam_blocked (s : State) (n : Nat) (f : Team → Team) : (s.updTeam n f).blocked = s.blocked := by unfold State.updTeam; split <;> rfl

/-! ### `updCtx` -/

@[simp] theorem State.updCtx_time (s : State) (n : Nat) (f : Ctx → Ctx) : (s.updCtx n f).time = s.time := by unfold State.updCtx; split <;> rfl
@[simp] theorem State.updCtx_phase (s : State) (n : Nat) (f : Ctx → Ctx) : (s.updCtx n f).phase = s.phase := by unfold State.updCtx; split <;> rfl
@[simp] theorem State.updCtx_dz860 (s : State) (n : Nat) (f : Ctx → Ctx) : (s.updCtx n f).dz860 = s.dz860 := by unfold State.updCtx; split <;> rfl
@[simp] theorem State.updCtx_identity (s : State) (n : Nat) (f : Ctx → Ctx) : (s.updCtx n f).identity = s.identity := by unfold State.updCtx; split <;> rfl
@[simp] theorem State.updCtx_clusterMap (s : State) (n : Nat) (f : Ctx → Ctx) : (s.updCtx n f).clusterMap = s.clusterMap := by unfold State.updCtx; split <;> rfl
@[simp] theorem State.updCtx_peerNo (s : State) (n : Nat) (f : Ctx → Ctx) : (s.updCtx n f).peerNo = s.peerNo := by unfold State.updCtx; split <;> rfl
@[simp] theorem State.updCtx_fw (s : State) (n : Nat) (f : Ctx → Ctx) : (s.updCtx n f).fw = s.fw := by unfold State.updCtx; split <;> rfl
@[simp] theorem State.updCtx_failure (s : State) (n : Nat) (f : Ctx → Ctx) : (s.updCtx n f).failure = s.failure := by unfold State.updCtx; split <;> rfl
@[simp] theorem State.updCtx_upload (s : State) (n : Nat) (f : Ctx → Ctx) : (s.updCtx n f).upload = s.upload := by unfold State.updCtx; split <;> rfl
@[simp] theorem State.updCtx_health (s : State) (n : Nat) (f : Ctx → Ctx) : (s.updCtx n f).health = s.health := by unfold State.updCtx; split <;> rfl
@[simp] theorem State.updCtx_mem (s : State) (n : Nat) (f : Ctx → Ctx) : (s.updCtx n f).mem = s.mem := by unfold State.updCtx; split <;> rfl
@[simp] theorem State.updCtx_poisoned (s : State) (n : Nat) (f : Ctx → Ctx) : (s.updCtx n f).poisoned = s.poisoned := by unfold State.updCtx; split <;> rfl
@[simp] theorem State.updCtx_loose (s : State) (n : Nat) (f : Ctx → Ctx) : (s.updCtx n f).loose = s.loose := by unfold State.updCtx; split <;> rfl
@[simp] theorem State.updCtx_l2 (s : State) (n : Nat) (f : Ctx → Ctx) : (s.updCtx n f).l2 = s.l2 := by unfold State.updCtx; split <;> rfl
@[simp] theorem State.updCtx_dir (s : State) (n : Nat) (f : Ctx → Ctx) : (s.updCtx n f).dir = s.dir := by unfold State.updCtx; split <;> rfl
@[simp] theorem State.updCtx_filters (s : State) (n : Nat) (f : Ctx → Ctx) : (s.updCtx n f).filters = s.filters := by unfold State.updCtx; split <;> rfl
@[simp] theorem State.updCtx_l2bad (s : State) (n : Nat) (f : Ctx → Ctx) : (s.updCtx n f).l2bad = s.l2bad := by unfold State.updCtx; split <;> rfl
@[simp] theorem State.updCtx_stackBad (s : State) (n : Nat) (f : Ctx → Ctx) : (s.updCtx n f).stackBad = s.stackBad := by unfold State.updCtx; split <;> rfl
@[simp] theorem State.updCtx_hostMem (s : State) (n : Nat) (f : Ctx → Ctx) : (s.updCtx n f).hostMem = s.hostMem := by unfold State.updCtx; split <;> rfl
@[simp] theorem State.updCtx_hostPoison (s : State) (n : Nat) (f : Ctx → Ctx) : (s.updCtx n f).hostPoison = s.hostPoison := by unfold State.updCtx; split <;> rfl
@[simp] theorem State.updCtx_hostL2 (s : State) (n : Nat) (f : Ctx → Ctx) : (s.updCtx n f).hostL2 = s.hostL2 := by unfold State.updCtx; split <;> rfl
@[simp] theorem State.updCtx_hitch (s : State) (n : Nat) (f : Ctx → Ctx) : (s.updCtx n f).hitch = s.hitch := by unfold State.updCtx; split <;> rfl
@[simp] theorem State.updCtx_spill (s : State) (n : Nat) (f : Ctx → Ctx) : (s.updCtx n f).spill = s.spill := by unfold State.updCtx; split <;> rfl
@[simp] theorem State.updCtx_landau (s : State) (n : Nat) (f : Ctx → Ctx) : (s.updCtx n f).landau = s.landau := by unfold State.updCtx; split <;> rfl
@[simp] theorem State.updCtx_views (s : State) (n : Nat) (f : Ctx → Ctx) : (s.updCtx n f).views = s.views := by unfold State.updCtx; split <;> rfl
@[simp] theorem State.updCtx_plays (s : State) (n : Nat) (f : Ctx → Ctx) : (s.updCtx n f).plays = s.plays := by unfold State.updCtx; split <;> rfl
@[simp] theorem State.updCtx_peers (s : State) (n : Nat) (f : Ctx → Ctx) : (s.updCtx n f).peers = s.peers := by unfold State.updCtx; split <;> rfl
@[simp] theorem State.updCtx_windows (s : State) (n : Nat) (f : Ctx → Ctx) : (s.updCtx n f).windows = s.windows := by unfold State.updCtx; split <;> rfl
@[simp] theorem State.updCtx_mcLeaf (s : State) (n : Nat) (f : Ctx → Ctx) : (s.updCtx n f).mcLeaf = s.mcLeaf := by unfold State.updCtx; split <;> rfl
@[simp] theorem State.updCtx_mcSpine (s : State) (n : Nat) (f : Ctx → Ctx) : (s.updCtx n f).mcSpine = s.mcSpine := by unfold State.updCtx; split <;> rfl
@[simp] theorem State.updCtx_portDown (s : State) (n : Nat) (f : Ctx → Ctx) : (s.updCtx n f).portDown = s.portDown := by unfold State.updCtx; split <;> rfl
@[simp] theorem State.updCtx_fabNext (s : State) (n : Nat) (f : Ctx → Ctx) : (s.updCtx n f).fabNext = s.fabNext := by unfold State.updCtx; split <;> rfl
@[simp] theorem State.updCtx_fabEarly (s : State) (n : Nat) (f : Ctx → Ctx) : (s.updCtx n f).fabEarly = s.fabEarly := by unfold State.updCtx; split <;> rfl
@[simp] theorem State.updCtx_mcSeq (s : State) (n : Nat) (f : Ctx → Ctx) : (s.updCtx n f).mcSeq = s.mcSeq := by unfold State.updCtx; split <;> rfl
@[simp] theorem State.updCtx_reds (s : State) (n : Nat) (f : Ctx → Ctx) : (s.updCtx n f).reds = s.reds := by unfold State.updCtx; split <;> rfl
@[simp] theorem State.updCtx_pcieDown (s : State) (n : Nat) (f : Ctx → Ctx) : (s.updCtx n f).pcieDown = s.pcieDown := by unfold State.updCtx; split <;> rfl
@[simp] theorem State.updCtx_vfs (s : State) (n : Nat) (f : Ctx → Ctx) : (s.updCtx n f).vfs = s.vfs := by unfold State.updCtx; split <;> rfl
@[simp] theorem State.updCtx_parts (s : State) (n : Nat) (f : Ctx → Ctx) : (s.updCtx n f).parts = s.parts := by unfold State.updCtx; split <;> rfl
@[simp] theorem State.updCtx_records (s : State) (n : Nat) (f : Ctx → Ctx) : (s.updCtx n f).records = s.records := by unfold State.updCtx; split <;> rfl
@[simp] theorem State.updCtx_grids (s : State) (n : Nat) (f : Ctx → Ctx) : (s.updCtx n f).grids = s.grids := by unfold State.updCtx; split <;> rfl
@[simp] theorem State.updCtx_tuples (s : State) (n : Nat) (f : Ctx → Ctx) : (s.updCtx n f).tuples = s.tuples := by unfold State.updCtx; split <;> rfl
@[simp] theorem State.updCtx_teams (s : State) (n : Nat) (f : Ctx → Ctx) : (s.updCtx n f).teams = s.teams := by unfold State.updCtx; split <;> rfl
@[simp] theorem State.updCtx_groups (s : State) (n : Nat) (f : Ctx → Ctx) : (s.updCtx n f).groups = s.groups := by unfold State.updCtx; split <;> rfl
@[simp] theorem State.updCtx_cores (s : State) (n : Nat) (f : Ctx → Ctx) : (s.updCtx n f).cores = s.cores := by unfold State.updCtx; split <;> rfl
@[simp] theorem State.updCtx_dies (s : State) (n : Nat) (f : Ctx → Ctx) : (s.updCtx n f).dies = s.dies := by unfold State.updCtx; split <;> rfl
@[simp] theorem State.updCtx_invals (s : State) (n : Nat) (f : Ctx → Ctx) : (s.updCtx n f).invals = s.invals := by unfold State.updCtx; split <;> rfl
@[simp] theorem State.updCtx_reclaims (s : State) (n : Nat) (f : Ctx → Ctx) : (s.updCtx n f).reclaims = s.reclaims := by unfold State.updCtx; split <;> rfl
@[simp] theorem State.updCtx_coach (s : State) (n : Nat) (f : Ctx → Ctx) : (s.updCtx n f).coach = s.coach := by unfold State.updCtx; split <;> rfl
@[simp] theorem State.updCtx_outbox (s : State) (n : Nat) (f : Ctx → Ctx) : (s.updCtx n f).outbox = s.outbox := by unfold State.updCtx; split <;> rfl
@[simp] theorem State.updCtx_agenda (s : State) (n : Nat) (f : Ctx → Ctx) : (s.updCtx n f).agenda = s.agenda := by unfold State.updCtx; split <;> rfl
@[simp] theorem State.updCtx_cur (s : State) (n : Nat) (f : Ctx → Ctx) : (s.updCtx n f).cur = s.cur := by unfold State.updCtx; split <;> rfl
@[simp] theorem State.updCtx_ages (s : State) (n : Nat) (f : Ctx → Ctx) : (s.updCtx n f).ages = s.ages := by unfold State.updCtx; split <;> rfl
@[simp] theorem State.updCtx_ids (s : State) (n : Nat) (f : Ctx → Ctx) : (s.updCtx n f).ids = s.ids := by unfold State.updCtx; split <;> rfl
@[simp] theorem State.updCtx_draws (s : State) (n : Nat) (f : Ctx → Ctx) : (s.updCtx n f).draws = s.draws := by unfold State.updCtx; split <;> rfl
@[simp] theorem State.updCtx_traffic (s : State) (n : Nat) (f : Ctx → Ctx) : (s.updCtx n f).traffic = s.traffic := by unfold State.updCtx; split <;> rfl
@[simp] theorem State.updCtx_samples (s : State) (n : Nat) (f : Ctx → Ctx) : (s.updCtx n f).samples = s.samples := by unfold State.updCtx; split <;> rfl
@[simp] theorem State.updCtx_acts (s : State) (n : Nat) (f : Ctx → Ctx) : (s.updCtx n f).acts = s.acts := by unfold State.updCtx; split <;> rfl
@[simp] theorem State.updCtx_blocked (s : State) (n : Nat) (f : Ctx → Ctx) : (s.updCtx n f).blocked = s.blocked := by unfold State.updCtx; split <;> rfl

/-! ### `updGrid` -/

@[simp] theorem State.updGrid_time (s : State) (n : Nat) (f : Grid → Grid) : (s.updGrid n f).time = s.time := by unfold State.updGrid; split <;> rfl
@[simp] theorem State.updGrid_phase (s : State) (n : Nat) (f : Grid → Grid) : (s.updGrid n f).phase = s.phase := by unfold State.updGrid; split <;> rfl
@[simp] theorem State.updGrid_dz860 (s : State) (n : Nat) (f : Grid → Grid) : (s.updGrid n f).dz860 = s.dz860 := by unfold State.updGrid; split <;> rfl
@[simp] theorem State.updGrid_identity (s : State) (n : Nat) (f : Grid → Grid) : (s.updGrid n f).identity = s.identity := by unfold State.updGrid; split <;> rfl
@[simp] theorem State.updGrid_clusterMap (s : State) (n : Nat) (f : Grid → Grid) : (s.updGrid n f).clusterMap = s.clusterMap := by unfold State.updGrid; split <;> rfl
@[simp] theorem State.updGrid_peerNo (s : State) (n : Nat) (f : Grid → Grid) : (s.updGrid n f).peerNo = s.peerNo := by unfold State.updGrid; split <;> rfl
@[simp] theorem State.updGrid_fw (s : State) (n : Nat) (f : Grid → Grid) : (s.updGrid n f).fw = s.fw := by unfold State.updGrid; split <;> rfl
@[simp] theorem State.updGrid_failure (s : State) (n : Nat) (f : Grid → Grid) : (s.updGrid n f).failure = s.failure := by unfold State.updGrid; split <;> rfl
@[simp] theorem State.updGrid_upload (s : State) (n : Nat) (f : Grid → Grid) : (s.updGrid n f).upload = s.upload := by unfold State.updGrid; split <;> rfl
@[simp] theorem State.updGrid_health (s : State) (n : Nat) (f : Grid → Grid) : (s.updGrid n f).health = s.health := by unfold State.updGrid; split <;> rfl
@[simp] theorem State.updGrid_mem (s : State) (n : Nat) (f : Grid → Grid) : (s.updGrid n f).mem = s.mem := by unfold State.updGrid; split <;> rfl
@[simp] theorem State.updGrid_poisoned (s : State) (n : Nat) (f : Grid → Grid) : (s.updGrid n f).poisoned = s.poisoned := by unfold State.updGrid; split <;> rfl
@[simp] theorem State.updGrid_loose (s : State) (n : Nat) (f : Grid → Grid) : (s.updGrid n f).loose = s.loose := by unfold State.updGrid; split <;> rfl
@[simp] theorem State.updGrid_l2 (s : State) (n : Nat) (f : Grid → Grid) : (s.updGrid n f).l2 = s.l2 := by unfold State.updGrid; split <;> rfl
@[simp] theorem State.updGrid_dir (s : State) (n : Nat) (f : Grid → Grid) : (s.updGrid n f).dir = s.dir := by unfold State.updGrid; split <;> rfl
@[simp] theorem State.updGrid_filters (s : State) (n : Nat) (f : Grid → Grid) : (s.updGrid n f).filters = s.filters := by unfold State.updGrid; split <;> rfl
@[simp] theorem State.updGrid_l2bad (s : State) (n : Nat) (f : Grid → Grid) : (s.updGrid n f).l2bad = s.l2bad := by unfold State.updGrid; split <;> rfl
@[simp] theorem State.updGrid_stackBad (s : State) (n : Nat) (f : Grid → Grid) : (s.updGrid n f).stackBad = s.stackBad := by unfold State.updGrid; split <;> rfl
@[simp] theorem State.updGrid_hostMem (s : State) (n : Nat) (f : Grid → Grid) : (s.updGrid n f).hostMem = s.hostMem := by unfold State.updGrid; split <;> rfl
@[simp] theorem State.updGrid_hostPoison (s : State) (n : Nat) (f : Grid → Grid) : (s.updGrid n f).hostPoison = s.hostPoison := by unfold State.updGrid; split <;> rfl
@[simp] theorem State.updGrid_hostL2 (s : State) (n : Nat) (f : Grid → Grid) : (s.updGrid n f).hostL2 = s.hostL2 := by unfold State.updGrid; split <;> rfl
@[simp] theorem State.updGrid_hitch (s : State) (n : Nat) (f : Grid → Grid) : (s.updGrid n f).hitch = s.hitch := by unfold State.updGrid; split <;> rfl
@[simp] theorem State.updGrid_spill (s : State) (n : Nat) (f : Grid → Grid) : (s.updGrid n f).spill = s.spill := by unfold State.updGrid; split <;> rfl
@[simp] theorem State.updGrid_landau (s : State) (n : Nat) (f : Grid → Grid) : (s.updGrid n f).landau = s.landau := by unfold State.updGrid; split <;> rfl
@[simp] theorem State.updGrid_views (s : State) (n : Nat) (f : Grid → Grid) : (s.updGrid n f).views = s.views := by unfold State.updGrid; split <;> rfl
@[simp] theorem State.updGrid_plays (s : State) (n : Nat) (f : Grid → Grid) : (s.updGrid n f).plays = s.plays := by unfold State.updGrid; split <;> rfl
@[simp] theorem State.updGrid_peers (s : State) (n : Nat) (f : Grid → Grid) : (s.updGrid n f).peers = s.peers := by unfold State.updGrid; split <;> rfl
@[simp] theorem State.updGrid_windows (s : State) (n : Nat) (f : Grid → Grid) : (s.updGrid n f).windows = s.windows := by unfold State.updGrid; split <;> rfl
@[simp] theorem State.updGrid_mcLeaf (s : State) (n : Nat) (f : Grid → Grid) : (s.updGrid n f).mcLeaf = s.mcLeaf := by unfold State.updGrid; split <;> rfl
@[simp] theorem State.updGrid_mcSpine (s : State) (n : Nat) (f : Grid → Grid) : (s.updGrid n f).mcSpine = s.mcSpine := by unfold State.updGrid; split <;> rfl
@[simp] theorem State.updGrid_portDown (s : State) (n : Nat) (f : Grid → Grid) : (s.updGrid n f).portDown = s.portDown := by unfold State.updGrid; split <;> rfl
@[simp] theorem State.updGrid_fabNext (s : State) (n : Nat) (f : Grid → Grid) : (s.updGrid n f).fabNext = s.fabNext := by unfold State.updGrid; split <;> rfl
@[simp] theorem State.updGrid_fabEarly (s : State) (n : Nat) (f : Grid → Grid) : (s.updGrid n f).fabEarly = s.fabEarly := by unfold State.updGrid; split <;> rfl
@[simp] theorem State.updGrid_mcSeq (s : State) (n : Nat) (f : Grid → Grid) : (s.updGrid n f).mcSeq = s.mcSeq := by unfold State.updGrid; split <;> rfl
@[simp] theorem State.updGrid_reds (s : State) (n : Nat) (f : Grid → Grid) : (s.updGrid n f).reds = s.reds := by unfold State.updGrid; split <;> rfl
@[simp] theorem State.updGrid_pcieDown (s : State) (n : Nat) (f : Grid → Grid) : (s.updGrid n f).pcieDown = s.pcieDown := by unfold State.updGrid; split <;> rfl
@[simp] theorem State.updGrid_vfs (s : State) (n : Nat) (f : Grid → Grid) : (s.updGrid n f).vfs = s.vfs := by unfold State.updGrid; split <;> rfl
@[simp] theorem State.updGrid_parts (s : State) (n : Nat) (f : Grid → Grid) : (s.updGrid n f).parts = s.parts := by unfold State.updGrid; split <;> rfl
@[simp] theorem State.updGrid_ctxs (s : State) (n : Nat) (f : Grid → Grid) : (s.updGrid n f).ctxs = s.ctxs := by unfold State.updGrid; split <;> rfl
@[simp] theorem State.updGrid_records (s : State) (n : Nat) (f : Grid → Grid) : (s.updGrid n f).records = s.records := by unfold State.updGrid; split <;> rfl
@[simp] theorem State.updGrid_tuples (s : State) (n : Nat) (f : Grid → Grid) : (s.updGrid n f).tuples = s.tuples := by unfold State.updGrid; split <;> rfl
@[simp] theorem State.updGrid_teams (s : State) (n : Nat) (f : Grid → Grid) : (s.updGrid n f).teams = s.teams := by unfold State.updGrid; split <;> rfl
@[simp] theorem State.updGrid_groups (s : State) (n : Nat) (f : Grid → Grid) : (s.updGrid n f).groups = s.groups := by unfold State.updGrid; split <;> rfl
@[simp] theorem State.updGrid_cores (s : State) (n : Nat) (f : Grid → Grid) : (s.updGrid n f).cores = s.cores := by unfold State.updGrid; split <;> rfl
@[simp] theorem State.updGrid_dies (s : State) (n : Nat) (f : Grid → Grid) : (s.updGrid n f).dies = s.dies := by unfold State.updGrid; split <;> rfl
@[simp] theorem State.updGrid_invals (s : State) (n : Nat) (f : Grid → Grid) : (s.updGrid n f).invals = s.invals := by unfold State.updGrid; split <;> rfl
@[simp] theorem State.updGrid_reclaims (s : State) (n : Nat) (f : Grid → Grid) : (s.updGrid n f).reclaims = s.reclaims := by unfold State.updGrid; split <;> rfl
@[simp] theorem State.updGrid_coach (s : State) (n : Nat) (f : Grid → Grid) : (s.updGrid n f).coach = s.coach := by unfold State.updGrid; split <;> rfl
@[simp] theorem State.updGrid_outbox (s : State) (n : Nat) (f : Grid → Grid) : (s.updGrid n f).outbox = s.outbox := by unfold State.updGrid; split <;> rfl
@[simp] theorem State.updGrid_agenda (s : State) (n : Nat) (f : Grid → Grid) : (s.updGrid n f).agenda = s.agenda := by unfold State.updGrid; split <;> rfl
@[simp] theorem State.updGrid_cur (s : State) (n : Nat) (f : Grid → Grid) : (s.updGrid n f).cur = s.cur := by unfold State.updGrid; split <;> rfl
@[simp] theorem State.updGrid_ages (s : State) (n : Nat) (f : Grid → Grid) : (s.updGrid n f).ages = s.ages := by unfold State.updGrid; split <;> rfl
@[simp] theorem State.updGrid_ids (s : State) (n : Nat) (f : Grid → Grid) : (s.updGrid n f).ids = s.ids := by unfold State.updGrid; split <;> rfl
@[simp] theorem State.updGrid_draws (s : State) (n : Nat) (f : Grid → Grid) : (s.updGrid n f).draws = s.draws := by unfold State.updGrid; split <;> rfl
@[simp] theorem State.updGrid_traffic (s : State) (n : Nat) (f : Grid → Grid) : (s.updGrid n f).traffic = s.traffic := by unfold State.updGrid; split <;> rfl
@[simp] theorem State.updGrid_samples (s : State) (n : Nat) (f : Grid → Grid) : (s.updGrid n f).samples = s.samples := by unfold State.updGrid; split <;> rfl
@[simp] theorem State.updGrid_acts (s : State) (n : Nat) (f : Grid → Grid) : (s.updGrid n f).acts = s.acts := by unfold State.updGrid; split <;> rfl
@[simp] theorem State.updGrid_blocked (s : State) (n : Nat) (f : Grid → Grid) : (s.updGrid n f).blocked = s.blocked := by unfold State.updGrid; split <;> rfl

/-! ### `updDie` -/

@[simp] theorem State.updDie_time (s : State) (d : Nat) (f : Die → Die) : (s.updDie d f).time = s.time := rfl
@[simp] theorem State.updDie_phase (s : State) (d : Nat) (f : Die → Die) : (s.updDie d f).phase = s.phase := rfl
@[simp] theorem State.updDie_dz860 (s : State) (d : Nat) (f : Die → Die) : (s.updDie d f).dz860 = s.dz860 := rfl
@[simp] theorem State.updDie_identity (s : State) (d : Nat) (f : Die → Die) : (s.updDie d f).identity = s.identity := rfl
@[simp] theorem State.updDie_clusterMap (s : State) (d : Nat) (f : Die → Die) : (s.updDie d f).clusterMap = s.clusterMap := rfl
@[simp] theorem State.updDie_peerNo (s : State) (d : Nat) (f : Die → Die) : (s.updDie d f).peerNo = s.peerNo := rfl
@[simp] theorem State.updDie_fw (s : State) (d : Nat) (f : Die → Die) : (s.updDie d f).fw = s.fw := rfl
@[simp] theorem State.updDie_failure (s : State) (d : Nat) (f : Die → Die) : (s.updDie d f).failure = s.failure := rfl
@[simp] theorem State.updDie_upload (s : State) (d : Nat) (f : Die → Die) : (s.updDie d f).upload = s.upload := rfl
@[simp] theorem State.updDie_health (s : State) (d : Nat) (f : Die → Die) : (s.updDie d f).health = s.health := rfl
@[simp] theorem State.updDie_mem (s : State) (d : Nat) (f : Die → Die) : (s.updDie d f).mem = s.mem := rfl
@[simp] theorem State.updDie_poisoned (s : State) (d : Nat) (f : Die → Die) : (s.updDie d f).poisoned = s.poisoned := rfl
@[simp] theorem State.updDie_loose (s : State) (d : Nat) (f : Die → Die) : (s.updDie d f).loose = s.loose := rfl
@[simp] theorem State.updDie_l2 (s : State) (d : Nat) (f : Die → Die) : (s.updDie d f).l2 = s.l2 := rfl
@[simp] theorem State.updDie_dir (s : State) (d : Nat) (f : Die → Die) : (s.updDie d f).dir = s.dir := rfl
@[simp] theorem State.updDie_filters (s : State) (d : Nat) (f : Die → Die) : (s.updDie d f).filters = s.filters := rfl
@[simp] theorem State.updDie_l2bad (s : State) (d : Nat) (f : Die → Die) : (s.updDie d f).l2bad = s.l2bad := rfl
@[simp] theorem State.updDie_stackBad (s : State) (d : Nat) (f : Die → Die) : (s.updDie d f).stackBad = s.stackBad := rfl
@[simp] theorem State.updDie_hostMem (s : State) (d : Nat) (f : Die → Die) : (s.updDie d f).hostMem = s.hostMem := rfl
@[simp] theorem State.updDie_hostPoison (s : State) (d : Nat) (f : Die → Die) : (s.updDie d f).hostPoison = s.hostPoison := rfl
@[simp] theorem State.updDie_hostL2 (s : State) (d : Nat) (f : Die → Die) : (s.updDie d f).hostL2 = s.hostL2 := rfl
@[simp] theorem State.updDie_hitch (s : State) (d : Nat) (f : Die → Die) : (s.updDie d f).hitch = s.hitch := rfl
@[simp] theorem State.updDie_spill (s : State) (d : Nat) (f : Die → Die) : (s.updDie d f).spill = s.spill := rfl
@[simp] theorem State.updDie_landau (s : State) (d : Nat) (f : Die → Die) : (s.updDie d f).landau = s.landau := rfl
@[simp] theorem State.updDie_views (s : State) (d : Nat) (f : Die → Die) : (s.updDie d f).views = s.views := rfl
@[simp] theorem State.updDie_plays (s : State) (d : Nat) (f : Die → Die) : (s.updDie d f).plays = s.plays := rfl
@[simp] theorem State.updDie_peers (s : State) (d : Nat) (f : Die → Die) : (s.updDie d f).peers = s.peers := rfl
@[simp] theorem State.updDie_windows (s : State) (d : Nat) (f : Die → Die) : (s.updDie d f).windows = s.windows := rfl
@[simp] theorem State.updDie_mcLeaf (s : State) (d : Nat) (f : Die → Die) : (s.updDie d f).mcLeaf = s.mcLeaf := rfl
@[simp] theorem State.updDie_mcSpine (s : State) (d : Nat) (f : Die → Die) : (s.updDie d f).mcSpine = s.mcSpine := rfl
@[simp] theorem State.updDie_portDown (s : State) (d : Nat) (f : Die → Die) : (s.updDie d f).portDown = s.portDown := rfl
@[simp] theorem State.updDie_fabNext (s : State) (d : Nat) (f : Die → Die) : (s.updDie d f).fabNext = s.fabNext := rfl
@[simp] theorem State.updDie_fabEarly (s : State) (d : Nat) (f : Die → Die) : (s.updDie d f).fabEarly = s.fabEarly := rfl
@[simp] theorem State.updDie_mcSeq (s : State) (d : Nat) (f : Die → Die) : (s.updDie d f).mcSeq = s.mcSeq := rfl
@[simp] theorem State.updDie_reds (s : State) (d : Nat) (f : Die → Die) : (s.updDie d f).reds = s.reds := rfl
@[simp] theorem State.updDie_pcieDown (s : State) (d : Nat) (f : Die → Die) : (s.updDie d f).pcieDown = s.pcieDown := rfl
@[simp] theorem State.updDie_vfs (s : State) (d : Nat) (f : Die → Die) : (s.updDie d f).vfs = s.vfs := rfl
@[simp] theorem State.updDie_parts (s : State) (d : Nat) (f : Die → Die) : (s.updDie d f).parts = s.parts := rfl
@[simp] theorem State.updDie_ctxs (s : State) (d : Nat) (f : Die → Die) : (s.updDie d f).ctxs = s.ctxs := rfl
@[simp] theorem State.updDie_records (s : State) (d : Nat) (f : Die → Die) : (s.updDie d f).records = s.records := rfl
@[simp] theorem State.updDie_grids (s : State) (d : Nat) (f : Die → Die) : (s.updDie d f).grids = s.grids := rfl
@[simp] theorem State.updDie_tuples (s : State) (d : Nat) (f : Die → Die) : (s.updDie d f).tuples = s.tuples := rfl
@[simp] theorem State.updDie_teams (s : State) (d : Nat) (f : Die → Die) : (s.updDie d f).teams = s.teams := rfl
@[simp] theorem State.updDie_groups (s : State) (d : Nat) (f : Die → Die) : (s.updDie d f).groups = s.groups := rfl
@[simp] theorem State.updDie_cores (s : State) (d : Nat) (f : Die → Die) : (s.updDie d f).cores = s.cores := rfl
@[simp] theorem State.updDie_invals (s : State) (d : Nat) (f : Die → Die) : (s.updDie d f).invals = s.invals := rfl
@[simp] theorem State.updDie_reclaims (s : State) (d : Nat) (f : Die → Die) : (s.updDie d f).reclaims = s.reclaims := rfl
@[simp] theorem State.updDie_coach (s : State) (d : Nat) (f : Die → Die) : (s.updDie d f).coach = s.coach := rfl
@[simp] theorem State.updDie_outbox (s : State) (d : Nat) (f : Die → Die) : (s.updDie d f).outbox = s.outbox := rfl
@[simp] theorem State.updDie_agenda (s : State) (d : Nat) (f : Die → Die) : (s.updDie d f).agenda = s.agenda := rfl
@[simp] theorem State.updDie_cur (s : State) (d : Nat) (f : Die → Die) : (s.updDie d f).cur = s.cur := rfl
@[simp] theorem State.updDie_ages (s : State) (d : Nat) (f : Die → Die) : (s.updDie d f).ages = s.ages := rfl
@[simp] theorem State.updDie_ids (s : State) (d : Nat) (f : Die → Die) : (s.updDie d f).ids = s.ids := rfl
@[simp] theorem State.updDie_draws (s : State) (d : Nat) (f : Die → Die) : (s.updDie d f).draws = s.draws := rfl
@[simp] theorem State.updDie_traffic (s : State) (d : Nat) (f : Die → Die) : (s.updDie d f).traffic = s.traffic := rfl
@[simp] theorem State.updDie_samples (s : State) (d : Nat) (f : Die → Die) : (s.updDie d f).samples = s.samples := rfl
@[simp] theorem State.updDie_acts (s : State) (d : Nat) (f : Die → Die) : (s.updDie d f).acts = s.acts := rfl
@[simp] theorem State.updDie_blocked (s : State) (d : Nat) (f : Die → Die) : (s.updDie d f).blocked = s.blocked := rfl

/-! ### The parts themselves -/

@[simp] theorem State.find_updGrp (s : State) (g h : Nat) (f : Group → Group) :
    Map.find (s.updGrp g f).groups h = if h = g then (Map.find s.groups g).map f else Map.find s.groups h := by
  unfold State.updGrp
  split
  · rename_i e
    by_cases hh : h = g
    · subst hh; simp [e]
    · simp [hh]
  · rename_i x e
    simp only [Map.find_put, e, Option.map_some]

theorem State.grp_of_find {s : State} {g : Nat} {x : Group} (h : Map.find s.groups g = some x) : s.grp g = x := by
  simp [State.grp, h]

@[simp] theorem State.grp_updGrp_ne (s : State) {g h : Nat} (f : Group → Group) (e : h ≠ g) : (s.updGrp g f).grp h = s.grp h := by
  simp [State.grp, e]

theorem State.grp_updGrp_self {s : State} {g : Nat} {x : Group} (f : Group → Group) (h : Map.find s.groups g = some x) :
    (s.updGrp g f).grp g = f x := by
  simp [State.grp, h]

@[simp] theorem State.coreOf_updCore (s : State) (k j : Nat) (f : Core → Core) :
    (s.updCore k f).coreOf j = if j = k then f (s.coreOf k) else s.coreOf j := by
  simp only [State.coreOf, State.updCore, Map.find_put]
  split <;> simp_all

@[simp] theorem State.find_updCtx (s : State) (n m : Nat) (f : Ctx → Ctx) :
    Map.find (s.updCtx n f).ctxs m = if m = n then (Map.find s.ctxs n).map f else Map.find s.ctxs m := by
  unfold State.updCtx
  split
  · rename_i e
    by_cases hh : m = n
    · subst hh; simp [e]
    · simp [hh]
  · rename_i x e
    simp only [Map.find_put, e, Option.map_some]

@[simp] theorem State.find_updGrid (s : State) (n m : Nat) (f : Grid → Grid) :
    Map.find (s.updGrid n f).grids m = if m = n then (Map.find s.grids n).map f else Map.find s.grids m := by
  unfold State.updGrid
  split
  · rename_i e
    by_cases hh : m = n
    · subst hh; simp [e]
    · simp [hh]
  · rename_i x e
    simp only [Map.find_put, e, Option.map_some]

@[simp] theorem State.find_updTeam (s : State) (n m : Nat) (f : Team → Team) :
    Map.find (s.updTeam n f).teams m = if m = n then (Map.find s.teams n).map f else Map.find s.teams m := by
  unfold State.updTeam
  split
  · rename_i e
    by_cases hh : m = n
    · subst hh; simp [e]
    · simp [hh]
  · rename_i x e
    simp only [Map.find_put, e, Option.map_some]

@[simp] theorem State.dieAt_updDie (s : State) (d e : Nat) (f : Die → Die) :
    (s.updDie d f).dieAt e = if e = d then f (s.dieAt d) else s.dieAt e := by
  simp only [State.dieAt, State.updDie, Map.modify, Map.get, Map.find_put]
  split <;> simp_all

@[simp] theorem Group.split_setSplit_self (x : Group) (k : Nat) (sp : Option Split) : (x.setSplit k sp).split k = sp := by
  unfold Group.setSplit Group.split
  by_cases h : k == 0 <;> simp [h]

@[simp] theorem Group.split_updSplit_self (x : Group) (k : Nat) (f : Split → Split) : (x.updSplit k f).split k = (x.split k).map f := by
  simp [Group.updSplit]

end Sys2Proof.Machine
end

