-- ==== Sys2Proof/Laws/Memory.lean ====
section
/-! SUPPORT. The memory operations: each keeps the canonical form, a byte written is read back, and every other byte stays. -/
namespace Sys2Proof.Machine

/-! ### Cells -/

/-- A write of bytes keeps the canonical form. -/
theorem setCells_wf (m : List Host.Cell) (base : Nat) (bs : List (Nat × Byte)) (h : Memory.wf m = true) : Memory.wf (setCells m base bs) = true := by
  induction bs generalizing m with
  | nil => exact h
  | cons b bs ih => exact ih _ (Map.wf_set Memory.unlisted m _ _ h)

/-- A byte that a write does not name keeps its value. -/
theorem setCells_other (m : List Host.Cell) (base : Nat) (bs : List (Nat × Byte)) (a : Nat) (h : ∀ b ∈ bs, base + b.1 ≠ a) :
    Map.get Memory.unlisted (setCells m base bs) a = Map.get Memory.unlisted m a := by
  induction bs generalizing m with
  | nil => rfl
  | cons b bs ih =>
    have e : setCells m base (b :: bs) = setCells (Map.set Memory.unlisted m (base + b.1) b.2) base bs := rfl
    rw [e, ih _ (fun c hc => h c (List.mem_cons_of_mem _ hc)), Map.get_set, if_neg (fun q => h b (List.mem_cons_self ..) q.symm)]

/-- A byte that a write names once reads as it was written. -/
theorem setCells_self (m : List Host.Cell) (base : Nat) (bs : List (Nat × Byte)) (b : Nat × Byte) (hb : b ∈ bs)
    (h : bs.Pairwise (fun x y => x.1 ≠ y.1)) : Map.get Memory.unlisted (setCells m base bs) (base + b.1) = b.2 := by
  induction bs generalizing m with
  | nil => cases hb
  | cons c bs ih =>
    rw [List.pairwise_cons] at h
    have e : setCells m base (c :: bs) = setCells (Map.set Memory.unlisted m (base + c.1) c.2) base bs := rfl
    rw [e]
    rcases List.mem_cons.1 hb with rfl | hb
    · rw [setCells_other _ _ _ _ (fun d hd q => h.1 d hd (by omega)), Map.get_set_self]
    · exact ih _ hb h.2

/-- Two canonical memories that read alike at every address are equal. -/
theorem Memory.ext (m n : List Host.Cell) (hm : Memory.wf m = true) (hn : Memory.wf n = true)
    (h : ∀ a, Map.get Memory.unlisted m a = Map.get Memory.unlisted n a) : m = n := Map.wf_ext _ m n hm hn h

/-! ### The operations that write memory -/

/-- Both memories stand as they were. -/
def MemEq (s t : State) : Prop := t.mem = s.mem ∧ t.hostMem = s.hostMem

theorem MemEq.refl (s : State) : MemEq s s := ⟨rfl, rfl⟩
theorem MemEq.trans {s t u : State} (a : MemEq s t) (b : MemEq t u) : MemEq s u := ⟨b.1.trans a.1, b.2.trans a.2⟩
theorem MemEq.wf {s t : State} (a : MemEq s t) (h : CanonicalMemory s) : CanonicalMemory t := by
  unfold CanonicalMemory; rw [a.1, a.2]; exact h
theorem MemEq.fold {α : Type} (f : State → α → State) (h : ∀ s x, MemEq s (f s x)) (l : List α) : ∀ s, MemEq s (l.foldl f s) := by
  induction l with
  | nil => intro s; exact MemEq.refl s
  | cons x l ih => intro s; exact (h s x).trans (ih _)

theorem updCore_mem (s : State) (k : Nat) (f : Core → Core) : MemEq s (s.updCore k f) := ⟨rfl, rfl⟩
theorem updDie_mem (s : State) (d : Nat) (f : Die → Die) : MemEq s (s.updDie d f) := ⟨rfl, rfl⟩
theorem updGrp_mem (s : State) (g : Nat) (f : Group → Group) : MemEq s (s.updGrp g f) := ⟨by simp, by simp⟩
theorem updCtx_mem (s : State) (c : Nat) (f : Ctx → Ctx) : MemEq s (s.updCtx c f) := ⟨by simp, by simp⟩
theorem updTeam_mem (s : State) (t : Nat) (f : Team → Team) : MemEq s (s.updTeam t f) := ⟨by simp, by simp⟩
theorem updGrid_mem (s : State) (n : Nat) (f : Grid → Grid) : MemEq s (s.updGrid n f) := ⟨by simp, by simp⟩

/-- Device memory stands as it was, and host memory keeps its canonical form: a line that leaves L2 may be written back to its host. -/
def MemKept (s t : State) : Prop := t.mem = s.mem ∧ (Memory.wf s.hostMem = true → Memory.wf t.hostMem = true)

theorem MemEq.kept {s t : State} (a : MemEq s t) : MemKept s t := ⟨a.1, fun h => by rw [a.2]; exact h⟩
theorem MemKept.refl (s : State) : MemKept s s := ⟨rfl, id⟩
theorem MemKept.trans {s t u : State} (a : MemKept s t) (b : MemKept t u) : MemKept s u := ⟨b.1.trans a.1, fun h => b.2 (a.2 h)⟩
theorem MemKept.wf {s t : State} (a : MemKept s t) (h : CanonicalMemory s) : CanonicalMemory t := ⟨by rw [a.1]; exact h.1, a.2 h.2⟩
theorem MemKept.fold {α : Type} (f : State → α → State) (h : ∀ s x, MemKept s (f s x)) (l : List α) : ∀ s, MemKept s (l.foldl f s) := by
  induction l with
  | nil => intro s; exact MemKept.refl s
  | cons x l ih => intro s; exact (h s x).trans (ih _)

/-! ### The caches hold no bytes (log entry 40) -/

theorem block_mem (s : State) (ds : List Nat) (line : Nat) : MemEq s (s.block ds line) := by
  unfold State.block
  split <;> exact ⟨rfl, rfl⟩
theorem l1Inval_mem (s : State) (sec : Nat) (p : Nat → Bool) : MemEq s (s.l1Inval sec p) := by
  unfold State.l1Inval
  exact (block_mem s _ _).trans ⟨rfl, rfl⟩
theorem filterDrop_mem (s : State) (region sb : Nat) : MemEq s (s.filterDrop region sb) := by
  unfold State.filterDrop
  exact (block_mem s _ _).trans ⟨rfl, rfl⟩
theorem flushL1_mem (s : State) (d : Nat) : MemEq s (s.flushL1 d) := ⟨rfl, rfl⟩
theorem syncDir_mem (s : State) (line : Nat) : MemEq s (s.syncDir line) := ⟨rfl, rfl⟩
theorem l2Drop_mem (s : State) (region line : Nat) : MemEq s (s.l2Drop region line) := by
  unfold State.l2Drop
  split
  · exact MemEq.refl s
  · simp only
    refine MemEq.trans ?_ (syncDir_mem _ line)
    refine MemEq.trans ?_ (l1Inval_mem _ (2 * line + 1) (fun c => regionOf c == region))
    refine MemEq.trans ?_ (l1Inval_mem _ (2 * line) (fun c => regionOf c == region))
    exact ⟨rfl, rfl⟩
theorem l2DropAll_mem (s : State) (line : Nat) : MemEq s (s.l2DropAll line) := by
  unfold State.l2DropAll
  exact MemEq.fold _ (fun s h => l2Drop_mem s _ line) _ s
theorem dropErrors_mem (s : State) (sec : Nat) : MemEq s (s.dropErrors sec) := ⟨rfl, rfl⟩
theorem dropCopies_mem (s : State) (sec : Nat) : MemEq s (s.dropCopies sec) := by
  unfold State.dropCopies
  simp only
  split
  · exact (dropErrors_mem s sec).trans (l1Inval_mem _ _ _)
  · refine MemEq.trans ?_ (MemEq.trans (l1Inval_mem _ _ _) (syncDir_mem _ _))
    refine (dropErrors_mem s sec).trans ?_
    apply MemEq.fold
    intro s h
    exact ⟨rfl, rfl⟩
theorem l2Clean_mem (s : State) (sec : Nat) : MemEq s (s.l2Clean sec) := by
  unfold State.l2Clean
  simp only
  refine MemEq.trans (t := { s with l2bad := _, hostL2 := _ }) ⟨rfl, rfl⟩ (MemEq.fold _ (fun s h => ?_) _ _)
  split
  · exact MemEq.refl s
  · exact MemEq.trans ⟨rfl, rfl⟩ (syncDir_mem _ _)

/-- A write back to a host leaves device memory, and keeps host memory's canonical form. -/
theorem writeBack_kept (s : State) (k : Nat) : MemKept s (s.writeBack k) := by
  unfold State.writeBack
  split
  · exact MemKept.refl s
  · split
    · exact MemKept.refl s
    · dsimp only
      split
      · exact ⟨rfl, fun h => setCells_wf _ _ _ h⟩
      · split
        · exact ⟨rfl, id⟩
        · exact ⟨rfl, id⟩
        · exact ⟨rfl, fun h => setCells_wf _ _ _ h⟩
theorem hostLeave_kept (s : State) (region k : Nat) : MemKept s (s.hostLeave region k) := by
  unfold State.hostLeave
  split
  · exact MemKept.refl s
  · rename_i l _
    dsimp only
    have w : MemKept s (if l.owner == region || l.regions &&& ~~~(BitVec.ofNat 8 (2 ^ region)) == 0 then s.writeBack k else s) := by
      split
      · exact writeBack_kept s k
      · exact MemKept.refl s
    split
    · exact w
    · split
      · split
        · exact w.trans ⟨rfl, id⟩
        · exact w
      · exact w.trans ⟨rfl, id⟩
theorem l2Leave_kept (s : State) (region line : Nat) : MemKept s (s.l2Leave region line) := by
  unfold State.l2Leave
  split
  · exact (hostLeave_kept s _ _).trans (hostLeave_kept _ _ _)
  · exact (l2Drop_mem s _ _).kept
theorem l2Room_kept (s : State) (region line : Nat) : MemKept s (s.l2Room region line) := by
  unfold State.l2Room
  split
  · exact MemKept.refl s
  · simp only
    split
    · exact MemKept.refl s
    · exact MemKept.fold _ (fun s l => l2Leave_kept s _ _) _ _
theorem l2Fill_kept (s : State) (region sec : Nat) : MemKept s (s.l2Fill region sec) := by
  unfold State.l2Fill
  simp only
  refine (l2Room_kept s region (lineOf sec)).trans ?_
  split
  · exact MemKept.refl _
  · split
    · split
      · exact MemKept.refl _
      · exact ⟨rfl, id⟩
    · refine MemEq.kept (MemEq.trans (MemEq.fold _ (fun s h => ?_) _ _) (MemEq.trans ⟨rfl, rfl⟩ (syncDir_mem _ _)))
      exact ⟨rfl, rfl⟩
theorem l2Own_kept (s : State) (region sec : Nat) (wrote : Bool) : MemKept s (s.l2Own region sec wrote) := by
  unfold State.l2Own
  simp only
  refine (l2Room_kept s region (lineOf sec)).trans ?_
  split
  · exact MemKept.refl _
  · refine MemEq.kept (MemEq.trans ?_ (MemEq.trans ⟨rfl, rfl⟩ (syncDir_mem _ _)))
    exact MemEq.fold _ (fun s h => l2Drop_mem s _ _) _ _
theorem l1Take_mem (s : State) (core sec pick : Nat) (l1 : Bool) : MemEq s (s.l1Take core sec pick l1) := by
  unfold State.l1Take
  split
  · exact MemEq.refl s
  · exact ⟨rfl, rfl⟩
theorem evict_mem (s : State) (e : Evict) : MemEq s (evict s e) := by
  cases e
  · exact ⟨rfl, rfl⟩
  · exact l2Drop_mem _ _ _
  · exact l2DropAll_mem _ _
  · exact filterDrop_mem _ _ _
theorem spillLine_mem (s : State) (region line : Nat) (landau : Bool) : MemEq s (spillLine s region line landau) := ⟨rfl, rfl⟩
theorem hitchLeave_mem (s : State) (line : Nat) : MemEq s (hitchLeave s line) := ⟨rfl, rfl⟩
theorem hitchTouch_mem (s : State) (line : Nat) : MemEq s (hitchTouch s line) := by
  unfold hitchTouch
  simp only
  refine (l2DropAll_mem s line).trans ?_
  split
  · exact ⟨rfl, rfl⟩
  · split
    · exact MemEq.trans ⟨rfl, rfl⟩ (spillLine_mem _ _ _ _)
    · exact ⟨rfl, rfl⟩
theorem landauTouch_mem (s : State) (region sec : Nat) : MemEq s (landauTouch s region sec) := by
  unfold landauTouch
  simp only
  refine (l2DropAll_mem s (lineOf sec)).trans ((hitchLeave_mem _ (lineOf sec)).trans ?_)
  split
  · exact MemEq.refl _
  · split
    · exact MemEq.trans ⟨rfl, rfl⟩ (spillLine_mem _ _ _ _)
    · exact ⟨rfl, rfl⟩
theorem passLine_mem (s : State) (line : Nat) : MemEq s (s.passLine line) := by
  unfold State.passLine
  simp only
  split <;> exact ⟨rfl, rfl⟩
theorem touchAt_kept (s : State) (core view scope : Nat) (p : Place) : MemKept s (touchAt s core view scope p) := by
  unfold touchAt
  split
  · rename_i k
    simp only
    refine (passLine_mem s (k / 64)).kept.trans ?_
    split
    · exact (hitchTouch_mem _ _).kept
    · refine (hitchLeave_mem (s.passLine (k / 64)) (lineOf (tagged (liveView s.views 1024 view) (k / 32)))).kept.trans ?_
      split
      · exact MemKept.refl _
      · exact l2Own_kept _ _ _ _
  · exact MemKept.refl s
theorem countSector_mem (s : State) (x : Group) (p : Place) : MemEq s (s.countSector x p) := by
  unfold State.countSector
  split
  · unfold State.countBytes
    split <;> exact ⟨rfl, rfl⟩
  · exact MemEq.refl s

/-- A copy that a core's own L1 keeps holds no bytes. -/
theorem keepL1_mem (b : Bool) (s : State) (k : Nat) (f : Core → Core) : MemEq s (if b then s.updCore k f else s) := by
  split
  · exact updCore_mem _ _ _
  · exact MemEq.refl s
theorem wroteBy_kept (b s : State) (x : Group) (view : Nat) (p : Place) : MemKept s (wroteBy b s x view p) := by
  unfold wroteBy
  simp only
  refine (countSector_mem s x p).kept.trans ?_
  split
  · exact (l2Own_kept _ _ _ _).trans (keepL1_mem _ _ _ _).kept
  · rename_i port pa
    refine (l2Room_kept _ (regionOf x.core) (lineOf (hostSec (hostKey port pa / 32)))).trans ?_
    split
    · refine MemKept.trans (t := { (s.countSector x (.host port pa)).l2Room (regionOf x.core) (lineOf (hostSec (hostKey port pa / 32))) with hostL2 := _ }) ⟨rfl, id⟩ ?_
      exact (keepL1_mem _ _ _ _).kept
    · exact MemKept.refl _
  · exact MemKept.refl _

theorem holdSnoop_mem (s : State) (line writer d : Nat) : MemEq s (holdSnoop s line writer d) := by
  unfold holdSnoop
  split <;> exact ⟨rfl, rfl⟩

/-- A snoop writes no memory. -/
theorem snoop_mem (s : State) (line : Nat) : MemEq s (snoop s line) := by
  unfold snoop
  simp only
  split
  · exact (block_mem s _ line).trans ⟨rfl, rfl⟩
  · exact (block_mem s _ line).trans ⟨rfl, rfl⟩

/-- A root sector set whole keeps both memories in their canonical form. -/
theorem putRoot_wf (s : State) (k : Nat) (x : Sector) (h : CanonicalMemory s) : CanonicalMemory (s.putRoot k x) := ⟨setCells_wf _ _ _ h.1, h.2⟩

theorem updView_mem (s : State) (v : Nat) (f : View → View) : MemEq s (s.updView v f) := by
  unfold State.updView
  split <;> exact ⟨rfl, rfl⟩

theorem stamp_wf (s : State) (k : Nat) (t : Word) (h : CanonicalMemory s) : CanonicalMemory (s.stamp k t) := by
  unfold State.stamp
  simp only
  refine (dropErrors_mem _ k).wf ?_
  split
  · split
    · exact h
    · exact h
  · split
    · exact putRoot_wf s _ _ h
    · exact (updView_mem s _ _).wf h

/-- A root write changes device memory by its sector's 32 bytes. -/
theorem writeRoot_mem (s : State) (k : Nat) (bs : List (Nat × Byte)) (token : Option Word) :
    (s.writeRoot k bs token).mem =
      setCells s.mem (32 * k) ((List.range 32).map (fun i => (i, BitVec.ofNat 8 (bits ((s.baseSector k).write bs token).data (8 * i) 8)))) ∧
    (s.writeRoot k bs token).hostMem = s.hostMem := by
  have h := (dropCopies_mem (s.putRoot k ((s.baseSector k).write bs token)) k).trans (snoop_mem _ (lineOf k))
  unfold State.writeRoot
  exact ⟨h.1, h.2⟩

/-- A root write keeps both memories in their canonical form. -/
theorem writeRoot_wf (s : State) (k : Nat) (bs : List (Nat × Byte)) (token : Option Word) (h : CanonicalMemory s) :
    CanonicalMemory (s.writeRoot k bs token) := by
  unfold CanonicalMemory
  rw [(writeRoot_mem s k bs token).1, (writeRoot_mem s k bs token).2]
  exact ⟨setCells_wf _ _ _ h.1, h.2⟩

/-- A byte of another sector keeps its value across a root write. -/
theorem writeRoot_other (s : State) (k : Nat) (bs : List (Nat × Byte)) (token : Option Word) (a : Nat) (h : a / 32 ≠ k) :
    Map.get Memory.unlisted (s.writeRoot k bs token).mem a = Map.get Memory.unlisted s.mem a := by
  rw [(writeRoot_mem s k bs token).1]
  refine setCells_other _ _ _ _ (fun b hb q => h ?_)
  obtain ⟨i, hi, rfl⟩ := List.mem_map.1 hb
  have : i < 32 := List.mem_range.1 hi
  simp only at q
  omega

/-- A write back to a host keeps both memories in their canonical form. -/
theorem writeBack_wf (s : State) (k : Nat) (h : CanonicalMemory s) : CanonicalMemory (s.writeBack k) := (writeBack_kept s k).wf h

/-- A device write to host memory goes to L2, and writes no memory. -/
theorem writeHost_mem (s : State) (ctx k : Nat) (bs : List (Nat × Byte)) (token : Option Word) : MemEq s (s.writeHost ctx k bs token) := by
  unfold State.writeHost
  simp only
  refine MemEq.trans ((dropErrors_mem s (hostSec k)).trans (l1Inval_mem _ (hostSec k) (fun _ => true))) ⟨rfl, rfl⟩

/-- A scratchpad write writes no memory. -/
theorem writeScr_mem (s : State) (t : Nat) (bs : List (Nat × Byte)) (token : Option Word) : MemEq s (s.writeScr t bs token) := by
  unfold State.writeScr State.updTeam
  dsimp only
  split <;> exact ⟨rfl, rfl⟩

/-- A write in a view keeps both memories in their canonical form. -/
theorem writeDev_wf (s : State) (v k : Nat) (bs : List (Nat × Byte)) (token : Option Word) (h : CanonicalMemory s) (t : State)
    (e : s.writeDev v k bs token = some t) : CanonicalMemory t := by
  unfold State.writeDev at e
  dsimp only at e
  split at e
  · cases e; exact writeRoot_wf s k bs token h
  · split at e
    · cases e; exact h
    · split at e
      · cases e; exact h
      · split at e
        · cases e; exact (dropCopies_mem _ _).wf h
        · split at e
          · cases e
          · cases e; exact (dropCopies_mem _ _).wf h

/-- Bytes performed at a place keep both memories in their canonical form. -/
theorem performBytes_wf (s : State) (ctx v key : Nat) (p : Place) (bs : List (Nat × Byte)) (token : Option Word) (h : CanonicalMemory s) :
    CanonicalMemory (performBytes s ctx v key p bs token).1 := by
  unfold performBytes
  split
  · rename_i k
    cases e : s.writeDev v (k / 32) bs token with
    | none => exact h
    | some t => exact writeDev_wf s v _ bs token h t e
  · exact (writeHost_mem _ _ _ _ _).wf h
  · unfold CanonicalMemory
    rw [(writeScr_mem _ _ _ _).1, (writeScr_mem _ _ _ _).2]
    exact h
  · split
    · exact h
    · split
      · split
        · exact writeRoot_wf s _ bs token h
        · exact h
      · exact h

/-- A read-modify-write keeps both memories in their canonical form. -/
theorem performAtomic_wf (s : State) (x : Group) (v key : Nat) (p : Place) (aop size a b : Nat) (vt : Option Word) (h : CanonicalMemory s) :
    CanonicalMemory (performAtomic s x v key p aop size a b vt).1 := by
  unfold performAtomic
  dsimp only
  split
  · split
    · exact h
    · split
      · exact h
      · split
        · rename_i pt a _
          have w := writeBack_wf s
          split
          · exact w _ h
          · split
            · exact w _ h
            · have u := (l1Inval_mem (s.writeBack (hostKey pt a / 32)) (hostSec (hostKey pt a / 32)) (fun _ => true)).wf (w _ h)
              exact ⟨u.1, setCells_wf _ _ _ u.2⟩
        · exact h
  · split
    · exact h
    · split
      · split
        · exact h
        · rename_i k _
          have u := (hitchTouch_mem _ (k / 64)).wf ((passLine_mem s (k / 64)).wf h)
          split
          · exact u
          · split
            · exact u
            · exact writeRoot_wf _ _ _ none u
      · split
        · exact h
        · exact h
  · split
    · split
      · exact h
      · rename_i r _
        have w := performBytes_wf s x.ctx v key (sectorBase p).1 (plainBytes (bytesAt (sectorBase p).2 size r 0)) none h
        split
        · rename_i e; rw [e] at w; exact w
        · rename_i e; rw [e] at w; exact w
    · exact h
    · exact h

/-- Bytes put at a device address keep both memories in their canonical form. -/
theorem writePa_wf (s : State) (pa n v : Nat) (h : CanonicalMemory s) : CanonicalMemory (writePa s pa n v) := by
  unfold writePa
  split
  · exact ⟨setCells_wf _ _ _ h.1, h.2⟩
  · exact h

/-- Reset memory lists nothing, and has the canonical form. -/
theorem reset_wf : CanonicalMemory State.reset := ⟨rfl, rfl⟩

end Sys2Proof.Machine
end

