-- ==== Sys2Proof/Laws/PerInstr.lean ====
section
/-! SUPPORT. Statements made for every instruction, one lemma for each constructor. RoundTrip: a well-formed instruction that has a
code is what the decoder reads from that code (R69 to R88). -/
namespace Sys2Proof.Laws.RoundTrip

-- one proof at a time: each reads the same large matches
set_option Elab.async false
set_option linter.unusedSimpArgs false
set_option linter.unusedVariables false

/-- What the encoder writes for a well-formed instruction, the decoder reads back. -/
def Statement (i : Instr) : Prop := i.wf = true → ∀ c, encode i = some c → decodeWord c.cls c.word c.x = some i

theorem vadd : ∀ w x, Statement (.vadd w x) := by
  intro w x hw c h
  cases (h : some _ = some c)
  have e : decodeWord .alu (WA.word 0 w) (x.map XMod.word) = optX (x.map XMod.word) (.vadd (WA.of (WA.word 0 w))) := by
    unfold decodeWord decodeAlu
    rw [WA.op_word]
    rfl
  rw [e, WA.of_word]
  cases x <;> simp [optX]

theorem vsub : ∀ w x, Statement (.vsub w x) := by
  intro w x hw c h
  cases (h : some _ = some c)
  have e : decodeWord .alu (WA.word 1 w) (x.map XMod.word) = optX (x.map XMod.word) (.vsub (WA.of (WA.word 1 w))) := by
    unfold decodeWord decodeAlu
    rw [WA.op_word]
    rfl
  rw [e, WA.of_word]
  cases x <;> simp [optX]

theorem vmul : ∀ w x, Statement (.vmul w x) := by
  intro w x hw c h
  cases (h : some _ = some c)
  have e : decodeWord .alu (WA.word 2 w) (x.map XMod.word) = optX (x.map XMod.word) (.vmul (WA.of (WA.word 2 w))) := by
    unfold decodeWord decodeAlu
    rw [WA.op_word]
    rfl
  rw [e, WA.of_word]
  cases x <;> simp [optX]

theorem vmulh : ∀ w x, Statement (.vmulh w x) := by
  intro w x hw c h
  cases (h : some _ = some c)
  have e : decodeWord .alu (WA.word 3 w) (x.map XMod.word) = optX (x.map XMod.word) (.vmulh (WA.of (WA.word 3 w))) := by
    unfold decodeWord decodeAlu
    rw [WA.op_word]
    rfl
  rw [e, WA.of_word]
  cases x <;> simp [optX]

theorem vmad : ∀ w x, Statement (.vmad w x) := by
  intro w x hw c h
  cases (h : some _ = some c)
  have e : decodeWord .alu (WA.word 4 w) (some x.word) = mustX XMod.of (some x.word) (.vmad (WA.of (WA.word 4 w))) := by
    unfold decodeWord decodeAlu
    rw [WA.op_word]
    rfl
  rw [e, WA.of_word]
  simp [optL, mustX, noX]

theorem vand : ∀ w x, Statement (.vand w x) := by
  intro w x hw c h
  cases (h : some _ = some c)
  have e : decodeWord .alu (WA.word 5 w) (x.map XMod.word) = optX (x.map XMod.word) (.vand (WA.of (WA.word 5 w))) := by
    unfold decodeWord decodeAlu
    rw [WA.op_word]
    rfl
  rw [e, WA.of_word]
  cases x <;> simp [optX]

theorem vor : ∀ w x, Statement (.vor w x) := by
  intro w x hw c h
  cases (h : some _ = some c)
  have e : decodeWord .alu (WA.word 6 w) (x.map XMod.word) = optX (x.map XMod.word) (.vor (WA.of (WA.word 6 w))) := by
    unfold decodeWord decodeAlu
    rw [WA.op_word]
    rfl
  rw [e, WA.of_word]
  cases x <;> simp [optX]

theorem vxor : ∀ w x, Statement (.vxor w x) := by
  intro w x hw c h
  cases (h : some _ = some c)
  have e : decodeWord .alu (WA.word 7 w) (x.map XMod.word) = optX (x.map XMod.word) (.vxor (WA.of (WA.word 7 w))) := by
    unfold decodeWord decodeAlu
    rw [WA.op_word]
    rfl
  rw [e, WA.of_word]
  cases x <;> simp [optX]

theorem vshl : ∀ w x, Statement (.vshl w x) := by
  intro w x hw c h
  cases (h : some _ = some c)
  have e : decodeWord .alu (WA.word 8 w) (x.map XMod.word) = optX (x.map XMod.word) (.vshl (WA.of (WA.word 8 w))) := by
    unfold decodeWord decodeAlu
    rw [WA.op_word]
    rfl
  rw [e, WA.of_word]
  cases x <;> simp [optX]

theorem vshr : ∀ w x, Statement (.vshr w x) := by
  intro w x hw c h
  cases (h : some _ = some c)
  have e : decodeWord .alu (WA.word 9 w) (x.map XMod.word) = optX (x.map XMod.word) (.vshr (WA.of (WA.word 9 w))) := by
    unfold decodeWord decodeAlu
    rw [WA.op_word]
    rfl
  rw [e, WA.of_word]
  cases x <;> simp [optX]

theorem vsar : ∀ w x, Statement (.vsar w x) := by
  intro w x hw c h
  cases (h : some _ = some c)
  have e : decodeWord .alu (WA.word 10 w) (x.map XMod.word) = optX (x.map XMod.word) (.vsar (WA.of (WA.word 10 w))) := by
    unfold decodeWord decodeAlu
    rw [WA.op_word]
    rfl
  rw [e, WA.of_word]
  cases x <;> simp [optX]

theorem vmin : ∀ w x, Statement (.vmin w x) := by
  intro w x hw c h
  cases (h : some _ = some c)
  have e : decodeWord .alu (WA.word 11 w) (x.map XMod.word) = optX (x.map XMod.word) (.vmin (WA.of (WA.word 11 w))) := by
    unfold decodeWord decodeAlu
    rw [WA.op_word]
    rfl
  rw [e, WA.of_word]
  cases x <;> simp [optX]

theorem vmax : ∀ w x, Statement (.vmax w x) := by
  intro w x hw c h
  cases (h : some _ = some c)
  have e : decodeWord .alu (WA.word 12 w) (x.map XMod.word) = optX (x.map XMod.word) (.vmax (WA.of (WA.word 12 w))) := by
    unfold decodeWord decodeAlu
    rw [WA.op_word]
    rfl
  rw [e, WA.of_word]
  cases x <;> simp [optX]

theorem vabs : ∀ w x, Statement (.vabs w x) := by
  intro w x hw c h
  cases (h : some _ = some c)
  simp only [Instr.wf, bne_iff_ne, beq_iff_eq, Bool.and_eq_true, ne_eq] at hw
  simp only [decodeWord, decodeAlu, WB.op_word, BitVec.toNat_ofNat, Nat.reducePow, Nat.reduceMod]
  cases x <;> split <;> simp_all [optX, optL, mustX, noX]

theorem vpopc : ∀ w x, Statement (.vpopc w x) := by
  intro w x hw c h
  cases (h : some _ = some c)
  simp only [Instr.wf, bne_iff_ne, beq_iff_eq, Bool.and_eq_true, ne_eq] at hw
  cases x <;> simp [decodeWord, decodeAlu, hw, optX, optL, mustX, noX]

theorem vclz : ∀ w x, Statement (.vclz w x) := by
  intro w x hw c h
  cases (h : some _ = some c)
  simp only [Instr.wf, bne_iff_ne, beq_iff_eq, Bool.and_eq_true, ne_eq] at hw
  cases x <;> simp [decodeWord, decodeAlu, hw, optX, optL, mustX, noX]

theorem vbrev : ∀ w x, Statement (.vbrev w x) := by
  intro w x hw c h
  cases (h : some _ = some c)
  simp only [Instr.wf, bne_iff_ne, beq_iff_eq, Bool.and_eq_true, ne_eq] at hw
  cases x <;> simp [decodeWord, decodeAlu, hw, optX, optL, mustX, noX]

theorem vbfe : ∀ w x, Statement (.vbfe w x) := by
  intro w x hw c h
  cases (h : some _ = some c)
  have e : decodeWord .alu (WA.word 14 w) (x.map XMod.word) = optX (x.map XMod.word) (.vbfe (WA.of (WA.word 14 w))) := by
    unfold decodeWord decodeAlu
    rw [WA.op_word]
    rfl
  rw [e, WA.of_word]
  cases x <;> simp [optX]

theorem vbfi : ∀ w x, Statement (.vbfi w x) := by
  intro w x hw c h
  cases (h : some _ = some c)
  have e : decodeWord .alu (WA.word 15 w) (some x.word) = mustX XMod.of (some x.word) (.vbfi (WA.of (WA.word 15 w))) := by
    unfold decodeWord decodeAlu
    rw [WA.op_word]
    rfl
  rw [e, WA.of_word]
  simp [optL, mustX, noX]

theorem vcmp : ∀ w x, Statement (.vcmp w x) := by
  intro w x hw c h
  cases (h : some _ = some c)
  have e : decodeWord .alu (WA.word 16 w) (x.map XMod.word) = optX (x.map XMod.word) (.vcmp (WA.of (WA.word 16 w))) := by
    unfold decodeWord decodeAlu
    rw [WA.op_word]
    rfl
  rw [e, WA.of_word]
  cases x <;> simp [optX]

theorem vsel : ∀ w x, Statement (.vsel w x) := by
  intro w x hw c h
  cases (h : some _ = some c)
  have e : decodeWord .alu (WA.word 17 w) (some x.word) = mustX XMod.of (some x.word) (.vsel (WA.of (WA.word 17 w))) := by
    unfold decodeWord decodeAlu
    rw [WA.op_word]
    rfl
  rw [e, WA.of_word]
  simp [optL, mustX, noX]

theorem vmov : ∀ w x, Statement (.vmov w x) := by
  intro w x hw c h
  cases (h : some _ = some c)
  have e : decodeWord .alu (WB.word 18 w) (x.map XMod.word) = optX (x.map XMod.word) (.vmov (WB.of (WB.word 18 w))) := by
    unfold decodeWord decodeAlu
    rw [WB.op_word]
    rfl
  rw [e, WB.of_word]
  cases x <;> simp [optX]

theorem vldi : ∀ w l, Statement (.vldi w l) := by
  intro w l hw c h
  cases (h : some _ = some c)
  have e : decodeWord .alu (WC.word 19 w) (l) = optL l (.vldi (WC.of (WC.word 19 w))) := by
    unfold decodeWord decodeAlu
    rw [WC.op_word]
    rfl
  rw [e, WC.of_word]
  simp [optL, mustX, noX]

theorem vadd64 : ∀ w x, Statement (.vadd64 w x) := by
  intro w x hw c h
  cases (h : some _ = some c)
  have e : decodeWord .alu (WA.word 20 w) (x.map XMod.word) = optX (x.map XMod.word) (.vadd64 (WA.of (WA.word 20 w))) := by
    unfold decodeWord decodeAlu
    rw [WA.op_word]
    rfl
  rw [e, WA.of_word]
  cases x <;> simp [optX]

theorem vmad64 : ∀ w x, Statement (.vmad64 w x) := by
  intro w x hw c h
  cases (h : some _ = some c)
  have e : decodeWord .alu (WA.word 21 w) (some x.word) = mustX XMod.of (some x.word) (.vmad64 (WA.of (WA.word 21 w))) := by
    unfold decodeWord decodeAlu
    rw [WA.op_word]
    rfl
  rw [e, WA.of_word]
  simp [optL, mustX, noX]

theorem fadd : ∀ w x, Statement (.fadd w x) := by
  intro w x hw c h
  cases (h : some _ = some c)
  have e : decodeWord .alu (WA.word 22 w) (x.map XMod.word) = optX (x.map XMod.word) (.fadd (WA.of (WA.word 22 w))) := by
    unfold decodeWord decodeAlu
    rw [WA.op_word]
    rfl
  rw [e, WA.of_word]
  cases x <;> simp [optX]

theorem fsub : ∀ w x, Statement (.fsub w x) := by
  intro w x hw c h
  cases (h : some _ = some c)
  have e : decodeWord .alu (WA.word 23 w) (x.map XMod.word) = optX (x.map XMod.word) (.fsub (WA.of (WA.word 23 w))) := by
    unfold decodeWord decodeAlu
    rw [WA.op_word]
    rfl
  rw [e, WA.of_word]
  cases x <;> simp [optX]

theorem fmul : ∀ w x, Statement (.fmul w x) := by
  intro w x hw c h
  cases (h : some _ = some c)
  have e : decodeWord .alu (WA.word 24 w) (x.map XMod.word) = optX (x.map XMod.word) (.fmul (WA.of (WA.word 24 w))) := by
    unfold decodeWord decodeAlu
    rw [WA.op_word]
    rfl
  rw [e, WA.of_word]
  cases x <;> simp [optX]

theorem ffma : ∀ w x, Statement (.ffma w x) := by
  intro w x hw c h
  cases (h : some _ = some c)
  have e : decodeWord .alu (WA.word 25 w) (some x.word) = mustX XMod.of (some x.word) (.ffma (WA.of (WA.word 25 w))) := by
    unfold decodeWord decodeAlu
    rw [WA.op_word]
    rfl
  rw [e, WA.of_word]
  simp [optL, mustX, noX]

theorem fmin : ∀ w x, Statement (.fmin w x) := by
  intro w x hw c h
  cases (h : some _ = some c)
  have e : decodeWord .alu (WA.word 26 w) (x.map XMod.word) = optX (x.map XMod.word) (.fmin (WA.of (WA.word 26 w))) := by
    unfold decodeWord decodeAlu
    rw [WA.op_word]
    rfl
  rw [e, WA.of_word]
  cases x <;> simp [optX]

theorem fmax : ∀ w x, Statement (.fmax w x) := by
  intro w x hw c h
  cases (h : some _ = some c)
  have e : decodeWord .alu (WA.word 27 w) (x.map XMod.word) = optX (x.map XMod.word) (.fmax (WA.of (WA.word 27 w))) := by
    unfold decodeWord decodeAlu
    rw [WA.op_word]
    rfl
  rw [e, WA.of_word]
  cases x <;> simp [optX]

theorem fcmp : ∀ w x, Statement (.fcmp w x) := by
  intro w x hw c h
  cases (h : some _ = some c)
  have e : decodeWord .alu (WA.word 28 w) (x.map XMod.word) = optX (x.map XMod.word) (.fcmp (WA.of (WA.word 28 w))) := by
    unfold decodeWord decodeAlu
    rw [WA.op_word]
    rfl
  rw [e, WA.of_word]
  cases x <;> simp [optX]

theorem fdiv : ∀ w x, Statement (.fdiv w x) := by
  intro w x hw c h
  cases (h : some _ = some c)
  have e : decodeWord .alu (WA.word 29 w) (x.map XMod.word) = optX (x.map XMod.word) (.fdiv (WA.of (WA.word 29 w))) := by
    unfold decodeWord decodeAlu
    rw [WA.op_word]
    rfl
  rw [e, WA.of_word]
  cases x <;> simp [optX]

theorem fsqrt : ∀ w x, Statement (.fsqrt w x) := by
  intro w x hw c h
  cases (h : some _ = some c)
  simp only [Instr.wf, bne_iff_ne, beq_iff_eq, Bool.and_eq_true, ne_eq] at hw
  simp only [decodeWord, decodeAlu, WB.op_word, BitVec.toNat_ofNat, Nat.reducePow, Nat.reduceMod]
  cases x <;> split <;> simp_all [optX, optL, mustX, noX]

theorem frcp : ∀ w x, Statement (.frcp w x) := by
  intro w x hw c h
  cases (h : some _ = some c)
  simp only [Instr.wf, bne_iff_ne, beq_iff_eq, Bool.and_eq_true, ne_eq] at hw
  cases x <;> simp [decodeWord, decodeAlu, hw, optX, optL, mustX, noX]

theorem frsq : ∀ w x, Statement (.frsq w x) := by
  intro w x hw c h
  cases (h : some _ = some c)
  simp only [Instr.wf, bne_iff_ne, beq_iff_eq, Bool.and_eq_true, ne_eq] at hw
  cases x <;> simp [decodeWord, decodeAlu, hw, optX, optL, mustX, noX]

theorem fexp2 : ∀ w x, Statement (.fexp2 w x) := by
  intro w x hw c h
  cases (h : some _ = some c)
  simp only [Instr.wf, bne_iff_ne, beq_iff_eq, Bool.and_eq_true, ne_eq] at hw
  cases x <;> simp [decodeWord, decodeAlu, hw, optX, optL, mustX, noX]

theorem flog2 : ∀ w x, Statement (.flog2 w x) := by
  intro w x hw c h
  cases (h : some _ = some c)
  simp only [Instr.wf, bne_iff_ne, beq_iff_eq, Bool.and_eq_true, ne_eq] at hw
  cases x <;> simp [decodeWord, decodeAlu, hw, optX, optL, mustX, noX]

theorem fsin : ∀ w x, Statement (.fsin w x) := by
  intro w x hw c h
  cases (h : some _ = some c)
  simp only [Instr.wf, bne_iff_ne, beq_iff_eq, Bool.and_eq_true, ne_eq] at hw
  cases x <;> simp [decodeWord, decodeAlu, hw, optX, optL, mustX, noX]

theorem fcos : ∀ w x, Statement (.fcos w x) := by
  intro w x hw c h
  cases (h : some _ = some c)
  simp only [Instr.wf, bne_iff_ne, beq_iff_eq, Bool.and_eq_true, ne_eq] at hw
  cases x <;> simp [decodeWord, decodeAlu, hw, optX, optL, mustX, noX]

theorem dadd : ∀ w x, Statement (.dadd w x) := by
  intro w x hw c h
  cases (h : some _ = some c)
  have e : decodeWord .alu (WA.word 31 w) (x.map XMod.word) = optX (x.map XMod.word) (.dadd (WA.of (WA.word 31 w))) := by
    unfold decodeWord decodeAlu
    rw [WA.op_word]
    rfl
  rw [e, WA.of_word]
  cases x <;> simp [optX]

theorem dmul : ∀ w x, Statement (.dmul w x) := by
  intro w x hw c h
  cases (h : some _ = some c)
  have e : decodeWord .alu (WA.word 32 w) (x.map XMod.word) = optX (x.map XMod.word) (.dmul (WA.of (WA.word 32 w))) := by
    unfold decodeWord decodeAlu
    rw [WA.op_word]
    rfl
  rw [e, WA.of_word]
  cases x <;> simp [optX]

theorem dfma : ∀ w x, Statement (.dfma w x) := by
  intro w x hw c h
  cases (h : some _ = some c)
  have e : decodeWord .alu (WA.word 33 w) (some x.word) = mustX XMod.of (some x.word) (.dfma (WA.of (WA.word 33 w))) := by
    unfold decodeWord decodeAlu
    rw [WA.op_word]
    rfl
  rw [e, WA.of_word]
  simp [optL, mustX, noX]

theorem hadd2 : ∀ w x, Statement (.hadd2 w x) := by
  intro w x hw c h
  cases (h : some _ = some c)
  have e : decodeWord .alu (WA.word 34 w) (x.map XMod.word) = optX (x.map XMod.word) (.hadd2 (WA.of (WA.word 34 w))) := by
    unfold decodeWord decodeAlu
    rw [WA.op_word]
    rfl
  rw [e, WA.of_word]
  cases x <;> simp [optX]

theorem hmul2 : ∀ w x, Statement (.hmul2 w x) := by
  intro w x hw c h
  cases (h : some _ = some c)
  have e : decodeWord .alu (WA.word 35 w) (x.map XMod.word) = optX (x.map XMod.word) (.hmul2 (WA.of (WA.word 35 w))) := by
    unfold decodeWord decodeAlu
    rw [WA.op_word]
    rfl
  rw [e, WA.of_word]
  cases x <;> simp [optX]

theorem hfma2 : ∀ w x, Statement (.hfma2 w x) := by
  intro w x hw c h
  cases (h : some _ = some c)
  have e : decodeWord .alu (WA.word 36 w) (some x.word) = mustX XMod.of (some x.word) (.hfma2 (WA.of (WA.word 36 w))) := by
    unfold decodeWord decodeAlu
    rw [WA.op_word]
    rfl
  rw [e, WA.of_word]
  simp [optL, mustX, noX]

theorem fcvt : ∀ w x, Statement (.fcvt w x) := by
  intro w x hw c h
  cases (h : some _ = some c)
  have e : decodeWord .alu (WB.word 37 w) (x.map XMod.word) = optX (x.map XMod.word) (.fcvt (WB.of (WB.word 37 w))) := by
    unfold decodeWord decodeAlu
    rw [WB.op_word]
    rfl
  rw [e, WB.of_word]
  cases x <;> simp [optX]

theorem fpack : ∀ w x, Statement (.fpack w x) := by
  intro w x hw c h
  cases (h : some _ = some c)
  have e : decodeWord .alu (WA.word 38 w) (x.map XMod.word) = optX (x.map XMod.word) (.fpack (WA.of (WA.word 38 w))) := by
    unfold decodeWord decodeAlu
    rw [WA.op_word]
    rfl
  rw [e, WA.of_word]
  cases x <;> simp [optX]

theorem funpk : ∀ w x, Statement (.funpk w x) := by
  intro w x hw c h
  cases (h : some _ = some c)
  have e : decodeWord .alu (WB.word 39 w) (x.map XMod.word) = optX (x.map XMod.word) (.funpk (WB.of (WB.word 39 w))) := by
    unfold decodeWord decodeAlu
    rw [WB.op_word]
    rfl
  rw [e, WB.of_word]
  cases x <;> simp [optX]

theorem vshfl : ∀ w x, Statement (.vshfl w x) := by
  intro w x hw c h
  cases (h : some _ = some c)
  have e : decodeWord .alu (WA.word 40 w) (x.map XMod.word) = optX (x.map XMod.word) (.vshfl (WA.of (WA.word 40 w))) := by
    unfold decodeWord decodeAlu
    rw [WA.op_word]
    rfl
  rw [e, WA.of_word]
  cases x <;> simp [optX]

theorem vvoteAll : ∀ w x, Statement (.vvoteAll w x) := by
  intro w x hw c h
  cases (h : some _ = some c)
  simp only [Instr.wf, bne_iff_ne, beq_iff_eq, Bool.and_eq_true, ne_eq] at hw
  simp only [decodeWord, decodeAlu, WB.op_word, BitVec.toNat_ofNat, Nat.reducePow, Nat.reduceMod]
  cases x <;> split <;> simp_all [optX, optL, mustX, noX]

theorem vvoteAny : ∀ w x, Statement (.vvoteAny w x) := by
  intro w x hw c h
  cases (h : some _ = some c)
  simp only [Instr.wf, bne_iff_ne, beq_iff_eq, Bool.and_eq_true, ne_eq] at hw
  cases x <;> simp [decodeWord, decodeAlu, hw, optX, optL, mustX, noX]

theorem vvoteUni : ∀ w x, Statement (.vvoteUni w x) := by
  intro w x hw c h
  cases (h : some _ = some c)
  simp only [Instr.wf, bne_iff_ne, beq_iff_eq, Bool.and_eq_true, ne_eq] at hw
  cases x <;> simp [decodeWord, decodeAlu, hw, optX, optL, mustX, noX]

theorem vvoteBallot : ∀ w x, Statement (.vvoteBallot w x) := by
  intro w x hw c h
  cases (h : some _ = some c)
  simp only [Instr.wf, bne_iff_ne, beq_iff_eq, Bool.and_eq_true, ne_eq] at hw
  cases x <;> simp [decodeWord, decodeAlu, hw, optX, optL, mustX, noX]

theorem vvoteCount : ∀ w x, Statement (.vvoteCount w x) := by
  intro w x hw c h
  cases (h : some _ = some c)
  simp only [Instr.wf, bne_iff_ne, beq_iff_eq, Bool.and_eq_true, ne_eq] at hw
  cases x <;> simp [decodeWord, decodeAlu, hw, optX, optL, mustX, noX]

theorem vvoteLaneid : ∀ w x, Statement (.vvoteLaneid w x) := by
  intro w x hw c h
  cases (h : some _ = some c)
  simp only [Instr.wf, bne_iff_ne, beq_iff_eq, Bool.and_eq_true, ne_eq] at hw
  cases x <;> simp [decodeWord, decodeAlu, hw, optX, optL, mustX, noX]

theorem vred : ∀ w x, Statement (.vred w x) := by
  intro w x hw c h
  cases (h : some _ = some c)
  have e : decodeWord .alu (WB.word 42 w) (x.map XMod.word) = optX (x.map XMod.word) (.vred (WB.of (WB.word 42 w))) := by
    unfold decodeWord decodeAlu
    rw [WB.op_word]
    rfl
  rw [e, WB.of_word]
  cases x <;> simp [optX]

theorem vscan : ∀ w x, Statement (.vscan w x) := by
  intro w x hw c h
  cases (h : some _ = some c)
  have e : decodeWord .alu (WB.word 43 w) (x.map XMod.word) = optX (x.map XMod.word) (.vscan (WB.of (WB.word 43 w))) := by
    unfold decodeWord decodeAlu
    rw [WB.op_word]
    rfl
  rw [e, WB.of_word]
  cases x <;> simp [optX]

theorem pand : ∀ w, Statement (.pand w) := by
  intro w hw c h
  cases (h : some _ = some c)
  simp only [Instr.wf, bne_iff_ne, beq_iff_eq, Bool.and_eq_true, ne_eq] at hw
  simp only [decodeWord, decodeAlu, WA.op_word, BitVec.toNat_ofNat, Nat.reducePow, Nat.reduceMod]
  split <;> simp_all [optX, optL, mustX, noX]

theorem por : ∀ w, Statement (.por w) := by
  intro w hw c h
  cases (h : some _ = some c)
  simp only [Instr.wf, bne_iff_ne, beq_iff_eq, Bool.and_eq_true, ne_eq] at hw
  simp [decodeWord, decodeAlu, hw, optX, optL, mustX, noX]

theorem pxor : ∀ w, Statement (.pxor w) := by
  intro w hw c h
  cases (h : some _ = some c)
  simp only [Instr.wf, bne_iff_ne, beq_iff_eq, Bool.and_eq_true, ne_eq] at hw
  simp [decodeWord, decodeAlu, hw, optX, optL, mustX, noX]

theorem pnot : ∀ w, Statement (.pnot w) := by
  intro w hw c h
  cases (h : some _ = some c)
  simp only [Instr.wf, bne_iff_ne, beq_iff_eq, Bool.and_eq_true, ne_eq] at hw
  simp [decodeWord, decodeAlu, hw, optX, optL, mustX, noX]

theorem pmov : ∀ w, Statement (.pmov w) := by
  intro w hw c h
  cases (h : some _ = some c)
  simp only [Instr.wf, bne_iff_ne, beq_iff_eq, Bool.and_eq_true, ne_eq] at hw
  simp [decodeWord, decodeAlu, hw, optX, optL, mustX, noX]

theorem sadd : ∀ w, Statement (.sadd w) := by
  intro w hw c h
  cases (h : some _ = some c)
  simp only [Instr.wf, bne_iff_ne, beq_iff_eq, Bool.and_eq_true, ne_eq] at hw
  simp [decodeWord, decodeAlu, hw, optX, optL, mustX, noX]

theorem ssub : ∀ w, Statement (.ssub w) := by
  intro w hw c h
  cases (h : some _ = some c)
  simp only [Instr.wf, bne_iff_ne, beq_iff_eq, Bool.and_eq_true, ne_eq] at hw
  simp [decodeWord, decodeAlu, hw, optX, optL, mustX, noX]

theorem smul : ∀ w, Statement (.smul w) := by
  intro w hw c h
  cases (h : some _ = some c)
  simp only [Instr.wf, bne_iff_ne, beq_iff_eq, Bool.and_eq_true, ne_eq] at hw
  simp [decodeWord, decodeAlu, hw, optX, optL, mustX, noX]

theorem smin : ∀ w, Statement (.smin w) := by
  intro w hw c h
  cases (h : some _ = some c)
  simp only [Instr.wf, bne_iff_ne, beq_iff_eq, Bool.and_eq_true, ne_eq] at hw
  simp [decodeWord, decodeAlu, hw, optX, optL, mustX, noX]

theorem smax : ∀ w, Statement (.smax w) := by
  intro w hw c h
  cases (h : some _ = some c)
  simp only [Instr.wf, bne_iff_ne, beq_iff_eq, Bool.and_eq_true, ne_eq] at hw
  simp [decodeWord, decodeAlu, hw, optX, optL, mustX, noX]

theorem smov : ∀ w, Statement (.smov w) := by
  intro w hw c h
  cases (h : some _ = some c)
  simp only [Instr.wf, bne_iff_ne, beq_iff_eq, Bool.and_eq_true, ne_eq] at hw
  simp [decodeWord, decodeAlu, hw, optX, optL, mustX, noX]

theorem sminU : ∀ w, Statement (.sminU w) := by
  intro w hw c h
  cases (h : some _ = some c)
  simp only [Instr.wf, bne_iff_ne, beq_iff_eq, Bool.and_eq_true, ne_eq] at hw
  simp [decodeWord, decodeAlu, hw, optX, optL, mustX, noX]

theorem smaxU : ∀ w, Statement (.smaxU w) := by
  intro w hw c h
  cases (h : some _ = some c)
  simp only [Instr.wf, bne_iff_ne, beq_iff_eq, Bool.and_eq_true, ne_eq] at hw
  simp [decodeWord, decodeAlu, hw, optX, optL, mustX, noX]

theorem sand : ∀ w, Statement (.sand w) := by
  intro w hw c h
  cases (h : some _ = some c)
  simp only [Instr.wf, bne_iff_ne, beq_iff_eq, Bool.and_eq_true, ne_eq] at hw
  simp only [decodeWord, decodeAlu, WS.op_word, BitVec.toNat_ofNat, Nat.reducePow, Nat.reduceMod]
  split <;> simp_all [optX, optL, mustX, noX]

theorem sor : ∀ w, Statement (.sor w) := by
  intro w hw c h
  cases (h : some _ = some c)
  simp only [Instr.wf, bne_iff_ne, beq_iff_eq, Bool.and_eq_true, ne_eq] at hw
  simp [decodeWord, decodeAlu, hw, optX, optL, mustX, noX]

theorem sxor : ∀ w, Statement (.sxor w) := by
  intro w hw c h
  cases (h : some _ = some c)
  simp only [Instr.wf, bne_iff_ne, beq_iff_eq, Bool.and_eq_true, ne_eq] at hw
  simp [decodeWord, decodeAlu, hw, optX, optL, mustX, noX]

theorem sshl : ∀ w, Statement (.sshl w) := by
  intro w hw c h
  cases (h : some _ = some c)
  simp only [Instr.wf, bne_iff_ne, beq_iff_eq, Bool.and_eq_true, ne_eq] at hw
  simp [decodeWord, decodeAlu, hw, optX, optL, mustX, noX]

theorem sshr : ∀ w, Statement (.sshr w) := by
  intro w hw c h
  cases (h : some _ = some c)
  simp only [Instr.wf, bne_iff_ne, beq_iff_eq, Bool.and_eq_true, ne_eq] at hw
  simp [decodeWord, decodeAlu, hw, optX, optL, mustX, noX]

theorem ssar : ∀ w, Statement (.ssar w) := by
  intro w hw c h
  cases (h : some _ = some c)
  simp only [Instr.wf, bne_iff_ne, beq_iff_eq, Bool.and_eq_true, ne_eq] at hw
  simp [decodeWord, decodeAlu, hw, optX, optL, mustX, noX]

theorem smad : ∀ w x, Statement (.smad w x) := by
  intro w x hw c h
  cases (h : some _ = some c)
  have e : decodeWord .alu (WS.word 50 w) (some x.word) = mustX XMod.of (some x.word) (.smad (WS.of (WS.word 50 w))) := by
    unfold decodeWord decodeAlu
    rw [WS.op_word]
    rfl
  rw [e, WS.of_word]
  simp [optL, mustX, noX]

theorem sldi : ∀ w l, Statement (.sldi w l) := by
  intro w l hw c h
  cases (h : some _ = some c)
  have e : decodeWord .alu (WS.word 51 w) (some l) = mustX id (some l) (.sldi (WS.of (WS.word 51 w))) := by
    unfold decodeWord decodeAlu
    rw [WS.op_word]
    rfl
  rw [e, WS.of_word]
  simp [optL, mustX, noX]

theorem scmp : ∀ w, Statement (.scmp w) := by
  intro w hw c h
  cases (h : some _ = some c)
  have e : decodeWord .alu (WS.word 52 w) (none) = noX none (.scmp (WS.of (WS.word 52 w))) := by
    unfold decodeWord decodeAlu
    rw [WS.op_word]
    rfl
  rw [e, WS.of_word]
  simp [optL, mustX, noX]

theorem ssel : ∀ w, Statement (.ssel w) := by
  intro w hw c h
  cases (h : some _ = some c)
  have e : decodeWord .alu (WS.word 53 w) (none) = noX none (.ssel (WS.of (WS.word 53 w))) := by
    unfold decodeWord decodeAlu
    rw [WS.op_word]
    rfl
  rw [e, WS.of_word]
  simp [optL, mustX, noX]

theorem sread : ∀ w, Statement (.sread w) := by
  intro w hw c h
  cases (h : some _ = some c)
  have e : decodeWord .alu (WS.word 54 w) (none) = noX none (.sread (WS.of (WS.word 54 w))) := by
    unfold decodeWord decodeAlu
    rw [WS.op_word]
    rfl
  rw [e, WS.of_word]
  simp [optL, mustX, noX]

theorem swrite : ∀ w, Statement (.swrite w) := by
  intro w hw c h
  cases (h : some _ = some c)
  have e : decodeWord .alu (WS.word 55 w) (none) = noX none (.swrite (WS.of (WS.word 55 w))) := by
    unfold decodeWord decodeAlu
    rw [WS.op_word]
    rfl
  rw [e, WS.of_word]
  simp [optL, mustX, noX]

theorem fmtset : ∀ w, Statement (.fmtset w) := by
  intro w hw c h
  cases (h : some _ = some c)
  simp only [Instr.wf, bne_iff_ne, beq_iff_eq, Bool.and_eq_true, ne_eq] at hw
  simp only [decodeWord, decodeAlu, WS.op_word, BitVec.toNat_ofNat, Nat.reducePow, Nat.reduceMod]
  split <;> simp_all [optX, optL, mustX, noX]

theorem fmtsetLit : ∀ w l, Statement (.fmtsetLit w l) := by
  intro w l hw c h
  cases (h : some _ = some c)
  simp only [Instr.wf, bne_iff_ne, beq_iff_eq, Bool.and_eq_true, ne_eq] at hw
  simp [decodeWord, decodeAlu, hw, optX, optL, mustX, noX]

theorem fmtget : ∀ w, Statement (.fmtget w) := by
  intro w hw c h
  cases (h : some _ = some c)
  have e : decodeWord .alu (WS.word 57 w) (none) = noX none (.fmtget (WS.of (WS.word 57 w))) := by
    unfold decodeWord decodeAlu
    rw [WS.op_word]
    rfl
  rw [e, WS.of_word]
  simp [optL, mustX, noX]

theorem nop : ∀ w, Statement (.nop w) := by
  intro w hw c h
  cases (h : some _ = some c)
  have e : decodeWord .control (WC.word 0 w) (none) = noX none (.nop (WC.of (WC.word 0 w))) := by
    unfold decodeWord decodeControl
    rw [WC.op_word]
    rfl
  rw [e, WC.of_word]
  simp [optL, mustX, noX]

theorem bra : ∀ w l, Statement (.bra w l) := by
  intro w l hw c h
  cases (h : some _ = some c)
  have e : decodeWord .control (WD.word 1 w) (some l.word) = mustX ReconvLit.of (some l.word) (.bra (WD.of (WD.word 1 w))) := by
    unfold decodeWord decodeControl
    rw [WD.op_word]
    rfl
  rw [e, WD.of_word]
  simp [optL, mustX, noX]

theorem bru : ∀ w, Statement (.bru w) := by
  intro w hw c h
  cases (h : some _ = some c)
  have e : decodeWord .control (WD.word 2 w) (none) = noX none (.bru (WD.of (WD.word 2 w))) := by
    unfold decodeWord decodeControl
    rw [WD.op_word]
    rfl
  rw [e, WD.of_word]
  simp [optL, mustX, noX]

theorem brx : ∀ w l, Statement (.brx w l) := by
  intro w l hw c h
  cases (h : some _ = some c)
  have e : decodeWord .control (WB.word 3 w) (some l.word) = mustX ReconvLit.of (some l.word) (.brx (WB.of (WB.word 3 w))) := by
    unfold decodeWord decodeControl
    rw [WB.op_word]
    rfl
  rw [e, WB.of_word]
  simp [optL, mustX, noX]

theorem call : ∀ w, Statement (.call w) := by
  intro w hw c h
  cases (h : some _ = some c)
  have e : decodeWord .control (WD.word 4 w) (none) = noX none (.call (WD.of (WD.word 4 w))) := by
    unfold decodeWord decodeControl
    rw [WD.op_word]
    rfl
  rw [e, WD.of_word]
  simp [optL, mustX, noX]

theorem callx : ∀ w, Statement (.callx w) := by
  intro w hw c h
  cases (h : some _ = some c)
  have e : decodeWord .control (WB.word 5 w) (none) = noX none (.callx (WB.of (WB.word 5 w))) := by
    unfold decodeWord decodeControl
    rw [WB.op_word]
    rfl
  rw [e, WB.of_word]
  simp [optL, mustX, noX]

theorem ret : ∀ w, Statement (.ret w) := by
  intro w hw c h
  cases (h : some _ = some c)
  have e : decodeWord .control (WC.word 6 w) (none) = noX none (.ret (WC.of (WC.word 6 w))) := by
    unfold decodeWord decodeControl
    rw [WC.op_word]
    rfl
  rw [e, WC.of_word]
  simp [optL, mustX, noX]

theorem join : ∀ w, Statement (.join w) := by
  intro w hw c h
  cases (h : some _ = some c)
  have e : decodeWord .control (WC.word 7 w) (none) = noX none (.join (WC.of (WC.word 7 w))) := by
    unfold decodeWord decodeControl
    rw [WC.op_word]
    rfl
  rw [e, WC.of_word]
  simp [optL, mustX, noX]

theorem exit : ∀ w, Statement (.exit w) := by
  intro w hw c h
  cases (h : some _ = some c)
  have e : decodeWord .control (WC.word 8 w) (none) = noX none (.exit (WC.of (WC.word 8 w))) := by
    unfold decodeWord decodeControl
    rw [WC.op_word]
    rfl
  rw [e, WC.of_word]
  simp [optL, mustX, noX]

theorem yieldw : ∀ w, Statement (.yieldw w) := by
  intro w hw c h
  cases (h : some _ = some c)
  have e : decodeWord .control (WC.word 9 w) (none) = noX none (.yieldw (WC.of (WC.word 9 w))) := by
    unfold decodeWord decodeControl
    rw [WC.op_word]
    rfl
  rw [e, WC.of_word]
  simp [optL, mustX, noX]

theorem role : ∀ w, Statement (.role w) := by
  intro w hw c h
  cases (h : some _ = some c)
  have e : decodeWord .control (WC.word 10 w) (none) = noX none (.role (WC.of (WC.word 10 w))) := by
    unfold decodeWord decodeControl
    rw [WC.op_word]
    rfl
  rw [e, WC.of_word]
  simp [optL, mustX, noX]

theorem region : ∀ w l, Statement (.region w l) := by
  intro w l hw c h
  cases (h : some _ = some c)
  have e : decodeWord .control (WD.word 16 w) (some l.word) = mustX RegionLit.of (some l.word) (.region (WD.of (WD.word 16 w))) := by
    unfold decodeWord decodeControl
    rw [WD.op_word]
    rfl
  rw [e, WD.of_word]
  simp [optL, mustX, noX]

theorem commitRel : ∀ w, Statement (.commitRel w) := by
  intro w hw c h
  cases (h : some _ = some c)
  simp only [Instr.wf, bne_iff_ne, beq_iff_eq, Bool.and_eq_true, ne_eq] at hw
  simp [decodeWord, decodeControl, hw, optX, optL, mustX, noX]

theorem commitRpl : ∀ w, Statement (.commitRpl w) := by
  intro w hw c h
  cases (h : some _ = some c)
  simp only [Instr.wf, bne_iff_ne, beq_iff_eq, Bool.and_eq_true, ne_eq] at hw
  simp [decodeWord, decodeControl, hw, optX, optL, mustX, noX]

theorem commitFwd : ∀ w, Statement (.commitFwd w) := by
  intro w hw c h
  cases (h : some _ = some c)
  simp only [Instr.wf, bne_iff_ne, beq_iff_eq, Bool.and_eq_true, ne_eq] at hw
  simp [decodeWord, decodeControl, hw, optX, optL, mustX, noX]

theorem commit : ∀ w, Statement (.commit w) := by
  intro w hw c h
  cases (h : some _ = some c)
  simp only [Instr.wf, bne_iff_ne, beq_iff_eq, Bool.and_eq_true, ne_eq] at hw
  simp [decodeWord, decodeControl, hw, optX, optL, mustX, noX]

theorem pchk : ∀ w, Statement (.pchk w) := by
  intro w hw c h
  cases (h : some _ = some c)
  simp only [Instr.wf, bne_iff_ne, beq_iff_eq, Bool.and_eq_true, ne_eq] at hw
  simp only [decodeWord, decodeControl, WB.op_word, BitVec.toNat_ofNat, Nat.reducePow, Nat.reduceMod]
  split <;> simp_all [optX, optL, mustX, noX]

theorem pchkP : ∀ w, Statement (.pchkP w) := by
  intro w hw c h
  cases (h : some _ = some c)
  simp only [Instr.wf, bne_iff_ne, beq_iff_eq, Bool.and_eq_true, ne_eq] at hw
  simp [decodeWord, decodeControl, hw, optX, optL, mustX, noX]

theorem pchkS : ∀ w, Statement (.pchkS w) := by
  intro w hw c h
  cases (h : some _ = some c)
  simp only [Instr.wf, bne_iff_ne, beq_iff_eq, Bool.and_eq_true, ne_eq] at hw
  simp [decodeWord, decodeControl, hw, optX, optL, mustX, noX]

theorem pchkReg : ∀ w, Statement (.pchkReg w) := by
  intro w hw c h
  cases (h : some _ = some c)
  simp only [Instr.wf, bne_iff_ne, beq_iff_eq, Bool.and_eq_true, ne_eq] at hw
  simp [decodeWord, decodeControl, hw, optX, optL, mustX, noX]

theorem pchkOrph : ∀ w, Statement (.pchkOrph w) := by
  intro w hw c h
  cases (h : some _ = some c)
  simp only [Instr.wf, bne_iff_ne, beq_iff_eq, Bool.and_eq_true, ne_eq] at hw
  simp [decodeWord, decodeControl, hw, optX, optL, mustX, noX]

theorem pinfo : ∀ w, Statement (.pinfo w) := by
  intro w hw c h
  cases (h : some _ = some c)
  have e : decodeWord .control (WS.word 19 w) (none) = noX none (.pinfo (WS.of (WS.word 19 w))) := by
    unfold decodeWord decodeControl
    rw [WS.op_word]
    rfl
  rw [e, WS.of_word]
  simp [optL, mustX, noX]

theorem pset : ∀ w, Statement (.pset w) := by
  intro w hw c h
  cases (h : some _ = some c)
  simp only [Instr.wf, bne_iff_ne, beq_iff_eq, Bool.and_eq_true, ne_eq] at hw
  simp only [decodeWord, decodeControl, WB.op_word, BitVec.toNat_ofNat, Nat.reducePow, Nat.reduceMod]
  split <;> simp_all [optX, optL, mustX, noX]

theorem psetS : ∀ w, Statement (.psetS w) := by
  intro w hw c h
  cases (h : some _ = some c)
  simp only [Instr.wf, bne_iff_ne, beq_iff_eq, Bool.and_eq_true, ne_eq] at hw
  simp [decodeWord, decodeControl, hw, optX, optL, mustX, noX]

theorem pclr : ∀ w, Statement (.pclr w) := by
  intro w hw c h
  cases (h : some _ = some c)
  simp only [Instr.wf, bne_iff_ne, beq_iff_eq, Bool.and_eq_true, ne_eq] at hw
  simp only [decodeWord, decodeControl, WB.op_word, BitVec.toNat_ofNat, Nat.reducePow, Nat.reduceMod]
  split <;> simp_all [optX, optL, mustX, noX]

theorem pclrS : ∀ w, Statement (.pclrS w) := by
  intro w hw c h
  cases (h : some _ = some c)
  simp only [Instr.wf, bne_iff_ne, beq_iff_eq, Bool.and_eq_true, ne_eq] at hw
  simp [decodeWord, decodeControl, hw, optX, optL, mustX, noX]

theorem pclrTab : ∀ w, Statement (.pclrTab w) := by
  intro w hw c h
  cases (h : some _ = some c)
  simp only [Instr.wf, bne_iff_ne, beq_iff_eq, Bool.and_eq_true, ne_eq] at hw
  simp [decodeWord, decodeControl, hw, optX, optL, mustX, noX]

theorem mma : ∀ w l, Statement (.mma w l) := by
  intro w l hw c h
  cases (h : some _ = some c)
  have e : decodeWord .matrix (WA.word 0 w) (some l.word) = mustX MmaLit.of (some l.word) (.mma (WA.of (WA.word 0 w))) := by
    unfold decodeWord decodeMatrix
    rw [WA.op_word]
    rfl
  rw [e, WA.of_word]
  simp [optL, mustX, noX]

theorem mmai : ∀ w l, Statement (.mmai w l) := by
  intro w l hw c h
  cases (h : some _ = some c)
  have e : decodeWord .matrix (WA.word 1 w) (some l.word) = mustX MmaLit.of (some l.word) (.mmai (WA.of (WA.word 1 w))) := by
    unfold decodeWord decodeMatrix
    rw [WA.op_word]
    rfl
  rw [e, WA.of_word]
  simp [optL, mustX, noX]

theorem mmab : ∀ w l, Statement (.mmab w l) := by
  intro w l hw c h
  cases (h : some _ = some c)
  have e : decodeWord .matrix (WA.word 2 w) (some l.word) = mustX MmaLit.of (some l.word) (.mmab (WA.of (WA.word 2 w))) := by
    unfold decodeWord decodeMatrix
    rw [WA.op_word]
    rfl
  rw [e, WA.of_word]
  simp [optL, mustX, noX]

theorem mmas : ∀ w l, Statement (.mmas w l) := by
  intro w l hw c h
  cases (h : some _ = some c)
  have e : decodeWord .matrix (WA.word 3 w) (some l.word) = mustX MmaLit.of (some l.word) (.mmas (WA.of (WA.word 3 w))) := by
    unfold decodeWord decodeMatrix
    rw [WA.op_word]
    rfl
  rw [e, WA.of_word]
  simp [optL, mustX, noX]

theorem aclr : ∀ w, Statement (.aclr w) := by
  intro w hw c h
  cases (h : some _ = some c)
  have e : decodeWord .matrix (WC.word 4 w) (none) = noX none (.aclr (WC.of (WC.word 4 w))) := by
    unfold decodeWord decodeMatrix
    rw [WC.op_word]
    rfl
  rw [e, WC.of_word]
  simp [optL, mustX, noX]

theorem ald : ∀ w, Statement (.ald w) := by
  intro w hw c h
  cases (h : some _ = some c)
  have e : decodeWord .matrix (WB.word 5 w) (none) = noX none (.ald (WB.of (WB.word 5 w))) := by
    unfold decodeWord decodeMatrix
    rw [WB.op_word]
    rfl
  rw [e, WB.of_word]
  simp [optL, mustX, noX]

theorem ast : ∀ w, Statement (.ast w) := by
  intro w hw c h
  cases (h : some _ = some c)
  have e : decodeWord .matrix (WB.word 6 w) (none) = noX none (.ast (WB.of (WB.word 6 w))) := by
    unfold decodeWord decodeMatrix
    rw [WB.op_word]
    rfl
  rw [e, WB.of_word]
  simp [optL, mustX, noX]

theorem acvt : ∀ w x, Statement (.acvt w x) := by
  intro w x hw c h
  cases (h : some _ = some c)
  have e : decodeWord .matrix (WB.word 7 w) (x.map XMod.word) = optX (x.map XMod.word) (.acvt (WB.of (WB.word 7 w))) := by
    unfold decodeWord decodeMatrix
    rw [WB.op_word]
    rfl
  rw [e, WB.of_word]
  cases x <;> simp [optX]

theorem alds : ∀ w l, Statement (.alds w l) := by
  intro w l hw c h
  cases (h : some _ = some c)
  have e : decodeWord .matrix (WA.word 8 w) (some l.word) = mustX SpLit.of (some l.word) (.alds (WA.of (WA.word 8 w))) := by
    unfold decodeWord decodeMatrix
    rw [WA.op_word]
    rfl
  rw [e, WA.of_word]
  simp [optL, mustX, noX]

theorem asts : ∀ w l, Statement (.asts w l) := by
  intro w l hw c h
  cases (h : some _ = some c)
  have e : decodeWord .matrix (WA.word 9 w) (some l.word) = mustX SpLit.of (some l.word) (.asts (WA.of (WA.word 9 w))) := by
    unfold decodeWord decodeMatrix
    rw [WA.op_word]
    rfl
  rw [e, WA.of_word]
  simp [optL, mustX, noX]

theorem ld : ∀ w l, Statement (.ld w l) := by
  intro w l hw c h
  cases (h : some _ = some c)
  have e : decodeWord .memory (WA.word 0 w) (some l.word) = mustX MemLit.of (some l.word) (.ld (WA.of (WA.word 0 w))) := by
    unfold decodeWord decodeMemory
    rw [WA.op_word]
    rfl
  rw [e, WA.of_word]
  simp [optL, mustX, noX]

theorem st : ∀ w l, Statement (.st w l) := by
  intro w l hw c h
  cases (h : some _ = some c)
  have e : decodeWord .memory (WA.word 3 w) (some l.word) = mustX MemLit.of (some l.word) (.st (WA.of (WA.word 3 w))) := by
    unfold decodeWord decodeMemory
    rw [WA.op_word]
    rfl
  rw [e, WA.of_word]
  simp [optL, mustX, noX]

theorem ldu : ∀ w l, Statement (.ldu w l) := by
  intro w l hw c h
  cases (h : some _ = some c)
  have e : decodeWord .memory (WA.word 1 w) (some l.word) = mustX MemLit.of (some l.word) (.ldu (WA.of (WA.word 1 w))) := by
    unfold decodeWord decodeMemory
    rw [WA.op_word]
    rfl
  rw [e, WA.of_word]
  simp [optL, mustX, noX]

theorem ldc : ∀ w l, Statement (.ldc w l) := by
  intro w l hw c h
  cases (h : some _ = some c)
  have e : decodeWord .memory (WA.word 2 w) (some l.word) = mustX MemLit.of (some l.word) (.ldc (WA.of (WA.word 2 w))) := by
    unfold decodeWord decodeMemory
    rw [WA.op_word]
    rfl
  rw [e, WA.of_word]
  simp [optL, mustX, noX]

theorem atom : ∀ w l, Statement (.atom w l) := by
  intro w l hw c h
  cases (h : some _ = some c)
  have e : decodeWord .memory (WA.word 4 w) (some l.word) = mustX MemLit.of (some l.word) (.atom (WA.of (WA.word 4 w))) := by
    unfold decodeWord decodeMemory
    rw [WA.op_word]
    rfl
  rw [e, WA.of_word]
  simp [optL, mustX, noX]

theorem red : ∀ w l, Statement (.red w l) := by
  intro w l hw c h
  cases (h : some _ = some c)
  have e : decodeWord .memory (WA.word 5 w) (some l.word) = mustX MemLit.of (some l.word) (.red (WA.of (WA.word 5 w))) := by
    unfold decodeWord decodeMemory
    rw [WA.op_word]
    rfl
  rw [e, WA.of_word]
  simp [optL, mustX, noX]

theorem pref : ∀ w l, Statement (.pref w l) := by
  intro w l hw c h
  cases (h : some _ = some c)
  have e : decodeWord .memory (WA.word 6 w) (some l.word) = mustX MemLit.of (some l.word) (.pref (WA.of (WA.word 6 w))) := by
    unfold decodeWord decodeMemory
    rw [WA.op_word]
    rfl
  rw [e, WA.of_word]
  simp [optL, mustX, noX]

theorem xlate : ∀ w, Statement (.xlate w) := by
  intro w hw c h
  cases (h : some _ = some c)
  have e : decodeWord .memory (WS.word 7 w) (none) = noX none (.xlate (WS.of (WS.word 7 w))) := by
    unfold decodeWord decodeMemory
    rw [WS.op_word]
    rfl
  rw [e, WS.of_word]
  simp [optL, mustX, noX]

theorem xinfo : ∀ w, Statement (.xinfo w) := by
  intro w hw c h
  cases (h : some _ = some c)
  have e : decodeWord .memory (WS.word 8 w) (none) = noX none (.xinfo (WS.of (WS.word 8 w))) := by
    unfold decodeWord decodeMemory
    rw [WS.op_word]
    rfl
  rw [e, WS.of_word]
  simp [optL, mustX, noX]

theorem cpyG2s : ∀ w l, Statement (.cpyG2s w l) := by
  intro w l hw c h
  cases (h : some _ = some c)
  simp only [Instr.wf, bne_iff_ne, beq_iff_eq, Bool.and_eq_true, ne_eq] at hw
  simp only [decodeWord, decodeAsync, WS.op_word, BitVec.toNat_ofNat, Nat.reducePow, Nat.reduceMod]
  split <;> simp_all [optX, optL, mustX, noX]

theorem cpyS2g : ∀ w l, Statement (.cpyS2g w l) := by
  intro w l hw c h
  cases (h : some _ = some c)
  simp only [Instr.wf, bne_iff_ne, beq_iff_eq, Bool.and_eq_true, ne_eq] at hw
  simp [decodeWord, decodeAsync, hw, optX, optL, mustX, noX]

theorem cpyS2p : ∀ w l, Statement (.cpyS2p w l) := by
  intro w l hw c h
  cases (h : some _ = some c)
  simp only [Instr.wf, bne_iff_ne, beq_iff_eq, Bool.and_eq_true, ne_eq] at hw
  simp [decodeWord, decodeAsync, hw, optX, optL, mustX, noX]

theorem gather : ∀ w l, Statement (.gather w l) := by
  intro w l hw c h
  cases (h : some _ = some c)
  have e : decodeWord .async (WS.word 1 w) (some l.word) = mustX GatLit.of (some l.word) (.gather (WS.of (WS.word 1 w))) := by
    unfold decodeWord decodeAsync
    rw [WS.op_word]
    rfl
  rw [e, WS.of_word]
  simp [optL, mustX, noX]

theorem scatter : ∀ w l, Statement (.scatter w l) := by
  intro w l hw c h
  cases (h : some _ = some c)
  have e : decodeWord .async (WS.word 2 w) (some l.word) = mustX GatLit.of (some l.word) (.scatter (WS.of (WS.word 2 w))) := by
    unfold decodeWord decodeAsync
    rw [WS.op_word]
    rfl
  rw [e, WS.of_word]
  simp [optL, mustX, noX]

theorem wait : ∀ w, Statement (.wait w) := by
  intro w hw c h
  cases (h : some _ = some c)
  have e : decodeWord .async (WS.word 3 w) (none) = noX none (.wait (WS.of (WS.word 3 w))) := by
    unfold decodeWord decodeAsync
    rw [WS.op_word]
    rfl
  rw [e, WS.of_word]
  simp [optL, mustX, noX]

theorem cnt : ∀ w, Statement (.cnt w) := by
  intro w hw c h
  cases (h : some _ = some c)
  have e : decodeWord .async (WS.word 4 w) (none) = noX none (.cnt (WS.of (WS.word 4 w))) := by
    unfold decodeWord decodeAsync
    rw [WS.op_word]
    rfl
  rw [e, WS.of_word]
  simp [optL, mustX, noX]

theorem xfence : ∀ w, Statement (.xfence w) := by
  intro w hw c h
  cases (h : some _ = some c)
  have e : decodeWord .async (WS.word 5 w) (none) = noX none (.xfence (WS.of (WS.word 5 w))) := by
    unfold decodeWord decodeAsync
    rw [WS.op_word]
    rfl
  rw [e, WS.of_word]
  simp [optL, mustX, noX]

theorem getwork : ∀ w, Statement (.getwork w) := by
  intro w hw c h
  cases (h : some _ = some c)
  simp only [Instr.wf, bne_iff_ne, beq_iff_eq, Bool.and_eq_true, ne_eq] at hw
  simp [decodeWord, decodeAsync, hw, optX, optL, mustX, noX]

theorem getworkNw : ∀ w, Statement (.getworkNw w) := by
  intro w hw c h
  cases (h : some _ = some c)
  simp only [Instr.wf, bne_iff_ne, beq_iff_eq, Bool.and_eq_true, ne_eq] at hw
  simp [decodeWord, decodeAsync, hw, optX, optL, mustX, noX]

theorem spawn : ∀ w l, Statement (.spawn w l) := by
  intro w l hw c h
  cases (h : some _ = some c)
  have e : decodeWord .async (WA.word 9 w) (some l.word) = mustX SpawnLit.of (some l.word) (.spawn (WA.of (WA.word 9 w))) := by
    unfold decodeWord decodeAsync
    rw [WA.op_word]
    rfl
  rw [e, WA.of_word]
  simp [optL, mustX, noX]

theorem stmc : ∀ w l, Statement (.stmc w l) := by
  intro w l hw c h
  cases (h : some _ = some c)
  have e : decodeWord .async (WA.word 12 w) (some l.word) = mustX McLit.of (some l.word) (.stmc (WA.of (WA.word 12 w))) := by
    unfold decodeWord decodeAsync
    rw [WA.op_word]
    rfl
  rw [e, WA.of_word]
  simp [optL, mustX, noX]

theorem redmc : ∀ w l, Statement (.redmc w l) := by
  intro w l hw c h
  cases (h : some _ = some c)
  have e : decodeWord .async (WA.word 13 w) (some l.word) = mustX McLit.of (some l.word) (.redmc (WA.of (WA.word 13 w))) := by
    unfold decodeWord decodeAsync
    rw [WA.op_word]
    rfl
  rw [e, WA.of_word]
  simp [optL, mustX, noX]

theorem tdesc : ∀ w l, Statement (.tdesc w l) := by
  intro w l hw c h
  cases (h : some _ = some c)
  have e : decodeWord .async (WA.word 16 w) (some l.word) = mustX TreeLit.of (some l.word) (.tdesc (WA.of (WA.word 16 w))) := by
    unfold decodeWord decodeAsync
    rw [WA.op_word]
    rfl
  rw [e, WA.of_word]
  simp [optL, mustX, noX]

theorem texp : ∀ w l, Statement (.texp w l) := by
  intro w l hw c h
  cases (h : some _ = some c)
  have e : decodeWord .async (WA.word 17 w) (some l.word) = mustX TreeLit.of (some l.word) (.texp (WA.of (WA.word 17 w))) := by
    unfold decodeWord decodeAsync
    rw [WA.op_word]
    rfl
  rw [e, WA.of_word]
  simp [optL, mustX, noX]

theorem tback : ∀ w l, Statement (.tback w l) := by
  intro w l hw c h
  cases (h : some _ = some c)
  have e : decodeWord .async (WA.word 18 w) (some l.word) = mustX TreeLit.of (some l.word) (.tback (WA.of (WA.word 18 w))) := by
    unfold decodeWord decodeAsync
    rw [WA.op_word]
    rfl
  rw [e, WA.of_word]
  simp [optL, mustX, noX]

theorem treuse : ∀ w, Statement (.treuse w) := by
  intro w hw c h
  cases (h : some _ = some c)
  have e : decodeWord .async (WS.word 19 w) (none) = noX none (.treuse (WS.of (WS.word 19 w))) := by
    unfold decodeWord decodeAsync
    rw [WS.op_word]
    rfl
  rw [e, WS.of_word]
  simp [optL, mustX, noX]

theorem tnode : ∀ w, Statement (.tnode w) := by
  intro w hw c h
  cases (h : some _ = some c)
  simp only [Instr.wf, bne_iff_ne, beq_iff_eq, Bool.and_eq_true, ne_eq] at hw
  simp [decodeWord, decodeAsync, hw, optX, optL, mustX, noX]

theorem tnodeLink : ∀ w, Statement (.tnodeLink w) := by
  intro w hw c h
  cases (h : some _ = some c)
  simp only [Instr.wf, bne_iff_ne, beq_iff_eq, Bool.and_eq_true, ne_eq] at hw
  simp [decodeWord, decodeAsync, hw, optX, optL, mustX, noX]

theorem barArv : ∀ w, Statement (.barArv w) := by
  intro w hw c h
  cases (h : some _ = some c)
  simp only [Instr.wf, bne_iff_ne, beq_iff_eq, Bool.and_eq_true, ne_eq] at hw
  simp only [decodeWord, decodeSync, WS.op_word, BitVec.toNat_ofNat, Nat.reducePow, Nat.reduceMod]
  split <;> simp_all [optX, optL, mustX, noX]

theorem barWait : ∀ w, Statement (.barWait w) := by
  intro w hw c h
  cases (h : some _ = some c)
  simp only [Instr.wf, bne_iff_ne, beq_iff_eq, Bool.and_eq_true, ne_eq] at hw
  simp [decodeWord, decodeSync, hw, optX, optL, mustX, noX]

theorem barSync : ∀ w, Statement (.barSync w) := by
  intro w hw c h
  cases (h : some _ = some c)
  simp only [Instr.wf, bne_iff_ne, beq_iff_eq, Bool.and_eq_true, ne_eq] at hw
  simp [decodeWord, decodeSync, hw, optX, optL, mustX, noX]

theorem barq : ∀ w, Statement (.barq w) := by
  intro w hw c h
  cases (h : some _ = some c)
  have e : decodeWord .sync (WS.word 1 w) (none) = noX none (.barq (WS.of (WS.word 1 w))) := by
    unfold decodeWord decodeSync
    rw [WS.op_word]
    rfl
  rw [e, WS.of_word]
  simp [optL, mustX, noX]

theorem fenceAcq : ∀ w, Statement (.fenceAcq w) := by
  intro w hw c h
  cases (h : some _ = some c)
  simp only [Instr.wf, bne_iff_ne, beq_iff_eq, Bool.and_eq_true, ne_eq] at hw
  simp only [decodeWord, decodeSync, WC.op_word, BitVec.toNat_ofNat, Nat.reducePow, Nat.reduceMod]
  split <;> simp_all [optX, optL, mustX, noX]

theorem fenceRel : ∀ w, Statement (.fenceRel w) := by
  intro w hw c h
  cases (h : some _ = some c)
  simp only [Instr.wf, bne_iff_ne, beq_iff_eq, Bool.and_eq_true, ne_eq] at hw
  simp [decodeWord, decodeSync, hw, optX, optL, mustX, noX]

theorem fenceFull : ∀ w, Statement (.fenceFull w) := by
  intro w hw c h
  cases (h : some _ = some c)
  simp only [Instr.wf, bne_iff_ne, beq_iff_eq, Bool.and_eq_true, ne_eq] at hw
  simp [decodeWord, decodeSync, hw, optX, optL, mustX, noX]

theorem sigSet : ∀ w l, Statement (.sigSet w l) := by
  intro w l hw c h
  cases (h : some _ = some c)
  simp only [Instr.wf, bne_iff_ne, beq_iff_eq, Bool.and_eq_true, ne_eq] at hw
  simp [decodeWord, decodeSync, hw, optX, optL, mustX, noX]

theorem sigAdd : ∀ w l, Statement (.sigAdd w l) := by
  intro w l hw c h
  cases (h : some _ = some c)
  simp only [Instr.wf, bne_iff_ne, beq_iff_eq, Bool.and_eq_true, ne_eq] at hw
  simp [decodeWord, decodeSync, hw, optX, optL, mustX, noX]

theorem sigSetRet : ∀ w l, Statement (.sigSetRet w l) := by
  intro w l hw c h
  cases (h : some _ = some c)
  simp only [Instr.wf, bne_iff_ne, beq_iff_eq, Bool.and_eq_true, ne_eq] at hw
  simp [decodeWord, decodeSync, hw, optX, optL, mustX, noX]

theorem sigAddRet : ∀ w l, Statement (.sigAddRet w l) := by
  intro w l hw c h
  cases (h : some _ = some c)
  simp only [Instr.wf, bne_iff_ne, beq_iff_eq, Bool.and_eq_true, ne_eq] at hw
  simp [decodeWord, decodeSync, hw, optX, optL, mustX, noX]

theorem sigw : ∀ w, Statement (.sigw w) := by
  intro w hw c h
  cases (h : some _ = some c)
  have e : decodeWord .sync (WS.word 4 w) (none) = noX none (.sigw (WS.of (WS.word 4 w))) := by
    unfold decodeWord decodeSync
    rw [WS.op_word]
    rfl
  rw [e, WS.of_word]
  simp [optL, mustX, noX]

theorem fork : ∀ w, Statement (.fork w) := by
  intro w hw c h
  cases (h : some _ = some c)
  have e : decodeWord .sync (WS.word 5 w) (none) = noX none (.fork (WS.of (WS.word 5 w))) := by
    unfold decodeWord decodeSync
    rw [WS.op_word]
    rfl
  rw [e, WS.of_word]
  simp [optL, mustX, noX]

theorem choose : ∀ w, Statement (.choose w) := by
  intro w hw c h
  cases (h : some _ = some c)
  have e : decodeWord .sync (WS.word 6 w) (none) = noX none (.choose (WS.of (WS.word 6 w))) := by
    unfold decodeWord decodeSync
    rw [WS.op_word]
    rfl
  rw [e, WS.of_word]
  simp [optL, mustX, noX]

theorem viewId : ∀ w, Statement (.viewId w) := by
  intro w hw c h
  cases (h : some _ = some c)
  simp only [Instr.wf, bne_iff_ne, beq_iff_eq, Bool.and_eq_true, ne_eq] at hw
  simp only [decodeWord, decodeSync, WS.op_word, BitVec.toNat_ofNat, Nat.reducePow, Nat.reduceMod]
  split <;> simp_all [optX, optL, mustX, noX]

theorem viewRival : ∀ w, Statement (.viewRival w) := by
  intro w hw c h
  cases (h : some _ = some c)
  simp only [Instr.wf, bne_iff_ne, beq_iff_eq, Bool.and_eq_true, ne_eq] at hw
  simp [decodeWord, decodeSync, hw, optX, optL, mustX, noX]

theorem viewDepth : ∀ w, Statement (.viewDepth w) := by
  intro w hw c h
  cases (h : some _ = some c)
  simp only [Instr.wf, bne_iff_ne, beq_iff_eq, Bool.and_eq_true, ne_eq] at hw
  simp [decodeWord, decodeSync, hw, optX, optL, mustX, noX]

theorem viewParent : ∀ w, Statement (.viewParent w) := by
  intro w hw c h
  cases (h : some _ = some c)
  simp only [Instr.wf, bne_iff_ne, beq_iff_eq, Bool.and_eq_true, ne_eq] at hw
  simp [decodeWord, decodeSync, hw, optX, optL, mustX, noX]

theorem viewLog : ∀ w, Statement (.viewLog w) := by
  intro w hw c h
  cases (h : some _ = some c)
  simp only [Instr.wf, bne_iff_ne, beq_iff_eq, Bool.and_eq_true, ne_eq] at hw
  simp [decodeWord, decodeSync, hw, optX, optL, mustX, noX]

theorem viewSect : ∀ w, Statement (.viewSect w) := by
  intro w hw c h
  cases (h : some _ = some c)
  simp only [Instr.wf, bne_iff_ne, beq_iff_eq, Bool.and_eq_true, ne_eq] at hw
  simp [decodeWord, decodeSync, hw, optX, optL, mustX, noX]

theorem viewDec : ∀ w, Statement (.viewDec w) := by
  intro w hw c h
  cases (h : some _ = some c)
  simp only [Instr.wf, bne_iff_ne, beq_iff_eq, Bool.and_eq_true, ne_eq] at hw
  simp [decodeWord, decodeSync, hw, optX, optL, mustX, noX]

theorem trap : ∀ w, Statement (.trap w) := by
  intro w hw c h
  cases (h : some _ = some c)
  have e : decodeWord .system (WC.word 0 w) (none) = noX none (.trap (WC.of (WC.word 0 w))) := by
    unfold decodeWord decodeSystem
    rw [WC.op_word]
    rfl
  rw [e, WC.of_word]
  simp [optL, mustX, noX]

theorem bkpt : ∀ w, Statement (.bkpt w) := by
  intro w hw c h
  cases (h : some _ = some c)
  have e : decodeWord .system (WC.word 1 w) (none) = noX none (.bkpt (WC.of (WC.word 1 w))) := by
    unfold decodeWord decodeSystem
    rw [WC.op_word]
    rfl
  rw [e, WC.of_word]
  simp [optL, mustX, noX]

theorem rte : ∀ w, Statement (.rte w) := by
  intro w hw c h
  cases (h : some _ = some c)
  have e : decodeWord .system (WC.word 2 w) (none) = noX none (.rte (WC.of (WC.word 2 w))) := by
    unfold decodeWord decodeSystem
    rw [WC.op_word]
    rfl
  rw [e, WC.of_word]
  simp [optL, mustX, noX]

theorem sreadp : ∀ w, Statement (.sreadp w) := by
  intro w hw c h
  cases (h : some _ = some c)
  have e : decodeWord .system (WS.word 3 w) (none) = noX none (.sreadp (WS.of (WS.word 3 w))) := by
    unfold decodeWord decodeSystem
    rw [WS.op_word]
    rfl
  rw [e, WS.of_word]
  simp [optL, mustX, noX]

theorem swritep : ∀ w, Statement (.swritep w) := by
  intro w hw c h
  cases (h : some _ = some c)
  have e : decodeWord .system (WS.word 4 w) (none) = noX none (.swritep (WS.of (WS.word 4 w))) := by
    unfold decodeWord decodeSystem
    rw [WS.op_word]
    rfl
  rw [e, WS.of_word]
  simp [optL, mustX, noX]

theorem haltg : ∀ w, Statement (.haltg w) := by
  intro w hw c h
  cases (h : some _ = some c)
  have e : decodeWord .system (WC.word 5 w) (none) = noX none (.haltg (WC.of (WC.word 5 w))) := by
    unfold decodeWord decodeSystem
    rw [WC.op_word]
    rfl
  rw [e, WC.of_word]
  simp [optL, mustX, noX]

theorem launch : ∀ p kdesc argp teams prio, Statement (.launch p kdesc argp teams prio) := by
  intros; intro _ c h; cases (h : none = some c)

theorem nodeFeed : ∀ p ntab raddr count node last, Statement (.nodeFeed p ntab raddr count node last) := by
  intros; intro _ c h; cases (h : none = some c)

theorem signalSet : ∀ p value sig op, Statement (.signalSet p value sig op) := by
  intros; intro _ c h; cases (h : none = some c)

theorem signalWait : ∀ p cmpv sig cond tmo, Statement (.signalWait p cmpv sig cond tmo) := by
  intros; intro _ c h; cases (h : none = some c)

theorem signalWaitTimeout : ∀ c q idx, Statement (.signalWaitTimeout c q idx) := by
  intros; intro _ c h; cases (h : none = some c)

theorem copy : ∀ p src dst bytes, Statement (.copy p src dst bytes) := by
  intros; intro _ c h; cases (h : none = some c)

theorem preemptSave : ∀ p force drain, Statement (.preemptSave p force drain) := by
  intros; intro _ c h; cases (h : none = some c)

theorem preemptRestore : ∀ p, Statement (.preemptRestore p) := by
  intros; intro _ c h; cases (h : none = some c)

theorem nopPacket : ∀ p, Statement (.nopPacket p) := by
  intros; intro _ c h; cases (h : none = some c)

theorem coachhouseEvent : Statement (.coachhouseEvent) := by
  intro _ c h; cases (h : none = some c)

theorem replayServiceAnswer : ∀ g done, Statement (.replayServiceAnswer g done) := by
  intros; intro _ c h; cases (h : none = some c)

theorem faultLimitExpiry : ∀ g, Statement (.faultLimitExpiry g) := by
  intros; intro _ c h; cases (h : none = some c)

theorem deathNotice : ∀ peer, Statement (.deathNotice peer) := by
  intros; intro _ c h; cases (h : none = some c)

theorem dispatchPass : ∀ pid, Statement (.dispatchPass pid) := by
  intros; intro _ c h; cases (h : none = some c)

theorem remoteTrafficSample : ∀ l, Statement (.remoteTrafficSample l) := by
  intros; intro _ c h; cases (h : none = some c)

theorem binTimerLapse : ∀ grid node, Statement (.binTimerLapse grid node) := by
  intros; intro _ c h; cases (h : none = some c)

theorem binAdmit : ∀ grid node, Statement (.binAdmit grid node) := by
  intros; intro _ c h; cases (h : none = some c)

theorem nodeEndToken : ∀ grid node, Statement (.nodeEndToken grid node) := by
  intros; intro _ c h; cases (h : none = some c)

theorem leaveGrant : ∀ die, Statement (.leaveGrant die) := by
  intros; intro _ c h; cases (h : none = some c)

theorem matrixLeaseLapse : ∀ core, Statement (.matrixLeaseLapse core) := by
  intros; intro _ c h; cases (h : none = some c)

theorem clauseFetch : ∀ g slot, Statement (.clauseFetch g slot) := by
  intros; intro _ c h; cases (h : none = some c)

theorem ageWrap : ∀ core pipe, Statement (.ageWrap core pipe) := by
  intros; intro _ c h; cases (h : none = some c)

theorem splitRotation : ∀ g slot, Statement (.splitRotation g slot) := by
  intros; intro _ c h; cases (h : none = some c)

theorem variableResultWrite : ∀ g k, Statement (.variableResultWrite g k) := by
  intros; intro _ c h; cases (h : none = some c)

theorem matrixQueueExecute : ∀ core, Statement (.matrixQueueExecute core) := by
  intros; intro _ c h; cases (h : none = some c)

theorem joinWindowClose : ∀ core tag, Statement (.joinWindowClose core tag) := by
  intros; intro _ c h; cases (h : none = some c)

theorem asyncOpComplete : ∀ g path k lane, Statement (.asyncOpComplete g path k lane) := by
  intros; intro _ c h; cases (h : none = some c)

theorem invalidationAck : ∀ line core, Statement (.invalidationAck line core) := by
  intros; intro _ c h; cases (h : none = some c)

theorem hitchLineReturn : ∀ line, Statement (.hitchLineReturn line) := by
  intros; intro _ c h; cases (h : none = some c)

theorem linkSleep : ∀ die, Statement (.linkSleep die) := by
  intros; intro _ c h; cases (h : none = some c)

theorem wakeBeacon : ∀ die, Statement (.wakeBeacon die) := by
  intros; intro _ c h; cases (h : none = some c)

theorem wakeHoldTimeout : ∀ die, Statement (.wakeHoldTimeout die) := by
  intros; intro _ c h; cases (h : none = some c)

theorem dieDeclaredDead : ∀ die, Statement (.dieDeclaredDead die) := by
  intros; intro _ c h; cases (h : none = some c)

theorem dieFenceCommand : ∀ die, Statement (.dieFenceCommand die) := by
  intros; intro _ c h; cases (h : none = some c)

theorem dieTestComplete : ∀ die pass, Statement (.dieTestComplete die pass) := by
  intros; intro _ c h; cases (h : none = some c)

theorem coldStart : Statement (.coldStart) := by
  intro _ c h; cases (h : none = some c)

theorem warmStart : Statement (.warmStart) := by
  intro _ c h; cases (h : none = some c)

theorem barrierWatchdog : ∀ g slot, Statement (.barrierWatchdog g slot) := by
  intros; intro _ c h; cases (h : none = some c)

theorem contextWatchdog : ∀ g slot, Statement (.contextWatchdog g slot) := by
  intros; intro _ c h; cases (h : none = some c)

theorem abandonGraceExpiry : ∀ c, Statement (.abandonGraceExpiry c) := by
  intros; intro _ c h; cases (h : none = some c)

theorem drainLimit : ∀ c dev, Statement (.drainLimit c dev) := by
  intros; intro _ c h; cases (h : none = some c)

theorem drainComplete : ∀ c dev, Statement (.drainComplete c dev) := by
  intros; intro _ c h; cases (h : none = some c)

theorem saveAreaWriteout : ∀ c dev fits, Statement (.saveAreaWriteout c dev fits) := by
  intros; intro _ c h; cases (h : none = some c)

theorem restorePlacement : ∀ c dev, Statement (.restorePlacement c dev) := by
  intros; intro _ c h; cases (h : none = some c)

theorem teamRetire : ∀ t, Statement (.teamRetire t) := by
  intros; intro _ c h; cases (h : none = some c)

theorem gridRetire : ∀ grid, Statement (.gridRetire grid) := by
  intros; intro _ c h; cases (h : none = some c)

theorem landauReclaim : ∀ k n, Statement (.landauReclaim k n) := by
  intros; intro _ c h; cases (h : none = some c)

theorem remoteInboundRequest : ∀ r, Statement (.remoteInboundRequest r) := by
  intros; intro _ c h; cases (h : none = some c)

theorem multicastCopyArrival : ∀ r, Statement (.multicastCopyArrival r) := by
  intros; intro _ c h; cases (h : none = some c)

theorem reductionInstanceComplete : ∀ gid off n others, Statement (.reductionInstanceComplete gid off n others) := by
  intros; intro _ c h; cases (h : none = some c)

theorem multicastAckReturn : ∀ g k sts, Statement (.multicastAckReturn g k sts) := by
  intros; intro _ c h; cases (h : none = some c)

theorem fabricResend : ∀ g k, Statement (.fabricResend g k) := by
  intros; intro _ c h; cases (h : none = some c)

theorem fabricPortSilence : ∀ peer plane, Statement (.fabricPortSilence peer plane) := by
  intros; intro _ c h; cases (h : none = some c)

theorem waitDeadline : ∀ g slot, Statement (.waitDeadline g slot) := by
  intros; intro _ c h; cases (h : none = some c)

theorem barWaitDeadline : ∀ g slot, Statement (.barWaitDeadline g slot) := by
  intros; intro _ c h; cases (h : none = some c)

theorem sigwDeadline : ∀ g slot, Statement (.sigwDeadline g slot) := by
  intros; intro _ c h; cases (h : none = some c)

theorem storeCompletion : ∀ g k, Statement (.storeCompletion g k) := by
  intros; intro _ c h; cases (h : none = some c)

theorem copyCompletion : ∀ c q idx, Statement (.copyCompletion c q idx) := by
  intros; intro _ c h; cases (h : none = some c)

theorem contextCreate : ∀ r, Statement (.contextCreate r) := by
  intros; intro _ c h; cases (h : none = some c)

theorem partitionCreate : ∀ port r, Statement (.partitionCreate port r) := by
  intros; intro _ c h; cases (h : none = some c)

theorem partitionRewrite : ∀ port r, Statement (.partitionRewrite port r) := by
  intros; intro _ c h; cases (h : none = some c)

theorem partitionDelete : ∀ port pid, Statement (.partitionDelete port pid) := by
  intros; intro _ c h; cases (h : none = some c)

theorem quotaWrite : ∀ c r, Statement (.quotaWrite c r) := by
  intros; intro _ c h; cases (h : none = some c)

theorem clusterMapRead : ∀ port die, Statement (.clusterMapRead port die) := by
  intros; intro _ c h; cases (h : none = some c)

theorem peerNumberRead : ∀ fn, Statement (.peerNumberRead fn) := by
  intros; intro _ c h; cases (h : none = some c)

theorem reachMaskSet : ∀ c m, Statement (.reachMaskSet c m) := by
  intros; intro _ c h; cases (h : none = some c)

theorem groupMaskSet : ∀ c m, Statement (.groupMaskSet c m) := by
  intros; intro _ c h; cases (h : none = some c)

theorem inboundWindowWrite : ∀ c w r, Statement (.inboundWindowWrite c w r) := by
  intros; intro _ c h; cases (h : none = some c)

theorem retirementRecordRead : ∀ c q idx, Statement (.retirementRecordRead c q idx) := by
  intros; intro _ c h; cases (h : none = some c)

theorem perfCounterRead : ∀ c core n, Statement (.perfCounterRead c core n) := by
  intros; intro _ c h; cases (h : none = some c)

theorem viewTableRead : ∀ fn v, Statement (.viewTableRead fn v) := by
  intros; intro _ c h; cases (h : none = some c)

theorem abandonRequest : ∀ c, Statement (.abandonRequest c) := by
  intros; intro _ c h; cases (h : none = some c)

theorem peerStateWrite : ∀ peer v, Statement (.peerStateWrite peer v) := by
  intros; intro _ c h; cases (h : none = some c)

theorem multicastTableInstall : ∀ spine sw gid r, Statement (.multicastTableInstall spine sw gid r) := by
  intros; intro _ c h; cases (h : none = some c)

theorem recoverySlotWrite : ∀ slot port, Statement (.recoverySlotWrite slot port) := by
  intros; intro _ c h; cases (h : none = some c)

theorem packageStop : ∀ what region, Statement (.packageStop what region) := by
  intros; intro _ c h; cases (h : none = some c)

theorem hostApertureAccess : ∀ c r, Statement (.hostApertureAccess c r) := by
  intros; intro _ c h; cases (h : none = some c)

theorem doorbell : ∀ c q v, Statement (.doorbell c q v) := by
  intros; intro _ c h; cases (h : none = some c)

theorem qctlResume : ∀ c q, Statement (.qctlResume c q) := by
  intros; intro _ c h; cases (h : none = some c)

theorem qctlReset : ∀ c q, Statement (.qctlReset c q) := by
  intros; intro _ c h; cases (h : none = some c)

theorem qcfgWrite : ∀ c q v, Statement (.qcfgWrite c q v) := by
  intros; intro _ c h; cases (h : none = some c)

theorem registerWrite : ∀ c q off v, Statement (.registerWrite c q off v) := by
  intros; intro _ c h; cases (h : none = some c)

theorem signalWindowAcquire : ∀ c n, Statement (.signalWindowAcquire c n) := by
  intros; intro _ c h; cases (h : none = some c)

theorem signalWindowWrite : ∀ c n v, Statement (.signalWindowWrite c n v) := by
  intros; intro _ c h; cases (h : none = some c)

theorem pciePortDown : ∀ port, Statement (.pciePortDown port) := by
  intros; intro _ c h; cases (h : none = some c)

end Sys2Proof.Laws.RoundTrip
end

