-- ==== Sys2Proof/Laws/Rest.lean ====
section
/-! SUPPORT. What the shared operations of a word leave alone outside its group: one lemma for each operation. -/
namespace Sys2Proof.Machine

theorem RestKept.refl (s : State) (g : Nat) : RestKept s s g where
  plain := rfl
  groups _ _ := rfl
  cores _ := rfl
  ctxs _ c h := ⟨c.perf, h⟩
  grids _ r h := ⟨r.orph, r.cond, h⟩

theorem RestKept.trans {s t u : State} {g : Nat} (h : RestKept s t g) (k : RestKept t u g) : RestKept s u g where
  plain := by rw [k.plain, h.plain]
  groups j hj := by rw [k.groups j hj, h.groups j hj]
  cores j := by rw [k.cores j, h.cores j]
  ctxs n c hc := by
    obtain ⟨p, hp⟩ := h.ctxs n c hc
    obtain ⟨q, hq⟩ := k.ctxs n _ hp
    exact ⟨q, hq⟩
  grids n r hr := by
    obtain ⟨o, c, hp⟩ := h.grids n r hr
    obtain ⟨o', c', hq⟩ := k.grids n _ hp
    exact ⟨o', c', hq⟩

/-- A change to the group itself. -/
theorem updGrp_rest (s : State) (g : Nat) (f : Group → Group) : RestKept s (s.updGrp g f) g where
  plain := by unfold State.updGrp; split <;> rfl
  groups h hh := by simp [hh]
  cores k := by simp [State.coreOf]
  ctxs n c h := ⟨c.perf, by simpa using h⟩
  grids n r h := ⟨r.orph, r.cond, by simpa using h⟩

/-- A change to a core's side table. -/
theorem updCore_rest (s : State) (g k : Nat) (f : Core → Core)
    (hf : ∀ c, f c = { c with side := (f c).side, gens := (f c).gens, ovf := (f c).ovf }) : RestKept s (s.updCore k f) g where
  plain := rfl
  groups _ _ := rfl
  cores j := by
    rw [State.coreOf_updCore]
    split
    · rename_i e; subst e; exact hf _
    · rfl
  ctxs _ c h := ⟨c.perf, h⟩
  grids _ r h := ⟨r.orph, r.cond, h⟩

/-- A performance counter goes on. -/
theorem bumpPerf_rest (s : State) (g : Nat) (x : Group) (k n : Nat) : RestKept s (s.bumpPerf x k n) g where
  plain := by
    unfold State.bumpPerf State.updCtx
    split
    · rfl
    · split <;> rfl
  groups h _ := by unfold State.bumpPerf; split <;> simp
  cores j := by unfold State.bumpPerf; split <;> simp [State.coreOf]
  ctxs m c h := by
    unfold State.bumpPerf
    split
    · exact ⟨c.perf, h⟩
    · rw [State.find_updCtx]
      split
      · rename_i e; subst e; rw [h]; exact ⟨_, rfl⟩
      · exact ⟨c.perf, h⟩
  grids m r h := by
    unfold State.bumpPerf
    split
    · exact ⟨r.orph, r.cond, h⟩
    · exact ⟨r.orph, r.cond, by simpa using h⟩

/-- A launch's orphan record. -/
theorem updGrid_rest (s : State) (g n : Nat) (f : Grid → Grid) (hf : ∀ r, ∃ o c, f r = { r with orph := o, cond := c }) :
    RestKept s (s.updGrid n f) g where
  plain := by unfold State.updGrid; split <;> rfl
  groups h _ := by simp
  cores j := by simp [State.coreOf]
  ctxs m c h := ⟨c.perf, by simpa using h⟩
  grids m r h := by
    rw [State.find_updGrid]
    split
    · rename_i e
      subst e
      rw [h]
      obtain ⟨o, c, e⟩ := hf r
      exact ⟨o, c, by simp [e]⟩
    · exact ⟨r.orph, r.cond, h⟩

/-- A new side-table entry (R232, R233). -/
theorem newEntryIn_rest (s : State) (g : Nat) (region : BitVec 16) (pc : BitVec 64) (f : Fail) (lane : Nat) :
    RestKept s (newEntryIn s g region pc f lane).1 g := by
  unfold newEntryIn
  simp only
  refine RestKept.trans ?_ (bumpPerf_rest _ _ _ _ _)
  refine RestKept.trans ?_ (updCore_rest _ _ _ _ (fun c => rfl))
  split
  · exact RestKept.refl _ _
  · exact updGrp_rest _ _ _

theorem newEntry_rest (s : State) (g : Nat) (pc : BitVec 64) (f : Fail) (lane : Nat) : RestKept s (newEntry s g pc f lane).1 g :=
  newEntryIn_rest _ _ _ _ _ _

theorem poison_rest (s : State) (g : Nat) (pc : BitVec 64) (ts : Toks) (f : Fail) (lane : Nat) :
    RestKept s (poison s g pc ts f lane).1 g := by
  unfold poison
  split
  · exact RestKept.refl _ _
  · exact newEntry_rest _ _ _ _ _

/-- Results of a word's lanes: tokens are made, and nothing else is touched. -/
theorem resolve_rest (g : Nat) (pc : BitVec 64) (l : List (Nat × LVal)) :
    ∀ (s : State) (ts : Toks), RestKept s (resolve s g pc ts l).1 g := by
  induction l with
  | nil => intro s ts; exact RestKept.refl _ _
  | cons e l ih =>
    intro s ts
    obtain ⟨i, r⟩ := e
    cases r with
    | val n => exact ih s ts
    | tok t => exact ih s ts
    | new f =>
      simp only [resolve]
      exact RestKept.trans (poison_rest s g pc ts f i) (ih _ _)
    | beside t =>
      cases t with
      | some t =>
        simp only [resolve]
        exact RestKept.trans (poison_rest s g pc ts _ i) (ih _ _)
      | none =>
        simp only [resolve]
        exact RestKept.trans (RestKept.trans (poison_rest s g pc ts _ i) (poison_rest _ g pc _ _ i)) (ih _ _)

/-- Values and inherited tokens make no entry (R231, R236). -/
theorem resolve_plain (g : Nat) (pc : BitVec 64) (s : State) (ts : Toks) (l : List (Nat × LVal))
    (h : ∀ e ∈ l, ∀ f, e.2 ≠ .new f) (hb : ∀ e ∈ l, ∀ t, e.2 ≠ .beside t) :
    resolve s g pc ts l = (s, ts, l.map (fun e => match e.2 with
      | .val n => (e.1, n, none)
      | .tok t => (e.1, 0, some t)
      | .new _ => (e.1, 0, none)
      | .beside _ => (e.1, 0, none))) := by
  induction l with
  | nil => rfl
  | cons e l ih =>
    obtain ⟨i, r⟩ := e
    have ih := ih (fun e he => h e (List.mem_cons_of_mem _ he)) (fun e he => hb e (List.mem_cons_of_mem _ he))
    cases r with
    | val n => simp [resolve, ih]
    | tok t => simp [resolve, ih]
    | new f => exact absurd rfl (h (i, .new f) (List.mem_cons_self ..) f)
    | beside t => exact absurd rfl (hb (i, .beside t) (List.mem_cons_self ..) t)

theorem orphan_rest (s : State) (g : Nat) (t : Word) : RestKept s (orphan s g t) g := by
  unfold orphan
  simp only
  split
  · exact updGrp_rest _ _ _
  · exact RestKept.trans (updGrp_rest _ _ _) (updGrid_rest _ _ _ _ (fun r => ⟨_, _, rfl⟩))

/-- A flagged token (R241, R247). -/
theorem flagRegion_rest (s : State) (g : Nat) (t : Word) (i : Nat) (b : Bool) : RestKept s (flagRegion s g t i b) g := by
  unfold flagRegion
  simp only
  split
  · exact updGrp_rest _ _ _
  · exact orphan_rest _ _ _

theorem malformedNoDest_rest (s : State) (g : Nat) (pc : BitVec 64) (act : Mask) : RestKept s (malformedNoDest s g pc act) g :=
  RestKept.trans (newEntry_rest _ _ _ _ _) (flagRegion_rest _ _ _ _ _)

theorem put_rest (s : State) (g : Nat) (ws : List RegWrite) : RestKept s (put s g ws) g := updGrp_rest _ _ _

theorem owe_rest (s : State) (g : Nat) (ws : List RegWrite) : RestKept s (owe s g ws) g := by
  unfold owe
  split
  · exact RestKept.refl _ _
  · exact updGrp_rest _ _ _

/-- The results of a lane word. -/
theorem finishLanes_rest (late : Bool) (d : VDest) (rsv : Bool) (f : Nat → LVal) (w : Wx) (s : State) :
    RestKept s (finishLanes late d rsv f w s) w.g := by
  unfold finishLanes
  simp only
  split
  · exact RestKept.refl _ _
  · split
    · exact RestKept.trans (resolve_rest _ _ _ _ _) (owe_rest _ _ _)
    · exact RestKept.trans (resolve_rest _ _ _ _ _) (put_rest _ _ _)

/-- The result of a scalar word. -/
theorem finishS_rest (late : Bool) (sd n : Nat) (r : LVal) (w : Wx) (s : State) : RestKept s (finishS late sd n r w s) w.g := by
  unfold finishS
  simp only
  split
  · exact RestKept.trans (resolve_rest _ _ _ _ _) (owe_rest _ _ _)
  · exact RestKept.trans (resolve_rest _ _ _ _ _) (put_rest _ _ _)

theorem reservedUse_rest (w : Wx) (s : State) : RestKept s (reservedUse w s) w.g := malformedNoDest_rest _ _ _ _

theorem flagOperand_rest (w : Wx) (r : LVal) (s : State) : RestKept s (flagOperand w r s) w.g := by
  unfold flagOperand
  split
  · exact flagRegion_rest _ _ _ _ _
  · exact reservedUse_rest _ _

/-- A lane word leaves alone what its action on the active lanes leaves alone. -/
theorem laneWord_rest (pred : BitVec 3) (f : Wx → State → State) (c : Cur) (s : State)
    (h : ∀ w s, w.g = c.gid → RestKept s (f w s) c.gid) : RestKept s (laneWord pred f c s) c.gid := by
  unfold laneWord
  simp only
  split
  · exact RestKept.trans (flagRegion_rest _ _ _ _ _) (h _ _ rfl)
  · exact h _ _ rfl

/-- A scalar word leaves alone what its action leaves alone. -/
theorem scalarWord_rest (qual : BitVec 3) (f : Wx → State → State) (c : Cur) (s : State)
    (h : ∀ w s, w.g = c.gid → RestKept s (f w s) c.gid) : RestKept s (scalarWord qual f c s) c.gid := by
  unfold scalarWord
  simp only
  split
  · exact h _ _ rfl
  · split
    · exact flagRegion_rest _ _ _ _ _
    · split
      · exact h _ _ rfl
      · exact RestKept.refl _ _

/-! ### The two shapes of a meaning -/

theorem onIssuer_next {s t : State} {f : Cur → State → State} : onIssuer s f = .next t ↔ ∃ c, s.cur = some c ∧ t = f c s := by
  unfold onIssuer
  cases s.cur with
  | none => simp
  | some c => simp [eq_comm]

theorem onIssuer_of_cur {s : State} {c : Cur} (f : Cur → State → State) (h : s.cur = some c) : onIssuer s f = .next (f c s) := by
  simp [onIssuer, h]

theorem onDevice_next {s t : State} {f : State → State} : onDevice s f = .next t ↔ t = f s := by simp [onDevice, eq_comm]

end Sys2Proof.Machine
end

