-- ==== Sys2Proof/Laws/Words.lean ====
section
/-! SUPPORT. What register writes do, and what a word's results come to in its group. -/
namespace Sys2Proof.Machine

/-! ### Register writes -/

theorem Group.wr_shape (x : Group) (w : RegWrite) : x.wr w = { x with v := (x.wr w).v, s := (x.wr w).s, p := (x.wr w).p, q := (x.wr w).q } := by
  unfold Group.wr
  split <;> (try split) <;> rfl

/-- Register writes change the four register files alone. -/
theorem Group.wrAll_shape (ws : List RegWrite) (x : Group) :
    x.wrAll ws = { x with v := (x.wrAll ws).v, s := (x.wrAll ws).s, p := (x.wrAll ws).p, q := (x.wrAll ws).q } := by
  induction ws generalizing x with
  | nil => rfl
  | cons w ws ih =>
    have h : x.wrAll (w :: ws) = (x.wr w).wrAll ws := rfl
    rw [h, ih (x.wr w), Group.wr_shape x w]

theorem Group.wrAll_nil (x : Group) : x.wrAll [] = x := rfl
theorem Group.wrAll_cons (x : Group) (w : RegWrite) (ws : List RegWrite) : x.wrAll (w :: ws) = (x.wr w).wrAll ws := rfl
theorem Group.wrAll_append (x : Group) (ws us : List RegWrite) : x.wrAll (ws ++ us) = (x.wrAll ws).wrAll us := by
  simp [Group.wrAll, List.foldl_append]

/-- One write and one read of a lane register. -/
theorem Group.rdV_wr (x : Group) (w : RegWrite) (r i : Nat) (hi : i < 128) (hw : w.lane < 128) :
    (x.wr w).rdV r i = if w.file = .v ∧ w.reg = r ∧ w.lane = i then w.val else x.rdV r i := by
  obtain ⟨f, reg, lane, val⟩ := w
  cases f <;> simp only [Group.wr, Group.rdV, reduceCtorEq, false_and, if_false, true_and]
  · rw [Map.get_set]
    have : (128 * r + i = 128 * reg + lane) ↔ (reg = r ∧ lane = i) := by simp only at hw; omega
    simp only [this]
  · split <;> rfl

theorem Group.rdP_wr (x : Group) (w : RegWrite) (r i : Nat) (hi : i < 128) (hw : w.lane < 128) (h7 : w.reg ≠ 7) :
    (x.wr w).rdP r i = if w.file = .p ∧ w.reg = r ∧ w.lane = i then w.val else x.rdP r i := by
  obtain ⟨f, reg, lane, val⟩ := w
  simp only at hw h7
  cases f <;> simp only [Group.wr, Group.rdP, reduceCtorEq, false_and, if_false, true_and]
  by_cases h : r = 7
  · subst h
    have : ¬(reg = 7 ∧ lane = i) := fun e => h7 e.1
    simp [h7]
  · have : (128 * r + i = 128 * reg + lane) ↔ (reg = r ∧ lane = i) := by omega
    simp [h7, h, Map.get_set, this]

theorem Group.rdS_wr (x : Group) (w : RegWrite) (r : Nat) : (x.wr w).rdS r = if w.file = .s ∧ w.reg = r then w.val else x.rdS r := by
  obtain ⟨f, reg, lane, val⟩ := w
  cases f <;> simp only [Group.wr, Group.rdS, reduceCtorEq, false_and, if_false, true_and]
  · rw [Map.get_set]; simp only [eq_comm]
  · split <;> rfl

theorem Group.rdQ_wr (x : Group) (w : RegWrite) (r : Nat) : (x.wr w).rdQ r = if w.file = .q ∧ w.reg = r then w.val else x.rdQ r := by
  obtain ⟨f, reg, lane, val⟩ := w
  cases f <;> simp only [Group.wr, Group.rdQ, reduceCtorEq, false_and, if_false, true_and]
  · split <;> rfl
  · rw [Map.get_set]; simp only [eq_comm]

/-- p7 reads true whatever is written (R94). -/
@[simp] theorem Group.rdP_seven (x : Group) (i : Nat) : x.rdP 7 i = ⟨1, false⟩ := rfl

/-- A register that no write names keeps its value. -/
theorem Group.rdV_wrAll_other (ws : List RegWrite) (x : Group) (r i : Nat) (hi : i < 128) (hl : ∀ w ∈ ws, w.lane < 128)
    (h : ∀ w ∈ ws, ¬(w.file = .v ∧ w.reg = r ∧ w.lane = i)) : (x.wrAll ws).rdV r i = x.rdV r i := by
  induction ws generalizing x with
  | nil => rfl
  | cons w ws ih =>
    rw [Group.wrAll_cons, ih _ (fun w hw => hl w (List.mem_cons_of_mem _ hw)) (fun w hw => h w (List.mem_cons_of_mem _ hw)),
      Group.rdV_wr x w r i hi (hl w (List.mem_cons_self ..)), if_neg (h w (List.mem_cons_self ..))]

theorem Group.rdS_wrAll_other (ws : List RegWrite) (x : Group) (r : Nat) (h : ∀ w ∈ ws, ¬(w.file = .s ∧ w.reg = r)) :
    (x.wrAll ws).rdS r = x.rdS r := by
  induction ws generalizing x with
  | nil => rfl
  | cons w ws ih =>
    rw [Group.wrAll_cons, ih _ (fun w hw => h w (List.mem_cons_of_mem _ hw)), Group.rdS_wr x w r, if_neg (h w (List.mem_cons_self ..))]

/-! ### Lanes -/

@[simp] theorem mem_lanesOf (m : Mask) (i : Nat) : i ∈ lanesOf m ↔ i < 128 ∧ inMask m i = true := by
  simp [lanesOf, inMask]

/-- One register written in every lane of a list, each lane with a value of its own. -/
theorem Group.rdV_lanes (l : List Nat) (g : Nat → Val) (d : Nat) (x : Group) (r j : Nat) (hj : j < 128) (hl : ∀ i ∈ l, i < 128) :
    (x.wrAll (l.map (fun i => ⟨.v, d, i, g i⟩))).rdV r j = if r = d ∧ j ∈ l then g j else x.rdV r j := by
  induction l generalizing x with
  | nil => simp [Group.wrAll_nil]
  | cons i l ih =>
    have hi := hl i (List.mem_cons_self ..)
    rw [List.map_cons, Group.wrAll_cons, ih _ (fun i h => hl i (List.mem_cons_of_mem _ h)), Group.rdV_wr x _ r j hj hi]
    by_cases hr : r = d
    · subst hr
      by_cases hm : j ∈ l
      · simp [hm]
      · by_cases e : i = j
        · subst e; simp
        · simp [hm, e, Ne.symm e]
    · have : ¬d = r := fun e => hr e.symm
      simp [hr, this]

theorem Group.rdP_lanes (l : List Nat) (g : Nat → Val) (d : Nat) (h7 : d ≠ 7) (x : Group) (r j : Nat) (hj : j < 128) (hl : ∀ i ∈ l, i < 128) :
    (x.wrAll (l.map (fun i => ⟨.p, d, i, g i⟩))).rdP r j = if r = d ∧ j ∈ l then g j else x.rdP r j := by
  induction l generalizing x with
  | nil => simp [Group.wrAll_nil]
  | cons i l ih =>
    have hi := hl i (List.mem_cons_self ..)
    rw [List.map_cons, Group.wrAll_cons, ih _ (fun i h => hl i (List.mem_cons_of_mem _ h)), Group.rdP_wr x _ r j hj hi h7]
    by_cases hr : r = d
    · subst hr
      by_cases hm : j ∈ l
      · simp [hm]
      · by_cases e : i = j
        · subst e; simp
        · simp [hm, e, Ne.symm e]
    · have : ¬d = r := fun e => hr e.symm
      simp [hr, this]

/-! ### Results -/

/-- The value that a result which makes no token leaves in a 32-bit register. -/
def LVal.asVal : LVal → Val
  | .val n => ⟨BitVec.ofNat 32 n, false⟩
  | .tok t => ⟨t, true⟩
  | .new _ => ⟨0, false⟩
  | .beside _ => ⟨0, false⟩

/-- A lane word whose results make no token: its one destination register is written in its active lanes, at once. -/
theorem finishLanes_put (f : RFile) (d : Nat) (res : Nat → LVal) (w : Wx) (s : State) (hr : w.inRange ⟨f, d, 1⟩ = true)
    (hn : ∀ i ∈ w.lanes, ∀ e, res i ≠ .new e) (hb : ∀ i ∈ w.lanes, ∀ e, res i ≠ .beside e) :
    finishLanes false ⟨f, d, 1⟩ false res w s = put s w.g (w.lanes.map (fun i => ⟨f, d, i, (res i).asVal⟩)) := by
  unfold finishLanes
  simp only [hr, Bool.not_true, Bool.false_eq_true, if_false]
  rw [resolve_plain _ _ _ _ _ (by simpa using hn) (by simpa using hb)]
  simp only [List.map_map]
  congr 1
  rw [List.flatMap_map]
  have : ∀ l : List Nat, (∀ i ∈ l, ∀ e, res i ≠ .new e) → (∀ i ∈ l, ∀ e, res i ≠ .beside e) →
      l.flatMap (fun i => laneWrites f d 1 (((fun e : Nat × LVal => match e.2 with
        | .val n => (e.1, n, none)
        | .tok t => (e.1, 0, some t)
        | .new _ => (e.1, 0, none)
        | .beside _ => (e.1, 0, none)) ∘ fun i => (i, res i)) i)) = l.map (fun i => ⟨f, d, i, (res i).asVal⟩) := by
    intro l hl hm
    induction l with
    | nil => rfl
    | cons i l ih =>
      rw [List.flatMap_cons, List.map_cons, ih (fun i h => hl i (List.mem_cons_of_mem _ h)) (fun i h => hm i (List.mem_cons_of_mem _ h))]
      have h := hl i (List.mem_cons_self ..)
      cases hri : res i with
      | val n => simp [laneWrites, LVal.asVal, Function.comp, hri]
      | tok t => simp [laneWrites, LVal.asVal, Function.comp, hri]
      | new e => exact absurd hri (h e)
      | beside e => exact absurd hri (hm i (List.mem_cons_self ..) e)
  exact this w.lanes hn hb

/-- A scalar word whose result makes no token: its one destination register is written, at once. -/
theorem finishS_put (sd : Nat) (r : LVal) (w : Wx) (s : State) (hn : ∀ e, r ≠ .new e) (hb : ∀ e, r ≠ .beside e) :
    finishS false sd 1 r w s = put s w.g [⟨.s, sd, 0, r.asVal⟩] := by
  unfold finishS
  cases r with
  | val n => simp [resolve, laneWrites, LVal.asVal]
  | tok t => simp [resolve, laneWrites, LVal.asVal]
  | new e => exact absurd rfl (hn e)
  | beside e => exact absurd rfl (hb e)

/-- A read of a settled register is the register's value. -/
@[simp] theorem pickRead_nil (sp : Split) (f : RFile) (r i : Nat) (b : Bool) (k : Nat) (v : Val) : pickRead sp f r i b k [] v = v := rfl

/-- The view of a word whose split has settled. -/
theorem Issuing.wx {s : State} {c : Cur} {x : Group} {sp : Split} {t : Team} (h : Issuing s c x sp t) :
    wxOf c s = { g := c.gid, slot := c.slot, x := x, sp := { sp with dist := sp.dist - stepOf c.word }, desc := t.desc, team := t,
                 act := sp.mask, draw := s.draws, pc := c.pc } := by
  unfold wxOf
  simp [State.grp_of_find h.group, h.team, h.split]

end Sys2Proof.Machine
end

