-- ==== Sys2Proof/Laws/Results.lean ====
section
/-! SUPPORT. What the results of a word come to: the one lemma for `finishLanes`, and the one for `finishS`. -/
namespace Sys2Proof.Machine

theorem Cause.code_lt (c : Cause) : c.code < 256 := by cases c <;> decide

theorem mkToken_toNat (c i g v : Nat) :
    (mkToken c i g v).toNat = (((c % 256) * 256 + i % 256) * 128 + g % 128) * 512 + v % 512 := by
  unfold mkToken
  have h1 := Nat.mod_lt i (show 0 < 256 by omega)
  have h2 := Nat.mod_lt g (show 0 < 128 by omega)
  have h3 := Nat.mod_lt v (show 0 < 512 by omega)
  simp only [BitVec.toNat_append, BitVec.toNat_ofNat, Nat.reducePow]
  rw [← Nat.shiftLeft_add_eq_or_of_lt (show i % 256 < 2 ^ 8 from h1), ← Nat.shiftLeft_add_eq_or_of_lt (show g % 128 < 2 ^ 7 from h2),
    ← Nat.shiftLeft_add_eq_or_of_lt (show v % 512 < 2 ^ 9 from h3)]
  simp only [Nat.shiftLeft_eq]
theorem mkToken_cause (c i g v : Nat) (h : c < 256) : (mkToken c i g v).toNat / 2 ^ 24 = c := by
  rw [mkToken_toNat]; omega
/-- A mask made from a list of lanes holds those lanes. -/
theorem inMask_maskOf (l : List Nat) (j : Nat) (hj : j < 128) : inMask (maskOf l) j = decide (j ∈ l) := by
  unfold maskOf
  have : ∀ (m : Mask), inMask (l.foldl (fun m i => m ||| BitVec.ofNat 128 (2 ^ i)) m) j = (inMask m j || decide (j ∈ l)) := by
    induction l with
    | nil => intro m; simp
    | cons i l ih =>
      intro m
      rw [List.foldl_cons, ih]
      have : inMask (m ||| BitVec.ofNat 128 (2 ^ i)) j = (inMask m j || decide (j = i)) := by
        unfold inMask
        rw [BitVec.getLsbD_or, BitVec.getLsbD_ofNat, Nat.testBit_two_pow]
        simp only [hj, decide_true, Bool.true_and]
        by_cases e : i = j
        · subst e; simp
        · rw [decide_eq_false e, decide_eq_false (fun h => e h.symm)]
      rw [this]
      by_cases e : j = i <;> simp [e]
  rw [this]; simp [inMask]
theorem mem_lanesOf_maskOf (l : List Nat) (h : ∀ i ∈ l, i < 128) (j : Nat) : j ∈ lanesOf (maskOf l) ↔ j ∈ l := by
  rw [mem_lanesOf]
  constructor
  · rintro ⟨hj, hm⟩; rw [inMask_maskOf l j hj] at hm; simpa using hm
  · intro hm; exact ⟨h j hm, by rw [inMask_maskOf l j (h j hm)]; simpa using hm⟩

/-! ### Results resolved to values and tokens -/

/-- Every token made so far bears its cause. -/
def Toks.sound (ts : Toks) : Prop := ∀ e ∈ ts, e.2.toNat / 2 ^ 24 = e.1.code

/-- What a result has become: its value, its inherited token, or a token of its cause. -/
def Became (e : Nat × LVal) (o : Nat × Nat × Option Word) : Prop :=
  o.1 = e.1 ∧ match e.2 with
    | .val n => o.2 = (n, none)
    | .tok t => o.2 = (0, some t)
    | .new f => ∃ t, o.2 = (0, some t) ∧ t.toNat / 2 ^ 24 = f.cause.code
    | .beside (some t) => o.2 = (0, some t)
    | .beside none => ∃ t, o.2 = (0, some t) ∧ t.toNat / 2 ^ 24 = Cause.code .malformed

/-- A new entry's token bears its cause, and a resident group's registers are left alone. -/
theorem newEntryIn_spec (s : State) (g : Nat) (region : BitVec 16) (pc : BitVec 64) (f : Fail) (lane : Nat) (x : Group)
    (hx : Map.find s.groups g = some x) (hr : x.resident = true) :
    (newEntryIn s g region pc f lane).1.groups = s.groups ∧ (newEntryIn s g region pc f lane).2.toNat / 2 ^ 24 = f.cause.code := by
  have hg : s.grp g = x := State.grp_of_find hx
  refine ⟨?_, mkToken_cause _ _ _ _ f.cause.code_lt⟩
  unfold newEntryIn State.bumpPerf
  simp [hg, hr]

theorem poison_spec (s : State) (g : Nat) (pc : BitVec 64) (ts : Toks) (f : Fail) (lane : Nat) (x : Group)
    (hx : Map.find s.groups g = some x) (hr : x.resident = true) (ht : Toks.sound ts) :
    (poison s g pc ts f lane).1.groups = s.groups ∧ Toks.sound (poison s g pc ts f lane).2.1 ∧
      (poison s g pc ts f lane).2.2.toNat / 2 ^ 24 = f.cause.code := by
  unfold poison
  split
  · rename_i e he
    have hm := List.mem_of_find?_eq_some he
    have hc := List.find?_some he
    simp only [beq_iff_eq] at hc
    exact ⟨rfl, ht, by rw [ht e hm, hc]⟩
  · obtain ⟨h1, h2⟩ := newEntryIn_spec s g (regionId (s.grp g)) pc f lane x hx hr
    refine ⟨h1, ?_, h2⟩
    intro e he
    rcases List.mem_cons.mp he with rfl | he
    · exact h2
    · exact ht e he

theorem resolve_spec (g : Nat) (pc : BitVec 64) (x : Group) (hr : x.resident = true) (l : List (Nat × LVal)) :
    ∀ (s : State) (ts : Toks), Map.find s.groups g = some x → Toks.sound ts →
      (resolve s g pc ts l).1.groups = s.groups ∧ List.Forall₂ Became l (resolve s g pc ts l).2.2 := by
  induction l with
  | nil => intro s ts _ _; exact ⟨rfl, .nil⟩
  | cons e l ih =>
    intro s ts hx ht
    obtain ⟨i, r⟩ := e
    cases r with
    | val n => exact ⟨(ih s ts hx ht).1, .cons ⟨rfl, rfl⟩ (ih s ts hx ht).2⟩
    | tok t => exact ⟨(ih s ts hx ht).1, .cons ⟨rfl, rfl⟩ (ih s ts hx ht).2⟩
    | new f =>
      simp only [resolve]
      obtain ⟨h1, h2, h3⟩ := poison_spec s g pc ts f i x hx hr ht
      obtain ⟨k1, k2⟩ := ih (poison s g pc ts f i).1 (poison s g pc ts f i).2.1 (by rw [h1]; exact hx) h2
      exact ⟨by rw [k1, h1], .cons ⟨rfl, _, rfl, h3⟩ k2⟩
    | beside t =>
      simp only [resolve]
      obtain ⟨h1, h2, _⟩ := poison_spec s g pc ts { cause := .laneRange } i x hx hr ht
      cases t with
      | some t =>
        obtain ⟨k1, k2⟩ := ih (poison s g pc ts { cause := .laneRange } i).1 (poison s g pc ts { cause := .laneRange } i).2.1 (by rw [h1]; exact hx) h2
        exact ⟨by rw [k1, h1], .cons ⟨rfl, rfl⟩ k2⟩
      | none =>
        obtain ⟨m1, m2, m3⟩ := poison_spec (poison s g pc ts { cause := .laneRange } i).1 g pc (poison s g pc ts { cause := .laneRange } i).2.1
          { cause := .malformed } i x (by rw [h1]; exact hx) hr h2
        obtain ⟨k1, k2⟩ := ih _ _ (by rw [m1, h1]; exact hx) m2
        exact ⟨by rw [k1, m1, h1], .cons ⟨rfl, _, rfl, m3⟩ k2⟩

/-! ### Writes of results -/

/-- Whether lane `lane` of a write is lane `i` of a register; uniform files have one lane. -/
def laneHit (f : RFile) (lane i : Nat) : Bool := lane == i || (f != .v && f != .p)

/-- Whether a write touches a register. -/
def RegWrite.hits (w : RegWrite) (f : RFile) (r i : Nat) : Bool := w.file == f && w.reg == r && laneHit f w.lane i

theorem Group.rd_wr (x : Group) (w : RegWrite) (f : RFile) (r i : Nat) (hi : i < 128) (hw : w.lane < 128) (h7 : w.file = .p → w.reg ≠ 7)
    (hf : w.file ≠ .fmt ∧ w.file ≠ .mark) : (x.wr w).rd f r i = if w.hits f r i then w.val else x.rd f r i := by
  obtain ⟨wf, reg, lane, val⟩ := w
  by_cases e : wf = f
  · subst e
    cases wf with
    | v => rw [Group.rd, Group.rdV_wr _ _ _ _ hi hw]; simp [RegWrite.hits, laneHit, Group.rd]
    | p => rw [Group.rd, Group.rdP_wr _ _ _ _ hi hw (h7 rfl)]; simp [RegWrite.hits, laneHit, Group.rd]
    | s => rw [Group.rd, Group.rdS_wr]; simp [RegWrite.hits, laneHit, Group.rd]
    | q => rw [Group.rd, Group.rdQ_wr]; simp [RegWrite.hits, laneHit, Group.rd]
    | fmt => exact absurd rfl hf.1
    | mark => exact absurd rfl hf.2
  · have : RegWrite.hits ⟨wf, reg, lane, val⟩ f r i = false := by simp [RegWrite.hits, e]
    rw [this, if_neg Bool.false_ne_true]
    cases wf <;> cases f <;> first
      | exact absurd rfl e
      | exact absurd rfl hf.1
      | exact absurd rfl hf.2
      | (simp only [Group.rd, Group.wr, Group.rdV, Group.rdS, Group.rdQ, Group.rdP] <;> (try split) <;> rfl)

theorem Group.rd_wrAll_other (ws : List RegWrite) (x : Group) (f : RFile) (r i : Nat) (hi : i < 128)
    (hl : ∀ w ∈ ws, w.lane < 128 ∧ (w.file = .p → w.reg ≠ 7) ∧ w.file ≠ .fmt ∧ w.file ≠ .mark) (h : ∀ w ∈ ws, w.hits f r i = false) :
    (x.wrAll ws).rd f r i = x.rd f r i := by
  induction ws generalizing x with
  | nil => rfl
  | cons w ws ih =>
    obtain ⟨h1, h2, h3⟩ := hl w (List.mem_cons_self ..)
    rw [Group.wrAll_cons, ih _ (fun w hw => hl w (List.mem_cons_of_mem _ hw)) (fun w hw => h w (List.mem_cons_of_mem _ hw)),
      Group.rd_wr x w f r i hi h1 h2 h3, h w (List.mem_cons_self ..)]
    rfl

/-- The words of one result. -/
def wordOf (o : Nat × Option Word) (k : Nat) : Val :=
  match o.2 with
  | some t => ⟨t, true⟩
  | none => ⟨BitVec.ofNat 32 (o.1 >>> (32 * k)), false⟩

theorem laneWrites_eq (file : RFile) (reg n : Nat) (e : Nat × Nat × Option Word) :
    laneWrites file reg n e = (List.range n).map (fun k => ⟨file, reg + k, e.1, wordOf e.2 k⟩) := rfl

theorem Became.leaves {e : Nat × LVal} {o : Nat × Nat × Option Word} (h : Became e o) (k : Nat) : Leaves e.2 k (wordOf o.2 k) := by
  obtain ⟨i, r⟩ := e
  obtain ⟨h1, h2⟩ := h
  cases r with
  | val n => simp only at h2; rw [h2]; rfl
  | tok t => simp only at h2; rw [h2]; rfl
  | new f => obtain ⟨t, h2, h3⟩ := h2; rw [h2]; exact ⟨rfl, h3⟩
  | beside t =>
    cases t with
    | some t => simp only at h2; rw [h2]; rfl
    | none => obtain ⟨t, h2, h3⟩ := h2; rw [h2]; exact ⟨rfl, h3⟩

/-- One lane's result in consecutive registers. -/
theorem Group.rd_lane (x : Group) (file : RFile) (reg n lane : Nat) (val : Nat → Val) (f : RFile) (r i : Nat) (hi : i < 128)
    (hl : lane < 128) (h7 : file = .p → ∀ k < n, reg + k ≠ 7) (hf : file ≠ .fmt ∧ file ≠ .mark) :
    (x.wrAll ((List.range n).map (fun k => ⟨file, reg + k, lane, val k⟩))).rd f r i =
      if f = file ∧ reg ≤ r ∧ r < reg + n ∧ laneHit f lane i = true then val (r - reg) else x.rd f r i := by
  induction n with
  | zero => rw [if_neg (by omega)]; rfl
  | succ n ih =>
    rw [List.range_succ, List.map_append, Group.wrAll_append]
    simp only [List.map_cons, List.map_nil, Group.wrAll_cons, Group.wrAll_nil]
    rw [Group.rd_wr _ _ _ _ _ hi hl (fun e => h7 e n (by omega)) hf, ih (fun e k hk => h7 e k (by omega))]
    simp only [RegWrite.hits, Bool.and_eq_true, beq_iff_eq]
    by_cases hr : r = reg + n
    · subst hr
      by_cases hh : file = f ∧ laneHit f lane i = true
      · rw [if_pos ⟨⟨hh.1, rfl⟩, hh.2⟩, if_pos ⟨hh.1.symm, by omega, by omega, hh.2⟩]
        congr 1; omega
      · rw [if_neg (fun h => hh ⟨h.1.1, h.2⟩), if_neg (fun h => hh ⟨h.1.symm, h.2.2.2⟩), if_neg (fun h => hh ⟨h.1.symm, h.2.2.2⟩)]
    · rw [if_neg (fun h => hr h.1.2.symm)]
      have : (f = file ∧ reg ≤ r ∧ r < reg + n ∧ laneHit f lane i = true) ↔ (f = file ∧ reg ≤ r ∧ r < reg + (n + 1) ∧ laneHit f lane i = true) := by
        constructor <;> rintro ⟨a, b, c, d⟩ <;> exact ⟨a, by omega, by omega, d⟩
      simp only [this]

/-- The results of distinct lanes, written to a destination of a lane file. -/
theorem WritesOf.lanes (d : VDest) (hf : d.file = .v ∨ d.file = .p) (h7 : d.file = .p → ∀ k < d.n, d.reg + k ≠ 7)
    (l : List (Nat × LVal)) (out : List (Nat × Nat × Option Word)) (hb : List.Forall₂ Became l out)
    (hn : (l.map (·.1)).Nodup) (hl : ∀ e ∈ l, e.1 < 128) (x : Group) :
    ∀ f r j, j < 128 →
      (∀ e ∈ l, f = d.file → d.reg ≤ r → r < d.reg + d.n → e.1 = j →
        Leaves e.2 (r - d.reg) ((x.wrAll (out.flatMap (laneWrites d.file d.reg d.n))).rd f r j)) ∧
      (¬(f = d.file ∧ d.reg ≤ r ∧ r < d.reg + d.n ∧ j ∈ l.map (·.1)) →
        (x.wrAll (out.flatMap (laneWrites d.file d.reg d.n))).rd f r j = x.rd f r j) := by
  have hfmt : d.file ≠ .fmt ∧ d.file ≠ .mark := by rcases hf with h | h <;> simp [h]
  induction hb generalizing x with
  | nil => intro f r j _; exact ⟨fun e he => by simp at he, fun _ => rfl⟩
  | @cons e o l out hb1 hb ih =>
    intro f r j hj
    rw [List.map_cons, List.nodup_cons] at hn
    have he := hl e (List.mem_cons_self ..)
    rw [List.flatMap_cons, Group.wrAll_append, laneWrites_eq, hb1.1]
    have hi := ih hn.2 (fun e h => hl e (List.mem_cons_of_mem _ h))
      (x.wrAll ((List.range d.n).map (fun k => ⟨d.file, d.reg + k, e.1, wordOf o.2 k⟩))) f r j hj
    rw [Group.rd_lane x d.file d.reg d.n e.1 (wordOf o.2) f r j hj he h7 hfmt] at hi
    refine ⟨?_, ?_⟩
    · intro e' he' h1 h2 h3 h4
      rcases List.mem_cons.mp he' with rfl | he'
      · have : ¬(f = d.file ∧ d.reg ≤ r ∧ r < d.reg + d.n ∧ j ∈ l.map (·.1)) := fun h => hn.1 (by rw [h4]; exact h.2.2.2)
        have hv := hi.2 this
        rw [if_pos ⟨h1, h2, h3, by simp [laneHit, h4]⟩] at hv
        rw [hv]
        exact hb1.leaves _
      · exact hi.1 e' he' h1 h2 h3 h4
    · intro h
      have h' : ¬(f = d.file ∧ d.reg ≤ r ∧ r < d.reg + d.n ∧ j ∈ l.map (·.1)) := fun k =>
        h ⟨k.1, k.2.1, k.2.2.1, List.mem_cons_of_mem _ k.2.2.2⟩
      rw [hi.2 h', if_neg]
      intro k
      have e : e.1 = j := by
        have := k.2.2.2
        rw [k.1] at this
        rcases hf with h | h <;> simpa [laneHit, h] using this
      exact h ⟨k.1, k.2.1, k.2.2.1, by rw [← e]; exact List.mem_cons_self ..⟩

theorem lanesOf_nodup (m : Mask) : (lanesOf m).Nodup := by
  unfold lanesOf
  exact List.Nodup.filter _ List.nodup_range

/-- What `finishLanes` does (R75, R79, R81, R231): tokens aside, the group's destination alone. -/
theorem finishLanes_spec (late : Bool) (d : VDest) (rsv : Bool) (res : Nat → LVal) (w : Wx) (s : State) (x : Group)
    (hx : Map.find s.groups w.g = some x) (hr : x.resident = true) (hf : d.file = .v ∨ d.file = .p)
    (h7 : d.file = .p → ∀ k < d.n, d.reg + k ≠ 7) (hin : w.inRange d = true) (on : Nat → Bool) (hon : ∀ j < 128, j ∈ w.lanes ↔ on j = true) :
    ∃ ws, RestKept s (finishLanes late d rsv res w s) w.g ∧
      Map.find (finishLanes late d rsv res w s).groups w.g = some (x.after late ws) ∧
      WritesOf x on d (fun i => if rsv then LVal.bad .malformed else res i) ws := by
  have hrest := finishLanes_rest late d rsv res w s
  unfold finishLanes at hrest ⊢
  simp only [hin, Bool.not_true, Bool.false_eq_true, if_false] at hrest ⊢
  generalize hl : (w.lanes.map (fun i => (i, if rsv then LVal.bad .malformed else res i))) = l at hrest ⊢
  obtain ⟨h1, h2⟩ := resolve_spec w.g w.pc x hr l s [] hx (fun e he => by simp at he)
  have hkeys : l.map (·.1) = w.lanes := by rw [← hl, List.map_map]; exact List.map_id _
  have hlt : ∀ e ∈ l, e.1 < 128 := by
    intro e he
    have : e.1 ∈ w.lanes := by rw [← hkeys]; exact List.mem_map_of_mem he
    exact ((mem_lanesOf _ _).mp this).1
  have hw := WritesOf.lanes d hf h7 l (resolve s w.g w.pc [] l).2.2 h2 (by rw [hkeys]; exact lanesOf_nodup _) hlt x
  refine ⟨(resolve s w.g w.pc [] l).2.2.flatMap (laneWrites d.file d.reg d.n), hrest, ?_, ⟨?_, ?_, Group.wrAll_shape _ _⟩⟩
  · have hx' : Map.find (resolve s w.g w.pc [] l).1.groups w.g = some x := by rw [h1]; exact hx
    cases late
    · simp [put, State.find_updGrp, hx', Group.after]
    · simp only [owe, if_true, Group.after]
      split <;> simp [State.find_updGrp, *]
  · intro f r j hj hwr
    simp only [written, Bool.and_eq_true, beq_iff_eq, decide_eq_true_eq] at hwr
    have hm : j ∈ w.lanes := (hon j hj).mpr hwr.2
    have := (hw f r j hj).1 (j, if rsv then LVal.bad .malformed else res j) (by rw [← hl]; exact List.mem_map_of_mem hm) hwr.1.1.1 hwr.1.1.2 hwr.1.2 rfl
    exact this
  · intro f r j hj hwr
    apply (hw f r j hj).2
    rw [hkeys]
    intro k
    have : written on d f r j = true := by
      simp only [written, Bool.and_eq_true, beq_iff_eq, decide_eq_true_eq]
      exact ⟨⟨⟨k.1, k.2.1⟩, k.2.2.1⟩, (hon j hj).mp k.2.2.2⟩
    rw [this] at hwr
    exact absurd hwr (by simp)

/-- What `finishS` does (R79, R81, R231): tokens aside, its destination alone. -/
theorem finishS_spec (late : Bool) (sd n : Nat) (r : LVal) (w : Wx) (s : State) (x : Group)
    (hx : Map.find s.groups w.g = some x) (hr : x.resident = true) :
    ∃ ws, RestKept s (finishS late sd n r w s) w.g ∧ Map.find (finishS late sd n r w s).groups w.g = some (x.after late ws) ∧
      WritesOf x (fun _ => true) ⟨.s, sd, n⟩ (fun _ => r) ws := by
  have hrest := finishS_rest late sd n r w s
  unfold finishS at hrest ⊢
  obtain ⟨h1, h2⟩ := resolve_spec w.g w.pc x hr [(lowest w.act, r)] s [] hx (fun e he => by simp at he)
  generalize hres : resolve s w.g w.pc [] [(lowest w.act, r)] = res at *
  obtain ⟨s', ts, out⟩ := res
  simp only at h1 h2 hrest ⊢
  cases h2 with
  | @cons _ o _ out hb hnil =>
    cases hnil
    simp only [List.flatMap_cons, List.flatMap_nil, List.append_nil] at hrest ⊢
    have hrd : ∀ f k j, j < 128 → (x.wrAll (laneWrites .s sd n (0, o.2))).rd f k j =
        if f = .s ∧ sd ≤ k ∧ k < sd + n ∧ laneHit f 0 j = true then wordOf o.2 (k - sd) else x.rd f k j := by
      intro f k j hj
      rw [laneWrites_eq]
      exact Group.rd_lane x .s sd n 0 (wordOf o.2) f k j hj (by omega) (fun e => by cases e) (by decide)
    refine ⟨laneWrites .s sd n (0, o.2), hrest, ?_, ⟨?_, ?_, Group.wrAll_shape _ _⟩⟩
    · have hx' : Map.find s'.groups w.g = some x := by rw [h1]; exact hx
      cases late
      · simp [put, State.find_updGrp, hx', Group.after]
      · simp only [owe, if_true, Group.after]
        split <;> simp [State.find_updGrp, *]
    · intro f k j hj hw
      simp only [written, Bool.and_eq_true, beq_iff_eq, decide_eq_true_eq] at hw
      rw [hrd f k j hj, if_pos ⟨hw.1.1.1, hw.1.1.2, hw.1.2, by simp [laneHit, hw.1.1.1]⟩]
      exact hb.leaves _
    · intro f k j hj hw
      rw [hrd f k j hj, if_neg]
      rintro ⟨rfl, a, b, _⟩
      simp [written, a, b] at hw

/-! ### The lanes a word acts on -/

/-- A lane word whose predicate is clean acts on its active lanes, in the state it finds (R98). -/
theorem laneWord_clean {s : State} {c : Cur} {x : Group} {sp : Split} {t : Team} (h : Issuing s c x sp t) (p : BitVec 3)
    (hp : CleanPred x sp p.toNat) (f : Wx → State → State) :
    ∃ w, laneWord p f c s = f w s ∧ w = { wxOf c s with act := w.act } ∧ ∀ j < 128, j ∈ w.lanes ↔ active x sp p.toNat j = true := by
  have hrd : ∀ i, (wxOf c s).rdP 14 p.toNat i false = x.rdP p.toNat i := by
    intro i
    rw [h.wx]
    simp only [Wx.rdP, h.settled, pickRead_nil]
    split
    · rename_i e; simp only [beq_iff_eq] at e; rw [e]; rfl
    · rfl
  have hm : ∀ i, i ∈ lanesOf (wxOf c s).sp.mask → (x.rdP p.toNat i).poison = false := by
    intro i hi
    rw [h.wx] at hi
    exact hp i ((mem_lanesOf _ _).mp hi).2
  have hbad : ((wxOf c s).under p.toNat).2 = none := by
    simp only [Wx.under, Option.map_eq_none_iff, List.find?_eq_none]
    intro i hi
    rw [hrd, hm i hi]
    exact Bool.false_ne_true
  refine ⟨{ wxOf c s with act := ((wxOf c s).under p.toNat).1 }, ?_, rfl, ?_⟩
  · unfold laneWord
    simp only [hbad]
  · intro j hj
    simp only [Wx.lanes, Wx.under]
    rw [mem_lanesOf_maskOf _ (fun i hi => ((mem_lanesOf _ _).mp (List.mem_filter.mp hi).1).1)]
    simp only [List.mem_filter, hrd, active, Bool.and_eq_true, Bool.not_eq_true', beq_iff_eq]
    rw [show (wxOf c s).sp.mask = sp.mask by rw [h.wx], mem_lanesOf]
    cases hv : x.rdP p.toNat j with
    | mk b q =>
      simp only [Val.mk.injEq]
      constructor
      · rintro ⟨⟨_, a⟩, b, c⟩; exact ⟨a, c, b⟩
      · rintro ⟨a, b, c⟩; exact ⟨⟨hj, a⟩, c, b⟩

/-- A scalar word that its qualifier lets act (R98). -/
theorem scalarWord_qualified {s : State} {c : Cur} {x : Group} {sp : Split} {t : Team} (h : Issuing s c x sp t) (q : BitVec 3)
    (hq : qualified x q.toNat) (f : Wx → State → State) : scalarWord q f c s = f (wxOf c s) s := by
  unfold scalarWord
  rcases hq with hq | hq
  · simp [hq]
  · have : (wxOf c s).rdQ 13 q.toNat = ⟨1, false⟩ := by rw [h.wx]; simp [Wx.rdQ, h.settled, hq]
    simp [this]

/-- A lane word whose meaning is `finishLanes` completes with its results (R75, R79, R98). -/
theorem lane_results {s : State} {c : Cur} {x : Group} {sp : Split} {t : Team} (h : Issuing s c x sp t) (p : BitVec 3)
    (hp : CleanPred x sp p.toNat) (i : Instr) (late : Bool) (d : VDest) (rsv : Bool) (res res' : Nat → LVal)
    (hd : d.file = .v ∨ d.file = .p) (h7 : d.file = .p → ∀ k < d.n, d.reg + k ≠ 7) (hin : d.file = .v → InBudget x t d.reg d.n)
    (fn : Wx → Nat → LVal)
    (hi : exec i s = onIssuer s (laneWord p (fun wx => finishLanes late d rsv (fn wx) wx)))
    (hfn : ∀ a, fn { wxOf c s with act := a } = res) (hres : ∀ j, (if rsv then LVal.bad .malformed else res j) = res' j) :
    Results i s c.gid x late (active x sp p.toNat) d res' := by
  obtain ⟨w, hw, hw', hl⟩ := laneWord_clean h p hp (fun wx => finishLanes late d rsv (fn wx) wx)
  have hg : w.g = c.gid := by rw [hw']; rfl
  have hfn' : fn w = res := by rw [hw']; exact hfn _
  have hinr : w.inRange d = true := by
    unfold Wx.inRange
    rcases hd with e | e
    · rw [e]; simp only [decide_eq_true_eq]
      have : w.budget = budget t.desc x.role := by rw [hw', h.wx]; rfl
      rw [this]; exact hin e
    · rw [e]
  obtain ⟨ws, h1, h2, h3⟩ := finishLanes_spec late d rsv res w s x (by rw [hg]; exact h.group) h.resident hd h7 hinr _ hl
  refine ⟨finishLanes late d rsv res w s, ws, ?_, by rw [← hg]; exact h1, by rw [← hg]; exact h2, ?_⟩
  · rw [hi, onIssuer_of_cur _ h.cur, hw, hfn']
  · have : (fun i => if rsv = true then LVal.bad Cause.malformed else res i) = res' := funext hres
    rw [← this]; exact h3

/-- A scalar word whose meaning is `finishS` completes with its result (R79, R98). -/
theorem scalar_results {s : State} {c : Cur} {x : Group} {sp : Split} {t : Team} (h : Issuing s c x sp t) (q : BitVec 3)
    (hq : qualified x q.toNat) (i : Instr) (late : Bool) (sd n : Nat) (r : LVal) (fn : Wx → LVal)
    (hi : exec i s = onIssuer s (scalarWord q (fun wx => finishS late sd n (fn wx) wx))) (hfn : fn (wxOf c s) = r) :
    Results i s c.gid x late (fun _ => true) ⟨.s, sd, n⟩ (fun _ => r) := by
  obtain ⟨ws, h1, h2, h3⟩ := finishS_spec late sd n r (wxOf c s) s x h.group h.resident
  exact ⟨finishS late sd n r (wxOf c s) s, ws, by rw [hi, onIssuer_of_cur _ h.cur, scalarWord_qualified h q hq, hfn], h1, h2, h3⟩

end Sys2Proof.Machine
end

