-- ==== Sys2Proof/Laws/Sources.lean ====
section
/-! SUPPORT. What source operands hold: a value fits its register or pair. -/
namespace Sys2Proof.Machine

/-- The numbers of a kind's operands stay below this. -/
def Kind.size (k : Kind) : Nat := 2 ^ (32 * k.regs)

theorem Kind.abs_lt (k : Kind) (n : Nat) (h : n < k.size) : k.abs n < k.size := by
  cases k <;> simp only [Kind.size, Kind.regs, Kind.abs] at h ⊢
  · split <;> omega
  · split <;> omega
  · omega
  · omega
  · exact lt_of_le_of_lt Nat.and_le_left h

theorem Kind.neg_lt (k : Kind) (n : Nat) (h : n < k.size) : k.neg n < k.size := by
  cases k <;> simp only [Kind.size, Kind.regs, Kind.neg] at h ⊢
  · omega
  · omega
  · exact Nat.xor_lt_two_pow h (by norm_num)
  · exact Nat.xor_lt_two_pow h (by norm_num)
  · exact Nat.xor_lt_two_pow h (by norm_num)

theorem Wx.lane_lt (w : Wx) (k opnd r j : Nat) (b : Bool) (q : Nat) (hk : k = 1 ∨ k = 2) (n : Nat) (h : w.lane k opnd r j b q = .val n) :
    n < 2 ^ (32 * k) := by
  have a := (w.rdV opnd r j b q).bits.isLt
  have a' := (w.rdV (opnd + 1) (r + 1) j b q).bits.isLt
  unfold Wx.lane at h
  rcases hk with rfl | rfl <;> simp at h <;> (repeat' split at h) <;> simp [LVal.bad] at h <;> subst h <;> simp <;> omega

theorem Wx.uni_lt (w : Wx) (k opnd r j : Nat) (hk : k = 1 ∨ k = 2) (n : Nat) (h : w.uni k opnd r j = .val n) : n < 2 ^ (32 * k) := by
  have a := (w.rdS opnd r j).bits.isLt
  have a' := (w.rdS (opnd + 1) (r + 1) j).bits.isLt
  unfold Wx.uni at h
  rcases hk with rfl | rfl <;> simp at h <;> (repeat' split at h) <;> simp at h <;> subst h <;> simp <;> omega

theorem Kind.regs_cases (k : Kind) : k.regs = 1 ∨ k.regs = 2 := by cases k <;> simp [Kind.regs]

/-- A source's value fits its kind. -/
theorem Wx.src_lt (w : Wx) (m : XMod) (k : Kind) (who : Who) (r i n : Nat) (h : w.src m k who r i = .val n) : n < k.size := by
  have hneg : ∀ (b : Bool) y, y < k.size → (if b then k.neg y else y) < k.size := by
    intro b y hy; cases b; exact hy; exact k.neg_lt y hy
  have habs : ∀ (b : Bool) y, y < k.size → (if b then k.abs y else y) < k.size := by
    intro b y hy; cases b; exact hy; exact k.abs_lt y hy
  unfold Wx.src at h
  simp only at h
  split at h
  · rename_i v y hy
    simp only [LVal.val.injEq] at h
    rw [← h]
    refine hneg _ _ (habs _ _ ?_)
    split at hy
    · exact w.uni_lt _ _ _ _ k.regs_cases y hy
    · split at hy
      · split at hy
        · rename_i e _
          -- the token of a poisoned index register
          rename_i hs
          exfalso
          unfold Wx.selLane at hs
          split at hs <;> simp at hs
          split at hs
          · simp at hs
          · rename_i hne
            simp only [Except.error.injEq] at hs
            subst hs
            exact hne y hy
        · unfold Wx.crossLane at hy
          split at hy
          · simp [LVal.bad] at hy
          · exact w.lane_lt _ _ _ _ _ _ k.regs_cases y hy
      · exact w.lane_lt _ _ _ _ _ _ k.regs_cases y hy
  · rename_i e hne
    exact absurd h (hne n)

theorem lift2_congr (A B : LVal) (f g : Nat → Nat → LVal) (h : ∀ a b, A = .val a → B = .val b → f a b = g a b) : lift2 A B f = lift2 A B g := by
  cases A <;> simp only [lift2, lift1]
  cases B <;> simp only
  exact h _ _ rfl rfl

theorem lift1_congr (A : LVal) (f g : Nat → LVal) (h : ∀ a, A = .val a → f a = g a) : lift1 A f = lift1 A g := by
  cases A <;> simp only [lift1]
  exact h _ rfl

theorem lift3_congr (A B C : LVal) (f g : Nat → Nat → Nat → LVal) (h : ∀ a b c, A = .val a → B = .val b → C = .val c → f a b c = g a b c) :
    lift3 A B C f = lift3 A B C g := by
  cases A <;> cases B <;> cases C <;> first
    | rfl
    | simp only [lift3, lift2, lift1, h _ _ _ rfl rfl rfl]

end Sys2Proof.Machine
end

