-- ==== Sys2Proof/Tests/Slice0.lean ====
section
/-! SUPPORT. Tests: words written out from the spec's encodings, ill-formed terms, single steps on small states, and for every
statement with hypotheses a state and operands that meet them. -/
namespace Sys2Proof.Tests

-- one test at a time
set_option Elab.async false
open Machine

/-! ### A small machine: one team of one 32-lane group that issues a word with four lanes -/

/-- The team's kernel: both roles, a handler, TAS rows and a quarantine quota. -/
def D : Desc := { bootDesc with roleen := true, regs1 := 64, entry1 := 0x5000, tasb := 16, qq := 8 }

def T : Team := { Team.blank with grid := 0, ctx := 0, desc := D, groups := [2] }

def SP : Split := { Split.blank with pc := 0x1008, hdr := 0x1000, mask := firstLanes 4 }

def C : Cur :=
  { gid := 2, slot := 0, pc := 0x1004, hdr := 0x1000, next := 0x1008, nextHdr := 0x1000, clause := ⟨0x20000000, []⟩, word := 0, wait := none,
    wph := false, deadline := none, expired := false, since := 0 }

def G : Group := { Group.blank with team := 1, live := firstLanes 4, s0 := some SP }

/-- A page table at 65536 whose one page of 512 MiB maps the first virtual addresses to the same physical ones (R185, R186). -/
def table : List Host.Cell := [(4096, 1), (4097, 16), (4098, 1), (137438957568, 3), (137438957575, 64)]

/-- The machine with group 2 as given. -/
def M (y : Group) : State :=
  { State.reset with
    mem := table, cur := some C, groups := [(2, y)], teams := [(1, T)], grids := [(0, { bootGrid with desc := D })], ctxs := [(0, bootCtx)], cores := [(0, Core.zero)], ids := 3 }

theorem issuing (y : Group) (sp : Split) (h0 : y.s0 = some sp) (h1 : y.team = 1) (h2 : y.resident = true) (h3 : sp.haz = []) : Issuing (M y) C y sp T :=
  ⟨rfl, rfl, h0, by rw [h1]; rfl, h2, h3⟩

theorem clean (y : Group) (sp : Split) (p : Nat) (h : y.p = []) : CleanPred y sp p := by
  intro i _
  unfold Group.rdP
  rw [h]
  split <;> rfl

/-- A place that is no scratchpad's. -/
def onDev : Place → Bool
  | .dev _ => true
  | _ => false

/-- The group after a word, when the word completes. -/
def after (o : Out) : Group :=
  match o with
  | .next t => t.grp 2
  | _ => Group.blank

/-! ### Words used below -/

/-- What holds for lanes 0 to 3 holds for every lane of the split. -/
theorem lanes4 {P : Nat → Prop} (h : ∀ j < 4, P j) : ∀ j, inMask (firstLanes 4) j = true → P j := by
  intro j hj
  have h4 : ∀ k < 128, inMask (firstLanes 4) k = true → k < 4 := by decide
  by_cases h1 : j < 128
  · exact h j (h4 j h1 hj)
  · have : inMask (firstLanes 4) j = false := BitVec.getLsbD_of_ge _ _ (by omega)
    rw [this] at hj; contradiction

/-- The group with lanes 2 and 3 out of its predicate 1, so that lanes 0 and 1 alone are active under it. -/
def half : Group := { G with p := [(128, ⟨1, false⟩), (129, ⟨1, false⟩)] }

theorem clean1 (y : Group) (sp : Split) (hm : sp.mask = firstLanes 4) (h : ∀ j < 4, (y.rdP 1 j).poison = false) : CleanPred y sp 1 := by
  intro i hi
  rw [hm] at hi
  exact lanes4 h i hi

/-- A plain extension word with the lane mode of a scalar source. -/
def sreg3 : XMod := { plainX with xlm := 6, sreg := 63 }

/-! ### A state and operands that meet the hypotheses of each statement, by clause at the bounds of its ranges -/

theorem witness_IntegerWords : Issuing (M G) C G SP T ∧ CleanPred G SP 7 ∧ InBudget G T 127 1 := ⟨issuing G SP rfl rfl rfl rfl, clean G SP 7 rfl, by unfold InBudget; decide⟩
theorem witness_IntegerThreeSourceWords : Issuing (M half) C half SP T ∧ CleanPred half SP 1 ∧ InBudget half T 127 1 :=
  ⟨issuing half SP rfl rfl rfl rfl, clean1 half SP rfl (by decide), by unfold InBudget; decide⟩

/-- A pair at the end of the budget, and one register there, in words of formats A, B and C with one destination. -/
theorem witness_IntegerOneSourceAndPairWords : Issuing (M G) C G SP T ∧ CleanPred G SP 7 ∧ InBudget G T 127 1 ∧ InBudget G T 126 2 ∧
    (⟨0, 7, 127, 1, 2⟩ : WA).d = (⟨0, 7, 127, 1, 0⟩ : WB).d ∧ (⟨0, 7, 127, 0⟩ : WC).d = (⟨0, 7, 127, 1, 0⟩ : WB).d :=
  ⟨issuing G SP rfl rfl rfl rfl, clean G SP 7 rfl, by unfold InBudget; decide, by unfold InBudget; decide, rfl, rfl⟩

/-- Predicate destinations 6 and 7. -/
theorem witness_CompareWords : Issuing (M G) C G SP T ∧ CleanPred G SP 7 ∧ (78 : BitVec 7).toNat % 8 < 7 ∧ (79 : BitVec 7).toNat % 8 = 7 :=
  ⟨issuing G SP rfl rfl rfl rfl, clean G SP 7 rfl, by decide, by decide⟩

theorem witness_SourceOperands : Issuing (M G) C G SP T ∧ sreg3.xlm ≠ 7 ∧ 127 < 128 := ⟨issuing G SP rfl rfl rfl rfl, by decide, by decide⟩

/-- A source of its own lane at the end of the budget, and a uniform one. -/
theorem witness_FloatSigns : Issuing (M { G with v := [(16383, ⟨0xFFC00000, false⟩)] }) C { G with v := [(16383, ⟨0xFFC00000, false⟩)] } SP T ∧ plainX.xlm ≠ 7 ∧ sreg3.xlm ≠ 7 ∧ 127 < 128 ∧
    (127 : BitVec 7).toNat + 1 ≤ budget T.desc G.role ∧ ({ G with v := [(16383, ⟨0xFFC00000, false⟩)] } : Group).rdV 127 127 = ⟨0xFFC00000, false⟩ :=
  ⟨issuing _ SP rfl rfl rfl rfl, by decide, by decide, by decide, by decide, by decide⟩

/-- A word that wrote register 4 of lane 0 one word before, seen at the count of its need and one above. -/
def near (n : Nat) : Split := { SP with haz := [⟨.v, 4, 90, 10, 14, [(0, ⟨7, false⟩)], 1, false, []⟩], dist := n }

/-- Registers close to a write and far enough from one, a destination outside the budget of the consumer's 64, and the highest lane poisoned. -/
theorem witness_PoisonedUse :
    ((M { G with s0 := some (near 100) }).cur = some C ∧ (∃ h ∈ (near 100).haz, (near 100).dist - stepOf C.word - h.at_ < h.need) ∧
      ∀ h ∈ (near 105).haz, ¬(near 105).dist - stepOf C.word - h.at_ < h.needX) ∧
    (¬InBudget { G with role := true } T 64 1 ∧ ¬InBudget { G with role := true } T 63 2 ∧ Issuing (M { G with role := true }) C { G with role := true } SP T ∧
      CleanPred { G with role := true } SP 7) ∧
    (let x : Group := { G with p := [(128, ⟨1, false⟩), (131, ⟨0x01000055, true⟩)] }
     Issuing (M x) C x SP T ∧ x.ended = false ∧ InBudget x T 127 1 ∧ InBudget x T 126 2 ∧ (6 : BitVec 7).toNat % 8 < 7 ∧ (⟨0, 1, 127, 1, 0⟩ : WB).d = (⟨0, 1, 127, 1, 2⟩ : WA).d ∧
       (⟨0, 1, 127, 0⟩ : WC).pred = (⟨0, 1, 127, 1, 2⟩ : WA).pred ∧ inMask SP.mask 3 = true ∧ x.rdP 1 3 = ⟨0x01000055, true⟩ ∧
       ∀ j < 3, inMask SP.mask j = true → (x.rdP 1 j).poison = false) :=
  ⟨⟨rfl, by decide, by decide⟩, ⟨by unfold InBudget; decide, by unfold InBudget; decide, issuing _ SP rfl rfl rfl rfl, clean _ SP 7 rfl⟩,
    issuing _ SP rfl rfl rfl rfl, rfl, by unfold InBudget; decide, by unfold InBudget; decide, by decide, rfl, rfl, by decide, by decide, by decide⟩

theorem witness_FloatWords : Issuing (M G) C G SP T ∧ CleanPred G SP 7 ∧ InBudget G T 127 1 := witness_IntegerWords
theorem witness_SfuWords : Issuing (M half) C half SP T ∧ CleanPred half SP 1 ∧ InBudget half T 127 1 := witness_IntegerThreeSourceWords
theorem witness_DoubleWords : Issuing (M G) C G SP T ∧ CleanPred G SP 7 ∧ InBudget G T 126 2 :=
  ⟨issuing G SP rfl rfl rfl rfl, clean G SP 7 rfl, by unfold InBudget; decide⟩
theorem witness_PackedHalfWords : Issuing (M G) C G SP T ∧ CleanPred G SP 7 ∧ InBudget G T 127 1 := witness_IntegerWords

/-- Functions 0 and 13, the last listed, to the last register and pair, and function 14. -/
theorem witness_ConversionWords : Issuing (M G) C G SP T ∧ CleanPred G SP 7 ∧ InBudget G T 127 1 ∧ InBudget G T 126 2 ∧ (0 : BitVec 7).toNat = 0 ∧ (13 : BitVec 7).toNat = 13 ∧
    14 ≤ (14 : BitVec 7).toNat := ⟨issuing G SP rfl rfl rfl rfl, clean G SP 7 rfl, by unfold InBudget; decide, by unfold InBudget; decide, rfl, rfl, by decide⟩

theorem witness_PackWords : Issuing (M G) C G SP T ∧ CleanPred G SP 7 ∧ InBudget G T 127 1 ∧ (⟨0, 7, 127, 1, 3⟩ : WB).d = (⟨0, 7, 127, 1, 2⟩ : WA).d :=
  ⟨issuing G SP rfl rfl rfl rfl, clean G SP 7 rfl, by unfold InBudget; decide, rfl⟩

/-- PAND to p6 is in order; to p7, or from register 8, it is reserved. -/
theorem witness_PredicateWords : Issuing (M G) C G SP T ∧ CleanPred G SP 7 ∧
    (let ok := fun (w : WA) => w.d.toNat / 8 = 0 ∧ w.d.toNat % 8 ≠ 7 ∧ w.a.toNat < 8 ∧ w.b.toNat < 8; ok ⟨0, 7, 6, 7, 7⟩ ∧ ¬ok ⟨0, 7, 7, 7, 7⟩ ∧ ¬ok ⟨0, 7, 6, 8, 7⟩) :=
  ⟨issuing G SP rfl rfl rfl rfl, clean G SP 7 rfl, by decide⟩

/-- A budget that holds the ballot of one word at register 127, predicates 6 and 7, and functions 0 and 6. -/
theorem witness_CrossLaneWords : Issuing (M half) C half SP T ∧ CleanPred half SP 1 ∧ InBudget half T 127 1 ∧ InBudget half T 127 (half.width / 32) ∧
    (6 : BitVec 7).toNat % 8 ≠ 7 ∧ (7 : BitVec 7).toNat % 8 = 7 ∧ (⟨0, 1, 6, 1, 0⟩ : WB).func = 0 ∧ (⟨0, 1, 6, 1, 6⟩ : WB).func ≠ 0 :=
  ⟨issuing half SP rfl rfl rfl rfl, clean1 half SP rfl (by decide), by unfold InBudget; decide, by unfold InBudget; decide, by decide, by decide, rfl, by decide⟩

theorem witness_ReductionWords : Issuing (M half) C half SP T ∧ CleanPred half SP 1 ∧ InBudget half T 127 1 := witness_IntegerThreeSourceWords

/-- Signalling and quiet NaNs, zeros and infinities; finite numbers, one of them no zero, an integer and a half; a sum whose largest term is 1; indices in a product. -/
theorem witness_SpecialInputs :
    (fp32 ∈ [fp64, fp32, fp16, bf16] ∧ IsFinite (.fin false 3 (-1)) ∧ (.fin true 0 0 : FNum).isZero = true ∧ (3 : Nat) ≠ 0) ∧
    (exactValue (fp32.decode 0x40000000) = (2 : Int) ∧ IsFinite (fp32.decode 0x40000000) ∧ -149 ≤ (2 : Int) ∧ (2 : Int) ≤ 127 ∧ exactValue (fp32.decode 0x40200000) = (2 : Int) + 1 / 2) ∧
    (let P := [Term.num (.fin false 1 0), .num (.fin true 1 (-90))]
     let acc := FNum.fin false 0 0
     acc.isSNaN = false ∧ acc.isNaN = false ∧ Term.invalid ∉ P ∧ Term.nan ∉ P ∧ (∀ x ∈ termsOf P acc, IsFinite x) ∧
       (∀ x ∈ termsOf P acc, exactValue x < 2 ^ ((0 : Int) + 1) ∧ -2 ^ ((0 : Int) + 1) < exactValue x) ∧ (∃ x ∈ termsOf P acc, 2 ^ (0 : Int) ≤ exactValue x ∨ exactValue x ≤ -2 ^ (0 : Int)) ∧
       (∃ x ∈ termsOf P acc, x.isZero = true) ∧ FNum.inf true ∈ termsOf [.num (.inf true)] acc ∧ Term.invalid ∈ [Term.invalid] ∧ Term.nan ∈ [Term.nan]) ∧ (FNum.nan true).isSNaN = true ∧ (FNum.nan false).isSNaN = false ∧ (FNum.nan false).isNaN = true ∧ (FNum.fin true 0 0).isZero = true ∧
    (FNum.inf true).isInf = true ∧ (FNum.inf true).isNeg ≠ (FNum.inf false).isNeg ∧ (FNum.fin false 1 0).isZero = false ∧ (FNum.fin false 1 0).isNaN = false ∧
    (fp32.decode 0x7F800001).isSNaN = true ∧ (fp32.decode 0x7FC00000).isNaN = true ∧ (fp32.decode 0x7FC00000).isSNaN = false := by
  unfold IsFinite; decide +kernel

theorem witness_ScalarWords : Issuing (M G) C G SP T ∧ qualified G 7 ∧ qualified { G with q := [(3, ⟨1, false⟩)] } 3 := ⟨issuing G SP rfl rfl rfl rfl, .inl rfl, .inr (by decide)⟩

/-- A uniform predicate 3 that is 0, one that is poisoned, and one that is 1. -/
theorem witness_QualifierAndSelect : Issuing (M G) C G SP T ∧ Fresh C ∧ (3 : BitVec 3).toNat < 4 ∧ (⟨0, 3, 1⟩ : WD).pred = (⟨0, 3, 1, 0, 0, 0⟩ : WS).qual ∧ ((G.rdQ 3).poison = false ∧ (G.rdQ 3).bits ≠ 1) ∧
    (({ G with q := [(3, ⟨5, true⟩)] } : Group).rdQ 3).poison = true ∧ Issuing (M { G with q := [(3, ⟨5, true⟩)] }) C { G with q := [(3, ⟨5, true⟩)] } SP T ∧ qualified G 7 :=
  ⟨issuing G SP rfl rfl rfl rfl, ⟨rfl, rfl, rfl, rfl⟩, by decide, rfl, by decide, by decide, issuing _ SP rfl rfl rfl rfl, .inl rfl⟩

/-- The first and last special registers, a pair to an odd and an even register, an unlisted number, and MARK with and without poison. -/
theorem witness_SpecialRegisters : Issuing (M G) C G SP T ∧ qualified G 7 ∧ (0 : BitVec 6).toNat * 64 + (0x20 : BitVec 6).toNat = 0x020 ∧
    (63 : BitVec 6).toNat * 64 + (63 : BitVec 6).toNat = 4095 ∧ (62 : BitVec 6).toNat % 2 = 0 ∧ (63 : BitVec 6).toNat % 2 = 1 ∧ (G.rdS 63).poison = false ∧
    (({ G with s := [(63, ⟨5, true⟩)] } : Group).rdS 63).poison = true := ⟨issuing G SP rfl rfl rfl rfl, .inl rfl, by decide⟩

/-- FMT from a clean and a poisoned register, its forms with fields that must be zero, and YIELD with predicates 7 and 1. -/
theorem witness_FormatNopYield : Issuing (M half) C half SP T ∧ qualified half 7 ∧ CleanPred half SP 1 ∧ (half.rdS 4).poison = false ∧
    (({ half with s := [(4, ⟨5, true⟩)] } : Group).rdS 4).poison = true ∧ (⟨0, 7, 0, 4, 0, 0⟩ : WS).sub = 0 ∧ (⟨0, 7, 0, 4, 1, 0⟩ : WS).sb ≠ 0 ∧ (⟨0, 7, 0, 0⟩ : WC).pred = 7 ∧
    (⟨0, 1, 0, 0⟩ : WC).pred ≠ 7 := ⟨issuing half SP rfl rfl rfl rfl, .inl rfl, clean1 half SP rfl (by decide), by decide⟩

/-- The group with 15 entries of its split stack used, and with 14. -/
def deep (n : Nat) : Group := { half with sshw := n }

theorem room (n k : Nat) (h : (deep n).sshw + k ≤ T.desc.sspg) (f : ∀ j < k, areaFail (M (deep n)) (deep n) ((deep n).sshw + j) = none) : AreaRoom (M (deep n)) (deep n) T k := ⟨rfl, h, f⟩

theorem lone (x : Group) (sp : Split) (h1 : x.s1 = none) (h2 : x.newest = none) (h3 : sp.frl = none) (h4 : x.saved = none) (h5 : x.ended = false) : Lone x C sp :=
  ⟨by decide, h1, h2, h3, h4, h5⟩

/-- Lane registers 126 and 127 of lanes 0 to 3 hold the highest aligned target below 2^57. -/
def target : BitVec 64 := 0x01FFFFFFFFFFFFFC
def aimed : Group :=
  { half with v := (List.range 4).map (fun i => (16128 + i, ⟨0xFFFFFFFC, false⟩)) ++ (List.range 4).map (fun i => (16256 + i, ⟨0x01FFFFFF, false⟩)) }

theorem aims (y : Group) (sp : Split) (p : Nat) (hm : sp.mask = firstLanes 4)
    (h : ∀ j < 4, y.rdV 126 j = ⟨target.extractLsb' 0 32, false⟩ ∧ y.rdV 127 j = ⟨target.extractLsb' 32 32, false⟩) :
    ∀ j, active y sp p j = true → y.rdV 126 j = ⟨target.extractLsb' 0 32, false⟩ ∧ y.rdV 127 j = ⟨target.extractLsb' 32 32, false⟩ := by
  intro j hj
  simp only [active, Bool.and_eq_true] at hj
  exact lanes4 h j (hm ▸ hj.1)

/-- Branches taken by no lane, by two of four and by all; RK 1 and 2; the last entry of the split-stack area; a qualifier of 0; a target pair at the end
of the budget and one past it. -/
theorem witness_BranchWords :
    (Issuing (M G) C G SP T ∧ CleanPred G SP 1 ∧ activeMask G SP 1 = 0) ∧
    (activeMask half SP 7 = SP.mask ∧ SP.mask ≠ 0 ∧ activeMask half SP 1 ≠ 0 ∧ activeMask half SP 1 ≠ SP.mask ∧ Issuing (M (deep 15)) C (deep 15) SP T ∧ CleanPred (deep 15) SP 1 ∧
      activeMask (deep 15) SP 1 ≠ 0 ∧ activeMask (deep 15) SP 1 ≠ SP.mask ∧ Lone (deep 15) C SP ∧ AreaRoom (M (deep 15)) (deep 15) T 1) ∧
    ((0 : BitVec 2).toNat < 2 ∧ (1 : BitVec 2).toNat < 2 ∧ 2 ≤ (2 : BitVec 2).toNat) ∧
    (qualified G 7 ∧ (3 : BitVec 3).toNat < 4 ∧ (G.rdQ 3).poison = false ∧ (G.rdQ 3).bits ≠ 1) ∧
    (Issuing (M aimed) C aimed SP T ∧ CleanPred aimed SP 7 ∧ activeMask aimed SP 7 = SP.mask ∧ InBudget aimed T 126 2 ∧ ¬InBudget aimed T 127 2 ∧ target.toNat % 4 = 0 ∧
      target.toNat < 2 ^ 57 ∧ ∀ j, active aimed SP 7 j = true → aimed.rdV 126 j = ⟨target.extractLsb' 0 32, false⟩ ∧ aimed.rdV 127 j = ⟨target.extractLsb' 32 32, false⟩) :=
  ⟨⟨issuing G SP rfl rfl rfl rfl, clean G SP 1 rfl, by decide⟩,
    ⟨by decide, by decide, by decide, by decide, issuing _ SP rfl rfl rfl rfl, clean1 _ SP rfl (by decide), by decide, by decide, lone _ SP rfl rfl rfl rfl rfl,
      room 15 1 (by decide) (by decide +kernel)⟩,
    by decide, ⟨.inl rfl, by decide⟩,
    issuing _ SP rfl rfl rfl rfl, fun i _ => rfl, by decide, by unfold InBudget; decide, by unfold InBudget; decide, by decide, by decide, aims aimed SP 7 rfl (by decide)⟩

/-- Depths 254 and 255, room for one entry and for two, a callee's target, and a frame that its callee alone names. -/
theorem witness_CallsAndReturns :
    (let sp := { SP with depth := 254 }
     let x := { aimed with s0 := some sp, sshw := 15 }
     let y := { half with s0 := some sp, sshw := 14 }
     Issuing (M x) C x sp T ∧ CleanPred x sp 7 ∧ activeMask x sp 7 = sp.mask ∧ sp.mask ≠ 0 ∧ sp.depth ≠ 255 ∧ AreaRoom (M x) x T 1 ∧ InBudget x T 126 2 ∧
      (∀ j, active x sp 7 j = true → x.rdV 126 j = ⟨target.extractLsb' 0 32, false⟩ ∧ x.rdV 127 j = ⟨target.extractLsb' 32 32, false⟩) ∧
      Issuing (M y) C y sp T ∧ CleanPred y sp 1 ∧ activeMask y sp 1 ≠ 0 ∧ activeMask y sp 1 ≠ sp.mask ∧ sp.frl = none ∧ AreaRoom (M y) y T 2) ∧
    (activeMask G SP 1 = 0 ∧ activeMask G { SP with depth := 255 } 7 ≠ 0 ∧ ({ SP with depth := 255 } : Split).depth = 255 ∧ ¬InBudget G T 127 2) ∧
    (let sp := { SP with depth := 1, frl := some 3 }
     let x := { half with s0 := some sp, pool := [(3, .frame 0x7004 0x7000 none 1)], sshw := 4 }
     Issuing (M x) C x sp T ∧ CleanPred x sp 1 ∧ activeMask x sp 7 = sp.mask ∧ activeMask x sp 1 ≠ 0 ∧ activeMask x sp 1 ≠ sp.mask ∧ sp.depth ≠ 0 ∧ sp.rel = none ∧ sp.frl = some 3 ∧
      Map.find x.pool 3 = some (.frame 0x7004 0x7000 none 1) ∧ C.slot < 2 ∧ x.split (1 - C.slot) = none ∧ x.ended = false ∧ activeMask half SP 7 ≠ 0 ∧ SP.depth = 0) :=
  ⟨⟨issuing _ _ rfl rfl rfl rfl, fun i _ => rfl, by decide, by decide, by decide, ⟨rfl, by decide, by decide +kernel⟩, by unfold InBudget; decide, aims _ _ 7 rfl (by decide),
      issuing _ _ rfl rfl rfl rfl, clean1 _ _ rfl (by decide), by decide, by decide, rfl, ⟨rfl, by decide, by decide +kernel⟩⟩,
    ⟨by decide, by decide, rfl, by unfold InBudget; decide⟩,
    issuing _ _ rfl rfl rfl rfl, clean1 _ _ rfl (by decide), by decide, by decide, by decide, by decide, rfl, rfl, by decide, by decide, rfl, rfl, by decide, rfl⟩

/-- A join with no entry, one under a predicate, and one at its entry's header as one of two arrivals and as the last. -/
theorem witness_Joins : (Issuing (M half) C half SP T ∧ SP.rel = none ∧ CleanPred half SP 1) ∧
    (let sp := { SP with rel := some 0, depth := 255 }
     let x := fun (ex : Mask) => { half with s0 := some sp, pool := [(0, .reconv ex 0 0x1000 0x1000 77 none none 255 false 0 none)], sshw := 1 }
     ∀ ex ∈ [firstLanes 8, firstLanes 4], Issuing (M (x ex)) C (x ex) sp T ∧ sp.rel = some 0 ∧
       Map.find (x ex).pool 0 = some (.reconv ex 0 C.hdr 0x1000 77 none none sp.depth false 0 none) ∧ C.pc = C.hdr + 4 ∧ Lone (x ex) C sp) ∧
    0 ||| SP.mask ≠ firstLanes 8 ∧ 0 ||| SP.mask = firstLanes 4 ∧ firstLanes 4 ≠ 0 :=
  ⟨⟨issuing half SP rfl rfl rfl rfl, rfl, clean1 half SP rfl (by decide)⟩,
    fun ex _ => ⟨issuing _ _ rfl rfl rfl rfl, rfl, rfl, by decide, lone _ _ rfl rfl rfl rfl rfl⟩, by decide⟩

/-- A group that still runs an operation, and one that does not. -/
def busy : Group := { G with paths := [(1, ⟨[mkOp G 1 0 0 1 0 false [] (.red [])], false⟩)] }

/-- Exits of no lane, of two of four and of the last four; a switch with W 1 that waits, one that goes, and one with a value of W past its range. -/
theorem witness_ExitsAndRoles :
    (Issuing (M half) C half SP T ∧ CleanPred half SP 1 ∧ Lone half C SP ∧ half.pool = [] ∧ half.region.opened = false ∧ activeMask G SP 1 = 0 ∧ activeMask half SP 1 ≠ 0 ∧
      activeMask half SP 1 ≠ SP.mask ∧ half.live &&& ~~~(activeMask half SP 1) ≠ 0 ∧ activeMask half SP 7 = half.live) ∧
    (T.desc.roleen = true ∧ (1 : BitVec 14).toNat < 2 ∧ 2 ≤ (2 : BitVec 14).toNat ∧ half.split (1 - C.slot) = none ∧ ((M half).coreOf half.core).mxq = []) ∧
    (Issuing (M busy) C busy SP T ∧ busy.drained = false ∧ busy.pool = [] ∧ half.drained = true ∧ half.board = []) :=
  ⟨⟨issuing half SP rfl rfl rfl rfl, clean1 half SP rfl (by decide), lone _ SP rfl rfl rfl rfl rfl, rfl, rfl, by decide, by decide, by decide, by decide, by decide⟩,
    ⟨rfl, by decide, by decide, rfl, rfl⟩, issuing _ SP rfl rfl rfl rfl, by decide, rfl, by decide, rfl⟩

/-- A region in mode `m`, clean or flagged, with its last replay left. -/
def inRegion (m : Nat) (flag : Bool) : Group :=
  { G with region := { Region.closed with opened := true, mode := m, limit := 2, replays := 1, flag := flag, first := 0x01010001, recov := 0x8000, pm := firstLanes 2,
                                          toks := [0x01010001], allrpl := flag, nqtok := some 0x01010001 } }

/-- A store of lane 0 that waits in a region's quarantine buffer, one of lane 2 behind it, and the region with both or with lanes 2 and 3 clean. -/
def held (i : Nat) : Store :=
  { place := .dev (64 * i), va := 0, line := none, bytes := bytesAt 0 4 7 i, ptok := [], red := none, lane := i, ord := 1, scope := 0, stale := false, view := 0 }
def holding (x : Group) : Group := { x with region := { x.region with qb := [held 0, held 2], used := 2 } }
def others : Group := { inRegion 1 false with region := { (inRegion 1 false).region with clean := [(C.next, C.nextHdr, 12)] } }

/-- Regions of modes 0 to 2: none open, one open and clean, one flagged with and without a replay left, with and without quarantined stores; one with lanes that went on;
reserved fields. -/
theorem witness_Regions : ∀ x ∈ [G, inRegion 0 false, inRegion 0 true, inRegion 1 true, inRegion 2 true, holding (inRegion 0 false), holding (inRegion 1 true), others],
    Issuing (M x) C x SP T ∧ Lone x C SP ∧ x.pool = [] ∧ x.board = [] ∧ x.late = [] ∧ T.view = 0 ∧ x.egress = [] ∧ ((M x).coreOf x.core).mxq = [] ∧
      (∀ q ∈ x.egress ++ x.region.qb, onDev q.place = true ∧ q.stale = false) ∧ CleanPred x SP 7 ∧ (x ≠ others → x.region.clean = []) ∧
      (x = others → x.region.opened = true ∧ x.region.flag = false ∧ x.region.qb = [] ∧ (12 : Mask) ≠ 0 ∧ x.region.clean = [(C.next, C.nextHdr, 12)]) ∧
      ¬((3 : BitVec 2) ≠ 3) ∧ ¬((4 : BitVec 14).toNat < 4) ∧
      (2 : BitVec 2) ≠ 3 ∧ (3 : BitVec 14).toNat < 4 ∧ (x = G → x.region.opened = false) ∧
      (x = inRegion 1 true → x.region.opened = true ∧ x.region.flag = true ∧ x.region.allrpl = true ∧ x.region.replays < x.region.limit) ∧
      (x = inRegion 0 false → x.region.opened = true ∧ x.region.flag = false ∧ (x.region.allrpl = false ∨ x.region.limit ≤ x.region.replays)) := by
  intro x h
  simp only [List.mem_cons, List.not_mem_nil, or_false] at h
  rcases h with rfl | rfl | rfl | rfl | rfl | rfl | rfl | rfl <;>
    exact ⟨issuing _ SP rfl rfl rfl rfl, lone _ SP rfl rfl rfl rfl rfl, rfl, rfl, rfl, rfl, rfl, rfl, by decide, clean _ SP 7 rfl, by decide, by decide, by decide⟩

/-- Destinations p6 and p7, s63 and the last lane register, lanes and none, PINFO's words 5 and 6 to an even and an odd pair. -/
theorem witness_PoisonControlWords : (half.rdQ 3 = ⟨0, false⟩ ∧ (3 : BitVec 3).toNat < 4 ∧ ¬InBudget { half with role := true } T 64 1 ∧ InBudget { half with role := true } T 63 1) ∧ Issuing (M half) C half SP T ∧ CleanPred half SP 1 ∧ (6 : BitVec 7).toNat % 8 ≠ 7 ∧ (127 : BitVec 7).toNat % 8 = 7 ∧ InBudget half T 127 1 ∧
    activeMask half SP 1 ≠ 0 ∧ activeMask G SP 1 = 0 ∧ qualified half 7 ∧ (5 : BitVec 3).toNat < 6 ∧ 6 ≤ (6 : BitVec 3).toNat ∧ (62 : BitVec 6).toNat % 2 = 0 ∧
    (63 : BitVec 6).toNat % 2 = 1 :=
  ⟨by unfold InBudget; decide, issuing half SP rfl rfl rfl rfl, clean1 half SP rfl (by decide), by decide, by decide, by unfold InBudget; decide, by decide, by decide, .inl rfl, by decide⟩

/-- A trap of two lanes, of none, and one with a nonzero D; a privileged word of some lanes. -/
theorem witness_TrapsTaken : Issuing (M half) C half SP T ∧ CleanPred half SP 1 ∧ activeMask half SP 1 ≠ 0 ∧ Lone half C SP ∧ half.pool = [] ∧ half.board = [] ∧
    ((M half).coreOf half.core).mxq = [] ∧ T.desc.traph ≠ 0 ∧ SP.mask ≠ 0 ∧ activeMask G SP 1 = 0 ∧ qualified half 7 ∧ (127 : BitVec 7) ≠ 0 :=
  ⟨issuing half SP rfl rfl rfl rfl, clean1 half SP rfl (by decide), by decide, lone _ SP rfl rfl rfl rfl rfl, rfl, rfl, rfl, by decide, by decide, by decide, .inl rfl, by decide⟩

/-- What a trap of slot 0 saved, and a group in its handler. -/
def kept : SavedTable := ⟨0, some { SP with depth := 2 }, none, 3, some 1, none, none, { Region.closed with opened := true }, 0⟩
def handler : Group := { half with saved := some kept, trap := ⟨5, 42, 0x7004, 0x7000, 3, 0, firstLanes 8, 0, 0, 0, 0, 0, 1⟩, sshw := 3, s := [(62, ⟨7, false⟩)] }

/-- A handler with one split and no region, and a return with a nonzero D. -/
theorem witness_ReturnFromTrap : Issuing (M handler) C handler SP T ∧ CleanPred handler SP 1 ∧ C.slot = 0 ∧ handler.saved = some kept ∧ handler.s1 = none ∧ handler.newest = none ∧
    handler.region.opened = false ∧ handler.pool = [] ∧ handler.board = [] ∧ handler.ended = false ∧ kept.tslot = 0 ∧ kept.s0 = some { SP with depth := 2 } ∧ kept.s1 = none ∧
    kept.newest = none ∧ kept.region.clean = [] ∧ handler.trap.tmask &&& handler.live ≠ 0 ∧ (127 : BitVec 7) ≠ 0 :=
  ⟨issuing _ SP rfl rfl rfl rfl, clean1 _ SP rfl (by decide), rfl, rfl, rfl, rfl, rfl, rfl, rfl, rfl, rfl, rfl, rfl, rfl, rfl, by decide⟩

/-- TREASON and STEP, the first and the last register; pairs to registers 62 and 63; a number that names none. -/
theorem witness_PrivilegedRegisters : Issuing (M handler) C handler SP T ∧ qualified handler 7 ∧ handler.saved.isSome = true ∧ (0 : BitVec 6).toNat * 64 + (0x17 : BitVec 6).toNat = 0x017 ∧
    (0 : BitVec 6).toNat * 64 + (0x18 : BitVec 6).toNat ∉ [0x002, 0x004, 0x006, 0x017] ∧ (62 : BitVec 6).toNat % 2 = 0 ∧ (63 : BitVec 6).toNat % 2 = 1 ∧
    (handler.rdS 62).poison = false ∧ (handler.rdS 63).poison = false := ⟨issuing _ SP rfl rfl rfl rfl, .inl rfl, rfl, by decide⟩

/-- A trap in a handler, one of a kernel that has none, and HALTG with codes 255 and 256. -/
theorem witness_GroupsEndedByTraps : Issuing (M handler) C handler SP T ∧ CleanPred handler SP 1 ∧ handler.ended = false ∧ (Map.find (M handler).grids T.grid).isSome = true ∧
    activeMask handler SP 1 ≠ 0 ∧ handler.pool = [] ∧ ((M handler).coreOf handler.core).mxq = [] ∧ handler.saved.isSome = true ∧
    (let t := { T with desc := { D with traph := 0 } }
     Issuing { M half with teams := [(1, t)] } C half SP t ∧ half.saved = none ∧ t.desc.traph = 0) ∧ activeMask G SP 1 = 0 ∧ (255 : BitVec 14).toNat < 256 ∧ 256 ≤ (256 : BitVec 14).toNat :=
  ⟨issuing _ SP rfl rfl rfl rfl, clean1 _ SP rfl (by decide), rfl, by decide, by decide, rfl, rfl, rfl, ⟨⟨rfl, rfl, rfl, rfl, rfl, rfl⟩, rfl, rfl⟩, by decide⟩

/-- Whether an access succeeds, and what it gives. -/
def isOk {ε α : Type} (r : Except ε α) : Bool := match r with | .ok _ => true | .error _ => false
def orElse {ε α : Type} (d : α) (r : Except ε α) : α := match r with | .ok a => a | .error _ => d

def isErr {ε α : Type} (r : Except ε α) (p : ε → Bool) : Bool := match r with | .error e => p e | .ok _ => false
def okIs {ε α : Type} [DecidableEq α] (r : Except ε α) (a : α) : Bool := match r with | .ok b => b == a | .error _ => false
theorem of_okIs {ε α : Type} [DecidableEq α] {r : Except ε α} {a : α} (h : okIs r a = true) : r = .ok a := by
  unfold okIs at h
  split at h
  · rw [eq_of_beq h]
  · contradiction

/-- Registers 4 and 5 hold a column record of 16 columns of 64 bytes, owned by the team itself; 6 holds 64. -/
def mat : Group := { half with s := [(4, ⟨1048640, false⟩), (5, ⟨7, false⟩), (6, ⟨64, false⟩)] }

/-- The forms of each matrix word at the last accumulator block, the last registers, and a queue with three entries of another group. -/
theorem witness_MatrixWordsAccepted :
    let e : MxEntry := { gid := 7, pc := 0, fmt := 0, op := .fill 0 1 [] (.val 0) }
    let s := { M mat with cores := [(0, { Core.zero with mxq := [e, e, e] })] }
    let b := 1048640 + 7 * 2 ^ 32
    Issuing s C mat SP T ∧ CleanPred mat SP 1 ∧ (s.coreOf mat.core).mxq.length < 4 ∧ (∀ e ∈ (s.coreOf mat.core).mxq, e.gid ≠ C.gid) ∧
      (mmaRsv 0 (wxOf C s) ⟨0, 1, 15, 112, 4⟩ ⟨1, 0, 0, 0, 0, 0, 0, 0⟩ = false ∧ brecBad b = false ∧ b.testBit 35 = false ∧ (mat.rdS 4).poison = false ∧ (mat.rdS 5).poison = false) ∧
      (mmaRsv 3 (wxOf C s) ⟨0, 1, 15, 96, 4⟩ ⟨1, 0, 6, 0, 0, 0, 0, 0⟩ = false ∧ mrecBad 64 = false ∧ (mat.rdS 6).poison = false ∧ (mat.rdS 7).poison = false) ∧
      (let s := { M { mat with s0 := some { SP with fmt := 0x44 } } with cores := s.cores }
       mmaRsv 1 (wxOf C s) ⟨0, 1, 15, 112, 4⟩ ⟨1, 0, 0, 0, 0, 0, 0, 0⟩ = false) ∧
      (let s := { M { mat with s0 := some { SP with fmt := 0x77 } } with cores := s.cores }
       mmaRsv 2 (wxOf C s) ⟨0, 1, 15, 112, 4⟩ ⟨1, 0, 0, 0, 1, 0, 0, 0⟩ = false) ∧
      (0 < 1 ∧ (15 : BitVec 7).toNat + 1 ≤ T.desc.tasb ∧ (8 : BitVec 7).toNat + ((7 : BitVec 7).toNat % 8 + 1) ≤ T.desc.tasb ∧ InBudget mat T 0 128) ∧
      (cvtRegs 0 8 = some 64 ∧ (modeOf SP plainX).isSome = true ∧ (15 : BitVec 7).toNat < 16 ∧ InBudget mat T 64 64 ∧ even 64 = true) ∧
      ((1 : BitVec 8) ≠ 0 ∧ (6 : BitVec 7).toNat < 64 ∧ (mat.rdS 6).bits.toNat % 64 = 0) :=
  ⟨⟨rfl, rfl, rfl, rfl, rfl, rfl⟩, clean1 _ SP rfl (by decide), by decide, by decide, by decide +kernel, by decide +kernel, by decide +kernel, by decide +kernel,
    ⟨by decide, by decide, by decide, by unfold InBudget; decide⟩, ⟨rfl, rfl, by decide, by unfold InBudget; decide, by decide⟩, by decide⟩

/-- A multiply of two rows, with its first and last column in the team's scratchpad, at the head of a queue. -/
theorem witness_MatrixQueueExecutes :
    let rows := [0, 31].map (fun i => (i, (List.range 16).map (fun k => LVal.val (0x3F803F80 + k))))
    let e : MxEntry := { gid := 2, pc := 0x1004, fmt := 0, op := .mul 0 15 ⟨1, 0, 0, 0, 0, 0, 0, 0⟩ rows (1048640 + 7 * 2 ^ 32) 0 }
    let s := { M mat with cores := [(0, { Core.zero with mxq := [e] })] }
    (s.coreOf 0).mxq = [e] ∧ Map.find s.groups e.gid = some mat ∧ Map.find s.teams mat.team = some T ∧ mat.ended = false ∧ mat.resident = true ∧ e.join = none ∧ mat.armed = [] ∧
      (∀ h ∈ s.groups, ∀ q ∈ h.2.egress, q.owed = 0) ∧ (rows.map (fun r => r.1)).Nodup ∧ (∀ r ∈ rows, r.1 < 128) ∧ bits (1048640 + 7 * 2 ^ 32) 32 3 = 7 ∧ mulK 0 (false == true) (afmtOf e.fmt) (bfmtOf e.fmt) = some 32 ∧
      (∀ r ∈ rows, isOk (rowOf 0 32 r.2) = true) ∧ (∀ j ∈ [0, 15], isOk (columnOf { s with draws := s.draws + 1 } mat (.ok 1) 1 0 32 0 (1048640 + 7 * 2 ^ 32) 0 j e.got) = true) :=
  ⟨rfl, rfl, rfl, rfl, rfl, rfl, rfl, by decide, by decide, by decide, by decide, by decide, by decide +kernel, by decide +kernel⟩

/-- The other entries at the last lane and the last places: a block move of 16 registers, FMT 0's conversion of 8 blocks, and moves from and to the last 64 bytes of the
scratchpad and past it. -/
theorem witness_MatrixMoves :
    let rows := [0, 127]
    let l : SpLit := ⟨1, 2, 2⟩
    let at_ := fun (o b i : Nat) => o + 64 * (l.bstr.toNat * b + l.rstr.toNat * i)
    rows.Nodup ∧ (∀ i ∈ rows, i < 128) ∧ (List.replicate 16 (LVal.val 5))[15]? = some (.val 5) ∧ rmodeOf 0 = some .rne ∧ cvtRegs (ofmtOf 0) 8 = some 64 ∧ mat.pending = [] ∧
      (1 < l.nblk.toNat ∧ at_ 57216 1 127 + 64 ≤ T.desc.scr * 1024 ∧ at_ 57216 1 127 % 4 = 0 ∧ SeenWord (M mat) 1 (at_ 57216 1 127 / 4 + 15) ∧ T.desc.scr * 1024 < at_ 57280 1 127 + 64) ∧
      (57216 % 64 = 0 ∧ mat.region.opened = false ∧ ∀ c < 2, ∀ j ∈ rows, at_ 57216 c j = at_ 57216 1 127 → c = 1 ∧ j = 127) := by
  refine ⟨by decide, by decide, by decide, by decide, by decide, rfl, ⟨by decide, by decide, by decide, ?_, by decide⟩, by decide⟩
  intro m hm o ho
  cases hm
  exact absurd ho List.not_mem_nil

/-- Rows of 16 zeros and with a NaV; columns at the end of the scratchpad and past it, with a poisoned word, a signalling NaN, and metadata that keeps the first two of
each four; a row of one integer element. -/
theorem witness_MatrixParts :
    let t := { T with scr := [(0, ⟨5, true⟩), (16, ⟨0x7F81, false⟩), (64, ⟨0x44444444, false⟩)] }
    let s := { M mat with teams := [(1, t)] }
    let zeros := List.replicate 16 0
    (∀ n ∈ zeros, n < 2 ^ 32) ∧ none ∉ (List.range 32).map (fun k => decodeElem 0 (0 / 2 ^ (16 * k) % 2 ^ 16)) ∧ decodeElem 2 0x80 = none ∧
      (Map.find s.teams 1 = some t ∧ mat.pending = [] ∧ T.desc.scr * 1024 < 65472 + 64 * 1 * 1 + 64 ∧ 65472 + 64 ≤ T.desc.scr * 1024 ∧ 65472 % 4 = 0 ∧ (∀ k < 16, SeenWord s 1 (65472 / 4 + k)) ∧
        (s.scrWord 1 0).poison = true ∧ elems 0 32 0 ≠ none ∧ (bf16.decode 0x7F81).isSNaN = true) ∧
      (32 % 8 = 0 ∧ T.desc.scr * 1024 < 65533 + 32 / 8 ∧ 256 + 32 / 8 ≤ T.desc.scr * 1024 ∧ scrSeen s mat 1 256 (32 / 8) = .val 0x44444444 ∧
        (∀ g < 32 / 4, 0x44444444 / 16 ^ g % 16 % 4 < 0x44444444 / 16 ^ g % 16 / 4) ∧ 0 / 16 ^ 0 % 16 / 4 ≤ 0 / 16 ^ 0 % 16 % 4) ∧
      ([3].length = [(0, FNum.ofInt 4)].length ∧ ∀ e ∈ [(0, FNum.ofInt 4)].zip [(3 : Int)], [FNum.ofInt 3][e.1.1]? = some (FNum.ofInt e.2)) := by
  refine ⟨by decide, by decide, by decide +kernel, ⟨rfl, rfl, by decide, by decide, by decide, ?_, by decide +kernel, by decide +kernel, by decide +kernel⟩, by decide +kernel, by decide⟩
  intro k hk m hm o ho
  cases hm
  exact absurd ho List.not_mem_nil

/-- A pair with the address 32768 in registers 4 and 5, byte offsets 8 times the lane in register 1, data in registers 2 and 3. -/
def near8 : Group :=
  { half with s := [(4, ⟨0x8000, false⟩), (6, ⟨64, false⟩), (62, ⟨0x8000, false⟩)],
              v := [(129, ⟨8, false⟩), (130, ⟨16, false⟩), (131, ⟨24, false⟩), (256, ⟨9, false⟩), (257, ⟨8, false⟩), (258, ⟨7, false⟩)] }

/-- A quad to the last four registers, to the last scalar ones, a constant, a prefetch, and their reserved uses; a last byte of a clean sector, of a poisoned one, of one
with an error and of one with a pending store; a clean and a poisoned scratchpad word. -/
theorem witness_LoadWords :
    (let l : MemLit := ⟨6, 0, 0, 1, 62, 3, 2, 4, 1023⟩
     let k : MemLit := ⟨6, 1, 0, 2, 0, 0, 0, 0, 1023⟩
     let f : MemLit := ⟨0, 0, 0, 1, 62, 0, 0, 0, 0⟩
     Issuing (M half) C half SP T ∧ CleanPred half SP 1 ∧ (∀ q ∈ half.egress, q.red = none) ∧ MemOk l 0 ∧ OrdOk l ∧ SizeOk l 124 ∧ InBudget half T 124 4 ∧
      (k.sz ≠ 7 ∧ k.space = 0 ∧ k.bk = 2 ∧ k.base = 0 ∧ k.ord = 0 ∧ k.scope = 0 ∧ SizeOk k 124) ∧ (SizeOk l 60 ∧ l.ix = 0 ∧ (60 : BitVec 7).toNat < 64) ∧
      activeMask half SP 1 ≠ 0 ∧ activeMask G SP 1 = 0 ∧ (MemOk f 0 ∧ f.sz = 0 ∧ f.space = 0 ∧ f.ord = 0 ∧ f.scope = 0 ∧ (1 : BitVec 7).toNat < 2) ∧ ¬(2 : BitVec 7).toNat < 2 ∧
      ¬SizeOk l 126 ∧ InBudget half T 126 2 ∧ ¬InBudget half T 126 3 ∧ ¬SizeOk k 126) ∧
    (0 < 1 ∧ 31 % 32 + 1 ≤ 32) ∧
    (let s := { M half with poisoned := [(3, 0x01010001)], l2bad := [(32, true)] }
     let q : Store := { place := .dev 64, va := 0, line := none, bytes := bytesAt 31 1 7 0, ptok := [], red := none, lane := 0, ord := 0, scope := 0, stale := false, view := 0 }
     (∀ n ∈ [2, 3], s.readError half.core (s.seenAs 0 n) = none) ∧ (s.devSector 0 2).token = none ∧ (s.devSector 0 3).token = some 0x01010001 ∧
      (s.readError half.core (s.seenAs 0 4) = some (.eccCache, .l2Clean) ∧ (s.coreOf half.core).l1Has (s.seenAs 0 4) = false ∧
        Map.get false s.l2bad (Sys2Proof.Machine.inRegion (s.seenAs 0 4) (regionOf half.core)) = true) ∧ (∀ q ∈ half.pending, q.red.isSome = true) ∧
      (({ half with egress := [q] } : Group).pending = [] ++ [q] ∧ q.place = .dev (95 / 32 * 32) ∧ q.red = none ∧ q.ptok = [] ∧ q.bytes = bytesAt (95 % 32) 1 7 0)) ∧
    (let s := { M half with teams := [(1, { T with scr := [(16, ⟨5, false⟩), (17, ⟨0x01010001, true⟩)] })] }
     half.pending = [] ∧ SeenWord s 1 16 ∧ SeenWord s 1 17 ∧ (s.scrWord 1 16).poison = false ∧ (s.scrWord 1 17).poison = true) := by
  refine ⟨⟨issuing half SP rfl rfl rfl rfl, clean1 half SP rfl (by decide), by decide, by unfold MemOk; decide, by unfold OrdOk; decide, by unfold SizeOk; decide, by unfold InBudget; decide,
    ⟨by decide, by decide, by decide, by decide, by decide, by decide, by unfold SizeOk; decide⟩, ⟨by unfold SizeOk; decide, by decide⟩, by decide, by decide,
    ⟨by unfold MemOk; decide, by decide⟩, by decide, by unfold SizeOk; decide, by unfold InBudget; decide, by unfold InBudget; decide, by unfold SizeOk; decide⟩, by decide, ?_, rfl, ?_, ?_, by decide⟩
  · decide +kernel
  all_goals
    intro m hm o ho
    cases hm
    exact absurd ho List.not_mem_nil

theorem not_scr {p : Place} (h : onDev p = true) : ∀ u o, p ≠ .scr u o := by
  rintro u o rfl
  contradiction

/-- A global access through a pair, through register 1 below LIMIT and at it, of the team's and of a peer's scratchpad, with a clean and a poisoned base and index; the end of
the scratchpad, an offset before it and a misaligned one; a peer that is there, one fenced, one gone and one that never was. -/
theorem witness_LaneAddresses :
    let g : MemLit := ⟨4, 1, 0, 1, 4, 1, 0, 0, 4⟩
    let p : MemLit := ⟨4, 1, 5, 1, 4, 0, 0, 0, 4⟩
    let r : XReg := ⟨0x10000, true, 0, 0, false, true, 4096, 0x8000, 0x8000⟩
    let t : Team := { T with tuple := some 5, crank := 0 }
    let x := { near8 with x := [(1, r)] }
    let s := { M x with teams := [(1, t), (7, { T with groups := [2] }), (8, { T with groups := [] })], tuples := [(5, ⟨0, [1, 7, 8, 9, 10], [4], []⟩)] }
    (Issuing (M x) C x SP T ∧ x.armed = [] ∧ Map.find (M x).ctxs x.ctx = some bootCtx ∧ MemOk g 1 ∧ MemOk p 1 ∧ 0 < 4) ∧
      (asPair (x.rdS 4) (x.rdS 5) = .val 0x8000 ∧ laneData x T 1 3 = .val 24 ∧ laneData { x with role := true } T 100 3 = .bad .malformed ∧ asPair ⟨5, true⟩ (x.rdS 5) = .tok 5) ∧
      ((65532 : Int) + 4 ≤ (T.desc.scr * 1024 : Int) ∧ (65532 : Int) % 4 = 0 ∧ (65530 : Int) % 4 ≠ 0 ∧ (-4 : Int) < 0 ∧ (T.desc.scr * 1024 : Int) < 65536 + 4) ∧
      (((4095 : Int) % 2 ^ 64).toNat < r.limit.toNat ∧ r.limit.toNat ≤ ((4096 : Int) % 2 ^ 64).toNat ∧ r.w = true ∧ r.nx = false ∧ isOk (decodePA (M x) bootCtx.port (r.frame.toNat + 4095)) = true ∧
        isOk (translate (M x) bootCtx .read 0x8000 (freeKey 0 10 0)) = true ∧ isOk (translate (M x) bootCtx .read (2 ^ 57) (freeKey 0 10 0)) = false) ∧
      (t.tuple = some 5 ∧ Map.find s.tuples 5 = some ⟨0, [1, 7, 8, 9, 10], [4], []⟩ ∧ (∃ g ∈ [2], (s.grp g).ended = false) ∧ (∀ g ∈ ([] : List Nat), (s.grp g).ended = true) ∧
        Map.find s.teams 9 = none ∧ 3 ∉ [4] ∧ 4 ∈ [4] ∧ [1, 7, 8, 9, 10][5]? = none ∧ T.tuple = none) := by
  refine ⟨⟨issuing _ SP rfl rfl rfl rfl, rfl, rfl, by unfold MemOk; decide, by unfold MemOk; decide, by decide⟩, by decide +kernel, by decide, by decide +kernel, by decide +kernel⟩

/-- The stores that the lanes make, and that they make them. -/
def made (s : State) (x : Group) (l : MemLit) (w : WA) (d : Int) : List LaneStore :=
  ((List.range 128).filter (active x SP w.pred.toNat)).filterMap (fun i => match laneStore s (wxOf C s) l w d i with | .ok q => some q | _ => none)

theorem made_ok (s : State) (x : Group) (l : MemLit) (w : WA) (d : Int) (n : Nat) (h1 : (made s x l w d).length = n)
    (h : ∀ e ∈ ((List.range 128).filter (active x SP w.pred.toNat)).zip (made s x l w d), okIs (laneStore s (wxOf C s) l w d e.1) e.2 = true ∧ e.2.token = none) :
    (made s x l w d).length = n ∧ ∀ e ∈ ((List.range 128).filter (active x SP w.pred.toNat)).zip (made s x l w d),
      laneStore s (wxOf C s) l w d e.1 = .ok e.2 ∧ e.2.token = none := ⟨h1, fun e he => ⟨of_okIs (h e he).1, (h e he).2⟩⟩

theorem witness_StoreWords :
    (let l : MemLit := ⟨4, 1, 0, 1, 4, 0, 0, 0, 508⟩
     let r : MemLit := ⟨4, 1, 0, 1, 4, 0, 0, 0, 24⟩
     let w : WA := ⟨0, 1, 0, 1, 2⟩
     let x := near8
     let y := { near8 with region := { Region.closed with opened := true, used := 6 } }
     let lanes := (List.range 128).filter (active x SP 1)
     Issuing (M x) C x SP T ∧ Issuing (M y) C y SP T ∧ CleanPred x SP 1 ∧ T.view = 0 ∧ lanes ≠ [] ∧
      (MemOk l w.a ∧ OrdOk l ∧ SizeOk l w.b ∧ l.sz ≠ 1 ∧ l.sz ≠ 3 ∧ w.d = 0) ∧ (MemOk r w.a ∧ AtomicOk r ∧ r.disp.toNat / 64 ≠ 8 ∧ r.disp.toNat / 64 ≠ 9 ∧ r.ord ≠ 1 ∧ r.ord ≠ 3) ∧
      ((made (M x) x l w 508).length = lanes.length ∧ ∀ e ∈ lanes.zip (made (M x) x l w 508), laneStore (M x) (wxOf C (M x)) l w 508 e.1 = .ok e.2 ∧ e.2.token = none) ∧
      ((made (M x) x r w 24).length = lanes.length ∧ ∀ e ∈ lanes.zip (made (M x) x r w 24), laneStore (M x) (wxOf C (M x)) r w 24 e.1 = .ok e.2 ∧ e.2.token = none) ∧
      (formStores C.pc 0 0 0 (made (M y) y r w 24)).length ≤ 2 ∧ y.region.used + 2 ≤ T.desc.qq ∧ x.region.opened = false ∧ r.scope.toNat < 3 ∧ x.egress = [] ∧
      (let r : MemLit := ⟨4, 1, 0, 1, 4, 0, 2, 3, 24⟩
       MemOk r w.a ∧ AtomicOk r ∧ 3 ≤ r.scope.toNat ∧ (M x).invals = [] ∧ (M x).hostL2 = []) ∧ (∀ q ∈ made (M x) x l w 508, ∀ u o, q.tr.place ≠ .scr u o) ∧
      (∀ q ∈ made (M x) x r w 24, ∀ u o, q.tr.place ≠ .scr u o) ∧ ¬OrdOk ⟨4, 1, 0, 1, 4, 0, 3, 0, 24⟩ ∧ ¬AtomicOk ⟨4, 1, 0, 1, 4, 0, 0, 0, 704⟩) ∧
    (let q : Store := { place := .dev 96, va := 0, line := none, bytes := bytesAt 0 32 7 0, ptok := [], red := none, lane := 0, ord := 1, scope := 0, stale := false, view := 0 }
     let x := { half with egress := [q] }
     mayPerform ((M x).packageScope x.ctx) x.egress 0 = true ∧ NoErrors (M x) ∧ ((M x).dieAt (dieOf x.core)).asleep = false ∧ Map.find (M x).groups 2 = some x ∧ x.egress[0]? = some q ∧ q.red = none ∧ q.ord < 2 ∧ q.place = .dev (32 * 3) ∧ q.view = 0 ∧
      Map.find (M x).views 0 = none ∧ ∀ b ∈ q.bytes, b.1 < 32) := by
  have far1 : ∀ q ∈ made (M near8) near8 ⟨4, 1, 0, 1, 4, 0, 0, 0, 508⟩ ⟨0, 1, 0, 1, 2⟩ 508, onDev q.tr.place = true := by decide +kernel
  have far2 : ∀ q ∈ made (M near8) near8 ⟨4, 1, 0, 1, 4, 0, 0, 0, 24⟩ ⟨0, 1, 0, 1, 2⟩ 24, onDev q.tr.place = true := by decide +kernel
  refine ⟨⟨issuing _ SP rfl rfl rfl rfl, issuing _ SP rfl rfl rfl rfl, clean1 _ SP rfl (by decide), rfl, by decide, ⟨by unfold MemOk; decide, by unfold OrdOk; decide, by unfold SizeOk; decide, by decide⟩,
    ⟨by unfold MemOk; decide, by unfold AtomicOk; decide, by decide⟩, made_ok _ _ _ _ _ _ (by decide +kernel) (by decide +kernel), made_ok _ _ _ _ _ _ (by decide +kernel) (by decide +kernel), by decide +kernel, by decide, rfl, by decide, rfl,
    ⟨by unfold MemOk; decide, by unfold AtomicOk; decide, by decide, rfl, rfl⟩, fun q hq => not_scr (far1 q hq), fun q hq => not_scr (far2 q hq), by unfold OrdOk; decide, by unfold AtomicOk; decide⟩, ?_⟩
  exact ⟨by decide +kernel, ⟨rfl, rfl⟩, rfl, rfl, by decide +kernel⟩

/-- Stores to the last word of the scratchpad; lanes whose bases are poisoned, whose data is, and all of whose addresses fail; stores that do not fit in QQ; lanes in order
that share a sector. -/
theorem witness_StoresOfOtherLanes :
    (let l : MemLit := ⟨4, 0, 1, 1, 62, 0, 0, 0, 0⟩
     let x := { half with s := [(62, ⟨65532, false⟩)] }
     let q : Nat → LaneStore := fun i => ⟨i, ⟨.scr 1 65532, 0, none, 65532⟩, 4, 0, none⟩
     let qs := [q 0, q 1]
     (List.range 128).filter (active x SP 1) = [0, 1] ∧ MemOk l 0 ∧ OrdOk l ∧ l.ord.toNat < 2 ∧ 4 ≤ l.sz.toNat ∧ SizeOk l 2 ∧
       (∀ i < 2, okIs (laneStore (M x) (wxOf C (M x)) l ⟨0, 1, 0, 0, 2⟩ l.disp.toInt i) (q i) = true) ∧ (qs.map (·.lane)).Pairwise (· < ·) ∧
       ∀ e ∈ qs, 0 < e.n ∧ (sectorBase e.tr.place).2 + e.n ≤ 32) ∧
    (let l : MemLit := ⟨4, 1, 0, 1, 4, 0, 0, 0, 508⟩
     let w : WA := ⟨0, 1, 0, 1, 2⟩
     let x := { near8 with s := [(4, ⟨5, true⟩)] }
     let y := { near8 with v := [(257, ⟨9, true⟩)] }
     let z := { near8 with s := [(5, ⟨0x2000000, false⟩)] }
     isErr (laneStore (M x) (wxOf C (M x)) l w 508 0) (fun e => e == .tok 5) = true ∧ (orElse (⟨0, ⟨.scr 0 0, 0, none, 0⟩, 4, 0, none⟩) (laneStore (M y) (wxOf C (M y)) l w 508 1)).token = some 9 ∧
       (∀ i < 2, isErr (laneStore (M z) (wxOf C (M z)) l w 508 i) (fun e => match e with | .new f => f.cause == .bounds | _ => false) = true) ∧
       (∀ i < 2, isOk (laneTarget (M z) (wxOf C (M z)) l 1 508 .write 4 i) = false)) ∧
    (let y := { near8 with region := { Region.closed with opened := true, used := 8 } }
     y.region.opened = true ∧ y.region.used ≤ T.desc.qq ∧ T.desc.qq < y.region.used + 1 ∧ (List.range 128).find? (fun i => [0, 1].contains i) = some 0) := by
  refine ⟨⟨by decide, by unfold MemOk; decide, by unfold OrdOk; decide, by decide, by decide, by unfold SizeOk; decide, by decide +kernel, by decide, by decide⟩, by decide +kernel, by decide⟩

/-- A compare and swap of one lane at an 8-byte word, to the last pair, with the operation 10 that exists and 11 that does not. -/
theorem witness_AtomicWord :
    let l : MemLit := ⟨4, 1, 0, 1, 4, 0, 0, 0, 584⟩
    let x : Group := { near8 with p := [(128 + 3, ⟨1, false⟩)], v := [(131, ⟨24, false⟩), (259, ⟨0, false⟩), (387, ⟨5, false⟩)] }
    let s := M x
    let none_ : Trans := ⟨.scr 9 0, 0, none, 0⟩
    let tr := orElse none_ (laneTarget s (wxOf C s) l 1 8 .write 4 3)
    Issuing s C x SP T ∧ NoErrors s ∧ CleanPred x SP 1 ∧ MemOk l 1 ∧ AtomicOk l ∧ SizeOk l 127 ∧ SizeOk l 2 ∧ InBudget x T 127 1 ∧ Plain x T ∧ x.egress = [] ∧ l.ord.toNat < 2 ∧
      (List.range 128).filter (active x SP 1) = [3] ∧ l.disp.toNat / 64 = 9 ∧ laneTarget s (wxOf C s) l 1 8 .write 4 3 = .ok tr ∧ dataOf (wxOf C s) 1 2 3 = .val 0 ∧
      (wxOf C s).lane 1 6 3 3 false = .val 5 ∧ loadPlace s { x with egress := [], region := Region.closed } 0 (freeKey s.draws 9 3) tr.place 4 = .val 0 ∧
      atomicOp 9 4 0 0 5 = some 5 ∧ tr.place = .dev 1099511627808 ∧ 1099511627808 % 32 + 4 ≤ 32 ∧ Map.find s.views 0 = none ∧ AtomicOk ⟨4, 1, 0, 1, 4, 0, 0, 0, 640⟩ ∧
      ¬AtomicOk ⟨4, 1, 0, 1, 4, 0, 0, 0, 704⟩ :=
  ⟨issuing _ SP rfl rfl rfl rfl, ⟨rfl, rfl⟩, clean1 _ SP rfl (by decide), by unfold MemOk; decide, by unfold AtomicOk; decide, by unfold SizeOk; decide, by unfold SizeOk; decide, by unfold InBudget; decide,
    ⟨rfl, rfl⟩, rfl, by decide, by decide +kernel, by decide, of_okIs (by decide +kernel), by decide +kernel, by decide +kernel, by decide +kernel, by decide +kernel, by decide +kernel, by decide, rfl,
    by unfold AtomicOk; decide, by unfold AtomicOk; decide⟩

/-- Lanes 0 and 1 at one word, one that holds poison, a sum with a signalling NaN, a lane whose address fails, the first word of the team's scratchpad. -/
theorem witness_AtomicLanes :
    let l : MemLit := ⟨4, 0, 0, 1, 4, 0, 0, 0, 0⟩
    let x : Group := { near8 with s := [(4, ⟨0x8000, false⟩), (8, ⟨0, false⟩), (63, ⟨0x2000000, false⟩)] }
    let s := M x
    let poisoned := { s with poisoned := [(1099511627776 / 32, 7)] }
    let lanes := (List.range 128).filter (active x SP 1)
    let bare := { x with egress := [], region := Region.closed }
    MemOk l 0 ∧ AtomicOk l ∧ SizeOk l 2 ∧ 0 < 8 ∧ lanes = [0, 1] ∧ 1099511627776 % 32 + 4 ≤ 32 ∧ loadPlace s bare 0 0 (.dev 1099511627776) 4 = .val 0 ∧
      (∀ i ∈ lanes, okIs (laneTarget s (wxOf C s) l 0 0 .write 4 i) ⟨.dev 1099511627776, 0, some 2147483712, 0x8000⟩ = true ∧ (dataOf (wxOf C s) 1 2 i).isVal = true) ∧
      loadPlace (poisoned.nowScr (.dev 1099511627776)) bare 0 (freeKey 0 9 0) (.dev 1099511627776) 4 = .tok 7 ∧ atomicOp 10 4 0x7F800001 0 0 = none ∧
      isErr (laneTarget s (wxOf C s) ⟨4, 0, 0, 1, 62, 0, 0, 0, 0⟩ 0 0 .write 4 0) (fun e => match e with | .new f => f.cause != .malformed | _ => false) = true ∧
      okIs (laneTarget s (wxOf C s) ⟨4, 0, 1, 1, 8, 0, 0, 0, 0⟩ 0 0 .write 4 0) ⟨.scr 1 0, 0, none, 0⟩ = true ∧ loadPlace (s.nowScr (.scr 1 0)) bare 0 (freeKey 0 9 0) (.scr 1 0) 4 = .val 0 :=
  ⟨by unfold MemOk; decide, by unfold AtomicOk; decide, by unfold SizeOk; decide, by decide, by decide, by decide, by decide +kernel, by decide +kernel, by decide +kernel, by decide +kernel,
    by decide +kernel, by decide +kernel, by decide +kernel⟩

/-- An address that a walk finds and one past 2^57; register 7 and register 8, which there is not; a poisoned pair; XINFO's part 3 and part 4. -/
theorem witness_TranslationWords : Issuing (M near8) C near8 SP T ∧ qualified near8 7 ∧ Map.find (M near8).ctxs near8.ctx = some bootCtx ∧ (near8.rdS 4).poison = false ∧
    (near8.rdS 5).poison = false ∧ isOk (walk (M near8) bootCtx 0x8000 0) = true ∧ isOk (walk (M near8) bootCtx (2 ^ 57) 0) = false ∧ (7 : BitVec 6).toNat < 8 ∧
    ¬(8 : BitVec 6).toNat < 8 ∧ (({ near8 with s := [(5, ⟨3, true⟩)] } : Group).rdS 5).poison = true ∧ (62 : BitVec 6).toNat % 2 = 0 ∧ (3 : BitVec 3).toNat < 4 ∧ ¬(4 : BitVec 3).toNat < 4 :=
  ⟨issuing _ SP rfl rfl rfl rfl, .inl rfl, rfl, by decide +kernel⟩

/-- Registers 4 and 5 hold the address 32768, 8 holds 64, 10 and 11 a list of one item at 32768. -/
def cop : Group :=
  { half with s := [(4, ⟨0x8000, false⟩), (8, ⟨64, false⟩), (10, ⟨0x8000, false⟩), (11, ⟨65536, false⟩), (12, ⟨0x40, false⟩)], seq := 3 }

/-- A copy of the last of two sectors, at the end of the scratchpad. -/
def moving : AsyncOp := { mkOp half 0 0 0 1 0 false [] (.cpy 0 0xFFC0 0x8000 64 1 0 0 32) with seq := 1 }

/-- Copies, gathers and scatters in order, at the largest count, and with a nonzero SUB; and a copy whose last sector stands at the end of the scratchpad. -/
theorem witness_CopyWords :
    (Issuing (M cop) C cop SP T ∧ qualified cop 7 ∧ Plain cop T ∧ CleanPair cop 4 ∧ CleanPair cop 10 ∧ CleanReg cop 8 ∧ CleanReg cop 63 ∧
      (let (sa, sb, sd) := (4, 8, 12)
       sa % 2 = 0 ∧ cop.pair sa % 16 = 0 ∧ cop.reg sb % 16 = 0 ∧ cop.reg sd % 16 = 0 ∧ (⟨0, 0, 2⟩ : CpyLit).mmask = 0) ∧
      ((3 : BitVec 3).toNat < 4 ∧ 10 % 2 = 0 ∧ (1 : BitVec 27) ≠ 0 ∧ cop.pair 10 % 2 ^ 32 % 4 = 0 ∧ cop.pair 10 / 2 ^ 32 ≤ 65536 ∧ cop.reg 8 % (32 * 2 ^ 0) = 0) ∧ ¬(4 : BitVec 3).toNat < 4 ∧
      ¬(1 : BitVec 3) = 0) ∧
    (let x := { half with paths := [(0, ⟨[moving], false⟩)] }
     let s := M x
     let s' := { s with draws := s.draws + 1 }
     Map.find s.groups 2 = some x ∧ Map.find s.teams x.team = some T ∧ Map.find s.ctxs x.ctx = some bootCtx ∧ x.path pathCpy = ⟨moving :: [], false⟩ ∧
      moving.kind = .cpy 0 0xFFC0 0x8000 64 1 0 0 32 ∧ moving.done = false ∧ moving.lease = false ∧ moving.deps = [] ∧ x.egress = [] ∧ 0 < 64 ∧ 32 < 1 * 64 ∧ 32 % 64 + 32 ≤ 64 ∧
      0x8020 % 32 = 0 ∧ 0xFFE0 + 32 ≤ T.desc.scr * 1024 ∧ 1099511627808 % 32 = 0 ∧
      (∃ r, translate s' bootCtx .read 0x8020 (freeKey s.draws 22 0) = .ok r ∧ r.place = .dev 1099511627808) ∧
      (∃ r, translate s' bootCtx .read 0x8030 (freeKey s.draws 22 0) = .ok r ∧ r.place = .dev 1099511627824) ∧
      (s'.devSector 0 (1099511627808 / 32)).token = none ∧ NoErrors s ∧ (s.dieAt (dieOf x.core)).asleep = false) :=
  ⟨⟨issuing _ SP rfl rfl rfl rfl, .inl rfl, ⟨rfl, rfl⟩, by unfold CleanPair; decide, by unfold CleanPair; decide, by unfold CleanReg; decide, by unfold CleanReg; decide, by decide, by decide, by decide, by decide⟩,
    rfl, rfl, rfl, rfl, rfl, rfl, rfl, rfl, rfl, by decide, by decide, by decide, by decide, by decide, by decide,
    ⟨⟨.dev 1099511627808, 0, some 2147483712, 0x8020⟩, of_okIs (by decide +kernel), rfl⟩,
    ⟨⟨.dev 1099511627824, 0, some 2147483712, 0x8030⟩, of_okIs (by decide +kernel), rfl⟩, by decide +kernel, ⟨rfl, rfl⟩, rfl⟩

/-- A grid with a launched, a resident, a range and an ended node. -/
def node (k : Nat) : Node :=
  { kdesc := 0, extx := 0, exty := 0, extz := 0, timer := 0, nprod := 1, cap := 4, dim := 0, kind := k, desc := D, bin := [], produced := 0, handed := 0, returned := [],
    timerAt := none, lapsed := false, waiting := [], ended := false }
def nodes : Grid := { bootGrid with desc := D, nodes := [node 0, node 1, node 2, { node 1 with ended := true }] }

/-- The machine with those nodes, and with group 3 of the fabric open to the context. -/
def N (x : Group) : State := { M x with grids := [(0, nodes)], ctxs := [(0, { bootCtx with gmask := 1 <<< 3 })], mcLeaf := [(3, (1 <<< 56) ||| 1)] }

/-- Requests for 64 records of node 1 to the end of the scratchpad and for 65, a group offset in registers 4 and 5, indices in lane register 1. -/
def work : Group :=
  { near8 with s := [(5, ⟨0x600, false⟩), (8, ⟨0x400001, false⟩), (9, ⟨0x410001, false⟩), (10, ⟨64496, false⟩), (12, ⟨3, true⟩)] }

theorem witness_WorkAndMulticastIssue :
    let s := N work
    let lanes := (List.range 128).filter (active work SP 1)
    let asks := fun (a : Nat) => a < 2 ^ 23 ∧ 1 ≤ a / 65536 % 128 ∧ a / 65536 % 128 ≤ 64
    let m : McLit := ⟨4, 1, 4, 0, 0, 1, 0, 0, 124⟩
    let es := lanes.filterMap (fun i => match mcLane true s (wxOf C s) ⟨0, 1, 0, 1, 2⟩ m i with | .ok e => some e | _ => none)
    Issuing s C work SP T ∧ CleanPred work SP 1 ∧ Plain work T ∧ lanes ≠ [] ∧ qualified work 7 ∧ CleanReg work 8 ∧ CleanReg work 10 ∧
      (asks (work.reg 8) ∧ work.reg 10 % 16 = 0 ∧ work.reg 10 + 16 + 16 * 64 ≤ T.desc.scr * 1024 ∧ (1 : BitVec 3).toNat < 2 ∧ s.node T.grid (work.reg 8 % 65536) = some (node 1) ∧ (node 1).kind ≠ 0) ∧
      ¬asks (work.reg 9) ∧
      (InBudget work T 124 4 ∧ CleanLanes work lanes 124 4 ∧ spawnable s T.grid 1 = true ∧ spawnable s T.grid 0 = true ∧ InBudget work T 127 1 ∧ CleanLanes work lanes 127 1 ∧
        ∀ i ∈ lanes, spawnable s T.grid (work.laneReg 127 i) = true) ∧ ¬InBudget work T 125 4 ∧
      (m.sz = 4 ∧ m.aop.toNat < 10 ∧ m.base.toNat % 2 = 0 ∧ es.length = lanes.length ∧ CleanPair work m.base.toNat ∧ work.egress = [] ∧ s.invals = [] ∧ s.hostL2 = [] ∧
        ∀ r ∈ lanes.zip es, mcLane true s (wxOf C s) ⟨0, 1, 0, 1, 2⟩ m r.1 = .ok r.2) ∧ ¬(10 : BitVec 4).toNat < 10 ∧
      (let k : McLit := ⟨6, 1, 4, 0, 0, 0, 1, 63, 0⟩
       k.sz = 6 ∧ k.aop = 0 ∧ k.acken = 1) := by
  intro s lanes asks m es
  have hm : ∀ r ∈ lanes.zip es, okIs (mcLane true s (wxOf C s) ⟨0, 1, 0, 1, 2⟩ m r.1) r.2 = true := by decide +kernel
  exact ⟨⟨rfl, rfl, rfl, rfl, rfl, rfl⟩, clean1 _ SP rfl (by decide), ⟨rfl, rfl⟩, by decide, .inl rfl, by unfold CleanReg; decide, by unfold CleanReg; decide,
    ⟨by decide, by decide, by decide, by decide, rfl, by decide⟩, by decide,
    ⟨by unfold InBudget; decide, by unfold CleanLanes; decide, by decide, by decide, by unfold InBudget; decide, by unfold CleanLanes; decide, by decide⟩, by unfold InBudget; decide,
    ⟨rfl, by decide, by decide, by decide +kernel, by unfold CleanPair; decide, rfl, rfl, rfl, fun r hr => of_okIs (hm r hr)⟩, by decide, by decide⟩

/-- Destinations and sources that end at register 127, each mode of TBACK and mode 3, BEN with its register, an odd pair for TREUSE. -/
theorem witness_TreeWordsIssue : Issuing (M cop) C cop SP T ∧ CleanPred cop SP 1 ∧ Plain cop T ∧ FreshSeq cop ∧ (List.range 128).filter (active cop SP 1) ≠ [] ∧ CleanPair cop 62 ∧
    (InBudget cop T 125 3 ∧ CleanReg cop 63 ∧ InBudget cop T 126 2) ∧ (∀ n < 4, CleanLanes cop ((List.range 128).filter (active cop SP 1)) 125 n) ∧
    ((2 : BitVec 2) ≠ 3 ∧ ¬(3 : BitVec 2) ≠ 3 ∧ InBudget cop T 127 1 ∧ InBudget cop T 124 4 ∧ (62 : BitVec 7).toNat % 2 = 0) ∧ qualified cop 7 ∧ (62 : BitVec 6).toNat % 2 = 0 ∧ ¬(63 : BitVec 6).toNat % 2 = 0 :=
  ⟨issuing _ SP rfl rfl rfl rfl, clean1 _ SP rfl (by decide), ⟨rfl, rfl⟩, by unfold FreshSeq; decide, by decide, by unfold CleanPair; decide,
    ⟨by unfold InBudget; decide, by unfold CleanReg; decide, by unfold InBudget; decide⟩, by unfold CleanLanes; decide,
    ⟨by decide, by decide, by unfold InBudget; decide, by unfold InBudget; decide, by decide⟩, .inl rfl, by decide⟩

theorem kept_on (s : State) (x : Group) (k : Ctx) (h : Map.find s.ctxs x.ctx = some k) (ha : k.abandon = false) : ¬Abandoned s x := by
  rintro ⟨c, hc, hb⟩
  rw [h] at hc
  cases hc
  rw [ha] at hb
  contradiction

/-- A wait on path 5 with exponent 15, on its last number and on one more; an expired one; an abandoned context; path 6, which there is not; XFENCE's bounds. -/
theorem witness_PathWaits :
    let c := { C with wait := some (.path 1 0), expired := true }
    let s := { M busy with cur := some c }
    let t := { M busy with ctxs := [(0, { bootCtx with abandon := true })] }
    Issuing (M busy) C busy SP T ∧ Issuing s c busy SP T ∧ Issuing t C busy SP T ∧ qualified busy 7 ∧ Fresh C ∧ CleanReg busy 63 ∧ ((5 : BitVec 3).toNat < 6 ∧ (15 : BitVec 6).toNat < 16) ∧
      ¬(6 : BitVec 3).toNat < 6 ∧ ¬(16 : BitVec 6).toNat < 16 ∧ (busy.path 5).ops.length ≤ busy.reg 63 ∧ ¬(busy.path 1).ops.length ≤ busy.reg 63 ∧ 0 < (busy.path 1).ops.length ∧
      c.expired = true ∧ ¬Abandoned s busy ∧ Abandoned t busy ∧ (6 : BitVec 6).toNat < 7 ∧ ¬(7 : BitVec 6).toNat < 7 :=
  ⟨issuing _ SP rfl rfl rfl rfl, ⟨rfl, rfl, rfl, rfl, rfl, rfl⟩, ⟨rfl, rfl, rfl, rfl, rfl, rfl⟩, .inl rfl, ⟨rfl, rfl, rfl, rfl⟩, by unfold CleanReg; decide, by decide, by decide, by decide, by decide,
    by decide, by decide, rfl, kept_on _ _ bootCtx rfl rfl, ⟨_, rfl, rfl⟩, by decide⟩

/-- Team barrier 15 at the last phase, cluster barrier 7, grid barrier 3, and numbers 8 and 4 of these levels that there are not; the last arrival, an earlier one
and a second one of a phase; a broken barrier. -/
theorem witness_BarrierWords :
    let t : Team := { T with bars := [(15, ⟨2 ^ 32 - 1, 0, false⟩), (14, ⟨3, 0, true⟩)], desc := { D with clu := 2, gbar := true }, tuple := some 5 }
    let u : Team := { t with groups := [2, 7] }
    let x : Group := { half with ap := [(15, 2 ^ 32 - 1)] }
    let s := fun (y : Group) (t : Team) => { M y with teams := [(1, t)], tuples := [(5, ⟨0, [1, 9], [], []⟩)] }
    (∀ y ∈ [half, x], ∀ z ∈ [t, u], Issuing (s y z) C y SP z ∧ y.region.opened = false ∧ y.egress = [] ∧ (s y z).invals = [] ∧ ∀ l < 3, HasBarriers (s y z) z l ∧ holderSaved (s y z) y l = false) ∧ qualified half 7 ∧ Fresh C ∧
      ((23 / 16 = 1 ∧ 23 % 16 < 8 ∧ t.desc.clu ≠ 0) ∧ (35 / 16 = 2 ∧ 35 % 16 < 4 ∧ t.desc.gbar = true) ∧ ¬24 % 16 < 8 ∧ ¬36 % 16 < 4) ∧
      ((barOf (s half t) half 0 15).broken = false ∧ apOf half 0 15 ≠ some (2 ^ 32 - 1) ∧ (barOf (s half t) half 0 15).phase < 2 ^ 32 ∧
        (barOf (s half t) half 0 15).arrived + 1 = barExpected (s half t) half 0 ∧ (barOf (s half u) half 0 15).arrived + 1 ≠ barExpected (s half u) half 0) ∧
      (apOf x 0 15 = some (barOf (s x t) x 0 15).phase ∧ (barOf (s x t) x 0 14).broken = true ∧ apOf half 0 15 = none) ∧ ¬Abandoned (s half u) half ∧ ((4 : BitVec 3).toNat < 5 ∧ 5 ≤ (5 : BitVec 3).toNat) := by
  intro t u x s
  refine ⟨?_, .inl rfl, ⟨rfl, rfl, rfl, rfl⟩, by decide, by decide, by decide, kept_on _ _ bootCtx rfl rfl, by decide⟩
  intro y hy z hz
  simp only [List.mem_cons, List.not_mem_nil, or_false] at hy hz
  rcases hy with rfl | rfl <;> rcases hz with rfl | rfl <;>
    exact ⟨⟨rfl, rfl, rfl, rfl, rfl, rfl⟩, rfl, rfl, rfl, by unfold HasBarriers; decide +kernel⟩

/-- A wait resumed on a phase that stands, on one that has turned and on a broken barrier, before and after its deadline, and in an abandoned context. -/
theorem witness_ResumedBarrierWaits :
    let c := fun (n : Nat) (p : Nat) => { C with wait := some (.barrier 0 n p), deadline := some 50, expired := true }
    let t : Team := { T with bars := [(15, ⟨2 ^ 32 - 1, 0, false⟩), (14, ⟨3, 0, true⟩)] }
    let s := fun (d : Cur) => { M half with cur := some d, teams := [(1, t)] }
    (∀ d ∈ [c 15 (2 ^ 32 - 1), c 15 5, c 14 3], Issuing (s d) d half SP t ∧ half.region.opened = false ∧ half.egress = [] ∧ (s d).invals = [] ∧ HasBarriers (s d) t 0 ∧ holderSaved (s d) half 0 = false) ∧
      (barOf (s C) half 0 15).phase ≠ 5 ∧ (barOf (s C) half 0 15).phase = 2 ^ 32 - 1 ∧ (barOf (s C) half 0 14).broken = true ∧ ¬Abandoned (s C) half ∧
      Abandoned { s C with ctxs := [(0, { bootCtx with abandon := true })] } half := by
  refine ⟨?_, by decide +kernel, by decide +kernel, by decide +kernel, kept_on _ _ bootCtx rfl rfl, ⟨_, rfl, rfl⟩⟩
  intro d hd
  simp only [List.mem_cons, List.not_mem_nil, or_false] at hd
  rcases hd with rfl | rfl | rfl <;> exact ⟨⟨rfl, rfl, rfl, rfl, rfl, rfl⟩, rfl, rfl, rfl, by unfold HasBarriers; decide +kernel⟩

/-- Signals 1024 and 1025 of 1024; a wait with exponent 15 and condition 5, and condition 6; fences of scope 4 and 5, with lanes and without. -/
theorem witness_SignalsAndFences :
    let x : Group := { half with s := [(4, ⟨31 * 65536 + 1024, false⟩), (6, ⟨1024, false⟩), (8, ⟨1025, false⟩)] }
    Issuing (M x) C x SP T ∧ CleanPred x SP 1 ∧ Plain x T ∧ Map.find (M x).ctxs x.ctx = some bootCtx ∧ qualified x 7 ∧ Fresh C ∧ Still (M x) x ∧ CleanReg x 6 ∧ CleanPair x 62 ∧
      (1 ≤ x.reg 6 ∧ x.reg 6 ≤ bootCtx.nsig ∧ x.reg 6 < 65536 ∧ ¬x.reg 8 ≤ bootCtx.nsig) ∧
      ((5 : BitVec 3).toNat < 6 ∧ x.reg 4 % 65536 ≠ 0 ∧ x.reg 4 % 65536 ≤ bootCtx.nsig ∧ x.reg 4 < 2 ^ 21 ∧ ¬(6 : BitVec 3).toNat < 6) ∧
      ((16 : BitVec 14).toNat / 4 < 5 ∧ (16 : BitVec 14).toNat % 4 = 0 ∧ (17 : BitVec 14).toNat % 4 ≠ 0 ∧ ¬(20 : BitVec 14).toNat / 4 < 5 ∧ (13 : BitVec 14).toNat / 4 ≠ 4) ∧
      activeMask x SP 1 ≠ 0 ∧ activeMask G SP 1 = 0 :=
  ⟨issuing _ SP rfl rfl rfl rfl, clean1 _ SP rfl (by decide), ⟨rfl, rfl⟩, rfl, .inl rfl, ⟨rfl, rfl, rfl, rfl⟩, ⟨rfl, rfl, rfl⟩, by unfold CleanReg; decide, by unfold CleanPair; decide, by decide, by decide,
    by decide, by decide, by decide⟩

/-- A wait resumed on a signal with the last condition, and one that was met; fences of the scopes below the package's and at it. -/
theorem witness_ResumedSignalWaits :
    let c := { C with wait := some (.signal 1024 5 9), deadline := some 50 }
    let d := { C with wait := some .signalMet }
    Issuing { M half with cur := some c } c half SP T ∧ Issuing { M half with cur := some d } d half SP T ∧ Plain half T ∧ 5 < 6 ∧ Map.find (M half).ctxs half.ctx = some bootCtx ∧
      (8 : BitVec 14).toNat / 4 < (M half).packageScope half.ctx ∧ (M half).invals = [] ∧ (M half).packageScope half.ctx ≤ (16 : BitVec 14).toNat / 4 ∧ activeMask half SP 1 ≠ 0 :=
  ⟨⟨rfl, rfl, rfl, rfl, rfl, rfl⟩, ⟨rfl, rfl, rfl, rfl, rfl, rfl⟩, ⟨rfl, rfl⟩, by decide, rfl, by decide, rfl, by decide, by decide⟩

/-- A group that asks for `k` views, on a partition of one cluster, whose context may use all of a core. -/
def forker : Group := { half with s := [(4, ⟨0x100000, false⟩), (6, ⟨0x8000, false⟩), (8, ⟨1023, false⟩)] }
def quota : BitVec 128 := BitVec.ofNat 128 ((2 ^ 52 * 2048 + 2 ^ 44 * 128 + 2 ^ 35 * 448 + 2 ^ 21 * 8192 + 2 ^ 14 * 64) * (2 ^ 64 + 1))
def F (x : Group) (t : Team) (vs : List (Nat × View)) : State :=
  { M x with
    teams := [(1, t)], ctxs := [(0, { bootCtx with quota := quota })], parts := [(0, ⟨0, 1⟩)], views := vs,
    cores := [(0, { Core.zero with l := some 2, order := [2] }), (1, { Core.zero with l := some 2 })] }
def here (k : Nat) : Arrival := ⟨2, 0, 63, k, 0x100000, 0x8000, none, [], true⟩
def met (k : Nat) : State :=
  let s := F forker T []
  let t := { T with forks := [here k] }
  sweepViews (quiet { s with groups := Map.put s.groups 2 forker, teams := Map.put s.teams 1 t } t)
def placed (k : Nat) : State × List Nat := (placeRivals 0 { bootGrid with desc := D } { T with forks := [here k] } (k - 1) (met k)).getD (met k, [])

/-- Two rivals and eight; a live view 1023 chosen by its group with one sector, a decided family; the view's fields; the root. -/
theorem witness_ForkWorldWords :
    (Issuing (F forker T []) C forker SP T ∧ qualified forker 7 ∧ forker.region.opened = false ∧ Fresh C ∧ T.groups = [C.gid] ∧ (∀ e ∈ (F forker T []).teams, e.2.olds = []) ∧ T.forks = [] ∧ forker.ended = false ∧ forker.board = [] ∧
      ((F forker T []).coreOf forker.core).mxq = [] ∧ forker.paths = [] ∧ CleanPair forker 4 ∧ CleanReg forker 6 ∧ forker.pair 4 = 0x100000 ∧ forker.reg 6 = 0x8000 ∧ T.desc.clu = 0 ∧
      T.desc.gbar = false ∧ (∀ k ∈ [2, 8], (freeViews (F forker T []) k).length = k) ∧ Map.find (F forker T []).grids T.grid = some { bootGrid with desc := D } ∧
      (∀ k ∈ [2, 8], placeRivals 0 { bootGrid with desc := D } { T with forks := [here k] } (k - 1) (met k) = some (placed k)) ∧
      ∀ k ∈ [2, 8], (Map.find (placed k).1.teams 1).isSome = true ∧ (Map.find (placed k).1.groups 2).isSome = true ∧
        ∀ id ∈ (placed k).2, id ≠ 1 ∧ ∀ r, Map.find (placed k).1.teams id = some r → 2 ∉ r.groups) ∧
    (let p : Nat × PrivSector := (9, ⟨⟨7, none⟩, 0xF, 1023⟩)
     let v := { newView T 0 1 1023 9 2 0 0x100000 0x8000 with sects := [p] }
     let d := { newView T 0 1 1023 9 2 0 0x100000 0x8000 with dec := true, win := 3 }
     let t := { T with view := 1023 }
     Issuing (F forker t [(1023, v)]) C forker SP t ∧ t.view = 1023 ∧ 1023 < 1024 ∧ forker.reg 8 = 1023 ∧ CleanReg forker 8 ∧ C.wait = none ∧ forker.egress = [] ∧ (F forker t [(1023, v)]).invals = [] ∧ v.parent = 0 ∧ v.state = 1 ∧ v.dec = false ∧
      v.log = [] ∧ v.sects = [p] ∧ NoErrors (F forker t [(1023, v)]) ∧ (F forker t [(1023, v)]).plays = [] ∧ (F forker t [(1023, v)]).reds = [] ∧ (forker.path pathWrk).ops = [] ∧ d.dec = true ∧ d.state < 2 ∧ Map.find (F forker t [(1023, d)]).views t.view = some d) ∧
    (¬((⟨0, 7, 63, 8, 1, 0⟩ : WS).sb = 0) ∧ Map.find (F forker T []).views T.view = none ∧ (8 : BitVec 6) ≠ 0) := by
  refine ⟨⟨⟨rfl, rfl, rfl, rfl, rfl, rfl⟩, .inl rfl, rfl, ⟨rfl, rfl, rfl, rfl⟩, rfl, by decide, rfl, rfl, rfl, rfl, rfl, by unfold CleanPair; decide, by unfold CleanReg; decide, by decide, by decide, rfl, rfl,
    by decide +kernel, rfl, by decide +kernel, ?_⟩, ⟨⟨rfl, rfl, rfl, rfl, rfl, rfl⟩, rfl, by decide, by decide, by unfold CleanReg; decide, rfl, rfl, rfl, rfl, rfl, rfl, rfl, rfl, ⟨rfl, rfl⟩, rfl, rfl, rfl, rfl, by decide, rfl⟩, by decide⟩
  have h : ∀ k ∈ [2, 8], (Map.find (placed k).1.teams 1).isSome = true ∧ (Map.find (placed k).1.groups 2).isSome = true ∧
      ∀ id ∈ (placed k).2, id ≠ 1 ∧ ((Map.find (placed k).1.teams id).all (fun r => decide (2 ∉ r.groups))) = true := by decide +kernel
  intro k hk
  refine ⟨(h k hk).1, (h k hk).2.1, fun id hid => ⟨((h k hk).2.2 id hid).1, fun r hr => ?_⟩⟩
  have := ((h k hk).2.2 id hid).2
  rw [hr] at this
  exact of_decide_eq_true this

/-- A team of groups 3 and 2, of which 3 has arrived and 2 arrives, and the machine when they have met. -/
def pairTeam : Team := { T with groups := [3, 2], forks := [{ here 2 with gid := 3, sd := 62 }] }
def withPair (t : Team) : State := let s := F forker t []; { s with groups := [(2, forker), (3, { forker with idx := 1 })] }
def metPair : State :=
  let s := withPair pairTeam
  let t := { pairTeam with forks := pairTeam.forks ++ [here 2] }
  sweepViews (quiet { s with groups := Map.put s.groups 2 forker, teams := Map.put s.teams 1 t } t)
def placedPair : Option (State × List Nat) := placeRivals 0 { bootGrid with desc := D } { pairTeam with forks := pairTeam.forks ++ [here 2] } 1 metPair

/-- A group that arrives before the other, and as the last of two. -/
theorem witness_ForkOfTwoGroups :
    (let t : Team := { pairTeam with forks := [] }
     Issuing (withPair t) C forker SP t ∧ Fresh C ∧ (∃ g ∈ t.groups, g ≠ C.gid ∧ ((withPair t).grp g).ended = false ∧ ∀ a ∈ t.forks, a.gid ≠ g) ∧ ∀ a ∈ t.forks, a.gid ≠ C.gid) ∧
    (let t := pairTeam
     let all := t.forks ++ [here 2]
     Issuing (withPair t) C forker SP t ∧ t.groups = all.map Arrival.gid ∧ (all.map Arrival.gid).Nodup ∧ (all.map (fun a => ((withPair t).grp a.gid).idx)).Nodup ∧
       (∀ a ∈ t.forks, a = { here 2 with gid := a.gid, slot := a.slot, sd := a.sd } ∧ ((Map.find (withPair t).groups a.gid).any (fun z => !z.ended)) = true) ∧
       (freeViews metPair 2).length = 2 ∧ placedPair.any (fun e => decide ((1 :: e.2).Nodup) && decide (([3, 2] ++ e.2.flatMap (fun id => ((Map.find e.1.teams id).map Team.groups).getD [])).Nodup) &&
         (Map.find e.1.teams 1).isSome && [2, 3].all (fun g => (Map.find e.1.groups g).isSome)) = true) := by
  refine ⟨⟨⟨rfl, rfl, rfl, rfl, rfl, rfl⟩, ⟨rfl, rfl, rfl, rfl⟩, by decide, by decide⟩, ⟨rfl, rfl, rfl, rfl, rfl, rfl⟩, rfl, by decide, by decide, by decide, by decide +kernel, by decide +kernel⟩

/-- A `FORK` with SUB 0, with no area, with a poisoned operand, in a view of depth 4, and where the quota leaves no core. -/
theorem witness_ForkRefused :
    let deep := { newView T 0 4 1023 9 2 0 0x100000 0x8000 with state := 1 }
    let t := { T with view := 1023 }
    let bare : State := { F forker T [] with ctxs := [(0, bootCtx)] }
    let met := fun (s : State) (t : Team) => sweepViews (quiet { s with groups := Map.put s.groups 2 forker, teams := Map.put s.teams 1 { t with forks := [here 2] } } { t with forks := [here 2] })
    T.groups = [C.gid] ∧ T.forks = [] ∧ (0 : BitVec 3) = 0 ∧ ¬({ forker with s := [] } : Group).reg 6 ≠ 0 ∧ ({ forker with s := [(5, ⟨7, true⟩)] } : Group).rdS 5 = ⟨7, true⟩ ∧
      (({ forker with s := [(5, ⟨7, true⟩)] } : Group).rdS 4).poison = false ∧ Issuing (F forker t [(1023, deep)]) C forker SP t ∧ Fresh C ∧
      (Map.find (met (F forker t [(1023, deep)]) t).views 1023).map View.depth = some 4 ∧ (freeViews (met bare T) 2).length = 2 ∧
      (placeRivals 0 { bootGrid with desc := D } { T with forks := [here 2] } 1 (met bare T)).isNone = true := by
  refine ⟨rfl, rfl, rfl, by decide, by decide, by decide, ⟨rfl, rfl, rfl, rfl, rfl, rfl⟩, ⟨rfl, rfl, rfl, rfl⟩, by decide +kernel, by decide +kernel, by decide +kernel⟩

/-- Chooses that have come to the base: of view 1023, of it within view 1022, and one whose log has been played. -/
theorem witness_ChooseSteps :
    let p : Nat × PrivSector := (9, ⟨⟨7, none⟩, 0xF, 1023⟩)
    let outer := newView T 0 1 1022 9 2 0 0x100000 0x8000
    let inner := { newView T 1022 2 1023 10 2 0 0x200000 0x8000 with sects := [p] }
    let vs := [(1022, outer), (1023, inner)]
    let t := { T with view := 1023 }
    let at_ := fun (w : Wait) => { C with wait := some w }
    let s := fun (w : Wait) => { F forker t vs with cur := some (at_ w) }
    let w := Wait.chooseStep [1023, 1022] 63
    Issuing (s w) (at_ w) forker SP t ∧ Issuing (s (.chooseStep [1023] 63)) (at_ (.chooseStep [1023] 63)) forker SP t ∧ Issuing (s (.choose 2 63)) (at_ (.choose 2 63)) forker SP t ∧
      (s w).views = [(1022, outer), (1023, inner)] ∧ 0 < 1022 ∧ 1022 < 1023 ∧ inner.parent = 1022 ∧ outer.parent = 0 ∧ inner.state = 1 ∧ outer.state = 1 ∧ inner.dec = false ∧ outer.dec = false ∧
      inner.clan ≠ outer.clan ∧ inner.sects = [p] ∧ outer.sects = [] ∧ inner.log = [] ∧ outer.log = [] ∧ forker.playing = false ∧ (s w).plays = [] ∧ forker.egress = [] ∧ (s w).invals = [] ∧
      1023 ∈ (s w).chain 1023 ∧ NoErrors (s w) ∧ (∀ e ∈ [(1023, { inner with dec := true })], e.2.state < 2) ∧ 5 ∉ (s w).chain 1023 :=
  ⟨⟨rfl, rfl, rfl, rfl, rfl, rfl⟩, ⟨rfl, rfl, rfl, rfl, rfl, rfl⟩, ⟨rfl, rfl, rfl, rfl, rfl, rfl⟩, rfl, by decide, by decide, rfl, rfl, rfl, rfl, rfl, rfl, by decide, rfl, rfl, rfl, rfl, rfl, rfl, rfl,
    rfl, by decide, ⟨rfl, rfl⟩, by decide, by decide⟩

/-- A context with a queue of 16 packets whose packet 5 is next, and the machine with it. -/
def K : Ctx :=
  { bootCtx with
    quota := quota, signals := [(1, 5), (1024, 9)],
    queues := [(0, { Queue.zero with en := true, logsz := 4, w := 9, rdidx := 5, qbase := 0x20000, cplbase := 0x21000 })] }
def B : State := { M G with ctxs := [(0, K)], parts := [(0, ⟨0, 1⟩)] }
def P : Pkt := ⟨0, 0, 5, ⟨7, 0x1234, 1024, 1, false, 3⟩⟩

/-- The machine after the packet's start, and with the queue or a device of the context changed. -/
def begun (s : State) : State := wakeQueue (s.updQueue 0 0 (fun q => q.pass (pktNo P + 1))) 0 0
def withQueue (s : State) (f : Queue → Queue) : State := { s with ctxs := [(0, { K with queues := [(0, f (Map.get Queue.zero K.queues 0))] })] }
def withDev (d : DevRun) : State := { B with ctxs := [(0, { K with devs := [(0, d)] })] }

/-- A live table with a resident node of two places, a record at 36864. -/
def fed (b : List (BitVec 128)) : State :=
  { B with grids := [(0, { bootGrid with desc := D, ntab := 0x30000, nodes := [{ node 1 with cap := 2, bin := b }] })], mem := table ++ [(1236950581248, 9)] }

/-- A descriptor of a kernel of one group and 256 bytes of constants at 262144, the map of its four cores at 266240. -/
def kernel : Nat := 2 ^ 448 + 2 ^ 460 + 8 * 2 ^ 476 + 2 * 2 ^ 512 + 16 * 2 ^ 560 + 256 * 2 ^ 576 + 0x3000 * 2 ^ 384 + 0x41000 * 2 ^ 320 + 0x100000 * 2 ^ 192 + 0x1000
def launching (kd : Nat) : State :=
  let s := (List.range 32).foldl (fun s k => writePa s (0x40000 + 8 * k) 8 (kd / 2 ^ (64 * k) % 2 ^ 64)) B
  (List.range 4).foldl (fun s c => writePa s (0x41000 + 4 * c) 4 (0x80000000 + 64 * c)) s
def launched (kd : Nat) : Except Nat Grid := launchOf { begun (launching kd) with draws := 1 } P 0x40000 0 1 3

/-- A header in order and one with signal 1025, each condition and operation at its last value, copies that meet and do not, a record and a full bin, a kernel in order and
one with an unknown version, and each state of a device. -/
theorem witness_PacketsRun :
    (Map.find B.ctxs P.ctx = some K ∧ Map.find B.views 0 = none ∧ B.l2bad = [] ∧ B.stackBad = [] ∧ P.hdr.cop ≠ 3 ∧ P.hdr.csig.toNat ≤ K.nsig ∧ K.nsig < 1025 ∧ (3 : BitVec 2) = 3) ∧
    (let record := (0x21000 + 16 * (5 % 2 ^ 4)) % 2 ^ 64
     record % 16 = 0 ∧ ∃ t place, translate B K .write record (freeKey (B.draws + 1) 26 0) = .ok t ∧ t.place = .dev place ∧ place % 16 = 0) ∧
    ((1 : BitVec 2).toNat < 2 ∧ 2 ≤ (2 : BitVec 2).toNat ∧ 1 ≤ (1024 : BitVec 16).toNat ∧ (1024 : BitVec 16).toNat ≤ K.nsig ∧ ¬(1025 : BitVec 16).toNat ≤ K.nsig) ∧
    ((5 : BitVec 3).toNat < 6 ∧ signalCond 5 (Map.get 0 K.signals 1024) 10 = true ∧ signalCond 5 (Map.get 0 K.signals 1024) 9 = false) ∧
    (let s := withQueue B (fun q => { q with rdidx := 6, started := [⟨P, .wait 9 1024 5 (some 0)⟩] })
     s.startedAt P.ctx P.q P.idx = some ⟨P, .wait 9 1024 5 (some 0)⟩ ∧ 0 ≤ s.time) ∧
    (let meets := fun (src dst bytes : Nat) => bytes ≠ 0 ∧ src < dst + bytes ∧ dst < src + bytes
     meets 0x8000 0x801F 32 ∧ ¬meets 0x8000 0x8020 32 ∧ ¬meets 0x8000 0x8000 0) ∧
    (let s := withQueue B (fun q => { q with rdidx := 6, started := [⟨P, .copy 0x8000 0x9000 32 0 false⟩] })
     let k := { K with queues := [(0, { Map.get Queue.zero K.queues 0 with rdidx := 6, started := [⟨P, .copy 0x8000 0x9000 32 0 false⟩] })] }
     Map.find s.ctxs 0 = some k ∧ s.startedAt P.ctx P.q P.idx = some ⟨P, .copy 0x8000 0x9000 32 0 false⟩ ∧
      (∃ r, translate { s with draws := 1 } k .read 0x8000 (freeKey 1 27 0) = .ok r ∧ r.place = .dev (32 * 34359738368)) ∧
      (∃ r, translate { s with draws := 1 } k .write 0x9000 (freeKey 1 27 0) = .ok r ∧ r.place = .dev (32 * 38654705664)) ∧ (s.rootSector 34359738368).token = none) ∧
    ((∀ b ∈ [[], [7, 8]], liveTable (fed b) P.ctx 0x30000 = some 0 ∧ (fed b).node 0 0 = some { node 1 with cap := 2, bin := b } ∧ ∀ e ∈ ((fed b).queueOf P.ctx P.q).started, e.pkt.idx ≠ P.idx) ∧
      (0x9000 : BitVec 64).toNat % 16 = 0 ∧ [(7 : BitVec 128), 8].length = 2 ∧
      agentRead { startBody (begun (fed [])) P (.feed 0x30000 0x9000 1 0 true 0) with draws := 1 } 0 0x9000 16 (freeKey 1 28 0) = .val 9) ∧
    ((1 : BitVec 21) ≠ 0 ∧ (0x100000 : BitVec 21).toNat ≤ 2 ^ 20 ∧ (∃ r, launched kernel = .ok r) ∧ isErr (launched (kernel + 2 ^ 449)) (fun e => e != 0) = true) ∧
    ((B.devOf P.ctx 0).state = 0 ∧ devTeams B P.ctx 0 ≠ [] ∧ ((withDev ⟨3, none, [], [1]⟩).devOf P.ctx 0).state = 3 ∧ ((withDev ⟨1, some 9, [], []⟩).devOf P.ctx 0).state ≠ 0) :=
  ⟨by decide +kernel, ⟨by decide, ⟨.dev 137438961744, 0, some 2147483712, 0x21050⟩, 137438961744, of_okIs (by decide +kernel), rfl, by decide⟩, by decide, by decide, by decide +kernel, by decide,
    ⟨rfl, by decide +kernel, ⟨⟨.dev 1099511627776, 0, some 2147483712, 0x8000⟩, of_okIs (by decide +kernel), by decide⟩,
      ⟨⟨.dev 1236950581248, 0, some 2147483712, 0x9000⟩, of_okIs (by decide +kernel), by decide⟩, by decide +kernel⟩,
    by decide +kernel, ⟨by decide, by decide, ⟨orElse bootGrid (launched kernel), of_okIs (by decide +kernel)⟩, by decide +kernel⟩, by decide +kernel⟩

/-- A queue in use, one not enabled with 64-byte aligned bases, an aperture access at 32768, signal 1024, both ports. -/
theorem witness_HostRegisters :
    (Map.find B.ctxs 0 = some K ∧ K.isOver = false ∧ B.reached K.fn = true ∧ 63 < 64) ∧
    (let q := B.queueOf 0 0
     q.en = true ∧ q.stopped = false ∧ 2 ^ q.logsz < ((22 : BitVec 32) - q.rdidx).toNat ∧ ((21 : BitVec 32) - q.rdidx).toNat ≤ 2 ^ q.logsz ∧
      (let r := (withQueue B (fun q => { q with stopped := true })).queueOf 0 0
       r.en = true ∧ r.stopped = true ∧ 2 ^ r.logsz < ((22 : BitVec 32) - r.rdidx).toNat) ∧ (B.queueOf 0 63).en = false) ∧
    (let q := (withQueue B (fun q => { q with en := false })).queueOf 0 0
     let v : BitVec 64 := 0x401
     q.en = false ∧ v.getLsbD 0 = true ∧ 4 ≤ v.toNat / 2 ^ 8 % 16 ∧ (!(K.mode == 8 && B.dz860 && decide (56 ≤ 0))) = true ∧ q.qbase.toNat % 64 = 0 ∧ q.qbase.toNat < 2 ^ 57 ∧
      q.cplbase.toNat % 16 = 0 ∧ q.cplbase.toNat < 2 ^ 57 ∧ ¬4 ≤ (0x301 : BitVec 64).toNat / 2 ^ 8 % 16 ∧ (0x400 : BitVec 64).getLsbD 0 = false) ∧
    (1024 ≤ K.nsig ∧ K.nsig < 1025 ∧ B.phase = 0 ∧ B.hostL2 = [] ∧ B.l2bad = [] ∧ B.stackBad = []) ∧
    (0x8000 < 2 ^ 54 ∧ devKey B.stackCount 0x8000 = some (32 * 34359738368) ∧ 0x8000 % 32 = 0 ∧ (B.rootSector 34359738368).token = none ∧
      ({ B with poisoned := [(34359738368, 7)] }.rootSector 34359738368).token = some 7 ∧ 9 ∈ [0, 8, 9]) ∧ 1 < 2 := by decide +kernel

/-- A context record, and limits of a core that stand at their bounds. -/
def record (fn : Nat) : CtxRec :=
  { fn := fn, pid := 0, mode := 1, nsig := 1024, memRestore := false, stchk := false, ptroot := 0x10000, rootlog := 0, hostAtomics := true, ftid := 0, bwlog := 40, cwlog := 40,
    graceUs := 1000000, faultUs := 10000000, diagBase := 0x200000, diagLen := 64, alogBase := 0x201000, alogLen := 64, saveBase := 0x202000, saveLen := 4096 }

/-- A context of the next function, partitions free, bound and used, the last die, window 4095, a limit at its bound and one past it. -/
theorem witness_ManagerCommands :
    (B.reached 2 = true ∧ B.portOf 2 = some 0 ∧ Map.has B.ctxs 1 = false ∧ (∀ d < 1, Map.has B.ctxs d = true) ∧ (∀ e ∈ B.ctxs, e.2.fn ≠ 2) ∧
      (∃ p, Map.find B.parts 0 = some p ∧ p.port = 0) ∧ CtxRecOk (record 2) = true) ∧
    (let s := { B with parts := [(0, ⟨0, 1⟩), (3, ⟨0, 6⟩)] }
     let r := fun (pid m : Nat) => BitVec.ofNat 256 (m + pid * 2 ^ 128)
     let free := fun (own : Option Nat) (r : BitVec 256) =>
       let m : BitVec 128 := r.setWidth 128
       m ≠ 0 ∧ (∀ p ∈ s.parts, some p.1 ≠ own → p.2.clusters &&& m = 0) ∧ r.extractLsb' 134 122 = 0
     s.reached 0 = true ∧ ((r 63 (2 ^ 127)).extractLsb' 128 6).toNat = 63 ∧ Map.has s.parts 63 = false ∧ free none (r 63 (2 ^ 127)) ∧ Map.has s.parts 3 = true ∧
      (∃ p, Map.find s.parts 3 = some p ∧ p.port = 0) ∧ (∀ k ∈ s.ctxs, k.2.part ≠ 3) ∧ free (some 3) (r 3 4) ∧ (∃ k ∈ s.ctxs, k.2.part = 0) ∧
      ((r 63 0).setWidth 128 : BitVec 128) = 0 ∧ (∃ p ∈ s.parts, p.2.clusters &&& (r 63 4).setWidth 128 ≠ 0) ∧ (r 63 (2 ^ 127) ||| 1 <<< 255).extractLsb' 134 122 ≠ 0 ∧ ¬∃ p, Map.find s.parts 3 = some p ∧ p.port = 1) ∧
    (B.reached 1 = true ∧ B.clusterMap[7]? = some plainClusters ∧ B.phase = 0 ∧ { B with phase := 1 }.phase ≠ 0 ∧ 4095 < 4096 ∧ 63 < 64) ∧
    (Map.find B.ctxs 0 = some K ∧ K.isOver = false ∧ B.reached K.fn = true ∧ limitOk (quota.toNat % 2 ^ 64) = true ∧ limitOk (quota.toNat / 2 ^ 64) = true ∧
      limitOk (65 * 2 ^ 14) = false ∧ windowOk B 0 4095 (1 + 2 ^ 1 + 131072 * 2 ^ 30 + 0x7000 * 2 ^ 64) = true ∧ (Map.get [] B.records 0).find? (fun r => r.idx == 7) = none ∧
      (Map.get [] { B with records := [(64 * 1 + 63, [⟨7, 99⟩])] }.records (64 * 1 + 63)).find? (fun r => r.idx == 7) = some ⟨7, 99⟩ ∧ 13 < 14 ∧ K.abandon = false) :=
  ⟨⟨by decide +kernel, by decide +kernel, by decide, by decide, by decide, ⟨_, rfl, rfl⟩, by decide +kernel⟩,
    ⟨by decide +kernel, by decide, by decide, by decide, by decide, ⟨_, rfl, rfl⟩, by decide, by decide, ⟨_, List.mem_singleton.mpr rfl, rfl⟩, by decide, by decide, by decide, fun ⟨p, h, q⟩ => by cases h; cases q⟩,
    by decide +kernel, by decide +kernel⟩

/-- Group 2 waits inside its word, its deadline at time 50; it owes two registers. -/
def waiting (w : Wait) : Group := { G with s0 := some { SP with wait := some w, deadline := some 50 }, board := [[], [⟨.v, 127, 3, ⟨7, false⟩⟩]] }

/-- A clause of one VADD at 4096, in memory. -/
def coded : State := let s := writePa (writePa (M G) 0x1000 4 0x10000000) 0x1004 4 0xC0E10082; { s with time := 3 }

/-- A spilled split beside one that has not issued for 65,536 core clocks. -/
def rotated : Group := { G with s0 := some { SP with idle := 0 }, oldest := some 3, newest := some 3, pool := [(3, .spilled { SP with pc := 0x5004 } none none 5)], sshw := 4 }

/-- A reclaim of the tree at 327680 with two DEAD nodes. -/
def reclaim (before : List (Nat × Nat)) (dead : List Nat) : Reclaim := { ctx := 0, desc := 0x50000, old := 1, keep := 2, before := before, dead := dead, seen := [9], blocks := [] }

/-- Requests that the headroom just covers and just does not; a lease that lapses now and later; each kind of wait at its deadline and before; a clause, a rotation, a reclaim. -/
theorem witness_CoreEngines :
    (let s := { B with time := 500, dies := [(0, { Die.idle with headroom := 900, leave := [.matrix 5] }), (1, { Die.idle with headroom := 0, headAt := 326, leave := [.copy 2 0 4] })] }
     (s.dieAt 7).leave = [] ∧ (s.dieAt 0).leave = .matrix 5 :: [] ∧ 1400 ≤ min 2800 ((s.dieAt 0).headroom + (s.time - (s.dieAt 0).headAt)) ∧ (s.dieAt 1).leave = .copy 2 0 4 :: [] ∧
      min 2800 ((s.dieAt 1).headroom + (s.time - (s.dieAt 1).headAt)) < 175 ∧ Map.find s.groups 2 = some G) ∧
    (let s := { B with time := 500, cores := [(0, { Core.zero with lease := some 500, order := [2] }), (1, { Core.zero with lease := some 501 })] }
     (s.coreOf 0).lease = some 500 ∧ 500 ≤ s.time ∧ (s.coreOf 1).lease = some 501 ∧ s.time < 501 ∧ (s.coreOf 0).order.find? (fun g => (s.grp g).pipe == 0) = some 2) ∧
    (let j : JoinWin := ⟨1, 5, 64, 64, 1, 9, [2], 3⟩
     let s := { B with time := 9, cores := [(0, { Core.zero with joins := [j] })] }
     let due := fun (s : State) => s.cores.flatMap (fun e => (e.2.joins.filter (fun j => e.1 == 0 && j.mtag == 5 && decide (j.due ≤ s.time))).map (fun j => (e.1, j)))
     due s = [(0, j)] ∧ due { s with time := 8 } = []) ∧
    (∀ w ∈ [Wait.path 5 0, .barrier 2 3 9, .signal 1024 5 9, .signalMet],
      let s := { M (waiting w) with time := 50 }
      Map.find s.groups 2 = some (waiting w) ∧ (waiting w).board[1]? = some [⟨.v, 127, 3, ⟨7, false⟩⟩] ∧ (waiting w).split 0 = some { SP with wait := some w, deadline := some 50 } ∧
        (waiting w).resident = true ∧ 50 ≤ s.time ∧ { s with time := 49 }.time < 50) ∧
    (let s := { B with invals := [⟨3, [(0, 2, [])]⟩], reclaims := [reclaim [] [4, 5], reclaim [] [], reclaim [(2, 4)] []] }
     (∀ i ∈ s.invals, ∀ p ∈ i.pend, (s.grp p.2.1).egress = [] ∧ ((s.grp p.2.1).path pathRed).ops = []) ∧ s.reclaims[0]? = some (reclaim [] [4, 5]) ∧ reclaimReady s (reclaim [] [4, 5]) = true ∧ (s.l2bad = [] ∧ s.stackBad = []) ∧ (reclaim [] []).dead = [] ∧
      (reclaim [] [4, 5]).dead[3 % (reclaim [] [4, 5]).dead.length]? = some 5 ∧ (∃ w ∈ (reclaim [] [4, 5]).dead, w ≠ 5) ∧
      isOk (readTree { s with draws := s.draws + 1 } 0 0x50000 (freeKey (s.draws + 1) 23 0)) = true ∧
      (let o := { mkOp half 0 0 0 1 0 false [] (.treuse 0x50000 1 0) with seq := 4 }
       reclaimReady { s with groups := [(2, { half with paths := [(pathTre, ⟨[o], false⟩)] })] } (reclaim [(2, 4)] []) = false)) ∧
    (let s := coded
     Map.find s.groups 2 = some G ∧ G.split 0 = some SP ∧ SP.clause = none ∧ G.ended = false ∧ G.resident = true ∧ Map.find s.ctxs G.ctx = some bootCtx ∧ SP.hdr = 0x1000 ∧
      (∃ r, translate s bootCtx .fetch 0x1000 (freeKey (s.draws + 1) 37 (0x1000 / 32 % 128)) = .ok r ∧ r.place = .dev 137438953472) ∧
      (∃ r, translate s bootCtx .fetch 0x1004 (freeKey (s.draws + 1) 37 (0x1004 / 32 % 128)) = .ok r ∧ r.place = .dev 137438953476) ∧ 137438953472 % 32 ≤ 24 ∧
      (s.devSector 0 4294967296).token = none ∧ (s.devSector 0 4294967296).data % 2 ^ 64 = 0x10000000 + 0xC0E10082 * 2 ^ 32 ∧ (s.l2bad = [] ∧ s.stackBad = []) ∧ (s.dieAt (dieOf G.core)).asleep = false ∧
      Map.find (s.coreOf G.core).icache (codeKey G.ctx (s.viewOf G) 4294967296) = none ∧ (Header.of 0x10000000).count = 1 ∧ (Header.of 0x10000000).cls = some .alu ∧ (Header.of 0x10000000).l = false ∧
      checkClause (Header.of 0x10000000) [0xC0E10082] = none) ∧
    (let s := { M rotated with time := 655365 }
     rotated.split 0 = some { SP with idle := 0 } ∧ rotated.oldest = some 3 ∧ rotated.newest = some 3 ∧ Map.find rotated.pool 3 = some (.spilled { SP with pc := 0x5004 } none none 5) ∧
      areaFail s rotated 3 = none ∧ rotationDue s 2 0 = true) := by
  refine ⟨by decide +kernel, by decide +kernel, by decide +kernel, ?_, ⟨by decide +kernel, by decide +kernel, by decide +kernel, ⟨rfl, rfl⟩, rfl, by decide +kernel, ⟨4, by decide, by decide⟩, by decide +kernel, by decide +kernel⟩,
    ⟨rfl, rfl, rfl, rfl, rfl, rfl, rfl, ⟨⟨.dev 137438953472, 0, some 2147483712, 0x1000⟩, of_okIs (by decide +kernel), rfl⟩,
      ⟨⟨.dev 137438953476, 0, some 2147483712, 0x1004⟩, of_okIs (by decide +kernel), rfl⟩, by decide +kernel⟩, by decide +kernel⟩
  intro w hw
  simp only [List.mem_cons, List.not_mem_nil, or_false] at hw
  rcases hw with rfl | rfl | rfl | rfl <;> exact ⟨rfl, rfl, rfl, rfl, by decide, by decide⟩

/-- A split that waits for its replay, its fault limit at time 100. -/
def parked : Group :=
  { G with
    s0 := some { SP with wait := some .parked, wph := true, deadline := some 100 }, asked := true,
    region := { Region.closed with opened := true, mode := 1, limit := 3, replays := 1, flag := true, first := 0x01010005, recov := 0x8000, start := (0x2004, 0x2000),
                                   pm := firstLanes 4, toks := [0x01010005], allrpl := true } }

/-- The packet whose 64 bytes are 7 with tag 5, and the one of type 9, which there is not, in slot 5 of the queue. -/
def ring (bits : Nat) : State := let s := (List.range 8).foldl (fun s k => writePa s (0x20140 + 8 * k) 8 (bits / 2 ^ (64 * k) % 2 ^ 64)) B; { s with coach := [0] }

theorem witness_CoachhouseAndReplay :
    (∀ b ∈ [7 + 2 ^ 32 * 5, 9], let s := ring b
      Map.find s.ctxs 0 = some K ∧ s.coach = [64 * 0 + 0] ∧ satisfiedQueues s = [] ∧ (s.queueOf 0 0).started = [] ∧ (s.queueOf 0 0).en = true ∧ (s.queueOf 0 0).stopped = false ∧
        (s.queueOf 0 0).rdidx ≠ (s.queueOf 0 0).w ∧ agentRead { s with coach := [], draws := s.draws + 2 } 0 (0x20000 + 64 * (5 % 2 ^ 4)) 64 (freeKey (s.draws + 2) 32 0) = .val b) ∧
    isOk (packetOf ⟨0, 0, 5, pktHdr (7 + 2 ^ 32 * 5)⟩ (7 + 2 ^ 32 * 5)) = true ∧ isErr (packetOf ⟨0, 0, 5, pktHdr 9⟩ 9) (fun e => e != 0) = true ∧
    (let s := { M parked with time := 100 }
     Map.find s.groups 2 = some parked ∧ parked.parkedSlot = some 0 ∧ parked.split 0 = some { SP with wait := some .parked, wph := true, deadline := some 100 } ∧ parked.asked = true ∧
      parked.service = none ∧ parked.resident = true ∧ parked.board = [] ∧ parked.region.clean = [] ∧ 100 ≤ s.time ∧ { s with time := 99 }.time < 100 ∧
      ∀ e ∈ flaggedEntries s parked, e.detail ≠ .l2Clean ∧ hopeless s parked e = false) := by decide +kernel

/-- A die up and idle for 20 µs and just less, asleep with a wake request 1.5 µs and 4 µs ago and less, fenced with its test open and failed. -/
theorem witness_DiesAndStarts :
    let s := { B with
      time := 1000000
      dies := [(0, { Die.idle with lastReq := 580000 }), (1, { Die.idle with lastReq := 580001 }), (2, { Die.idle with asleep := true, waking := some 968500 }),
               (3, { Die.idle with asleep := true, waking := some 968501 }), (4, { Die.idle with asleep := true, waking := some 916000 }), (5, { Die.idle with fenced := true })] }
    ((s.dieAt 0).fenced = false ∧ (s.dieAt 0).asleep = false ∧ (s.dieAt 0).lastReq + 420000 ≤ s.time ∧ s.time < (s.dieAt 1).lastReq + 420000 ∧ (s.dieAt 5).fenced = true) ∧
    ((s.dieAt 2).asleep = true ∧ (s.dieAt 2).waking = some 968500 ∧ (s.dieAt 2).flush = false ∧ 968500 + 31500 ≤ s.time ∧ s.time < 968501 + 31500) ∧
    (s.phase = 0 ∧ 6 < 8 ∧ s.dz860 = false ∧ (s.dieAt 6).fenced = false ∧ (s.dieAt 4).waking = some 916000 ∧ 916000 + 84000 ≤ s.time ∧ ¬8 < 8) ∧
    ((s.dieAt 5).failed = false) ∧
    ((s.l2bad = [] ∧ s.stackBad = [] ∧ s.hostL2 = []) ∧ s.fw.active < 2 ∧ { s with phase := 2 }.phase = 2 ∧ 1 < 2 ∧ Map.get false s.pcieDown 1 = false ∧ { B with ctxs := [] }.ctxs = []) ∧
    (let u := { s with teams := [(1, { T with lost := true })] }
     (∃ e ∈ u.teams, e.2.lost = true ∧ dieOf e.2.core = 0) ∧ ∀ e ∈ s.teams, e.2.lost = false) := by decide +kernel

/-- An image that passes where the key's signature fits and that measures as the last start's, where they do, and one that cannot be read. -/
theorem witness_FirmwareImages (s : State) (img : FwImage) (h : Config.signatureOk s.identity.keyDigest img.bytes = true) :
    (let t := { s with fw := ⟨{ img with readable := true }, ⟨false, []⟩, 0, 0, Config.shake256 img.bytes⟩, phase := 0, upload := img.bytes }
     (t.fw.a.readable = true ∧ Config.signatureOk t.identity.keyDigest t.fw.a.bytes = true ∧ t.fw.minSvn ≤ Config.imageSvn t.fw.a.bytes) ∧ Config.shake256 t.fw.a.bytes = t.fw.measured ∧
       t.fw.b.readable = false ∧ t.fw.active < 2 ∧ t.upload = img.bytes) :=
  ⟨⟨rfl, h, Nat.zero_le _⟩, rfl, rfl, Nat.two_pos, rfl⟩

/-- A launch of one more team, a node with its timer due and not, a bin with room, a node whose producers have ended, a team and a grid whose work is done and not. -/
theorem witness_DispatchAndRetirement :
    let r : Grid := { bootGrid with desc := bootDesc, next := 0 }
    let feed : Started := ⟨P, .feed 0x30000 0x9000 1 0 true 0⟩
    (let s := { F G T [] with grids := [(7, r)] }
     passOrder s 0 = [7] ∧ promotedWaits s 0 = false ∧ Map.find s.grids 7 = some r ∧ (s.devOf r.ctx r.dev).state = 0 ∧ r.nodes = [] ∧ r.next < r.teams ∧ r.desc.clu = 0 ∧
      r.desc.gbar = false ∧ r.teams = r.next + 1 ∧ (bestCore s 7 r.ctx r.desc (openCores s 7 r r.desc)).isSome = true) ∧
    (let d := { node 1 with timerAt := some 5 }
     let s := { B with time := 5, grids := [(0, { bootGrid with nodes := [d, node 0, { node 1 with produced := 1 }] })] }
     s.node 0 0 = some d ∧ d.timerAt = some 5 ∧ 5 ≤ s.time ∧ { s with time := 4 }.time < 5 ∧ s.node 0 2 = some { node 1 with produced := 1 } ∧
      nodeOver s 0 2 { node 1 with produced := 1 } = true ∧ nodeOver s 0 0 d = false) ∧
    (let s := withQueue { fed [] with groups := [] } (fun q => { q with rdidx := 6, started := [feed] })
     s.node 0 0 = some { node 1 with cap := 2 } ∧ (Map.find s.grids 0).isSome = true ∧ (s.queueOf 0 0).started = [feed] ∧ P.ctx = 0 ∧ liveTable s 0 0x30000 = some 0 ∧
      ([] : List (BitVec 128)).length < 2 ∧ (∀ e ∈ s.groups, gridNo s e.2 ≠ 0) ∧
      agentRead { s with draws := s.draws + 1 } 0 0x9000 16 (freeKey (s.draws + 1) 28 0) = .val 9) ∧
    (let x := { G with ended := true, s0 := none, live := 0 }
     let s := M x
     Map.find s.teams 1 = some T ∧ (Map.find s.grids T.grid).isSome = true ∧ T.resident = true ∧ T.lost = false ∧ T.node = none ∧
      (∀ g ∈ T.groups, (s.grp g).ended = true ∧ (s.grp g).egress = [] ∧ ∀ p ∈ (s.grp g).paths, ∀ o ∈ p.2.ops, o.done = true) ∧ ((M G).grp 2).ended = false) ∧
    (let s := { B with teams := [], grids := [(0, bootGrid)] }
     Map.find s.grids 0 = some bootGrid ∧ Map.find s.ctxs bootGrid.pkt.ctx = some K ∧ bootGrid.teams ≤ bootGrid.next ∧ (∀ e ∈ s.teams, e.2.grid ≠ 0) ∧ (∀ d ∈ bootGrid.nodes, d.ended = true) ∧
      ¬∀ e ∈ B.teams, e.2.grid ≠ 0) := by decide +kernel

/-- A device draining with no team and with one at its limit, saved and restoring; graces and watchdogs at their times and before. -/
theorem witness_PreemptionAndWatchdogs :
    (let s := { withDev ⟨1, some 9, [], []⟩ with teams := [], time := 9 }
     (Map.find s.ctxs 0).isSome = true ∧ (s.devOf 0 0).state = 1 ∧ devTeams s 0 0 = []) ∧
    (let s := { withDev ⟨1, some 9, [], []⟩ with time := 9 }
     devTeams s 0 0 ≠ [] ∧ (s.devOf 0 0).drainDue = some 9 ∧ 9 ≤ s.time ∧ { s with time := 8 }.time < 9) ∧
    (let s := withDev ⟨2, none, [], []⟩
     (s.devOf 0 0).state = 2 ∧ shadowRoom s 0 0 0 = true ∧ (devTeams s 0 0).map (fun e => e.1) = [1] ∧ T.core = 0 ∧
       shadowRoom { s with teams := [(1, { T with desc := { D with scr := 131072 } })] } 0 0 0 = false) ∧
    (let s := { withDev ⟨3, none, [], [1]⟩ with ctxs := [(0, { K with devs := [(0, ⟨3, none, [], [1]⟩)], saveLen := 16 })] }
     let key := freeKey (s.draws + 1) 36 1
     (s.devOf 0 0).toCopy = true ∧ (⟨3, none, [1], [1]⟩ : DevRun).toCopy = false ∧
       (agentWrite { s with draws := s.draws + 1 } 0 K.saveBase 16 (Config.freeNat key) key).2 = true) ∧
    (let y := { G with resident := false }
     let s := { withDev ⟨4, none, [], [1]⟩ with
       teams := [(1, { T with resident := false })], groups := [(2, y)], cores := [(0, { Core.zero with l := some 2, order := [2] }), (1, { Core.zero with l := some 2 })] }
     (s.devOf 0 0).state = 4 ∧ (s.devOf 0 0).teams = [1] ∧ T.groups = [2] ∧ y.ended = false ∧ y.service = none ∧ teamSettled s { T with resident := false } = true ∧
      (admits s T.grid T.ctx T.desc T.core).isSome = true ∧ K.alog = [] ∧ s.views = []) ∧
    (let k := { K with graceDue := some 9 }
     k.graceDue = some 9 ∧ k.isOver = false ∧ 9 ≤ ({ B with time := 9 } : State).time ∧ B.time < 9) ∧
    (∀ w ∈ [Wait.barrier 2 3 9, .path 5 0, .signal 1024 5 9, .signalMet],
      let sp := { SP with wait := some w, clause := some ⟨0x10000000, [0xC0E10082]⟩ }
      let x := { G with s0 := some sp }
      let s := { M x with time := 10 * 2 ^ 40 }
      Map.find s.groups 2 = some x ∧ x.ctx = 0 ∧ x.split 0 = some sp ∧ x.resident = true ∧ x.ended = false ∧ 0 < 2 ∧ sp.again = false ∧ sp.deadline = none ∧ sp.expired = false ∧
        sp.since + 10 * 2 ^ bootCtx.bwlog ≤ s.time ∧ sp.since + 10 * 2 ^ bootCtx.cwlog ≤ s.time ∧ (M x).time < sp.since + 10 * 2 ^ bootCtx.cwlog ∧ bootCtx.abandon = false ∧ bootCtx.isOver = false) := by
  decide +kernel

/-- The last window, its last 8 bytes and one past its length; a reduction and a multicast of which the package is the one member; resends 3 and 4; the last plane up and down. -/
theorem witness_FabricEvents :
    let w : Window := ⟨0x8000, 7, 1, 0, true, true, true⟩
    let s := { B with windows := [(4095, w)], peers := [(0, 2)], mcLeaf := [(3, (1 <<< 64) ||| (1 <<< 56))] }
    let req : InReq := { kind := 1, off := 0, size := 8, ftid := 7, aop := 0, data := 0, data2 := 0, token := none, src := 4095, num := 0 }
    (let off := 4095 * 2 ^ 29 + 4064
     Map.find s.windows (off / 2 ^ 29 % 2 ^ 12) = some w ∧ w.v = true ∧ w.ftid = (7 : BitVec 16).toNat ∧ off % 2 ^ 29 < w.len * 4096 ∧
      (devKey s.stackCount (w.base + off % 2 ^ 29)).isSome = true ∧ (devKey s.stackCount (w.base + off % 2 ^ 29)).getD 0 % 32 = 0 ∧ w.w = true ∧ w.at_ = true ∧
      (s.rootSector ((devKey s.stackCount (w.base + off % 2 ^ 29)).getD 0 / 32)).token = none ∧ atomicOp 9 8 0 5 7 = some 0 ∧
      (Map.get 0 s.fabNext 4095 = 0 ∧ s.fabEarly = [] ∧ Map.get 0 { s with fabNext := [(4095, 2)] }.fabNext 4095 = 2 ∧
        { s with fabEarly := [{ req with num := 1 }] }.fabEarly = [{ req with num := req.num + 1 }]) ∧
      Map.find s.windows 0 = none ∧ (s.phase = 0 ∧ s.l2bad = [] ∧ s.stackBad = [] ∧ { s with phase := 1 }.phase ≠ 0) ∧ w.len * 4096 ≤ 4096 ∧ w.ftid ≠ (8 : BitVec 16).toNat) ∧
    (s.members 3 = [(0, s.peerNo)] ∧ Map.get 0 s.peers s.peerNo = 2 ∧ 7 < 8 ∧ 0xFFFFFFFF < 2 ^ 32 ∧ Map.find s.groups 2 = some G ∧ (s.planeOf 3 (4095 * 2 ^ 29 + 4064)).isSome = true ∧ 3 ∈ [0, 1, 3] ∧
      (let d := { s with mcLeaf := [(3, (3 <<< 64) ||| (1 <<< 56))], peers := [(0, 2), (1, 3)] }
       (1, 1) ∈ d.members 3 ∧ 1 ≠ d.peerNo ∧ Map.get 0 d.peers 1 = 3) ∧
      (let t := { s with windows := [(4095, { w with ftid := 0 })] }
       (inbound t (t.ftid G.ctx) (4095 * 2 ^ 29 + 4064) .atomic).isSome = true ∧ (inbound t (t.ftid G.ctx) (4095 * 2 ^ 29 + 4064) .atomic).getD 1 % 32 = 0)) ∧
    (let q : McSector := { off := 0, bytes := [], toks := [], inst := 0, acks := [(0, 0, 0)], sent := true }
     let o := { mkOp G 0 0 0 1 0 false [] (.mcast false 3 4 0 none [q]) with seq := 1 }
     let x := { G with paths := [(pathFab, ⟨[o, { o with seq := 2 }], false⟩)] }
     x.path pathFab = ⟨o :: [{ o with seq := 2 }], false⟩ ∧ o.done = false ∧ s.reds = [] ∧ (q.sent = true ∧ ∀ a ∈ q.acks, a.2.1 = 0)) ∧
    (∀ n ∈ [3, 4], let q : Store := { place := .peer 9 64, va := 0, line := none, bytes := [], ptok := [], red := none, lane := 0, ord := 0, scope := 0, stale := false, view := 0, tries := n }
      let x := { G with egress := [q] }
      Map.find (M x).groups 2 = some x ∧ x.egress[0]? = some q ∧ x.ended = false ∧ q.tries = n ∧ Map.get 0 s.peers 9 ≠ 3 ∧ Map.get 0 { s with peers := [(9, 3)] }.peers 9 = 3 ∧
        15 ∈ s.livePlanes s.peerNo ∧ q.plane ≠ some 15) ∧
    (∀ r ∈ [({ gid := 3, off := 0, n := 0, op := (2, 1), size := 4, aop := 0, elems := [(0, 5, none)], plane := 4 } : RedInst)], r.plane < 16 ∧ r.plane ≠ 15) ∧
    (15 < 16 ∧ (∃ p < 16, p ≠ 15 ∧ Map.get false s.portDown (16 * 4095 + p) = false) ∧
      ∀ p < 16, p ≠ 15 → Map.get false { s with portDown := (List.range 15).map (fun p => (16 * 4095 + p, true)) }.portDown (16 * 4095 + p) = true) ∧ 4095 < 4096 := by
  refine ⟨?_, ?_, ?_, ?_, ?_, ?_, ?_⟩ <;> decide +kernel

/-- A well-formed instruction with an encoding, and a word that decodes. -/
theorem witness_EncodeDecode : (Instr.vadd ⟨3, 7, 127, 127, 127⟩ none).wf = true ∧ (encode (.vadd ⟨3, 7, 127, 127, 127⟩ none)).isSome = true ∧
    decodeWord .alu 0xC0E10082 none = some (.vadd ⟨3, 7, 4, 1, 2⟩ none) := by decide +kernel

/-- A clause of two words that passes, one of no word, one of class 7, one of an opcode that the class has not. -/
theorem witness_CheckedClausesDecode :
    (let h := Header.of (headerWord 2 .alu 0)
     h.cls = some .alu ∧ checkClause h [0xC0E10082, 0xC0E10082] = none ∧ (wordsOf [0xC0E10082, 0xC0E10082] h.xmask).length = 2) ∧
    (Header.of 0).count = 0 ∧ ((Header.of (headerWord 2 .alu 0)).count ≠ 0 ∧ ({ Header.of (headerWord 2 .alu 0) with cls := none } : Header).cls = none) ∧
    (opInfo .control 63 = none ∧ (Header.of (headerWord 1 .control 0)).xmask = 0 ∧ (field (0x3F000000 : Word) 24 6).toNat = 63) := by decide +kernel

/-- Group 2 is due to issue the second word of its clause. -/
def due : State :=
  { M { G with s0 := some { SP with pc := 0x1004, clause := some ⟨0x10000000, [0xC0E10082]⟩ } } with
    cur := none, agenda := [⟨0, .issue 2 0⟩], cores := [(0, { Core.zero with order := [2] })] }

theorem witness_StepRunsIssuedWord :
    let sp := { SP with pc := 0x1004, clause := some ⟨0x10000000, [0xC0E10082]⟩ }
    let s0 := fetchClause (promote { due with agenda := [] }) 2 0
    due.agenda = ⟨0, .issue 2 0⟩ :: [] ∧ 0 ≤ due.time ∧ (s0.grp 2).split 0 = some sp ∧ selected s0 2 0 = true ∧
      ∃ n, nextWord sp ⟨0x10000000, [0xC0E10082]⟩ = some n ∧ decodeWord n.cls n.word n.x = some (.vadd ⟨3, 7, 4, 1, 2⟩ none) ∧
        stallFound (prepare (clearWay (seeHeader s0 2 sp ⟨0x10000000, [0xC0E10082]⟩) 2 n) 2 0 sp ⟨0x10000000, [0xC0E10082]⟩ n) sp n = none := by
  refine ⟨rfl, by decide, by decide +kernel, by decide +kernel, _, rfl, by decide +kernel, by decide +kernel⟩

/-- An agenda without program forms, and one with a happening and an issue. -/
theorem witness_StepsGoOn : (∀ d ∈ State.reset.agenda, ∀ i, d.act = .event i → encode i = none) ∧ encode .coldStart = none ∧ (M G).cur.isSome = true := by
  refine ⟨fun d hd => absurd (show d ∈ [] from hd) List.not_mem_nil, by decide +kernel, rfl⟩

theorem witness_StepKeepsCanonicalMemory : CanonicalMemory due ∧ isOk (match step due with | .next t => Except.ok (ε := Unit) t | _ => .error ()) = true :=
  ⟨⟨by decide, by decide⟩, by decide +kernel⟩

/-! ### WellFormed: a selector that is another instruction's is refused (R84 to R86) -/

theorem test_wf_refuses_1 : ∀ i ∈ ([
    .vabs ⟨0, 7, 0, 0, 1⟩ none, .vabs ⟨0, 7, 0, 0, 2⟩ none, .vabs ⟨0, 7, 0, 0, 3⟩ none, .vpopc ⟨0, 7, 0, 0, 0⟩ none, .vclz ⟨0, 7, 0, 0, 0⟩ none,
    .vbrev ⟨0, 7, 0, 0, 0⟩ none, .fsqrt ⟨0, 7, 0, 0, 1⟩ none, .fsqrt ⟨0, 7, 0, 0, 2⟩ none, .fsqrt ⟨0, 7, 0, 0, 3⟩ none, .fsqrt ⟨0, 7, 0, 0, 4⟩ none,
    .fsqrt ⟨0, 7, 0, 0, 5⟩ none, .fsqrt ⟨0, 7, 0, 0, 6⟩ none, .frcp ⟨0, 7, 0, 0, 0⟩ none, .frsq ⟨0, 7, 0, 0, 0⟩ none, .fexp2 ⟨0, 7, 0, 0, 0⟩ none,
    .flog2 ⟨0, 7, 0, 0, 0⟩ none, .fsin ⟨0, 7, 0, 0, 0⟩ none, .fcos ⟨0, 7, 0, 0, 0⟩ none, .vvoteAll ⟨0, 7, 0, 0, 1⟩ none, .vvoteAll ⟨0, 7, 0, 0, 2⟩ none,
    .vvoteAll ⟨0, 7, 0, 0, 3⟩ none, .vvoteAll ⟨0, 7, 0, 0, 4⟩ none, .vvoteAll ⟨0, 7, 0, 0, 5⟩ none, .vvoteAny ⟨0, 7, 0, 0, 0⟩ none, .vvoteUni ⟨0, 7, 0, 0, 0⟩ none,
    .vvoteBallot ⟨0, 7, 0, 0, 0⟩ none, .vvoteCount ⟨0, 7, 0, 0, 0⟩ none, .vvoteLaneid ⟨0, 7, 0, 0, 0⟩ none] : List Instr), i.wf = false := by decide

theorem test_wf_refuses_2 : ∀ i ∈ ([
    .pand ⟨0, 7, 8, 0, 0⟩, .pand ⟨0, 7, 16, 0, 0⟩, .pand ⟨0, 7, 24, 0, 0⟩, .pand ⟨0, 7, 32, 0, 0⟩, .por ⟨0, 7, 0, 0, 0⟩, .pxor ⟨0, 7, 0, 0, 0⟩,
    .pnot ⟨0, 7, 0, 0, 0⟩, .pmov ⟨0, 7, 0, 0, 0⟩, .sadd ⟨0, 7, 0, 0, 0, 1⟩, .ssub ⟨0, 7, 0, 0, 0, 0⟩, .smul ⟨0, 7, 0, 0, 0, 0⟩, .smin ⟨0, 7, 0, 0, 0, 0⟩,
    .smax ⟨0, 7, 0, 0, 0, 0⟩, .smov ⟨0, 7, 0, 0, 0, 0⟩, .sminU ⟨0, 7, 0, 0, 0, 0⟩, .smaxU ⟨0, 7, 0, 0, 0, 0⟩, .sand ⟨0, 7, 0, 0, 0, 1⟩, .sand ⟨0, 7, 0, 0, 0, 2⟩,
    .sand ⟨0, 7, 0, 0, 0, 3⟩, .sand ⟨0, 7, 0, 0, 0, 4⟩, .sand ⟨0, 7, 0, 0, 0, 5⟩, .sor ⟨0, 7, 0, 0, 0, 0⟩, .sxor ⟨0, 7, 0, 0, 0, 0⟩, .sshl ⟨0, 7, 0, 0, 0, 0⟩,
    .sshr ⟨0, 7, 0, 0, 0, 0⟩, .ssar ⟨0, 7, 0, 0, 0, 0⟩, .fmtset ⟨0, 7, 0, 0, 0, 1⟩, .fmtsetLit ⟨0, 7, 0, 0, 0, 0⟩ 0] : List Instr), i.wf = false := by decide

theorem test_wf_refuses_3 : ∀ i ∈ ([
    .commitRel ⟨0, 7, 0, 1⟩, .commitRpl ⟨0, 7, 0, 0⟩, .commitFwd ⟨0, 7, 0, 0⟩, .commit ⟨0, 7, 0, 0⟩, .pchk ⟨0, 7, 0, 0, 1⟩, .pchk ⟨0, 7, 0, 0, 2⟩,
    .pchk ⟨0, 7, 0, 0, 3⟩, .pchk ⟨0, 7, 0, 0, 4⟩, .pchkP ⟨0, 7, 0, 0, 0⟩, .pchkS ⟨0, 7, 0, 0, 0⟩, .pchkReg ⟨0, 7, 0, 0, 0⟩, .pchkOrph ⟨0, 7, 0, 0, 0⟩,
    .pset ⟨0, 7, 0, 0, 1⟩, .psetS ⟨0, 7, 0, 0, 0⟩, .pclr ⟨0, 7, 0, 0, 1⟩, .pclr ⟨0, 7, 0, 0, 2⟩, .pclrS ⟨0, 7, 0, 0, 0⟩, .pclrTab ⟨0, 7, 0, 0, 0⟩,
    .cpyG2s ⟨0, 7, 0, 0, 0, 1⟩ ⟨0, 0, 0⟩, .cpyG2s ⟨0, 7, 0, 0, 0, 2⟩ ⟨0, 0, 0⟩, .cpyS2g ⟨0, 7, 0, 0, 0, 0⟩ ⟨0, 0, 0⟩, .cpyS2p ⟨0, 7, 0, 0, 0, 0⟩ ⟨0, 0, 0⟩,
    .getwork ⟨0, 7, 0, 0, 0, 1⟩, .getworkNw ⟨0, 7, 0, 0, 0, 0⟩, .tnode ⟨0, 7, 0, 0, 64⟩, .tnodeLink ⟨0, 7, 0, 0, 0⟩, .barArv ⟨0, 7, 0, 0, 0, 1⟩,
    .barArv ⟨0, 7, 0, 0, 0, 2⟩] : List Instr), i.wf = false := by decide

theorem test_wf_refuses_4 : ∀ i ∈ ([
    .barWait ⟨0, 7, 0, 0, 0, 0⟩, .barSync ⟨0, 7, 0, 0, 0, 0⟩, .fenceAcq ⟨0, 7, 0, 1⟩, .fenceAcq ⟨0, 7, 0, 2⟩, .fenceRel ⟨0, 7, 0, 0⟩, .fenceFull ⟨0, 7, 0, 0⟩,
    .sigSet ⟨0, 7, 0, 0, 0, 1⟩ none, .sigAdd ⟨0, 7, 0, 0, 0, 0⟩ none, .sigSetRet ⟨0, 7, 0, 0, 0, 0⟩ none, .sigAddRet ⟨0, 7, 0, 0, 0, 0⟩ none,
    .viewId ⟨0, 7, 0, 0, 0, 1⟩, .viewId ⟨0, 7, 0, 0, 0, 2⟩, .viewId ⟨0, 7, 0, 0, 0, 3⟩, .viewId ⟨0, 7, 0, 0, 0, 4⟩, .viewId ⟨0, 7, 0, 0, 0, 5⟩,
    .viewId ⟨0, 7, 0, 0, 0, 6⟩, .viewRival ⟨0, 7, 0, 0, 0, 0⟩, .viewDepth ⟨0, 7, 0, 0, 0, 0⟩, .viewParent ⟨0, 7, 0, 0, 0, 0⟩, .viewLog ⟨0, 7, 0, 0, 0, 0⟩,
    .viewSect ⟨0, 7, 0, 0, 0, 0⟩, .viewDec ⟨0, 7, 0, 0, 0, 0⟩] : List Instr), i.wf = false := by decide


/-! ### Words written out from the spec's encodings (R69, R74, R76, R84 to R86), and the instructions they stand for

A word holds STALL 31:30, OP 29:24, PRED or QUAL 23:21; then D 20:14, A 13:7, B or FUNC 6:0 (A, B), D and IMM 13:0 (C), OFF 20:0 (D), or SD 20:15,
SA 14:9, SB 8:3, SUB 2:0 (S). -/

/-- Integer: VADD, stall 3, v4 := v1 + v2 (opcode 0); VMAD, p2, v1 := v4 × v3 + v6 with its extension word; VLDI, v8 := 4 (R115). -/
theorem test_decode_integer :
    decodeWord .alu 0xC0E10082 none = some (.vadd ⟨3, 7, 4, 1, 2⟩ none) ∧
    decodeWord .alu 0x04414203 (some 0x0C000000) = some (.vmad ⟨0, 2, 5, 4, 3⟩ { plainX with c := 6, rnd := 0 }) ∧
    decodeWord .alu 0xD3E20004 none = some (.vldi ⟨3, 7, 8, 4⟩ none) := by decide +kernel

/-- Cross-lane words of the example of R158: an addition across lanes, a move from a lane, a reduction. -/
theorem test_decode_lanes : (decodeWord .alu 0xC0E0C102 (some 0x00006200)).isSome = true ∧ decodeWord .alu 0x2AE14180 none = some (.vred ⟨0, 7, 5, 3, 0⟩ none) := by decide +kernel

/-- Compare: VCMP of the example of R115. -/
theorem test_decode_compare : decodeWord .alu 0x10E44008 none = some (.vcmp ⟨0, 7, 17, 0, 8⟩ none) := by decide +kernel

/-- Scalar: SADD, s10 := s2 + s3. -/
theorem test_decode_scalar : decodeWord .alu 0x30E50418 none = some (.sadd ⟨0, 7, 10, 2, 3, 0⟩) := by decide +kernel

/-- Matrix: MMA of one block with ZERO; its literal holds NCODE 31:26 and ZERO 14. -/
theorem test_decode_matrix : decodeWord .matrix 0x00E00804 (some 0x04004000) = some (.mma ⟨0, 7, 0, 16, 4⟩ ⟨1, 0, 0, 0, 0, 0, 1, 0⟩) := by decide +kernel

/-- Memory: ST, 4 bytes, indexed, scratchpad, base s2: the literal holds SZ 31:29, IX 28, SPACE 27:25, BK 24:23, BASE 22:17. -/
theorem test_decode_memory : decodeWord .memory 0x03E00004 (some 0x90030000) = some (.st ⟨0, 7, 0, 0, 4⟩ ⟨4, 1, 0, 0, 1, 2, 0, 0, 0⟩) := by decide +kernel

/-- Asynchronous: WAIT, path 0, a copy of sectors, STMC, REDMC, and the Landau words. -/
theorem test_decode_async :
    decodeWord .async 0x03EB2A50 none = some (.wait ⟨0, 7, 22, 21, 10, 0⟩) ∧
    (decodeWord .async 0x00E808A0 (some 0)).map (fun i => i == .cpyG2s ⟨0, 7, 16, 4, 20, 0⟩ ⟨0, 0, 0⟩) = some true ∧
    (decodeWord .async 0x0CE00082 (some 0xB1300000)).map (fun i => i == .stmc ⟨0, 7, 0, 1, 2⟩ ⟨5, 1, 4, 3, 0, 0, 0, 0, 0⟩) = some true ∧
    (decodeWord .async 0x0DE00082 (some 0x91280000)).map (fun i => i == .redmc ⟨0, 7, 0, 1, 2⟩ ⟨4, 1, 4, 2, 8, 0, 0, 0, 0⟩) = some true ∧
    (decodeWord .async 0x10E20000 (some 0x00001284)).map (fun i => i == .tdesc ⟨0, 7, 8, 0, 0⟩ ⟨0, 0, 1, 10, 4⟩) = some true := by decide +kernel

/-- Synchronisation: BAR.sync, FENCE.full.dev, CHOOSE, SIG.add, VIEW.id, FORK. -/
theorem test_decode_sync :
    decodeWord .sync 0x00EA007A none = some (.barSync ⟨0, 7, 20, 0, 15, 2⟩) ∧ decodeWord .sync 0x02E0000E none = some (.fenceFull ⟨0, 7, 0, 14⟩) ∧
    decodeWord .sync 0x03E00021 none = some (.sigAdd ⟨0, 7, 0, 0, 4, 1⟩ none) ∧ decodeWord .sync 0x05EA0832 none = some (.fork ⟨0, 7, 20, 4, 6, 2⟩) ∧
    decodeWord .sync 0x06EAA800 none = some (.choose ⟨0, 7, 21, 20, 0, 0⟩) ∧ decodeWord .sync 0x07EB0000 none = some (.viewId ⟨0, 7, 22, 0, 0, 0⟩) := by decide +kernel

/-- Control: BRA under p1 to the third word on, reconverging five words on; REGION in mode rpl; JOIN and EXIT of R115; COMMIT. -/
theorem test_decode_control :
    decodeWord .control 0x01200003 (some 0x00000005) = some (.bra ⟨0, 1, 3⟩ ⟨0, 5⟩) ∧ decodeWord .control 0x10E00008 (some 0x40000001) = some (.region ⟨0, 7, 8⟩ ⟨1, 0, 1⟩) ∧
    decodeWord .control 0x07E00000 none = some (.join ⟨0, 7, 0, 0⟩) ∧ decodeWord .control 0x08E00000 none = some (.exit ⟨0, 7, 0, 0⟩) ∧
    decodeWord .control 0x11E00003 none = some (.commit ⟨0, 7, 0, 3⟩) := by decide +kernel

/-- System: TRAP 42, BKPT 3, RTE, SREADP, SWRITEP, HALTG 9. -/
theorem test_decode_system :
    decodeWord .system 0x00E0002A none = some (.trap ⟨0, 7, 0, 42⟩) ∧ decodeWord .system 0x01E00003 none = some (.bkpt ⟨0, 7, 0, 3⟩) ∧
    decodeWord .system 0x02E00000 none = some (.rte ⟨0, 7, 0, 0⟩) ∧ decodeWord .system 0x03E10010 none = some (.sreadp ⟨0, 7, 2, 0, 2, 0⟩) ∧
    decodeWord .system 0x04E10010 none = some (.swritep ⟨0, 7, 2, 0, 2, 0⟩) ∧ decodeWord .system 0x05E00009 none = some (.haltg ⟨0, 7, 0, 9⟩) := by decide +kernel

/-- Opcode 63 of the control class names no instruction, and a word that needs no extension takes none (R85, R87). -/
theorem test_decode_refuses : decodeWord .control 0x3FE00000 none = none ∧ decodeWord .control 0x07E00000 (some 0) = none := by decide +kernel

/-! ### Single steps, and the spec's worked examples -/

/-- The group after an instruction. -/
def run (i : Instr) (s : State) : Group := after (exec i s)

/-- The state after an instruction. -/
def nextState (o : Out) : State := match o with | .next t => t | _ => State.reset

/-- 0xFFFFFFFF + 2 wraps to 1 (R134). -/
theorem test_vadd : (run (.vadd ⟨0, 7, 4, 1, 2⟩ none) (M { G with v := [(129, ⟨0xFFFFFFFF, false⟩), (257, ⟨2, false⟩)] })).rdV 4 1 = ⟨1, false⟩ := by decide +kernel

/-- A shift by 32 leaves 0, an arithmetic one of a negative number leaves its sign (R142). -/
theorem test_shifts : let s := M { G with v := [(128, ⟨0x80000001, false⟩), (256, ⟨32, false⟩)] }
    (run (.vshl ⟨0, 7, 4, 1, 2⟩ none) s).rdV 4 0 = ⟨0, false⟩ ∧ (run (.vsar ⟨0, 7, 4, 1, 2⟩ none) s).rdV 4 0 = ⟨0xFFFFFFFF, false⟩ := by decide +kernel

/-- Six active lanes; v2 holds 10 times the lane number (the example of R158). -/
def ten : Group :=
  { G with live := firstLanes 6, s0 := some { SP with mask := firstLanes 6 }, v := ((List.range 31).map (fun i => (257 + i, ⟨BitVec.ofNat 32 (10 * (i + 1)), false⟩))) }

/-- The three words of the example: v3 is 80 to 180, lane 40 is out of range, v5 is 780 (R158). -/
theorem test_example_lanes :
    (decodeWord .alu 0xC0E0C102 (some 0x00006200)).map (fun i => (List.range 6).map (fun k => ((run i (M ten)).rdV 3 k).bits.toNat)) = some [80, 100, 120, 140, 160, 180] ∧
    (decodeWord .alu 0x12E10100 (some 0x00014A00)).map (fun i => ((run i (M ten)).rdV 4 5).bits.toNat / 2 ^ 16) = some 0x0900 ∧
    (run (.vred ⟨0, 7, 5, 3, 0⟩ none) (M { ten with v := (List.range 6).map (fun i => (384 + i, ⟨BitVec.ofNat 32 (80 + 20 * i), false⟩)) })).rdV 5 5 = ⟨780, false⟩ := by decide +kernel

/-- 2^24 + 1 is a tie that stays even (R126). -/
theorem test_fadd : (run (.fadd ⟨0, 7, 4, 1, 2⟩ none) (M { G with v := [(128, ⟨0x4B800000, false⟩), (256, ⟨0x3F800000, false⟩)] })).rdV 4 0 = ⟨0x4B800000, false⟩ := by decide +kernel

/-- The table of T8 patterns (R120, R121). -/
theorem test_example_tapered :
    [0x40400000, 0xC0400000, 0x42C80000, 0x36000000, 0x4E6E6B28, 0x80000000, 0x7F800000].map (fun b => encodeTapered t8 (fp32.decode b)) = [0x4C, 0xB4, 0x6A, 0x02, 0x7F, 0x00, 0x7F] := by
  decide +kernel

/-- The table of window sums, and integer accumulation in order (R128, R129). -/
theorem test_example_sums :
    let num := fun (b : Nat) => Term.num (fp32.decode b)
    let zero := fp32.decode 0
    windowSum [num 0x4B800000, num 0x3F800000, num 0xCB800000] zero .rne = some 0x3F800000 ∧ windowSum [num 0x3F800000, .num (.fin false 1 (-90))] zero .rne = some 0x3F800000 ∧
    windowSum [num 0x3F800000, .num (.fin false 1 (-90))] zero .ru = some 0x3F800001 ∧ windowSum [num 0x40000000, num 0xC0000000] zero .rd = some 0x80000000 ∧
    windowSum [num 0x80000000, num 0x80000000] zero .rd = some 0 ∧ windowSum [num 0x80000000, num 0x80000000] (fp32.decode 0x80000000) .rne = some 0x80000000 ∧
    windowSum [product 0 zero (fp32.decode 0x7F800000), .nan] (fp32.decode 0x3F800000) .rne = none ∧
    intAccumulate true (2 ^ 31 - 10) [20, -20] = 2 ^ 31 - 21 ∧ intAccumulate false (2 ^ 31 - 10) [20, -20] = 2 ^ 31 - 10 := by decide +kernel

/-- The multiply of the matrix example: row i of A picks element i, column 1 of B holds 1.0 to 4.0, a word of column 5 is poisoned (R170, R171). -/
theorem test_example_matrix :
    let row := fun (i : Nat) => (i, (List.range 16).map (fun k => LVal.val (if k == i / 2 then (if i % 2 == 0 then 0x3F80 else 0x3F800000) else 0)))
    let e : MxEntry := { gid := 2, pc := 0x1004, fmt := 0, op := .mul 0 0 ⟨1, 0, 0, 0, 0, 0, 1, 0⟩ ((List.range 4).map row) (0x81000 + 7 * 2 ^ 32) 0 }
    let t := { T with scr := [(0x1040 / 4, ⟨0x40003F80, false⟩), (0x1044 / 4, ⟨0x40804040, false⟩), (0x1144 / 4, ⟨0x03010000, true⟩)] }
    let y := run (.matrixQueueExecute 0) { M mat with teams := [(1, t)], cores := [(0, { Core.zero with mxq := [e] })] }
    (List.range 4).map (fun i => y.tasAt 0 i 1) = [⟨0x3F800000, false⟩, ⟨0x40000000, false⟩, ⟨0x40400000, false⟩, ⟨0x40800000, false⟩] ∧ y.tasAt 0 1 5 = ⟨0x03010000, true⟩ := by decide +kernel

/-- The tokens of R230's example. -/
theorem test_example_tokens : mkToken 1 3 0 5 = 0x01030005 ∧ mkToken 1 3 1 5 = 0x01030205 := by decide

/-- The translation example: three 2 MiB entries in a line make a run of 6 MiB (R190 to R192). -/
theorem test_example_xlate :
    let x := { half with s := [(4, ⟨0x00200000, false⟩), (5, ⟨0x100, false⟩)] }
    let s := [(0x10020, 0x11001), (0x11000, 0x100001), (0x100008, 0xC000000800000003), (0x100010, 0xC000000800200003), (0x100018, 0xC000000800400003)].foldl
      (fun s e => writePa s e.1 8 e.2) { M x with mem := [], ctxs := [(0, { bootCtx with rootlog := 3 })] }
    Map.find (run (.xlate ⟨0, 7, 1, 4, 0, 0⟩) s).x 1 = some ⟨0x100008, true, 2, 0, true, true, 0x600000, 0x10000200000, 0x800000000⟩ ∧
      devKey s.stackCount 0x800000000 = some (2 ^ 31) ∧ devKey s.stackCount 0x800001000 = some (2 ^ 37 + 2 ^ 31) := by decide +kernel

/-- Record 53 of a range of 10 by 7 (R29). -/
theorem test_example_range : ({ node 2 with dim := 2, extx := 10, exty := 7 } : Node).record 53 = BitVec.ofNat 128 (3 + 5 * 2 ^ 32 + 53 * 2 ^ 96) := by decide

/-- A trap word saves its number and the next word's address, and the handler starts (R377, R378, R381). -/
theorem test_trap : let y := run (.trap ⟨0, 7, 0, 42⟩) (M half)
    y.trap.treason = 5 ∧ y.trap.tdata = 42 ∧ y.trap.tpc = C.next ∧ y.s0.map (fun p => p.pc) = some D.traph := by decide +kernel

/-- A store waits in its group's queue and reaches memory when it performs; the load finds it before and after (R205, R211, R265). -/
theorem test_store_load :
    let l : MemLit := ⟨4, 0, 0, 1, 4, 0, 0, 0, 0⟩
    let x := { near8 with p := [(128, ⟨1, false⟩)] }
    let s := nextState (exec (.st ⟨0, 1, 0, 0, 2⟩ l) (M x))
    let u := nextState (exec (.storeCompletion 2 0) s)
    (s.grp 2).egress.length = 1 ∧ (u.grp 2).egress = [] ∧ Map.get Memory.unlisted u.mem 1099511627776 = 9 ∧
      (run (.ld ⟨0, 1, 7, 0, 0⟩ l) s).board = [[⟨.v, 7, 0, ⟨9, false⟩⟩]] ∧ (run (.ld ⟨0, 1, 7, 0, 0⟩ l) u).board = [[⟨.v, 7, 0, ⟨9, false⟩⟩]] := by decide +kernel

/-- SIG.add adds a pair to the signal that its register names (R293). -/
theorem test_sigAdd :
    ((nextState (exec (.sigAdd ⟨0, 7, 0, 6, 8, 1⟩ none) (M { half with s := [(6, ⟨5, false⟩), (8, ⟨0xFFFFFFFF, false⟩), (9, ⟨0xFFFFFFFF, false⟩)] }))).ctxs.map (fun e => Map.get 0 e.2.signals 5)) =
      [0xFFFFFFFFFFFFFFFF] := by decide +kernel

/-- From reset, with SLDI s3, 42 and its literal stored where the next step fetches, one step writes s3. -/
theorem test_fetched_word : let t := nextState (step (State.reset.withFetchWord 64 (0x33E18000 + 42 * 2 ^ 32)))
    t.groups.map (fun e => e.2.rdS 3) = [⟨42, false⟩] ∧ t.cur = none := by decide +kernel

end Sys2Proof.Tests
end

section
/-! PROOFS. A step goes on: what executing an instruction comes to, what the machine brings about of itself, and the reset state. -/
namespace Sys2Proof.Machine

/-! ### The outcome of an instruction -/


/-- `FCVT` is a word of one issuer in every form, the reserved ones included (R152). -/
theorem execFcvt_onIssuer (w : WB) (x : Option XMod) (s : State) : ∃ f, execFcvt w x s = onIssuer s f := by
  unfold execFcvt
  dsimp only
  split <;> exact ⟨_, rfl⟩

theorem execVvoteAll_onIssuer (w : WB) (x : Option XMod) (s : State) : ∃ f, execVvoteAll w x s = onIssuer s f := by
  unfold execVvoteAll
  split <;> exact ⟨_, rfl⟩

theorem execSigw_next (w : WS) (s : State) (c : Cur) (h : s.cur = some c) : ∃ t, execSigw w s = .next t := by
  unfold execSigw
  split
  · exact ⟨_, onIssuer_of_cur _ h⟩
  · exact ⟨_, onIssuer_of_cur _ h⟩
  · exact ⟨_, onIssuer_of_cur _ h⟩

theorem execChoose_next (w : WS) (s : State) (c : Cur) (h : s.cur = some c) : ∃ t, execChoose w s = .next t := by
  unfold execChoose
  split
  · exact ⟨_, onIssuer_of_cur _ h⟩
  · exact ⟨_, onIssuer_of_cur _ h⟩
  · exact ⟨_, onIssuer_of_cur _ h⟩

theorem execHostApertureAccess_next (c : Nat) (r : HostReq) (s : State) : ∃ t, execHostApertureAccess c r s = .next t := by
  unfold execHostApertureAccess
  split <;> exact ⟨_, rfl⟩

/-- Every instruction has a next state while a word issues. -/
theorem exec_next_of_issuer (i : Instr) (s : State) (c : Cur) (h : s.cur = some c) : ∃ t, exec i s = .next t := by
  have e : s = { s with cur := some c } := by rw [← h]
  cases i
  case fcvt w x => obtain ⟨f, hf⟩ := execFcvt_onIssuer w x s; exact ⟨_, hf.trans (onIssuer_of_cur f h)⟩
  case vvoteAll w x => obtain ⟨f, hf⟩ := execVvoteAll_onIssuer w x s; exact ⟨_, hf.trans (onIssuer_of_cur f h)⟩
  case sigw w => exact execSigw_next w s c h
  case choose w => exact execChoose_next w s c h
  case hostApertureAccess n r => exact execHostApertureAccess_next n r s
  all_goals (rw [e]; exact ⟨_, rfl⟩)

/-- A program form executed while no word issues stops with the fault of log entry 10. -/
theorem exec_fault_of_no_issuer (i : Instr) (s : State) (hi : (encode i).isSome = true) (h : s.cur = none) : exec i s = .fault .noIssuer := by
  have e : s = { s with cur := none } := by rw [← h]
  cases i
  case fcvt w x => obtain ⟨f, hf⟩ := execFcvt_onIssuer w x s; rw [show exec (.fcvt w x) s = _ from hf, onIssuer, h]
  case vvoteAll w x => obtain ⟨f, hf⟩ := execVvoteAll_onIssuer w x s; rw [show exec (.vvoteAll w x) s = _ from hf, onIssuer, h]
  all_goals first | exact absurd hi Bool.false_ne_true | (rw [e]; rfl)

/-- A device step has a next state in every state. -/
theorem exec_next_of_device (i : Instr) (s : State) (h : encode i = none) : ∃ t, exec i s = .next t := by
  cases i
  case hostApertureAccess n r => exact execHostApertureAccess_next n r s
  all_goals first | cases (h : some _ = none) | exact ⟨_, rfl⟩

/-- What executing an instruction comes to: a next state, or the fault of a program form that no split issues. -/
theorem exec_cases (i : Instr) (s : State) :
    (∃ t, exec i s = .next t) ∨ (exec i s = .fault .noIssuer ∧ s.cur = none ∧ (encode i).isSome = true) := by
  cases h : s.cur with
  | some c => exact .inl (exec_next_of_issuer i s c h)
  | none =>
    cases hi : encode i with
    | none => exact .inl (exec_next_of_device i s hi)
    | some c => exact .inr ⟨exec_fault_of_no_issuer i s (by simp [hi]) h, rfl, rfl⟩

/-! ### A step always goes on -/

/-- An act that is no program form executed as an event: the issue of a split, a happening without a row, or a device step. -/
def Act.Device (a : Act) : Prop := ∀ i, a = .event i → encode i = none

theorem Act.device_event {i : Instr} (h : encode i = none) : (Act.event i).Device := fun _ e => by cases e; exact h
theorem Act.device_issue (g slot : Nat) : (Act.issue g slot).Device := fun _ e => nomatch e
theorem Act.device_extra (x : Extra) : (Act.extra x).Device := fun _ e => nomatch e

/-- A list of such acts. -/
def Devices (l : List Act) : Prop := ∀ a ∈ l, a.Device

theorem Devices.nil : Devices [] := fun _ h => nomatch h
theorem Devices.cons {a : Act} {l : List Act} (ha : a.Device) (hl : Devices l) : Devices (a :: l) := List.forall_mem_cons.2 ⟨ha, hl⟩
theorem Devices.one {a : Act} (ha : a.Device) : Devices [a] := .cons ha .nil
theorem Devices.append {l m : List Act} (hl : Devices l) (hm : Devices m) : Devices (l ++ m) := List.forall_mem_append.2 ⟨hl, hm⟩
theorem Devices.map {α : Type} {f : α → Act} (h : ∀ x, (f x).Device) (l : List α) : Devices (l.map f) := List.forall_mem_map.2 fun x _ => h x
theorem Devices.flatMap {α : Type} {f : α → List Act} (h : ∀ x, Devices (f x)) (l : List α) : Devices (l.flatMap f) := fun a ha => by
  obtain ⟨x, -, hx⟩ := List.mem_flatMap.1 ha
  exact h x a hx
theorem Devices.filterMap {α : Type} {f : α → Option Act} (h : ∀ x a, f x = some a → a.Device) (l : List α) : Devices (l.filterMap f) := fun a ha => by
  obtain ⟨x, -, hx⟩ := List.mem_filterMap.1 ha
  exact h x a hx
theorem Devices.ite {p : Prop} [Decidable p] {l m : List Act} (hl : Devices l) (hm : Devices m) : Devices (if p then l else m) := by
  split
  · exact hl
  · exact hm
/-- One act, or none. -/
theorem Devices.guard {p : Prop} [Decidable p] {a : Act} (ha : a.Device) : Devices (if p then [a] else []) := .ite (.one ha) .nil
theorem Devices.toList {o : Option Act} (h : ∀ a ∈ o, a.Device) : Devices o.toList := fun a ha => h a (Option.mem_toList.1 ha)

theorem splitChoices_device (s : State) (g slot : Nat) (x : Group) (sp : Split) : Devices (splitChoices s g slot x sp) :=
  .guard (Act.device_issue g slot)

theorem endChoices_device (s : State) (g slot : Nat) (x : Group) (sp : Split) : Devices (endChoices s g slot x sp) := by
  unfold endChoices
  refine .ite .nil ?_
  split
  · exact .one (Act.device_event rfl)
  · exact .one (Act.device_event rfl)
  · exact .guard (Act.device_event rfl)
  · exact .nil

theorem dogChoices_device (s : State) (g : Nat) (x : Group) (k : Nat) : Devices (dogChoices s g x k) := by
  unfold dogChoices
  split
  · exact .append (.guard (Act.device_event rfl)) (.guard (Act.device_event rfl))
  · exact .nil

theorem opChoices_device (s : State) (g path k lane : Nat) (x : Group) (o : AsyncOp) : Devices (opChoices s g path k lane x o) := by
  unfold opChoices
  refine .append (.guard (Act.device_event rfl)) ?_
  split
  · exact .guard (Act.device_event rfl)
  · exact .nil

theorem groupChoices_device (s : State) (lane g : Nat) (x : Group) : Devices (groupChoices s lane g x) := by
  unfold groupChoices
  refine .append (.append (.append (.append (.append ?_ ?_) ?_) ?_) ?_) ?_
  · exact .map (fun _ => Act.device_event rfl) _
  · exact .map (fun _ => Act.device_event rfl) _
  · exact .flatMap (fun _ => .flatMap (fun _ => opChoices_device _ _ _ _ _ _ _) _) _
  · refine .flatMap (fun e => ?_) _
    split
    · exact splitChoices_device _ _ _ _ _
    · exact .nil
  · split
    · exact .ite .nil (.one (Act.device_event rfl))
    · exact .nil
  · exact .guard (Act.device_extra _)

theorem coreChoices_device (k : Nat) (c : Core) : Devices (coreChoices k c) := by
  unfold coreChoices
  split
  · exact .nil
  · exact .ite .nil (.one (Act.device_event rfl))

theorem gridChoices_device (s : State) (n : Nat) (r : Grid) : Devices (gridChoices s n r) := by
  unfold gridChoices
  exact .append (.flatMap (fun _ => .append (.guard (Act.device_event rfl)) (.guard (Act.device_event rfl))) _) (.guard (Act.device_event rfl))

theorem ctxChoices_device (s : State) (c : Nat) (x : Ctx) : Devices (ctxChoices s c x) := by
  unfold ctxChoices
  refine .append (.flatMap (fun q => .filterMap (fun e a h => ?_) _) _) (.flatMap (fun d => ?_) _)
  · split at h
    · cases h; exact Act.device_event rfl
    · cases h
  · refine .ite (.one (Act.device_event rfl)) (.ite (.append (.map (fun _ => Act.device_extra _) _) (.guard (Act.device_event rfl))) ?_)
    exact .ite (.one (Act.device_event rfl)) (.guard (Act.device_event rfl))

theorem baseChoices_device (s : State) (lane : Nat) : Devices (baseChoices s lane) := by
  unfold baseChoices
  refine .append (.append (.append (.append (.append (.append (.append ?_ ?_) ?_) ?_) ?_) ?_) ?_) ?_
  · exact .ite .nil (.one (Act.device_event rfl))
  · exact .map (fun _ => Act.device_event rfl) _
  · exact .flatMap (fun _ => .map (fun _ => Act.device_event rfl) _) _
  · exact .map (fun _ => Act.device_event rfl) _
  · exact .map (fun _ => Act.device_event rfl) _
  · exact .map (fun _ => Act.device_extra _) _
  · exact .guard (Act.device_extra _)
  · exact .map (fun _ => Act.device_event rfl) _

theorem cacheChoices_device (s : State) (lane : Nat) : Devices (cacheChoices s lane) := by
  unfold cacheChoices
  refine .append (.append (.append (.append (.append (.append (.toList fun a ha => ?_) (.one (Act.device_extra _))) ?_) ?_) ?_) ?_) ?_
  · obtain ⟨e, -, rfl⟩ := Option.map_eq_some_iff.1 ha
    exact Act.device_extra _
  · exact .flatMap (fun _ => .map (fun _ => Act.device_extra _) _) _
  · exact .map (fun _ => Act.device_extra _) _
  · exact .map (fun _ => Act.device_extra _) _
  · exact .map (fun _ => Act.device_extra _) _
  · exact .flatMap (fun _ => .cons (Act.device_extra _) (.guard (Act.device_extra _))) _

theorem choices_device (s : State) : Devices (choices s) := by
  unfold choices
  refine .append (.append (.append (.append (.append ?_ ?_) ?_) ?_) ?_) ?_
  · exact .flatMap (fun _ => groupChoices_device _ _ _ _) _
  · exact .flatMap (fun _ => coreChoices_device _ _) _
  · exact .flatMap (fun _ => gridChoices_device _ _ _) _
  · exact .flatMap (fun _ => ctxChoices_device _ _ _) _
  · exact baseChoices_device _ _
  · exact cacheChoices_device _ _

theorem slowChoices_device (s : State) (g : Nat) (x : Group) : Devices (slowChoices s g x) := by
  unfold slowChoices
  refine .append (.flatMap (fun e => ?_) _) (.guard (Act.device_event rfl))
  split
  · exact .guard (Act.device_issue _ _)
  · exact .nil

theorem turnChoices_device (s : State) : Devices (turnChoices s) := by
  unfold turnChoices
  refine .flatMap (fun e => .filterMap (fun k a h => ?_) _) _
  split at h
  · cases h; exact Act.device_event rfl
  · cases h

theorem issueChoices_device (s : State) : Devices (issueChoices s) := by
  unfold issueChoices
  refine .flatMap (fun e => .ite .nil (.filterMap (fun p a h => ?_) _)) _
  obtain ⟨q, -, rfl⟩ := Option.map_eq_some_iff.1 h
  exact Act.device_issue _ _

theorem groupLimits_device (s : State) (g : Nat) (x : Group) : Devices (groupLimits s g x) := by
  unfold groupLimits
  refine .append (.append (.flatMap (fun e => ?_) _) ?_) (.flatMap (fun _ => dogChoices_device _ _ _ _) _)
  · split
    · exact endChoices_device _ _ _ _ _
    · exact .nil
  · split
    · exact .guard (Act.device_event rfl)
    · exact .nil

theorem coreLimits_device (s : State) (k : Nat) (c : Core) : Devices (coreLimits s k c) :=
  .append (.guard (Act.device_event rfl)) (.map (fun _ => Act.device_event rfl) _)

theorem leaveLimits_device (s : State) (k : Nat) (d : Die) : Devices (leaveLimits s k d) := by
  unfold leaveLimits
  split
  · exact .nil
  · exact .guard (Act.device_event rfl)

theorem dieLimits_device (s : State) (k : Nat) (d : Die) : Devices (dieLimits s k d) :=
  .append (.append (.append (.guard (Act.device_event rfl)) (.guard (Act.device_event rfl))) (.guard (Act.device_event rfl))) (leaveLimits_device _ _ _)

theorem limits_device (s : State) : Devices (limits s) := by
  unfold limits
  refine .append (.append (.append (.append (.append ?_ ?_) ?_) ?_) ?_) ?_
  · exact .flatMap (fun _ => groupLimits_device _ _ _) _
  · exact .flatMap (fun _ => coreLimits_device _ _ _) _
  · exact .flatMap (fun _ => dieLimits_device _ _ _) _
  · exact .flatMap (fun _ => .flatMap (fun _ => .guard (Act.device_event rfl)) _) _
  · exact .flatMap (fun _ => .flatMap (fun _ => .guard (Act.device_extra _)) _) _
  · exact .map (fun _ => Act.device_event rfl) _

theorem forced_device (s : State) : Devices (forced s) :=
  .append (.append (.append (turnChoices_device s) (issueChoices_device s)) (limits_device s)) (.flatMap (fun _ => slowChoices_device _ _ _) _)

/-! ### Issues and steps -/

/-- The state prepared for a word issues that word. -/
theorem prepare_cur (s : State) (g slot : Nat) (sp : Split) (c : Clause) (n : NextWord) : ∃ k, (prepare s g slot sp c n).cur = some k ∧
    k.gid = g ∧ k.slot = slot ∧ k.pc = n.pc ∧ k.hdr = sp.hdr ∧ k.next = n.next ∧ k.nextHdr = n.nextHdr ∧ k.word = n.word :=
  ⟨_, State.updGrp_cur _ _ _, rfl, rfl, rfl, rfl, rfl, rfl, rfl⟩

theorem runWord_next (s : State) (g slot : Nat) (sp : Split) (c : Clause) (n : NextWord) : ∃ t, runWord s g slot sp c n = .next t := by
  unfold runWord
  dsimp only
  split
  · exact ⟨_, rfl⟩
  · split
    · rename_i i _
      obtain ⟨k, hk, -⟩ := prepare_cur (meetErrors (clearWay (seeHeader s g sp c) g n) g slot sp c n) g slot sp c n
      obtain ⟨t, ht⟩ := exec_next_of_issuer i _ k hk
      exact ⟨_, by rw [runInstr, ht]⟩
    · exact ⟨_, rfl⟩

theorem issueAt_next (s : State) (g slot : Nat) : ∃ t, issueAt s g slot = .next t := by
  unfold issueAt
  dsimp only
  split
  · exact ⟨_, rfl⟩
  · split
    · exact ⟨_, rfl⟩
    · unfold issueFetched
      split
      · exact ⟨_, rfl⟩
      · split
        · exact ⟨_, rfl⟩
        · exact runWord_next ..

/-- A happening that is no program form has a next state. -/
theorem happen_next (a : Act) (s : State) (h : a.Device) : ∃ t, happen a s = .next t := by
  cases a with
  | event i =>
    obtain ht | ⟨-, -, hi⟩ := exec_cases i (beforeEvent i (promote s))
    · exact ht
    · rw [h i rfl] at hi; cases hi
  | issue g slot => exact issueAt_next ..
  | extra e => exact ⟨_, rfl⟩

/-- A happening that has come to a next state stands, unless it has to wait (R165, R201). -/
theorem orWait_of_next (a : Act) (s t : State) (later : State → State) :
    orWait a s later (.next t) = if t.blocked = [] then .next t else .next (later (holdBack a s t.blocked)) := by
  unfold orWait
  simp only [List.isEmpty_iff]

theorem orWait_next (a : Act) (s t : State) (later : State → State) : ∃ u, orWait a s later (.next t) = .next u := by
  rw [orWait_of_next]
  split <;> exact ⟨_, rfl⟩

theorem ownStep_next (s : State) : ∃ t, ownStep s = .next t := by
  unfold ownStep
  dsimp only
  split
  · rename_i a e
    have ha : a.Device := by
      obtain hm | hm := List.mem_append.1 (List.mem_of_getElem? e)
      · obtain ⟨b, hb, hab⟩ := List.mem_map.1 hm
        cases hab
        exact Devices.ite (choices_device s) .nil a hb
      · split at hm
        · simp at hm
        · obtain ⟨b, hb, hab⟩ := List.mem_map.1 hm
          cases hab
          exact forced_device s a hb
    obtain ⟨t, ht⟩ := happen_next a { s with draws := s.draws + 1, acts := s.acts + 1 } ha
    rw [ht]
    exact orWait_next ..
  · exact ⟨_, rfl⟩

/-- The head of the agenda happens once it is due. -/
theorem step_due {s : State} {d : Due} {rest : List Due} (h : s.agenda = d :: rest) (hd : d.at_ ≤ s.time) :
    step s = orWait d.act { s with agenda := rest } (fun u => { u with agenda := insertDue u.agenda { d with at_ := s.time + 10 } })
      (happen d.act { s with agenda := rest }) := by
  unfold step stepState
  rw [h]
  simp only [hd, if_true]

/-- With no input due, the machine goes on by itself. -/
theorem step_idle {s : State} (h : ¬∃ d rest, s.agenda = d :: rest ∧ d.at_ ≤ s.time) : step s = ownStep s := by
  unfold step stepState
  split
  · rfl
  · rename_i d rest e
    rw [if_neg fun hd => h ⟨d, rest, e, hd⟩]

/-- A step whose due input is no program form has a next state. -/
theorem step_next (s : State) (h : ∀ d ∈ s.agenda, d.act.Device) : ∃ t, step s = .next t := by
  by_cases hd : ∃ d rest, s.agenda = d :: rest ∧ d.at_ ≤ s.time
  · obtain ⟨d, rest, e, hd⟩ := hd
    obtain ⟨t, ht⟩ := happen_next d.act { s with agenda := rest } (h d (by rw [e]; exact List.mem_cons_self ..))
    rw [step_due e hd, ht]
    exact orWait_next ..
  · rw [step_idle hd]
    exact ownStep_next s

/-- Settles O58: no arm refuses, a word without an issuer is the one fault, and a step brings about device steps and issues only. -/
theorem stepsGoOn : Obligations.StepsGoOn := by
  refine ⟨fun i s r h => ?_, fun i s h => ?_, fun i s f h => ?_, fun s h => step_next s h⟩
  · obtain ⟨t, ht⟩ | ⟨hf, -, -⟩ := exec_cases i s <;> simp_all
  · obtain ht | ⟨-, hn, he⟩ := exec_cases i s
    · exact ht
    · simp [hn, Option.isSome_iff_ne_none.1 he] at h
  · obtain ⟨t, ht⟩ | ⟨hf, hn, he⟩ := exec_cases i s
    · rw [ht] at h; cases h
    · rw [hf] at h; cases h; exact ⟨rfl, hn, he⟩

theorem orWait_clear (a : Act) (s : State) (later : State → State) (o : Out) (h : ∀ t, o = .next t → t.blocked = []) : orWait a s later o = o := by
  cases o with
  | next t => rw [orWait_of_next, if_pos (h t rfl)]
  | fault f => rfl
  | refused r => rfl

/-- A split that is selected, and passes the checker of R82, runs the instruction of its next word, and the word is concluded (R71, R97). -/
theorem issueAt_word (s : State) (g slot : Nat) (sp : Split) (c : Clause) (n : NextWord) (i : Instr) (t : State)
    (hsp : ((fetchClause s g slot).grp g).split slot = some sp) (hc : sp.clause = some c) (hsel : selected (fetchClause s g slot) g slot = true)
    (hn : nextWord sp c = some n) (hi : decodeWord n.cls n.word n.x = some i)
    (hchk : stallFound (prepare (clearWay (seeHeader (fetchClause s g slot) g sp c) g n) g slot sp c n) sp n = none)
    (ht : exec i (prepare (meetErrors (clearWay (seeHeader (fetchClause s g slot) g sp c) g n) g slot sp c n) g slot sp c n) = .next t) :
    issueAt s g slot = .next (conclude (meetErrors (clearWay (seeHeader (fetchClause s g slot) g sp c) g n) g slot sp c n) t g slot sp c n) := by
  simp only [issueAt, hsp, hc, issueFetched, hsel, hn, runWord, hchk, hi, runInstr, ht, Bool.not_true, Bool.false_eq_true, if_false]

/-- Settles O57: the head of the agenda happens, and what it comes to stands unless it has to wait. -/
theorem stepRunsIssuedWord : Obligations.StepRunsIssuedWord := by
  intro s d rest hs hd
  rw [step_due hs hd]
  refine ⟨fun i hi => ?_, fun e he => ?_, fun g slot ha sp c n i hsp hc hsel hn hi hchk => ?_⟩
  · rw [hi]
    refine ⟨fun h => orWait_clear _ _ _ _ h, fun u hu hb => ?_⟩
    rw [show happen (.event i) { s with agenda := rest } = .next u from hu, orWait_of_next, if_neg hb]
  · rw [he]
    exact orWait_of_next _ _ _ _
  · obtain ⟨k, hk⟩ := prepare_cur (meetErrors (clearWay (seeHeader (fetchClause (promote { s with agenda := rest }) g slot) g sp c) g n) g slot sp c n) g slot sp c n
    obtain ⟨t, ht⟩ := exec_next_of_issuer i _ k hk.1
    refine ⟨⟨k, hk⟩, t, ht, ?_⟩
    rw [ha, show happen (.issue g slot) { s with agenda := rest } = _ from issueAt_word _ g slot sp c n i t hsp hc hsel hn hi hchk ht]
    exact orWait_of_next _ _ _ _

theorem nearest_nil (k f v : Nat) : nearest [] k f v = none := by
  cases f <;> simp [nearest]

theorem ofBytes_replicate_zero (n : Nat) : ofBytes (List.replicate n 0) = 0 := by
  induction n with
  | zero => rfl
  | succ n ih => rw [List.replicate_succ, ofBytes, ih]; rfl

theorem cellsAt_nil (base n : Nat) : cellsAt [] base n = 0 := by
  simpa [cellsAt, Map.get] using ofBytes_replicate_zero n

/-- Settles O59: the reset state lists nothing, so a sector is the root's, and the root's bytes read zero. -/
theorem resetState : Obligations.ResetState := by
  refine ⟨rfl, rfl, rfl, rfl, rfl, rfl, rfl, fun v k => ?_, rfl, reset_wf⟩
  have h : State.reset.devSector v k = State.reset.rootSector k := by
    unfold State.devSector
    rw [show State.reset.views = [] from rfl, nearest_nil]
  rw [h]
  unfold State.rootSector
  rw [show State.reset.looseAt k = none from rfl]
  exact congrArg₂ Sector.mk (cellsAt_nil _ _) rfl

end Sys2Proof.Machine
end

section
/-! PROOFS. The root of device memory: what a write of a sector leaves in it and in every other, and which operations leave all memory alone
(R183, R198, R237). -/
namespace Sys2Proof.Machine

/-! ### Numbers as bytes -/

theorem bits_eq (x lo n : Nat) : bits x lo n = x / 2 ^ lo % 2 ^ n := by rw [bits, Nat.shiftRight_eq_div_pow]

/-- The low bytes of a number, put together again. -/
theorem ofBytes_bits (n x : Nat) : ofBytes ((List.range n).map (fun i => BitVec.ofNat 8 (bits x (8 * i) 8))) = x % 2 ^ (8 * n) := by
  induction n generalizing x with
  | zero => simp [ofBytes, Nat.mod_one]
  | succ n ih =>
    have h : ∀ i, BitVec.ofNat 8 (bits x (8 * (i + 1)) 8) = BitVec.ofNat 8 (bits (x / 256) (8 * i) 8) := fun i => by
      rw [bits_eq, bits_eq, Nat.div_div_eq_div_mul, show (256 : Nat) = 2 ^ 8 by rfl, ← pow_add, show 8 * (i + 1) = 8 + 8 * i by omega]
    rw [List.range_succ_eq_map, List.map_cons, List.map_map, ofBytes]
    simp only [Function.comp_def, Nat.succ_eq_add_one, h, ih]
    rw [show 8 * (n + 1) = 8 + 8 * n by omega, pow_add, Nat.mod_mul]
    simp [bits_eq]

theorem ofBytes_lt (bs : List Byte) : ofBytes bs < 2 ^ (8 * bs.length) := by
  induction bs with
  | nil => simp [ofBytes]
  | cons b bs ih =>
    have := b.isLt
    rw [ofBytes, List.length_cons, show 8 * (bs.length + 1) = 8 + 8 * bs.length by omega, pow_add]
    omega

theorem cellsAt_lt (m : List Host.Cell) (base n : Nat) : cellsAt m base n < 2 ^ (8 * n) := by
  unfold cellsAt
  simpa using ofBytes_lt ((List.range n).map (fun i => Map.get Memory.unlisted m (base + i)))

/-! ### Sectors -/

/-- A byte put into a number of 32 bytes. -/
theorem patchByte_lt (d i : Nat) (b : Byte) (hd : d < 2 ^ 256) (hi : i < 32) :
    d - bits d (8 * i) 8 * 2 ^ (8 * i) + b.toNat * 2 ^ (8 * i) < 2 ^ 256 := by
  have hb := b.isLt
  have hp : 2 ^ (8 * i) * 2 ^ 8 * 2 ^ (8 * (31 - i)) = 2 ^ 256 := by
    rw [← pow_add, ← pow_add]; congr 1; omega
  have h1 := Nat.div_add_mod d (2 ^ (8 * i))
  have h2 := Nat.div_add_mod (d / 2 ^ (8 * i)) (2 ^ 8)
  have h3 : d % 2 ^ (8 * i) < 2 ^ (8 * i) := Nat.mod_lt _ (by positivity)
  have h4 : d / 2 ^ (8 * i) / 2 ^ 8 < 2 ^ (8 * (31 - i)) := by
    rw [Nat.div_div_eq_div_mul]
    exact Nat.div_lt_of_lt_mul (by rw [hp]; exact hd)
  rw [bits_eq]
  generalize 2 ^ (8 * i) = p at *
  generalize 2 ^ (8 * (31 - i)) = q at *
  generalize d / p / 2 ^ 8 = hi' at *
  generalize d / p % 2 ^ 8 = byte at *
  generalize d % p = lo at *
  have e : d = p * 2 ^ 8 * hi' + byte * p + lo := by rw [← h1, ← h2]; ring
  have : p * 2 ^ 8 * (hi' + 1) ≤ 2 ^ 256 := by rw [← hp]; exact Nat.mul_le_mul_left _ h4
  have h5 : b.toNat * p ≤ 255 * p := Nat.mul_le_mul_right _ (by omega)
  rw [e, show p * 2 ^ 8 * hi' + byte * p + lo - byte * p = p * 2 ^ 8 * hi' + lo by omega]
  have h6 : p * 2 ^ 8 * (hi' + 1) = p * 2 ^ 8 * hi' + p * 256 := by ring
  omega

theorem patch_lt (bs : List (Nat × Byte)) (h : ∀ b ∈ bs, b.1 < 32) (d : Nat) (hd : d < 2 ^ 256) : patch d bs < 2 ^ 256 := by
  induction bs generalizing d with
  | nil => exact hd
  | cons b bs ih =>
    exact ih (fun c hc => h c (List.mem_cons_of_mem _ hc)) _ (patchByte_lt d b.1 b.2 hd (h b (List.mem_cons_self ..)))

/-- A token in each of `n` words. -/
theorem tokens_lt (t : Word) (n : Nat) : (List.range n).foldl (fun a k => a + t.toNat * 2 ^ (32 * k)) 0 < 2 ^ (32 * n) := by
  induction n with
  | zero => simp
  | succ n ih =>
    have ht := t.isLt
    rw [List.range_succ, List.foldl_append, show 32 * (n + 1) = 32 * n + 32 by omega, pow_add]
    simp only [List.foldl_cons, List.foldl_nil]
    have : (t.toNat + 1) * 2 ^ (32 * n) ≤ 2 ^ 32 * 2 ^ (32 * n) := Nat.mul_le_mul_right _ ht
    rw [Nat.add_mul] at this
    omega

theorem tokenFill_lt (t : Word) : tokenFill t < 2 ^ 256 := tokens_lt t 8

/-- A sector that is written into stays one of 32 bytes. -/
theorem Sector.write_lt (x : Sector) (bs : List (Nat × Byte)) (token : Option Word) (h : ∀ b ∈ bs, b.1 < 32) (hx : x.data < 2 ^ 256) :
    (x.write bs token).data < 2 ^ 256 := by
  unfold Sector.write
  split
  · exact tokenFill_lt _
  · dsimp only
    split
    · split
      · exact patch_lt bs h 0 (by norm_num)
      · exact tokenFill_lt _
    · exact patch_lt bs h _ hx

theorem rootSector_lt (s : State) (k : Nat) : (s.rootSector k).data < 2 ^ 256 := by
  unfold State.rootSector
  split
  · exact Nat.mod_lt _ (by norm_num)
  · exact cellsAt_lt s.mem (32 * k) 32

/-- Without errors an agent of the base reads the root's sector (R252). -/
theorem NoErrors.latent {s : State} (h : NoErrors s) (k : Nat) : s.latent k = false := by
  simp [State.latent, h.l2, h.unstruck, Map.has]

theorem NoErrors.baseSector {s : State} (h : NoErrors s) (k : Nat) : s.baseSector k = s.rootSector k := by
  simp [State.baseSector, h.latent k]

/-! ### What leaves the bytes of memory alone -/

/-- The bytes of both memories, with their poison, and those of the views, stand as they were. -/
structure BytesEq (s t : State) : Prop where
  mem : t.mem = s.mem
  poisoned : t.poisoned = s.poisoned
  loose : t.loose = s.loose
  views : t.views = s.views
  host : t.hostMem = s.hostMem

theorem BytesEq.refl (s : State) : BytesEq s s := ⟨rfl, rfl, rfl, rfl, rfl⟩
theorem BytesEq.trans {s t u : State} (a : BytesEq s t) (b : BytesEq t u) : BytesEq s u :=
  ⟨b.mem.trans a.mem, b.poisoned.trans a.poisoned, b.loose.trans a.loose, b.views.trans a.views, b.host.trans a.host⟩
theorem BytesEq.fold {α : Type} (f : State → α → State) (h : ∀ s x, BytesEq s (f s x)) (l : List α) : ∀ s, BytesEq s (l.foldl f s) := by
  induction l with
  | nil => intro s; exact .refl s
  | cons x l ih => intro s; exact (h s x).trans (ih _)
theorem BytesEq.ite {s t u : State} {p : Prop} [Decidable p] (a : BytesEq s t) (b : BytesEq s u) : BytesEq s (if p then t else u) := by
  split
  · exact a
  · exact b

theorem BytesEq.rootSector {s t : State} (h : BytesEq s t) (k : Nat) : t.rootSector k = s.rootSector k := by
  simp only [State.rootSector, State.looseAt, h.mem, h.poisoned, h.loose]

theorem BytesEq.memoryKept {s t : State} (h : BytesEq s t) : MemoryKept s t :=
  ⟨fun v k => by simp only [State.devSector, h.views, h.rootSector], fun a => by rw [h.host]⟩

theorem updGrp_bytes (s : State) (g : Nat) (f : Group → Group) : BytesEq s (s.updGrp g f) := ⟨by simp, by simp, by simp, by simp, by simp⟩
theorem updCtx_bytes (s : State) (c : Nat) (f : Ctx → Ctx) : BytesEq s (s.updCtx c f) := ⟨by simp, by simp, by simp, by simp, by simp⟩
theorem updGrid_bytes (s : State) (n : Nat) (f : Grid → Grid) : BytesEq s (s.updGrid n f) := ⟨by simp, by simp, by simp, by simp, by simp⟩
theorem updCore_bytes (s : State) (k : Nat) (f : Core → Core) : BytesEq s (s.updCore k f) := ⟨rfl, rfl, rfl, rfl, rfl⟩

/-! ### What the caches record -/

/-- Only what caches, engines of the base and snoops record has changed: no byte of memory, no message, no other part of the machine. -/
def CacheOnly (s t : State) : Prop :=
  t = { s with l2 := t.l2, dir := t.dir, filters := t.filters, l2bad := t.l2bad, stackBad := t.stackBad, hitch := t.hitch, spill := t.spill,
               landau := t.landau, groups := t.groups, cores := t.cores, invals := t.invals, blocked := t.blocked }

theorem CacheOnly.refl (s : State) : CacheOnly s s := rfl
theorem CacheOnly.trans {s t u : State} (a : CacheOnly s t) (b : CacheOnly t u) : CacheOnly s u := by
  unfold CacheOnly at *
  rw [b, a]
theorem CacheOnly.fold {α : Type} (f : State → α → State) (h : ∀ s x, CacheOnly s (f s x)) (l : List α) : ∀ s, CacheOnly s (l.foldl f s) := by
  induction l with
  | nil => intro s; exact .refl s
  | cons x l ih => intro s; exact (h s x).trans (ih _)
theorem CacheOnly.ite {s t u : State} {p : Prop} [Decidable p] (a : CacheOnly s t) (b : CacheOnly s u) : CacheOnly s (if p then t else u) := by
  split
  · exact a
  · exact b
/-- What any function of the state gives afterwards. -/
theorem CacheOnly.field {α : Type} {s t : State} (h : CacheOnly s t) (f : State → α) :
    f t = f { s with l2 := t.l2, dir := t.dir, filters := t.filters, l2bad := t.l2bad, stackBad := t.stackBad, hitch := t.hitch, spill := t.spill,
                     landau := t.landau, groups := t.groups, cores := t.cores, invals := t.invals, blocked := t.blocked } := by
  unfold CacheOnly at h
  exact congrArg f h
theorem CacheOnly.bytes {s t : State} (h : CacheOnly s t) : BytesEq s t :=
  ⟨h.field State.mem, h.field State.poisoned, h.field State.loose, h.field State.views, h.field State.hostMem⟩

theorem block_cacheOnly (s : State) (ds : List Nat) (line : Nat) : CacheOnly s (s.block ds line) := .ite (.refl s) rfl
theorem l1Inval_cacheOnly (s : State) (sec : Nat) (p : Nat → Bool) : CacheOnly s (s.l1Inval sec p) := by
  unfold State.l1Inval
  exact (block_cacheOnly s _ _).trans rfl
theorem syncDir_cacheOnly (s : State) (line : Nat) : CacheOnly s (s.syncDir line) := rfl
theorem dropErrors_cacheOnly (s : State) (sec : Nat) : CacheOnly s (s.dropErrors sec) := rfl
theorem l2Drop_cacheOnly (s : State) (region line : Nat) : CacheOnly s (s.l2Drop region line) := by
  unfold State.l2Drop
  refine .ite (.refl s) ?_
  refine .trans ?_ (((l1Inval_cacheOnly _ (2 * line) _).trans (l1Inval_cacheOnly _ (2 * line + 1) _)).trans (syncDir_cacheOnly _ line))
  exact rfl
theorem l2DropAll_cacheOnly (s : State) (line : Nat) : CacheOnly s (s.l2DropAll line) := .fold _ (fun s _ => l2Drop_cacheOnly s _ _) _ s
theorem dropCopies_cacheOnly (s : State) (sec : Nat) : CacheOnly s (s.dropCopies sec) := by
  unfold State.dropCopies
  refine .ite ((dropErrors_cacheOnly s sec).trans (l1Inval_cacheOnly _ _ _)) ?_
  refine .trans ?_ ((l1Inval_cacheOnly _ _ _).trans (syncDir_cacheOnly _ _))
  refine (dropErrors_cacheOnly s sec).trans ?_
  apply CacheOnly.fold
  exact fun s h => rfl
theorem snoop_cacheOnly (s : State) (line : Nat) : CacheOnly s (snoop s line) := by
  unfold snoop
  exact .ite ((block_cacheOnly s _ _).trans rfl) ((block_cacheOnly s _ _).trans rfl)
theorem spillLine_cacheOnly (s : State) (region line : Nat) (landau : Bool) : CacheOnly s (spillLine s region line landau) := rfl
theorem hitchTouch_cacheOnly (s : State) (line : Nat) : CacheOnly s (hitchTouch s line) := by
  unfold hitchTouch
  simp only
  refine (l2DropAll_cacheOnly s line).trans (.ite rfl ?_)
  split
  · refine CacheOnly.trans ?_ (spillLine_cacheOnly _ _ _ _)
    exact rfl
  · exact rfl
theorem passLine_cacheOnly (s : State) (line : Nat) : CacheOnly s (s.passLine line) := by
  unfold State.passLine
  exact .ite rfl (.refl s)

/-! #### No errors arise in the caches -/

theorem NoErrors.fold {α : Type} (f : State → α → State) (h : ∀ s x, NoErrors s → NoErrors (f s x)) (l : List α) : ∀ s, NoErrors s → NoErrors (l.foldl f s) := by
  induction l with
  | nil => exact fun s hs => hs
  | cons x l ih => exact fun s hs => ih _ (h s x hs)

theorem NoErrors.l1Inval {s : State} (h : NoErrors s) (sec : Nat) (p : Nat → Bool) : NoErrors (s.l1Inval sec p) := by
  unfold State.l1Inval State.block
  dsimp only
  split <;> exact ⟨h.l2, h.unstruck⟩

theorem NoErrors.syncDir {s : State} (h : NoErrors s) (line : Nat) : NoErrors (s.syncDir line) := ⟨h.l2, h.unstruck⟩

/-- A line that leaves an L2 without errors takes none to its stack (R252). -/
theorem NoErrors.l2Drop {s : State} (h : NoErrors s) (region line : Nat) : NoErrors (s.l2Drop region line) := by
  unfold State.l2Drop
  split
  · exact h
  · dsimp only
    have hb : ∀ k, s.dirtyBad region k = false := fun k => by simp [State.dirtyBad, h.l2, Map.get]
    have h0 : NoErrors { s with l2 := Map.del s.l2 (inRegion line region)
                                stackBad := ([2 * line, 2 * line + 1].filter (fun k => s.dirtyBad region k)).foldl (fun m k => Map.put m k true) s.stackBad
                                l2bad := s.l2bad.filter (fun e => !(e.1 % 8 == region && lineOf (e.1 / 8) == line)) } :=
      ⟨by simp [h.l2], by simp [hb, h.unstruck]⟩
    exact ((h0.l1Inval _ _).l1Inval _ _).syncDir _

theorem NoErrors.hitchTouch {s : State} (h : NoErrors s) (line : Nat) : NoErrors (hitchTouch s line) := by
  have h0 : NoErrors (s.l2DropAll line) := .fold _ (fun s _ hs => hs.l2Drop _ _) _ s h
  unfold Machine.hitchTouch
  generalize s.l2DropAll line = t at h0 ⊢
  simp only
  split
  · exact ⟨h0.l2, h0.unstruck⟩
  · split
    · exact ⟨h0.l2, h0.unstruck⟩
    · exact ⟨h0.l2, h0.unstruck⟩

theorem NoErrors.passLine {s : State} (h : NoErrors s) (line : Nat) : NoErrors (s.passLine line) := by
  unfold State.passLine
  dsimp only
  split
  · exact ⟨h.l2, h.unstruck⟩
  · exact h

/-! ### Writes of the root -/

/-- The cells of a sector after they have been set whole. -/
theorem cellsAt_setCells_self (m : List Host.Cell) (k x : Nat) (hx : x < 2 ^ 256) :
    cellsAt (setCells m (32 * k) ((List.range 32).map (fun i => (i, BitVec.ofNat 8 (bits x (8 * i) 8))))) (32 * k) 32 = x := by
  have hd : ((List.range 32).map (fun i => (i, BitVec.ofNat 8 (bits x (8 * i) 8)))).Pairwise (fun a b => a.1 ≠ b.1) := by
    rw [List.pairwise_map]
    exact List.nodup_range
  refine Eq.trans ?_ ((ofBytes_bits 32 x).trans (Nat.mod_eq_of_lt hx))
  unfold cellsAt
  refine congrArg ofBytes (List.map_congr_left fun i hi => ?_)
  exact setCells_self m (32 * k) _ (i, BitVec.ofNat 8 (bits x (8 * i) 8)) (List.mem_map.2 ⟨i, hi, rfl⟩) hd

theorem cellsAt_setCells_ne (m : List Host.Cell) {k j : Nat} (x : Nat) (h : j ≠ k) :
    cellsAt (setCells m (32 * k) ((List.range 32).map (fun i => (i, BitVec.ofNat 8 (bits x (8 * i) 8))))) (32 * j) 32 = cellsAt m (32 * j) 32 := by
  unfold cellsAt
  congr 1
  refine List.map_congr_left fun i hi => setCells_other _ _ _ _ fun b hb e => ?_
  obtain ⟨n, hn, rfl⟩ := List.mem_map.1 hb
  have := List.mem_range.1 hi
  have := List.mem_range.1 hn
  dsimp only at e
  omega

/-- A sector that is set whole stands no longer in an area whose bytes are arbitrary (R340). -/
theorem looseAt_putRoot (s : State) (k j : Nat) (x : Sector) : (s.putRoot k x).looseAt j = if j = k then none else s.looseAt j := by
  unfold State.looseAt State.putRoot
  dsimp only
  by_cases hf : j / 128 = k / 128
  · cases e : Map.find s.loose (k / 128) with
    | none => simp [hf, e]
    | some p =>
      obtain ⟨n, m⟩ := p
      have hj : j % 128 < 128 := Nat.mod_lt _ (by norm_num)
      have hk : k % 128 < 128 := Nat.mod_lt _ (by norm_num)
      have ht : (BitVec.ofNat 128 (2 ^ (k % 128))).getLsbD (j % 128) = decide (j = k) := by
        rw [BitVec.getLsbD_ofNat, Nat.testBit_two_pow]
        have : k % 128 = j % 128 ↔ j = k := by omega
        simp [hj, this]
      simp only [hf, Map.find_put_self, e, BitVec.getLsbD_and, BitVec.getLsbD_not, hj, ht]
      by_cases hjk : j = k <;> simp [hjk]
  · have hjk : j ≠ k := fun e => hf (by rw [e])
    cases e : Map.find s.loose (k / 128) with
    | none => simp [hjk]
    | some p => simp [hjk, Map.find_put_ne _ _ hf]

theorem rootSector_putRoot (s : State) (k j : Nat) (x : Sector) (hx : x.data < 2 ^ 256) :
    (s.putRoot k x).rootSector j = if j = k then x else s.rootSector j := by
  unfold State.rootSector
  rw [looseAt_putRoot]
  by_cases hjk : j = k
  · subst hjk
    obtain ⟨d, t⟩ := x
    cases t <;> simp [State.putRoot, cellsAt_setCells_self _ _ _ hx]
  · have hp : Map.find (s.putRoot k x).poisoned j = Map.find s.poisoned j := by
      unfold State.putRoot
      dsimp only
      split
      · exact Map.find_put_ne _ _ hjk
      · exact Map.find_del_ne _ hjk
    have hm : cellsAt (s.putRoot k x).mem (32 * j) 32 = cellsAt s.mem (32 * j) 32 := cellsAt_setCells_ne s.mem x.data hjk
    simp only [hjk, if_false, hp, hm]

/-- A write of the root leaves the sector as R237 says, and every other sector as it was. -/
theorem rootSector_writeRoot {s : State} (h : NoErrors s) (k j : Nat) (bs : List (Nat × Byte)) (token : Option Word) (hb : ∀ b ∈ bs, b.1 < 32) :
    (s.writeRoot k bs token).rootSector j = if j = k then (s.rootSector k).write bs token else s.rootSector j := by
  unfold State.writeRoot
  rw [(snoop_cacheOnly _ _).bytes.rootSector, (dropCopies_cacheOnly _ _).bytes.rootSector, h.baseSector,
    rootSector_putRoot _ _ _ _ (Sector.write_lt _ _ _ hb (rootSector_lt s k))]

/-- Only device memory has changed, and what caches, engines of the base and snoops record. -/
def StoreOnly (s t : State) : Prop :=
  t = { s with mem := t.mem, poisoned := t.poisoned, loose := t.loose, l2 := t.l2, dir := t.dir, filters := t.filters, l2bad := t.l2bad,
               stackBad := t.stackBad, hitch := t.hitch, spill := t.spill, landau := t.landau, groups := t.groups, cores := t.cores,
               invals := t.invals, blocked := t.blocked }

theorem StoreOnly.trans {s t u : State} (a : StoreOnly s t) (b : StoreOnly t u) : StoreOnly s u := by
  unfold StoreOnly at *
  rw [b, a]

/-- What any function of the state gives afterwards. -/
theorem StoreOnly.field {α : Type} {s t : State} (h : StoreOnly s t) (f : State → α) :
    f t = f { s with mem := t.mem, poisoned := t.poisoned, loose := t.loose, l2 := t.l2, dir := t.dir, filters := t.filters, l2bad := t.l2bad,
                     stackBad := t.stackBad, hitch := t.hitch, spill := t.spill, landau := t.landau, groups := t.groups, cores := t.cores,
                     invals := t.invals, blocked := t.blocked } := by
  unfold StoreOnly at h
  exact congrArg f h

theorem CacheOnly.storeOnly {s t : State} (h : CacheOnly s t) : StoreOnly s t := by
  unfold CacheOnly at h
  unfold StoreOnly
  rw [h]

theorem putRoot_storeOnly (s : State) (k : Nat) (x : Sector) : StoreOnly s (s.putRoot k x) := rfl

/-- Beside the sector itself, a write of the root changes what the caches record (R199). -/
theorem writeRoot_storeOnly (s : State) (k : Nat) (bs : List (Nat × Byte)) (token : Option Word) : StoreOnly s (s.writeRoot k bs token) :=
  (putRoot_storeOnly s k _).trans ((dropCopies_cacheOnly _ _).trans (snoop_cacheOnly _ _)).storeOnly

/-- The line that an operation is served on, taken by an engine of the base (R288, R290). -/
theorem touch_cacheOnly (s : State) (line : Nat) : CacheOnly s (hitchTouch (s.passLine line) line) :=
  (passLine_cacheOnly s line).trans (hitchTouch_cacheOnly _ line)

/-! ### Accesses of an agent of the base to one sector -/

theorem eraseDups_replicate {α : Type} [BEq α] [LawfulBEq α] (a : α) (n : Nat) : (List.replicate (n + 1) a).eraseDups = [a] := by
  rw [List.replicate_succ, List.eraseDups_cons]
  simp

/-- Bytes that fall in one sector. -/
theorem bySector_one (d : Nat) (bs : List (Nat × Byte)) (hne : bs ≠ []) (h : ∀ b ∈ bs, b.1 < 32) : bySector (32 * d) bs = [(d, bs)] := by
  have hd : ∀ b ∈ bs, (32 * d + b.1) / 32 = d := fun b hb => by have := h b hb; omega
  have hm : ∀ b ∈ bs, ((32 * d + b.1) % 32, b.2) = b := fun b hb => by have := h b hb; ext <;> simp; omega
  have hk : bs.map (fun b => (32 * d + b.1) / 32) = List.replicate (bs.length - 1 + 1) d := by
    rw [Nat.sub_add_cancel (List.length_pos_iff.2 hne), List.map_congr_left hd, List.map_const']
  have hf : bs.filter (fun b => (32 * d + b.1) / 32 == d) = bs := List.filter_eq_self.2 fun b hb => by simp [hd b hb]
  unfold bySector
  simp only [List.map_map, Function.comp_def, hk, eraseDups_replicate, List.map_cons, List.map_nil, List.filter_map, hf]
  rw [List.map_congr_left hm, List.map_id']

/-- The bytes of a number, as a write of them names them. -/
theorem plainBytes_bytesAt (n v : Nat) : plainBytes (bytesAt 0 n v 0) = (List.range n).map (fun i => (i, BitVec.ofNat 8 (v / 2 ^ (8 * i)))) := by
  simp [plainBytes, bytesAt]

theorem bytesAt_lt (n v : Nat) (hn : n ≤ 32) : ∀ b ∈ plainBytes (bytesAt 0 n v 0), b.1 < 32 := by
  rw [plainBytes_bytesAt]
  intro b hb
  obtain ⟨i, hi, rfl⟩ := List.mem_map.1 hb
  exact Nat.lt_of_lt_of_le (List.mem_range.1 hi) hn

theorem inSectors_one (d n v : Nat) (h0 : 0 < n) (hn : n ≤ 32) : inSectors (32 * d) n v = [(d, plainBytes (bytesAt 0 n v 0))] := by
  unfold inSectors
  rw [← plainBytes_bytesAt]
  refine bySector_one d _ ?_ (bytesAt_lt n v hn)
  rw [plainBytes_bytesAt]
  simp; omega

/-- A write of a sector's first bytes (R358). -/
theorem inWrite_one (s : State) (d n v : Nat) (token : Option Word) (h0 : 0 < n) (hn : n ≤ 32) :
    inWrite s (32 * d) n v token = s.writeRoot d (plainBytes (bytesAt 0 n v 0)) token := by
  rw [inWrite, inSectors_one d n v h0 hn]
  rfl

/-- A read of a sector's first bytes: the token of a poisoned sector, or its data (R237). -/
theorem inRead_one {s : State} (h : NoErrors s) (d n : Nat) (h0 : 0 < n) (hn : n ≤ 32) :
    inRead s (32 * d) n = match (s.rootSector d).token with
      | some t => .tok t
      | none => .val ((s.rootSector d).data % 2 ^ (8 * n)) := by
  rw [inRead, inSectors_one d n 0 h0 hn]
  simp only [List.findSome?_cons, List.findSome?_nil, List.foldr, h.baseSector]
  cases (s.rootSector d).token with
  | some t => rfl
  | none => simp [bits_eq]

/-- A read-modify-write of the first bytes of a clean sector: the old value, and the sector with the new one (R215, R288). -/
theorem inAtomic_one {s : State} (h : NoErrors s) {d n aop x x2 r : Nat} (h0 : 0 < n) (hn : n ≤ 32) (ht : (s.rootSector d).token = none)
    (ha : atomicOp aop n ((s.rootSector d).data % 2 ^ (8 * n)) x x2 = some r) :
    inAtomic s (32 * d) n aop x x2 none = ((hitchTouch (s.passLine (32 * d / 64)) (32 * d / 64)).writeRoot d (plainBytes (bytesAt 0 n r 0)) none,
      .val ((s.rootSector d).data % 2 ^ (8 * n))) := by
  simp only [inAtomic, inRead_one h d n h0 hn, ht, ha, inWrite_one _ _ _ _ _ h0 hn]

/-- What a sector holds after an engine of the base has taken its line and written it. -/
theorem rootSector_touch_writeRoot {s : State} (h : NoErrors s) (line d j : Nat) (bs : List (Nat × Byte)) (hb : ∀ b ∈ bs, b.1 < 32) :
    ((hitchTouch (s.passLine line) line).writeRoot d bs none).rootSector j = if j = d then (s.rootSector d).write bs none else s.rootSector j := by
  have hc := touch_cacheOnly s line
  rw [rootSector_writeRoot ((h.passLine line).hitchTouch line) d j bs none hb, hc.bytes.rootSector, hc.bytes.rootSector]

end Sys2Proof.Machine
end

section
/-! PROOFS. What a host reaches: queue registers, signal windows and the memory aperture (R35 to R38, R48, R49, R261). -/
namespace Sys2Proof.Machine

/-! ### Requests that arrive -/

/-- The context `c` is live, and its function reaches the package. -/
structure Reached (s : State) (c : Nat) (k : Ctx) : Prop where
  find : Map.find s.ctxs c = some k
  live : k.isOver = false
  reached : s.reached k.fn = true

theorem reached_phase {s : State} {fn : Nat} (h : s.reached fn = true) : s.phase = 0 := by
  simp only [State.reached, Bool.and_eq_true, beq_iff_eq] at h
  exact h.1

theorem Reached.hostCtx {s : State} {c : Nat} {k : Ctx} (h : Reached s c k) : s.hostCtx c = some k := by
  simp [State.hostCtx, h.find, h.live, h.reached]

theorem Reached.atHost {s : State} {c : Nat} {k : Ctx} (h : Reached s c k) (f : Ctx → State → State) : atHost c f s = f k s := by
  simp [Machine.atHost, h.hostCtx]

theorem Reached.onHost {s : State} {c : Nat} {k : Ctx} (h : Reached s c k) (f : Ctx → State → State) : onHost c f s = .next (f k s) :=
  congrArg _ (h.atHost f)

theorem Reached.readHost {s : State} {c : Nat} {k : Ctx} (h : Reached s c k) (size : Nat) (f : Ctx → State → State) : readHost c size f s = f k s := by
  simp [Machine.readHost, reached_phase h.reached, h.atHost]

/-! ### Queues -/

/-- A queue after a change to a queue of a context that exists. -/
theorem queueOf_updQueue {s : State} {c : Nat} {k : Ctx} (h : Map.find s.ctxs c = some k) (n : Nat) (f : Queue → Queue) (d m : Nat) :
    (s.updQueue c n f).queueOf d m = if (d, m) = (c, n) then f (s.queueOf c n) else s.queueOf d m := by
  unfold State.queueOf State.updQueue
  rw [State.find_updCtx, h]
  by_cases hd : d = c
  · subst hd
    simp only [if_true, Option.map_some, Option.getD_some, Map.get_set, h, Prod.mk.injEq, true_and]
  · simp [hd]

theorem wakeQueue_ctxs (s : State) (c q : Nat) : (wakeQueue s c q).ctxs = s.ctxs := by
  unfold wakeQueue
  dsimp only
  split <;> rfl

theorem wakeQueue_bytes (s : State) (c q : Nat) : BytesEq s (wakeQueue s c q) := .ite (.refl s) ⟨rfl, rfl, rfl, rfl, rfl⟩

theorem mem_coach_wakeQueue (s : State) (c q : Nat) : 64 * c + q ∈ (wakeQueue s c q).coach := by
  unfold wakeQueue
  dsimp only
  split
  · rename_i h
    exact List.contains_iff_mem.1 h
  · simp

theorem queueOf_wakeQueue (s : State) (c q d m : Nat) : (wakeQueue s c q).queueOf d m = s.queueOf d m := by
  simp only [State.queueOf, wakeQueue_ctxs]

/-- The outcome `o` leaves queue `n` of context `c` as `y`, its event is noted, and no other queue and no byte of memory has changed. -/
def QueueBecomes (s : State) (c n : Nat) (o : Out) (y : Queue) : Prop :=
  ∃ u, o = .next u ∧ u.queueOf c n = y ∧ 64 * c + n ∈ u.coach ∧ MemoryKept s u ∧ ∀ d m, (d, m) ≠ (c, n) → u.queueOf d m = s.queueOf d m

/-- A register write that reaches its context makes of the queue what the register says (R35, R50). -/
theorem onQueue_becomes {s : State} {c n : Nat} {k : Ctx} (h : Reached s c k) (hn : n < 64) (f : Ctx → Queue → Queue) {y : Queue}
    (hy : f k (s.queueOf c n) = y) : QueueBecomes s c n (onQueue c n f s) y := by
  refine ⟨wakeQueue (s.updQueue c n (f k)) c n, ?_, ?_, mem_coach_wakeQueue _ _ _, ?_, fun d m e => ?_⟩
  · rw [onQueue, h.onHost, if_neg (by omega)]
  · rw [queueOf_wakeQueue, queueOf_updQueue h.find, if_pos rfl, hy]
  · exact ((updCtx_bytes _ _ _).trans (wakeQueue_bytes _ _ _)).memoryKept
  · rw [queueOf_wakeQueue, queueOf_updQueue h.find, if_neg e]

/-! #### DOORBELL (R36) -/

section
variable (q : Queue) (v : BitVec 32)

theorem Queue.ring_disabled (h : q.en = false) : q.ring v = q := by simp [Queue.ring, h]

/-- A value more than a ring ahead of RDIDX stops the queue, once. -/
theorem Queue.ring_beyond (h : q.en = true) (ha : 2 ^ q.logsz < (v - q.rdidx).toNat) : q.ring v = q.stop true 0x1A q.rdidx := by
  simp only [Queue.ring, Queue.size, h, ha, Bool.not_true, Bool.false_eq_true, if_false, if_true]

/-- A value in range raises W, or leaves it. -/
theorem Queue.ring_within (h : q.en = true) (ha : (v - q.rdidx).toNat ≤ 2 ^ q.logsz) :
    q.ring v = if (q.w - q.rdidx).toNat < (v - q.rdidx).toNat then { q with w := v, lastDb := v } else q := by
  simp only [Queue.ring, Queue.size, h, Nat.not_lt.2 ha, Bool.not_true, Bool.false_eq_true, if_false]

theorem Queue.stop_stopped (b : Bool) (st : Nat) (h : q.stopped = true) : q.stop b st v = q := by simp [Queue.stop, h]
theorem Queue.stop_running (b : Bool) (st : Nat) (h : q.stopped = false) :
    q.stop b st v = { q with stopped := true, byDoorbell := b, lastst := st, stopidx := v } := by simp [Queue.stop, h]

end

/-! #### QCFG and QCTL (R35, R38) -/

section
variable (q : Queue) (given : Bool) (v : BitVec 64)

/-- A write to an enabled queue changes EN alone. -/
theorem Queue.configure_enabled (h : q.en = true) : q.configure given v = { q with en := v.getLsbD 0 } := by
  obtain ⟨⟩ := q
  cases hv : v.getLsbD 0 <;> simp_all [Queue.configure]

theorem Queue.configure_disabled (h : q.en = false) : q.configure given v =
    if v.getLsbD 0 = true ∧ given = true ∧ 4 ≤ v.toNat / 2 ^ 8 % 16 ∧ (q.qbase.toNat % 64 = 0 ∧ q.qbase.toNat < 2 ^ 57) ∧
        (q.cplbase.toNat % 16 = 0 ∧ q.cplbase.toNat < 2 ^ 57) then
      { q with logsz := v.toNat / 2 ^ 8 % 16, en := true, w := 0, rdidx := 0, lastDb := 0, stopped := false, epoch := q.epoch + 1 }
    else { q with logsz := v.toNat / 2 ^ 8 % 16 } := by
  have hl : bits v.toNat 8 4 = v.toNat / 2 ^ 8 % 16 := bits_eq _ _ _
  have h15 : v.toNat / 2 ^ 8 % 16 ≤ 15 := by omega
  simp only [Queue.configure, h, hl, addrOk, Bool.and_eq_true, decide_eq_true_eq, beq_iff_eq, h15, Bool.false_eq_true, if_false, and_true, and_assoc]

theorem Queue.resume_eq : q.resume = { q with stopped := false } := by
  obtain ⟨⟩ := q
  unfold Queue.resume
  split <;> simp_all

end

/-- QSTAT and the other registers read as the queue holds them (R35). -/
theorem registerRead_eq {s : State} {c n : Nat} {k : Ctx} (h : Reached s c k) (hn : n < 64) (off : Nat) :
    registerRead c n off s = { s with outbox := s.outbox ++ [⟨k.fn, 3, [0, (s.queueOf c n).readAt off]⟩] } := by
  rw [registerRead, h.readHost, if_neg (by omega)]
  rfl

/-! ### Signal windows (R48, R49) -/

theorem signalOp_set {s : State} {c : Nat} {k : Ctx} (h : Map.find s.ctxs c = some k) (m : Nat) (v : BitVec 64) :
    signalOp s c m false v = { s with
      ctxs := Map.put s.ctxs c { k with signals := Map.set 0 k.signals m v }
      groups := s.groups.map (fun e => if e.2.ctx == c then (e.1, e.2.mapSplits (Split.meetSignal m v)) else e) } := by
  simp [signalOp, State.updCtx, h]

theorem sigVal_of_find {s : State} {c : Nat} {k : Ctx} (h : Map.find s.ctxs c = some k) (m : Nat) : s.sigVal c m = Map.get 0 k.signals m := by
  simp [State.sigVal, h]

theorem signalAcquire_clean {s : State} {c : Nat} {k : Ctx} (h : Map.find s.ctxs c = some k) (hl : s.hostL2 = []) {m : Nat} (h0 : 1 ≤ m) (hm : m ≤ k.nsig) :
    signalAcquire c m k s = answerHost s k.fn [0, Map.get 0 k.signals m] := by
  have : (m == 0 || decide (k.nsig < m)) = false := by simp; omega
  simp only [signalAcquire, this, Bool.false_eq_true, if_false, sigVal_of_find h, State.writeBackCtx, hl, List.filter_nil, List.foldl_nil]

theorem signalAcquire_none (s : State) (c m : Nat) (k : Ctx) (h : m = 0 ∨ k.nsig < m) : signalAcquire c m k s = answerHost s k.fn [0, 0] := by
  have : (m == 0 || decide (k.nsig < m)) = true := by simpa using h
  simp only [signalAcquire, this, if_true]

/-! ### The aperture (R261) -/

@[simp] theorem answerHost_rootSector (s : State) (fn : Nat) (w : List (BitVec 64)) (j : Nat) : (answerHost s fn w).rootSector j = s.rootSector j := rfl
@[simp] theorem answerHost_outbox (s : State) (fn : Nat) (w : List (BitVec 64)) : (answerHost s fn w).outbox = s.outbox ++ [⟨fn, 3, w⟩] := rfl

section
variable {r : HostReq} (k : Ctx) (s : State)

/-- An aligned access of 8 bytes lies in one block of 4 KiB, and is made whole (R261). -/
theorem HostReq.whole (hs : r.size = 8) (ha : r.pa % 32 = 0) : { r with size := min r.size (4096 - r.pa % 4096) } = r := by
  rw [show min r.size (4096 - r.pa % 4096) = r.size by omega]

theorem aperture_load (hr : r.kind = 0) (hs : r.size = 8) (ha : r.pa % 32 = 0) : aperture r k s = apertureLoad s k.fn r := by
  unfold aperture
  rw [HostReq.whole hs ha]
  simp only [hr]

theorem aperture_write (hr : r.kind = 1) (hs : r.size = 8) (ha : r.pa % 32 = 0) {p : Nat} (hp : apertureKey s r.pa = some p) :
    aperture r k s = inWrite s p 8 r.data none := by
  unfold aperture
  rw [HostReq.whole hs ha]
  simp only [hr, hs, hp]

theorem aperture_atomic (hr : r.kind = 2) (hs : r.size = 8) (ha : r.pa % 32 = 0) : aperture r k s = apertureAtomic s k.fn r := by
  unfold aperture
  rw [HostReq.whole hs ha]
  simp only [hr]

end

theorem apertureKey_eq {s : State} {pa k : Nat} (h : pa < 2 ^ 54) (hk : devKey s.stackCount pa = some k) : apertureKey s pa = some k := by
  simp only [apertureKey, h, if_true, hk]

/-- A write that reaches the memory aperture (R261). -/
theorem hostApertureAccess_write {s : State} {c : Nat} {k : Ctx} (h : Reached s c k) {r : HostReq} (hr : r.kind = 1) :
    execHostApertureAccess c r s = .next (aperture r k s) := by
  rw [execHostApertureAccess, hr]
  exact h.onHost _

/-- A read, or an atomic, through it. -/
theorem hostApertureAccess_read {s : State} {c : Nat} {k : Ctx} (h : Reached s c k) {r : HostReq} (hr : r.kind ≠ 1) :
    execHostApertureAccess c r s = .next (aperture r k s) := by
  rw [execHostApertureAccess, if_neg (by simpa using hr)]
  exact congrArg _ (h.readHost _ _)

section
variable {s : State} {r : HostReq} {d fn : Nat}

theorem words64_one (v : Nat) : words64 1 v = [BitVec.ofNat 64 v] := by
  simp only [words64, List.range_one, List.map_cons, List.map_nil, bits_eq, List.cons.injEq, and_true]
  exact BitVec.eq_of_toNat_eq (by simp)

/-- A load of a clean sector answers its bytes (R261). -/
theorem apertureLoad_clean (h : NoErrors s) (hk : apertureKey s r.pa = some (32 * d)) (hs : r.size = 8) (ht : (s.rootSector d).token = none) :
    apertureLoad s fn r = answerHost s fn [0, BitVec.ofNat 64 ((s.rootSector d).data % 2 ^ 64)] := by
  simp only [apertureLoad, hk, hs, inRead_one h d 8 (by norm_num) (by norm_num), ht]
  rw [show (8 + 7) / 8 = 1 by rfl, words64_one]

/-- A load of a poisoned sector answers its token (R237). -/
theorem apertureLoad_poisoned (h : NoErrors s) (hk : apertureKey s r.pa = some (32 * d)) (hs : r.size = 8) {t : Word} (ht : (s.rootSector d).token = some t) :
    apertureLoad s fn r = answerHost s fn [1, t.setWidth 64] := by
  simp only [apertureLoad, hk, hs, inRead_one h d 8 (by norm_num) (by norm_num), ht]

/-- The operations that a host has (R218): FetchAdd, Swap and CAS. -/
theorem atomicOp_host {aop : Nat} (h : aop ∈ [0, 8, 9]) (old x x2 : Nat) :
    atomicOp aop 8 old x x2 = some (if aop = 0 then (old + x) % 2 ^ 64 else if aop = 8 then x else if old = x then x2 else old) := by
  obtain rfl | rfl | rfl : aop = 0 ∨ aop = 8 ∨ aop = 9 := by simpa using h
  · rfl
  · rfl
  · simp [atomicOp]

/-- An atomic of a host on a clean sector: FetchAdd, Swap or CAS (R218, R290). -/
theorem apertureAtomic_clean (h : NoErrors s) (hk : apertureKey s r.pa = some (32 * d)) (hs : r.size = 8) (hp : r.pa % 32 = 0)
    (ht : (s.rootSector d).token = none) (ho : r.aop ∈ [0, 8, 9]) {v : Nat}
    (hv : atomicOp r.aop 8 ((s.rootSector d).data % 2 ^ 64) (r.data % 2 ^ 64) (r.data2 % 2 ^ 64) = some v) :
    apertureAtomic s fn r = answerHost ((hitchTouch (s.passLine (32 * d / 64)) (32 * d / 64)).writeRoot d (plainBytes (bytesAt 0 8 v 0)) none) fn
      [0, BitVec.ofNat 64 ((s.rootSector d).data % 2 ^ 64)] := by
  have hc : (!(r.aop == 0 || r.aop == 8 || r.aop == 9) || !(r.size == 4 || r.size == 8) || r.pa % r.size != 0) = false := by
    have : r.pa % 8 = 0 := by omega
    have : r.aop = 0 ∨ r.aop = 8 ∨ r.aop = 9 := by simpa using ho
    simp only [Bool.or_eq_false_iff, Bool.not_eq_false', Bool.or_eq_true, beq_iff_eq, bne_eq_false_iff_eq, or_true, or_assoc, and_self, *]
  simp only [apertureAtomic, hk, hc, Bool.false_eq_true, if_false]
  simp only [hs, inAtomic_one h (by norm_num : 0 < 8) (by norm_num) ht hv]

end

/-- Settles O46: each register is read off what `onQueue` makes of the queue, and the aperture off the root's sector. -/
theorem hostRegisters : Obligations.HostRegisters := by
  intro s c k n v r hc ho hr hn q v32 becomes ahead rings given log aligned sets configures restarted reads
  have hk : Reached s c k := ⟨hc, ho, hr⟩
  have hsets : ∀ i f y, exec i s = onQueue c n f s → f k q = y → becomes i y := fun i f y hi hf => by
    change QueueBecomes s c n (exec i s) y
    rw [hi]
    exact onQueue_becomes hk hn f hf
  have hring : ∀ i f, exec i s = onQueue c n f s → f k q = q.ring v32 → rings i := fun i f hi hf => by
    have go : ∀ y, q.ring v32 = y → becomes i y := fun y hy => hsets i f y hi (hf.trans hy)
    refine ⟨fun he => go _ (q.ring_disabled _ he), fun he ha hs => go _ ?_, fun he ha hs => go _ ?_, fun he ha => go _ (q.ring_within _ he ha)⟩
    · rw [q.ring_beyond _ he ha, q.stop_stopped _ _ _ hs]
    · rw [q.ring_beyond _ he ha, q.stop_running _ _ _ hs]
  have hconf : ∀ i f, exec i s = onQueue c n f s → f k q = q.configure given v → configures i := fun i f hi hf => by
    have go : ∀ y, q.configure given v = y → becomes i y := fun y hy => hsets i f y hi (hf.trans hy)
    refine ⟨fun he => go _ (q.configure_enabled _ _ he), fun he hv hs => go _ ?_, fun he hs => go _ ?_⟩
    · rw [q.configure_disabled _ _ he, if_pos ⟨hv, hs⟩]
    · rw [q.configure_disabled _ _ he, if_neg fun h => hs.elim (fun h0 => Bool.false_ne_true (h0.symm.trans h.1)) (fun h1 => h1 h.2)]
  have hgiven : queueExists s.dz860 k.mode n = given := by simp [queueExists, hn, given]
  refine ⟨⟨hring _ _ rfl rfl, hring _ _ rfl rfl⟩, ⟨hconf _ _ rfl ?_, hconf _ _ rfl ?_⟩, ⟨hsets _ _ _ rfl q.resume_eq, hsets _ _ _ rfl q.resume_eq⟩,
    ⟨hsets _ _ _ rfl rfl, hsets _ _ _ rfl rfl⟩, fun he => ⟨hsets _ _ _ rfl ?_, hsets _ _ _ rfl ?_⟩, fun he => ⟨hsets _ _ _ rfl ?_, hsets _ _ _ rfl ?_⟩,
    fun e hmem => ?_, fun m h1 hm => ⟨?_, fun hp hl => ?_⟩, fun m hm => ⟨?_, fun hp => ?_⟩, ?_, ?_⟩
  case refine_1 => rw [← hgiven]
  case refine_2 => rw [← hgiven]; rfl
  case refine_3 => simp [Queue.writeAt, he]
  case refine_4 => simp [Queue.writeAt, he]
  case refine_5 => simp [Queue.writeAt, he]
  case refine_6 => simp [Queue.writeAt, he]
  case refine_7 =>
    have hread : q.readAt e.1 = e.2 := by
      simp only [List.mem_cons, List.not_mem_nil, or_false] at hmem
      obtain rfl | rfl | rfl | rfl | rfl | rfl | rfl | rfl := hmem <;> rfl
    rw [registerRead_eq hk hn, ← hread]
  case refine_8 =>
    refine (hk.onHost _).trans (congrArg _ ?_)
    rw [if_neg (by simp; omega)]
    exact signalOp_set hc m v
  case refine_9 => exact congrArg _ ((hk.readHost _ _).trans (signalAcquire_clean hc hl h1 hm))
  case refine_10 =>
    refine (hk.onHost _).trans (congrArg _ (if_pos ?_))
    simpa using hm
  case refine_11 => exact congrArg _ ((hk.readHost _ _).trans (signalAcquire_none s c m k hm))
  case refine_12 =>
    intro d hpa hd hs ha hne x old writes
    have hkey := apertureKey_eq hpa hd
    refine ⟨fun h0 _ ht => ?_, fun h0 _ t ht => ?_, fun h1 => ?_, fun h2 _ ht haop => ?_⟩
    · refine (hostApertureAccess_read hk (by omega)).trans (congrArg _ ?_)
      rw [aperture_load k s h0 hs ha]
      exact apertureLoad_clean hne hkey hs ht
    · refine (hostApertureAccess_read hk (by omega)).trans (congrArg _ ?_)
      rw [aperture_load k s h0 hs ha]
      exact apertureLoad_poisoned hne hkey hs ht
    · refine ⟨_, hostApertureAccess_write hk h1, ?_⟩
      rw [aperture_write k s h1 hs ha hkey, inWrite_one s d 8 r.data none (by norm_num) (by norm_num)]
      have hw := fun j => rootSector_writeRoot hne d j (plainBytes (bytesAt 0 8 r.data 0)) none (bytesAt_lt 8 r.data (by norm_num))
      exact ⟨by rw [hw, if_pos rfl], fun m hm => by rw [hw, if_neg hm]⟩
    · obtain ⟨w, hv, hw⟩ : ∃ w, atomicOp r.aop 8 old (r.data % 2 ^ 64) (r.data2 % 2 ^ 64) = some w ∧ w = if r.aop = 0 then (old + r.data % 2 ^ 64) % 2 ^ 64
          else if r.aop = 8 then r.data % 2 ^ 64 else if old = r.data % 2 ^ 64 then r.data2 % 2 ^ 64 else old :=
        ⟨_, atomicOp_host haop _ _ _, rfl⟩
      refine ⟨_, hostApertureAccess_read hk (by omega), ?_⟩
      rw [aperture_atomic k s h2 hs ha, ← hw, apertureAtomic_clean hne hkey hs ha ht haop hv]
      have hr := fun j => rootSector_touch_writeRoot hne (32 * d / 64) d j _ (bytesAt_lt 8 w (by norm_num))
      have hb := ((touch_cacheOnly s (32 * d / 64)).storeOnly.trans (writeRoot_storeOnly _ d (plainBytes (bytesAt 0 8 w 0)) none)).field State.outbox
      refine ⟨⟨?_, fun m hm => ?_⟩, ?_⟩
      · rw [answerHost_rootSector, hr, if_pos rfl]
      · rw [answerHost_rootSector, hr, if_neg hm]
      · rw [answerHost_outbox, hb]
  case refine_13 =>
    intro port hp
    exact congrArg _ (if_pos hp)

end Sys2Proof.Machine
end

section
/-! PROOFS. The commands of the managers (R15, R33, R53 to R55, R334, R355 to R360, R386, R403, R404). -/
namespace Sys2Proof.Machine

/-! ### Commands that arrive -/

/-- A command through the mailbox of a function that reaches the package. -/
theorem onMailbox_reached {s : State} {fn : Nat} (h : s.reached fn = true) (f : State → State) : onMailbox fn f s = .next (f s) :=
  congrArg _ (if_pos h)

/-- One through the mailbox of a port. -/
theorem onMailbox_port {s : State} {port : Nat} (hp : port < 2) (h : s.reached port = true) (f : State → State) :
    onMailbox (port % 2) f s = .next (f s) := by
  rw [Nat.mod_eq_of_lt hp]
  exact onMailbox_reached h f

theorem updCtx_of_find {s : State} {c : Nat} {k : Ctx} (h : Map.find s.ctxs c = some k) (f : Ctx → Ctx) :
    s.updCtx c f = { s with ctxs := Map.put s.ctxs c (f k) } := by
  simp [State.updCtx, h]

/-- A field of a word of the spec, as a number. -/
theorem bits_toNat {w : Nat} (x : BitVec w) (lo n : Nat) : bits x.toNat lo n = (x.extractLsb' lo n).toNat := (BitVec.extractLsb'_toNat ..).symm

theorem bit_toNat {w : Nat} (x : BitVec w) (i : Nat) : bit x.toNat i = x.getLsbD i := by
  rw [bit, BitVec.getLsbD, Nat.testBit, Nat.and_comm, Nat.and_one_is_mod]
  rcases Nat.mod_two_eq_zero_or_one (x.toNat >>> i) with h | h <;> simp [h]

theorem toNat_ne_zero {w : Nat} (x : BitVec w) : x.toNat ≠ 0 ↔ x ≠ 0 := by simp [BitVec.toNat_eq]

/-- The words of a reply that hold a number (R334, R403). -/
theorem words64_eq (n v : Nat) : words64 n v = (List.range n).map (fun j => BitVec.ofNat 64 (v / 2 ^ (64 * j))) := by
  refine List.map_congr_left fun j _ => BitVec.eq_of_toNat_eq ?_
  simp [bits_eq]

theorem words64_four (x : BitVec 256) :
    words64 4 x.toNat = [x.extractLsb' 0 64, x.extractLsb' 64 64, x.extractLsb' 128 64, x.extractLsb' 192 64] := by
  simp only [words64, List.range, List.range.loop, List.map_cons, List.map_nil, bits_toNat, BitVec.ofNat_toNat, BitVec.setWidth_eq]

/-- The two limits of a quota record (R55). -/
theorem quota_halves (r : BitVec 128) : bits r.toNat 0 64 = r.toNat % 2 ^ 64 ∧ bits r.toNat 64 64 = r.toNat / 2 ^ 64 := by
  have := r.isLt
  rw [bits_eq, bits_eq, pow_zero, Nat.div_one]
  exact ⟨rfl, Nat.mod_eq_of_lt (Nat.div_lt_of_lt_mul (by rw [← pow_add]; exact this))⟩

/-! ### Contexts (R33) -/

theorem find_lowest_free {s : State} {c : Nat} (hc : c < 32) (h : Map.has s.ctxs c = false) (hl : ∀ d < c, Map.has s.ctxs d = true) :
    (List.range 32).find? (fun c => !Map.has s.ctxs c) = some c := by
  rw [List.find?_range_eq_some]
  exact ⟨by simp [h], List.mem_range.2 hc, fun d hd => by simp [hl d hd]⟩

theorem createCtx_ok {r : CtxRec} {s : State} {port c : Nat} (hp : s.portOf r.fn = some port) (hc : c < 32) (h : Map.has s.ctxs c = false)
    (hl : ∀ d < c, Map.has s.ctxs d = true) (hf : ∀ e ∈ s.ctxs, e.2.fn ≠ r.fn) (hpart : ∃ p, Map.find s.parts r.pid = some p ∧ p.port = port)
    (hr : CtxRecOk r = true) :
    createCtx r s = reply { s with ctxs := Map.put s.ctxs c (newCtx r port), records := s.records.filter (fun e => e.1 / 64 != r.fn) } r.fn [0] := by
  obtain ⟨p, hfind, rfl⟩ := hpart
  have hany : s.ctxs.any (fun e => e.2.fn == r.fn) = false := by simpa using hf
  simp only [createCtx, hp, find_lowest_free hc h hl, hany, hfind, Option.map_some, bne_self_eq_false, hr, Bool.not_true, Bool.or_false, Bool.false_eq_true,
    if_false, replyOk]

/-! ### Partitions (R53, R54) -/

/-- Clusters of another partition, or of a socket without a die, that a partition record would take (R53). -/
def ClustersTaken (s : State) (r : BitVec 256) (own : Option Nat) : Prop :=
  (∃ p ∈ s.parts, some p.1 ≠ own ∧ p.2.clusters &&& (r.setWidth 128 : BitVec 128) ≠ 0) ∨
    (s.dz860 = true ∧ (r.setWidth 128 : BitVec 128).extractLsb' 112 16 ≠ 0)

/-- The sockets without a die are those of die 7 of a DZ-860 (R11). -/
theorem dieless_any (dz : Bool) (m : BitVec 128) :
    (List.range 8).any (fun d => !dieEnabled dz d && bits m.toNat (16 * d) 16 != 0) = (dz && decide (m.extractLsb' 112 16 ≠ 0)) := by
  have h : (bits m.toNat 112 16 != 0) = decide (m.extractLsb' 112 16 ≠ 0) := by
    rw [bits_toNat, Bool.eq_iff_iff, bne_iff_ne, decide_eq_true_iff, toNat_ne_zero]
  cases dz <;> simp [dieEnabled, List.range, List.range.loop, h]

theorem partCheck_eq (s : State) (r : BitVec 256) (own : Option Nat) [Decidable (ClustersTaken s r own)] :
    partCheck s r own = if (r.setWidth 128 : BitVec 128) = 0 then 0x21 else if ClustersTaken s r own then 0x22
      else if r.extractLsb' 134 122 ≠ 0 then 0x23 else 0 := by
  have ht : ((s.parts.any (fun p => some p.1 != own && p.2.clusters &&& (r.setWidth 128 : BitVec 128) != 0))
      || (List.range 8).any (fun d => !dieEnabled s.dz860 d && bits (r.setWidth 128 : BitVec 128).toNat (16 * d) 16 != 0)) = decide (ClustersTaken s r own) := by
    rw [dieless_any, Bool.eq_iff_iff, decide_eq_true_iff]
    simp [ClustersTaken]
  have hb : (bits r.toNat 134 122 != 0) = decide (r.extractLsb' 134 122 ≠ 0) := by
    rw [bits_toNat, Bool.eq_iff_iff, bne_iff_ne, decide_eq_true_iff, toNat_ne_zero]
  simp only [partCheck, ht, hb, beq_iff_eq, decide_eq_true_eq]

/-- Why a partition cannot be changed through a port (R54). -/
theorem partBusy_unbound {s : State} {port pid : Nat} (h : ¬∃ p, Map.find s.parts pid = some p ∧ p.port = port) : partBusy s port pid = 0x26 := by
  have : (Map.find s.parts pid).map (·.port) ≠ some port := by simpa using h
  simp [partBusy, this]

theorem partBusy_bound {s : State} {port pid : Nat} (h : ∃ p, Map.find s.parts pid = some p ∧ p.port = port) [Decidable (∃ k ∈ s.ctxs, k.2.part = pid)] :
    partBusy s port pid = if ∃ k ∈ s.ctxs, k.2.part = pid then 0x25 else 0 := by
  obtain ⟨p, hf, hp⟩ := h
  have : s.ctxs.any (fun c => c.2.part == pid) = true ↔ ∃ k ∈ s.ctxs, k.2.part = pid := by simp
  simp only [partBusy, hf, hp, Option.map_some, bne_self_eq_false, Bool.false_eq_true, if_false, this]

/-! ### Windows (R358) -/

theorem windowOf_toNat (r : BitVec 128) : windowOf r.toNat =
    ⟨(r.extractLsb' 64 64).toNat, (r.extractLsb' 48 16).toNat, (r.extractLsb' 30 18).toNat, (r.extractLsb' 4 5).toNat, r.getLsbD 2, r.getLsbD 1, r.getLsbD 0⟩ := by
  simp only [windowOf, bits_toNat, bit_toNat]

/-! ### Abandonment (R386) -/

theorem mem_insertDue (l : List Due) (d : Due) : d ∈ insertDue l d := by
  induction l with
  | nil => simp [insertDue]
  | cons e l ih =>
    unfold insertDue
    split
    · simp
    · simp [ih]

theorem abandonCtx_live {s : State} {c : Nat} {k : Ctx} (h : Map.find s.ctxs c = some k) (ha : k.abandon = false) (ho : k.isOver = false) :
    abandonCtx s c = { s with
      ctxs := Map.put s.ctxs c { k with abandon := true, graceDue := some (s.time + k.graceUs * 21000) }
      agenda := insertDue s.agenda ⟨s.time + k.graceUs * 21000, .event (.abandonGraceExpiry c)⟩ } := by
  simp [abandonCtx, h, ha, ho, updCtx_of_find h]

/-! ### Reads through the mailbox, and the fabric manager -/

theorem execClusterMapRead_eq {s : State} {port die : Nat} (hp : port < 2) (hr : s.reached port = true) {cs : List (List Nat)} (hcs : s.clusterMap[die]? = some cs) :
    ∃ spare, execClusterMapRead port die s =
      .next (reply s port (0 :: cs.map (fun l => BitVec.ofNat 64 (l.foldr (fun c a => c + 256 * a) 0)) ++ [spare])) := by
  unfold execClusterMapRead clusterWords
  rw [onMailbox_port hp hr, Nat.mod_eq_of_lt hp, hcs]
  exact ⟨_, rfl⟩

theorem execViewTableRead_eq {s : State} {fn : Nat} (hr : s.reached fn = true) (v : Nat) : execViewTableRead fn v s =
    .next (reply s fn (0 :: (List.range 4).map (fun j => BitVec.ofNat 64 (viewBits (v % 1024) (Map.find s.views (v % 1024)) / 2 ^ (64 * j))))) := by
  unfold execViewTableRead
  rw [onMailbox_reached hr, words64_eq]

/-- A retirement record that is kept is answered, and any other refused (R403). -/
theorem execRetirementRecordRead_kept {s : State} {fn q : Nat} {idx : BitVec 32} {x : Retired} (hr : s.reached fn = true)
    (h : (Map.get [] s.records (64 * fn + q)).find? (fun x => x.idx == idx) = some x) : execRetirementRecordRead fn q idx s =
      .next (reply s fn [0, x.bits.extractLsb' 0 64, x.bits.extractLsb' 64 64, x.bits.extractLsb' 128 64, x.bits.extractLsb' 192 64]) := by
  unfold execRetirementRecordRead
  simp only [onMailbox_reached hr, h, words64_four]

theorem execRetirementRecordRead_none {s : State} {fn q : Nat} {idx : BitVec 32} (hr : s.reached fn = true)
    (h : (Map.get [] s.records (64 * fn + q)).find? (fun x => x.idx == idx) = none) : execRetirementRecordRead fn q idx s = .next (refuse s fn 0x24) := by
  unfold execRetirementRecordRead
  simp only [onMailbox_reached hr, h]

/-- A package that runs records the state of a peer (R14, R357). -/
theorem execPeerStateWrite_eq (s : State) {peer : Nat} (hp : peer < 4096) (v : BitVec 2) :
    execPeerStateWrite peer v s = .next (if s.phase = 0 then { s with peers := Map.set 0 s.peers peer v.toNat } else s) := by
  unfold execPeerStateWrite onDevice
  rw [Nat.mod_eq_of_lt hp]
  by_cases h : s.phase = 0 <;> simp [h]

theorem execMulticastTableInstall_eq (s : State) (spine : Bool) {sw gid : Nat} (hs : sw < 64) (hg : gid < 4096) (r : BitVec 128) :
    execMulticastTableInstall spine sw gid r s = .next (if spine then { s with mcSpine := Map.set 0 s.mcSpine (4096 * sw + gid) r }
      else { s with mcLeaf := Map.set 0 s.mcLeaf (4096 * sw + gid) r }) := by
  unfold execMulticastTableInstall onDevice
  rw [Nat.mod_eq_of_lt hs, Nat.mod_eq_of_lt hg]

/-! ### What a context's own function commands -/

section
variable {s : State} {c : Nat} {k : Ctx}

/-- A quota record within its limits (R55). -/
theorem writeQuota_ok (h : Map.find s.ctxs c = some k) {r : BitVec 128} (h0 : limitOk (r.toNat % 2 ^ 64) = true) (h1 : limitOk (r.toNat / 2 ^ 64) = true) :
    writeQuota c r k s = dueNow (reply { s with ctxs := Map.put s.ctxs c { k with quota := r } } k.fn [0]) (.dispatchPass k.part) := by
  simp only [writeQuota, quota_halves, h0, h1, Bool.and_self, Bool.not_true, Bool.false_eq_true, if_false, replyOk, updCtx_of_find h]

theorem writeQuota_bad {r : BitVec 128} (h : limitOk (r.toNat % 2 ^ 64) = false ∨ limitOk (r.toNat / 2 ^ 64) = false) :
    writeQuota c r k s = reply s k.fn [0x23] := by
  have : (limitOk (r.toNat % 2 ^ 64) && limitOk (r.toNat / 2 ^ 64)) = false := Bool.and_eq_false_iff.2 h
  simp only [writeQuota, quota_halves, this, Bool.not_false, if_true]
  rfl

theorem writeWindow_ok {w : Nat} {r : BitVec 128} (h : windowOk s c w r.toNat = true) :
    writeWindow c w r k s = reply { s with
      windows := Map.put s.windows w ⟨(r.extractLsb' 64 64).toNat, (r.extractLsb' 48 16).toNat, (r.extractLsb' 30 18).toNat, (r.extractLsb' 4 5).toNat, r.getLsbD 2, r.getLsbD 1, r.getLsbD 0⟩ } k.fn [0] := by
  simp only [writeWindow, h, if_true, replyOk, windowOf_toNat]

end

/-- Settles O47: each command that arrives does what its lemma says, and answers. -/
theorem managerCommands : Obligations.ManagerCommands := by
  intro s answer
  refine ⟨?_, ?_, ?_, ?_, ?_, ?_, ?_, ?_, ?_⟩
  · intro r port c hreach hport hc hfree hlow hfn hpart hrec
    exact (onMailbox_reached hreach _).trans (congrArg _ (createCtx_ok hport hc hfree hlow hfn hpart hrec))
  · intro port pid r hport hreach hpid m free bound taken wrong used
    classical
    have hrec : recPid r = pid := (bits_toNat r 128 6).trans hpid.symm
    have hfree : ∀ own, free own → partCheck s r own = 0 := fun own ⟨hm, hp, hd, hz⟩ => by
      have ht : ¬ClustersTaken s r own := by
        rintro (⟨p, hp', hne, hc⟩ | ⟨hdz, hc⟩)
        · exact hc (hp p hp' hne)
        · exact hc (hd hdz)
      rw [partCheck_eq, if_neg hm, if_neg ht, if_neg (not_not.2 hz)]
    have hwrong : ∀ own st, wrong own st → ∃ n, partCheck s r own = n + 1 ∧ BitVec.ofNat 64 (n + 1) = st := fun own st h => by
      rw [partCheck_eq]
      obtain ⟨hm, rfl⟩ | ⟨hm, ht, rfl⟩ | ⟨hm, ht, hz, rfl⟩ := h
      · exact ⟨0x20, if_pos hm, rfl⟩
      · exact ⟨0x21, (if_neg hm).trans (if_pos ht), rfl⟩
      · exact ⟨0x22, (if_neg hm).trans ((if_neg ht).trans (if_pos hz)), rfl⟩
    have hcreate : exec (.partitionCreate port r) s = .next (createPart port r s) := by
      show onMailbox (port % 2) (createPart (port % 2) r) s = _
      rw [onMailbox_port hport hreach, Nat.mod_eq_of_lt hport]
    have hrewrite : exec (.partitionRewrite port r) s = .next (rewritePart port r s) := by
      show onMailbox (port % 2) (rewritePart (port % 2) r) s = _
      rw [onMailbox_port hport hreach, Nat.mod_eq_of_lt hport]
    have hdelete : exec (.partitionDelete port pid) s = .next (deletePart port pid s) := by
      show onMailbox (port % 2) (deletePart (port % 2) pid) s = _
      rw [onMailbox_port hport hreach, Nat.mod_eq_of_lt hport]
    have hidle : bound → ¬used → partBusy s port pid = 0 := fun hb hu => (partBusy_bound hb).trans (if_neg hu)
    refine ⟨fun hh hf => ?_, fun hh => ?_, fun st hh hw => ?_, fun st hb hu hw => ?_, fun hb hu hf => ?_, fun hb hu => ?_, fun hb hu => ?_, fun hb => ?_⟩
    · simp only [hcreate, createPart, hrec, hh, hfree none hf, Bool.false_eq_true, if_false]
      rfl
    · simp only [hcreate, createPart, hrec, hh, if_true]
      rfl
    · obtain ⟨n, hn, rfl⟩ := hwrong none st hw
      simp only [hcreate, createPart, hrec, hh, hn, Bool.false_eq_true, if_false]
      rfl
    · obtain ⟨n, hn, rfl⟩ := hwrong (some pid) st hw
      simp only [hrewrite, rewritePart, hrec, hidle hb hu, hn]
      rfl
    · simp only [hrewrite, rewritePart, hrec, hidle hb hu, hfree (some pid) hf]
      rfl
    · simp only [hdelete, deletePart, hidle hb hu]
      rfl
    · have hbusy : partBusy s port pid = 0x25 := (partBusy_bound hb).trans (if_pos hu)
      simp only [hrewrite, hdelete, rewritePart, deletePart, hrec, hbusy]
      exact ⟨rfl, rfl⟩
    · simp only [hrewrite, hdelete, rewritePart, deletePart, hrec, partBusy_unbound hb]
      exact ⟨rfl, rfl⟩
  · intro port die cs hport hreach hcs
    exact execClusterMapRead_eq hport hreach hcs
  · intro fn hreach
    exact onMailbox_reached hreach (fun s => reply s fn [0, BitVec.ofNat 64 s.peerNo])
  · intro fn v hreach
    exact execViewTableRead_eq hreach v
  · intro fn q idx hreach kept
    exact ⟨fun x hx => execRetirementRecordRead_kept hreach hx, fun hx => execRetirementRecordRead_none hreach hx⟩
  · intro peer v hpeer
    have h := execPeerStateWrite_eq s hpeer v
    exact ⟨fun hp => h.trans (by rw [if_pos hp]), fun hp => h.trans (by rw [if_neg hp])⟩
  · intro sw gid r hsw hgid
    exact ⟨execMulticastTableInstall_eq s false hsw hgid r, execMulticastTableInstall_eq s true hsw hgid r⟩
  · intro c k hc ho hr puts
    have hk : Reached s c k := ⟨hc, ho, hr⟩
    refine ⟨fun r h0 h1 => ?_, fun r h => ?_, fun m => ⟨?_, ?_⟩, fun w r hw => ?_, fun core n hn => ?_, fun ha => ?_⟩
    · exact (hk.onHost (writeQuota c r)).trans (congrArg _ (writeQuota_ok hc h0 h1))
    · exact (hk.onHost (writeQuota c r)).trans (congrArg _ (writeQuota_bad h))
    · refine (hk.onHost (fun x s => replyOk (s.updCtx c (fun y => { y with reach := m })) x.fn)).trans ?_
      rw [updCtx_of_find hc]
      rfl
    · refine (hk.onHost (fun x s => replyOk (s.updCtx c (fun y => { y with gmask := m })) x.fn)).trans ?_
      rw [updCtx_of_find hc]
      rfl
    · exact (hk.onHost (writeWindow c w r)).trans (congrArg _ (writeWindow_ok hw))
    · exact (hk.onHost (fun x s => if 14 ≤ n then refuseFree s x.fn else reply s x.fn [0, perfValue x core n])).trans (by rw [if_neg (by omega)]; rfl)
    · refine ⟨_, hk.onHost (fun _ s => abandonCtx s c), ?_⟩
      rw [abandonCtx_live hc ha ho]
      exact ⟨rfl, mem_insertDue _ _, rfl, rfl⟩

end Sys2Proof.Machine
end

section
/-! PROOFS. What arrives from the fabric (R355 to R369): requests behind a window, reductions, acknowledgements, resends, silence. -/
namespace Sys2Proof.Machine

/-! ### Inbound windows (R358) -/

/-- Whether a window lets in requests of a kind. -/
def Window.permits (w : Window) : InKind → Bool
  | .read => true
  | .write => w.w
  | .atomic => w.at_

section
variable {s : State} {w : Window} {ftid off : Nat}

theorem inbound_of_window (hw : Map.find s.windows (off / 2 ^ 29 % 2 ^ 12) = some w) (k : InKind) :
    inbound s ftid off k = if (w.v = true ∧ w.ftid = ftid ∧ off % 2 ^ 29 < w.len * 4096) ∧ w.permits k = true then devKey s.stackCount (w.base + off % 2 ^ 29)
      else none := by
  have hn : Map.find s.windows (bits off 29 12) = some w := by rwa [bits_eq]
  have ho : bits off 0 29 = off % 2 ^ 29 := by rw [bits_eq, pow_zero, Nat.div_one]
  cases k <;> simp [inbound, hn, ho, Window.permits, and_assoc]

/-- A request that its window lets in performs where the window says. -/
theorem inbound_open (hw : Map.find s.windows (off / 2 ^ 29 % 2 ^ 12) = some w) (hv : w.v = true) (hf : w.ftid = ftid) (hl : off % 2 ^ 29 < w.len * 4096) {k : InKind}
    (hk : w.permits k = true) : inbound s ftid off k = devKey s.stackCount (w.base + off % 2 ^ 29) := by
  rw [inbound_of_window hw, if_pos ⟨⟨hv, hf, hl⟩, hk⟩]

/-- Without a valid window of its tenant a request is refused. -/
theorem inbound_shut (h : Map.find s.windows (off / 2 ^ 29 % 2 ^ 12) = none ∨
      (Map.find s.windows (off / 2 ^ 29 % 2 ^ 12) = some w ∧ (w.v = false ∨ w.ftid ≠ ftid ∨ w.len * 4096 ≤ off % 2 ^ 29))) (k : InKind) :
    inbound s ftid off k = none := by
  obtain h | ⟨hw, h⟩ := h
  · have hn : Map.find s.windows (bits off 29 12) = none := by rwa [bits_eq]
    simp only [inbound, hn]
  · rw [inbound_of_window hw, if_neg]
    rintro ⟨⟨hv, hf, hl⟩, -⟩
    obtain h | h | h := h
    · simp [hv] at h
    · exact h hf
    · omega

end

/-! ### The sequence of a source (R356, R359) -/

/-- A packet in turn is what its source sends next. -/
def State.tookFrom (s : State) (r : InReq) : State := { s with fabNext := Map.put s.fabNext r.src (r.num + 1) }

section
variable {s : State} {r : InReq}

theorem remoteInboundRequest_stopped (h : s.phase ≠ 0) : exec (.remoteInboundRequest r) s = .next s := congrArg _ (if_neg (by simpa using h))
theorem multicastCopyArrival_stopped (h : s.phase ≠ 0) : exec (.multicastCopyArrival r) s = .next s := congrArg _ (if_neg (by simpa using h))
theorem remoteInboundRequest_runs (h : s.phase = 0) : exec (.remoteInboundRequest r) s = .next (fabricArrival s r) := congrArg _ (if_pos (by simpa using h))
theorem multicastCopyArrival_runs (h : s.phase = 0) : exec (.multicastCopyArrival r) s = .next (multicastAt s r) := congrArg _ (if_pos (by simpa using h))

theorem fabricArrival_again (h : r.num < Map.get 0 s.fabNext r.src) : fabricArrival s r = s := if_pos h

theorem fabricArrival_early (h : Map.get 0 s.fabNext r.src < r.num) : fabricArrival s r = { s with fabEarly := s.fabEarly ++ [r] } := by
  rw [fabricArrival, if_neg (by omega), if_pos h]

theorem fabricArrival_turn (h : r.num = Map.get 0 s.fabNext r.src) :
    fabricArrival s r = deliverEarly r.src s.fabEarly.length (inboundAt (s.tookFrom r) r) := by
  rw [fabricArrival, if_neg (by omega), if_neg (by omega), ← h]
  rfl

/-- With no packet of the source held, none is delivered beside the one that arrives. -/
theorem deliverEarly_none {src : Nat} (h : ∀ e ∈ s.fabEarly, e.src ≠ src) (n : Nat) : deliverEarly src n s = s := by
  cases n with
  | zero => rfl
  | succ n =>
    have hf : s.fabEarly.find? (fun e => e.src == src && e.num == Map.get 0 s.fabNext src) = none :=
      List.find?_eq_none.2 fun e he => by simp [h e he]
    simp only [deliverEarly, hf]

/-- What a packet in turn leaves: it is performed. -/
theorem fabricArrival_alone {u : State} (h : r.num = Map.get 0 s.fabNext r.src ∧ ∀ e ∈ s.fabEarly, e.src ≠ r.src) (hu : inboundAt (s.tookFrom r) r = u)
    (he : u.fabEarly = s.fabEarly) : fabricArrival s r = u := by
  rw [fabricArrival_turn h.1, hu, deliverEarly_none (he ▸ h.2)]

end

/-! ### What a request does (R358) -/

@[simp] theorem respond_rootSector (s : State) (l : List Nat) (j : Nat) : (respond s l).rootSector j = s.rootSector j := rfl
@[simp] theorem respond_fabEarly (s : State) (l : List Nat) : (respond s l).fabEarly = s.fabEarly := rfl
@[simp] theorem respond_outbox (s : State) (l : List Nat) : (respond s l).outbox = s.outbox ++ [⟨0, 6, l.map (BitVec.ofNat 64)⟩] := rfl

section
variable {s : State} {r : InReq} {d : Nat}

theorem inboundAt_refused (h : inbound s r.ftid.toNat r.off (inWhat r) = none) : inboundAt s r = respond s [4] := by
  simp only [inboundAt, h]

theorem multicastAt_refused (h : inbound s r.ftid.toNat r.off (inWhat r) = none) : multicastAt s r = respond s [4] := by
  simp only [multicastAt, h]

theorem inboundAt_read_clean (hk : r.kind = 0) (hs : r.size = 8) (hi : inbound s r.ftid.toNat r.off .read = some (32 * d)) (hn : NoErrors s)
    (ht : (s.rootSector d).token = none) : inboundAt s r = respond s [0, (s.rootSector d).data % 2 ^ 64, 0] := by
  have hw : inWhat r = .read := by simp [inWhat, hk]
  simp only [inboundAt, hw, hi, hs, inRead_one hn d 8 (by norm_num) (by norm_num), ht, respondWith]
  norm_num [Nat.mod_mod, Nat.div_eq_of_lt, Nat.mod_lt]

theorem inboundAt_read_poisoned (hk : r.kind = 0) (hs : r.size = 8) (hi : inbound s r.ftid.toNat r.off .read = some (32 * d)) (hn : NoErrors s)
    {t : Word} (ht : (s.rootSector d).token = some t) : inboundAt s r = respond s [1, t.toNat] := by
  have hw : inWhat r = .read := by simp [inWhat, hk]
  simp only [inboundAt, hw, hi, hs, inRead_one hn d 8 (by norm_num) (by norm_num), ht, respondWith]

/-- The state after a write of eight bytes of a sector and its acknowledgement. -/
def State.wrote (s : State) (d v : Nat) : State := respond (s.writeRoot d (plainBytes (bytesAt 0 8 v 0)) none) [0]

theorem inboundAt_write (hk : r.kind = 1) (hs : r.size = 8) (hi : inbound s r.ftid.toNat r.off .write = some (32 * d)) (ht : r.token = none) :
    inboundAt s r = s.wrote d r.data := by
  have hw : inWhat r = .write := by simp [inWhat, hk]
  simp only [inboundAt, hw, hi, hs, ht, inWrite_one _ d 8 r.data none (by norm_num) (by norm_num)]
  rfl

theorem multicastAt_write (hk : r.kind = 1) (hs : r.size = 8) (hi : inbound s r.ftid.toNat r.off .write = some (32 * d)) (ht : r.token = none) :
    multicastAt s r = s.wrote d r.data := by
  have hw : inWhat r = .write := by simp [inWhat, hk]
  simp only [multicastAt, hw, hi, hs, ht, inWrite_one _ d 8 r.data none (by norm_num) (by norm_num)]
  rfl

theorem wrote_rootSector (hn : NoErrors s) (d v j : Nat) :
    (s.wrote d v).rootSector j = if j = d then (s.rootSector d).write (plainBytes (bytesAt 0 8 v 0)) none else s.rootSector j := by
  rw [State.wrote, respond_rootSector, rootSector_writeRoot hn d j _ none (bytesAt_lt 8 v (by norm_num))]

theorem wrote_fabEarly (s : State) (d v : Nat) : (s.wrote d v).fabEarly = s.fabEarly := by
  rw [State.wrote, respond_fabEarly, (writeRoot_storeOnly s d _ none).field State.fabEarly]

theorem wrote_outbox (s : State) (d v : Nat) : (s.wrote d v).outbox = s.outbox ++ [⟨0, 6, [0]⟩] := by
  rw [State.wrote, respond_outbox, (writeRoot_storeOnly s d _ none).field State.outbox]
  rfl

/-- The state after an atomic of a sector's first eight bytes and the answer of the old value. -/
def State.modified (s : State) (d v old : Nat) : State :=
  respond ((hitchTouch (s.passLine (32 * d / 64)) (32 * d / 64)).writeRoot d (plainBytes (bytesAt 0 8 v 0)) none) [0, old, 0]

theorem inboundAt_atomic (hk : r.kind = 2) (hs : r.size = 8) (hi : inbound s r.ftid.toNat r.off .atomic = some (32 * d)) (hn : NoErrors s)
    (ht : r.token = none) (hx : (s.rootSector d).token = none) {v : Nat}
    (hv : atomicOp r.aop 8 ((s.rootSector d).data % 2 ^ 64) r.data r.data2 = some v) : inboundAt s r = s.modified d v ((s.rootSector d).data % 2 ^ 64) := by
  have hw : inWhat r = .atomic := by simp [inWhat, hk]
  simp only [inboundAt, hw, hi, inUpdate, hk, ht, hs, inAtomic_one hn (by norm_num : 0 < 8) (by norm_num) hx hv, respondWith]
  norm_num [State.modified, Nat.mod_mod, Nat.div_eq_of_lt, Nat.mod_lt]

theorem modified_storeOnly (s : State) (d v : Nat) :
    StoreOnly s ((hitchTouch (s.passLine (32 * d / 64)) (32 * d / 64)).writeRoot d (plainBytes (bytesAt 0 8 v 0)) none) :=
  (touch_cacheOnly s _).storeOnly.trans (writeRoot_storeOnly _ d _ none)

theorem modified_rootSector (hn : NoErrors s) (d v old j : Nat) :
    (s.modified d v old).rootSector j = if j = d then (s.rootSector d).write (plainBytes (bytesAt 0 8 v 0)) none else s.rootSector j := by
  rw [State.modified, respond_rootSector, rootSector_touch_writeRoot hn _ d j _ (bytesAt_lt 8 v (by norm_num))]

theorem modified_fabEarly (s : State) (d v old : Nat) : (s.modified d v old).fabEarly = s.fabEarly := by
  rw [State.modified, respond_fabEarly, (modified_storeOnly s d v).field State.fabEarly]

theorem modified_outbox (s : State) (d v old : Nat) : (s.modified d v old).outbox = s.outbox ++ [⟨0, 6, [0, BitVec.ofNat 64 old, 0]⟩] := by
  rw [State.modified, respond_outbox, (modified_storeOnly s d v).field State.outbox]
  rfl

end

/-! ### Reductions (R365, R368, R369) -/

section
variable (s : State) (r : RedInst) (acks : List (Nat × Nat × Nat)) (b : Bool)

@[simp] theorem endInstance_reds : (endInstance s r acks b).reds = s.reds.filter (fun q => q != r) := by
  rw [endInstance, State.updGrp_reds]

@[simp] theorem endInstance_portDown : (endInstance s r acks b).portDown = s.portDown := by
  rw [endInstance, State.updGrp_portDown]

theorem endInstance_bytes : BytesEq s (endInstance s r acks b) := by
  unfold endInstance
  refine BytesEq.trans ?_ (updGrp_bytes _ _ _)
  exact ⟨rfl, rfl, rfl, rfl, rfl⟩

theorem endInstance_only (h : s.reds = [r]) : (endInstance s r acks b).reds = [] := by simp [h]

end

section
variable {s : State} {r : RedInst}

theorem reductionInstanceComplete_only (h : s.reds = [r]) (others : List McShare) :
    exec (.reductionInstanceComplete r.gid r.off r.n others) s = .next (finishInstance s r others) := by
  change Host.Outcome.next _ = _
  simp [h]

/-- A member that is known not to contribute fails the reduction at once (R369). -/
theorem finishInstance_gone {others : List McShare} (h : (missing s r.gid others).any (fun m => (s.peerStatus m.2).isSome) = true) :
    ∃ acks, finishInstance s r others = endInstance s r acks false := by
  unfold finishInstance
  exact ⟨_, if_pos h⟩

/-- One value under an operation that is no float addition is its own result. -/
theorem reduceAll_one {aop : Nat} (ha : aop < 8) (size p v : Nat) :
    reduceAll aop size [(p, [(0, v, none)])] = some (none, plainBytes (bytesAt 0 size v 0)) := by
  have hc : combine aop size [v] = some v := by
    unfold combine
    split
    · omega
    · omega
    · rfl
  simp [reduceAll, List.eraseDups, List.eraseDupsBy, List.eraseDupsBy.loop, hc]

section
variable (hm : s.members r.gid = [(0, s.peerNo)])
include hm

/-- The only member misses no share but its own. -/
theorem missing_sole : missing s r.gid [] = [] := by simp [missing, hm]

variable {v : Nat} (hr : r.elems = [(0, v, none)]) (ha : r.aop < 8)
include hr ha

/-- What a reduction of the only member comes to: its own share, delivered to it or not. -/
theorem finishInstance_sole : ∃ acks, finishInstance s r [] = endInstance (if (s.peerStatus s.peerNo).isSome = true ∨ comesBack s r.gid r.off = false then s
    else (mcDeliver s (s.ftid (s.grp r.op.1).ctx) r.off .atomic (plainBytes (bytesAt 0 r.size v 0)) none).1) r acks false := by
  have hs : allShares s.peerNo r.elems [] = [(s.peerNo, [(0, v, none)])] := by simp [allShares, hr]
  simp only [finishInstance, missing_sole hm, hs, reduceAll_one ha, List.any_nil, List.isEmpty_nil, Bool.not_true, Bool.false_eq_true, if_false]
  cases s.peerStatus s.peerNo with
  | some e => exact ⟨_, rfl⟩
  | none => cases comesBack s r.gid r.off <;> exact ⟨_, rfl⟩

end

/-- A result that its window lets in is written into its sector. -/
theorem mcDeliver_one {ftid off d n v : Nat} (hi : inbound s ftid off .atomic = some (32 * d)) (h0 : 0 < n) (hl : n ≤ 32) :
    (mcDeliver s ftid off .atomic (plainBytes (bytesAt 0 n v 0)) none).1 = s.writeRoot d (plainBytes (bytesAt 0 n v 0)) none := by
  have hne : plainBytes (bytesAt 0 n v 0) ≠ [] := by
    rw [plainBytes_bytesAt]
    simp; omega
  simp only [mcDeliver, hi, rootBytes, bySector_one d _ hne (bytesAt_lt n v hl)]
  rfl

theorem peerStatus_isSome {p : Nat} : (s.peerStatus p).isSome = true ↔ Map.get 0 s.peers p ∈ [0, 1, 3] := by
  unfold State.peerStatus
  split <;> simp_all

/-- The only member's value, of four bytes, comes back to it and is written. -/
theorem reductionInstanceComplete_delivers {v d : Nat} {x : Group} (hn : NoErrors s) (hr : s.reds = [r]) (hm : s.members r.gid = [(0, s.peerNo)])
    (he : r.elems = [(0, v, none)]) (hz : r.size = 4) (ha : r.aop < 8) (hx : Map.find s.groups r.op.1 = some x)
    (hi : inbound s (s.ftid x.ctx) r.off .atomic = some (32 * d)) (hp : Map.get 0 s.peers s.peerNo = 2) (hc : comesBack s r.gid r.off = true) :
    ∃ u, exec (.reductionInstanceComplete r.gid r.off r.n []) s = .next u ∧ u.reds = [] ∧
      u.rootSector d = (s.rootSector d).write (plainBytes (bytesAt 0 4 v 0)) none ∧ ∀ m, m ≠ d → u.rootSector m = s.rootSector m := by
  obtain ⟨acks, hf⟩ := finishInstance_sole hm he ha
  have hst : ¬((s.peerStatus s.peerNo).isSome = true ∨ comesBack s r.gid r.off = false) := by
    rw [peerStatus_isSome, hp, hc]
    simp
  rw [if_neg hst, State.grp_of_find hx, hz, mcDeliver_one hi (by norm_num) (by norm_num)] at hf
  have hroot := fun j => rootSector_writeRoot hn d j (plainBytes (bytesAt 0 4 v 0)) none (bytesAt_lt 4 v (by norm_num))
  have hreds := (writeRoot_storeOnly s d (plainBytes (bytesAt 0 4 v 0)) none).field State.reds
  refine ⟨_, reductionInstanceComplete_only hr [], ?_⟩
  rw [hf]
  refine ⟨endInstance_only _ _ _ _ (hreds.trans hr), ?_, fun m hm => ?_⟩
  · rw [(endInstance_bytes _ _ _ _).rootSector, hroot, if_pos rfl]
  · rw [(endInstance_bytes _ _ _ _).rootSector, hroot, if_neg hm]

/-- A reduction that ends without a result writes no memory. -/
theorem reductionInstanceComplete_fails {others : List McShare} (hr : s.reds = [r]) (h : ∃ acks, finishInstance s r others = endInstance s r acks false) :
    ∃ u, exec (.reductionInstanceComplete r.gid r.off r.n others) s = .next u ∧ u.reds = [] ∧ MemoryKept s u := by
  obtain ⟨acks, hf⟩ := h
  refine ⟨_, reductionInstanceComplete_only hr others, ?_⟩
  rw [hf]
  exact ⟨endInstance_only _ _ _ _ hr, (endInstance_bytes _ _ _ _).memoryKept⟩

theorem finishInstance_withheld {v : Nat} (hm : s.members r.gid = [(0, s.peerNo)]) (he : r.elems = [(0, v, none)]) (ha : r.aop < 8)
    (h : Map.get 0 s.peers s.peerNo ∈ [0, 1, 3] ∨ comesBack s r.gid r.off = false) : ∃ acks, finishInstance s r [] = endInstance s r acks false := by
  obtain ⟨acks, hf⟩ := finishInstance_sole hm he ha
  rw [if_pos (h.imp_left peerStatus_isSome.2)] at hf
  exact ⟨acks, hf⟩

theorem missing_dead {p rank : Nat} (hm : (rank, p) ∈ s.members r.gid) (hp : p ≠ s.peerNo) (hd : Map.get 0 s.peers p = 3) :
    (missing s r.gid []).any (fun m => (s.peerStatus m.2).isSome) = true :=
  List.any_eq_true.2 ⟨_, List.mem_filter.2 ⟨hm, by simp [hp]⟩, peerStatus_isSome.2 (by simp [hd])⟩

end

/-! ### Acknowledgements (R366) -/

section
variable {s : State} {gid : Nat} {secs : List McSector}

/-- Without a failure among its packets, the only member's status is 0. -/
theorem mergeStatus_sole (hm : s.members gid = [(0, s.peerNo)]) (hp : s.peerStatus s.peerNo = none) (ha : ∀ q ∈ secs, ∀ a ∈ q.acks, a.2.1 = 0)
    (sts : List (Nat × Nat)) : mergeStatus s gid secs sts = [(0, s.peerNo, 0, 0)] := by
  have hf : secs.flatMap (fun q => (q.acks.filter (fun a => a.1 == 0 && a.2.1 != 0)).map (·.2)) = [] :=
    List.flatMap_eq_nil_iff.2 fun q hq => by
      rw [List.filter_eq_nil_iff.2 fun a h => by simp [ha q hq a h]]
      rfl
  simp [mergeStatus, hm, hp, hf]

/-- Members that all report success leave no entry. -/
theorem statusEntries_ok (s : State) (g : Nat) (o : AsyncOp) (lane : Nat) {ms : List (Nat × Nat × Nat × Nat)} (h : ∀ m ∈ ms, m.2.2.1 = 0) :
    statusEntries s g o lane ms = (s, o) := by
  have hn : ∀ (t : State) (st : Nat), st ≠ 0 → namedMember t st ms = none := fun t st hst => by
    have : ms.filter (fun m => m.2.2.1 == st) = [] := List.filter_eq_nil_iff.2 fun m hm => by simp [h m hm, hst.symm]
    simp [namedMember, this]
  simp [statusEntries, hn]

theorem ackOp_ok {g size aop : Nat} {b : Bool} {o : AsyncOp} (hk : o.kind = .mcast b gid size aop none secs) (hm : s.members gid = [(0, s.peerNo)])
    (hp : s.peerStatus s.peerNo = none) (ha : ∀ q ∈ secs, ∀ a ∈ q.acks, a.2.1 = 0) (sts : List (Nat × Nat)) :
    ackOp s g o sts = (s, { o with done := true }) := by
  simp only [ackOp, hk, mergeStatus_sole hm hp ha, statusEntries_ok s g o _ (ms := [(0, s.peerNo, 0, 0)]) (by simp), writeBitmap]

end

/-- A queue whose oldest operation alone has completed loses that one (R204). -/
theorem Path.leave_oldest {o : AsyncOp} {rest : List AsyncOp} (ho : o.done = true) (hr : ∀ a ∈ rest, a.done = false) (n : Nat) (pf : Bool) :
    (Path.leave (n + 1) ⟨o :: rest, pf⟩).ops = rest := by
  simp only [Path.leave, ho, if_true]
  cases n with
  | zero => rfl
  | succ n =>
    cases rest with
    | nil => rfl
    | cons a l => simp [Path.leave, hr a]

theorem storeOp_oldest {s : State} {g k : Nat} {x : Group} {o o' : AsyncOp} {rest : List AsyncOp} {pf : Bool} (hx : Map.find s.groups g = some x)
    (hp : x.path k = ⟨o :: rest, pf⟩) (hs : o'.seq = o.seq) (hd : o'.done = true) (hr : ∀ a ∈ rest, a.done = false ∧ a.seq ≠ o.seq) :
    ∃ y, Map.find (storeOp s g k o').groups g = some y ∧ y = { x with paths := y.paths } ∧ (y.path k).ops = rest := by
  have hm : (o :: rest).map (fun a => if a.seq == o'.seq then o' else a) = o' :: rest := by
    rw [List.map_cons, if_pos (by simp [hs]), List.map_congr_left (g := id) fun a ha => by simp [hs, (hr a ha).2], List.map_id]
  refine ⟨_, by rw [storeOp, State.find_updGrp, if_pos rfl, hx]; rfl, rfl, ?_⟩
  simp only [Group.path] at hp
  simp only [Group.path, Map.get_set_self, hp, hm]
  exact Path.leave_oldest hd (fun a ha => (hr a ha).1) _ _

theorem storeOp_bytes (s : State) (g k : Nat) (o : AsyncOp) : BytesEq s (storeOp s g k o) := updGrp_bytes _ _ _

theorem multicastAckReturn_settled {s : State} {g k : Nat} {o : AsyncOp} (ho : ((s.grp g).path pathFab).ops[k]? = some o) (hs : mcastSettled s g o = true)
    (sts : List (Nat × Nat)) : exec (.multicastAckReturn g k sts) s = .next (storeOp (ackOp s g o sts).1 g pathFab (ackOp s g o sts).2) := by
  change Host.Outcome.next _ = _
  simp only [ho, hs, if_true]

/-- The oldest operation, whose packets have all come back without a failure, completes with its acknowledgement. -/
theorem multicastAckReturn_ok {s : State} {g gid size aop : Nat} {red : Bool} {x : Group} {o : AsyncOp} {rest : List AsyncOp} {secs : List McSector}
    (hx : Map.find s.groups g = some x) (hp : x.path pathFab = ⟨o :: rest, false⟩) (hk : o.kind = .mcast red gid size aop none secs) (hd : o.done = false)
    (hr : s.reds = []) (hm : s.members gid = [(0, s.peerNo)]) (hs : Map.get 0 s.peers s.peerNo = 2) (ha : ∀ q ∈ secs, q.sent = true ∧ ∀ a ∈ q.acks, a.2.1 = 0)
    (hrest : ∀ a ∈ rest, a.done = false ∧ a.seq ≠ o.seq) : ∃ u y, exec (.multicastAckReturn g 0 []) s = .next u ∧ Map.find u.groups g = some y ∧
      y = { x with paths := y.paths } ∧ (y.path pathFab).ops = rest ∧ MemoryKept s u := by
  have hst : s.peerStatus s.peerNo = none := by simp only [State.peerStatus, hs]
  have hset : mcastSettled s g o = true := by
    simp only [mcastSettled, hk, hd, hr, List.any_nil, Bool.not_false, Bool.and_true, Bool.true_and]
    exact List.all_eq_true.2 fun q hq => (ha q hq).1
  have hop : ((s.grp g).path pathFab).ops[0]? = some o := by rw [State.grp_of_find hx, hp]; rfl
  obtain ⟨y, hy, hyx, hyp⟩ := storeOp_oldest (o' := { o with done := true }) hx hp rfl rfl hrest
  refine ⟨_, y, multicastAckReturn_settled hop hset [], ?_⟩
  rw [ackOp_ok hk hm hst fun q hq => (ha q hq).2]
  exact ⟨hy, hyx, hyp, (storeOp_bytes _ _ _ _).memoryKept⟩

/-! ### Resends (R359) -/

/-- A group's stores on their way stand as they were; it has not ended, and an orphaned token it holds it keeps. -/
structure StoresKept (x y : Group) : Prop where
  egress : y.egress = x.egress
  ended : y.ended = x.ended
  orphan : x.orphan.isSome = true → y.orphan.isSome = true

/-- No byte of memory has changed, and the group holds the stores it held. -/
structure LossOnly (g : Nat) (s t : State) : Prop where
  bytes : BytesEq s t
  group : ∀ x, Map.find s.groups g = some x → ∃ y, Map.find t.groups g = some y ∧ StoresKept x y

theorem LossOnly.trans {g : Nat} {s t u : State} (a : LossOnly g s t) (b : LossOnly g t u) : LossOnly g s u :=
  ⟨a.bytes.trans b.bytes, fun x hx => by
    obtain ⟨y, hy, h1⟩ := a.group x hx
    obtain ⟨z, hz, h2⟩ := b.group y hy
    exact ⟨z, hz, h2.egress.trans h1.egress, h2.ended.trans h1.ended, fun h => h2.orphan (h1.orphan h)⟩⟩

theorem LossOnly.of_groups {g : Nat} {s t : State} (hb : BytesEq s t) (h : t.groups = s.groups) : LossOnly g s t :=
  ⟨hb, fun x hx => ⟨x, h ▸ hx, rfl, rfl, id⟩⟩

theorem updGrp_lossOnly (g : Nat) (s : State) {f : Group → Group} (h : ∀ x, StoresKept x (f x)) : LossOnly g s (s.updGrp g f) :=
  ⟨updGrp_bytes s g f, fun x hx => ⟨f x, by simp [hx], h x⟩⟩

theorem bumpPerf_bytes (s : State) (x : Group) (k n : Nat) : BytesEq s (s.bumpPerf x k n) := .ite (.refl s) (updCtx_bytes _ _ _)
theorem bumpPerf_groups (s : State) (x : Group) (k n : Nat) : (s.bumpPerf x k n).groups = s.groups := by
  unfold State.bumpPerf
  split
  · rfl
  · rw [State.updCtx_groups]

theorem newEntryIn_lossOnly (s : State) (g : Nat) (region : BitVec 16) (pc : BitVec 64) (f : Fail) (lane : Nat) : LossOnly g s (newEntryIn s g region pc f lane).1 := by
  unfold newEntryIn
  dsimp only
  refine .trans ?_ (.trans (.of_groups (updCore_bytes _ _ _) (State.updCore_groups _ _ _)) (.of_groups (bumpPerf_bytes _ _ _ _) (bumpPerf_groups _ _ _ _)))
  split
  · exact .of_groups (.refl s) rfl
  · exact updGrp_lossOnly g s fun x => ⟨rfl, rfl, id⟩

theorem lateToken_lossOnly (s : State) (g : Nat) (q : Store) (f : Fail) : LossOnly g s (lateToken s g q f).1 := by
  unfold lateToken
  split
  · exact .trans (.of_groups (updCore_bytes _ _ _) (State.updCore_groups _ _ _)) (updGrp_lossOnly g _ fun x => ⟨rfl, rfl, id⟩)
  · refine (newEntryIn_lossOnly s g 0xFFFF q.pc f q.lane).trans ?_
    dsimp only
    split
    · exact .of_groups (.refl _) rfl
    · exact updGrp_lossOnly g _ fun x => ⟨rfl, rfl, id⟩

/-- A live group that is given an orphaned token holds one (R247). -/
theorem orphan_lossOnly (s : State) (g : Nat) (t : Word) : LossOnly g s (orphan s g t) ∧
    ∀ x, Map.find s.groups g = some x → x.ended = false → ∃ y, Map.find (orphan s g t).groups g = some y ∧ y.orphan.isSome = true := by
  have hk : ∀ x : Group, StoresKept x (if x.ended then x else { x with orphan := some (x.orphan.getD t) }) := fun x => by
    split
    · exact ⟨rfl, rfl, id⟩
    · exact ⟨rfl, rfl, fun _ => rfl⟩
  unfold orphan
  dsimp only
  split
  · exact ⟨updGrp_lossOnly g s hk, fun x hx he => ⟨_, by rw [State.find_updGrp, if_pos rfl, hx]; rfl, by simp [he]⟩⟩
  · exact ⟨(updGrp_lossOnly g s hk).trans (.of_groups (updGrid_bytes _ _ _) (State.updGrid_groups _ _ _)),
      fun x hx he => ⟨_, by rw [State.updGrid_groups, State.find_updGrp, if_pos rfl, hx]; rfl, by simp [he]⟩⟩

/-- A store whose packet is given up fails: its token is orphaned (R359). -/
def loseStore (g : Nat) (f : Fail) (s : State) (r : Store) : State := orphan (lateToken s g r f).1 g (lateToken s g r f).2

theorem loseStore_lossOnly (g : Nat) (f : Fail) (s : State) (r : Store) : LossOnly g s (loseStore g f s r) :=
  (lateToken_lossOnly s g r f).trans (orphan_lossOnly _ g _).1

theorem loseAll_lossOnly (g : Nat) (f : Fail) (l : List Store) : ∀ s, LossOnly g s (l.foldl (loseStore g f) s) := by
  induction l with
  | nil => exact fun s => .of_groups (.refl s) rfl
  | cons r l ih => exact fun s => (loseStore_lossOnly g f s r).trans (ih _)

/-- A group that loses a store goes on with an orphaned token. -/
theorem loseAll_orphan {g : Nat} (f : Fail) {l : List Store} (hl : l ≠ []) {s : State} {x : Group} (hx : Map.find s.groups g = some x) (he : x.ended = false) :
    ∃ y, Map.find (l.foldl (loseStore g f) s).groups g = some y ∧ y.egress = x.egress ∧ y.orphan.isSome = true := by
  cases l with
  | nil => exact absurd rfl hl
  | cons r l =>
    obtain ⟨y, hy, hxy⟩ := (lateToken_lossOnly s g r f).group x hx
    obtain ⟨hk, ho⟩ := orphan_lossOnly (lateToken s g r f).1 g (lateToken s g r f).2
    obtain ⟨z, hz, hyz⟩ := hk.group y hy
    obtain ⟨z', hz', hzo⟩ := ho y hy (hxy.ended.trans he)
    cases hz.symm.trans hz'
    obtain ⟨w, hw, hzw⟩ := (loseAll_lossOnly g f l _).group z hz
    exact ⟨w, hw, hzw.egress.trans (hyz.egress.trans hxy.egress), hzw.orphan hzo⟩

section
variable {s : State} {g k : Nat} {x : Group} {q : Store} {p off : Nat} (hx : Map.find s.groups g = some x) (hq : x.egress[k]? = some q) (hp : q.place = .peer p off)
include hq hp

/-- The stores of a packet's word travel with it. -/
theorem packet_ne_nil : x.egress.filter q.packet ≠ [] := by
  have hs : q.packet q = true := by simp [Store.packet, hp]
  exact List.ne_nil_of_mem (List.mem_filter.2 ⟨List.mem_of_getElem? hq, hs⟩)

include hx


/-- A packet goes once more, on a plane that the port has and that it did not take last. -/
theorem fabricResend_again (hd : Map.get 0 s.peers p ≠ 3) (ht : q.tries < 4) : ∃ next, exec (.fabricResend g k) s = .next { s with
      draws := s.draws + 1
      groups := Map.put s.groups g { x with egress := x.egress.map (fun r => if q.packet r then { r with tries := r.tries + 1, plane := next } else r) } } ∧
    ∃ n, next = ((s.livePlanes s.peerNo).filter (fun n => some n != q.plane))[n % ((s.livePlanes s.peerNo).filter (fun n => some n != q.plane)).length]? := by
  refine ⟨_, ?_, Config.freeNat (freeKey s.draws 49 0), rfl⟩
  change Host.Outcome.next (resend s g k) = _
  simp only [resend, State.grp_of_find hx, hq, hp, ht, if_true, if_neg (by simpa using hd : ¬(Map.get 0 s.peers p == 3) = true), State.updGrp, hx]

/-- A packet is given up: its peer is dead, or it has been resent four times. -/
theorem fabricResend_fails (h : Map.get 0 s.peers p = 3 ∨ 4 ≤ q.tries) : ∃ f, exec (.fabricResend g k) s =
    .next ((x.egress.filter q.packet).foldl (loseStore g f) (s.updGrp g (fun x => { x with egress := x.egress.filter (fun r => !q.packet r) }))) := by
  have he : exec (.fabricResend g k) s = .next (resend s g k) := rfl
  rw [he]
  by_cases hd : Map.get 0 s.peers p = 3
  · refine ⟨{ cause := .peerDead, akind := .peer, addr := p }, ?_⟩
    simp only [resend, State.grp_of_find hx, hq, hp, hd, beq_self_eq_true, if_true]
    rfl
  · have ht : ¬q.tries < 4 := by omega
    refine ⟨{ cause := .linkTimeout, detail := .fabricLink, akind := .peer, addr := p }, ?_⟩
    simp only [resend, State.grp_of_find hx, hq, hp, ht, if_false, if_neg (by simpa using hd : ¬(Map.get 0 s.peers p == 3) = true)]
    rfl

/-- The stores of a packet that is given up have left the group, which holds an orphaned token. -/
theorem fabricResend_lost (he : x.ended = false) (h : Map.get 0 s.peers p = 3 ∨ 4 ≤ q.tries) : ∃ u y, exec (.fabricResend g k) s = .next u ∧
    Map.find u.groups g = some y ∧ (y.egress.map fun p => { p with toks := [] }) = ((x.egress.filter (fun r => !q.packet r)).map fun p => { p with toks := [] }) ∧
    y.orphan.isSome = true ∧ MemoryKept s u := by
  obtain ⟨f, hf⟩ := fabricResend_fails hx hq hp h
  have hx1 : Map.find (s.updGrp g (fun x => { x with egress := x.egress.filter (fun r => !q.packet r) })).groups g =
      some { x with egress := x.egress.filter (fun r => !q.packet r) } := by simp [hx]
  obtain ⟨y, hy, hye, hyo⟩ := loseAll_orphan f (packet_ne_nil hq hp) hx1 he
  exact ⟨_, y, hf, hy, by rw [hye], hyo, ((updGrp_bytes _ _ _).trans (loseAll_lossOnly g f _ _).bytes).memoryKept⟩

end

/-- A free choice among the entries of a list. -/
theorem pick_spec {α : Type} (l : List α) (n : Nat) : (∀ a, l[n % l.length]? = some a → a ∈ l) ∧ (l ≠ [] → (l[n % l.length]?).isSome = true) :=
  ⟨fun _ h => List.mem_of_getElem? h, fun h => by simpa using Nat.mod_lt n (List.length_pos_iff.2 h)⟩

/-! ### Silence and death (R368) -/

section
variable {s : State} (peer plane : Nat)

/-- The state once a port has gone down on a plane. -/
def State.downOn (s : State) (peer plane : Nat) : State := { s with portDown := Map.put s.portDown (16 * peer + plane) true }

theorem downOn_portUp (s : State) (p : Nat) : (s.downOn peer plane).portUp peer p = true ↔ p ≠ plane ∧ Map.get false s.portDown (16 * peer + p) = false := by
  by_cases h : p = plane <;> simp [State.portUp, State.downOn, Map.get, Map.find_put, h]

/-- After the silence of a port that has another plane left the machine goes on, and otherwise its death is made known. -/
def State.silenced (s : State) (peer : Nat) : State := if (List.range 16).any (fun p => s.portUp peer p) then s else dueNow s (.deathNotice peer)

theorem silenced_reds (s : State) : (s.silenced peer).reds = s.reds := by unfold State.silenced; split <;> rfl
theorem silenced_portDown (s : State) : (s.silenced peer).portDown = s.portDown := by unfold State.silenced; split <;> rfl
theorem silenced_bytes (s : State) : BytesEq s (s.silenced peer) := .ite (.refl s) ⟨rfl, rfl, rfl, rfl, rfl⟩

theorem silenced_up (h : ∃ p < 16, p ≠ plane ∧ Map.get false s.portDown (16 * peer + p) = false) : (s.downOn peer plane).silenced peer = s.downOn peer plane := by
  obtain ⟨p, hp, hne, hu⟩ := h
  exact if_pos (List.any_eq_true.2 ⟨p, List.mem_range.2 hp, (downOn_portUp peer plane s p).2 ⟨hne, hu⟩⟩)

theorem silenced_down (h : ∀ p < 16, p ≠ plane → Map.get false s.portDown (16 * peer + p) = true) :
    (s.downOn peer plane).silenced peer = dueNow (s.downOn peer plane) (.deathNotice peer) := by
  refine if_neg fun ha => ?_
  obtain ⟨p, hp, hu⟩ := List.any_eq_true.1 ha
  obtain ⟨hne, hf⟩ := (downOn_portUp peer plane s p).1 hu
  simp [h p (List.mem_range.1 hp) hne] at hf

theorem fabricPortSilence_runs (h0 : s.phase = 0) : exec (.fabricPortSilence peer plane) s = .next (portSilence s peer plane) :=
  congrArg _ (if_pos (by simpa using h0))

variable {plane} (hl : plane < 16)
include hl

theorem portSilence_clear (hr : ∀ r ∈ s.reds, r.plane ≠ plane) : portSilence s peer plane = (s.downOn peer plane).silenced peer := by
  have hf : s.reds.filter (fun r => r.plane == plane) = [] := List.filter_eq_nil_iff.2 fun r hm => by simp [hr r hm]
  simp only [portSilence, Nat.mod_eq_of_lt hl, hf, List.foldl_nil]
  rfl

/-- The reduction in progress on the plane fails. -/
theorem portSilence_hit {r : RedInst} (hr : s.reds = [r]) (hp : r.plane = plane) :
    ∃ acks, portSilence s peer plane = (endInstance (s.downOn peer plane) r acks false).silenced peer := by
  have hf : s.reds.filter (fun r => r.plane == plane) = [r] := by simp [hr, hp]
  simp only [portSilence, Nat.mod_eq_of_lt hl, hf, List.foldl_cons, List.foldl_nil]
  exact ⟨_, rfl⟩

end

theorem fabricPortSilence_fails {s : State} {r : RedInst} (peer : Nat) (h0 : s.phase = 0) (hr : s.reds = [r]) (hl : r.plane < 16) :
    ∃ u, exec (.fabricPortSilence peer r.plane) s = .next u ∧ u.reds = [] ∧ u.portDown = Map.put s.portDown (16 * peer + r.plane) true ∧ MemoryKept s u := by
  obtain ⟨acks, hf⟩ := portSilence_hit (s := s) peer hl hr rfl
  refine ⟨_, fabricPortSilence_runs peer r.plane h0, ?_⟩
  rw [hf, silenced_reds, silenced_portDown, endInstance_portDown]
  refine ⟨endInstance_only _ _ _ _ hr, rfl, BytesEq.memoryKept (.trans (.trans ?_ (endInstance_bytes _ _ _ _)) (silenced_bytes _ _))⟩
  exact ⟨rfl, rfl, rfl, rfl, rfl⟩

theorem deathNotice_runs {s : State} {peer : Nat} (hp : peer < 4096) (h : s.phase = 0) :
    exec (.deathNotice peer) s = .next { s with peers := Map.put s.peers peer 3 } := by
  change Host.Outcome.next _ = _
  simp only [h, beq_self_eq_true, if_true, Nat.mod_eq_of_lt hp]

theorem deathNotice_stopped {s : State} (peer : Nat) (h : s.phase ≠ 0) : exec (.deathNotice peer) s = .next s := congrArg _ (if_neg (by simpa using h))

/-! ### The obligation -/

/-- Of two refused packets of one source the later, held, is refused after the earlier. -/
theorem fabricArrival_refused_held {s : State} {r : InReq} (hn : r.num = Map.get 0 s.fabNext r.src) (he : s.fabEarly = [{ r with num := r.num + 1 }])
    (hr : inbound s r.ftid.toNat r.off (inWhat r) = none) : fabricArrival s r = { s with
      fabNext := Map.put (Map.put s.fabNext r.src (r.num + 1)) r.src (r.num + 2), fabEarly := [],
      outbox := s.outbox ++ [⟨0, 6, [4]⟩] ++ [⟨0, 6, [4]⟩] } := by
  have h1 : inboundAt (s.tookFrom r) r = respond (s.tookFrom r) [4] := inboundAt_refused hr
  have hg : Map.get 0 (Map.put s.fabNext r.src (r.num + 1)) r.src = r.num + 1 := by simp [Map.get]
  rw [fabricArrival_turn hn, h1, he]
  simp only [List.length_singleton, deliverEarly, respond, State.tookFrom, he, hg, List.find?_cons, beq_self_eq_true, Bool.and_true, List.erase_cons_head]
  exact inboundAt_refused (r := { r with num := r.num + 1 }) hr

/-- Settles O53: a request goes by its window and sector, a reduction by its members, a packet by its peer and its tries, a port by its planes. -/
theorem fabricEvents : Obligations.FabricEvents := by
  refine ⟨fun s r w d => ?_, fun s r d v x hn hr hm he hz ha _ hx hi => ?_, fun s r p rank hr hm hp hd => ?_,
    fun s g x o rest red gid size aop secs hx hp hk hd hr hm hs ha hrest => ?_, fun s g k x q p off hx hq hp he => ?_,
    fun s peer plane h0 hr hl => ⟨fun h => ?_, fun h => ?_⟩, fun s r peer h0 hr hl => ?_, fun s peer hp => ⟨deathNotice_runs hp, deathNotice_stopped peer⟩⟩
  case refine_1 =>
    intro o opens x old posted writes inTurn took
    refine ⟨fun h i hi => ?_, fun h => ⟨fun hl => ?_, fun hl => ?_⟩, fun hs ho h0 hn => ?_, fun hw h0 => ?_⟩
    · obtain rfl | rfl : i = .remoteInboundRequest r ∨ i = .multicastCopyArrival r := by simpa using hi
      · exact remoteInboundRequest_stopped h
      · exact multicastCopyArrival_stopped h
    · rw [remoteInboundRequest_runs h, fabricArrival_again hl]
    · rw [remoteInboundRequest_runs h, fabricArrival_early hl]
    · obtain ⟨hw, hv, hf, hl, hk⟩ := ho
      have hopen : ∀ t : State, t.windows = s.windows → t.stackCount = s.stackCount → ∀ k, w.permits k = true → inbound t r.ftid.toNat r.off k = some (32 * d) :=
        fun t h1 h2 k h => (inbound_open (h1 ▸ hw) hv hf hl h).trans (by rw [h2]; exact hk)
      have hopen' := hopen took rfl rfl
      have hn' : NoErrors took := ⟨hn.l2, hn.unstruck⟩
      have arrives : ∀ u, inTurn → inboundAt took r = u → u.fabEarly = s.fabEarly → exec (.remoteInboundRequest r) s = .next u := fun u ht hu hue => by
        rw [remoteInboundRequest_runs h0, fabricArrival_alone ht hu hue]
      refine ⟨fun ht h hx => ?_, fun ht h t hx => ?_, fun h hww htok i hi hit => ?_, fun ht h hat htok hx v hv => ?_⟩
      · exact arrives _ ht (inboundAt_read_clean h hs (hopen' .read rfl) hn' hx) rfl
      · exact arrives _ ht (inboundAt_read_poisoned h hs (hopen' .read rfl) hn' hx) rfl
      · obtain rfl | rfl : i = .remoteInboundRequest r ∨ i = .multicastCopyArrival r := by simpa using hi
        · refine ⟨_, arrives _ (hit rfl) (inboundAt_write h hs (hopen' .write hww) htok) (wrote_fabEarly _ _ _), ⟨?_, fun m hm => ?_⟩, wrote_outbox _ _ _⟩
          · rw [wrote_rootSector hn', if_pos rfl]; rfl
          · rw [wrote_rootSector hn', if_neg hm]; rfl
        · refine ⟨s.wrote d r.data, ?_, ⟨?_, fun m hm => ?_⟩, wrote_outbox _ _ _⟩
          · rw [multicastCopyArrival_runs h0, multicastAt_write h hs (hopen s rfl rfl .write hww) htok]
          · rw [wrote_rootSector hn, if_pos rfl]
          · rw [wrote_rootSector hn, if_neg hm]
      · refine ⟨_, arrives _ ht (inboundAt_atomic h hs (hopen' .atomic hat) hn' htok hx hv) (modified_fabEarly _ _ _ _), ⟨?_, fun m hm => ?_⟩, modified_outbox _ _ _ _⟩
        · rw [modified_rootSector hn', if_pos rfl]; rfl
        · rw [modified_rootSector hn', if_neg hm]; rfl
    · have hshut : ∀ t : State, t.windows = s.windows → inbound t r.ftid.toNat r.off (inWhat r) = none := fun t h1 => inbound_shut (w := w) (h1 ▸ hw) _
      refine ⟨?_, fun ht => ?_, fun hnum he => ?_⟩
      · rw [multicastCopyArrival_runs h0, multicastAt_refused (hshut s rfl)]
        rfl
      · rw [remoteInboundRequest_runs h0, fabricArrival_alone ht (inboundAt_refused (hshut took rfl)) rfl]
        rfl
      · rw [remoteInboundRequest_runs h0, fabricArrival_refused_held hnum he (hshut s rfl)]
        rfl
  case refine_2 =>
    refine ⟨fun hp hc => ?_, fun hp => ?_⟩
    · exact reductionInstanceComplete_delivers hn hr hm he hz ha hx hi hp hc
    · exact reductionInstanceComplete_fails hr (finishInstance_withheld hm he ha hp)
  case refine_3 => exact reductionInstanceComplete_fails hr (finishInstance_gone (missing_dead hm hp hd))
  case refine_4 => exact multicastAckReturn_ok hx hp hk hd hr hm hs ha hrest
  case refine_5 =>
    refine ⟨fun hd ht => ?_, fun h => fabricResend_lost hx hq hp he (.inl h), fun h => fabricResend_lost hx hq hp he (.inr h)⟩
    obtain ⟨next, hnext, n, hpick⟩ := fabricResend_again hx hq hp hd ht
    obtain ⟨hin, hsome⟩ := pick_spec ((s.livePlanes s.peerNo).filter (fun n => some n != q.plane)) n
    refine ⟨next, hnext, fun m hm => ?_, fun ⟨m, hm, hne⟩ => ?_⟩
    · obtain ⟨h1, h2⟩ := List.mem_filter.1 (hin m (hpick ▸ hm))
      exact ⟨h1, fun h => by simp [h] at h2⟩
    · rw [hpick]
      exact hsome (List.ne_nil_of_mem (List.mem_filter.2 ⟨hm, by simpa using Ne.symm hne⟩))
  case refine_6 => rw [fabricPortSilence_runs peer plane h0, portSilence_clear peer hl hr, silenced_up peer plane h]; rfl
  case refine_7 => rw [fabricPortSilence_runs peer plane h0, portSilence_clear peer hl hr, silenced_down peer plane h]; rfl
  case refine_8 => exact fabricPortSilence_fails peer h0 hr hl

end Sys2Proof.Machine
end

section
/-! PROOFS. What no access, log or ending of a group touches: the clock, the firmware, the identity and the dies; and no group that has ended
goes on (R14, R254, R394, R396). -/
namespace Sys2Proof.Machine

/-! ### Two relations -/

/-- The clock, the firmware, the identity and the dies stand as they were. -/
structure Standing (s t : State) : Prop where
  time : t.time = s.time
  fw : t.fw = s.fw
  identity : t.identity = s.identity
  dies : t.dies = s.dies

theorem Standing.refl (s : State) : Standing s s := ⟨rfl, rfl, rfl, rfl⟩
theorem Standing.trans {s t u : State} (a : Standing s t) (b : Standing t u) : Standing s u :=
  ⟨b.time.trans a.time, b.fw.trans a.fw, b.identity.trans a.identity, b.dies.trans a.dies⟩
theorem Standing.fold {α : Type} (f : State → α → State) (h : ∀ s x, Standing s (f s x)) (l : List α) : ∀ s, Standing s (l.foldl f s) := by
  induction l with
  | nil => exact fun s => .refl s
  | cons x l ih => exact fun s => (h s x).trans (ih _)
/-- A fold that carries something beside the state. -/
theorem Standing.foldFst {α β : Type} (f : State × β → α → State × β) (h : ∀ r x, Standing r.1 (f r x).1) (l : List α) : ∀ r, Standing r.1 (l.foldl f r).1 := by
  induction l with
  | nil => exact fun r => .refl r.1
  | cons x l ih => exact fun r => (h r x).trans (ih _)
theorem Standing.ite {s t u : State} {p : Prop} [Decidable p] (a : Standing s t) (b : Standing s u) : Standing s (if p then t else u) := by
  split
  · exact a
  · exact b

/-- A group that has ended has no split. -/
def Group.Quiet (x : Group) : Prop := x.ended = true → x.s0 = none ∧ x.s1 = none

/-- A group that has ended stays so, and issues nothing. -/
structure GroupStays (x y : Group) : Prop where
  ended : x.ended = true → y.ended = true
  quiet : x.Quiet → y.Quiet

theorem GroupStays.refl (x : Group) : GroupStays x x := ⟨id, id⟩
theorem GroupStays.trans {x y z : Group} (a : GroupStays x y) (b : GroupStays y z) : GroupStays x z := ⟨b.ended ∘ a.ended, b.quiet ∘ a.quiet⟩

/-- Beside that, every group is still there, and none that has ended goes on. -/
structure Stays (s t : State) : Prop where
  standing : Standing s t
  groups : ∀ g x, Map.find s.groups g = some x → ∃ y, Map.find t.groups g = some y ∧ GroupStays x y

/-- A part of the machine that no group belongs to has changed. -/
theorem Stays.of_groups {s t : State} (h : Standing s t) (hg : t.groups = s.groups) : Stays s t :=
  ⟨h, fun _ x hx => ⟨x, hg ▸ hx, .refl x⟩⟩
theorem Stays.refl (s : State) : Stays s s := .of_groups (.refl s) rfl
theorem Stays.trans {s t u : State} (a : Stays s t) (b : Stays t u) : Stays s u :=
  ⟨a.standing.trans b.standing, fun g x hx => by
    obtain ⟨y, hy, hxy⟩ := a.groups g x hx
    obtain ⟨z, hz, hyz⟩ := b.groups g y hy
    exact ⟨z, hz, hxy.trans hyz⟩⟩
theorem Stays.fold {α : Type} (f : State → α → State) (h : ∀ s x, Stays s (f s x)) (l : List α) : ∀ s, Stays s (l.foldl f s) := by
  induction l with
  | nil => exact fun s => .refl s
  | cons x l ih => exact fun s => (h s x).trans (ih _)
theorem Stays.foldFst {α β : Type} (f : State × β → α → State × β) (h : ∀ r x, Stays r.1 (f r x).1) (l : List α) : ∀ r, Stays r.1 (l.foldl f r).1 := by
  induction l with
  | nil => exact fun r => .refl r.1
  | cons x l ih => exact fun r => (h r x).trans (ih _)
theorem Stays.ite {s t u : State} {p : Prop} [Decidable p] (a : Stays s t) (b : Stays s u) : Stays s (if p then t else u) := by
  split
  · exact a
  · exact b

/-- Every entry of a table is changed in one way. -/
theorem find_mapValues {α : Type} (m : List (Nat × α)) (f : Nat × α → α) (k : Nat) :
    Map.find (m.map (fun e => (e.1, f e))) k = (Map.find m k).map (fun a => f (k, a)) := by
  induction m with
  | nil => rfl
  | cons e m ih =>
    obtain ⟨j, a⟩ := e
    rw [List.map_cons, Map.find_cons, Map.find_cons, ih]
    by_cases h : j = k
    · subst h; simp
    · simp [h]

theorem Stays.of_map {s t : State} (h : Standing s t) (f : Nat × Group → Group) (hg : t.groups = s.groups.map (fun e => (e.1, f e)))
    (hf : ∀ e, GroupStays e.2 (f e)) : Stays s t :=
  ⟨h, fun g x hx => ⟨f (g, x), by rw [hg, find_mapValues, hx]; rfl, hf (g, x)⟩⟩

/-! ### Updates of one part -/

theorem updGrp_stays (s : State) (g : Nat) {f : Group → Group} (hf : ∀ x, GroupStays x (f x)) : Stays s (s.updGrp g f) :=
  ⟨⟨by simp, by simp, by simp, by simp⟩, fun h x hx => by
    rw [State.find_updGrp]
    by_cases e : h = g
    · subst e
      exact ⟨f x, by rw [if_pos rfl, hx]; rfl, hf x⟩
    · exact ⟨x, by rw [if_neg e, hx], .refl x⟩⟩
theorem updCore_stays (s : State) (k : Nat) (f : Core → Core) : Stays s (s.updCore k f) := .of_groups ⟨rfl, rfl, rfl, rfl⟩ rfl
theorem updCtx_stays (s : State) (c : Nat) (f : Ctx → Ctx) : Stays s (s.updCtx c f) := .of_groups ⟨by simp, by simp, by simp, by simp⟩ (by simp)
theorem updTeam_stays (s : State) (t : Nat) (f : Team → Team) : Stays s (s.updTeam t f) := .of_groups ⟨by simp, by simp, by simp, by simp⟩ (by simp)
theorem updGrid_stays (s : State) (n : Nat) (f : Grid → Grid) : Stays s (s.updGrid n f) := .of_groups ⟨by simp, by simp, by simp, by simp⟩ (by simp)
theorem updNode_stays (s : State) (n k : Nat) (f : Node → Node) : Stays s (s.updNode n k f) := updGrid_stays s n _
theorem updView_stays (s : State) (v : Nat) (f : View → View) : Stays s (s.updView v f) := by
  unfold State.updView
  split
  · exact .refl s
  · exact .of_groups ⟨rfl, rfl, rfl, rfl⟩ rfl
theorem draw_stays (s : State) : Stays s { s with draws := s.draws + 1 } := .of_groups ⟨rfl, rfl, rfl, rfl⟩ rfl

/-! ### Caches (R197 to R199, R289) -/

theorem block_stays (s : State) (ds : List Nat) (line : Nat) : Stays s (s.block ds line) := .ite (.refl s) (.of_groups ⟨rfl, rfl, rfl, rfl⟩ rfl)
theorem l1Inval_stays (s : State) (sec : Nat) (p : Nat → Bool) : Stays s (s.l1Inval sec p) := by
  unfold State.l1Inval
  exact (block_stays s _ _).trans (.of_groups ⟨rfl, rfl, rfl, rfl⟩ rfl)
theorem flushL1_stays (s : State) (d : Nat) : Stays s (s.flushL1 d) := .of_groups ⟨rfl, rfl, rfl, rfl⟩ rfl
theorem syncDir_stays (s : State) (line : Nat) : Stays s (s.syncDir line) := .of_groups ⟨rfl, rfl, rfl, rfl⟩ rfl
theorem dropErrors_stays (s : State) (sec : Nat) : Stays s (s.dropErrors sec) := .of_groups ⟨rfl, rfl, rfl, rfl⟩ rfl
theorem l2Drop_stays (s : State) (region line : Nat) : Stays s (s.l2Drop region line) := by
  unfold State.l2Drop
  refine .ite (.refl s) (.trans ?_ (((l1Inval_stays _ (2 * line) _).trans (l1Inval_stays _ (2 * line + 1) _)).trans (syncDir_stays _ line)))
  exact .of_groups ⟨rfl, rfl, rfl, rfl⟩ rfl
theorem l2DropAll_stays (s : State) (line : Nat) : Stays s (s.l2DropAll line) := .fold _ (fun s _ => l2Drop_stays s _ _) _ s
theorem dropCopies_stays (s : State) (sec : Nat) : Stays s (s.dropCopies sec) := by
  unfold State.dropCopies
  refine .ite ((dropErrors_stays s sec).trans (l1Inval_stays _ _ _)) (.trans ?_ ((l1Inval_stays _ _ _).trans (syncDir_stays _ _)))
  refine (dropErrors_stays s sec).trans ?_
  apply Stays.fold
  exact fun s h => .of_groups ⟨rfl, rfl, rfl, rfl⟩ rfl
theorem spillLine_stays (s : State) (region line : Nat) (b : Bool) : Stays s (spillLine s region line b) := .of_groups ⟨rfl, rfl, rfl, rfl⟩ rfl
theorem hitchTouch_stays (s : State) (line : Nat) : Stays s (hitchTouch s line) := by
  unfold hitchTouch
  refine (l2DropAll_stays s line).trans (.ite (.of_groups ⟨rfl, rfl, rfl, rfl⟩ rfl) ?_)
  dsimp only
  split
  · refine Stays.trans ?_ (spillLine_stays _ _ _ _)
    exact .of_groups ⟨rfl, rfl, rfl, rfl⟩ rfl
  · exact .of_groups ⟨rfl, rfl, rfl, rfl⟩ rfl
theorem hitchLeave_stays (s : State) (line : Nat) : Stays s (hitchLeave s line) := .of_groups ⟨rfl, rfl, rfl, rfl⟩ rfl
theorem passLine_stays (s : State) (line : Nat) : Stays s (s.passLine line) := by
  unfold State.passLine
  exact .ite (.of_map ⟨rfl, rfl, rfl, rfl⟩ _ rfl fun e => ⟨id, id⟩) (.refl s)
theorem writeBack_stays (s : State) (k : Nat) : Stays s (s.writeBack k) := by
  unfold State.writeBack
  split
  · exact .refl s
  · dsimp only
    split
    · exact .refl s
    · split
      · exact .of_groups ⟨rfl, rfl, rfl, rfl⟩ rfl
      · split
        · exact .of_groups ⟨rfl, rfl, rfl, rfl⟩ rfl
        · exact .of_groups ⟨rfl, rfl, rfl, rfl⟩ rfl
        · exact .of_groups ⟨rfl, rfl, rfl, rfl⟩ rfl

theorem hostLeave_stays (s : State) (region k : Nat) : Stays s (s.hostLeave region k) := by
  have put : ∀ (u : State) (m : List (Nat × HostLine)), Stays u { u with hostL2 := m } := fun u m => .of_groups ⟨rfl, rfl, rfl, rfl⟩ rfl
  unfold State.hostLeave
  split
  · exact .refl s
  · rename_i l _
    have w : Stays s (if l.owner == region || l.regions &&& ~~~(BitVec.ofNat 8 (2 ^ region)) == 0 then s.writeBack k else s) := .ite (writeBack_stays s k) (.refl s)
    dsimp only
    split
    · exact w
    · exact w.trans (.ite (.ite (put _ _) (.refl _)) (put _ _))
theorem l2Leave_stays (s : State) (region line : Nat) : Stays s (s.l2Leave region line) :=
  .ite ((hostLeave_stays s _ _).trans (hostLeave_stays _ _ _)) (l2Drop_stays s _ _)
theorem l2Room_stays (s : State) (region line : Nat) : Stays s (s.l2Room region line) := by
  unfold State.l2Room
  exact .ite (.refl s) (.ite (.refl s) (.fold _ (fun s l => l2Leave_stays s _ _) _ _))
theorem l2Own_stays (s : State) (region sec : Nat) (wrote : Bool) : Stays s (s.l2Own region sec wrote) := by
  unfold State.l2Own
  refine (l2Room_stays s region (lineOf sec)).trans (.ite (.refl _) ?_)
  generalize s.l2Room region (lineOf sec) = u
  have w : Stays u (((u.holders (lineOf sec)).filter (fun h => h.1 != region)).foldl (fun s h => s.l2Drop h.1 (lineOf sec)) u) :=
    .fold _ (fun s h => l2Drop_stays s _ _) _ u
  refine w.trans (.trans ?_ (syncDir_stays _ _))
  exact .of_groups ⟨rfl, rfl, rfl, rfl⟩ rfl
theorem touchAt_stays (s : State) (core view scope : Nat) (p : Place) : Stays s (touchAt s core view scope p) := by
  unfold touchAt
  split
  · refine (passLine_stays s _).trans (.ite (hitchTouch_stays _ _) ((hitchLeave_stays _ _).trans (.ite (.refl _) (l2Own_stays _ _ _ _))))
  · exact .refl s
theorem countSector_stays (s : State) (x : Group) (p : Place) : Stays s (s.countSector x p) := by
  unfold State.countSector
  split
  · unfold State.countBytes
    split
    · exact .refl s
    · exact .of_groups ⟨rfl, rfl, rfl, rfl⟩ rfl
  · exact .refl s
theorem wroteBy_stays (b s : State) (x : Group) (view : Nat) (p : Place) : Stays s (wroteBy b s x view p) := by
  unfold wroteBy
  refine (countSector_stays s x p).trans ?_
  dsimp only
  split
  · exact (l2Own_stays _ _ _ _).trans (.ite (updCore_stays _ _ _) (.refl _))
  · rename_i port pa
    refine (l2Room_stays _ (regionOf x.core) (lineOf (hostSec (hostKey port pa / 32)))).trans ?_
    split
    · refine Stays.trans ?_ (.ite (updCore_stays _ _ _) (.refl _))
      exact .of_groups ⟨rfl, rfl, rfl, rfl⟩ rfl
    · exact .refl _
  · exact .refl _
theorem writeBackCtx_stays (s : State) (ctx : Nat) : Stays s (s.writeBackCtx ctx) := .fold _ (fun s _ => writeBack_stays s _) _ s
theorem dropClean_stays (s : State) (ctx : Nat) : Stays s (s.dropClean ctx) := .of_groups ⟨rfl, rfl, rfl, rfl⟩ rfl
theorem releaseSys_stays (s : State) (ctx scope : Nat) : Stays s (releaseSys s ctx scope) :=
  .ite ((writeBackCtx_stays s ctx).trans (dropClean_stays _ ctx)) (.refl s)
theorem markThrough_stays (s : State) (k : Nat) : Stays s (s.markThrough k) := by
  unfold State.markThrough
  split
  · exact .of_groups ⟨rfl, rfl, rfl, rfl⟩ rfl
  · exact .refl s
theorem dropView_stays (s : State) (v : Nat) : Stays s (s.dropView v) := .of_groups ⟨rfl, rfl, rfl, rfl⟩ rfl
theorem sweepLost_stays (s : State) : Stays s (sweepLost s) := by
  unfold sweepLost
  refine Stays.trans ?_ (.fold _ (fun s v => dropView_stays s v) _ _)
  exact .of_groups ⟨rfl, rfl, rfl, rfl⟩ rfl

/-! ### Writes of memory (R193, R198, R237, R339) -/

theorem putRoot_stays (s : State) (k : Nat) (x : Sector) : Stays s (s.putRoot k x) := .of_groups ⟨rfl, rfl, rfl, rfl⟩ rfl
theorem snoop_stays (s : State) (line : Nat) : Stays s (snoop s line) := by
  unfold snoop
  dsimp only
  generalize hs : s.block _ line = t
  have hb : Stays s t := hs ▸ block_stays s _ line
  refine hb.trans ?_
  split
  · exact .of_map ⟨rfl, rfl, rfl, rfl⟩ _ rfl fun e => ⟨id, id⟩
  · exact .of_map ⟨rfl, rfl, rfl, rfl⟩ _ rfl fun e => ⟨id, id⟩
theorem writeRoot_stays (s : State) (k : Nat) (bs : List (Nat × Byte)) (token : Option Word) : Stays s (s.writeRoot k bs token) :=
  (putRoot_stays s k _).trans ((dropCopies_stays _ _).trans (snoop_stays _ _))
theorem stamp_stays (s : State) (k : Nat) (t : Word) : Stays s (s.stamp k t) := by
  unfold State.stamp
  refine Stays.trans (.ite ?_ (.ite (putRoot_stays s _ _) (updView_stays s _ _))) (dropErrors_stays _ k)
  split
  · exact .of_groups ⟨rfl, rfl, rfl, rfl⟩ rfl
  · exact .refl s
theorem writeDev_stays {s t : State} {v k : Nat} {bs : List (Nat × Byte)} {token : Option Word} (h : s.writeDev v k bs token = some t) : Stays s t := by
  have put : ∀ m : List (Nat × View), Stays s ({ s with views := m }.dropCopies (tagged (liveView s.views 1024 v) k)) := fun m =>
    .trans (t := { s with views := m }) (.of_groups ⟨rfl, rfl, rfl, rfl⟩ rfl) (dropCopies_stays _ _)
  unfold State.writeDev at h
  dsimp only at h
  split at h
  · cases h; exact writeRoot_stays s k bs token
  · split at h
    · cases h; exact .refl s
    · split at h
      · cases h; exact .refl s
      · split at h
        · cases h; exact put _
        · split at h
          · cases h
          · cases h; exact put _
theorem writeHost_stays (s : State) (ctx k : Nat) (bs : List (Nat × Byte)) (token : Option Word) : Stays s (s.writeHost ctx k bs token) := by
  unfold State.writeHost
  refine ((dropErrors_stays s (hostSec k)).trans (l1Inval_stays _ (hostSec k) (fun _ => true))).trans ?_
  exact .of_groups ⟨rfl, rfl, rfl, rfl⟩ rfl
theorem writeScr_stays (s : State) (t : Nat) (bs : List (Nat × Byte)) (token : Option Word) : Stays s (s.writeScr t bs token) := updTeam_stays s t _
theorem performBytes_stays (s : State) (ctx v key : Nat) (p : Place) (bs : List (Nat × Byte)) (token : Option Word) :
    Stays s (performBytes s ctx v key p bs token).1 := by
  unfold performBytes
  split
  · split
    · rename_i h
      exact writeDev_stays h
    · exact .refl s
  · exact writeHost_stays _ _ _ _ _
  · exact writeScr_stays _ _ _ _
  · split
    · exact .refl s
    · split
      · split
        · exact writeRoot_stays _ _ _ _
        · exact .refl s
      · exact .refl s
theorem checkedBytes_stays (s : State) (ctx v key : Nat) (p : Place) (bs : List (Nat × Byte)) (token : Option Word) :
    Stays s (checkedBytes s ctx v key p bs token).1 := by
  unfold checkedBytes
  split
  · split
    · exact .refl s
    · exact performBytes_stays _ _ _ _ _ _ _
  · exact performBytes_stays _ _ _ _ _ _ _
theorem performSector_stays (s : State) (ctx v key : Nat) (q : Store) : Stays s (performSector s ctx v key q).1 := by
  unfold performSector
  split
  · exact (performBytes_stays _ _ _ _ _ _ _).trans (.fold _ (fun s e => performBytes_stays _ _ _ _ _ _ _) _ _)
  · exact performBytes_stays _ _ _ _ _ _ _
theorem performAtomic_stays (s : State) (x : Group) (v key : Nat) (p : Place) (aop size a b : Nat) (vt : Option Word) :
    Stays s (performAtomic s x v key p aop size a b vt).1 := by
  unfold performAtomic
  dsimp only
  split
  · split
    · exact .refl s
    · split
      · exact .refl s
      · split
        · rename_i pt a _
          refine (writeBack_stays s (hostKey pt a / 32)).trans ?_
          split
          · exact .refl _
          · split
            · exact .refl _
            · refine (l1Inval_stays _ (hostSec (hostKey pt a / 32)) (fun _ => true)).trans ?_
              exact .of_groups ⟨rfl, rfl, rfl, rfl⟩ rfl
        · exact .refl s
  · split
    · exact .refl s
    · split
      · split
        · exact .refl s
        · rename_i k _
          refine ((passLine_stays s (k / 64)).trans (hitchTouch_stays _ (k / 64))).trans ?_
          split
          · exact .refl _
          · split
            · exact .refl _
            · exact writeRoot_stays _ _ _ _
      · split
        · exact .refl s
        · exact .refl s
  · split
    · split
      · exact .refl s
      · rename_i r _
        have w := performBytes_stays s x.ctx v key (sectorBase p).1 (plainBytes (bytesAt (sectorBase p).2 size r 0)) none
        split
        · rename_i e; rw [e] at w; exact w
        · rename_i e; rw [e] at w; exact w
    · exact .refl s
    · exact .refl s

end Sys2Proof.Machine
end

section
/-! PROOFS. What no access, log or ending of a group touches, for the operations that groups are the subject of (R205, R232, R247, R263, R344,
R399). -/
namespace Sys2Proof.Machine

/-! ### Tokens (R232, R241, R247) -/

theorem bumpPerf_stays (s : State) (x : Group) (k n : Nat) : Stays s (s.bumpPerf x k n) := .ite (.refl s) (updCtx_stays _ _ _)
theorem newEntryIn_stays (s : State) (g : Nat) (region : BitVec 16) (pc : BitVec 64) (f : Fail) (lane : Nat) : Stays s (newEntryIn s g region pc f lane).1 := by
  unfold newEntryIn
  dsimp only
  refine .trans ?_ ((updCore_stays _ _ _).trans (bumpPerf_stays _ _ _ _))
  split
  · exact .refl s
  · exact updGrp_stays s g fun _ => ⟨id, id⟩
theorem newEntry_stays (s : State) (g : Nat) (pc : BitVec 64) (f : Fail) (lane : Nat) : Stays s (newEntry s g pc f lane).1 := newEntryIn_stays _ _ _ _ _ _
theorem lowerEntry_stays (s : State) (g : Nat) (t : Word) (f : Fail) (lane : Nat) : Stays s (lowerEntry s g t f lane) :=
  (updCore_stays _ _ _).trans (updGrp_stays _ g fun _ => ⟨id, id⟩)
theorem lateToken_stays (s : State) (g : Nat) (q : Store) (f : Fail) : Stays s (lateToken s g q f).1 := by
  unfold lateToken
  split
  · exact lowerEntry_stays _ _ _ _ _
  · refine (newEntryIn_stays s g 0xFFFF q.pc f q.lane).trans ?_
    exact .ite (.refl _) (updGrp_stays _ g fun _ => ⟨id, id⟩)
theorem orphan_stays (s : State) (g : Nat) (t : Word) : Stays s (orphan s g t) := by
  have hk : ∀ x : Group, GroupStays x (if x.ended then x else { x with orphan := some (x.orphan.getD t) }) := fun x => by
    split
    · exact .refl x
    · exact ⟨id, id⟩
  unfold orphan
  dsimp only
  split
  · exact updGrp_stays s g hk
  · exact (updGrp_stays s g hk).trans (updGrid_stays _ _ _)
theorem flagRegion_stays (s : State) (g : Nat) (t : Word) (i : Nat) (b : Bool) : Stays s (flagRegion s g t i b) := by
  unfold flagRegion
  exact .ite (updGrp_stays s g fun _ => ⟨id, id⟩) (orphan_stays s g t)
theorem flagStore_stays (s : State) (g : Nat) (q : Store) (t : Word) : Stays s (flagStore s g q t) := by
  unfold flagStore
  split
  · exact orphan_stays s g t
  · exact orphan_stays s g t
  · exact flagRegion_stays _ _ _ _ _

/-! ### Stores on their way (R205, R263, R269) -/

theorem surface_stays (s : State) (g : Nat) (q : Store) : Stays s (surface s g q) := by
  unfold surface
  dsimp only
  split
  · exact .refl s
  · exact .ite (.refl s) ((lateToken_stays _ _ _ _).trans (stamp_stays _ _ _))
theorem performStoreB_stays (s : State) (g : Nat) (q : Store) : Stays s (performStoreB s g q).1 := by
  have fail : ∀ (u : State) (f : Fail), Stays u (flagStore (lateToken u g q f).1 g q (lateToken u g q f).2) := fun u f =>
    (lateToken_stays _ _ _ _).trans (flagStore_stays _ _ _ _)
  unfold performStoreB
  dsimp only
  generalize hu : surface { s with draws := s.draws + 1 } g q = u
  have hs : Stays s u := hu ▸ (draw_stays s).trans (surface_stays _ _ _)
  refine hs.trans ?_
  split
  · rename_i aop size v _
    generalize hp : performAtomic (touchAt u _ q.view q.scope _) _ q.view _ _ aop size v 0 _ = r
    have ha : Stays u r.1 := hp ▸ (touchAt_stays _ _ _ _ _).trans (performAtomic_stays _ _ _ _ _ _ _ _ _ _)
    obtain ⟨t, e⟩ := r
    refine ha.trans ?_
    cases e with
    | val _ => exact wroteBy_stays _ _ _ _ _
    | tok _ => exact flagStore_stays _ _ _ _
    | new f => exact fail t _
    | beside _ => exact .refl t
  · generalize hp : performSector u _ q.view _ q = r
    have ha : Stays u r.1 := hp ▸ performSector_stays _ _ _ _ _
    obtain ⟨t, e⟩ := r
    refine ha.trans ?_
    cases e with
    | none => exact wroteBy_stays _ _ _ _ _
    | some f => exact fail t _
theorem performStore_stays (s : State) (g : Nat) (q : Store) : Stays s (performStore s g q) := performStoreB_stays s g q
theorem performNext_stays (s : State) (g : Nat) (q : Store) : Stays s (performNext s g q) := by
  unfold performNext
  refine .ite (performStore_stays s g q) ?_
  dsimp only
  generalize hu : performStore (if q.backed then s else releaseSys s (s.grp g).ctx q.scope) g q = u
  have w : Stays s u := hu ▸ (Stays.ite (.refl s) (releaseSys_stays s _ _)).trans (performStore_stays _ _ _)
  refine w.trans ?_
  split
  · exact .ite (markThrough_stays u _) (.refl u)
  · exact .refl u
theorem drainEgress_stays (s : State) (g : Nat) : Stays s (drainEgress s g) := by
  unfold drainEgress
  refine Stays.trans ?_ (.fold _ (fun s q => performNext_stays s g q) _ _)
  exact updGrp_stays s g fun _ => ⟨id, id⟩
theorem settleWith_stays (s : State) (g : Nat) (need : Store → Nat) : Stays s (settleWith s g need) := by
  unfold settleWith
  refine Stays.trans ?_ (.fold _ (fun s q => performNext_stays s g q) _ _)
  exact updGrp_stays s g fun _ => ⟨id, id⟩
theorem settleOwed_stays (s : State) (g : Nat) : Stays s (settleOwed s g) := .fold _ (fun s _ => .ite (.refl s) (settleWith_stays s _ _)) _ s
theorem storeOp_stays (s : State) (g k : Nat) (o : AsyncOp) : Stays s (storeOp s g k o) := updGrp_stays s g fun _ => ⟨id, id⟩
theorem performReds_stays (s : State) (g : Nat) (o : AsyncOp) (p : Store → Bool) : Stays s (performReds s g o p) := by
  unfold performReds
  split
  · generalize hr : List.foldl _ (s, false) _ = r
    have w : Stays s r.1 := by
      rw [← hr]
      refine .foldFst _ (fun r q => ?_) _ (s, false)
      exact performStoreB_stays r.1 g q
    exact w.trans (storeOp_stays _ _ _ _)
  · exact .refl s
theorem drainReds_stays (s : State) (g : Nat) (p : Store → Bool) : Stays s (drainReds s g p) := .fold _ (fun s o => performReds_stays s g o p) _ s
theorem ackInvals_stays (s : State) : Stays s (ackInvals s) := by
  unfold ackInvals
  dsimp only
  refine Stays.trans ?_ (.fold _ (fun s p => ?_) _ _)
  · refine Stays.trans ?_ (.fold _ (fun s g => drainEgress_stays s g) _ _)
    exact .of_groups ⟨rfl, rfl, rfl, rfl⟩ rfl
  · exact drainReds_stays s p.1 _
theorem fullFence_stays (s : State) (g scope : Nat) : Stays s (fullFence s g scope) := by
  unfold fullFence settleBy
  dsimp only
  generalize hu : settleWith s g _ = u
  have w : Stays s u := hu ▸ settleWith_stays s g _
  refine w.trans ?_
  split
  · exact (ackInvals_stays u).trans (releaseSys_stays _ _ _)
  · exact releaseSys_stays _ _ _

/-! ### Join windows (R165) -/

theorem deliver_stays (s : State) (core : Nat) (j : JoinWin) : Stays s (deliver s core j) := by
  unfold deliver
  refine Stays.trans (.fold _ (fun s g => settleOwed_stays s g) j.members s) ?_
  exact .of_groups ⟨rfl, rfl, rfl, rfl⟩ rfl
theorem closeJoins_stays (s : State) (gs : List Nat) : Stays s (closeJoins s gs) := by
  unfold closeJoins closeWhere
  refine .fold _ (fun s c => ?_) _ s
  exact .fold _ (fun s j => deliver_stays s c.1 j) _ s

/-! ### Bins (R295, R296) -/

theorem answer_stays (s : State) (g seq : Nat) (a : List (BitVec 128) × Nat × Nat) : Stays s (answer s g seq a) := updGrp_stays s g fun _ => ⟨id, id⟩
theorem serveNode_stays (grid n : Nat) (f : Nat) : ∀ s : State, Stays s (serveNode s grid n f) := by
  induction f with
  | zero => exact fun s => .refl s
  | succ f ih =>
    intro s
    unfold serveNode
    split
    · exact .refl s
    · split
      · exact .refl s
      · exact .ite (.refl s) (((updNode_stays _ _ _ _).trans (answer_stays _ _ _ _)).trans (ih _))
theorem withdraw_stays (s : State) (g : Nat) : Stays s (withdraw s g) := by
  unfold withdraw
  dsimp only
  refine Stays.trans ?_ (.fold _ (fun s o => ?_) _ _)
  · refine Stays.trans (.fold _ (fun s o => ?_) _ s) (updGrp_stays _ g fun _ => ⟨id, id⟩)
    refine .ite ?_ (.refl s)
    split
    · exact updNode_stays _ _ _ _
    · exact .refl s
  · split
    · exact serveNode_stays _ _ _ s
    · exact .refl s
theorem enterBin_stays (s : State) (grid n : Nat) (r : BitVec 128) : Stays s (enterBin s grid n r) := by
  unfold enterBin
  split
  · exact .refl s
  · refine (updNode_stays s grid n _).trans (.ite (.ite ?_ (.refl _)) (serveNode_stays _ _ _ _))
    exact .of_groups ⟨rfl, rfl, rfl, rfl⟩ rfl

/-! ### Logs (R344, R347) -/

theorem mapSplits_stays (x : Group) (f : Split → Split) : GroupStays x (x.mapSplits f) :=
  ⟨id, fun hq he => by
    obtain ⟨h0, h1⟩ := hq he
    exact ⟨by simp [Group.mapSplits, h0], by simp [Group.mapSplits, h1]⟩⟩
theorem signalOp_stays (s : State) (ctx n : Nat) (add : Bool) (v : BitVec 64) : Stays s (signalOp s ctx n add v) := by
  unfold signalOp
  dsimp only
  generalize hu : s.updCtx ctx _ = u
  have w : Stays s u := hu ▸ updCtx_stays s ctx _
  refine w.trans ?_
  refine .of_map ⟨rfl, rfl, rfl, rfl⟩
    (fun e => if e.2.ctx == ctx then e.2.mapSplits (Split.meetSignal n (if add then s.sigVal ctx n + v else v)) else e.2) ?_ fun e => ?_
  · refine List.map_congr_left fun e _ => ?_
    split <;> rfl
  · split
    · exact mapSplits_stays _ _
    · exact .refl _
theorem playOp_stays (s : State) (g k lane : Nat) (pc : BitVec 64) (a : AsyncKind) : Stays s (playOp s g k lane pc a) := updGrp_stays s g fun _ => ⟨id, id⟩
theorem playMcast_stays (s : State) (g : Nat) (pc : BitVec 64) (red : Bool) (gid size aop : Nat) (rel : Bool) (q : McSector) :
    Stays s (playMcast s g pc red gid size aop rel q) := by
  unfold playMcast
  exact Stays.trans (.ite (fullFence_stays s g 4) (.refl s)) (playOp_stays _ _ _ _ _ _)
theorem playFail_stays (s : State) (g : Nat) (c : Cause) (pc : BitVec 64) : Stays s (playFail s g c pc) :=
  (newEntry_stays _ _ _ _ _).trans (orphan_stays _ _ _)
theorem playEntry_stays (g : Nat) (pc : BitVec 64) (r : State × List (Nat × Nat × BitVec 128) × List Nat) (e : LogOp) : Stays r.1 (playEntry g pc r e).1 := by
  obtain ⟨s, recs, last⟩ := r
  unfold playEntry
  dsimp only
  refine (draw_stays s).trans ?_
  split
  · exact Stays.trans (.ite (fullFence_stays _ _ _) (.refl _)) (performNext_stays _ _ _)
  · exact Stays.trans (.ite (fullFence_stays _ _ _) (.refl _)) (.fold _ (fun s q => performNext_stays s g _) _ _)
  · exact (fullFence_stays _ _ _).trans (signalOp_stays _ _ _ _ _)
  · split
    · exact playFail_stays _ _ _ _
    · split
      · exact .refl _
      · exact enterBin_stays _ _ _ _
  · exact .fold _ (fun s n => updNode_stays s _ n _) _ _
  · exact playOp_stays _ _ _ _ _ _
  · exact playOp_stays _ _ _ _ _ _
  · exact playMcast_stays _ _ _ _ _ _ _ _ _
theorem playLog_stays (s : State) (g : Nat) : Stays s (playLog s g) := by
  unfold playLog
  split
  · exact .refl s
  · rename_i p _
    generalize hr : List.foldl (playEntry g p.pc) ({ s with plays := s.plays.filter (fun q => q.gid != g) }, [], []) p.log = r
    have h0 : Stays s { s with plays := s.plays.filter (fun q => q.gid != g) } := .of_groups ⟨rfl, rfl, rfl, rfl⟩ rfl
    have w : Stays s r.1 := hr ▸ h0.trans (.foldFst _ (fun r e => playEntry_stays g p.pc r e) p.log (_, [], []))
    refine w.trans ?_
    dsimp only
    split
    · exact .refl _
    · exact playOp_stays _ _ _ _ _ _

/-! ### The end of a group (R399) -/

theorem writeArea_stays (s : State) (g : Nat) : Stays s (writeArea s g) := by
  unfold writeArea
  refine .fold _ (fun s e => ?_) _ s
  split
  · exact .refl s
  · split
    · exact (checkedBytes_stays _ _ _ _ _ _ _).trans (checkedBytes_stays _ _ _ _ _ _ _)
    · exact .refl s
theorem freeSide_stays (s : State) (g : Nat) : Stays s (freeSide s g) := by
  unfold freeSide
  exact updCore_stays _ _ _
theorem copyOrphan_stays (s : State) (g : Nat) : Stays s (copyOrphan s g) := by
  unfold copyOrphan
  dsimp only
  split
  · exact .refl s
  · exact updGrid_stays _ _ _
theorem isOver_stays (x : Group) : GroupStays x x.isOver := ⟨fun _ => rfl, fun _ _ => ⟨rfl, rfl⟩⟩

/-- What a group's end leaves before the group itself is over. -/
theorem endGroup_eq (s : State) (g : Nat) (cond : Option Nat) (h : (s.grp g).ended = false) : ∃ u, Stays s u ∧ endGroup s g cond = sweepLost (u.updGrp g Group.isOver) := by
  unfold endGroup
  dsimp only
  rw [if_neg (by simp [h])]
  refine ⟨_, ?_, rfl⟩
  refine Stays.trans ?_ (updCore_stays _ _ _)
  have w := (copyOrphan_stays s g).trans ((writeArea_stays _ g).trans ((freeSide_stays _ g).trans (withdraw_stays _ g)))
  split
  · exact w
  · exact w.trans (updGrid_stays _ _ _)

theorem endGroup_stays (s : State) (g : Nat) (cond : Option Nat) : Stays s (endGroup s g cond) := by
  cases h : (s.grp g).ended with
  | true => unfold endGroup; dsimp only; rw [if_pos h]; exact .refl s
  | false =>
    obtain ⟨u, hu, e⟩ := endGroup_eq s g cond h
    rw [e]
    exact hu.trans ((updGrp_stays u g isOver_stays).trans (sweepLost_stays _))

/-- A group that is ended has no split. -/
theorem endGroup_over {s : State} {g : Nat} {x : Group} (hx : Map.find s.groups g = some x) (hq : x.Quiet) (cond : Option Nat) :
    ∃ y, Map.find (endGroup s g cond).groups g = some y ∧ y.ended = true ∧ y.Quiet := by
  cases h : x.ended with
  | true =>
    obtain ⟨y, hy, hxy⟩ := (endGroup_stays s g cond).groups g x hx
    exact ⟨y, hy, hxy.ended h, hxy.quiet hq⟩
  | false =>
    obtain ⟨u, hu, e⟩ := endGroup_eq s g cond (by rw [State.grp_of_find hx, h])
    obtain ⟨y, hy, -⟩ := hu.groups g x hx
    obtain ⟨z, hz, hyz⟩ := (sweepLost_stays (u.updGrp g Group.isOver)).groups g y.isOver (by rw [State.find_updGrp, if_pos rfl, hy]; rfl)
    exact ⟨z, e ▸ hz, hyz.ended rfl, hyz.quiet fun _ => ⟨rfl, rfl⟩⟩

/-! ### The end of a context (R52) -/

theorem agentWrite1_standing (s : State) (ctx va n data key : Nat) (token : Option Word) : Standing s (agentWrite1 s ctx va n data key token).1 := by
  unfold agentWrite1
  split
  · exact .refl s
  · split
    · exact .refl s
    · dsimp only
      generalize hr : checkedBytes s _ _ _ _ _ _ = r
      have w : Standing s r.1 := hr ▸ (checkedBytes_stays _ _ _ _ _ _ _).standing
      refine w.trans ?_
      split
      · exact (writeBack_stays _ _).standing
      · exact .refl _
theorem agentWrite_standing (s : State) (ctx va n data key : Nat) : Standing s (agentWrite s ctx va n data key).1 := by
  unfold agentWrite
  refine .foldFst _ (fun r e => ?_) _ (s, true)
  exact agentWrite1_standing r.1 _ _ _ _ _ _
theorem updQueue_stays (s : State) (c q : Nat) (f : Queue → Queue) : Stays s (s.updQueue c q f) := updCtx_stays _ _ _
theorem wakeQueue_standing (s : State) (c q : Nat) : Standing s (wakeQueue s c q) := .ite (.refl s) ⟨rfl, rfl, rfl, rfl⟩
theorem completionOp_stays (s : State) (p : Pkt) : Stays s (completionOp s p) := .ite (.refl s) (signalOp_stays _ _ _ _ _)
theorem finishPkt_standing (s : State) (p : Pkt) (st xst info : Nat) : Standing s (finishPkt s p st xst info) := by
  unfold finishPkt
  dsimp only
  refine Standing.trans ?_ (wakeQueue_standing _ _ _)
  refine Standing.trans ?_ (.ite (completionOp_stays _ _).standing (updQueue_stays _ _ _ _).standing)
  refine Standing.trans ?_ (updQueue_stays _ _ _ _).standing
  exact (draw_stays s).standing.trans (agentWrite_standing _ _ _ _ _ _)
theorem endPacket_standing (s : State) (e : Started) : Standing s (endPacket s e) := by
  unfold endPacket
  refine Standing.trans ?_ (finishPkt_standing _ _ _ _ _)
  split
  · split
    · exact ⟨rfl, rfl, rfl, rfl⟩
    · exact .refl s
  · exact .refl s
theorem sweepViews_standing (s : State) : Standing s (sweepViews s) := by
  unfold sweepViews
  apply Standing.fold
  exact fun s e => .ite ⟨rfl, rfl, rfl, rfl⟩ (.refl s)
theorem dropCtx_standing (s : State) (c : Nat) : Standing s (dropCtx s c) := by
  unfold dropCtx
  refine .ite (((writeBackCtx_stays s c).trans (dropClean_stays _ c)).standing.trans ?_) (.refl s)
  exact ⟨rfl, rfl, rfl, rfl⟩
theorem endContext_standing (s : State) (c : Nat) : Standing s (endContext s c) := by
  unfold endContext
  split
  · exact .refl s
  · refine .ite (.refl s) ?_
    dsimp only
    refine Standing.trans ?_ (dropCtx_standing _ c)
    refine Standing.trans ?_ (sweepViews_standing _)
    refine Standing.trans ?_ (sweepLost_stays _).standing
    refine Standing.trans (t := State.updCtx _ c _) ?_ ⟨rfl, rfl, rfl, rfl⟩
    refine Standing.trans ?_ (updCtx_stays _ c _).standing
    refine Standing.trans (t := List.foldl _ _ _) ?_ ⟨rfl, rfl, rfl, rfl⟩
    exact (Standing.fold _ (fun s e => endPacket_standing s e) _ s).trans (.fold _ (fun s g => (endGroup_stays s g none).standing) _ _)
theorem endAll_standing (s : State) : Standing s (endAll s) := .fold _ (fun s c => endContext_standing s c) _ s

end Sys2Proof.Machine
end

section
/-! PROOFS. Dies and their links (R201, R202, R254, R394), the package stop (R14), starts and recovery (R396 to R398). -/
namespace Sys2Proof.Machine

/-! ### Dies and cores -/

theorem dieAt_updDie (s : State) (d : Nat) (f : Die → Die) : (s.updDie d f).dieAt d = f (s.dieAt d) := by
  simp [State.dieAt, State.updDie, Map.modify, Map.get]

theorem dieAt_congr {s t : State} (h : t.dies = s.dies) (d : Nat) : t.dieAt d = s.dieAt d := by
  simp only [State.dieAt, h]

theorem Standing.dieAt {s t : State} (h : Standing s t) (d : Nat) : t.dieAt d = s.dieAt d := dieAt_congr h.dies d

/-- The entries that satisfy a condition are changed in one way. -/
theorem find_mapWhere {α : Type} (m : List (Nat × α)) (p : Nat × α → Bool) (f : Nat × α → α) (k : Nat) :
    Map.find (m.map (fun e => if p e then (e.1, f e) else e)) k = (Map.find m k).map (fun a => if p (k, a) then f (k, a) else a) := by
  rw [show (fun e : Nat × α => if p e then (e.1, f e) else e) = fun e => (e.1, if p e then f e else e.2) from funext fun e => by split <;> rfl]
  exact find_mapValues m _ k

theorem mem_of_find {α : Type} {m : List (Nat × α)} {k : Nat} {a : α} (h : Map.find m k = some a) : (k, a) ∈ m := by
  induction m with
  | nil => cases h
  | cons e m ih =>
    obtain ⟨j, b⟩ := e
    rw [Map.find_cons] at h
    by_cases hj : j = k
    · rw [if_pos hj] at h
      cases h; cases hj
      exact List.mem_cons_self ..
    · rw [if_neg hj] at h
      exact List.mem_cons_of_mem _ (ih h)

/-! ### Links (R201) -/

section
variable {s : State} {d : Nat}

theorem linkSleep_idle (hf : (s.dieAt d).fenced = false) (ha : (s.dieAt d).asleep = false) (ht : (s.dieAt d).lastReq + 420000 ≤ s.time) :
    exec (.linkSleep d) s = .next (s.updDie d (fun x => { x with asleep := true, waking := none, flush := false })) :=
  congrArg _ (if_neg (by simpa [hf, ha] using ht))

theorem linkSleep_busy (h : (s.dieAt d).fenced = true ∨ (s.dieAt d).asleep = true ∨ s.time < (s.dieAt d).lastReq + 420000) :
    exec (.linkSleep d) s = .next s := congrArg _ (if_pos (by simpa [or_assoc] using h))

/-- The state of a die marked for WAKE_FLUSH as its beacon comes: its L1 is invalidated. -/
def State.flushed (s : State) (d : Nat) : State := if (s.dieAt d).flush then s.flushL1 d else s

theorem flushed_standing (s : State) (d : Nat) : Standing s (s.flushed d) := .ite (flushL1_stays s d).standing (.refl s)
theorem flushed_mem (s : State) (d : Nat) : (s.flushed d).mem = s.mem := by
  unfold State.flushed
  split <;> rfl

/-- A beacon wakes the link, and what is held for the die is delivered. -/
theorem wakeBeacon_waking (hf : (s.dieAt d).fenced = false) (ha : (s.dieAt d).asleep = true) (hw : (s.dieAt d).waking.isSome = true) :
    ∃ u, exec (.wakeBeacon d) s = .next u ∧
      u.dieAt d = { s.dieAt d with held := [], asleep := false, waking := none, flush := false, lastReq := s.time } ∧ u.mem = s.mem := by
  have hx : exec (.wakeBeacon d) s = .next ((deliverHeld (s.flushed d) d).updDie d
      (fun x => { x with asleep := false, waking := none, flush := false, lastReq := (s.flushed d).time })) := by
    refine congrArg Host.Outcome.next (if_neg ?_)
    simp [hf, ha, Option.isSome_iff_ne_none.1 hw]
  refine ⟨_, hx, ?_, flushed_mem s d⟩
  have hs := flushed_standing s d
  rw [dieAt_updDie, deliverHeld, dieAt_updDie, hs.dieAt, hs.time]

/-- The state once snoops are held no more for a die that did not wake. -/
def State.holdEnded (s : State) (d : Nat) : State := (deliverHeld s d).updDie d (fun x => { x with flush := true })

theorem holdEnded_die (s : State) (d : Nat) : (s.holdEnded d).dieAt d = { s.dieAt d with held := [], flush := true } := by
  rw [State.holdEnded, dieAt_updDie, deliverHeld, dieAt_updDie]

theorem wakeHoldTimeout_due {t : Nat} (hw : (s.dieAt d).waking = some t) (ha : (s.dieAt d).asleep = true) (hf : (s.dieAt d).flush = false) (ht : t + 31500 ≤ s.time) :
    ∃ u, exec (.wakeHoldTimeout d) s = .next u ∧ u.dieAt d = { s.dieAt d with held := [], flush := true } ∧ u.health = s.health ++ [(2, d)] ∧ u.mem = s.mem := by
  obtain ⟨l, h⟩ : ∃ l, holdTimeout s d = { s.holdEnded d with filters := l, health := s.health ++ [(2, d)] } := by
    simp only [holdTimeout, hw, ha, hf, Nat.not_lt.2 ht, decide_false, Bool.not_true, Bool.or_self, Bool.false_eq_true, if_false]
    exact ⟨_, rfl⟩
  exact ⟨_, congrArg Host.Outcome.next h, (dieAt_congr (s := s.holdEnded d) rfl d).trans (holdEnded_die s d), rfl, rfl⟩

theorem wakeHoldTimeout_early {t : Nat} (hw : (s.dieAt d).waking = some t) (ht : s.time < t + 31500) : exec (.wakeHoldTimeout d) s = .next s := by
  refine congrArg Host.Outcome.next (a₁ := holdTimeout s d) ?_
  simp [holdTimeout, hw, ht]

end

/-! ### The fence (R254, R394) -/

theorem loseEgress_stays (s : State) (g : Nat) : Stays s (loseEgress s g) := by
  unfold loseEgress
  dsimp only
  refine Stays.trans ?_ (.fold _ (fun s q => performNext_stays s g q) _ _)
  refine (draw_stays s).trans ?_
  exact updGrp_stays _ g fun _ => ⟨id, id⟩

/-- What a fenced group has lost before it ends. -/
theorem fenceGroup_eq (s : State) (g : Nat) : ∃ u, Stays s u ∧ fenceGroup s g = endGroup u g (some 4) := by
  refine ⟨_, ?_, rfl⟩
  exact (loseEgress_stays s g).trans (updGrp_stays _ g fun _ => ⟨id, id⟩)

theorem fenceGroup_stays (s : State) (g : Nat) : Stays s (fenceGroup s g) := by
  obtain ⟨u, hu, e⟩ := fenceGroup_eq s g
  rw [e]
  exact hu.trans (endGroup_stays u g _)

theorem fenceGroup_over {s : State} {g : Nat} {x : Group} (hx : Map.find s.groups g = some x) (hq : x.Quiet) :
    ∃ y, Map.find (fenceGroup s g).groups g = some y ∧ y.ended = true ∧ y.Quiet := by
  obtain ⟨u, hu, e⟩ := fenceGroup_eq s g
  obtain ⟨y, hy, hxy⟩ := hu.groups g x hx
  rw [e]
  exact endGroup_over hy (hxy.quiet hq) _

/-- Each of the fenced groups ends, whatever the others' ends do. -/
theorem fenceGroups_over {g : Nat} {l : List Nat} (hg : g ∈ l) : ∀ {s : State} {x : Group}, Map.find s.groups g = some x → x.Quiet →
    ∃ y, Map.find (l.foldl fenceGroup s).groups g = some y ∧ y.ended = true ∧ y.Quiet := by
  induction l with
  | nil => cases hg
  | cons h l ih =>
    intro s x hx hq
    rw [List.foldl_cons]
    by_cases e : g = h
    · subst e
      obtain ⟨y, hy, hye, hyq⟩ := fenceGroup_over hx hq
      obtain ⟨z, hz, hyz⟩ := (Stays.fold fenceGroup fenceGroup_stays l _).groups g y hy
      exact ⟨z, hz, hyz.ended hye, hyz.quiet hyq⟩
    · obtain ⟨y, hy, hxy⟩ := (fenceGroup_stays s h).groups g x hx
      exact ih (List.mem_of_ne_of_mem e hg) hy (hxy.quiet hq)

theorem breakGrid_stays (s : State) (n : Nat) : Stays s (breakGrid s n) := updGrid_stays _ _ _
theorem breakTuple_stays (s : State) (n : Nat) : Stays s (breakTuple s n) := by
  unfold breakTuple
  split
  · exact .refl s
  · exact .of_groups ⟨rfl, rfl, rfl, rfl⟩ rfl

theorem markFenced_stays (s : State) (d : Nat) : Stays s (markFenced s d) := .of_groups ⟨rfl, rfl, rfl, rfl⟩ rfl

/-- The die as its fence begins. -/
def State.fencing (s : State) (d : Nat) : State :=
  (deliverHeld (s.flushL1 d) d).updDie d (fun x => { x with fenced := true, asleep := false, waking := none, flush := false, leave := [] })

/-- The state in which the groups of a fenced die have ended: its cores hold no matrix words, no lease, no group. -/
def State.coresCleared (s : State) (d : Nat) : State :=
  { s with
    teams := s.teams.map (fun (e : Nat × Team) => if dieOf e.2.core == d && e.2.resident then (e.1, { e.2 with lost := true }) else e)
    cores := s.cores.map (fun (e : Nat × Core) =>
      if dieOf e.1 == d then (e.1, { e.2 with mxq := [], lease := none, asked := false, joins := [], order := [] }) else e) }

/-- The die's groups, as its fence begins. -/
def State.fencedGroups (s : State) (d : Nat) : List Nat := (groupsOnDie (s.fencing d) d).map (·.1)

/-- The state in which the play of every log has been issued and every window has closed, before the groups end. -/
def State.logsPlayed (s : State) (d : Nat) : State :=
  closeJoins (markFenced ((s.fencedGroups d).foldl playLog (s.fencing d)) d) (s.fencedGroups d)

theorem logsPlayed_stays (s : State) (d : Nat) : Stays (s.fencing d) (s.logsPlayed d) :=
  (Stays.fold playLog playLog_stays (s.fencedGroups d) _).trans ((markFenced_stays _ d).trans (closeJoins_stays _ _))

/-- A fence: the play of every log, then the end of every group of the die, then the barriers and the cores. -/
theorem fenceDie_eq {s : State} {d : Nat} (he : dieEnabled s.dz860 d = true) (hf : (s.dieAt d).fenced = false) : ∃ grids tuples : List Nat,
    fenceDie s d = (tuples.foldl breakTuple (grids.foldl breakGrid ((s.fencedGroups d).foldl fenceGroup (s.logsPlayed d)))).coresCleared d := by
  unfold fenceDie
  rw [if_neg (by simp [he, hf])]
  exact ⟨_, _, rfl⟩

theorem fenceDie_out {s : State} {d : Nat} (h : dieEnabled s.dz860 d = false ∨ (s.dieAt d).fenced = true) : fenceDie s d = s :=
  if_pos (by simpa using h)

/-- A fenced die: what its cores hold, and what has become of its groups. -/
structure Fenced (s : State) (d : Nat) (u : State) : Prop where
  die : (u.dieAt d).fenced = true
  cores : ∀ c, dieOf c = d → (u.coreOf c).mxq = [] ∧ (u.coreOf c).order = [] ∧ (u.coreOf c).lease = none
  groups : ∀ g y, Map.find s.groups g = some y → dieOf y.core = d → y.resident = true → y.ended = false →
    ∃ z, Map.find u.groups g = some z ∧ z.ended = true ∧ z.s0 = none ∧ z.s1 = none

theorem coresCleared_cores (s : State) {d c : Nat} (h : dieOf c = d) :
    ((s.coresCleared d).coreOf c).mxq = [] ∧ ((s.coresCleared d).coreOf c).order = [] ∧ ((s.coresCleared d).coreOf c).lease = none := by
  simp only [State.coreOf, State.coresCleared, find_mapWhere, h, beq_self_eq_true, if_true]
  cases Map.find s.cores c with
  | none => exact ⟨rfl, rfl, rfl⟩
  | some x => exact ⟨rfl, rfl, rfl⟩

theorem fencing_fenced (s : State) (d : Nat) : ((s.fencing d).dieAt d).fenced = true := by
  rw [State.fencing, dieAt_updDie]

theorem mem_fencedGroups {s : State} {g : Nat} {y : Group} (hy : Map.find s.groups g = some y) (hr : y.resident = true) (he : y.ended = false) :
    g ∈ s.fencedGroups (dieOf y.core) :=
  List.mem_map.2 ⟨(g, y), List.mem_filter.2 ⟨mem_of_find hy, by simp [hr, he]⟩, rfl⟩

theorem fenceDie_fenced {s : State} {d : Nat} (he : dieEnabled s.dz860 d = true) (hf : (s.dieAt d).fenced = false) : Fenced s d (fenceDie s d) := by
  obtain ⟨grids, tuples, e⟩ := fenceDie_eq he hf
  rw [e]
  generalize hv : tuples.foldl breakTuple (grids.foldl breakGrid ((s.fencedGroups d).foldl fenceGroup (s.logsPlayed d))) = v
  have hlast : Stays ((s.fencedGroups d).foldl fenceGroup (s.logsPlayed d)) v :=
    hv ▸ (Stays.fold _ breakGrid_stays _ _).trans (.fold _ breakTuple_stays _ _)
  have hall : Stays (s.fencing d) v := (logsPlayed_stays s d).trans ((Stays.fold _ fenceGroup_stays _ _).trans hlast)
  refine ⟨?_, fun c hc => coresCleared_cores v hc, fun g y hy hd hr hn => ?_⟩
  · change (v.dieAt d).fenced = true
    rw [hall.standing.dieAt]
    exact fencing_fenced s d
  · obtain ⟨x, hx, hyx⟩ := (logsPlayed_stays s d).groups g y hy
    obtain ⟨w, hw, hwe, hwq⟩ := fenceGroups_over (hd ▸ mem_fencedGroups hy hr hn) hx (hyx.quiet fun h => by simp [hn] at h)
    obtain ⟨z, hz, hwz⟩ := hlast.groups g w hw
    obtain ⟨h0, h1⟩ := hwz.quiet hwq (hwz.ended hwe)
    exact ⟨z, hz, hwz.ended hwe, h0, h1⟩

theorem dieEnabled_iff (b : Bool) (d : Nat) : dieEnabled b d = true ↔ d < 8 ∧ (b = true → d ≠ 7) := by
  cases b <;> simp [dieEnabled]

theorem dieFenceCommand_runs {s : State} (h : s.phase = 0) (d : Nat) : exec (.dieFenceCommand d) s = .next (fenceDie s d) := congrArg _ (if_pos (by simpa using h))
theorem dieFenceCommand_stopped {s : State} (h : s.phase ≠ 0) (d : Nat) : exec (.dieFenceCommand d) s = .next s := congrArg _ (if_neg (by simpa using h))

/-- A die that is awake, or that has been asked to wake for 4 µs, is declared dead (R202). -/
theorem dieDeclaredDead_due {s : State} {d : Nat} (he : dieEnabled s.dz860 d = true) (hf : (s.dieAt d).fenced = false)
    (h : (s.dieAt d).asleep = false ∨ ∃ t, (s.dieAt d).waking = some t ∧ t + 84000 ≤ s.time) :
    exec (.dieDeclaredDead d) s = .next (fenceDie { s with health := s.health ++ [(3, d)] } d) := by
  refine congrArg Host.Outcome.next (if_neg ?_)
  obtain ha | ⟨t, ht, hd⟩ := h
  · simp [he, hf, ha]
  · simp [he, hf, ht, hd]

/-! ### The test of a fenced die (R232, R394) -/

/-- The teams that a die's fence has ended. -/
def State.lostTeams (s : State) (d : Nat) : List Nat := (s.teams.filter (fun e => dieOf e.2.core == d && e.2.lost)).map (·.1)

theorem fenceOver_groups (s : State) (d : Nat) : (fenceOver s d).groups =
    s.groups.map (fun (e : Nat × Group) => if (s.lostTeams d).contains e.2.team then (e.1, { e.2 with paths := [], egress := [] }) else e) := rfl

theorem fenceOver_groups_none {s : State} {d : Nat} (h : ∀ e ∈ s.teams, dieOf e.2.core = d → e.2.lost = false) : (fenceOver s d).groups = s.groups := by
  have hn : s.lostTeams d = [] := by
    rw [State.lostTeams, List.filter_eq_nil_iff.2 fun e he => by
      by_cases hd : dieOf e.2.core = d
      · simp [h e he hd]
      · simp [hd]]
    rfl
  rw [fenceOver_groups, hn]
  exact List.map_id _

theorem fenceOver_groups_lost {s : State} {d g : Nat} {y : Group} {t : Team} (hy : Map.find s.groups g = some y) (ht : Map.find s.teams y.team = some t)
    (hl : t.lost = true) (hd : dieOf t.core = d) : Map.find (fenceOver s d).groups g = some { y with paths := [], egress := [] } := by
  have hc : y.team ∈ s.lostTeams d := List.mem_map.2 ⟨(y.team, t), List.mem_filter.2 ⟨mem_of_find ht, by simp [hl, hd]⟩, rfl⟩
  rw [fenceOver_groups, find_mapWhere s.groups (fun e => (s.lostTeams d).contains e.2.team) (fun e => { e.2 with paths := [], egress := [] }), hy]
  simp [hc]

/-- The cores of a die as its test leaves them. -/
def State.coresTested (s : State) (d : Nat) : State :=
  { s with cores := s.cores.map (fun (e : Nat × Core) => if dieOf e.1 == d then (e.1, { Core.zero with clk0 := s.time }) else e) }

theorem coresTested_core {s : State} {d c : Nat} (hd : dieOf c = d) (h : Map.has s.cores c = true) : (s.coresTested d).coreOf c = { Core.zero with clk0 := s.time } := by
  obtain ⟨x, hx⟩ := Option.isSome_iff_exists.1 h
  rw [State.coreOf, State.coresTested, find_mapWhere s.cores (fun e => dieOf e.1 == d) (fun _ => { Core.zero with clk0 := s.time }), hx]
  simp [hd]

/-- The state in which the fence of a die is over and its cores have been reset. -/
def State.tested (s : State) (d : Nat) : State := (fenceOver s d).coresTested d

/-- A die that passes its test rejoins empty; one that fails stays out. -/
def Die.afterTest (x : Die) (pass : Bool) (now : Nat) : Die :=
  if pass then { Die.idle with headroom := x.headroom, headAt := x.headAt, lastReq := now } else { x with failed := true }

theorem dieTestComplete_fenced {s : State} {d : Nat} (hf : (s.dieAt d).fenced = true) (hn : (s.dieAt d).failed = false) (pass : Bool) :
    ∃ h, exec (.dieTestComplete d pass) s = .next { (s.tested d).updDie d (fun x => x.afterTest pass s.time) with health := h } := by
  change ∃ h, Host.Outcome.next (dieTested s d pass) = _
  unfold dieTested
  rw [if_neg (by simp [hf, hn])]
  cases pass
  · exact ⟨_, rfl⟩
  · exact ⟨_, rfl⟩

/-! ### The package stop (R14) -/

theorem packageStop_runs {s : State} (h : s.phase = 0) (what region : Nat) : exec (.packageStop what region) s = .next
    { (endAll s).cleared with
      phase := 1, failure := (endAll s).failure ++ [(what, region)],
      outbox := (endAll s).outbox ++ [⟨0, 5, [BitVec.ofNat 64 what, BitVec.ofNat 64 region]⟩, ⟨1, 5, [BitVec.ofNat 64 what, BitVec.ofNat 64 region]⟩] } := by
  refine congrArg Host.Outcome.next (if_neg ?_)
  simp [h]

/-! ### Firmware (R397, R398) -/

/-- Whether an image passes. -/
def FwImage.Passes (id : Identity) (minSvn : Nat) (i : FwImage) : Prop :=
  i.readable = true ∧ Config.signatureOk id.keyDigest i.bytes = true ∧ minSvn ≤ Config.imageSvn i.bytes

theorem imgStatus_eq_zero_iff (id : Identity) (n : Nat) (i : FwImage) : imgStatus id n i = 0 ↔ i.Passes id n := by
  unfold imgStatus FwImage.Passes
  split
  · simp_all
  · split
    · simp_all
    · split
      · simp_all
      · simp_all

section
variable {f : Firmware} {id : Identity}

theorem cold_own (h : (f.slot f.active).Passes id f.minSvn) : f.cold id = some (f.take f.active) :=
  if_pos (by simpa using (imgStatus_eq_zero_iff ..).2 h)

theorem cold_other (h : ¬(f.slot f.active).Passes id f.minSvn) (h' : (f.slot (1 - f.active)).Passes id f.minSvn) : f.cold id = some (f.take (1 - f.active)) := by
  rw [Firmware.cold, if_neg (by simpa using mt (imgStatus_eq_zero_iff ..).1 h), if_pos (by simpa using (imgStatus_eq_zero_iff ..).2 h')]

theorem cold_none (h : ¬(f.slot f.active).Passes id f.minSvn) (h' : ¬(f.slot (1 - f.active)).Passes id f.minSvn) : f.cold id = none := by
  rw [Firmware.cold, if_neg (by simpa using mt (imgStatus_eq_zero_iff ..).1 h), if_neg (by simpa using mt (imgStatus_eq_zero_iff ..).1 h')]

/-- The image that was measured at the last start is taken without another check. -/
theorem warm_measured (h : (f.slot f.active).readable = true) (hm : Config.shake256 (f.slot f.active).bytes = f.measured) : f.warm id = some f :=
  if_pos (by simp [h, hm])

theorem warm_changed (hm : Config.shake256 (f.slot f.active).bytes ≠ f.measured) : f.warm id = f.cold id :=
  if_neg (by simp [hm])

end

/-! ### Starts (R396) -/

theorem find_range {α : Type} {n k : Nat} (h : k < n) (f : Nat → α) : Map.find ((List.range n).map (fun j => (j, f j))) k = some (f k) := by
  have w : ∀ l : List Nat, k ∈ l → Map.find (l.map (fun j => (j, f j))) k = some (f k) := fun l => by
    induction l with
    | nil => exact fun h => nomatch h
    | cons j l ih =>
      intro hk
      rw [List.map_cons, Map.find_cons]
      by_cases e : j = k
      · rw [if_pos e, e]
      · rw [if_neg e]
        exact ih (List.mem_of_ne_of_mem (Ne.symm e) hk)
  exact w _ (List.mem_range.2 h)

/-- What both starts do once the firmware has passed gives fresh cores. -/
theorem released_cores (s : State) : (released s).cores = (List.range 544).map (fun k => (k, { Core.zero with clk0 := s.time })) := by
  unfold released freshCores assignVfs testDies
  dsimp only

theorem released_core (s : State) {c : Nat} (h : c < 544) : (released s).coreOf c = { Core.zero with clk0 := s.time } := by
  rw [State.coreOf, released_cores, find_range h fun _ => ({ Core.zero with clk0 := s.time } : Core), Option.getD_some]

/-- A start with an image: nothing is left of contexts and their work. -/
structure Restarted (u : State) (f : Firmware) : Prop where
  phase : u.phase = 0
  fw : u.fw = f
  ctxs : u.ctxs = []
  parts : u.parts = []
  groups : u.groups = []
  teams : u.teams = []
  cores : ∀ c < 544, u.coreOf c = { Core.zero with clk0 := u.time }

theorem released_restarted {s : State} (f : Firmware) : Restarted (released { s.cleared with fw := f }) f :=
  ⟨rfl, rfl, rfl, rfl, rfl, rfl, fun _ h => released_core _ h⟩

theorem coldStart_restarted {s : State} {f : Firmware} (h : s.fw.cold s.identity = some f) : ∃ u, exec .coldStart s = .next u ∧ Restarted u f ∧ u.time = 0 ∧ u.mem = [] ∧ u.poisoned = [] := by
  have hc : s.cleared.fw.cold s.cleared.identity = some f := h
  change ∃ u, Host.Outcome.next (cold s) = .next u ∧ _
  unfold cold
  simp only [hc]
  exact ⟨_, rfl, ⟨rfl, rfl, rfl, rfl, rfl, rfl, fun _ h => released_core _ h⟩, rfl, rfl, rfl⟩

theorem coldStart_recovery {s : State} (h : s.fw.cold s.identity = none) : exec .coldStart s = .next (enterRecovery s.cleared) := by
  have hc : s.cleared.fw.cold s.cleared.identity = none := h
  change Host.Outcome.next (cold s) = _
  unfold cold
  simp only [hc]

/-- The state of a warm start once every context has ended and what was dirty is at its home. -/
def State.drained (s : State) : State :=
  let s := endAll s
  let s := (s.hostL2.map (·.1)).foldl (fun s k => s.writeBack k) s
  (s.l2.map (·.1)).foldl (fun s k => s.l2Drop (k % 8) (k / 8)) s

theorem drained_standing (s : State) : Standing s s.drained := by
  unfold State.drained
  refine (endAll_standing s).trans (Standing.trans ?_ (.fold _ (fun s k => (l2Drop_stays s _ _).standing) _ _))
  exact .fold _ (fun s k => (writeBack_stays s k).standing) _ _

/-- With no context and no host line the memories are as they were. -/
theorem drained_bytes {s : State} (hc : s.ctxs = []) (hl : s.hostL2 = []) : BytesEq s s.drained := by
  have he : endAll s = s := by rw [endAll, hc]; rfl
  have hd : s.drained = (s.l2.map (·.1)).foldl (fun s k => s.l2Drop (k % 8) (k / 8)) s := by
    simp only [State.drained, he, hl, List.map_nil, List.foldl_nil]
  rw [hd]
  exact .fold _ (fun s k => (l2Drop_cacheOnly s _ _).bytes) _ s

theorem warmStart_restarted {s : State} {f : Firmware} (h0 : s.phase = 0) (h : s.fw.warm s.identity = some f) : ∃ u, exec .warmStart s = .next u ∧ Restarted u f ∧
    u.time = s.time ∧ (s.ctxs = [] → s.hostL2 = [] → u.mem = s.mem ∧ u.poisoned = s.poisoned ∧ u.hostMem = s.hostMem) := by
  have hd := drained_standing s
  have hw : s.drained.cleared.fw.warm s.drained.cleared.identity = some f := by
    change s.drained.fw.warm s.drained.identity = some f
    rw [hd.fw, hd.identity, h]
  have hx : exec .warmStart s = .next (released { s.drained.cleared with fw := f }) := by
    change Host.Outcome.next (warm s) = _
    unfold warm
    rw [if_neg (by simp [h0])]
    change Host.Outcome.next (match s.drained.cleared.fw.warm s.drained.cleared.identity with
      | none => enterRecovery s.drained.cleared
      | some f => released { s.drained.cleared with fw := f }) = _
    rw [hw]
  refine ⟨_, hx, released_restarted f, hd.time, fun hc hl => ?_⟩
  have hb := drained_bytes hc hl
  exact ⟨hb.mem, hb.poisoned, hb.host⟩

/-! ### Recovery (R398) -/

theorem fnUp_port {s : State} {port : Nat} (hp : port < 2) (hu : Map.get false s.pcieDown port = false) : s.fnUp port = true := by
  simp [State.fnUp, State.portOf, hp, hu]

theorem recoverySlotWrite_eq {s : State} {n port : Nat} (h2 : s.phase = 2) (hn : n < 2) (hp : port < 2) (hu : Map.get false s.pcieDown port = false) : exec (.recoverySlotWrite n port) s = .next (reply
    (if imgStatus s.identity s.fw.minSvn ⟨true, s.upload⟩ != 0 then s
      else { s with fw := if n == 0 then { s.fw with a := ⟨true, s.upload⟩ } else { s.fw with b := ⟨true, s.upload⟩ } }) port
    [BitVec.ofNat 64 (imgStatus s.identity s.fw.minSvn ⟨true, s.upload⟩)]) := by
  refine congrArg Host.Outcome.next (if_neg ?_)
  simp [h2, fnUp_port hp hu, Nat.not_le.2 hn, Nat.not_le.2 hp]

theorem imgStatus_lt (id : Identity) (n : Nat) (i : FwImage) : imgStatus id n i < 4 := by
  unfold imgStatus
  split
  · decide
  · split
    · decide
    · split <;> decide

/-! ### The obligation -/

/-- Settles O50: a die by the functions of its link and fence, a start by the image that passes. -/
theorem diesAndStarts : Obligations.DiesAndStarts := by
  intro s
  refine ⟨fun d => ?_, fun what region h0 => ?_, ?_⟩
  case refine_1 =>
    intro x
    refine ⟨linkSleep_idle, linkSleep_busy, wakeBeacon_waking, fun t => wakeHoldTimeout_due, fun t hw ht => wakeHoldTimeout_early hw ht, ?_, fun hf hn pass => ?_⟩
    · intro fences there
      have hen : d < 8 ∧ (s.dz860 = true → d ≠ 7) ↔ dieEnabled s.dz860 d = true := (dieEnabled_iff _ _).symm
      refine ⟨fun h0 ⟨h8, h7, hf⟩ => ?_, fun ⟨h8, h7, hf⟩ hd => ?_, fun h => ?_⟩
      · obtain ⟨h1, h2, h3⟩ := fenceDie_fenced (hen.1 ⟨h8, h7⟩) hf
        exact ⟨_, dieFenceCommand_runs h0 d, h1, h2, h3⟩
      · obtain ⟨h1, h2, h3⟩ := fenceDie_fenced (s := { s with health := s.health ++ [(3, d)] }) (hen.1 ⟨h8, h7⟩) hf
        exact ⟨_, dieDeclaredDead_due (hen.1 ⟨h8, h7⟩) hf hd, h1, h2, h3⟩
      · by_cases h0 : s.phase = 0
        · have hout : dieEnabled s.dz860 d = false ∨ (s.dieAt d).fenced = true := by
            by_contra hc
            rw [not_or, Bool.not_eq_false, Bool.not_eq_true] at hc
            obtain ⟨h8, h7⟩ := hen.2 hc.1
            exact h.elim (fun h => h h0) fun h => h ⟨h8, h7, hc.2⟩
          rw [dieFenceCommand_runs h0, fenceDie_out hout]
        · exact dieFenceCommand_stopped h0 d
    · obtain ⟨h, hx⟩ := dieTestComplete_fenced hf hn pass
      refine ⟨_, hx, rfl, fenceOver_groups_none, fun g y t => fenceOver_groups_lost, ?_, fun c => coresTested_core (s := fenceOver s d)⟩
      exact (dieAt_congr (s := (s.tested d).updDie d _) rfl d).trans (dieAt_updDie (s.tested d) d fun x => x.afterTest pass s.time)
  case refine_2 =>
    exact ⟨_, packageStop_runs h0 what region, rfl, rfl, rfl, rfl, rfl, by simp, by simp, by simp⟩
  case refine_3 =>
    intro passes measure slot own starts recovery hact
    have hslot : ∀ n, slot n = s.fw.slot n := fun n => by simp [slot, Firmware.slot]
    have hpass : ∀ n, passes (slot n) ↔ (s.fw.slot n).Passes s.identity s.fw.minSvn := fun n => by rw [hslot]; rfl
    have hcold : ∀ n, s.fw.cold s.identity = some (s.fw.take n) → starts .coldStart n false := fun n h => by
      obtain ⟨u, hu, hb, ht, hm, hp⟩ := coldStart_restarted h
      refine ⟨u, hu, hb.phase, by rw [hb.fw]; rfl, by rw [hb.fw, hslot]; rfl, hb.ctxs, hb.parts, hb.groups, hb.teams, hb.cores, ?_⟩
      rw [if_neg Bool.false_ne_true]
      exact ⟨ht, hm, hp⟩
    have hwarm : s.phase = 0 → ∀ f, s.fw.warm s.identity = some f → f.active = s.fw.active → f.measured = measure own → starts .warmStart s.fw.active true := fun h0 f h ha hm => by
      obtain ⟨u, hu, hb, ht, hk⟩ := warmStart_restarted h0 h
      refine ⟨u, hu, hb.phase, by rw [hb.fw, ha], by rw [hb.fw, hm], hb.ctxs, hb.parts, hb.groups, hb.teams, hb.cores, ?_⟩
      rw [if_pos rfl]
      exact ⟨ht, fun hc hl _ => hk hc hl⟩
    refine ⟨fun hp => ?_, fun hp hp' => ?_, fun hp hp' => ?_, fun h0 hr hm => ?_, fun h0 hm hp => ?_, fun n port h2 hn hp hu => ?_⟩
    · exact hcold _ (cold_own ((hpass _).1 hp))
    · exact hcold _ (cold_other (mt (hpass _).2 hp) ((hpass _).1 hp'))
    · refine ⟨_, coldStart_recovery (cold_none (mt (hpass _).2 hp) (mt (hpass _).2 hp')), rfl, rfl, _, _, rfl, ?_⟩
      have hall : ∀ n < 2, 1 ≤ imgStatus s.identity s.fw.minSvn (s.fw.slot n) := fun n hn => by
        refine Nat.one_le_iff_ne_zero.2 fun h => ?_
        obtain rfl | rfl : n = s.fw.active ∨ n = 1 - s.fw.active := by omega
        · exact hp ((hpass _).2 ((imgStatus_eq_zero_iff ..).1 h))
        · exact hp' ((hpass _).2 ((imgStatus_eq_zero_iff ..).1 h))
      exact ⟨hall 0 (by norm_num), hall 1 (by norm_num)⟩
    · have ho : own = s.fw.slot s.fw.active := hslot _
      exact hwarm h0 s.fw (warm_measured (ho ▸ hr) (ho ▸ hm)) rfl hm.symm
    · have ho : own = s.fw.slot s.fw.active := hslot _
      refine hwarm h0 (s.fw.take s.fw.active) ?_ rfl (by rw [ho]; rfl)
      rw [warm_changed (ho ▸ hm), cold_own ((hpass _).1 hp)]
    · intro img
      rw [recoverySlotWrite_eq h2 hn hp hu]
      refine ⟨fun h => ?_, fun h => ?_⟩
      · have hz : imgStatus s.identity s.fw.minSvn ⟨true, s.upload⟩ = 0 := (imgStatus_eq_zero_iff ..).2 h
        rw [hz]
        simp [reply, img]
      · have hz : imgStatus s.identity s.fw.minSvn ⟨true, s.upload⟩ ≠ 0 := mt (imgStatus_eq_zero_iff ..).1 h
        have hlt := imgStatus_lt s.identity s.fw.minSvn ⟨true, s.upload⟩
        refine ⟨BitVec.ofNat 64 (imgStatus s.identity s.fw.minSvn ⟨true, s.upload⟩), fun h0 => hz ?_, ?_⟩
        · have hm := congrArg BitVec.toNat h0
          rwa [BitVec.toNat_ofNat, Nat.mod_eq_of_lt (by omega)] at hm
        · rw [if_pos (by simpa using hz)]
          rfl

end Sys2Proof.Machine
end

section
/-! PROOFS. Words around their commit and their waits: an externally visible word with no region open (R242), a result owed to one uniform register
(R81), and the waiting phase that `WAIT`, `BAR` and `SIGW` share (R104, R227, R386). -/
namespace Sys2Proof.Machine

/-! ### Tables -/

/-- The second of two writes of one key stands. -/
theorem Map.put_put {α : Type} (m : List (Nat × α)) (k : Nat) (a b : α) : Map.put (Map.put m k a) k b = Map.put m k b := by
  induction m with
  | nil => simp [Map.put]
  | cons e m ih =>
    obtain ⟨j, c⟩ := e
    by_cases h1 : k < j
    · simp [Map.put, h1]
    · by_cases h2 : j = k
      · simp [Map.put, h2]
      · simp [Map.put, h1, h2, ih]

/-- A change of every entry, made before or after a write. -/
theorem Map.map_put {α : Type} (f : Nat × α → Nat × α) (hf : ∀ e, (f e).1 = e.1) (m : List (Nat × α)) (k : Nat) (a : α) :
    (Map.put m k a).map f = Map.put (m.map f) k (f (k, a)).2 := by
  have hk : ∀ j b, f (j, b) = (j, (f (j, b)).2) := fun j b => Prod.ext (hf _) rfl
  induction m with
  | nil => simp only [Map.put, List.map_cons, List.map_nil]; rw [← hk]
  | cons e m ih =>
    obtain ⟨j, c⟩ := e
    rw [List.map_cons, hk j c]
    by_cases h1 : k < j
    · simp only [Map.put, h1, if_true, List.map_cons]; rw [← hk, ← hk]
    · by_cases h2 : j = k
      · subst h2
        simp only [Map.put, lt_irrefl, if_false, beq_self_eq_true, if_true, List.map_cons]; rw [← hk]
      · simp only [Map.put, h1, if_false, beq_iff_eq, h2, List.map_cons, ih]; rw [← hk]

theorem updGrp_of_find {s : State} {g : Nat} {x : Group} (h : Map.find s.groups g = some x) (f : Group → Group) :
    s.updGrp g f = { s with groups := Map.put s.groups g (f x) } := by
  simp only [State.updGrp, h]

/-! ### Externally visible words with no region open (R242) -/

section
variable {s : State} {c : Cur} {x : Group} {sp : Split} {t : Team} (h : Issuing s c x sp t)
include h

theorem Issuing.implicitCommit_closed (hp : Plain x t) : implicitCommit s c = (s, true) := by
  simp [implicitCommit, State.grp_of_find h.group, hp.closed]

theorem Issuing.viewOf_root (hp : Plain x t) : s.viewOf x = 0 := by
  simp [State.viewOf, State.teamOf, h.team, hp.root]

theorem Issuing.curMask_eq : s.curMask c.gid = sp.mask := by
  simp [State.curMask, h.cur, State.spl, State.grp_of_find h.group, h.split]

theorem Issuing.wx_group : (wxOf c s).x = x := by rw [h.wx]

/-- A clean predicate makes the word's lanes the active ones, and flags nothing (R98). -/
theorem Issuing.under_clean (p : BitVec 3) (hp : CleanPred x sp p.toNat) : (wxOf c s).under p.toNat = (activeMask x sp p.toNat, none) := by
  have hrd : ∀ i, (wxOf c s).rdP 14 p.toNat i false = x.rdP p.toNat i := by
    intro i
    rw [h.wx]
    simp only [Wx.rdP, h.settled, pickRead_nil]
    split
    · rename_i e; simp only [beq_iff_eq] at e; rw [e]; rfl
    · rfl
  have hm : (wxOf c s).sp.mask = sp.mask := by rw [h.wx]
  have hclean : ∀ i ∈ lanesOf sp.mask, (x.rdP p.toNat i).poison = false := fun i hi => hp i ((mem_lanesOf _ _).1 hi).2
  unfold Wx.under activeMask
  simp only [hrd, hm]
  refine Prod.ext (congrArg maskOf ?_) ?_
  · unfold lanesOf
    rw [List.filter_filter]
    refine List.filter_congr fun i _ => ?_
    simp only [active, inMask]
    cases x.rdP p.toNat i with
    | mk b q => rw [Bool.eq_iff_iff]; simp [and_comm]
  · rw [Option.map_eq_none_iff, List.find?_eq_none]
    intro i hi
    rw [hclean i hi]
    exact Bool.false_ne_true

theorem Issuing.laneWord_eq (p : BitVec 3) (hp : CleanPred x sp p.toNat) (f : Wx → State → State) :
    laneWord p f c s = f { wxOf c s with act := activeMask x sp p.toNat } s := by
  unfold laneWord
  simp only [h.under_clean p hp]

theorem Issuing.visibleLane_eq (hr : Plain x t) (p : BitVec 3) (hp : CleanPred x sp p.toNat) (rsv : Wx → Bool) (bad : Wx → State → State) (f : Cur → Wx → State → State) :
    let w := { wxOf c s with act := activeMask x sp p.toNat }
    visibleLane p rsv bad f s = .next (if rsv w then bad w s else f c w s) := by
  intro w
  unfold visibleLane
  rw [onIssuer_of_cur _ h.cur, h.laneWord_eq p hp]
  simp only [h.implicitCommit_closed hr]
  have ha : w.again p.toNat c s = w := by
    show ({ wxOf c s with act := ((wxOf c s).under p.toNat).1 } : Wx) = w
    rw [h.under_clean p hp]
  rw [ha]

/-- A word whose check of its operands passes acts on what the check gives (R88, R242). -/
theorem Issuing.visibleChecked_ok {α : Type} (hr : Plain x t) (q : BitVec 3) (hq : qualified x q.toNat) {chk : State → Wx → Except LVal α} {a : α}
    (ha : chk s (wxOf c s) = .ok a) (bad : LVal → Wx → State → State) (f : α → Cur → Wx → State → State) :
    visibleChecked q chk bad f s = .next (f a c (wxOf c s) s) := by
  unfold visibleChecked
  rw [onIssuer_of_cur _ h.cur, scalarWord_qualified h q hq]
  simp only [ha, h.implicitCommit_closed hr]

/-- A word whose check of its operands fails does nothing else (R88, R242). -/
theorem Issuing.visibleChecked_error {α : Type} (q : BitVec 3) (hq : qualified x q.toNat) {chk : State → Wx → Except LVal α} {r : LVal}
    (ha : chk s (wxOf c s) = .error r) (bad : LVal → Wx → State → State) (f : α → Cur → Wx → State → State) :
    visibleChecked q chk bad f s = .next (bad r (wxOf c s) s) := by
  unfold visibleChecked
  rw [onIssuer_of_cur _ h.cur, scalarWord_qualified h q hq]
  simp only [ha]

/-! ### Uniform operands -/

theorem Issuing.sReg_clean (opnd r : Nat) (hc : CleanReg x r) : (wxOf c s).sReg opnd r = .val (x.reg r) := by
  unfold CleanReg at hc
  simp [h.wx, Wx.sReg, Wx.uni, Wx.rdS, h.settled, hc, Group.reg]

theorem Issuing.sPair_clean (opnd r : Nat) (hc : CleanPair x r) : (wxOf c s).sPair opnd r = .val (x.pair r) := by
  obtain ⟨h0, h1⟩ := hc
  simp [h.wx, Wx.sPair, Wx.uni, Wx.rdS, h.settled, h0, h1, Group.pair, Group.reg]

end

/-! ### A number owed to one uniform register (R81) -/

theorem finishS_val (sd n v : Nat) (w : Wx) (s : State) : finishS true sd n (.val v) w s = owe s w.g (laneWrites .s sd n (0, v, none)) := by
  simp [finishS, resolve]

theorem status_owes {s : State} {w : Wx} {x : Group} (hx : Map.find s.groups w.g = some x) (sd n : Nat) :
    status sd n w s = { s with groups := Map.put s.groups w.g (x.owes sd n) } := by
  unfold status
  rw [finishS_val]
  exact updGrp_of_find hx _

/-! ### The waiting phase (R104, R227, R386) -/

theorem abandoned_iff (s : State) (x : Group) : abandoned s x = true ↔ Abandoned s x := by
  unfold abandoned Abandoned State.ctxOf
  cases Map.find s.ctxs x.ctx with
  | none => simp
  | some k => simp

/-- The split that waits on stays at its word, with its deadline. -/
theorem Issuing.hold_eq {s : State} {c : Cur} {x : Group} {sp : Split} {t : Team} (h : Issuing s c x sp t) (w : Wait) (wph : Bool) (d : Option Nat) :
    hold c w wph d s = { s with groups := Map.put s.groups c.gid (x.waits c sp w wph d) } := by
  unfold hold State.updSpl
  rw [updGrp_of_find h.group, Group.updSplit, h.split]
  rfl

theorem waitDue_eq (s : State) (c : Cur) (e : Nat) : waitDue s c e = if c.deadline.isSome then c.deadline else waitEnd s e := by
  unfold waitDue waitEnd
  cases c.deadline <;> rfl

/-- A word that comes to its waiting phase waits as R227, R278, R294 and R386 say. -/
theorem Issuing.waitsFor {s seen : State} {c : Cur} {x : Group} {sp : Split} {t : Team} (h : Issuing s c x sp t) {i : Instr} {w : Wait} {wph first : Bool}
    {e sd : Nat} {done : Wx → State → State} (hi : exec i s = .next (waitPhase c w wph e sd first done (wxOf c s) s)) {ok : Prop} (hok : waitMet s x w = true ↔ ok)
    {met : Group} (hm : ok → done (wxOf c s) s = { seen with groups := Map.put s.groups c.gid met }) : WaitsFor i s seen c x sp w wph first e sd ok met := by
  have hst : ∀ n, status sd n (wxOf c s) s = { s with groups := Map.put s.groups c.gid (x.owes sd n) } := fun n => status_owes (w := wxOf c s) h.group sd n
  have ha := abandoned_iff s x
  unfold waitPhase at hi
  simp only [h.wx_group, hst, h.hold_eq, waitDue_eq] at hi
  refine ⟨fun hk hab => ?_, fun hab hk => ?_, fun hk hab => ?_⟩
  · rw [hi, if_neg, if_pos (hok.2 hk), hm hk]
    rw [hok.2 hk]
    rcases hab with hab | hab
    · simp [ha.not.2 hab]
    · simp [hab]
  · unfold Becomes
    rw [hi, if_pos]
    rcases hk with hk | hk
    · simp [ha.2 hab, hk]
    · simp [ha.2 hab, hok.not.2 hk]
  · unfold Becomes
    rw [hi, if_neg (by simp [ha.not.2 hab]), if_neg (hok.not.2 hk)]
    by_cases he : e = 0 ∨ c.expired = true
    · rw [if_pos (by simpa using he), if_pos he]
    · rw [if_neg (by simpa using he), if_neg he]

end Sys2Proof.Machine
end

section
/-! PROOFS. What the stores of a group change of every group as they perform (R193, R205, R214, R244, R247, R263, R290): no register, and its stores on
their way become no more. -/
namespace Sys2Proof.Machine

/-! ### The relation -/

/-- Of a group, performing stores change its stores and operations on their way, the snoops and tokens that they meet, and its orphan record; what is on its
way was so before. -/
structure Drained (x y : Group) : Prop where
  frame : y = { x with egress := y.egress, paths := y.paths, x := y.x, region := y.region, saved := y.saved, orphan := y.orphan, late := y.late, savedSide := y.savedSide }
  egress : ∀ q ∈ y.egress, ∃ p ∈ x.egress, q.mask = p.mask

theorem Drained.refl (x : Group) : Drained x x := ⟨rfl, fun q hq => ⟨q, hq, rfl⟩⟩
theorem Drained.trans {x y z : Group} (a : Drained x y) (b : Drained y z) : Drained x z :=
  ⟨by rw [b.frame, a.frame], fun q hq => by
    obtain ⟨p, hp, hqp⟩ := b.egress q hq
    obtain ⟨r, hr, hpr⟩ := a.egress p hp
    exact ⟨r, hr, hqp.trans hpr⟩⟩
/-- A change that leaves the egress queue alone. -/
theorem Drained.of_frame {x y : Group} (he : y.egress = x.egress)
    (h : y = { x with egress := y.egress, paths := y.paths, x := y.x, region := y.region, saved := y.saved, orphan := y.orphan, late := y.late, savedSide := y.savedSide }) :
    Drained x y :=
  ⟨h, fun q hq => ⟨q, he ▸ hq, rfl⟩⟩

/-- Every group is there, and performing stores is all that has changed it. -/
structure Drains (s t : State) : Prop where
  groups : ∀ g x, Map.find s.groups g = some x → ∃ y, Map.find t.groups g = some y ∧ Drained x y

theorem Drains.of_groups {s t : State} (h : t.groups = s.groups) : Drains s t := ⟨fun _ x hx => ⟨x, h ▸ hx, .refl x⟩⟩
theorem Drains.refl (s : State) : Drains s s := .of_groups rfl
theorem Drains.trans {s t u : State} (a : Drains s t) (b : Drains t u) : Drains s u := ⟨fun g x hx => by
  obtain ⟨y, hy, hxy⟩ := a.groups g x hx
  obtain ⟨z, hz, hyz⟩ := b.groups g y hy
  exact ⟨z, hz, hxy.trans hyz⟩⟩
theorem Drains.fold {α : Type} (f : State → α → State) (h : ∀ s x, Drains s (f s x)) (l : List α) : ∀ s, Drains s (l.foldl f s) := by
  induction l with
  | nil => exact fun s => .refl s
  | cons x l ih => exact fun s => (h s x).trans (ih _)
/-- A fold that carries something beside the state. -/
theorem Drains.foldFst {α β : Type} (f : State × β → α → State × β) (h : ∀ r x, Drains r.1 (f r x).1) (l : List α) : ∀ r, Drains r.1 (l.foldl f r).1 := by
  induction l with
  | nil => exact fun r => .refl r.1
  | cons x l ih => exact fun r => (h r x).trans (ih _)
theorem Drains.ite {s t u : State} {p : Prop} [Decidable p] (a : Drains s t) (b : Drains s u) : Drains s (if p then t else u) := by
  split
  · exact a
  · exact b
theorem Drains.of_map {s t : State} (f : Nat × Group → Group) (hg : t.groups = s.groups.map (fun e => (e.1, f e))) (hf : ∀ e, Drained e.2 (f e)) : Drains s t :=
  ⟨fun g x hx => ⟨f (g, x), by rw [hg, find_mapValues, hx]; rfl, hf (g, x)⟩⟩
theorem updGrp_drains (s : State) (g : Nat) {f : Group → Group} (hf : ∀ x, Drained x (f x)) : Drains s (s.updGrp g f) := ⟨fun h x hx => by
  rw [State.find_updGrp]
  by_cases e : h = g
  · subst e
    exact ⟨f x, by rw [if_pos rfl, hx]; rfl, hf x⟩
  · exact ⟨x, by rw [if_neg e, hx], .refl x⟩⟩
theorem updCore_drains (s : State) (k : Nat) (f : Core → Core) : Drains s (s.updCore k f) := .of_groups rfl

/-! ### Caches, which hold no group (R197 to R199, R289) -/

theorem block_drains (s : State) (ds : List Nat) (line : Nat) : Drains s (s.block ds line) := .ite (.refl s) (.of_groups rfl)
theorem l1Inval_drains (s : State) (sec : Nat) (p : Nat → Bool) : Drains s (s.l1Inval sec p) := by
  unfold State.l1Inval
  exact (block_drains s _ _).trans (.of_groups rfl)
theorem syncDir_drains (s : State) (line : Nat) : Drains s (s.syncDir line) := .of_groups rfl
theorem dropErrors_drains (s : State) (sec : Nat) : Drains s (s.dropErrors sec) := .of_groups rfl
theorem l2Drop_drains (s : State) (region line : Nat) : Drains s (s.l2Drop region line) := by
  unfold State.l2Drop
  refine .ite (.refl s) (.trans ?_ (((l1Inval_drains _ (2 * line) _).trans (l1Inval_drains _ (2 * line + 1) _)).trans (syncDir_drains _ line)))
  exact .of_groups rfl
theorem l2DropAll_drains (s : State) (line : Nat) : Drains s (s.l2DropAll line) := .fold _ (fun s _ => l2Drop_drains s _ _) _ s
theorem dropCopies_drains (s : State) (sec : Nat) : Drains s (s.dropCopies sec) := by
  unfold State.dropCopies
  refine .ite ((dropErrors_drains s sec).trans (l1Inval_drains _ _ _)) (.trans ?_ ((l1Inval_drains _ _ _).trans (syncDir_drains _ _)))
  refine (dropErrors_drains s sec).trans ?_
  apply Drains.fold
  exact fun s h => .of_groups rfl
theorem hitchTouch_drains (s : State) (line : Nat) : Drains s (hitchTouch s line) := by
  unfold hitchTouch
  refine (l2DropAll_drains s line).trans (.ite (.of_groups rfl) ?_)
  dsimp only
  split
  · exact .of_groups rfl
  · exact .of_groups rfl
theorem writeBack_drains (s : State) (k : Nat) : Drains s (s.writeBack k) := by
  unfold State.writeBack
  split
  · exact .refl s
  · refine .ite (.refl s) ?_
    dsimp only
    split
    · exact .of_groups rfl
    · split
      · exact .of_groups rfl
      · exact .of_groups rfl
      · exact .of_groups rfl
theorem hostLeave_drains (s : State) (region k : Nat) : Drains s (s.hostLeave region k) := by
  unfold State.hostLeave
  split
  · exact .refl s
  · rename_i l _
    have w : Drains s (if l.owner == region || l.regions &&& ~~~(BitVec.ofNat 8 (2 ^ region)) == 0 then s.writeBack k else s) := .ite (writeBack_drains s k) (.refl s)
    dsimp only
    split
    · exact w
    · exact w.trans (.ite (.ite (.of_groups rfl) (.refl _)) (.of_groups rfl))
theorem l2Leave_drains (s : State) (region line : Nat) : Drains s (s.l2Leave region line) :=
  .ite ((hostLeave_drains s _ _).trans (hostLeave_drains _ _ _)) (l2Drop_drains s _ _)
theorem l2Room_drains (s : State) (region line : Nat) : Drains s (s.l2Room region line) := by
  unfold State.l2Room
  exact .ite (.refl s) (.ite (.refl s) (.fold _ (fun s l => l2Leave_drains s _ _) _ _))
theorem l2Own_drains (s : State) (region sec : Nat) (wrote : Bool) : Drains s (s.l2Own region sec wrote) := by
  unfold State.l2Own
  refine (l2Room_drains s region (lineOf sec)).trans (.ite (.refl _) ?_)
  generalize s.l2Room region (lineOf sec) = u
  have w : Drains u (((u.holders (lineOf sec)).filter (fun h => h.1 != region)).foldl (fun s h => s.l2Drop h.1 (lineOf sec)) u) :=
    .fold _ (fun s h => l2Drop_drains s _ _) _ u
  refine w.trans (.trans ?_ (syncDir_drains _ _))
  exact .of_groups rfl
theorem countSector_drains (s : State) (x : Group) (p : Place) : Drains s (s.countSector x p) := by
  unfold State.countSector State.countBytes
  split
  · split
    · exact .refl s
    · exact .of_groups rfl
  · exact .refl s
theorem wroteBy_drains (b s : State) (x : Group) (view : Nat) (p : Place) : Drains s (wroteBy b s x view p) := by
  have keep : ∀ (u : State) (t : Nat), Drains u (if (b.coreOf x.core).l1Has t then u.updCore x.core (fun c => c.l1Fill t 0) else u) := fun u t =>
    .ite (updCore_drains u _ _) (.refl u)
  unfold wroteBy
  refine (countSector_drains s x p).trans ?_
  dsimp only
  split
  · exact (l2Own_drains _ _ _ _).trans (keep _ _)
  · rename_i port pa
    refine (l2Room_drains _ (regionOf x.core) (lineOf (hostSec (hostKey port pa / 32)))).trans ?_
    split
    · refine Drains.trans ?_ (keep _ _)
      exact .of_groups rfl
    · exact .refl _
  · exact .refl _
theorem releaseSys_drains (s : State) (ctx scope : Nat) : Drains s (releaseSys s ctx scope) :=
  .ite ((Drains.fold _ (fun s _ => writeBack_drains s _) _ s).trans (.of_groups rfl)) (.refl s)
theorem markThrough_drains (s : State) (k : Nat) : Drains s (s.markThrough k) := by
  unfold State.markThrough
  split
  · exact .of_groups rfl
  · exact .refl s
theorem updView_drains (s : State) (v : Nat) (f : View → View) : Drains s (s.updView v f) := by
  unfold State.updView
  split
  · exact .refl s
  · exact .of_groups rfl
theorem putRoot_drains (s : State) (k : Nat) (x : Sector) : Drains s (s.putRoot k x) := .of_groups rfl
theorem stamp_drains (s : State) (k : Nat) (t : Word) : Drains s (s.stamp k t) := by
  unfold State.stamp
  refine Drains.trans (.ite ?_ (.ite (putRoot_drains s _ _) (updView_drains s _ _))) (dropErrors_drains _ k)
  split
  · exact .of_groups rfl
  · exact .refl s

/-! ### Writes of memory (R193, R290) -/

theorem passLine_drains (s : State) (line : Nat) : Drains s (s.passLine line) := by
  unfold State.passLine
  refine .ite (.of_map _ rfl fun e => ⟨rfl, fun q hq => ?_⟩) (.refl s)
  obtain ⟨p, hp, rfl⟩ := List.mem_map.1 hq
  refine ⟨p, hp, ?_⟩
  split <;> rfl
theorem snoop_drains (s : State) (line : Nat) : Drains s (snoop s line) := by
  unfold snoop
  dsimp only
  generalize hs : s.block _ line = t
  have hb : Drains s t := hs ▸ block_drains s _ line
  refine hb.trans (.ite ?_ ?_)
  · exact .of_map _ rfl fun e => .of_frame rfl rfl
  · exact .of_map _ rfl fun e => .of_frame rfl rfl
theorem writeRoot_drains (s : State) (k : Nat) (bs : List (Nat × Byte)) (token : Option Word) : Drains s (s.writeRoot k bs token) :=
  (putRoot_drains s k _).trans ((dropCopies_drains _ _).trans (snoop_drains _ _))
theorem touchAt_drains (s : State) (core view scope : Nat) (p : Place) : Drains s (touchAt s core view scope p) := by
  unfold touchAt
  split
  · refine (passLine_drains s _).trans (.ite (hitchTouch_drains _ _) (.trans (t := hitchLeave _ _) (.of_groups rfl) (.ite (.refl _) (l2Own_drains _ _ _ _))))
  · exact .refl s
theorem writeDev_drains {s t : State} {v k : Nat} {bs : List (Nat × Byte)} {token : Option Word} (h : s.writeDev v k bs token = some t) : Drains s t := by
  have put : ∀ m : List (Nat × View), Drains s ({ s with views := m }.dropCopies (tagged (liveView s.views 1024 v) k)) := fun m =>
    .trans (t := { s with views := m }) (.of_groups rfl) (dropCopies_drains _ _)
  unfold State.writeDev at h
  dsimp only at h
  split at h
  · cases h; exact writeRoot_drains s k bs token
  · split at h
    · cases h; exact .refl s
    · split at h
      · cases h; exact .refl s
      · split at h
        · cases h; exact put _
        · split at h
          · cases h
          · cases h; exact put _
theorem writeHost_drains (s : State) (ctx k : Nat) (bs : List (Nat × Byte)) (token : Option Word) : Drains s (s.writeHost ctx k bs token) := by
  unfold State.writeHost
  refine ((dropErrors_drains s (hostSec k)).trans (l1Inval_drains _ (hostSec k) (fun _ => true))).trans ?_
  exact .of_groups rfl
theorem performBytes_drains (s : State) (ctx v key : Nat) (p : Place) (bs : List (Nat × Byte)) (token : Option Word) :
    Drains s (performBytes s ctx v key p bs token).1 := by
  unfold performBytes
  split
  · split
    · rename_i h
      exact writeDev_drains h
    · exact .refl s
  · exact writeHost_drains _ _ _ _ _
  · exact .of_groups (State.updTeam_groups _ _ _)
  · split
    · exact .refl s
    · split
      · split
        · exact writeRoot_drains _ _ _ _
        · exact .refl s
      · exact .refl s
theorem performSector_drains (s : State) (ctx v key : Nat) (q : Store) : Drains s (performSector s ctx v key q).1 := by
  unfold performSector
  split
  · exact (performBytes_drains _ _ _ _ _ _ _).trans (.fold _ (fun s e => performBytes_drains _ _ _ _ _ _ _) _ _)
  · exact performBytes_drains _ _ _ _ _ _ _
theorem performAtomic_drains (s : State) (x : Group) (v key : Nat) (p : Place) (aop size a b : Nat) (vt : Option Word) :
    Drains s (performAtomic s x v key p aop size a b vt).1 := by
  unfold performAtomic
  dsimp only
  split
  · split
    · exact .refl s
    · split
      · exact .refl s
      · split
        · rename_i pt a _
          refine (writeBack_drains s (hostKey pt a / 32)).trans ?_
          split
          · exact .refl _
          · split
            · exact .refl _
            · refine (l1Inval_drains _ (hostSec (hostKey pt a / 32)) (fun _ => true)).trans ?_
              exact .of_groups rfl
        · exact .refl s
  · split
    · exact .refl s
    · split
      · split
        · exact .refl s
        · rename_i k _
          have w : Drains s (hitchTouch (s.passLine (k / 64)) (k / 64)) := (passLine_drains s (k / 64)).trans (hitchTouch_drains _ _)
          split
          · exact w
          · split
            · exact w
            · exact w.trans (writeRoot_drains _ _ _ _)
      · split
        · exact .refl s
        · exact .refl s
  · split
    · split
      · exact .refl s
      · rename_i r _
        have w := performBytes_drains s x.ctx v key (sectorBase p).1 (plainBytes (bytesAt (sectorBase p).2 size r 0)) none
        split
        · rename_i e; rw [e] at w; exact w
        · rename_i e; rw [e] at w; exact w
    · exact .refl s
    · exact .refl s

/-! ### Tokens (R232, R241, R247) -/

theorem newEntryIn_drains (s : State) (g : Nat) (region : BitVec 16) (pc : BitVec 64) (f : Fail) (lane : Nat) : Drains s (newEntryIn s g region pc f lane).1 := by
  unfold newEntryIn
  dsimp only
  refine .trans ?_ ((updCore_drains _ _ _).trans (.of_groups (bumpPerf_groups _ _ _ _)))
  split
  · exact .refl s
  · exact updGrp_drains s g fun _ => .of_frame rfl rfl
theorem lateToken_drains (s : State) (g : Nat) (q : Store) (f : Fail) : Drains s (lateToken s g q f).1 := by
  unfold lateToken
  split
  · exact (updCore_drains _ _ _).trans (updGrp_drains _ g fun _ => .of_frame rfl rfl)
  · exact (newEntryIn_drains s g 0xFFFF q.pc f q.lane).trans (.ite (.refl _) (updGrp_drains _ g fun _ => .of_frame rfl rfl))
theorem orphan_drains (s : State) (g : Nat) (t : Word) : Drains s (orphan s g t) := by
  have hk : ∀ x : Group, Drained x (if x.ended then x else { x with orphan := some (x.orphan.getD t) }) := fun x => by
    split
    · exact .refl x
    · exact .of_frame rfl rfl
  unfold orphan
  dsimp only
  split
  · exact updGrp_drains s g hk
  · exact (updGrp_drains s g hk).trans (.of_groups (State.updGrid_groups _ _ _))
theorem flagRegion_drains (s : State) (g : Nat) (t : Word) (i : Nat) (b : Bool) : Drains s (flagRegion s g t i b) :=
  .ite (updGrp_drains s g fun _ => .of_frame rfl rfl) (orphan_drains s g t)
theorem flagStore_drains (s : State) (g : Nat) (q : Store) (t : Word) : Drains s (flagStore s g q t) := by
  unfold flagStore
  split
  · exact orphan_drains s g t
  · exact orphan_drains s g t
  · exact flagRegion_drains _ _ _ _ _

/-! ### Stores on their way (R205, R263, R269) -/

theorem surface_drains (s : State) (g : Nat) (q : Store) : Drains s (surface s g q) := by
  unfold surface
  dsimp only
  split
  · exact .refl s
  · exact .ite (.refl s) ((lateToken_drains _ _ _ _).trans (stamp_drains _ _ _))
theorem performStoreB_drains (s : State) (g : Nat) (q : Store) : Drains s (performStoreB s g q).1 := by
  have fail : ∀ (u : State) (f : Fail), Drains u (flagStore (lateToken u g q f).1 g q (lateToken u g q f).2) := fun u f =>
    (lateToken_drains _ _ _ _).trans (flagStore_drains _ _ _ _)
  unfold performStoreB
  dsimp only
  generalize hu : surface { s with draws := s.draws + 1 } g q = u
  have hs : Drains s u := hu ▸ .trans (t := { s with draws := s.draws + 1 }) (.of_groups rfl) (surface_drains _ _ _)
  refine hs.trans ?_
  split
  · rename_i aop size v _
    generalize hp : performAtomic (touchAt u _ q.view q.scope _) _ q.view _ _ aop size v 0 _ = r
    have ha : Drains u r.1 := hp ▸ (touchAt_drains _ _ _ _ _).trans (performAtomic_drains _ _ _ _ _ _ _ _ _ _)
    obtain ⟨t, e⟩ := r
    refine ha.trans ?_
    cases e with
    | val _ => exact wroteBy_drains _ _ _ _ _
    | tok _ => exact flagStore_drains _ _ _ _
    | new f => exact fail t _
    | beside _ => exact .refl t
  · generalize hp : performSector u _ q.view _ q = r
    have ha : Drains u r.1 := hp ▸ performSector_drains _ _ _ _ _
    obtain ⟨t, e⟩ := r
    refine ha.trans ?_
    cases e with
    | none => exact wroteBy_drains _ _ _ _ _
    | some f => exact fail t _
theorem performNext_drains (s : State) (g : Nat) (q : Store) : Drains s (performNext s g q) := by
  unfold performNext
  refine .ite (performStoreB_drains s g q) ?_
  dsimp only
  generalize hu : performStore (if q.backed then s else releaseSys s (s.grp g).ctx q.scope) g q = u
  have w : Drains s u := hu ▸ (Drains.ite (.refl s) (releaseSys_drains s _ _)).trans (performStoreB_drains _ _ _)
  refine w.trans ?_
  split
  · exact .ite (markThrough_drains u _) (.refl u)
  · exact .refl u
theorem drainEgress_drains (s : State) (g : Nat) : Drains s (drainEgress s g) := by
  unfold drainEgress
  refine Drains.trans ?_ (.fold _ (fun s q => performNext_drains s g q) _ _)
  exact updGrp_drains s g fun _ => ⟨rfl, fun q hq => nomatch hq⟩
theorem performReds_drains (s : State) (g : Nat) (o : AsyncOp) (p : Store → Bool) : Drains s (performReds s g o p) := by
  unfold performReds
  split
  · generalize hr : List.foldl _ (s, false) _ = r
    have w : Drains s r.1 := by
      rw [← hr]
      refine .foldFst _ (fun r q => ?_) _ (s, false)
      exact performStoreB_drains r.1 g q
    exact w.trans (updGrp_drains _ g fun _ => .of_frame rfl rfl)
  · exact .refl s
theorem ackInvals_drains (s : State) : Drains s (ackInvals s) := by
  unfold ackInvals
  dsimp only
  refine Drains.trans ?_ (.fold _ (fun s p => ?_) _ _)
  · exact .trans (.of_groups (t := { s with invals := [] }) rfl) (.fold _ (fun s g => drainEgress_drains s g) _ _)
  · exact .fold _ (fun s o => performReds_drains s p.1 o _) _ s

end Sys2Proof.Machine
end

section
/-! PROOFS. The Coachhouse at its event queue (R37, R44, R50), and the answer of the replay service (R245, R246). -/
namespace Sys2Proof.Machine

/-! ### What a write by an agent of the base leaves of the contexts -/

theorem writeDev_ctxs {s t : State} {v k : Nat} {bs : List (Nat × Byte)} {token : Option Word} (h : s.writeDev v k bs token = some t) : t.ctxs = s.ctxs := by
  unfold State.writeDev at h
  dsimp only at h
  split at h
  · cases h; exact (writeRoot_storeOnly s k bs token).field State.ctxs
  · split at h
    · cases h; rfl
    · split at h
      · cases h; rfl
      · split at h
        · cases h; exact (dropCopies_cacheOnly _ _).field State.ctxs
        · split at h
          · cases h
          · cases h; exact (dropCopies_cacheOnly _ _).field State.ctxs

theorem writeHost_ctxs (s : State) (ctx k : Nat) (bs : List (Nat × Byte)) (token : Option Word) : (s.writeHost ctx k bs token).ctxs = s.ctxs :=
  ((dropErrors_cacheOnly s (hostSec k)).trans (l1Inval_cacheOnly _ (hostSec k) fun _ => true)).field State.ctxs

theorem writeBack_ctxs (s : State) (k : Nat) : (s.writeBack k).ctxs = s.ctxs := by
  unfold State.writeBack
  split
  · rfl
  · dsimp only
    split
    · rfl
    · split
      · rfl
      · split <;> rfl

theorem performBytes_ctxs (s : State) (ctx v key : Nat) (p : Place) (bs : List (Nat × Byte)) (token : Option Word) :
    (performBytes s ctx v key p bs token).1.ctxs = s.ctxs := by
  unfold performBytes
  split
  · split
    · rename_i h
      exact writeDev_ctxs h
    · rfl
  · exact writeHost_ctxs _ _ _ _ _
  · exact State.updTeam_ctxs _ _ _
  · split
    · rfl
    · split
      · split
        · exact (writeRoot_storeOnly _ _ _ _).field State.ctxs
        · rfl
      · rfl

theorem checkedBytes_ctxs (s : State) (ctx v key : Nat) (p : Place) (bs : List (Nat × Byte)) (token : Option Word) :
    (checkedBytes s ctx v key p bs token).1.ctxs = s.ctxs := by
  unfold checkedBytes
  split
  · split
    · rfl
    · exact performBytes_ctxs _ _ _ _ _ _ _
  · exact performBytes_ctxs _ _ _ _ _ _ _

theorem agentWrite1_ctxs (s : State) (ctx va n data key : Nat) (token : Option Word) : (agentWrite1 s ctx va n data key token).1.ctxs = s.ctxs := by
  unfold agentWrite1
  split
  · rfl
  · split
    · rfl
    · dsimp only
      split
      · exact (writeBack_ctxs _ _).trans (checkedBytes_ctxs _ _ _ _ _ _ _)
      · exact checkedBytes_ctxs _ _ _ _ _ _ _

theorem agentWrite_ctxs (s : State) (ctx va n data key : Nat) : (agentWrite s ctx va n data key).1.ctxs = s.ctxs := by
  unfold agentWrite
  generalize partsOf va n = l
  have h : ∀ r : State × Bool, (l.foldl (fun (r : State × Bool) e =>
      ((agentWrite1 r.1 ctx (e.1 % 2 ^ 64) e.2 (bits data (8 * (e.1 - va)) (8 * e.2)) key none).1,
        r.2 && (agentWrite1 r.1 ctx (e.1 % 2 ^ 64) e.2 (bits data (8 * (e.1 - va)) (8 * e.2)) key none).2)) r).1.ctxs = r.1.ctxs := by
    induction l with
    | nil => exact fun _ => rfl
    | cons e l ih => exact fun r => (ih _).trans (agentWrite1_ctxs _ _ _ _ _ _ _)
  exact h (s, true)

/-! ### Packets that are refused -/

theorem queueOf_congr {s t : State} (h : t.ctxs = s.ctxs) (c q : Nat) : t.queueOf c q = s.queueOf c q := by
  simp only [State.queueOf, h]

theorem find_updQueue {s : State} {c : Nat} {k : Ctx} (h : Map.find s.ctxs c = some k) (q : Nat) (f : Queue → Queue) :
    ∃ k', Map.find (s.updQueue c q f).ctxs c = some k' ∧ k'.signals = k.signals := by
  unfold State.updQueue
  rw [State.find_updCtx, if_pos rfl, h]
  exact ⟨_, rfl, rfl⟩

theorem Queue.stop_isStopped (q : Queue) (b : Bool) (st : Nat) (i : BitVec 32) : (q.stop b st i).stopped = true := by
  unfold Queue.stop
  split
  · assumption
  · rfl
theorem Queue.stop_started (q : Queue) (b : Bool) (st : Nat) (i : BitVec 32) : (q.stop b st i).started = q.started := by
  unfold Queue.stop
  split <;> rfl

/-- A packet that ends in error completes with its status, and no completion operation is performed (R43, R45). -/
theorem finishPkt_error {s : State} {p : Pkt} {k : Ctx} {st : Nat} (h : Map.find s.ctxs p.ctx = some k) (hst : st ≠ 0) (xst info : Nat) :
    Completed s (finishPkt s p st xst info) p st k.signals := by
  have he : ∃ u : State, u.ctxs = s.ctxs ∧ finishPkt s p st xst info = wakeQueue
      ((u.updQueue p.ctx p.q fun q => { q with started := q.started.filter (fun e => e.pkt.idx != p.idx) }).updQueue p.ctx p.q fun q => q.stop false st (pktNo p)) p.ctx p.q := by
    unfold finishPkt
    dsimp only
    rw [if_neg (by simpa using hst)]
    exact ⟨_, agentWrite_ctxs { s with draws := s.draws + 1 } _ _ _ _ _, rfl⟩
  obtain ⟨u, hu, e⟩ := he
  rw [e]
  obtain ⟨k1, h1, e1⟩ := find_updQueue (s := u) (hu ▸ h) p.q fun q => { q with started := q.started.filter (fun e => e.pkt.idx != p.idx) }
  obtain ⟨k2, h2, e2⟩ := find_updQueue h1 p.q fun q => q.stop false st (pktNo p)
  refine ⟨⟨k2, by rw [wakeQueue_ctxs, h2], e2.trans e1⟩, ?_, ?_, mem_coach_wakeQueue _ _ _⟩
  · rw [queueOf_wakeQueue, queueOf_updQueue h1, if_pos rfl, Queue.stop_started, queueOf_updQueue (hu ▸ h), if_pos rfl, queueOf_congr hu]
  · rw [queueOf_wakeQueue, queueOf_updQueue h1, if_pos rfl, Queue.stop_isStopped, bne_iff_ne.2 hst, Bool.or_true]

/-- A packet refused as it is read completes with its status (R42, R43). -/
theorem refusePkt_completed {s : State} {p : Pkt} {k : Ctx} {st : Nat} (h : Map.find s.ctxs p.ctx = some k) (hst : st ≠ 0) :
    Completed s (refusePkt s p st) p st k.signals := by
  obtain ⟨k1, h1, e1⟩ := find_updQueue h p.q fun q => q.pass (pktNo p + 1)
  unfold refusePkt refuseStart
  generalize hv : s.updQueue p.ctx p.q _ = v at h1 ⊢
  have hq : v.queueOf p.ctx p.q = (s.queueOf p.ctx p.q).pass (pktNo p + 1) := by rw [← hv, queueOf_updQueue h, if_pos rfl]
  have hc : ∀ u, Completed v u p st k1.signals → Completed s u p st k.signals := fun u hu =>
    ⟨e1 ▸ hu.signals, hu.started.trans (by rw [hq]; rfl), hu.stopped.trans (by rw [hq]; rfl), hu.event⟩
  refine hc _ ?_
  split
  · obtain ⟨a, b, c, d⟩ := finishPkt_error (s := keepRecord v p 0) (p := p) h1 hst 0 0
    exact ⟨a, b, c, d⟩
  · exact finishPkt_error h1 hst 0 0

/-! ### The event queue (R50) -/

/-- The Coachhouse takes the one event there is: its queue's next packet starts (R37, R44, R50). -/
theorem coachhouseEvent_one {s : State} {c q : Nat} (hq : q < 64) (hc : s.coach = [64 * c + q]) (hw : satisfiedQueues s = []) (hs : (s.queueOf c q).started = []) :
    exec .coachhouseEvent s = .next (startNext { s with coach := [], draws := s.draws + 1 } c q) := by
  have hk : (64 * c + q) / 64 = c ∧ (64 * c + q) % 64 = q := by omega
  have hq' : ∀ n, ({ s with coach := [], draws := n } : State).queueOf c q = s.queueOf c q := fun _ => rfl
  show Host.Outcome.next (coachStep ((satisfiedQueues s).foldl _ s)) = _
  simp [hw, coachStep, hc, hk, completeWaits, hq', hs, Nat.mod_one]

/-- A queue with nothing started that may start its next packet, and the packet's bits (R37, R44). -/
structure PacketReady (s : State) (c q b : Nat) : Prop where
  started : (s.queueOf c q).started = []
  en : (s.queueOf c q).en = true
  running : (s.queueOf c q).stopped = false
  behind : (s.queueOf c q).rdidx ≠ (s.queueOf c q).w
  bits : agentRead { s with draws := s.draws + 1 } c (((s.queueOf c q).qbase.toNat + 64 * ((s.queueOf c q).rdidx.toNat % 2 ^ (s.queueOf c q).logsz)) % 2 ^ 64) 64
    (freeKey (s.draws + 1) 32 0) = .val b

/-- The packet that a queue's bits stand for. -/
def nextPkt (s : State) (c q b : Nat) : Pkt := ⟨c, q, (s.queueOf c q).epoch * 2 ^ 32 + (s.queueOf c q).rdidx.toNat, pktHdr b⟩

theorem PacketReady.mayStart {s : State} {c q b : Nat} (h : PacketReady s c q b) : (s.queueOf c q).mayStart = true := by
  simp [Queue.mayStart, h.started, h.en, h.running, h.behind]

theorem PacketReady.read {s : State} {c q b : Nat} (h : PacketReady s c q b) : readPacket { s with draws := s.draws + 1 } c (s.queueOf c q) = b := by
  simp only [readPacket, Queue.size, h.bits]

/-- The next packet is the next happening (R37, R44). -/
theorem PacketReady.starts {s : State} {c q b : Nat} (h : PacketReady s c q b) {i : Instr} (hi : packetOf (nextPkt s c q b) b = .ok i) :
    startNext s c q = { s with draws := s.draws + 1, agenda := ⟨s.time, .event i⟩ :: s.agenda } := by
  unfold nextPkt at hi
  simp only [startNext, h.mayStart, h.read, h.started, List.isEmpty_nil, Bool.not_true, Bool.and_false, Bool.false_eq_true, if_false, hi]

/-- The next packet is refused (R42). -/
theorem PacketReady.refuses {s : State} {c q b : Nat} (h : PacketReady s c q b) {st : Nat} (hi : packetOf (nextPkt s c q b) b = .error st) :
    startNext s c q = refusePkt { s with draws := s.draws + 1 } (nextPkt s c q b) st := by
  unfold nextPkt at *
  simp only [startNext, h.mayStart, h.read, h.started, List.isEmpty_nil, Bool.not_true, Bool.and_false, Bool.false_eq_true, if_false, hi]

/-! ### The replay service (R245, R246) -/

theorem parkedSlot_lt {x : Group} {slot : Nat} (h : x.parkedSlot = some slot) : slot = 0 ∨ slot = 1 := by
  unfold Group.parkedSlot at h
  dsimp only at h
  split at h
  · exact .inl (Option.some.inj h).symm
  · split at h
    · exact .inr (Option.some.inj h).symm
    · cases h

/-- A parked group asks the replay service, is there, and no answer has reached it (R245). -/
structure Asking (s : State) (g slot : Nat) (x : Group) (sp : Split) : Prop where
  find : Map.find s.groups g = some x
  parked : x.parkedSlot = some slot
  split : x.split slot = some sp
  asked : x.asked = true
  unanswered : x.service = none
  resident : x.resident = true
  settled : x.board = []

section
variable {s : State} {g slot : Nat} {x : Group} {sp : Split}

/-- An answer that declines takes effect as it is (R245). -/
theorem Asking.decline (h : Asking s g slot x sp) : serviceAnswer s g false = actOnAnswer s g slot false := by
  simp [serviceAnswer, State.grp_of_find h.find, h.parked, h.asked, h.unanswered, h.resident]

/-- An answer that says done takes effect as it is where no link is gone and no clean sector has to be fetched again (R245). -/
theorem Asking.accept (h : Asking s g slot x sp) (he : ∀ e ∈ flaggedEntries s x, e.detail ≠ .l2Clean ∧ hopeless s x e = false) :
    serviceAnswer s g true = actOnAnswer s g slot true := by
  have hany : (flaggedEntries s x).any (hopeless s x) = false := by simpa using fun e h => (he e h).2
  have hfold : ∀ l : List SideEntry, (∀ e ∈ l, e.detail ≠ .l2Clean) → l.foldl (fun s e => refetch s x e) s = s := by
    intro l hl
    induction l with
    | nil => rfl
    | cons e l ih =>
      obtain ⟨h1, h2⟩ := List.forall_mem_cons.1 hl
      have hr : refetch s x e = s := by simp [refetch, h1]
      rw [List.foldl_cons, hr, ih h2]
  simp [serviceAnswer, State.grp_of_find h.find, h.parked, h.asked, h.unanswered, h.resident, hany, hfold _ fun e h => (he e h).1]

/-- A parked group goes on: its split stands at a place with its lanes, its region and s63 are as given, and nothing else of its registers has changed. -/
structure GoneOn (x y : Group) (slot : Nat) (pc hdr : BitVec 64) (mask : Mask) (reg : Region) (s63 : Val) : Prop where
  region : y.region = reg
  asked : y.asked = false
  status : y.rdS 63 = s63
  others : ∀ n, n ≠ 63 → y.rdS n = x.rdS n
  v : y.v = x.v
  p : y.p = x.p
  q : y.q = x.q
  split : ∃ z, y.split slot = some z ∧ z.pc = pc ∧ z.hdr = hdr ∧ z.mask = mask ∧ z.wait = none ∧ z.clause = none

theorem freshDistances_bytes (s : State) (g : Nat) : BytesEq s (freshDistances s g) := updGrp_bytes _ _ _

theorem Group.settle_of_empty {x : Group} (h : x.board = []) : x.settle = x := by
  unfold Group.settle
  rw [h, List.foldl_nil, ← h]

/-- A declined replay: the region closes, and its split goes on at its recovery label with the first token in s63 (R243, R246). -/
theorem Asking.recovers (h : Asking s g slot x sp) (hc : x.region.clean = []) :
    BytesEq s (actOnAnswer s g slot false) ∧ ∃ y, Map.find (actOnAnswer s g slot false).groups g = some y ∧
      GoneOn x y slot x.region.recov x.region.recov sp.mask .closed ⟨x.region.first, false⟩ := by
  have hclean : cleanSets (s.grp g).region.clean = [] := by rw [State.grp_of_find h.find, hc]; rfl
  unfold actOnAnswer recover
  dsimp only
  rw [if_neg Bool.false_ne_true, hclean, placeClean, List.foldl_nil]
  refine ⟨?_, ?_⟩
  · exact (updGrp_bytes _ _ _).trans ((freshDistances_bytes _ _).trans ((updGrp_bytes _ _ _).trans ((updGrp_bytes _ _ _).trans
      ((updGrp_bytes _ _ _).trans (updGrp_bytes _ _ _)))))
  · simp only [freshDistances, closeRegion, put, State.updSpl, State.find_updGrp, if_true, h.find, Option.map_some, State.grp_of_find h.find,
      Group.settle_of_empty h.settled]
    have hsp := h.split
    obtain rfl | rfl := parkedSlot_lt h.parked
    · exact ⟨_, rfl, rfl, rfl, Map.get_set_self _ _ _ _, fun n hn => Map.get_set_ne _ _ _ hn, rfl, rfl, rfl, _,
        congrArg (Option.map _ ∘ Option.map _) hsp, rfl, rfl, rfl, rfl, rfl⟩
    · exact ⟨_, rfl, rfl, rfl, Map.get_set_self _ _ _ _, fun n hn => Map.get_set_ne _ _ _ hn, rfl, rfl, rfl, _,
        congrArg (Option.map _ ∘ Option.map _) hsp, rfl, rfl, rfl, rfl, rfl⟩

/-- A replay: the split goes on at the region's start with the lanes PM, and the region counts it and holds no token (R245). -/
theorem Asking.replays (h : Asking s g slot x sp) :
    BytesEq s (actOnAnswer s g slot true) ∧ ∃ y, Map.find (actOnAnswer s g slot true).groups g = some y ∧
      GoneOn x y slot x.region.start.1 x.region.start.2 (x.region.pm &&& x.live)
        { x.region with replays := x.region.replays + 1, flag := false, pm := 0, nqtok := none, first := 0, toks := [], allrpl := true } (x.rdS 63) := by
  unfold actOnAnswer replay
  dsimp only
  rw [if_pos rfl]
  refine ⟨?_, ?_⟩
  · exact (updGrp_bytes _ _ _).trans ((freshDistances_bytes _ _).trans ((bumpPerf_bytes _ _ _ _).trans ((updGrp_bytes _ _ _).trans (updGrp_bytes _ _ _))))
  · simp only [freshDistances, State.updSpl, State.find_updGrp, bumpPerf_groups, if_true, h.find, Option.map_some, State.grp, Option.getD_some,
      Group.settle_of_empty h.settled]
    have hsp := h.split
    obtain rfl | rfl := parkedSlot_lt h.parked
    · exact ⟨_, rfl, rfl, rfl, rfl, fun _ _ => rfl, rfl, rfl, rfl, _, congrArg (Option.map _ ∘ Option.map _) hsp, rfl, rfl, rfl, rfl, rfl⟩
    · exact ⟨_, rfl, rfl, rfl, rfl, fun _ _ => rfl, rfl, rfl, rfl, _, congrArg (Option.map _ ∘ Option.map _) hsp, rfl, rfl, rfl, rfl, rfl⟩

theorem limitExpired_due (h : Asking s g slot x sp) {d : Nat} (hd : sp.deadline = some d) (hl : d ≤ s.time) : limitExpired s g = serviceAnswer s g false := by
  simp [limitExpired, State.grp_of_find h.find, h.parked, h.split, hd, hl]

theorem limitExpired_early (h : Asking s g slot x sp) {d : Nat} (hd : sp.deadline = some d) (hl : s.time < d) : limitExpired s g = s := by
  simp [limitExpired, State.grp_of_find h.find, h.parked, h.split, hd, hl]

end

/-! ### The obligation -/

/-- Settles O49: the one event's queue starts its next packet; an answer, or the limit, replays the region or recovers from it. -/
theorem coachhouseAndReplay : Obligations.CoachhouseAndReplay := by
  refine ⟨?_, fun s g x slot sp hx hp hsp ha hv hr hb => ?_⟩
  · intro s c q k b hk hq hc hw y hs hen hst hne z p hb
    have h : PacketReady { s with coach := [], draws := s.draws + 1 } c q b := ⟨hs, hen, hst, hne, hb⟩
    rw [coachhouseEvent_one hq hc hw hs]
    refine ⟨fun i hi => congrArg Host.Outcome.next (h.starts hi), fun st hi hst => ⟨_, congrArg Host.Outcome.next (h.refuses hi), ?_⟩⟩
    obtain ⟨h1, h2, h3, h4⟩ := refusePkt_completed (s := z) (p := p) hk hst
    exact ⟨h1, h2, h3, h4⟩
  · intro r goesOn recovers
    have h : Asking s g slot x sp := ⟨hx, hp, hsp, ha, hv, hr, hb⟩
    have goes : ∀ {i u pc hdr mask reg s63}, exec i s = .next u → (BytesEq s u ∧ ∃ y, Map.find u.groups g = some y ∧ GoneOn x y slot pc hdr mask reg s63) →
        goesOn i pc hdr mask reg s63 := by
      rintro i u pc hdr mask reg s63 hi ⟨hu, y, hy, ⟨h1, h2, h3, h4, h5, h6, h7, z, hz, hpc, hhdr, hm, hwt, hcl⟩⟩
      exact ⟨u, y, z, hi, hy, h1, h2, h3, h4, h5, h6, h7, hu.memoryKept, hz, hpc, hhdr, hm, hwt, hcl⟩
    refine ⟨fun hc => ?_, fun hc d hd hl => ?_, fun d hd hl => ?_, fun he => ?_⟩
    · exact goes (congrArg Host.Outcome.next h.decline) (h.recovers hc)
    · exact goes (congrArg Host.Outcome.next ((limitExpired_due h hd hl).trans h.decline)) (h.recovers hc)
    · exact congrArg Host.Outcome.next (limitExpired_early h hd hl)
    · exact goes (congrArg Host.Outcome.next (h.accept he)) h.replays

end Sys2Proof.Machine
end

section
/-! PROOFS. Fences and signals (R47, R263, R269, R292 to R294). -/
namespace Sys2Proof.Machine

/-! ### What is owed of a store (R263, R267 to R269) -/

theorem le_foldl_max {α : Type} (f : α → Nat) (l : List α) : ∀ a, a ≤ l.foldl (fun m q => max m (f q)) a := by
  induction l with
  | nil => exact fun a => le_refl a
  | cons q l ih => exact fun a => le_trans (le_max_left _ _) (ih _)
theorem foldl_max_le {α : Type} (f : α → Nat) {b : Nat} {l : List α} (h : ∀ q ∈ l, f q ≤ b) : ∀ a, a ≤ b → l.foldl (fun m q => max m (f q)) a ≤ b := by
  induction l with
  | nil => exact fun a ha => ha
  | cons q l ih =>
    obtain ⟨hq, hl⟩ := List.forall_mem_cons.1 h
    exact fun a ha => ih hl _ (max_le ha hq)

theorem owing_fst (scope : Nat) (need : Store → Nat) (l : List Store) : (owing scope need l).map (·.1) = l := by
  induction l with
  | nil => rfl
  | cons p l ih => simp only [owing, List.map_cons, ih]

/-- A store needed within the package's scope is to perform now. -/
theorem owing_now {scope : Nat} {need : Store → Nat} {l : List Store} : ∀ r ∈ owing scope need l, scope ≤ need r.1 → r.2 = 5 := by
  induction l with
  | nil => exact fun r hr => nomatch hr
  | cons p l ih =>
    intro r hr hs
    rcases List.mem_cons.1 hr with rfl | hr
    · exact if_pos (le_trans hs (le_foldl_max _ _ _))
    · exact ih r hr hs

/-- Where nothing is needed within the package's scope, what is owed of a store is what it is needed for, or less than the most that is needed. -/
theorem owing_narrow {scope o : Nat} {need : Store → Nat} (hn : ∀ q, need q ≤ o) (ho : o < scope) {l : List Store} :
    ∀ r ∈ owing scope need l, need r.1 ≤ r.2 ∧ r.2 ≤ o := by
  induction l with
  | nil => exact fun r hr => nomatch hr
  | cons p l ih =>
    intro r hr
    rcases List.mem_cons.1 hr with rfl | hr
    · have hle := foldl_max_le (fun q : Store × Nat => min ((p.ahead q.1).getD 0) q.2) (fun q hq => le_trans (min_le_right _ _) (ih q hq).2) (need p) (hn p)
      rw [if_neg (by omega)]
      exact ⟨le_foldl_max _ _ _, hle⟩
    · exact ih r hr

/-! ### Fences (R269, R292) -/

theorem packageScope_le (s : State) (ctx : Nat) : s.packageScope ctx ≤ 4 := by
  unfold State.packageScope
  split <;> decide

theorem ackInvals_nil {s : State} (h : s.invals = []) : ackInvals s = s := by
  unfold ackInvals
  rw [h]
  simp only [List.flatMap_nil, List.map_nil, List.eraseDups_nil, List.foldl_nil]
  rw [← h]

theorem releaseSys_narrow (s : State) (ctx : Nat) {scope : Nat} (h : scope ≠ 4) : releaseSys s ctx scope = s := by
  simp [releaseSys, h]

theorem releaseSys_nil {s : State} (h : s.hostL2 = []) (ctx scope : Nat) : releaseSys s ctx scope = s := by
  unfold releaseSys State.dropClean State.writeBackCtx
  split
  · rw [h, List.filter_nil, List.foldl_nil, h, List.filter_nil, ← h]
  · rfl

/-- Where nothing is to perform, what precedes is owed. -/
theorem settleWith_owes {s : State} {g : Nat} {x : Group} (hx : Map.find s.groups g = some x) {need : Store → Nat}
    (hn : ∀ r ∈ owing (s.packageScope x.ctx) need x.egress, r.2 ≠ 5) :
    settleWith s g need = { s with groups := Map.put s.groups g { x with egress := (owing (s.packageScope x.ctx) need x.egress).map (fun r => r.1.owe r.2) } } := by
  unfold settleWith
  dsimp only
  have hnow : (owing (s.packageScope x.ctx) need x.egress).filter (fun p => p.2 == 5) = [] := List.filter_eq_nil_iff.2 fun r hr => by simpa using hn r hr
  have hrest : (owing (s.packageScope x.ctx) need x.egress).filter (fun p => p.2 != 5) = owing (s.packageScope x.ctx) need x.egress :=
    List.filter_eq_self.2 fun r hr => by simpa using hn r hr
  rw [State.grp_of_find hx, hnow, hrest, List.map_nil, List.foldl_nil, updGrp_of_find hx]

/-! ### A signal operation (R47, R293) -/

theorem signalOp_eq {s : State} {c : Nat} {k : Ctx} (h : Map.find s.ctxs c = some k) (n : Nat) (add : Bool) (v : BitVec 64) :
    signalOp s c n add v = { s with
      ctxs := Map.put s.ctxs c { k with signals := Map.set 0 k.signals n (if add then Map.get 0 k.signals n + v else v) }
      groups := s.groups.map (fun e => if e.2.ctx == c then (e.1, e.2.mapSplits (Split.meetSignal n (if add then Map.get 0 k.signals n + v else v))) else e) } := by
  simp only [signalOp, sigVal_of_find h, updCtx_of_find h]

/-- What a `SIG` writes of the old value when it returns it. -/
theorem laneWrites_pair (sd : Nat) (old : BitVec 64) :
    laneWrites .s sd 2 (0, old.toNat, none) = [⟨.s, sd, 0, ⟨old.setWidth 32, false⟩⟩, ⟨.s, sd + 1, 0, ⟨old.extractLsb' 32 32, false⟩⟩] := by
  have h0 : old.setWidth 32 = BitVec.ofNat 32 (old.toNat >>> (32 * 0)) := BitVec.eq_of_toNat_eq (by simp)
  have h1 : old.extractLsb' 32 32 = BitVec.ofNat 32 (old.toNat >>> (32 * 1)) := BitVec.eq_of_toNat_eq (by simp)
  rw [h0, h1]
  rfl

/-- A result owed to a group that has just been put. -/
theorem owe_put (s : State) (m : List (Nat × Group)) (g : Nat) (y : Group) {ws : List RegWrite} (h : ws ≠ []) :
    owe { s with groups := Map.put m g y } g ws = { s with groups := Map.put m g { y with board := y.board ++ [ws] } } := by
  unfold owe
  rw [if_neg (by simpa using h), updGrp_of_find (Map.find_put_self m g y)]
  dsimp only
  rw [Map.put_put]


/-- The number of the signal that a `SIG` names. -/
def sigNo (x : Group) (w : WS) (lit : Option Word) : Nat := match lit with | some l => l.toNat | none => x.reg w.sa.toNat

/-- A `SIG` names one of its context's signals, and its fields hold no reserved value. -/
def SigOk (k : Ctx) (w : WS) (lit : Option Word) (ret : Bool) (n : Nat) : Prop :=
  1 ≤ n ∧ n ≤ k.nsig ∧ n < 65536 ∧ w.sb.toNat % 2 = 0 ∧ w.sd.toNat % 2 = 0 ∧ (lit.isSome = true → w.sa = 0) ∧ (ret = false → w.sd = 0)

theorem sigOk_iff (k : Ctx) (w : WS) (lit : Option Word) (ret : Bool) (n : Nat) : SigOk k w lit ret n ↔
    (!((n == 0 || decide (k.nsig < n) || decide (65536 ≤ n)) || oddReg w.sb.toNat || oddReg w.sd.toNat || (lit.isSome && w.sa != 0) || (!ret && w.sd != 0))) = true := by
  simp only [SigOk, oddReg, Bool.not_eq_true', Bool.or_eq_false_iff, beq_eq_false_iff_ne, decide_eq_false_iff_not, Bool.and_eq_false_imp, bne_eq_false_iff_eq,
    Bool.not_eq_true', not_lt, not_le, Nat.one_le_iff_ne_zero, Nat.mod_two_not_eq_one, ne_eq, and_assoc]

/-- What `SIGW` waits for is given by parameters within their ranges. -/
def SigwOk (k : Ctx) (w : WS) (a : Nat) : Prop := w.sub.toNat < 6 ∧ w.sb.toNat % 2 = 0 ∧ a % 65536 ≠ 0 ∧ a % 65536 ≤ k.nsig ∧ a < 2 ^ 21

/-- The condition `cond` of a `SIGW` holds of a signal's value (R294). -/
def SignalHolds (cond : Nat) (now cmp : BitVec 64) : Prop :=
  match cond with
  | 0 => now = cmp
  | 1 => now ≠ cmp
  | 2 => cmp ≤ now
  | 3 => now < cmp
  | 4 => cmp.toInt ≤ now.toInt
  | _ => now.toInt < cmp.toInt

theorem signalCond_iff (now cmp : BitVec 64) : ∀ cond, signalCond cond now cmp = true ↔ SignalHolds cond now cmp
  | 0 | 1 | 2 | 3 | 4 => by simp [signalCond, SignalHolds, BitVec.le_def, BitVec.lt_def]
  | n + 5 => by simp [signalCond, SignalHolds]

theorem waitMet_signal {s : State} {x : Group} {k : Ctx} (hk : Map.find s.ctxs x.ctx = some k) (n cond : Nat) (cmp : BitVec 64) :
    waitMet s x (.signal n cond cmp) = true ↔ SignalHolds cond (Map.get 0 k.signals n) cmp := by
  rw [← signalCond_iff, ← sigVal_of_find hk]
  rfl

section
variable {s : State} {c : Cur} (hc : s.cur = some c) (w : WS)
include hc

/-- `SIGW` issued afresh checks its operands first (R294). -/
theorem execSigw_fresh (hw : c.wait = none) : execSigw w s = visibleChecked w.qual (sigwCheck w) (fun r => finishS true w.sd.toNat 1 r)
    (fun a c => waitPhase c (.signal (a.1 % 65536) w.sub.toNat (BitVec.ofNat 64 a.2)) false (bits a.1 16 4) w.sd.toNat true (status w.sd.toNat 0)) s := by
  cases c
  cases hw
  simp only [execSigw, hc]

/-- `SIGW` that goes on keeps what it waits for (R104, R294). -/
theorem execSigw_signal {m cond : Nat} {v : BitVec 64} (hw : c.wait = some (.signal m cond v)) :
    execSigw w s = .next (waitPhase c (.signal m cond v) false (if c.deadline.isSome then 14 else 15) w.sd.toNat true (status w.sd.toNat 0) (wxOf c s) s) := by
  cases c
  cases hw
  simp only [execSigw, hc, onIssuer_of_cur _ hc]

/-- `SIGW` whose condition has been met goes on to its end (R294). -/
theorem execSigw_met (hw : c.wait = some .signalMet) :
    execSigw w s = .next (waitPhase c .signalMet false 15 w.sd.toNat true (status w.sd.toNat 0) (wxOf c s) s) := by
  cases c
  cases hw
  simp only [execSigw, hc, onIssuer_of_cur _ hc]

end

/-! ### Checks (R88) -/

theorem require_cases {α : Type} {ok : Bool} {p : Prop} (h : p ↔ ok = true) (k : Except LVal α) :
    (p → require ok k = k) ∧ (¬p → require ok k = .error (.bad .malformed)) :=
  ⟨fun hp => if_pos (h.1 hp), fun hp => if_neg fun e => hp (h.2 e)⟩

theorem require_require {α : Type} (a b : Bool) (k : Except LVal α) : require a (require b k) = require (a && b) k := by
  cases a <;> rfl

/-! ### Words of the issuing split -/

section
variable {s : State} {c : Cur} {x : Group} {sp : Split} {t : Team} (h : Issuing s c x sp t)
include h

/-- What a fence of the issuing split needs of a store. -/
theorem Issuing.fenceNeed (scope : Nat) :
    (fun q : Store => (if q.precedes (s.curMask c.gid) then some scope else none).getD 0) = fun q => if q.precedes sp.mask then scope else 0 := by
  funext q
  rw [h.curMask_eq]
  split <;> rfl

/-- A full fence at a scope below the package's owes the split's earlier stores to the agents of that scope (R263). -/
theorem Issuing.fullFence_narrow {scope : Nat} (hs : scope < s.packageScope x.ctx) (hi : scope < 3 ∨ s.invals = []) :
    fullFence s c.gid scope = { s with groups := Map.put s.groups c.gid { x with egress :=
      (owing (s.packageScope x.ctx) (fun q => if q.precedes sp.mask then scope else 0) x.egress).map (fun q => q.1.owe q.2) } } := by
  have hp := packageScope_le s x.ctx
  have hneed : ∀ q : Store, (if q.precedes sp.mask then scope else 0) ≤ scope := fun q => by split <;> omega
  unfold fullFence settleBy
  dsimp only
  rw [h.fenceNeed, settleWith_owes h.group fun r hr => by have := (owing_narrow hneed hs r hr).2; omega, releaseSys_narrow _ _ (by omega)]
  split
  · exact ackInvals_nil (hi.resolve_left (by omega))
  · rfl

/-- A full fence with nothing on its way changes nothing. -/
theorem Issuing.fullFence_still (hs : Still s x) (scope : Nat) : fullFence s c.gid scope = { s with groups := Map.put s.groups c.gid x } := by
  have hx : ({ x with egress := [] } : Group) = x := by rw [← hs.egress]
  unfold fullFence settleBy
  dsimp only
  rw [h.fenceNeed, settleWith_owes h.group (fun r hr => by rw [hs.egress] at hr; cases hr), hs.egress]
  rw [owing, List.map_nil, hx, ackInvals_nil (by exact hs.invals), ite_self, releaseSys_nil (by exact hs.lines)]

/-- A full fence at the package's scope or wider performs the split's earlier stores, and writes no register (R269). -/
theorem Issuing.fullFence_performs {scope : Nat} (hs : s.packageScope x.ctx ≤ scope) :
    ∃ y, Map.find (fullFence s c.gid scope).groups c.gid = some y ∧ (∀ q ∈ y.egress, q.precedes sp.mask = false) ∧ y.v = x.v ∧ y.s = x.s ∧ y.p = x.p ∧ y.q = x.q := by
  generalize hr : owing (s.packageScope x.ctx) (fun q => if q.precedes sp.mask then scope else 0) x.egress = r
  have hd : Drains (s.updGrp c.gid fun x => { x with egress := (r.filter (fun p => p.2 != 5)).map (fun p => p.1.owe p.2) }) (fullFence s c.gid scope) := by
    unfold fullFence settleBy settleWith
    dsimp only
    rw [h.fenceNeed, State.grp_of_find h.group, hr]
    generalize s.updGrp c.gid _ = u
    have w : Drains u (((r.filter (fun p => p.2 == 5)).map (·.1)).foldl (fun s q => performNext s c.gid q) u) := .fold _ (fun s q => performNext_drains s c.gid q) _ u
    refine w.trans ?_
    split
    · exact (ackInvals_drains _).trans (releaseSys_drains _ _ _)
    · exact releaseSys_drains _ _ _
  obtain ⟨y, hy, hxy⟩ := hd.groups c.gid _ (by rw [State.find_updGrp, if_pos rfl, h.group]; rfl)
  have hf := hxy.frame
  refine ⟨y, hy, fun q hq => ?_, by rw [hf], by rw [hf], by rw [hf], by rw [hf]⟩
  obtain ⟨p, hp, hm⟩ := hxy.egress q hq
  obtain ⟨e, he, rfl⟩ := List.mem_map.1 hp
  obtain ⟨he, h5⟩ := List.mem_filter.1 he
  have hpre : e.1.precedes sp.mask = false := by
    by_contra hc
    rw [Bool.not_eq_false] at hc
    exact absurd (owing_now e (hr ▸ he) (by rw [if_pos hc]; exact hs)) (by simpa using h5)
  rw [← hpre]
  unfold Store.precedes
  rw [hm]
  rfl

/-! ### `FENCE` (R292) -/

/-- The fields of a `FENCE` hold no reserved value but for its kind. -/
def FenceOk (w : WC) : Prop := w.d = 0 ∧ w.imm.toNat / 4 < 5

/-- A `FENCE` acts once when a lane is active. -/
theorem Issuing.fence_acts (hp : Plain x t) {w : WC} (hc : CleanPred x sp w.pred.toNat) (hw : FenceOk w) (f : State → Nat → Nat → BitVec 64 → State) :
    fenceWord w false f s = .next (if activeMask x sp w.pred.toNat = 0 then s else f s c.gid (w.imm.toNat / 4) c.pc) := by
  obtain ⟨hd, hi⟩ := hw
  unfold fenceWord
  dsimp only
  rw [h.visibleLane_eq hp w.pred hc, if_neg (by simp [hd]; omega), Nat.mod_eq_of_lt (by omega)]
  simp only [beq_iff_eq]
  rfl

theorem Issuing.fenceAcq_acts (hp : Plain x t) {w : WC} (hc : CleanPred x sp w.pred.toNat) (hw : FenceOk w) (hk : w.imm.toNat % 4 = 0) :
    exec (.fenceAcq w) s = .next s := by
  have e := h.fence_acts hp hc hw fun s _ _ _ => s
  rw [ite_self] at e
  have hr : (w.imm.toNat % 4 != 0) = false := by simpa using hk
  show execFenceAcq w s = _
  rw [execFenceAcq, hr, e]

theorem Issuing.fenceRel_acts (hp : Plain x t) {w : WC} (hc : CleanPred x sp w.pred.toNat) (hw : FenceOk w) :
    exec (.fenceRel w) s = .next (if activeMask x sp w.pred.toNat = 0 then s else relFence s c.gid (w.imm.toNat / 4) c.pc) := h.fence_acts hp hc hw _

theorem Issuing.fenceFull_acts (hp : Plain x t) {w : WC} (hc : CleanPred x sp w.pred.toNat) (hw : FenceOk w) :
    exec (.fenceFull w) s = .next (if activeMask x sp w.pred.toNat = 0 then s else fullFence s c.gid (w.imm.toNat / 4)) :=
  h.fence_acts hp hc hw fun s g scope _ => fullFence s g scope

/-- A reserved use of `FENCE` is flagged for its active lanes (R88). -/
theorem Issuing.fence_reserved (hp : Plain x t) {w : WC} (hc : CleanPred x sp w.pred.toNat) {rsv : Bool} (hw : rsv = true ∨ ¬FenceOk w)
    (f : State → Nat → Nat → BitVec 64 → State) : fenceWord w rsv f s = .next (malformedNoDest s c.gid c.pc (activeMask x sp w.pred.toNat)) := by
  unfold fenceWord
  dsimp only
  rw [h.visibleLane_eq hp w.pred hc, if_pos]
  · rfl
  · unfold FenceOk at hw
    by_cases hd : w.d = 0
    · rcases hw with hw | hw
      · simp [hw]
      · simp [hd] at hw ⊢
        omega
    · simp [show w.d ≠ 0#7 from hd]

theorem Issuing.fenceAcq_reserved (hp : Plain x t) {w : WC} (hc : CleanPred x sp w.pred.toNat) (hw : w.imm.toNat % 4 ≠ 0 ∨ ¬FenceOk w) :
    ReservedUse (.fenceAcq w) s c (activeMask x sp w.pred.toNat) := h.fence_reserved hp hc (hw.imp_left bne_iff_ne.2) fun s _ _ _ => s

theorem Issuing.fenceRel_reserved (hp : Plain x t) {w : WC} (hc : CleanPred x sp w.pred.toNat) (hw : ¬FenceOk w) :
    ReservedUse (.fenceRel w) s c (activeMask x sp w.pred.toNat) := h.fence_reserved (rsv := false) hp hc (.inr hw) relFence

theorem Issuing.fenceFull_reserved (hp : Plain x t) {w : WC} (hc : CleanPred x sp w.pred.toNat) (hw : ¬FenceOk w) :
    ReservedUse (.fenceFull w) s c (activeMask x sp w.pred.toNat) := h.fence_reserved (rsv := false) hp hc (.inr hw) fun s g scope _ => fullFence s g scope

/-- A release fence below `.sys` stands behind the group's earlier stores (R269). -/
theorem Issuing.relFence_narrow {scope : Nat} (hs : scope ≠ 4) (pc : BitVec 64) : relFence s c.gid scope pc = { s with groups := Map.put s.groups c.gid { x with egress :=
    if x.egress.isEmpty then [] else x.egress ++ [{ fenceMark pc scope with mask := sp.mask }] } } := by
  unfold relFence
  rw [if_neg (by simpa using hs), updGrp_of_find h.group, h.curMask_eq]
  cases he : x.egress with
  | nil => rw [List.isEmpty_nil, if_pos rfl, if_pos rfl, ← he]
  | cons q l => rfl

/-! ### Signals (R47, R293, R294) -/

/-- A `SIG` of the root view with nothing on its way (R293, R294). -/
theorem Issuing.sigDo_eq {k : Ctx} (hp : Plain x t) (hs : Still s x) (hk : Map.find s.ctxs x.ctx = some k) (w : WS) (add ret : Bool) (n v : Nat) :
    let old := Map.get 0 k.signals n
    let new := if add then old + BitVec.ofNat 64 v else BitVec.ofNat 64 v
    sigDo w add ret n v (wxOf c s) s = { s with
      ctxs := Map.put s.ctxs x.ctx { k with signals := Map.set 0 k.signals n new }
      groups := Map.put (s.groups.map (fun e => if e.2.ctx == x.ctx then (e.1, e.2.mapSplits (Split.meetSignal n new)) else e)) c.gid
        { x.mapSplits (Split.meetSignal n new) with board := if ret then x.board ++
          [[⟨.s, w.sd.toNat, 0, ⟨old.setWidth 32, false⟩⟩, ⟨.s, w.sd.toNat + 1, 0, ⟨old.extractLsb' 32 32, false⟩⟩]] else x.board } } := by
  intro old new
  have hk' : Map.find ({ s with groups := Map.put s.groups c.gid x } : State).ctxs x.ctx = some k := hk
  have hmap := Map.map_put (fun e : Nat × Group => if e.2.ctx == x.ctx then (e.1, e.2.mapSplits (Split.meetSignal n new)) else e) (fun e => by split <;> rfl)
    s.groups c.gid x
  simp only [beq_self_eq_true, if_true] at hmap
  unfold sigDo
  dsimp only
  rw [h.wx_group, h.viewOf_root hp, if_neg (by decide), show (wxOf c s).g = c.gid from rfl, h.fullFence_still hs, signalOp_eq hk', hmap, sigVal_of_find hk']
  cases ret with
  | false => rfl
  | true =>
    rw [if_pos rfl, finishS_val, laneWrites_pair]
    exact owe_put { s with ctxs := _ } _ _ _ (List.cons_ne_nil _ _)

theorem Issuing.nsig_eq {k : Ctx} (hk : Map.find s.ctxs x.ctx = some k) : s.nsig (wxOf c s).x.ctx = k.nsig := by
  rw [h.wx_group, State.nsig, hk]
  rfl

theorem Issuing.sigCheck_cases {k : Ctx} (hk : Map.find s.ctxs x.ctx = some k) {w : WS} {lit : Option Word} (hsa : lit = none → CleanReg x w.sa.toNat)
    (hsb : CleanPair x w.sb.toNat) (ret : Bool) :
    (SigOk k w lit ret (sigNo x w lit) → sigCheck w lit ret s (wxOf c s) = .ok (sigNo x w lit, x.pair w.sb.toNat)) ∧
      (¬SigOk k w lit ret (sigNo x w lit) → sigCheck w lit ret s (wxOf c s) = .error (.bad .malformed)) := by
  have hok := sigOk_iff k w lit ret (sigNo x w lit)
  unfold sigCheck
  rw [h.sPair_clean 2 _ hsb, h.nsig_eq hk]
  cases lit with
  | some l => exact require_cases hok (.ok (_, _))
  | none =>
    rw [h.sReg_clean 0 _ (hsa rfl)]
    exact require_cases hok (.ok (_, _))

/-! ### `SIGW` (R294) -/

theorem Issuing.sigwCheck_cases {k : Ctx} (hk : Map.find s.ctxs x.ctx = some k) {w : WS} (hsa : CleanReg x w.sa.toNat) (hsb : CleanPair x w.sb.toNat) :
    (SigwOk k w (x.reg w.sa.toNat) → sigwCheck w s (wxOf c s) = .ok (x.reg w.sa.toNat, x.pair w.sb.toNat)) ∧
      (¬SigwOk k w (x.reg w.sa.toNat) → sigwCheck w s (wxOf c s) = .error (.bad .malformed)) := by
  have hok : SigwOk k w (x.reg w.sa.toNat) ↔ ((decide (w.sub.toNat < 6) && !oddReg w.sb.toNat) &&
      (x.reg w.sa.toNat % 65536 != 0 && decide (x.reg w.sa.toNat % 65536 ≤ k.nsig) && decide (x.reg w.sa.toNat < 2 ^ 21))) = true := by
    simp [SigwOk, oddReg, and_assoc]
  unfold sigwCheck
  simp only [h.sReg_clean 0 _ hsa, h.sPair_clean 2 _ hsb, operands2, h.nsig_eq hk, require_require]
  exact require_cases hok _

/-- `SIGW` issued afresh on parameters within their ranges waits for its signal (R294). -/
theorem Issuing.sigw_afresh {k : Ctx} (hp : Plain x t) (hf : Fresh c) (hk : Map.find s.ctxs x.ctx = some k) {w : WS} (hq : qualified x w.qual.toNat)
    (hsa : CleanReg x w.sa.toNat) (hsb : CleanPair x w.sb.toNat) (hw : SigwOk k w (x.reg w.sa.toNat)) :
    let n := x.reg w.sa.toNat % 65536
    let cmp := BitVec.ofNat 64 (x.pair w.sb.toNat)
    WaitsFor (.sigw w) s s c x sp (.signal n w.sub.toNat cmp) false true (x.reg w.sa.toNat / 65536 % 16) w.sd.toNat
      (SignalHolds w.sub.toNat (Map.get 0 k.signals n) cmp) (x.owes w.sd.toNat 0) := by
  intro n cmp
  have hi := h.visibleChecked_ok hp w.qual hq ((h.sigwCheck_cases hk hsa hsb).1 hw) (fun r => finishS true w.sd.toNat 1 r)
    (fun a c => waitPhase c (.signal (a.1 % 65536) w.sub.toNat (BitVec.ofNat 64 a.2)) false (bits a.1 16 4) w.sd.toNat true (status w.sd.toNat 0))
  rw [← execSigw_fresh h.cur w hf.wait, bits_eq] at hi
  exact h.waitsFor (i := .sigw w) hi (waitMet_signal hk _ _ _) fun _ => status_owes (w := wxOf c s) h.group _ _

/-- Parameters of `SIGW` outside their ranges poison its status (R88, R294). -/
theorem Issuing.sigw_reserved {k : Ctx} (hf : Fresh c) (hk : Map.find s.ctxs x.ctx = some k) {w : WS} (hq : qualified x w.qual.toNat)
    (hsa : CleanReg x w.sa.toNat) (hsb : CleanPair x w.sb.toNat) (hw : ¬SigwOk k w (x.reg w.sa.toNat)) :
    Results (.sigw w) s c.gid x true (fun _ => true) ⟨.s, w.sd.toNat, 1⟩ (fun _ => .bad .malformed) := by
  have hi := h.visibleChecked_error w.qual hq ((h.sigwCheck_cases hk hsa hsb).2 hw) (fun r => finishS true w.sd.toNat 1 r)
    (fun a c => waitPhase c (.signal (a.1 % 65536) w.sub.toNat (BitVec.ofNat 64 a.2)) false (bits a.1 16 4) w.sd.toNat true (status w.sd.toNat 0))
  rw [← execSigw_fresh h.cur w hf.wait] at hi
  obtain ⟨ws, h1, h2, h3⟩ := finishS_spec true w.sd.toNat 1 (.bad .malformed) (wxOf c s) s x h.group h.resident
  exact ⟨_, ws, hi, h1, h2, h3⟩

/-- `SIGW` that goes on waits for the condition it began with (R104, R294). -/
theorem Issuing.sigw_resumed {k : Ctx} (hk : Map.find s.ctxs x.ctx = some k) (w : WS) {m cond : Nat} {v : BitVec 64} (hw : c.wait = some (.signal m cond v)) :
    WaitsFor (.sigw w) s s c x sp (.signal m cond v) false true (if c.deadline.isSome then 14 else 15) w.sd.toNat (SignalHolds cond (Map.get 0 k.signals m) v)
      (x.owes w.sd.toNat 0) :=
  h.waitsFor (i := .sigw w) (execSigw_signal h.cur w hw) (waitMet_signal hk _ _ _) fun _ => status_owes (w := wxOf c s) h.group _ _

/-- `SIGW` whose condition has been met ends, in 3 where its context is to be abandoned (R294, R386). -/
theorem Issuing.sigw_met {k : Ctx} (hk : Map.find s.ctxs x.ctx = some k) (w : WS) (hw : c.wait = some .signalMet) :
    Becomes (.sigw w) s c.gid (x.owes w.sd.toNat (if k.abandon then 3 else 0)) := by
  have hab : Abandoned s x ↔ k.abandon = true := ⟨fun ⟨k', h', ha⟩ => by rw [hk] at h'; cases h'; exact ha, fun ha => ⟨k, hk, ha⟩⟩
  obtain ⟨h1, h2, -⟩ := h.waitsFor (seen := s) (i := .sigw w) (execSigw_met h.cur w hw) (ok := True) (iff_of_true rfl trivial) fun _ => status_owes (w := wxOf c s) h.group _ _
  by_cases ha : k.abandon = true
  · rw [if_pos ha]
    exact h2 (hab.2 ha) (.inl rfl)
  · rw [if_neg ha]
    exact h1 trivial (.inl (hab.not.2 ha))

/-! ### `SIG` (R47, R293) -/

/-- A `SIG` that names a signal of its context, in the root view and with nothing on its way. -/
theorem Issuing.sig_acts {k : Ctx} (hp : Plain x t) (hk : Map.find s.ctxs x.ctx = some k) {w : WS} {lit : Option Word} (hq : qualified x w.qual.toNat)
    (hsa : lit = none → CleanReg x w.sa.toNat) (hsb : CleanPair x w.sb.toNat) (add : Bool) {ret : Bool} (hw : SigOk k w lit ret (sigNo x w lit)) :
    sigWord w lit add ret s = .next (sigDo w add ret (sigNo x w lit) (x.pair w.sb.toNat) (wxOf c s) s) :=
  h.visibleChecked_ok hp w.qual hq ((h.sigCheck_cases hk hsa hsb ret).1 hw) _ _

/-- A reserved use of a `SIG` that returns nothing is flagged (R88). -/
theorem Issuing.sig_reserved {k : Ctx} (hk : Map.find s.ctxs x.ctx = some k) {w : WS} {lit : Option Word} (hq : qualified x w.qual.toNat)
    (hsa : lit = none → CleanReg x w.sa.toNat) (hsb : CleanPair x w.sb.toNat) (add : Bool) (hw : ¬SigOk k w lit false (sigNo x w lit)) :
    sigWord w lit add false s = .next (malformedNoDest s c.gid c.pc sp.mask) := by
  refine (h.visibleChecked_error w.qual hq ((h.sigCheck_cases hk hsa hsb false).2 hw) _ _).trans ?_
  rw [h.wx]
  rfl

end

/-! ### The obligation -/

/-- Settles O43: a `SIG` acts on its signal behind a full fence, a `SIGW` comes to its waiting phase, and a `FENCE` to what it owes or performs. -/
theorem signalsAndFences : Obligations.SignalsAndFences := by
  intro s c x sp t w v lit k h hpred hp hk n sd op old names tests does r cmp watches now holds kind scope fences mask performed
  have hn : sigNo x w lit = n := by cases lit <;> rfl
  have hok : ∀ ret, SigOk k w lit ret (sigNo x w lit) ↔ names ∧ (ret = false → w.sd = 0) := fun ret => by
    simp only [SigOk, names, hn, and_assoc]
  refine ⟨fun hq hsa hsb => ⟨fun hnm hst => ?_, fun hnm => ?_⟩, fun hq hf hsa hsb => ⟨?_, ?_⟩, fun m cond u _ hw => ?_, h.sigw_met hk w, fun hf hkd => ?_, fun hkd => ?_,
    fun hf hm => ?_, fun hf hm hs => ?_, fun hf hm hs hi => ?_, fun hf hm hs => ?_, fun hf => ?_⟩
  · have acts : ∀ i add ret, exec i s = sigWord w lit add ret s → (ret = false → w.sd = 0) → does i (if add then old + op else op) ret := fun i add ret hi hsd => by
      have e := hi.trans ((h.sig_acts hp hk hq hsa hsb add ((hok ret).2 ⟨hnm, hsd⟩)).trans (congrArg Host.Outcome.next (h.sigDo_eq hp hst hk w add ret _ _)))
      rw [hn] at e
      exact e
    exact ⟨fun hsd => ⟨acts (.sigSet w lit) false false rfl fun _ => hsd, acts (.sigAdd w lit) true false rfl fun _ => hsd⟩,
      acts (.sigSetRet w lit) false true rfl nofun, acts (.sigAddRet w lit) true true rfl nofun⟩
  · have hbad : ¬SigOk k w lit false (sigNo x w lit) := fun hc => hnm (((hok false).1 hc).imp_right fun hsd => hsd rfl)
    exact ⟨h.sig_reserved hk hq hsa hsb false hbad, h.sig_reserved hk hq hsa hsb true hbad⟩
  · exact h.sigw_afresh hp hf hk hq hsa hsb
  · exact h.sigw_reserved hf hk hq hsa hsb
  · exact h.sigw_resumed hk w hw
  · exact h.fenceAcq_acts hp hpred hf hkd
  · exact h.fenceAcq_reserved hp hpred (.inl hkd)
  · exact ⟨(h.fenceRel_acts hp hpred hf).trans (by rw [if_pos hm]), (h.fenceFull_acts hp hpred hf).trans (by rw [if_pos hm])⟩
  · exact (h.fenceRel_acts hp hpred hf).trans (by rw [if_neg hm, h.relFence_narrow hs])
  · intro owed
    have hneed : ∀ q : Store, (if q.precedes sp.mask then scope else 0) ≤ scope := fun q => by split <;> omega
    refine ⟨(h.fenceFull_acts hp hpred hf).trans (by rw [if_neg hm, h.fullFence_narrow hs hi]), owing_fst _ _ _, fun q hq hpre => ?_⟩
    obtain ⟨h1, h2⟩ := owing_narrow hneed hs q hq
    rw [if_pos hpre] at h1
    exact le_antisymm h2 h1
  · have full : ∀ i, exec i s = .next (fullFence s c.gid scope) → performed i := fun i hi => by
      obtain ⟨y, hy⟩ := h.fullFence_performs hs
      exact ⟨_, y, hi, hy⟩
    refine ⟨full _ ((h.fenceFull_acts hp hpred hf).trans (by rw [if_neg hm])), fun h4 => full _ ((h.fenceRel_acts hp hpred hf).trans ?_)⟩
    have h4' : v.imm.toNat / 4 = 4 := h4
    rw [if_neg hm, relFence, if_pos (by simpa using h4')]
  · exact ⟨h.fenceAcq_reserved hp hpred (.inr hf), h.fenceRel_reserved hp hpred hf, h.fenceFull_reserved hp hpred hf⟩

end Sys2Proof.Machine
end

section
/-! PROOFS. The engines of a core: a join window that closes while a store is owed to a member (R165, R263). -/
namespace Sys2Proof.Machine

/-! ### A store that is owed to a member of a window -/

/-- A store of one byte to the scratchpad of team 1 that is owed to the agents of its team (R263). -/
def owedStore : Store :=
  { place := .scr 1 0, va := 0, line := none, bytes := [(0, 7, 0)], ptok := [], red := none, lane := 0, ord := 0, scope := 1, stale := false, view := 0, owed := 1 }

/-- A join window of team 1 that group 2 has joined, and that is due (R165). -/
def dueWindow : JoinWin := ⟨1, 5, 0, 1, 1, 0, [2], 0⟩

/-- Two groups of team 1 on core 0: group 2 has joined the window, and group 3 owes its team a store. -/
def storeOwedToMember : State :=
  { State.reset with
    teams := [(1, { Team.blank with groups := [2, 3], desc := { Desc.blank with scr := 1 } })]
    groups := [(2, { Group.blank with team := 1 }), (3, { Group.blank with team := 1, idx := 1, egress := [owedStore] })]
    cores := [(0, { Core.zero with joins := [dueWindow] })] }

/-- The close performs the store before it delivers (R263): the scratchpad, empty before, holds its byte. -/
theorem joinClose_performs_owedStore : storeOwedToMember.scrWord 1 0 = ⟨0, false⟩ ∧
    (closeWhere storeOwedToMember fun k j => k == 0 && j.mtag == 5 && j.due ≤ storeOwedToMember.time).scrWord 1 0 = ⟨7, false⟩ := by
  decide +kernel

/-! ### The obligation -/

/-- Refutes O48: a join window that closes performs the stores that are owed to its members first (R263), so that more than the cores changes. -/
theorem not_coreEngines : ¬ Obligations.CoreEngines := by
  intro h
  obtain ⟨-, -, -, -, -, hjoin, -⟩ := h storeOwedToMember
  obtain ⟨hbefore, hafter⟩ := joinClose_performs_owedStore
  have hclose := Host.Outcome.next.inj ((hjoin 0 5).2 dueWindow rfl)
  have hkept := (congrArg (fun u : State => u.scrWord 1 0) hclose).trans hbefore
  exact absurd (hafter.symm.trans hkept) (by decide)

end Sys2Proof.Machine
end

section
/-! PROOFS. Placing, feeding and retiring work (R44, R45, R58 to R64, R295, R400 to R403). -/
namespace Sys2Proof.Machine

/-! ### Happenings that are due -/

theorem mem_insertDue_of_mem {l : List Due} {d : Due} (e : Due) (h : d ∈ l) : d ∈ insertDue l e := by
  induction l with
  | nil => cases h
  | cons a l ih =>
    unfold insertDue
    split
    · exact List.mem_cons_of_mem e h
    · rcases List.mem_cons.1 h with rfl | h
      · exact List.mem_cons_self
      · exact List.mem_cons_of_mem a (ih h)

/-- A dispatch pass of each partition of a list falls due, and nothing else changes (R58). -/
theorem passesDue (ps : List Nat) : ∀ s : State, ∃ a, ps.foldl (fun s p => dueNow s (.dispatchPass p)) s = { s with agenda := a } ∧
    (∀ d ∈ s.agenda, d ∈ a) ∧ ∀ p ∈ ps, ⟨s.time, .event (.dispatchPass p)⟩ ∈ a := by
  induction ps with
  | nil => exact fun s => ⟨s.agenda, rfl, fun d hd => hd, fun p hp => nomatch hp⟩
  | cons p ps ih =>
    intro s
    obtain ⟨a, ha, hold, hnew⟩ := ih (dueNow s (.dispatchPass p))
    refine ⟨a, ha, fun d hd => hold d (mem_insertDue_of_mem _ hd), fun q hq => ?_⟩
    rcases List.mem_cons.1 hq with rfl | hq
    · exact hold _ (mem_insertDue _ _)
    · exact hnew q hq

/-! ### Launches and their nodes -/

theorem isSome_find_of_mem {α : Type} {m : List (Nat × α)} {e : Nat × α} (h : e ∈ m) : (Map.find m e.1).isSome = true := by
  induction m with
  | nil => cases h
  | cons a m ih =>
    rw [Map.find_cons]
    split
    · rfl
    · next hne =>
      rcases List.mem_cons.1 h with rfl | h
      · exact absurd rfl hne
      · exact ih h

theorem mem_busyParts {s : State} {p : Nat} : p ∈ s.busyParts ↔ ∃ n, (Map.find s.grids n).isSome = true ∧ s.partOf n = p := by
  simp only [State.busyParts, List.mem_eraseDups, List.mem_map]
  constructor
  · rintro ⟨e, he, hp⟩
    exact ⟨e.1, isSome_find_of_mem he, hp⟩
  · rintro ⟨n, hn, hp⟩
    obtain ⟨r, hr⟩ := Option.isSome_iff_exists.1 hn
    exact ⟨(n, r), mem_of_find hr, hp⟩

/-- The partitions that have a launch depend on the contexts of the launches alone. -/
theorem busyParts_congr {s t : State} (hg : ∀ n, (Map.find t.grids n).map Grid.ctx = (Map.find s.grids n).map Grid.ctx) (hc : t.ctxs = s.ctxs) {p : Nat}
    (h : p ∈ s.busyParts) : p ∈ t.busyParts := by
  obtain ⟨n, hn, hp⟩ := mem_busyParts.1 h
  have part : ∀ u : State, u.partOf n = (((Map.find u.grids n).map Grid.ctx).bind (fun c => (Map.find u.ctxs c).map Ctx.part)).getD 0 := fun u => by
    unfold State.partOf
    cases Map.find u.grids n <;> rfl
  refine mem_busyParts.2 ⟨n, ?_, by rw [part, hg, hc, ← part, hp]⟩
  rw [← Option.isSome_map (f := Grid.ctx), hg, Option.isSome_map, hn]

/-- A change to a node is what the table then holds of it. -/
theorem node_updNode (s : State) (g n : Nat) (f : Node → Node) : (s.updNode g n f).node g n = (s.node g n).map f := by
  unfold State.node State.updNode
  rw [State.find_updGrid, if_pos rfl]
  cases Map.find s.grids g with
  | none => rfl
  | some r =>
    simp only [Option.map_some, Option.bind_some, List.getElem?_map]
    by_cases hn : n < r.nodes.length <;> simp [hn]

theorem node_congr {s t : State} (h : t.grids = s.grids) (g n : Nat) : t.node g n = s.node g n := by simp only [State.node, h]

/-! ### What a packet's completion leaves of the rest -/

/-- Only memory has changed, and what caches, engines of the base, views and scratchpads record: no launch, no record, no context. -/
def AgentOnly (s t : State) : Prop :=
  t = { s with mem := t.mem, poisoned := t.poisoned, loose := t.loose, l2 := t.l2, dir := t.dir, filters := t.filters, l2bad := t.l2bad, stackBad := t.stackBad,
               hitch := t.hitch, spill := t.spill, landau := t.landau, groups := t.groups, cores := t.cores, invals := t.invals, blocked := t.blocked,
               views := t.views, teams := t.teams, hostMem := t.hostMem, hostPoison := t.hostPoison, hostL2 := t.hostL2, draws := t.draws }

theorem AgentOnly.refl (s : State) : AgentOnly s s := rfl
theorem AgentOnly.trans {s t u : State} (a : AgentOnly s t) (b : AgentOnly t u) : AgentOnly s u := by
  unfold AgentOnly at *
  rw [b, a]
/-- What any function of the state gives afterwards. -/
theorem AgentOnly.field {α : Type} {s t : State} (h : AgentOnly s t) (f : State → α) :
    f t = f { s with mem := t.mem, poisoned := t.poisoned, loose := t.loose, l2 := t.l2, dir := t.dir, filters := t.filters, l2bad := t.l2bad, stackBad := t.stackBad,
                     hitch := t.hitch, spill := t.spill, landau := t.landau, groups := t.groups, cores := t.cores, invals := t.invals, blocked := t.blocked,
                     views := t.views, teams := t.teams, hostMem := t.hostMem, hostPoison := t.hostPoison, hostL2 := t.hostL2, draws := t.draws } := by
  unfold AgentOnly at h
  exact congrArg f h
theorem StoreOnly.agentOnly {s t : State} (h : StoreOnly s t) : AgentOnly s t := by
  unfold StoreOnly at h
  unfold AgentOnly
  rw [h]
theorem CacheOnly.agentOnly {s t : State} (h : CacheOnly s t) : AgentOnly s t := h.storeOnly.agentOnly

theorem writeDev_agentOnly {s t : State} {v k : Nat} {bs : List (Nat × Byte)} {token : Option Word} (h : s.writeDev v k bs token = some t) : AgentOnly s t := by
  have hcopy : ∀ (m : List (Nat × View)) (n : Nat), AgentOnly s ({ s with views := m }.dropCopies n) := fun m n =>
    AgentOnly.trans (t := { s with views := m }) rfl (dropCopies_cacheOnly _ _).agentOnly
  unfold State.writeDev at h
  dsimp only at h
  split at h
  · cases h; exact (writeRoot_storeOnly s k bs token).agentOnly
  · split at h
    · cases h; exact .refl s
    · split at h
      · cases h; exact .refl s
      · split at h
        · cases h; exact hcopy _ _
        · split at h
          · cases h
          · cases h; exact hcopy _ _

theorem writeHost_agentOnly (s : State) (ctx k : Nat) (bs : List (Nat × Byte)) (token : Option Word) : AgentOnly s (s.writeHost ctx k bs token) :=
  ((dropErrors_cacheOnly s (hostSec k)).trans (l1Inval_cacheOnly _ (hostSec k) fun _ => true)).agentOnly.trans rfl

theorem writeBack_agentOnly (s : State) (k : Nat) : AgentOnly s (s.writeBack k) := by
  unfold State.writeBack
  split
  · exact .refl s
  · dsimp only
    split
    · exact .refl s
    · split
      · rfl
      · split <;> rfl

theorem updTeam_agentOnly (s : State) (t : Nat) (f : Team → Team) : AgentOnly s (s.updTeam t f) := by
  unfold State.updTeam
  split <;> rfl

theorem performBytes_agentOnly (s : State) (ctx v key : Nat) (p : Place) (bs : List (Nat × Byte)) (token : Option Word) :
    AgentOnly s (performBytes s ctx v key p bs token).1 := by
  unfold performBytes
  split
  · split
    · rename_i h
      exact writeDev_agentOnly h
    · exact .refl s
  · exact writeHost_agentOnly _ _ _ _ _
  · exact updTeam_agentOnly _ _ _
  · split
    · exact .refl s
    · split
      · split
        · exact (writeRoot_storeOnly _ _ _ _).agentOnly
        · exact .refl s
      · exact .refl s

theorem checkedBytes_agentOnly (s : State) (ctx v key : Nat) (p : Place) (bs : List (Nat × Byte)) (token : Option Word) :
    AgentOnly s (checkedBytes s ctx v key p bs token).1 := by
  unfold checkedBytes
  split
  · split
    · exact .refl s
    · exact performBytes_agentOnly _ _ _ _ _ _ _
  · exact performBytes_agentOnly _ _ _ _ _ _ _

theorem agentWrite1_agentOnly (s : State) (ctx va n data key : Nat) (token : Option Word) : AgentOnly s (agentWrite1 s ctx va n data key token).1 := by
  unfold agentWrite1
  split
  · exact .refl s
  · split
    · exact .refl s
    · dsimp only
      split
      · exact (checkedBytes_agentOnly _ _ _ _ _ _ _).trans (writeBack_agentOnly _ _)
      · exact checkedBytes_agentOnly _ _ _ _ _ _ _

theorem agentWrite_agentOnly (s : State) (ctx va n data key : Nat) : AgentOnly s (agentWrite s ctx va n data key).1 := by
  unfold agentWrite
  refine List.foldlRecOn (motive := fun r : State × Bool => AgentOnly s r.1) _ _ (.refl s) fun r hr e _ => ?_
  exact hr.trans (agentWrite1_agentOnly _ _ _ _ _ _ _)

theorem wakeQueue_grids (s : State) (c q : Nat) : (wakeQueue s c q).grids = s.grids := by
  unfold wakeQueue
  dsimp only
  split <;> rfl
theorem wakeQueue_records (s : State) (c q : Nat) : (wakeQueue s c q).records = s.records := by
  unfold wakeQueue
  dsimp only
  split <;> rfl

/-- A completion operation changes its signal, if it names one, and meets the waits on it (R39, R45, R294). -/
theorem completionOp_find {s : State} {p : Pkt} {k : Ctx} (h : Map.find s.ctxs p.ctx = some k) :
    Map.find (completionOp s p).ctxs p.ctx = some { k with signals := doneSignals p k.signals } := by
  unfold completionOp doneSignals
  by_cases hc : p.hdr.csig = 0 ∨ p.hdr.cop = 0
  · rw [if_pos (by simpa using hc), if_pos hc, h]
  · rw [if_neg (by simpa using hc), if_neg hc, signalOp_eq h, Map.find_put_self]
    simp only [beq_iff_eq]

theorem completionOp_grids (s : State) (p : Pkt) : (completionOp s p).grids = s.grids := by
  unfold completionOp
  split
  · rfl
  · exact State.updCtx_grids _ _ _
theorem completionOp_records (s : State) (p : Pkt) : (completionOp s p).records = s.records := by
  unfold completionOp
  split
  · rfl
  · exact State.updCtx_records _ _ _

/-- A queue once one of its packets has completed. -/
def Queue.finished (p : Pkt) (q : Queue) : Queue := { q with started := q.started.filter (fun e => e.pkt.idx != p.idx) }

/-- A packet completes well (R41, R45): behind the write of its record it leaves its queue's started packets, and its completion operation is performed. -/
theorem finishPkt_ok (s : State) (p : Pkt) (xst info : Nat) : ∃ u, AgentOnly s u ∧ finishPkt s p 0 xst info = wakeQueue
    (completionOp (u.updQueue p.ctx p.q (Queue.finished p)) p) p.ctx p.q := by
  unfold finishPkt
  dsimp only
  rw [if_pos (beq_self_eq_true 0)]
  exact ⟨_, AgentOnly.trans (t := { s with draws := s.draws + 1 }) rfl (agentWrite_agentOnly { s with draws := s.draws + 1 } _ _ _ _ _), rfl⟩

theorem finishPkt_ok_grids (s : State) (p : Pkt) (xst info : Nat) : (finishPkt s p 0 xst info).grids = s.grids := by
  obtain ⟨u, hu, e⟩ := finishPkt_ok s p xst info
  rw [e, wakeQueue_grids, completionOp_grids, State.updQueue, State.updCtx_grids, hu.field State.grids]

theorem finishPkt_ok_records (s : State) (p : Pkt) (xst info : Nat) : (finishPkt s p 0 xst info).records = s.records := by
  obtain ⟨u, hu, e⟩ := finishPkt_ok s p xst info
  rw [e, wakeQueue_records, completionOp_records, State.updQueue, State.updCtx_records, hu.field State.records]

theorem finishPkt_completed {s : State} {p : Pkt} {k : Ctx} (h : Map.find s.ctxs p.ctx = some k) (xst info : Nat) :
    Completed s (finishPkt s p 0 xst info) p 0 (doneSignals p k.signals) := by
  obtain ⟨u, hu, e⟩ := finishPkt_ok s p xst info
  have hc : u.ctxs = s.ctxs := hu.field State.ctxs
  have hq : ∀ k' : Ctx, Map.find (u.updQueue p.ctx p.q (Queue.finished p)).ctxs p.ctx = some k' →
      (finishPkt s p 0 xst info).queueOf p.ctx p.q = Queue.finished p (s.queueOf p.ctx p.q) := by
    intro k' h'
    rw [e, queueOf_wakeQueue, ← queueOf_congr hc, State.queueOf, completionOp_find h']
    refine Eq.trans ?_ ((queueOf_updQueue (hc ▸ h) p.q (Queue.finished p) p.ctx p.q).trans (if_pos rfl))
    rw [State.queueOf, h']
    rfl
  obtain ⟨k', h', hs⟩ := find_updQueue (s := u) (hc ▸ h) p.q (Queue.finished p)
  refine ⟨⟨_, by rw [e, wakeQueue_ctxs, completionOp_find h'], by rw [hs]⟩, by rw [hq k' h']; rfl, by rw [hq k' h']; simp [Queue.finished], ?_⟩
  rw [e]
  exact mem_coach_wakeQueue _ _ _

/-! ### Starting a team (R24, R95) -/

/-- A fold that adds one element to a list in every step, and leaves what `key` tells of the rest. -/
theorem foldl_appends {α β γ δ : Type} (f : β × List γ → α → β × List γ) (key : β → δ) (h : ∀ r a, key (f r a).1 = key r.1 ∧ (f r a).2.length = r.2.length + 1)
    (l : List α) : ∀ r, key (l.foldl f r).1 = key r.1 ∧ (l.foldl f r).2.length = r.2.length + l.length := by
  induction l with
  | nil => exact fun r => ⟨rfl, rfl⟩
  | cons a l ih =>
    intro r
    obtain ⟨hk, hl⟩ := ih (f r a)
    obtain ⟨hk1, hl1⟩ := h r a
    exact ⟨hk.trans hk1, by rw [List.foldl_cons, hl, hl1, List.length_cons]; omega⟩

theorem askWake_grids (s : State) (d : Nat) : (askWake s d).grids = s.grids := by
  unfold askWake
  split <;> rfl
theorem askWake_teams (s : State) (d : Nat) : (askWake s d).teams = s.teams := by
  unfold askWake
  split <;> rfl

/-- A team that starts is entered with as many groups as its kernel names, and no launch changes. -/
theorem startTeam_eq (s : State) (t : Team) (start : Nat) (recs : Option (List (BitVec 128))) : ∃ (u : State) (gs : List Nat), u.grids = s.grids ∧ gs.length = t.desc.teamg ∧
    startTeam s t start recs = askWake { u with teams := Map.put u.teams s.ids { t with groups := gs } } (dieOf t.core) := by
  unfold startTeam
  refine ⟨_, _, ?_, ?_, rfl⟩
  · refine (foldl_appends _ State.grids (fun r g => ?_) _ _).1
    exact ⟨rfl, by simp⟩
  · refine (foldl_appends _ State.grids (fun r g => ?_) _ _).2.trans ?_
    · exact ⟨rfl, by simp⟩
    · simp

theorem startTeam_grids (s : State) (t : Team) (start : Nat) (recs : Option (List (BitVec 128))) : (startTeam s t start recs).grids = s.grids := by
  obtain ⟨u, gs, hu, -, e⟩ := startTeam_eq s t start recs
  rw [e, askWake_grids, hu]

theorem startTeam_team (s : State) (t : Team) (start : Nat) (recs : Option (List (BitVec 128))) :
    ∃ gs, gs.length = t.desc.teamg ∧ Map.find (startTeam s t start recs).teams s.ids = some { t with groups := gs } := by
  obtain ⟨u, gs, -, hl, e⟩ := startTeam_eq s t start recs
  exact ⟨gs, hl, by rw [e, askWake_teams, Map.find_put_self]⟩

/-! ### A dispatch pass (R59, R60) -/

theorem mem_put {α : Type} {m : List (Nat × α)} {k : Nat} {a : α} {e : Nat × α} (h : e ∈ Map.put m k a) : e = (k, a) ∨ e ∈ m := by
  induction m with
  | nil => simpa [Map.put] using h
  | cons b m ih =>
    unfold Map.put at h
    split at h
    · exact List.mem_cons.1 h
    · split at h
      · rcases List.mem_cons.1 h with h | h
        · exact .inl h
        · exact .inr (List.mem_cons_of_mem _ h)
      · rcases List.mem_cons.1 h with h | h
        · exact .inr (h ▸ List.mem_cons_self)
        · exact (ih h).imp_right (List.mem_cons_of_mem _)

/-- Launches put in the order of their age are those of the list. -/
theorem mem_byAge {n : Nat} (l : List (Nat × Grid)) : ∀ m : List (Nat × Nat), n ∈ (l.foldl (fun m e => Map.put m e.2.age e.1) m).map (·.2) →
    n ∈ m.map (·.2) ∨ n ∈ l.map (·.1) := by
  induction l with
  | nil => exact fun m h => .inl h
  | cons e l ih =>
    intro m h
    rcases ih _ h with h | h
    · obtain ⟨b, hb, rfl⟩ := List.mem_map.1 h
      rcases mem_put hb with rfl | hb
      · exact .inr List.mem_cons_self
      · exact .inl (List.mem_map_of_mem hb)
    · exact .inr (List.mem_cons_of_mem _ h)

/-- A pass over a partition visits launches of that partition. -/
theorem partOf_of_mem_passOrder {s : State} {pid n : Nat} (h : n ∈ passOrder s pid) : s.partOf n = pid := by
  have hage : ∀ p : Nat × Grid → Bool, n ∈ ((((s.grids.filter (fun e => s.partOf e.1 == pid)).filter p).foldl (fun m e => Map.put m e.2.age e.1) []) : List (Nat × Nat)).map (·.2) →
      s.partOf n = pid := fun p hn => by
    rcases mem_byAge _ [] hn with hn | hn
    · cases hn
    · obtain ⟨e, he, rfl⟩ := List.mem_map.1 hn
      exact beq_iff_eq.1 (List.mem_filter.1 (List.mem_filter.1 he).1).2
  unfold passOrder at h
  rcases List.mem_append.1 h with h | h
  · exact hage _ h
  · obtain ⟨p, -, h⟩ := List.mem_flatMap.1 h
    exact hage _ h

theorem placeTeams_placed {s : State} {n : Nat} {r : Grid} (hr : Map.find s.grids n = some r) (f : Nat) (h : r.teams ≤ r.next) : placeTeams n f s = (s, false) := by
  cases f with
  | zero => rfl
  | succ f => simp only [placeTeams, hr, if_pos h]

/-- The next team of a launch that nothing holds back is placed, and the launch goes on from there (R59, R60). -/
theorem placeTeams_next {s t : State} {n : Nat} {r : Grid} (hr : Map.find s.grids n = some r) (f : Nat) (hw : r.next < r.teams) (hh : held s n r = false)
    (hd : r.desc.whole = false) (hp : placeNext s n r (openCores s n r r.desc) = some t) : placeTeams n (f + 1) s = placeTeams n f (t.updGrid n Grid.placed) := by
  rw [placeTeams]
  simp only [hr, if_neg (Nat.not_le.2 hw), hh, hd, Bool.false_eq_true, if_false, hp]

/-- A pass over a running launch without nodes places its teams; none is refused where all are placed. -/
theorem passGrid_teams {s t : State} {n : Nat} {r : Grid} (hr : Map.find s.grids n = some r) (hd : (s.devOf r.ctx r.dev).state = 0) (hn : r.nodes = [])
    (hp : placeTeams n (r.teams + 1) s = (t, false)) : passGrid s n = t := by
  simp [passGrid, hr, hd, hp, hn]

theorem Grid.placed_next (r : Grid) : r.placed.next = r.next ∧ r.placed.teams = r.teams := by
  unfold Grid.placed
  split <;> exact ⟨rfl, rfl⟩

/-- The last team of an unclustered launch is placed on the best core (R59). -/
theorem dispatchPass_places {s : State} {pid n v core pipe : Nat} {r : Grid} (ho : passOrder s pid = [n]) (hp : promotedWaits s pid = false)
    (hr : Map.find s.grids n = some r) (hd : (s.devOf r.ctx r.dev).state = 0) (hn : r.nodes = []) (hw : r.next < r.teams) (hc : r.desc.clu = 0)
    (hg : r.desc.gbar = false) (ht : r.teams = r.next + 1) (hb : bestCore s n r.ctx r.desc (openCores s n r r.desc) = some (v, core, pipe)) :
    exec (.dispatchPass pid) s = .next (((startTeam s (launchTeam n r r.next v core 0 none) pipe none).updGrid n fun r => { r with next := r.next + 1 }).updGrid n Grid.placed) := by
  have hpart : s.partOf n = pid := partOf_of_mem_passOrder (by rw [ho]; exact List.mem_singleton_self n)
  have hheld : held s n r = false := by rw [held, hpart, hp, Bool.and_false]
  have hplace : placeNext s n r (openCores s n r r.desc) =
      some ((startTeam s (launchTeam n r r.next v core 0 none) pipe none).updGrid n fun r => { r with next := r.next + 1 }) := by
    simp only [placeNext, hc, beq_self_eq_true, if_true, placeTeam, hb, Option.map_some]
  refine congrArg Host.Outcome.next (?_ : passOver s pid = _)
  rw [passOver, ho]
  refine passGrid_teams hr hd hn ?_
  rw [placeTeams_next hr _ hw hheld (by simp [Desc.whole, hc, hg]) hplace]
  refine placeTeams_placed (r := { r with next := r.next + 1 }.placed) ?_ _ ?_
  · simp [startTeam_grids, hr]
  · obtain ⟨h1, h2⟩ := Grid.placed_next { r with next := r.next + 1 }
    rw [h1, h2, ht]

/-! ### A node's timer (R63) -/

/-- A timer whose time has come lapses, whether a pass is due for it or not. -/
theorem timerLapse_due {s : State} {g n t : Nat} {d : Node} (hd : s.node g n = some d) (ht : d.timerAt = some t) (h : t ≤ s.time) :
    (timerLapse s g n).node g n = some { d with timerAt := none, lapsed := true } ∧ (timerLapse s g n).groups = s.groups := by
  have hnode : (s.updNode g n fun _ => { d with timerAt := none, lapsed := true }).node g n = some { d with timerAt := none, lapsed := true } := by
    rw [node_updNode, hd, Option.map_some]
  unfold timerLapse
  simp only [hd, ht, if_neg (Nat.not_lt.2 h)]
  split <;> exact ⟨hnode, State.updGrid_groups _ _ _⟩

theorem timerLapse_early {s : State} {g n t : Nat} {d : Node} (hd : s.node g n = some d) (ht : d.timerAt = some t) (h : s.time < t) : timerLapse s g n = s := by
  simp [timerLapse, hd, ht, h]

/-! ### Feeds (R40, R44, R295) -/

/-- A node with one more record in its bin. -/
def Node.holding (d : Node) (b : BitVec 128) : Node := { d with bin := d.bin ++ [b] }

/-- A record enters the bin of a resident node on which no request waits (R295). -/
theorem enterBin_resident {s : State} {g n : Nat} {d : Node} (hd : s.node g n = some d) (hk : d.kind = 1) (hw : d.waiting = []) (b : BitVec 128) :
    enterBin s g n b = s.updNode g n fun _ => d.holding b := by
  have hserve : ∀ f, serveNode (s.updNode g n fun _ => d.holding b) g n f = s.updNode g n fun _ => d.holding b := fun f => by
    cases f with
    | zero => rfl
    | succ f => simp [serveNode, node_updNode, hd, Node.holding, hw]
  unfold enterBin
  rw [hd]
  dsimp only
  rw [if_neg (by simp [hk]), if_neg (by simp [hk])]
  exact hserve _

/-- The state in which a feed has read a record and the node holds it. -/
def State.fed (s : State) (g n : Nat) (d : Node) (b : BitVec 128) : State := ({ s with draws := s.draws + 1 }).updNode g n fun _ => d.holding b

theorem fed_node {s : State} {g n : Nat} {d : Node} (hd : s.node g n = some d) (b : BitVec 128) : (s.fed g n d b).node g n = some (d.holding b) :=
  (node_updNode _ g n _).trans (congrArg (Option.map fun _ => d.holding b) hd)

/-- A feed of one record, which its node has room for, is done with it (R295). -/
theorem feedRecords_one {s : State} {c g n raddr v : Nat} {d : Node} (hd : s.node g n = some d) (hk : d.kind = 1) (hw : d.waiting = []) (hr : d.bin.length < d.cap)
    (ha : raddr < 2 ^ 64) (hv : agentRead { s with draws := s.draws + 1 } c raddr 16 (freeKey (s.draws + 1) 28 0) = .val v) :
    feedRecords c g n raddr 1 2 s 0 = (s.fed g n d (BitVec.ofNat 128 v), 1, false) := by
  have hroom : ((s.node g n).map (·.room)).getD false = true := by simp [hd, Node.room, hr]
  have hd' : ({ s with draws := s.draws + 1 } : State).node g n = some d := hd
  rw [feedRecords]
  simp only [hroom, Nat.mul_zero, Nat.add_zero, Nat.mod_eq_of_lt ha, hv, enterBin_resident hd' hk hw]
  rfl

theorem feedStep_one {s : State} {p : Pkt} {ntab raddr : BitVec 64} {g n v : Nat} {last : Bool} {d : Node} (ht : liveTable s p.ctx ntab.toNat = some g)
    (hd : s.node g n = some d) (he : d.ended = false) (hk : d.kind = 1) (hw : d.waiting = []) (hr : d.bin.length < d.cap)
    (hv : agentRead { s with draws := s.draws + 1 } p.ctx raddr.toNat 16 (freeKey (s.draws + 1) 28 0) = .val v) :
    (feedStep s p ntab raddr 1 n last 0).node g n = some { d with bin := d.bin ++ [BitVec.ofNat 128 v], produced := d.produced + if last then 1 else 0 } := by
  have hfed := fed_node hd (BitVec.ofNat 128 v)
  have hstep : feedStep s p ntab raddr 1 n last 0 =
      finishPkt (if last then produce (s.fed g n d (BitVec.ofNat 128 v)) g n else s.fed g n d (BitVec.ofNat 128 v)) p 0 0 1 := by
    simp only [feedStep, ht, hd, Option.map_some, Option.getD_some, he, feedRecords_one hd hk hw hr raddr.isLt hv]
    rfl
  rw [hstep, node_congr (finishPkt_ok_grids _ _ _ _)]
  cases last with
  | true => rw [if_pos rfl, produce, node_updNode, hfed]; rfl
  | false => exact hfed

/-- A bin with room admits the record that a started feed holds for it (R44, R295). -/
theorem binAdmit_feed {s : State} {g n q : Nat} {r : Grid} {k : Ctx} {y : Queue} {e : Started} {ntab raddr : BitVec 64} {last : Bool} (hr : Map.find s.grids g = some r)
    (hk : Map.find s.ctxs r.ctx = some k) (hq : k.queues = [(q, y)]) (hy : y.started = [e]) (he : e.body = .feed ntab raddr 1 n last 0)
    (ht : liveTable s r.ctx ntab.toNat = some g) (hg : ∀ e ∈ s.groups, gridNo s e.2 ≠ g) : binAdmit s g n = feedStep s e.pkt ntab raddr 1 n last 0 := by
  have hnone : s.groups.filter (fun e => gridNo s e.2 == g) = [] := List.filter_eq_nil_iff.2 fun e h => by simpa using hg e h
  simp only [binAdmit, hnone, List.map_nil, List.foldl_nil, admitFeeds, hr, hk, hq, hy, Option.map_some, Option.getD_some, List.flatMap_cons, List.flatMap_nil,
    List.append_nil, List.foldl_cons, he, ht, beq_self_eq_true, Bool.and_self, if_true]

/-! ### The end of a node (R295) -/

/-- A node that is over ends, and every request that waits on it is answered. -/
theorem endToken_over {s : State} {g n : Nat} {d : Node} (hd : s.node g n = some d) (he : d.ended = false) (ho : nodeOver s g n d = true) :
    (endToken s g n).node g n = some { d with ended := true, waiting := [] } ∧ (endToken s g n).mem = s.mem := by
  have hanswers : ∀ (l : List (Nat × Nat)) (t : State), let u := l.foldl (fun s w => answer s w.1 w.2 ([], 1, d.handed)) t
      u.grids = t.grids ∧ u.mem = t.mem := fun l t =>
    List.foldlRecOn (motive := fun u : State => u.grids = t.grids ∧ u.mem = t.mem) l _ ⟨rfl, rfl⟩ fun u hu w _ =>
      ⟨(State.updGrp_grids _ _ _).trans hu.1, (State.updGrp_mem _ _ _).trans hu.2⟩
  simp only [endToken, hd, he, ho, Bool.not_true, Bool.or_self, Bool.false_eq_true, if_false]
  obtain ⟨hg, hm⟩ := hanswers d.waiting (s.updNode g n fun d => { d with ended := true, waiting := [] })
  refine ⟨?_, hm.trans (State.updGrid_mem _ _ _)⟩
  rw [node_congr hg, node_updNode, hd]
  rfl

theorem endToken_goesOn {s : State} {g n : Nat} {d : Node} (hd : s.node g n = some d) (ho : nodeOver s g n d = false) : endToken s g n = s := by
  simp [endToken, hd, ho]

/-! ### The end of a team (R400) -/

/-- Teams, groups, launches, device memory and the clock stand as they were. -/
structure WorkKept (s t : State) : Prop where
  time : t.time = s.time
  teams : t.teams = s.teams
  groups : t.groups = s.groups
  grids : t.grids = s.grids
  mem : t.mem = s.mem

theorem WorkKept.refl (s : State) : WorkKept s s := ⟨rfl, rfl, rfl, rfl, rfl⟩
theorem WorkKept.trans {s t u : State} (a : WorkKept s t) (b : WorkKept t u) : WorkKept s u :=
  ⟨b.time.trans a.time, b.teams.trans a.teams, b.groups.trans a.groups, b.grids.trans a.grids, b.mem.trans a.mem⟩
theorem WorkKept.fold {α : Type} (f : State → α → State) (h : ∀ s x, WorkKept s (f s x)) (l : List α) (s : State) : WorkKept s (l.foldl f s) :=
  List.foldlRecOn l f (.refl s) fun _ hu x _ => hu.trans (h _ x)
theorem WorkKept.ite {s t u : State} {p : Prop} [Decidable p] (a : WorkKept s t) (b : WorkKept s u) : WorkKept s (if p then t else u) := by
  split
  · exact a
  · exact b

theorem sweepLost_workKept (s : State) : WorkKept s (sweepLost s) := by
  unfold sweepLost
  refine WorkKept.trans ?_ (.fold State.dropView (fun _ _ => ⟨rfl, rfl, rfl, rfl, rfl⟩) _ _)
  exact ⟨rfl, rfl, rfl, rfl, rfl⟩
theorem sweepViews_workKept (s : State) : WorkKept s (sweepViews s) := by
  unfold sweepViews
  apply WorkKept.fold
  exact fun s e => .ite ⟨rfl, rfl, rfl, rfl, rfl⟩ (.refl s)
theorem writeBack_workKept (s : State) (k : Nat) : WorkKept s (s.writeBack k) := by
  unfold State.writeBack
  split
  · exact .refl s
  · dsimp only
    split
    · exact .refl s
    · split
      · exact ⟨rfl, rfl, rfl, rfl, rfl⟩
      · split <;> exact ⟨rfl, rfl, rfl, rfl, rfl⟩
theorem dropCtx_workKept (s : State) (c : Nat) : WorkKept s (dropCtx s c) :=
  .ite ((WorkKept.fold _ (fun s _ => writeBack_workKept s _) _ s).trans ⟨rfl, rfl, rfl, rfl, rfl⟩) (.refl s)

/-- What has to hold of a team that retires (R400). -/
theorem teamOver_iff (s : State) (x : Team) : teamOver s x = true ↔ x.resident = true ∧ x.lost = false ∧
    ∀ g ∈ x.groups, (s.grp g).ended = true ∧ (s.grp g).egress = [] ∧ ∀ p ∈ (s.grp g).paths, ∀ o ∈ p.2.ops, o.done = true := by
  simp [teamOver, and_assoc]

/-- The state in which a team and its groups are gone. -/
def State.withoutTeam (s : State) (t : Nat) : State := { s with teams := Map.del s.teams t, groups := s.groups.filter (fun e => e.2.team != t) }

/-- What its launch keeps of a team that retires: the arrival phases of its groups, unless it is a node's (R285). -/
def State.goneOf (s : State) (x : Team) : List (Nat × List (Nat × Nat)) :=
  if x.node.isSome then [] else x.groups.map (fun g => (16 * x.vteam + (s.grp g).idx, (s.grp g).ap))

/-- The state in which a team and its groups are gone and its core and its launch have taken note of it. -/
def State.retiring (s : State) (t : Nat) (x : Team) : State :=
  ((s.withoutTeam t).updCore x.core fun c => if ((s.withoutTeam t).teamsOn x.core).isEmpty then { c with l := none, l1 := [] } else c).updGrid x.grid fun r =>
    { r with retired := r.retired + 1, gone := r.gone ++ s.goneOf x }

theorem State.retiring_parts (s : State) (t : Nat) (x : Team) {r : Grid} (hr : Map.find s.grids x.grid = some r) :
    (s.retiring t x).teams = Map.del s.teams t ∧ (s.retiring t x).groups = s.groups.filter (fun e => e.2.team != t) ∧
      Map.find (s.retiring t x).grids x.grid = some { r with retired := r.retired + 1, gone := r.gone ++ s.goneOf x } ∧
      (s.retiring t x).mem = s.mem ∧ (s.retiring t x).time = s.time := by
  have hr' : Map.find (s.withoutTeam t).grids x.grid = some r := hr
  refine ⟨State.updGrid_teams _ _ _, State.updGrid_groups _ _ _, ?_, State.updGrid_mem _ _ _, State.updGrid_time _ _ _⟩
  rw [State.retiring, State.find_updGrid, if_pos rfl, State.updCore_grids, hr', Option.map_some]

/-- A team that is over retires, and a dispatch pass over its partition is due (R58, R400). -/
theorem retireTeam_over {s : State} {t : Nat} {x : Team} (hx : Map.find s.teams t = some x) (ho : teamOver s x = true) :
    ∃ u, WorkKept (s.retiring t x) u ∧ retireTeam s t = dueNow u (.dispatchPass (s.partOfCtx x.ctx)) := by
  have htuple : ∀ v : State, WorkKept v (match x.tuple with
      | some k => if v.teams.any (fun e => e.2.tuple == some k) then v else { v with tuples := Map.del v.tuples k }
      | none => v) := fun v => by
    split
    · exact .ite (.refl v) ⟨rfl, rfl, rfl, rfl, rfl⟩
    · exact .refl v
  unfold retireTeam
  simp only [hx, ho, Bool.not_true, Bool.false_eq_true, if_false]
  exact ⟨_, (htuple (s.retiring t x)).trans ((sweepLost_workKept _).trans ((sweepViews_workKept _).trans (dropCtx_workKept _ _))), rfl⟩

theorem retireTeam_goesOn {s : State} {t : Nat} {x : Team} (hx : Map.find s.teams t = some x) (ho : teamOver s x = false) : retireTeam s t = s := by
  simp [retireTeam, hx, ho]

/-! ### The end of a launch (R45, R401 to R403) -/

/-- What has to hold of a launch that retires (R401). -/
theorem gridOver_iff (s : State) (n : Nat) (r : Grid) : gridOver s n r = true ↔ r.teams ≤ r.next ∧ (∀ e ∈ s.teams, e.2.grid ≠ n) ∧ ∀ d ∈ r.nodes, d.ended = true := by
  simp [gridOver, and_assoc]

theorem retireGrid_over {s : State} {n : Nat} {r : Grid} (hr : Map.find s.grids n = some r) (ho : gridOver s n r = true) :
    retireGrid s n = finishPkt (keepRecord { s with grids := Map.del s.grids n } r.pkt (retireBits r (xstatOf r.cond))) r.pkt 0 (xstatOf r.cond) r.retired := by
  simp [retireGrid, hr, ho]

theorem retireGrid_goesOn {s : State} {n : Nat} {r : Grid} (hr : Map.find s.grids n = some r) (ho : gridOver s n r = false) : retireGrid s n = s := by
  simp [retireGrid, hr, ho]

/-- The newest record of a queue is the one just kept (R403). -/
theorem keepRecord_head {s : State} {p : Pkt} {k : Ctx} (h : Map.find s.ctxs p.ctx = some k) (b : Nat) :
    (Map.get [] (keepRecord s p b).records (64 * k.fn + p.q)).head? = some ⟨BitVec.ofNat 32 p.idx, BitVec.ofNat 256 b⟩ := by
  simp [keepRecord, Map.modify, Map.get, State.recordKey, h, pktNo]

/-! ### The happenings themselves -/

/-- A sample that carries a share enters it, and a pass over every partition is due (R58, R64). -/
theorem trafficSample_carried {s : State} {n : Nat} {r : Grid} (hr : Map.find s.grids n = some r) (die share : Nat) :
    ∃ u, exec (.remoteTrafficSample [(n, die, share)]) s = .next u ∧ Map.find u.grids n = some { r with shares := Map.set 0 r.shares die share } ∧
      u.groups = s.groups ∧ ∀ p ∈ s.busyParts, ⟨s.time, .event (.dispatchPass p)⟩ ∈ u.agenda := by
  generalize hv : s.updGrid n (fun r => { r with shares := Map.set 0 r.shares die share }) = v
  obtain ⟨a, ha, -, hdue⟩ := passesDue v.busyParts v
  have hgrids : ∀ m, Map.find v.grids m = if m = n then some { r with shares := Map.set 0 r.shares die share } else Map.find s.grids m := fun m => by
    rw [← hv, State.find_updGrid, hr, Option.map_some]
  refine ⟨{ v with agenda := a }, congrArg Host.Outcome.next (hv ▸ ha), by rw [hgrids, if_pos rfl], by rw [← hv, State.updGrid_groups], fun p hp => ?_⟩
  rw [show s.time = v.time by rw [← hv, State.updGrid_time]]
  refine hdue p (busyParts_congr (fun m => ?_) (by rw [← hv, State.updGrid_ctxs]) hp)
  rw [hgrids]
  split
  · next e => rw [e, hr]; rfl
  · rfl

/-- A sample without shares takes those of the counters (R64). -/
theorem trafficSample_counters (s : State) : ∃ u, exec (.remoteTrafficSample []) s = .next u ∧ u.traffic = [] ∧ u.samples = (s.traffic :: s.samples).take 8 ∧
    u.grids = s.grids.map (fun e => (e.1, e.2.sampled ((s.traffic :: s.samples).take 8) e.1)) ∧ u.groups = s.groups ∧
      ∀ p ∈ s.busyParts, ⟨s.time, .event (.dispatchPass p)⟩ ∈ u.agenda := by
  obtain ⟨a, ha, -, hdue⟩ := passesDue (sample s).busyParts (sample s)
  refine ⟨_, congrArg Host.Outcome.next ha, rfl, rfl, rfl, rfl, fun p hp => hdue p (busyParts_congr (s := s) (t := sample s) (fun m => ?_) rfl hp)⟩
  rw [show (sample s).grids = s.grids.map (fun e => (e.1, e.2.sampled ((s.traffic :: s.samples).take 8) e.1)) from rfl, find_mapValues, Option.map_map]
  rfl

/-! ### The obligation -/

/-- Settles O51: a pass places the last team on the best core, a sample and a timer take effect, a bin admits, a node ends, a team and a launch retire. -/
theorem dispatchAndRetirement : Obligations.DispatchAndRetirement := by
  intro s
  refine ⟨fun pid n r v core pipe ho hp hr hd hn hw hc hg ht hb => ?_, fun n die share r hr => trafficSample_carried hr die share, trafficSample_counters s,
    fun g n d t hd ht => ⟨fun hdue => ⟨_, rfl, timerLapse_due hd ht hdue⟩, fun hearly => congrArg Host.Outcome.next (timerLapse_early hd ht hearly)⟩,
    fun g n d r k q y p ntab raddr last v hd hr hk hq hy hp ht hkind he hw hroom hg hv =>
      ⟨_, congrArg Host.Outcome.next (binAdmit_feed hr hk hq hy rfl ht hg), feedStep_one (hp ▸ ht) hd he hkind hw hroom (hp ▸ hv)⟩,
    fun g n d hd he => ⟨fun ho => ⟨_, rfl, endToken_over hd he ho⟩, fun ho => congrArg Host.Outcome.next (endToken_goesOn hd ho)⟩,
    fun t x r hx hr => ⟨fun ho => ?_, fun ho => ?_⟩, fun n r k hr hk => ⟨fun ho => ?_, fun ho => ?_⟩⟩
  · obtain ⟨gs, hl, hteam⟩ := startTeam_team s (launchTeam n r r.next v core 0 none) pipe none
    refine ⟨_, { launchTeam n r r.next v core 0 none with groups := gs }, dispatchPass_places ho hp hr hd hn hw hc hg ht hb, ?_, rfl, rfl, rfl, rfl, rfl, rfl, hl,
      { r with next := r.next + 1 }.placed, ?_, (Grid.placed_next _).1⟩
    · rw [State.updGrid_teams, State.updGrid_teams, hteam]
    · simp [startTeam_grids, hr]
  · obtain ⟨u, hu, e⟩ := retireTeam_over hx ((teamOver_iff s x).2 ho)
    obtain ⟨hteams, hgroups, hgrids, hmem, htime⟩ := s.retiring_parts t x hr
    refine ⟨_, congrArg Host.Outcome.next e, ?_, fun e => ?_, ?_, ?_, hu.mem.trans hmem⟩
    · exact (congrArg (Map.find · t) (hu.teams.trans hteams)).trans (Map.find_del_self _ _)
    · rw [show (dueNow u _).groups = s.groups.filter (fun e => e.2.team != t) from hu.groups.trans hgroups]
      simp
    · exact (congrArg (Map.find · x.grid) hu.grids).trans hgrids
    · rw [← htime, ← hu.time]
      exact mem_insertDue _ _
  · exact congrArg Host.Outcome.next (retireTeam_goesOn hx (Bool.eq_false_iff.2 fun h => ho ((teamOver_iff s x).1 h)))
  · obtain ⟨signals, started, stopped, event⟩ :=
      finishPkt_completed (s := keepRecord { s with grids := Map.del s.grids n } r.pkt (retireBits r (xstatOf r.cond))) hk (xstatOf r.cond) r.retired
    refine ⟨_, congrArg Host.Outcome.next (retireGrid_over hr ((gridOver_iff s n r).2 ho)), ?_, ⟨signals, started, stopped, event⟩, ?_⟩
    · rw [finishPkt_ok_grids]
      exact Map.find_del_self _ _
    · rw [finishPkt_ok_records]
      exact keepRecord_head (s := { s with grids := Map.del s.grids n }) hk _
  · exact congrArg Host.Outcome.next (retireGrid_goesOn hr (Bool.eq_false_iff.2 fun h => ho ((gridOver_iff s n r).1 h)))

end Sys2Proof.Machine
end
section
/-! PROOFS. Encodings (R69 to R88): what is encoded decodes, what decodes is encoded, and the words of a checked clause decode. -/
namespace Sys2Proof.Laws.RoundTrip

/-- Every instruction that has a code is read back from it: the lemmas of the constructors, in the constructors' order. -/
theorem decode_encode (i : Instr) : Statement i :=
  i.rec
  vadd vsub vmul vmulh vmad vand vor vxor vshl vshr vsar vmin vmax vabs vpopc vclz vbrev vbfe vbfi vcmp vsel vmov vldi vadd64 vmad64 fadd fsub fmul
    ffma fmin fmax fcmp fdiv fsqrt frcp frsq fexp2 flog2 fsin fcos dadd dmul dfma hadd2 hmul2 hfma2 fcvt fpack funpk vshfl vvoteAll vvoteAny vvoteUni
    vvoteBallot vvoteCount vvoteLaneid vred vscan pand por pxor pnot pmov sadd ssub smul smin smax smov sminU smaxU sand sor sxor sshl sshr ssar smad
    sldi scmp ssel sread swrite fmtset fmtsetLit fmtget nop bra bru brx call callx ret join exit yieldw role region commitRel commitRpl commitFwd
    commit pchk pchkP pchkS pchkReg pchkOrph pinfo pset psetS pclr pclrS pclrTab mma mmai mmab mmas aclr ald ast acvt alds asts ld st ldu ldc atom
    red pref xlate xinfo cpyG2s cpyS2g cpyS2p gather scatter wait cnt xfence getwork getworkNw spawn stmc redmc tdesc texp tback treuse tnode
    tnodeLink barArv barWait barSync barq fenceAcq fenceRel fenceFull sigSet sigAdd sigSetRet sigAddRet sigw fork choose viewId viewRival viewDepth
    viewParent viewLog viewSect viewDec trap bkpt rte sreadp swritep haltg launch nodeFeed signalSet signalWait signalWaitTimeout copy preemptSave
    preemptRestore nopPacket coachhouseEvent replayServiceAnswer faultLimitExpiry deathNotice dispatchPass remoteTrafficSample binTimerLapse binAdmit
    nodeEndToken leaveGrant matrixLeaseLapse clauseFetch ageWrap splitRotation variableResultWrite matrixQueueExecute joinWindowClose asyncOpComplete
    invalidationAck hitchLineReturn linkSleep wakeBeacon wakeHoldTimeout dieDeclaredDead dieFenceCommand dieTestComplete coldStart warmStart
    barrierWatchdog contextWatchdog abandonGraceExpiry drainLimit drainComplete saveAreaWriteout restorePlacement teamRetire gridRetire landauReclaim
    remoteInboundRequest multicastCopyArrival reductionInstanceComplete multicastAckReturn fabricResend fabricPortSilence waitDeadline
    barWaitDeadline sigwDeadline storeCompletion copyCompletion contextCreate partitionCreate partitionRewrite partitionDelete quotaWrite
    clusterMapRead peerNumberRead reachMaskSet groupMaskSet inboundWindowWrite retirementRecordRead perfCounterRead viewTableRead abandonRequest
    peerStateWrite multicastTableInstall recoverySlotWrite packageStop hostApertureAccess doorbell qctlResume qctlReset qcfgWrite registerWrite
    signalWindowAcquire signalWindowWrite pciePortDown

end Sys2Proof.Laws.RoundTrip

namespace Sys2Proof

/-- A program form: its selector is its own, and it has an encoding. -/
def Instr.Coded (i : Instr) : Prop := i.wf = true ∧ (encode i).isSome = true

/-! ### What a word and its extension word come to (R77) -/

section
variable {x : Option Word} {P : Instr → Prop}

theorem noX_all {i : Instr} : (∀ j, noX x i = some j → P j) ↔ (x = none → P i) := by
  cases x <;> simp [noX]

theorem optX_all {f : Option XMod → Instr} : (∀ j, optX x f = some j → P j) ↔ P (f (x.map XMod.of)) := by
  simp [optX]

theorem optL_all {f : Option Word → Instr} : (∀ j, optL x f = some j → P j) ↔ P (f x) := by
  simp [optL]

theorem mustX_all {α : Type} {of : Word → α} {f : α → Instr} : (∀ j, mustX of x f = some j → P j) ↔ ∀ v, x = some v → P (f (of v)) := by
  cases x <;> simp [mustX]

end

/-! ### The selector of a word is what names its form (R84 to R86) -/

theorem field_toNat (w : Word) (lo n : Nat) : (field w lo n).toNat = w.toNat / 2 ^ lo % 2 ^ n := by
  rw [field, BitVec.extractLsb'_toNat, Nat.shiftRight_eq_div_pow]

@[simp] theorem WB.func_of (w : Word) : (WB.of w).func = field w 0 7 := rfl
@[simp] theorem WS.sub_of (w : Word) : (WS.of w).sub = field w 0 3 := rfl
@[simp] theorem sub2_of (w : Word) : (field w 0 3).toNat % 4 = (field w 0 2).toNat := by simp only [field_toNat]; omega
@[simp] theorem sub1_of (w : Word) : (field w 0 3).toNat % 2 = (field w 0 1).toNat := by simp only [field_toNat]; omega
@[simp] theorem WC.imm2_of (w : Word) : (WC.of w).imm.toNat % 4 = (field w 0 2).toNat := by simp only [WC.of, field_toNat]; omega
@[simp] theorem WA.dhi_of (w : Word) : (WA.of w).d.toNat / 8 = (field w 17 4).toNat := by simp only [WA.of, field_toNat]; omega
@[simp] theorem WA.bhi_of (w : Word) : (WA.of w).b.toNat / 64 = (field w 6 1).toNat := by simp only [WA.of, field_toNat]; omega

/-- Every line of the decoder gives a program form whose selector the word holds; the form with the lowest selector takes what no line names (log entry 9). -/
theorem decodeWord_coded (c : Cls) (w : Word) (x : Option Word) : ∀ i, decodeWord c w x = some i → i.Coded := by
  unfold decodeWord decodeAlu decodeMatrix decodeMemory decodeAsync decodeSync decodeControl decodeSystem
  repeat' split
  all_goals simp only [noX_all, optX_all, optL_all, mustX_all, reduceCtorEq, false_implies, implies_true]
  all_goals unfold Instr.Coded Instr.wf encode
  all_goals simp_all
  -- a selector that is none of the values named above it is the one that is left
  all_goals omega

/-! ### Headers (R69) -/

section
variable (n : BitVec 4) (c : Cls) (xm : BitVec 15)

theorem headerWord_fields : field (headerWord n c xm) 28 4 = n ∧ field (headerWord n c xm) 25 3 = c.code ∧ field (headerWord n c xm) 17 7 = 0 ∧
    field (headerWord n c xm) 0 15 = xm := by
  simp only [headerWord, field]
  refine ⟨?_, ?_, ?_, ?_⟩ <;>
  · apply BitVec.eq_of_getLsbD_eq
    intro i hi
    simp only [BitVec.getLsbD_extractLsb', BitVec.getLsbD_append, hi, decide_true, Bool.true_and]
    grind

theorem headerWord_flags : (headerWord n c xm).getLsbD 24 = false ∧ (headerWord n c xm).getLsbD 16 = false ∧ (headerWord n c xm).getLsbD 15 = false := by
  simp only [headerWord, BitVec.getLsbD_append]; simp

theorem clsOf_code : clsOf c.code.toNat = some c := by cases c <;> rfl

theorem header_headerWord : Header.of (headerWord n c xm) = ⟨n.toNat, some c, false, 0, false, false, xm⟩ := by
  obtain ⟨hn, hc, hp, hx⟩ := headerWord_fields n c xm
  obtain ⟨hm, hy, hl⟩ := headerWord_flags n c xm
  rw [Header.of, hn, hc, hp, hx, hm, hy, hl, clsOf_code]

end

/-! ### Clauses that pass the checks (R87) -/

/-- Whether an opcode takes what follows its word (R77): an extension word, or none. -/
def XForm.takes (f : XForm) (w : Word) (x : Option Word) : Bool :=
  match f with
  | .never => x.isNone
  | .opt => true
  | .must => x.isSome
  | .whenSub1 => if (field w 0 3).toNat = 1 then x.isSome else x.isNone

section
variable {c : Cls} {w : Word} {x : Option Word} {m : Fmt} {f : XForm}

/-- Reasons 10 and 11 of R87 refuse what an opcode does not take. -/
theorem takes_of_checked (h : opInfo c (field w 24 6).toNat = some (m, f)) (h10 : xMissing c w x = false) (h11 : xUnwanted c w x = false) :
    f.takes w x = true := by
  simp only [xMissing, xUnwanted, h] at h10 h11
  cases f <;> cases x <;> simp_all [XForm.takes]

/-- An opcode of the maps, with what it takes, decodes: the decoder has a line for each line of a map. -/
theorem decodeWord_isSome (h : opInfo c (field w 24 6).toNat = some (m, f)) (hx : f.takes w x = true) : (decodeWord c w x).isSome = true := by
  generalize hop : (field w 24 6).toNat = op at h
  unfold opInfo mapAlu mapMatrix mapMemory mapAsync mapSync mapControl mapSystem at h
  repeat' split at h
  all_goals cases h
  all_goals simp only [decodeWord, decodeAlu, decodeMatrix, decodeMemory, decodeAsync, decodeSync, decodeControl, decodeSystem, hop]
  all_goals simp only [XForm.takes] at hx
  all_goals repeat' split
  all_goals cases x <;> simp_all [noX, optX, optL, mustX]

end

/-- A check that refuses nothing, before the checks behind it. -/
theorem refuse_eq_none {p : Prop} [Decidable p] {r : EncReason} {o : Option EncReason} : (if p then some r else o) = none ↔ ¬p ∧ o = none := by
  split <;> simp [*]

/-- What the checks of a clause say of each of its words. -/
theorem checked_words {h : Header} {words : List Word} {c : Cls} (hc : h.cls = some c) (hk : checkClause h words = none) :
    ∀ e ∈ wordsOf words h.xmask, (opInfo c (field e.2.1 24 6).toNat).isSome = true ∧ xMissing c e.2.1 e.2.2 = false ∧ xUnwanted c e.2.1 e.2.2 = false := by
  simp only [checkClause, hc, refuse_eq_none, List.any_eq_true, not_exists, not_and, Bool.not_eq_true] at hk
  obtain ⟨-, -, -, -, h8, -, h10, h11, -⟩ := hk
  exact fun e he => ⟨by simpa [opReserved] using h8 e he, h10 e he, h11 e he⟩

/-! ### The obligations -/

/-- Settles O55: the round trip of each constructor, what the decoder's lines give, and the fields of a header. -/
theorem encodeDecode : Obligations.EncodeDecode :=
  ⟨fun i => Laws.RoundTrip.decode_encode i, fun c w x i h => decodeWord_coded c w x i h, header_headerWord⟩

/-- Settles O54: each word decodes by evaluation. -/
theorem decodesSpecWords : Obligations.DecodesSpecWords := ⟨rfl, rfl, rfl, rfl, rfl, rfl, rfl, rfl⟩

/-- Settles O56: a checked word has a line in its class's map and what that line takes behind it, so the decoder has a line for it. -/
theorem checkedClausesDecode : Obligations.CheckedClausesDecode := by
  refine ⟨fun h words c hc hk e he => ?_, fun h words h0 => ?_, fun h words h0 hc => ?_, fun h words c h0 hc hx e he ho => ?_⟩
  · obtain ⟨h8, h10, h11⟩ := checked_words hc hk e he
    obtain ⟨⟨m, f⟩, hm⟩ := Option.isSome_iff_exists.1 h8
    obtain ⟨i, hi⟩ := Option.isSome_iff_exists.1 (decodeWord_isSome hm (takes_of_checked hm h10 h11))
    exact ⟨i, hi, (decodeWord_coded c _ _ i hi).1⟩
  · simp [checkClause, h0]
  · simp [checkClause, h0, hc]
  · have hr : (wordsOf words 0#15).any (fun e => opReserved c e.2.1) = true := List.any_eq_true.2 ⟨e, he, by simp [opReserved, ho]⟩
    have hl (n : Nat) : (List.range n).any (fun _ => false) = false := List.any_eq_false.2 fun _ _ => Bool.false_ne_true
    simp [checkClause, h0, hc, hx, hl, hr, -List.any_eq_true]

end Sys2Proof
end

section
/-! PROOFS. The qualifier of words of format S (R98, R136), and the scalar compare and select (R139). -/
namespace Sys2Proof.Machine

/-! ### Words under a qualifier (R98, R136) -/

/-- What the word does stands under its qualifier. -/
def Qualifies (i : Instr) (q : BitVec 3) (c : Cur) (s : State) : Prop := ∃ f, exec i s = .next (scalarWord q f c s)

/-- A word as it issues afresh. -/
def Cur.afresh (c : Cur) : Cur := { c with wait := none, wph := false }

/-- The state in which a word issues. -/
def State.issuing (s : State) (c : Cur) : State := { s with cur := some c }

theorem Fresh.qualifies {i : Instr} {q : BitVec 3} {c : Cur} {s : State} (hf : Fresh c) (hc : s.cur = some c)
    (h : ∀ (k : Cur) (u : State), Qualifies i q k.afresh (u.issuing k.afresh)) : Qualifies i q c s := by
  have ec : c.afresh = c := by simp only [Cur.afresh, ← hf.wait, ← hf.wph]
  have es : s.issuing c = s := by simp only [State.issuing, ← hc]
  simpa only [ec, es] using h c s

theorem barWait_qualifies {c : Cur} {s : State} (hf : Fresh c) (hc : s.cur = some c) (w : WS) : Qualifies (.barWait w) w.qual c s :=
  hf.qualifies hc fun _ _ => ⟨_, congrArg Host.Outcome.next (if_neg Bool.false_ne_true)⟩

theorem barSync_qualifies {c : Cur} {s : State} (hf : Fresh c) (hc : s.cur = some c) (w : WS) : Qualifies (.barSync w) w.qual c s :=
  hf.qualifies hc fun _ _ => ⟨_, congrArg Host.Outcome.next (if_neg Bool.false_ne_true)⟩

theorem qualifiedForms_qualify {w : WS} {d : WD} (hd : d.pred = w.qual) (z : XMod) (lit : Word) (ol : Option Word) (l : CpyLit) (g : GatLit) {c : Cur} {s : State}
    (hf : Fresh c) (hc : s.cur = some c) : ∀ i ∈ qualifiedForms w d z lit ol l g, Qualifies i w.qual c s := by
  obtain ⟨st, q, sd, sa, sb, sub⟩ := w
  obtain rfl : d.pred = q := hd
  simp only [qualifiedForms, List.forall_mem_append, List.forall_mem_cons, List.not_mem_nil, false_implies, implies_true, and_true,
    barWait_qualifies hf hc, barSync_qualifies hf hc, true_and]
  and_intros <;> exact hf.qualifies hc fun _ _ => ⟨_, rfl⟩

section
variable {s : State} {c : Cur} {x : Group} {sp : Split} {t : Team} (h : Issuing s c x sp t)
include h

theorem Issuing.rdQ_eq (o r : Nat) : (wxOf c s).rdQ o r = x.rdQ r := by
  rw [h.wx]; simp [Wx.rdQ, h.settled]

theorem Issuing.scalarWord_off {q : BitVec 3} (hq : q.toNat ≠ 7) (hp : (x.rdQ q.toNat).poison = false) (h1 : (x.rdQ q.toNat).bits ≠ 1) (f : Wx → State → State) :
    scalarWord q f c s = s := by
  simp only [scalarWord, h.rdQ_eq, beq_iff_eq, hq, hp, h1, if_false, Bool.false_eq_true]

theorem Issuing.scalarWord_poisoned {q : BitVec 3} (hq : q.toNat ≠ 7) (hp : (x.rdQ q.toNat).poison = true) (f : Wx → State → State) :
    scalarWord q f c s = flagRegion s c.gid (x.rdQ q.toNat).bits (lowest sp.mask) false := by
  have hm : (wxOf c s).sp.mask = sp.mask := by rw [h.wx]
  simp only [scalarWord, h.rdQ_eq, beq_iff_eq, hq, hp, hm, if_false, if_true]

end

theorem scalarQualifier : ScalarQualifierStated := by
  intro s c x sp t w d z lit ol l g h hf hq hd
  have h7 : w.qual.toNat ≠ 7 := by omega
  refine ⟨fun hp h1 i hi => ?_, fun hp i hi => ?_⟩
  · obtain ⟨f, e⟩ := qualifiedForms_qualify hd z lit ol l g hf h.cur i hi
    rw [e, h.scalarWord_off h7 hp h1]
  · obtain ⟨f, e⟩ := qualifiedForms_qualify hd z lit ol l g hf h.cur i hi
    rw [e, h.scalarWord_poisoned h7 hp]


/-! ### Comparisons of words (R84, R139, R145) -/

theorem sext_eq_toInt {a : Nat} (ha : a < 2 ^ 32) : sext 32 a = (BitVec.ofNat 32 a).toInt := by
  simp only [sext, BitVec.toInt_eq_toNat_cond, BitVec.toNat_ofNat, Nat.mod_eq_of_lt ha]
  split <;> split <;> omega

/-- The conditions of two 32-bit operands, in the order of R84. -/
def orderings (p q : Word) : List Bool := [p == q, p != q, p.slt q, p.sle q, q.slt p, q.sle p, p.ult q, p.ule q, q.ult p, q.ule p]

theorem ofNat_beq_ofNat {a b : Nat} (ha : a < 2 ^ 32) (hb : b < 2 ^ 32) : (BitVec.ofNat 32 a == BitVec.ofNat 32 b) = (a == b) := by
  simp only [beq_eq_decide, BitVec.toNat_eq, BitVec.toNat_ofNat, Nat.mod_eq_of_lt ha, Nat.mod_eq_of_lt hb]

theorem vcmpCond_eq {a b : Nat} (ha : a < 2 ^ 32) (hb : b < 2 ^ 32) :
    ∀ k ≤ 9, vcmpCond k a b = (orderings (BitVec.ofNat 32 a) (BitVec.ofNat 32 b)).getD k false := by
  intro k hk
  interval_cases k <;>
    simp only [vcmpCond, orderings, List.getD_cons_zero, List.getD_cons_succ, bne, ofNat_beq_ofNat ha hb, sext_eq_toInt ha, sext_eq_toInt hb,
      BitVec.slt_eq_decide, BitVec.sle_eq_decide, BitVec.ult_eq_decide, BitVec.ule_eq_decide, BitVec.toNat_ofNat, Nat.mod_eq_of_lt ha, Nat.mod_eq_of_lt hb]

theorem scmpCond_eq {a b : Nat} (ha : a < 2 ^ 32) (hb : b < 2 ^ 32) (k : Nat) (hk : k < 8) :
    let p : Word := BitVec.ofNat 32 a
    let q : Word := BitVec.ofNat 32 b
    scmpCond k a b = [p == q, p != q, p.slt q, p.sle q, q.slt p, q.sle p, p.ult q, q.ule p].getD k false := by
  have e := vcmpCond_eq ha hb
  interval_cases k
  exacts [e 0 (by omega), e 1 (by omega), e 2 (by omega), e 3 (by omega), e 4 (by omega), e 5 (by omega), e 6 (by omega), e 9 (by omega)]

/-! ### A result in a uniform register -/

/-- One result written to a destination of a uniform file. -/
theorem WritesOf.uniform {f : RFile} (hf : f = .s ∨ f = .q) (reg n i : Nat) {r : LVal} {o : Nat × Nat × Option Word} (hb : Became (i, r) o) (x : Group) :
    WritesOf x (fun _ => true) ⟨f, reg, n⟩ (fun _ => r) (laneWrites f reg n (0, o.2)) := by
  have hp : f ≠ .p ∧ f ≠ .v ∧ f ≠ .fmt ∧ f ≠ .mark := by rcases hf with rfl | rfl <;> decide
  have hrd : ∀ g k j, j < 128 → (x.wrAll (laneWrites f reg n (0, o.2))).rd g k j =
      if g = f ∧ reg ≤ k ∧ k < reg + n then wordOf o.2 (k - reg) else x.rd g k j := by
    intro g k j hj
    rw [laneWrites_eq, Group.rd_lane x f reg n 0 (wordOf o.2) g k j hj (by omega) (fun e => absurd e hp.1) hp.2.2]
    refine if_congr ⟨fun e => ⟨e.1, e.2.1, e.2.2.1⟩, fun e => ⟨e.1, e.2.1, e.2.2, ?_⟩⟩ rfl rfl
    simp [laneHit, e.1, hp.1, hp.2.1]
  refine ⟨fun g k j hj hw => ?_, fun g k j hj hw => ?_, Group.wrAll_shape _ _⟩
  · simp only [written, Bool.and_true, Bool.and_eq_true, beq_iff_eq, decide_eq_true_eq] at hw
    rw [hrd g k j hj, if_pos ⟨hw.1.1, hw.1.2, hw.2⟩]
    exact hb.leaves _
  · rw [hrd g k j hj, if_neg]
    rintro ⟨rfl, a, b⟩
    simp [written, a, b] at hw

/-- What `finishQ` does (R79, R139): tokens aside, its uniform predicate alone. -/
theorem finishQ_spec (qd : Nat) (r : LVal) (w : Wx) (s : State) (x : Group) (hx : Map.find s.groups w.g = some x) (hr : x.resident = true) :
    ∃ ws, RestKept s (finishQ qd r w s) w.g ∧ Map.find (finishQ qd r w s).groups w.g = some (x.after false ws) ∧
      WritesOf x (fun _ => true) ⟨.q, qd, 1⟩ (fun _ => r) ws := by
  obtain ⟨h1, h2⟩ := resolve_spec w.g w.pc x hr [(lowest w.act, r)] s [] hx (fun e he => by simp at he)
  have hrest := (resolve_rest w.g w.pc [(lowest w.act, r)] s []).trans (put_rest (resolve s w.g w.pc [] [(lowest w.act, r)]).1 w.g
    ((resolve s w.g w.pc [] [(lowest w.act, r)]).2.2.flatMap (fun e => laneWrites .q qd 1 (0, e.2))))
  unfold finishQ
  generalize resolve s w.g w.pc [] [(lowest w.act, r)] = res at *
  obtain ⟨u, ts, out⟩ := res
  obtain ⟨o, _, hb, hnil, rfl⟩ := List.forall₂_cons_left_iff.mp h2
  cases List.forall₂_nil_left_iff.mp hnil
  refine ⟨laneWrites .q qd 1 (0, o.2), by simpa using hrest, ?_, .uniform (.inr rfl) qd 1 _ hb x⟩
  have hu : Map.find u.groups w.g = some x := by rw [← hx]; exact congrArg (Map.find · w.g) h1
  simp [put, State.find_updGrp, hu, Group.after]

section
variable {s : State} {c : Cur} {x : Group} {sp : Split} {t : Team} (h : Issuing s c x sp t)
include h

theorem Issuing.sReg_eq (o r : Nat) : (wxOf c s).sReg o r = asLVal (x.rdS r) := by
  rw [h.wx]; simp [Wx.sReg, Wx.uni, Wx.rdS, h.settled, asLVal]

theorem Issuing.qVal_eq (o r : Nat) : (wxOf c s).qVal o r = asLVal (x.rdQ r) := by
  simp only [Wx.qVal, h.rdQ_eq, asLVal]

end

theorem asLVal_lt {v : Val} {n : Nat} (h : asLVal v = .val n) : n < 2 ^ 32 := by
  unfold asLVal at h
  split at h
  · cases h
  · cases h; exact v.bits.isLt

/-- The number of a condition that holds or fails. -/
theorem ofBool_eq (b : Bool) : ofBool b = if b then 1 else 0 := rfl

theorem scalarCompareSelect : ScalarCompareSelectStated := by
  intro s c x sp t w h hq a b
  refine ⟨?_, ?_⟩
  · have hr : (if w.sd.toNat < 4 then lift2 a b (fun a b =>
          let p : Word := BitVec.ofNat 32 a
          let q : Word := BitVec.ofNat 32 b
          .val (if [p == q, p != q, p.slt q, p.sle q, q.slt p, q.sle p, p.ult q, q.ule p].getD w.sub.toNat false then 1 else 0)) else .bad .malformed) =
        if 4 ≤ w.sd.toNat then .bad .malformed else lift2 a b (fun a b => .val (ofBool (scmpCond w.sub.toNat a b))) := by
      rw [← ite_not]
      refine if_congr not_lt rfl (lift2_congr _ _ _ _ fun m n hm hn => ?_)
      rw [scmpCond_eq (asLVal_lt hm) (asLVal_lt hn) _ w.sub.isLt, ofBool_eq]
    obtain ⟨ws, h1, h2, h3⟩ := finishQ_spec (w.sd.toNat % 4)
      (if 4 ≤ w.sd.toNat then .bad .malformed else lift2 a b (fun a b => .val (ofBool (scmpCond w.sub.toNat a b)))) (wxOf c s) s x h.group h.resident
    refine ⟨_, ws, ?_, h1, h2, hr ▸ h3⟩
    simp only [exec, execScmp, onIssuer_of_cur _ h.cur, scalarWord_qualified h _ hq, h.sReg_eq, a, b]
  · refine scalar_results h _ hq _ false _ 1 _ (fun wx => if 4 ≤ w.sub.toNat then .bad .malformed
      else lift3 (wx.sReg 0 w.sa.toNat) (wx.sReg 2 w.sb.toNat) (wx.qVal 4 (w.sub.toNat % 4)) fun a b q => .val (if q == 1 then a else b)) rfl ?_
    rw [h.sReg_eq, h.sReg_eq, h.qVal_eq, ← ite_not]
    by_cases h4 : w.sub.toNat < 4
    · simp only [h4, Nat.mod_eq_of_lt h4, beq_iff_eq, not_le, if_true]; rfl
    · simp [h4]

/-- Settles O19: each word is stated once as standing under its qualifier; the compare writes one uniform predicate, the select one uniform register. -/
theorem qualifierAndSelect : Obligations.QualifierAndSelect := ⟨scalarQualifier, scalarCompareSelect⟩

end Sys2Proof.Machine
end

section
/-! PROOFS. Compares (R145, R148): the conditions, and the predicate that a compare writes. -/
namespace Sys2Proof.Machine

theorem result2_reserved {ok rsv : Bool} (hr : rsv = !ok) (a b : LVal) (f : Nat → Nat → LVal) :
    (if rsv then .bad .malformed else lift2 a b f) = result2 ok a b f := by
  subst hr
  cases ok <;> rfl

theorem cmpReserved_eq (top cond : Nat) (ok : Bool) : (decide (top < cond) || !ok) = !(decide (cond ≤ top) && ok) := by
  rw [Bool.not_and, ← decide_not]
  simp only [not_le]

/-- What a comparison of two FP32 patterns leaves in its predicate (R148). -/
theorem fcmpResult_eq (cond a b : Nat) (hc : cond ≤ 7) :
    let u := fp32.decode a
    let v := fp32.decode b
    let o := FNum.cmp u v
    LVal.ofNum ((fcmpCond cond a b).map ofBool) =
      if u.isSNaN || v.isSNaN then .bad .fpInvalid
      else if u.isNaN || v.isNaN then .val (ofBool (cond == 1 || cond == 6))
      else .val (ofBool ([o == 0, o != 0, o < 0, o ≤ 0, 0 < o, 0 ≤ o, false, true].getD cond false)) := by
  intro u v o
  simp only [fcmpCond]
  split
  · rfl
  split
  · rfl
  interval_cases cond <;> rfl

/-- A compare whose destination is one of p0 to p6 is a lane word of that predicate (R145). -/
theorem cmpWord_dest {w : WA} (hd : w.d.toNat % 8 < 7) (hon : Honour) (k : Kind) (top : Nat) (xm : Option XMod) (f : Nat → Nat → Nat → LVal) (s : State) :
    let m := xm.getD plainX
    cmpWord hon k top w xm f s = onIssuer s (laneWord w.pred fun wx => finishLanes false ⟨.p, w.d.toNat % 8, 1⟩ (top < w.d.toNat / 8 || !modOk hon m)
      (fun i => lift2 (wx.src m k .a w.a.toNat i) (wx.src m k .b w.b.toNat i) (f (w.d.toNat / 8))) wx) := by
  have h7 : (w.d.toNat % 8 == 7) = false := beq_false_of_ne (Nat.ne_of_lt hd)
  simp only [cmpWord, h7, Bool.false_eq_true, if_false]

/-- A compare whose destination is one of p0 to p6 completes with its condition in the active lanes (R145). -/
theorem cmpWord_results {s : State} {c : Cur} {x : Group} {sp : Split} {t : Team} (h : Issuing s c x sp t) {w : WA} (hp : CleanPred x sp w.pred.toNat)
    (hd : w.d.toNat % 8 < 7) {i : Instr} (hon : Honour) (k : Kind) (top : Nat) (xm : Option XMod) (f : Nat → Nat → Nat → LVal) (f' : Nat → Nat → LVal)
    (hi : exec i s = cmpWord hon k top w xm f s) (hf : w.d.toNat / 8 ≤ top → ∀ a b, a < k.size → b < k.size → f (w.d.toNat / 8) a b = f' a b) :
    let m := xm.getD plainX
    Results i s c.gid x false (active x sp w.pred.toNat) ⟨.p, w.d.toNat % 8, 1⟩ (fun i =>
      result2 (w.d.toNat / 8 ≤ top && modOk hon m) ((wxOf c s).src m k .a w.a.toNat i) ((wxOf c s).src m k .b w.b.toNat i) f') := by
  intro m
  refine lane_results h w.pred hp i false ⟨.p, w.d.toNat % 8, 1⟩ (decide (top < w.d.toNat / 8) || !modOk hon m)
    (fun i => lift2 ((wxOf c s).src m k .a w.a.toNat i) ((wxOf c s).src m k .b w.b.toNat i) (f (w.d.toNat / 8))) _ (.inr rfl) (fun _ j hj => by simp only at hj ⊢; omega)
    (fun e => nomatch e) (fun wx i => lift2 (wx.src m k .a w.a.toNat i) (wx.src m k .b w.b.toNat i) (f (w.d.toNat / 8))) ?_ (fun _ => rfl) fun i => ?_
  · exact hi.trans (cmpWord_dest hd hon k top xm f s)
  · rw [result2_reserved (cmpReserved_eq top _ _)]
    by_cases ht : w.d.toNat / 8 ≤ top
    · unfold result2
      rw [lift2_congr _ _ _ _ fun a b ha hb => hf ht a b (Wx.src_lt _ _ _ _ _ _ _ ha) (Wx.src_lt _ _ _ _ _ _ _ hb)]
    · simp [result2, ht]

/-- A compare to p7 has no destination (R88, R145). -/
theorem cmpWord_seven {s : State} {c : Cur} {x : Group} {sp : Split} {t : Team} (h : Issuing s c x sp t) {w : WA} (hp : CleanPred x sp w.pred.toNat)
    (hd : w.d.toNat % 8 = 7) (hon : Honour) (k : Kind) (top : Nat) (xm : Option XMod) (f : Nat → Nat → Nat → LVal) :
    cmpWord hon k top w xm f s = .next (malformedNoDest s c.gid c.pc (activeMask x sp w.pred.toNat)) := by
  simp only [cmpWord, hd, beq_self_eq_true, if_true, onIssuer_of_cur _ h.cur, h.laneWord_eq _ hp]
  rfl

/-- Settles O4: the conditions are those of the statement's list, and p7 makes the word a reserved use. -/
theorem compareWords : Obligations.CompareWords := by
  intro s c x sp t w xm h hp m cond pd hon truth
  refine ⟨fun hd => ⟨?_, ?_⟩, fun hd i hi => ?_⟩
  · refine cmpWord_results h hp hd hon .i32 9 xm (fun c a b => .val (ofBool (vcmpCond c a b)))
      (fun a b => .val (ofBool ((orderings (BitVec.ofNat 32 a) (BitVec.ofNat 32 b)).getD cond false))) rfl fun ht a b ha hb => ?_
    simp only [Kind.size, Kind.regs, Nat.mul_one] at ha hb
    rw [vcmpCond_eq ha hb _ ht]
  · exact cmpWord_results h hp hd hon .f32 7 xm (fun c a b => .ofNum ((fcmpCond c a b).map ofBool)) _ rfl fun ht a b _ _ => fcmpResult_eq _ a b ht
  · simp only [List.mem_cons, List.not_mem_nil, or_false] at hi
    rcases hi with rfl | rfl
    · exact cmpWord_seven h hp hd hon .i32 9 xm fun c a b => .val (ofBool (vcmpCond c a b))
    · exact cmpWord_seven h hp hd hon .f32 7 xm fun c a b => .ofNum ((fcmpCond c a b).map ofBool)

end Sys2Proof.Machine
end

section
/-! PROOFS. The format register (R122, R141), NOP and YIELD (R71, R97, R114). -/
namespace Sys2Proof.Machine

/-! ### The format register (R122, R141) -/

/-- A number with bit 15 as zero is the words above and below that bit. -/
theorem setBits_fifteen (n : Nat) : setBits n 15 1 0 = 2 ^ 16 * (n / 2 ^ 16) + n % 2 ^ 15 := by
  unfold setBits bits
  rw [Nat.shiftRight_eq_div_pow]
  omega

theorem formatMask_getLsbD : ∀ i < 32, (0xFFFF7FFF : Word).getLsbD i = (decide (i < 15) || decide (16 ≤ i)) := by decide

/-- Bit 15 of FMT is held as zero. -/
theorem fmtOfBits_eq (v : Word) : fmtOfBits v.toNat = v &&& 0xFFFF7FFF := by
  refine BitVec.eq_of_getLsbD_eq fun i hi => ?_
  have hlow : v.toNat % 2 ^ 15 < 2 ^ 16 := by omega
  rw [fmtOfBits, setBits_fifteen, BitVec.getLsbD_and, formatMask_getLsbD i hi, BitVec.getLsbD_ofNat, Nat.testBit_two_pow_mul_add _ hlow,
    Nat.testBit_mod_two_pow, Nat.testBit_div_two_pow, BitVec.getLsbD, decide_eq_true hi, Bool.true_and]
  by_cases h16 : i < 16
  · simp [h16, show ¬16 ≤ i by omega, Bool.and_comm]
  · have : 16 ≤ i := by omega
    simp [h16, this]

section
variable {s : State} {c : Cur} {x : Group} {sp : Split} {t : Team} (h : Issuing s c x sp t)
include h

/-- A new value of FMT for the issuing split. -/
theorem Issuing.setFmt (v : Word) : s.updSpl c.gid c.slot (fun sp => { sp with fmt := fmtOfBits v.toNat }) =
    { s with groups := Map.put s.groups c.gid (x.setSplit c.slot (some { sp with fmt := v &&& 0xFFFF7FFF })) } := by
  rw [State.updSpl, updGrp_of_find h.group, Group.updSplit, h.split, fmtOfBits_eq]
  rfl

theorem Issuing.reservedUse_eq : reservedUse (wxOf c s) s = malformedNoDest s c.gid c.pc sp.mask := by rw [h.wx]; rfl

theorem Issuing.fmt_eq : (wxOf c s).fmt = sp.fmt := by simp [Wx.fmt, Wx.fmtAt, h.wx, h.settled]

theorem Issuing.flagTok_eq (tok : Word) : flagTok (wxOf c s) tok s = flagRegion s c.gid tok (lowest sp.mask) false := by rw [h.wx]; rfl

end

theorem formatRegister : FormatRegisterStated := by
  intro s c x sp t w lit h hq set bad
  have word (f : Wx → State → State) : onIssuer s (scalarWord w.qual f) = .next (f (wxOf c s) s) := by
    rw [onIssuer_of_cur _ h.cur, scalarWord_qualified h _ hq]
  refine ⟨fun hs => ?_, fun hs => ?_, ?_, fun h1 h2 h3 hp => ?_, fun h1 h2 h3 hp => ?_, fun hr => ?_, fun h1 h2 h3 => ?_, fun hr => ?_, ?_⟩
  · exact Laws.RoundTrip.fmtset w (bne_iff_ne.2 fun e => hs (BitVec.eq_of_toNat_eq e)) _ rfl
  · exact Laws.RoundTrip.fmtsetLit w lit (by simp [Instr.wf, hs]) _ rfl
  · exact Laws.RoundTrip.fmtget w rfl _ rfl
  · simp only [exec, execFmtset, word, h1, h2, h3, h.sReg_eq, asLVal, hp]
    exact congrArg Host.Outcome.next (h.setFmt _)
  · simp only [exec, execFmtset, word, h1, h2, h3, h.sReg_eq, asLVal, hp]
    exact congrArg Host.Outcome.next (h.flagTok_eq _)
  · have hb : (w.sub != 0 || w.sd != 0 || w.sb != 0) = true := by simpa [or_assoc] using hr
    simp only [exec, execFmtset, word, hb, if_true, h.reservedUse_eq, bad]
  · simp only [exec, execFmtsetLit, word, h1, h2, h3]
    exact congrArg Host.Outcome.next (h.setFmt _)
  · have hb : (w.sd != 0 || w.sa != 0 || w.sb != 0) = true := by simpa [or_assoc] using hr
    simp only [exec, execFmtsetLit, word, hb, if_true, h.reservedUse_eq, bad]
  · refine scalar_results h _ hq _ false _ 1 _ (fun wx => if w.sub != 0 || w.sa != 0 || w.sb != 0 then .bad .malformed else .val wx.fmt.toNat) rfl ?_
    by_cases hz : w.sub = 0 ∧ w.sa = 0 ∧ w.sb = 0
    · simp [hz, h.fmt_eq]
    · rw [if_neg hz, if_pos (by simpa only [not_and_or, ← or_assoc, Bool.or_eq_true, bne_iff_ne] using hz)]

/-! ### NOP and YIELD (R71, R97, R114) -/

theorem nopAndYield : NopAndYieldStated := by
  intro s c x sp t w h
  refine ⟨onIssuer_of_cur (fun _ s => s) h.cur, fun hp => ?_, fun hp hc => ?_⟩
  · simp only [exec, execYieldw, onIssuer_of_cur _ h.cur, hp, bne_self_eq_false, Bool.false_eq_true, if_false, State.grp_of_find h.group]
    exact congrArg Host.Outcome.next (updGrp_of_find (s := s.updCore x.core _) h.group _)
  · simp only [ReservedUse, exec, execYieldw, onIssuer_of_cur _ h.cur, bne_iff_ne, ne_eq, hp, not_false_eq_true, if_true, h.laneWord_eq _ hc]
    rfl

/-- Settles O21: the words of the format register by their fields, and `NOP` and `YIELD` by their one effect. -/
theorem formatNopYield : Obligations.FormatNopYield := ⟨formatRegister, nopAndYield⟩

end Sys2Proof.Machine
end

section
/-! PROOFS. Reads that come too soon (R80), and lane words whose destination lies outside the budget or whose predicate is poisoned (R75, R98, R241, R247). -/
namespace Sys2Proof.Machine

/-! ### Reads that come too soon (R80) -/

/-- A word that wrote the register stands too close to the reader. -/
def Hazard.near (h : Hazard) (file : RFile) (r i dist : Nat) (cross : Bool) : Prop :=
  h.file = file ∧ h.reg = r ∧ inMask h.lanes i = true ∧ dist - h.at_ < (if cross then h.needX else h.need)

theorem pickRead_settled {sp : Split} {file : RFile} {r i : Nat} {cross : Bool} : ∀ (l : List Hazard) (key : Nat) (v : Val),
    (∀ h ∈ l, ¬h.near file r i sp.dist cross) → pickRead sp file r i cross key l v = v
  | [], _, _, _ => rfl
  | h :: l, key, v, hn => by
    have hh : ¬h.near file r i sp.dist cross := hn h (List.mem_cons_self ..)
    rw [pickRead, if_neg (by simpa [Hazard.near, and_assoc] using hh)]
    exact pickRead_settled l key v fun k hk => hn k (List.mem_cons_of_mem _ hk)

/-- A read gives the register's value, or what it held before a word that is too close. -/
theorem pickRead_cases {sp : Split} {file : RFile} {r i : Nat} {cross : Bool} : ∀ (l : List Hazard) (key : Nat) (v : Val),
    pickRead sp file r i cross key l v = v ∨ ∃ h ∈ l, h.near file r i sp.dist cross ∧ pickRead sp file r i cross key l v = Map.get Val.zero h.old i
  | [], _, _ => .inl rfl
  | h :: l, key, v => by
    rw [pickRead]
    by_cases hh : h.near file r i sp.dist cross
    · rw [if_pos (by simpa [Hazard.near, and_assoc] using hh)]
      split
      · exact .inl rfl
      · rcases pickRead_cases l (key + 1) (Map.get Val.zero h.old i) with e | ⟨k, hk, hkn, e⟩
        · exact .inr ⟨h, List.mem_cons_self .., hh, e⟩
        · exact .inr ⟨k, List.mem_cons_of_mem _ hk, hkn, e⟩
    · rw [if_neg (by simpa [Hazard.near, and_assoc] using hh)]
      exact (pickRead_cases l key v).imp_right fun ⟨k, hk, hkn, e⟩ => ⟨k, List.mem_cons_of_mem _ hk, hkn, e⟩

theorem readsTooClose : ReadsTooCloseStated := by
  intro s c x sp t o r i cross hc hx hs ht near
  have hw : (wxOf c s).rdV o r i cross =
      pickRead { sp with dist := sp.dist - stepOf c.word } .v r i cross (freeKey s.draws o i) sp.haz (x.rdV r i) := by
    simp [Wx.rdV, wxOf, State.grp_of_find hx, hs]
  rw [hw]
  exact ⟨pickRead_settled (sp := { sp with dist := sp.dist - stepOf c.word }) sp.haz _ _, pickRead_cases (sp := { sp with dist := _ }) sp.haz _ _⟩

/-! ### Lane words with a register destination -/

/-- The word writes what its active lanes come to into its destination, or owes it, and does nothing else (R75, R79, R98). -/
def LaneForm (i : Instr) (p : BitVec 3) (late : Bool) (d : VDest) : Prop :=
  ∃ (rsv : Bool) (fn : Wx → Nat → LVal), ∀ s, exec i s = onIssuer s (laneWord p fun wx => finishLanes late d rsv (fn wx) wx)

theorem oneRegForms_laneForm {w : WA} {v : WB} {k : WC} (hv : v.pred = w.pred) (hvd : v.d = w.d) (hk : k.pred = w.pred) (hkd : k.d = w.d) (xm : Option XMod) (m : XMod)
    (lit : Option Word) : ∀ e ∈ oneRegForms w v k xm m lit, LaneForm e.1 w.pred e.2 ⟨.v, w.d.toNat, 1⟩ := by
  obtain ⟨st, p, d, a, b⟩ := w
  obtain ⟨stv, _, _, av, fv⟩ := v
  obtain ⟨stk, _, _, ik⟩ := k
  obtain rfl : _ = p := hv
  obtain rfl : _ = d := hvd
  obtain rfl : _ = _ := hk
  obtain rfl : _ = _ := hkd
  simp only [oneRegForms, List.map_cons, List.map_nil, List.forall_mem_append, List.forall_mem_cons, List.not_mem_nil, false_implies, implies_true, and_true]
  and_intros <;> exact ⟨_, _, fun _ => rfl⟩

theorem pairForms_laneForm (w : WA) (xm : Option XMod) (m : XMod) : ∀ i ∈ pairForms w xm m, LaneForm i w.pred false ⟨.v, w.d.toNat, 2⟩ := by
  simp only [pairForms, List.forall_mem_cons, List.not_mem_nil, false_implies, implies_true, and_true]
  and_intros <;> exact ⟨_, _, fun _ => rfl⟩


theorem cmpWord_laneForm {w : WA} (h7 : w.d.toNat % 8 < 7) {i : Instr} (hon : Honour) (k : Kind) (top : Nat) (xm : Option XMod) (f : Nat → Nat → Nat → LVal)
    (hi : ∀ s, exec i s = cmpWord hon k top w xm f s) : LaneForm i w.pred false ⟨.p, w.d.toNat % 8, 1⟩ :=
  ⟨_, fun wx i => lift2 (wx.src (xm.getD plainX) k .a w.a.toNat i) (wx.src (xm.getD plainX) k .b w.b.toNat i) (f (w.d.toNat / 8)),
    fun s => (hi s).trans (cmpWord_dest h7 hon k top xm f s)⟩

/-- What a vote gives its destination: the first poisoned source's token, else the vote over the lanes in which the source holds (R157). -/
def voteResult (w : WB) (f : Wx → List Nat → Nat → LVal) (wx : Wx) (i : Nat) : LVal :=
  match (wx.lanes.find? fun i => (wx.rdP 0 (w.a.toNat % 8) i true).poison).map fun i => (wx.rdP 0 (w.a.toNat % 8) i true).bits with
  | some t => .tok t
  | none => f wx (wx.lanes.filter fun i => (wx.rdP 0 (w.a.toNat % 8) i true).bits == 1) i

theorem votePred_laneForm {w : WB} (h7 : w.d.toNat % 8 < 7) {i : Instr} (xm : Option XMod) (f : Wx → List Nat → Bool)
    (hi : ∀ s, exec i s = votePred w xm f s) : LaneForm i w.pred false ⟨.p, w.d.toNat % 8, 1⟩ := by
  have hd : (w.d.toNat % 8 == 7) = false := beq_false_of_ne (Nat.ne_of_lt h7)
  refine ⟨decide (8 ≤ w.d.toNat) || decide (8 ≤ w.a.toNat) || !modOk {} (xm.getD plainX), voteResult w fun wx on _ => .val (ofBool (f wx on)), fun s => ?_⟩
  rw [hi, votePred, hd]
  rfl

theorem predForms_laneForm {w : WA} {v : WB} (hv : v.pred = w.pred) (hvd : v.d = w.d) (h7 : w.d.toNat % 8 < 7) (xm : Option XMod) :
    ∀ i ∈ [Instr.vcmp w xm, .fcmp w xm, .vvoteAny v xm, .vvoteUni v xm], LaneForm i w.pred false ⟨.p, w.d.toNat % 8, 1⟩ := by
  have hv7 : v.d.toNat % 8 < 7 := hvd ▸ h7
  simp only [List.forall_mem_cons, List.not_mem_nil, false_implies, implies_true, and_true]
  refine ⟨cmpWord_laneForm h7 _ .i32 9 xm (fun c a b => .val (ofBool (vcmpCond c a b))) fun _ => rfl,
    cmpWord_laneForm h7 _ .f32 7 xm (fun c a b => .ofNum ((fcmpCond c a b).map ofBool)) fun _ => rfl, ?_, ?_⟩
  · rw [← hv, ← hvd]; exact votePred_laneForm hv7 xm (fun _ on => !on.isEmpty) fun _ => rfl
  · rw [← hv, ← hvd]; exact votePred_laneForm hv7 xm (fun wx on => on.isEmpty || on.length == wx.lanes.length) fun _ => rfl

/-! ### A word whose predicate is clean -/

section
variable {s : State} {c : Cur} {x : Group} {sp : Split} {t : Team} (h : Issuing s c x sp t)
include h

theorem Issuing.inRange_iff (m : Mask) {d : VDest} (hd : d.file = .v) : ({ wxOf c s with act := m } : Wx).inRange d = true ↔ InBudget x t d.reg d.n := by
  simp only [Wx.inRange, hd, h.wx, decide_eq_true_eq]
  rfl

theorem LaneForm.outOfBudget {i : Instr} {p : BitVec 3} {late : Bool} {d : VDest} (hi : LaneForm i p late d) (hd : d.file = .v)
    (hb : ¬InBudget x t d.reg d.n) (hp : CleanPred x sp p.toNat) : exec i s = .next s := by
  obtain ⟨rsv, fn, e⟩ := hi
  have hr : ({ wxOf c s with act := activeMask x sp p.toNat } : Wx).inRange d = false := Bool.eq_false_iff.2 fun k => hb ((h.inRange_iff _ hd).1 k)
  rw [e, onIssuer_of_cur _ h.cur, h.laneWord_eq p hp, finishLanes, if_pos (by rw [hr]; rfl)]

end

theorem outOfBudgetDestination : OutOfBudgetDestinationStated := by
  intro s c x sp t w v k xm m lit h hp hv hvd hk hkd
  exact ⟨fun hb e he => LaneForm.outOfBudget h (oneRegForms_laneForm hv hvd hk hkd xm m lit e he) rfl hb hp,
    fun hb i hi => LaneForm.outOfBudget h (pairForms_laneForm w xm m i hi) rfl hb hp⟩

/-! ### A word whose predicate is poisoned in a lane (R98, R241, R247) -/

/-- A group whose region or orphaned token is another. -/
def Group.marked (x : Group) (r : Region) (o : Option Word) : Group := { x with region := r, orphan := o }

theorem Group.wr_marked (x : Group) (r : Region) (o : Option Word) (w : RegWrite) : (x.marked r o).wr w = (x.wr w).marked r o := by
  obtain ⟨f, reg, lane, v⟩ := w
  cases f
  case p => simp only [Group.wr]; split <;> rfl
  all_goals rfl

theorem Group.wrAll_marked (r : Region) (o : Option Word) : ∀ (ws : List RegWrite) (x : Group), (x.marked r o).wrAll ws = (x.wrAll ws).marked r o
  | [], _ => rfl
  | w :: ws, x => by rw [Group.wrAll_cons, Group.wrAll_cons, Group.wr_marked, Group.wrAll_marked r o ws]

theorem Group.rd_marked (x : Group) (r : Region) (o : Option Word) (f : RFile) (n i : Nat) : (x.marked r o).rd f n i = x.rd f n i := by
  cases f <;> rfl

theorem Group.after_marked (x : Group) (r : Region) (o : Option Word) (late : Bool) (ws : List RegWrite) :
    (x.marked r o).after late ws = (x.after late ws).marked r o := by
  unfold Group.after
  rw [Group.wrAll_marked]
  split
  · split <;> rfl
  · rfl

theorem WritesOf.of_marked {x : Group} {r : Region} {o : Option Word} {on : Nat → Bool} {d : VDest} {res : Nat → LVal} {ws : List RegWrite}
    (h : WritesOf (x.marked r o) on d res ws) : WritesOf x on d res ws := by
  obtain ⟨hd, hr, _⟩ := h
  simp only [Group.wrAll_marked, Group.rd_marked] at hd hr
  exact ⟨hd, hr, Group.wrAll_shape _ _⟩

theorem Group.after_shape (x : Group) (late : Bool) (ws : List RegWrite) : (x.after late ws).region = x.region ∧ (x.after late ws).orphan = x.orphan := by
  unfold Group.after
  split
  · split <;> exact ⟨rfl, rfl⟩
  · rw [Group.wrAll_shape]; exact ⟨rfl, rfl⟩

/-- A region that a token of lane `k` has flagged (R241). -/
def Region.flagged (r : Region) (tok : Word) (k : Nat) (rpl : Bool) : Region :=
  { r with flag := true, first := if r.flag then r.first else tok, pm := r.pm ||| maskOf [k], allrpl := r.allrpl && rpl,
           nqtok := some (r.nqtok.getD tok), toks := r.toks ++ [tok] }

theorem flagged_of_opened {y : Group} (ho : y.region.opened = true) (tok : Word) (k : Nat) (rpl : Bool) :
    Flagged y (y.marked (y.region.flagged tok k rpl) y.orphan) tok k := by
  rw [Flagged, if_pos ho]
  exact ⟨rfl, fun ha => (Bool.and_eq_true_iff.1 ha).1⟩

theorem flagged_of_closed {y : Group} (ho : y.region.opened = false) (tok : Word) (k : Nat) :
    Flagged y (y.marked y.region (some (y.orphan.getD tok))) tok k := by
  rw [Flagged, if_neg (by rw [ho]; exact Bool.false_ne_true)]
  rfl

theorem find_orphan {s : State} {g : Nat} {x : Group} (hx : Map.find s.groups g = some x) (he : x.ended = false) (tok : Word) :
    Map.find (orphan s g tok).groups g = some (x.marked x.region (some (x.orphan.getD tok))) := by
  have hf : Map.find (s.updGrp g fun x => if x.ended then x else { x with orphan := some (x.orphan.getD tok) }).groups g =
      some (x.marked x.region (some (x.orphan.getD tok))) := by simp [hx, he, Group.marked]
  unfold orphan
  simp only
  split
  · exact hf
  · rw [State.updGrid_groups, hf]

/-- What flagging a token makes of a group that has not ended. -/
theorem flagRegion_marked {s : State} {g : Nat} {x : Group} (hx : Map.find s.groups g = some x) (he : x.ended = false) (tok : Word) (k : Nat) :
    ∃ r o, Map.find (flagRegion s g tok k false).groups g = some (x.marked r o) ∧
      ∀ y : Group, y.region = x.region → y.orphan = x.orphan → Flagged y (y.marked r o) tok k := by
  have hg : s.grp g = x := State.grp_of_find hx
  cases ho : x.region.opened with
  | true =>
    refine ⟨x.region.flagged tok k (countsReplayable s x tok), x.orphan, ?_, fun y hr hy => ?_⟩
    · simp [flagRegion, hg, ho, hx, Group.marked, Region.flagged]
    · rw [← hr, ← hy]; exact flagged_of_opened (hr ▸ ho) ..
  | false =>
    refine ⟨x.region, some (x.orphan.getD tok), ?_, fun y hr hy => ?_⟩
    · simp only [flagRegion, hg, ho, Bool.false_eq_true, if_false, find_orphan hx he]
    · rw [← hr, ← hy]; exact flagged_of_closed (hr ▸ ho) ..

theorem mem_lanes_activeMask (x : Group) (sp : Split) (p : Nat) (w : Wx) (j : Nat) (hj : j < 128) :
    j ∈ ({ w with act := activeMask x sp p } : Wx).lanes ↔ active x sp p j = true := by
  rw [Wx.lanes, activeMask, mem_lanesOf_maskOf _ fun i hi => List.mem_range.1 (List.mem_filter.1 hi).1]
  simp [hj]

section
variable {s : State} {c : Cur} {x : Group} {sp : Split} {t : Team} (h : Issuing s c x sp t)
include h

theorem Issuing.rdP_eq (o r i : Nat) (b : Bool) : (wxOf c s).rdP o r i b = x.rdP r i := by
  simp only [h.wx, Wx.rdP, h.settled, pickRead_nil]
  split
  · rename_i e; rw [eq_of_beq e]; rfl
  · rfl

/-- A lane word acts on the active lanes, and flags the token of the lowest lane whose predicate is poisoned (R98). -/
theorem Issuing.under_poisoned {p : BitVec 3} {k : Nat} {tok : Word} (hm : inMask sp.mask k = true) (hk : k < 128) (hp : x.rdP p.toNat k = ⟨tok, true⟩)
    (hl : ∀ j < k, inMask sp.mask j = true → (x.rdP p.toNat j).poison = false) :
    (wxOf c s).under p.toNat = (activeMask x sp p.toNat, some (k, tok)) := by
  have hs : (wxOf c s).sp.mask = sp.mask := by rw [h.wx]
  have hf : (lanesOf sp.mask).find? (fun i => (x.rdP p.toNat i).poison) = some k := by
    rw [lanesOf, List.find?_filter, List.find?_range_eq_some]
    refine ⟨?_, List.mem_range.2 hk, fun j hj => ?_⟩
    · rw [hp]; exact decide_eq_true ⟨hm, rfl⟩
    · rw [Bool.not_eq_true', decide_eq_false_iff_not]
      rintro ⟨hj', ha⟩
      rw [hl j hj hj'] at ha
      exact Bool.false_ne_true ha
  simp only [Wx.under, h.rdP_eq, hs]
  rw [hf, Option.map_some, hp]
  refine Prod.ext (congrArg maskOf ?_) rfl
  rw [lanesOf, List.filter_filter]
  refine List.filter_congr fun i _ => ?_
  simp only [active, inMask]
  cases x.rdP p.toNat i with
  | mk b q => rw [Bool.eq_iff_iff]; simp [and_comm]

/-- A lane word with a lane whose predicate is poisoned writes its results in the active lanes, and flags the token (R98, R241, R247). -/
theorem Issuing.poisoned_results (he : x.ended = false) {p : BitVec 3} {k : Nat} {tok : Word} (hm : inMask sp.mask k = true) (hk : k < 128)
    (hp : x.rdP p.toNat k = ⟨tok, true⟩) (hl : ∀ j < k, inMask sp.mask j = true → (x.rdP p.toNat j).poison = false) {i : Instr} {late : Bool} {d : VDest} {rsv : Bool}
    {fn : Wx → Nat → LVal} (hi : exec i s = onIssuer s (laneWord p fun wx => finishLanes late d rsv (fn wx) wx)) (hd : d.file = .v ∨ d.file = .p)
    (h7 : d.file = .p → ∀ j < d.n, d.reg + j ≠ 7) (hb : d.file = .v → InBudget x t d.reg d.n) :
    ∃ u ws y, exec i s = .next u ∧ RestKept s u c.gid ∧
      WritesOf x (active x sp p.toNat) d (fun j => if rsv then .bad .malformed else fn { wxOf c s with act := activeMask x sp p.toNat } j) ws ∧
      Map.find u.groups c.gid = some y ∧ Flagged (x.after late ws) y tok k := by
  obtain ⟨r, o, hf, hy⟩ := flagRegion_marked h.group he tok k
  have hin : ({ wxOf c s with act := activeMask x sp p.toNat } : Wx).inRange d = true := by
    rcases hd with e | e
    · exact (h.inRange_iff _ e).2 (hb e)
    · simp only [Wx.inRange, e]
  obtain ⟨ws, hk1, hk2, hk3⟩ := finishLanes_spec late d rsv (fn { wxOf c s with act := activeMask x sp p.toNat })
    { wxOf c s with act := activeMask x sp p.toNat } (flagRegion s c.gid tok k false) (x.marked r o) hf h.resident hd h7 hin _
    (mem_lanes_activeMask x sp p.toNat _)
  refine ⟨_, ws, _, ?_, (flagRegion_rest _ _ _ _ _).trans hk1, hk3.of_marked, hk2, ?_⟩
  · rw [hi, onIssuer_of_cur _ h.cur, laneWord, h.under_poisoned hm hk hp hl]
  · rw [Group.after_marked]
    exact hy _ (Group.after_shape ..).1 (Group.after_shape ..).2

end

theorem poisonedPredicateWords : PoisonedPredicateWordsStated := by
  intro s c x sp t w v kw xm m lit k tok h he hv hvd hkw hkd hm hk hp hl acts
  have act {i : Instr} {late : Bool} {d : VDest} (hi : LaneForm i w.pred late d) (hd : d.file = .v ∨ d.file = .p) (h7 : d.file = .p → ∀ j < d.n, d.reg + j ≠ 7)
      (hb : d.file = .v → InBudget x t d.reg d.n) : acts i late d := by
    obtain ⟨rsv, fn, e⟩ := hi
    obtain ⟨u, ws, y, hu, hr, hw, hy, hf⟩ := h.poisoned_results he hm hk hp hl (e s) hd h7 hb
    exact ⟨u, ws, _, y, hu, hr, hw, hy, hf⟩
  refine ⟨fun hb e he' => ?_, fun hb i hi => ?_, fun h7 i hi => ?_⟩
  · exact act (oneRegForms_laneForm hv hvd hkw hkd xm m lit e he') (.inl rfl) (fun e => nomatch e) fun _ => hb
  · exact act (pairForms_laneForm w xm m i hi) (.inl rfl) (fun e => nomatch e) fun _ => hb
  · exact act (predForms_laneForm hv hvd h7 xm i hi) (.inr rfl) (fun _ j (hj : j < 1) => by show w.d.toNat % 8 + j ≠ 7; omega) (fun e => nomatch e)

/-! ### An addition whose predicate is poisoned -/

theorem WritesOf.of_leaves {x : Group} {on : Nat → Bool} {d : VDest} {res res' : Nat → LVal} {ws : List RegWrite} (h : WritesOf x on d res ws)
    (hr : ∀ j k v, k < d.n → Leaves (res j) k v → Leaves (res' j) k v) : WritesOf x on d res' ws := by
  refine ⟨fun f r j hj hw => hr _ _ _ ?_ (h.dest f r j hj hw), h.rest, h.files⟩
  simp only [written, Bool.and_eq_true, beq_iff_eq, decide_eq_true_eq] at hw
  omega

/-- A source with no modifiers is the lane's own register (R75, R131). -/
theorem Issuing.src_plain {s : State} {c : Cur} {x : Group} {sp : Split} {t : Team} (h : Issuing s c x sp t) (m : Mask) (who : Who) (r i : Nat) :
    ({ wxOf c s with act := m } : Wx).src plainX .i32 who r i = laneData x t r i := by
  have hb : ({ wxOf c s with act := m } : Wx).budget = budget t.desc x.role := by rw [h.wx]; rfl
  have hr : ({ wxOf c s with act := m } : Wx).rdV who.opnd r i false = x.rdV r i := by simp [Wx.rdV, h.wx, h.settled]
  have hl : ({ wxOf c s with act := m } : Wx).lane 1 who.opnd r i false = laneData x t r i := by
    simp only [Wx.lane, hb, hr, laneData, asLVal, ← not_le, ite_not, beq_self_eq_true, if_true]
  simp only [Wx.src, plainX, Kind.regs, hl]
  cases laneData x t r i <;> cases who <;> simp

theorem sext_emod (n a : Nat) : sext n a % (2 ^ n : Nat) = (a : Int) % (2 ^ n : Nat) := by
  unfold sext
  simp only
  split <;> simp

theorem intNarrow_sum (a b : Nat) : intNarrow 32 false false (operandInt 32 false a + operandInt 32 false b) = (a + b) % 2 ^ 32 := by
  simp only [intNarrow, operandInt, wrap, Bool.false_eq_true, if_false]
  rw [Int.add_emod, sext_emod, sext_emod, ← Int.add_emod]
  rfl

theorem leaves_val_mod (n : Nat) (v : Val) : Leaves (.val (n % 2 ^ 32)) 0 v ↔ Leaves (.val n) 0 v := by
  have e : BitVec.ofNat 32 (n % 2 ^ 32) = BitVec.ofNat 32 n := BitVec.eq_of_toNat_eq (by simp)
  simp only [Leaves, Nat.mul_zero, Nat.shiftRight_zero, e]

theorem leaves_lift2_val_mod (a b : LVal) (f : Nat → Nat → Nat) (v : Val) :
    Leaves (lift2 a b fun m n => .val (f m n % 2 ^ 32)) 0 v ↔ Leaves (lift2 a b fun m n => .val (f m n)) 0 v := by
  cases a with
  | val m =>
    cases b with
    | val n => exact leaves_val_mod _ v
    | _ => exact Iff.rfl
  | _ => exact Iff.rfl

theorem vadd_plain (w : WA) (s : State) : exec (.vadd w none) s = onIssuer s (laneWord w.pred fun wx => finishLanes false ⟨.v, w.d.toNat, 1⟩ false
    (fun i => lift2 (wx.src plainX .i32 .a w.a.toNat i) (wx.src plainX .i32 .b w.b.toNat i) fun a b => .val ((a + b) % 2 ^ 32)) wx) := by
  simp only [← intNarrow_sum]
  rfl

theorem poisonedPredicate : PoisonedPredicateStated := by
  intro s c x sp t w k tok h he hb hm hk hp hl
  obtain ⟨u, ws, y, hu, hr, hw, hy, hf⟩ := h.poisoned_results he hm hk hp hl (vadd_plain w s) (.inl rfl) (fun e => nomatch e) fun _ => hb
  refine ⟨u, ws, hu, hr, hw.of_leaves fun j k v (hk : k < 1) hv => ?_, y, hy, hf⟩
  obtain rfl : k = 0 := by omega
  simp only [h.src_plain, Bool.false_eq_true, if_false] at hv
  exact (leaves_lift2_val_mod _ _ (· + ·) v).1 hv

/-- Settles O7: the lane words are one form, whose writes, budget and predicate are treated once. -/
theorem poisonedUse : Obligations.PoisonedUse := ⟨readsTooClose, outOfBudgetDestination, poisonedPredicateWords, poisonedPredicate⟩

end Sys2Proof.Machine
end

section
/-! PROOFS. Joins (R78, R101 to R103, R112, R132). -/
namespace Sys2Proof.Machine

/-! ### A state in which a group has become another -/

/-- The state with group `g` become `x`. -/
def State.withGrp (s : State) (g : Nat) (x : Group) : State := { s with groups := Map.put s.groups g x }

@[simp] theorem State.grp_withGrp (s : State) (g : Nat) (x : Group) : (s.withGrp g x).grp g = x := by
  simp [State.withGrp, State.grp]

@[simp] theorem State.updGrp_withGrp (s : State) (g : Nat) (x : Group) (f : Group → Group) : (s.withGrp g x).updGrp g f = s.withGrp g (f x) := by
  rw [updGrp_of_find (x := x) (by simp [State.withGrp])]
  simp only [State.withGrp, Map.put_put]

@[simp] theorem State.withGrp_time (s : State) (g : Nat) (x : Group) : (s.withGrp g x).time = s.time := rfl

theorem updGrp_eq_withGrp {s : State} {g : Nat} {x : Group} (h : Map.find s.groups g = some x) (f : Group → Group) : s.updGrp g f = s.withGrp g (f x) :=
  updGrp_of_find h f

/-! ### Splits and entries where nothing is spilled and no frame is held (R101 to R103) -/

@[simp] theorem Group.setSplit_pool (x : Group) (k : Nat) (sp : Option Split) : (x.setSplit k sp).pool = x.pool := by
  unfold Group.setSplit
  split <;> rfl

@[simp] theorem Group.setSplit_newest (x : Group) (k : Nat) (sp : Option Split) : (x.setSplit k sp).newest = x.newest := by
  unfold Group.setSplit
  split <;> rfl

@[simp] theorem Group.setSplit_ended (x : Group) (k : Nat) (sp : Option Split) : (x.setSplit k sp).ended = x.ended := by
  unfold Group.setSplit
  split <;> rfl

@[simp] theorem Group.setSplit_width (x : Group) (k : Nat) (sp : Option Split) : (x.setSplit k sp).width = x.width := by
  unfold Group.setSplit
  split <;> rfl

@[simp] theorem Group.drop_none (x : Group) : x.drop none = x := rfl

/-- With no spilled split, no slot is refilled (R103). -/
theorem refill_withGrp {s : State} {g : Nat} {x : Group} (h : x.newest = none) : refill (s.withGrp g x) g = s.withGrp g x := by
  have hn : x.takeNewest = none := by rw [Group.takeNewest, h]
  simp only [refill, State.grp_withGrp, hn, ite_self]

/-- A new split takes slot 0 where that is free (R101, log entry 50). -/
theorem placeSplit_withGrp {s : State} {g : Nat} {x : Group} (k : Nat) (sp : Split) (he : x.ended = false) (h0 : x.s0 = none) :
    placeSplit (s.withGrp g x) g k sp = s.withGrp g (x.setSplit 0 (some { sp with took := s.time, idle := s.time })) := by
  simp only [placeSplit, State.grp_withGrp, State.updGrp_withGrp, State.withGrp_time]
  rw [if_neg (by rw [he]; exact Bool.false_ne_true), if_pos (by rw [h0]; rfl)]
  rfl

section
variable {s : State} {g : Nat} {x : Group} {e : Nat} {ex ar : Mask} {rpc rhdr : BitVec 64} {fmt : Word} {parent frl : Option Nat} {depth : Nat} {callre : Bool}
  {born : Nat} {cont : Option Parked} (k : Nat) (join : Bool)

/-- An entry that lanes are still owed to goes on waiting (R102). -/
theorem completeEntry_pending (hp : Map.find x.pool e = some (.reconv ex ar rpc rhdr fmt parent frl depth callre born cont)) (hne : ex ≠ ar) :
    completeEntry (s.withGrp g x) g k e join = s.withGrp g x := by
  simp only [completeEntry, State.grp_withGrp, hp]
  rw [if_pos (bne_iff_ne.2 hne)]

/-- An entry whose lanes have all arrived gives way to its merged split (R102). -/
theorem completeEntry_merged {sp : Split} (hp : Map.find x.pool e = some (.reconv ex ex rpc rhdr fmt parent none depth callre born cont)) (h0 : ex ≠ 0)
    (hm : mergedSplit (.reconv ex ex rpc rhdr fmt parent none depth callre born cont) join s.time (s.time + 10 * (x.width / 32 + 5)) = some sp)
    (he : x.ended = false) (hs : x.s0 = none) :
    completeEntry (s.withGrp g x) g k e join =
      s.withGrp g (((x.joinOrder ex).setSplit 0 (some { sp with took := s.time, idle := s.time })).freeAt e) := by
  have hz : (ex == 0) = false := beq_eq_false_iff_ne.2 h0
  have hj : ((x.joinOrder ex).setSplit 0 (some { sp with took := s.time, idle := s.time })).ended = false := he
  simp only [completeEntry, State.grp_withGrp, hp, State.landing, State.withGrp_time, hm, bne_self_eq_false, Bool.false_eq_true, if_false, State.updGrp_withGrp,
    Group.incRef, hz, placeSplit_withGrp (x := x.joinOrder ex) k sp he hs, hj, Group.drop_none]

end

theorem landing_eq {s : State} {g : Nat} {x : Group} (h : Map.find s.groups g = some x) : s.landing g = s.time + 10 * (x.width / 32 + 5) := by
  rw [State.landing, State.grp_of_find h]

/-! ### JOIN -/

section
variable {s : State} {c : Cur} {x : Group} {sp : Split} {t : Team} (h : Issuing s c x sp t)
include h

theorem Issuing.spl_eq : s.spl c.gid c.slot = sp := by
  simp [State.spl, State.grp_of_find h.group, h.split]

theorem Issuing.joinAt_eq (hf : sp.frl = none) (e : Nat) (p : PoolEntry) :
    joinAt s c e p = refill (completeEntry (s.withGrp c.gid ({ x with pool := Map.put x.pool e (p.arrive sp (c.next, c.nextHdr)) }.setSplit c.slot none))
      c.gid c.slot e true) c.gid := by
  simp only [joinAt, h.spl_eq, hf, Group.drop_none, updGrp_eq_withGrp h.group]

/-- A `JOIN` at the header of the entry that its split is owed to arrives there (R102, R112). -/
theorem Issuing.join_arrives {w : WC} (hw : w.pred = 7) {e : Nat} {ex ar : Mask} {rhdr : BitVec 64} {fmt : Word} {parent frl : Option Nat} {born : Nat}
    {cont : Option Parked} (hr : sp.rel = some e) (hp : Map.find x.pool e = some (.reconv ex ar c.hdr rhdr fmt parent frl sp.depth false born cont))
    (hpc : c.pc = c.hdr + 4) : exec (.join w) s = .next (joinAt s c e (.reconv ex ar c.hdr rhdr fmt parent frl sp.depth false born cont)) := by
  simp [exec, execJoin, onIssuer_of_cur _ h.cur, hw, h.spl_eq, hr, State.grp_of_find h.group, hp, hpc]

/-- A settled split brings no distance of its own to what has arrived (R78). -/
theorem Issuing.parked_join (cont : Option Parked) (next : BitVec 64 × BitVec 64) :
    let was : Parked := cont.getD ⟨next.1, next.2, 0, 0, []⟩
    let dist := max was.dist sp.dist
    Parked.join cont sp next = { was with n := was.n + 1, dist := dist, haz := was.haz.map (fun h => { h with at_ := h.at_ + (dist - was.dist) }) } := by
  simp [Parked.join, h.settled]

end

/-- The split that a `JOIN` forms: of two or more arrivals no distance is owed but to other splits' words in lanes outside (R78, R132). -/
theorem mergedSplit_join (ex : Mask) (rpc rhdr : BitVec 64) (fmt : Word) (parent : Option Nat) (depth born : Nat) (go : Parked) (now land : Nat) :
    mergedSplit (.reconv ex ex rpc rhdr fmt parent none depth false born (some go)) true now land =
      some { Split.blank with pc := go.pc, hdr := go.hdr, mask := ex, depth := depth, fmt := fmt, rel := parent, since := now, due := land, ran := now,
                              dist := if 2 ≤ go.n then 0 else go.dist,
                              haz := if 2 ≤ go.n then (go.haz.filter fun h => h.foreign && h.lanes &&& ~~~ex != 0).map (fun h => { h with at_ := 0 }) else go.haz } := by
  by_cases hn : 2 ≤ go.n
  · have h1 : ¬go.n ≤ 1 := by omega
    simp only [mergedSplit, Option.getD_some, Bool.true_and, hn, decide_true, if_true, Bool.not_true, Bool.false_eq_true, if_false, Option.some.injEq]
    congr 3
    funext r
    cases r.foreign <;> simp [h1]
  · have h1 : go.n < 2 := by omega
    simp [mergedSplit, hn, Nat.le_of_lt_succ h1]
    rfl

/-- Freeing an entry of the area is independent of the slots. -/
theorem Group.freeAt_merged (x : Group) (e : Nat) (p : PoolEntry) (m : Mask) {k : Nat} (hk : k < 2) (sp : Option Split) :
    ((({ x with pool := Map.put x.pool e p }.setSplit k none).joinOrder m).setSplit 0 sp).freeAt e =
      (({ x with pool := Map.put x.pool e (.free x.ssfree), ssfree := some e }.joinOrder m).setSplit k none).setSplit 0 sp := by
  interval_cases k <;> simp [Group.freeAt, Group.setSplit, Group.joinOrder, Map.put_put]

theorem Lone.s0_parked {x : Group} {c : Cur} {sp : Split} (hl : Lone x c sp) (y : List (Nat × PoolEntry)) : ({ x with pool := y }.setSplit c.slot none).s0 = none := by
  obtain ⟨hs, ho, -, -, -, -⟩ := hl
  interval_cases c.slot
  · rfl
  · exact ho

/-- Settles O24: a `JOIN` is an arrival at its entry, which stays pending or gives way to its merged split; with nothing spilled and no frame, nothing else moves. -/
theorem joins : Obligations.Joins := by
  intro s c x sp t w h
  refine ⟨fun hw hr => ?_, fun hw hp => ?_, fun e ex ar rhdr fmt parent frl born cont hw hr hp hpc hl => ⟨fun hne => ?_, fun heq h0 hfr => ?_⟩⟩
  · simp [exec, execJoin, onIssuer_of_cur _ h.cur, hw, h.spl_eq, hr]
  · simp only [ReservedUse, exec, execJoin, onIssuer_of_cur _ h.cur, bne_iff_ne, ne_eq, hw, not_false_eq_true, if_true, h.laneWord_eq _ hp]
    rfl
  · rw [Becomes, h.join_arrives hw hr hp hpc, h.joinAt_eq hl.frame, PoolEntry.arrive, h.parked_join,
      completeEntry_pending _ _ (by rw [Group.setSplit_pool]; exact Map.find_put_self ..) hne.symm, refill_withGrp (by rw [Group.setSplit_newest]; exact hl.newest)]
    rfl
  · subst heq hfr
    rw [Becomes, h.join_arrives hw hr hp hpc, h.joinAt_eq hl.frame, PoolEntry.arrive, h.parked_join,
      completeEntry_merged _ _ (by rw [Group.setSplit_pool]; exact Map.find_put_self ..) h0 (mergedSplit_join ..) (by rw [Group.setSplit_ended]; exact hl.live)
        (hl.s0_parked _), Group.freeAt_merged _ _ _ _ hl.slot, refill_withGrp (by simp [Group.joinOrder, hl.newest]), landing_eq h.group, Group.setSplit_width]
    rfl

end Sys2Proof.Machine
end

section
/-! PROOFS. Branches (R98 to R101, R109, R110): the lanes of a mask by target, entries of the split-stack area, and the place of a split that transfers. -/
namespace Sys2Proof.Machine

/-! ### Masks and their lanes -/

theorem maskOf_lanesOf (m : Mask) : maskOf (lanesOf m) = m := by
  refine BitVec.eq_of_getLsbD_eq fun i hi => ?_
  refine (inMask_maskOf (lanesOf m) i hi).trans ?_
  simp [hi, inMask]

theorem lanesOf_zero : lanesOf 0 = [] := List.filter_eq_nil_iff.2 (by simp)

theorem lanesOf_ne_nil {m : Mask} (hm : m ≠ 0) : lanesOf m ≠ [] := fun h => hm (by rw [← maskOf_lanesOf m, h]; rfl)

theorem getLsbD_activeMask (x : Group) (sp : Split) (p : Nat) {i : Nat} (hi : i < 128) : (activeMask x sp p).getLsbD i = active x sp p i :=
  (inMask_maskOf _ i hi).trans (by simp [hi])

/-- The lanes of a split that a word does not act on are some, unless it acts on all. -/
theorem rest_ne_zero {x : Group} {sp : Split} {p : Nat} (h : activeMask x sp p ≠ sp.mask) : sp.mask &&& ~~~activeMask x sp p ≠ 0 := by
  refine fun hz => h (BitVec.eq_of_getLsbD_eq fun i hi => ?_)
  have hi0 : (sp.mask &&& ~~~activeMask x sp p).getLsbD i = false := by rw [hz]; simp
  rw [BitVec.getLsbD_and, BitVec.getLsbD_not, getLsbD_activeMask x sp p hi, decide_eq_true hi, Bool.true_and] at hi0
  rw [getLsbD_activeMask x sp p hi]
  cases hm : sp.mask.getLsbD i with
  | false => simp [active, inMask, hm]
  | true => simpa [hm] using hi0

/-! ### The lanes of a word by their targets (R101) -/

theorem eraseDups_map_const {α β : Type} [BEq β] [LawfulBEq β] {l : List α} (h : l ≠ []) (b : β) : (l.map fun _ => b).eraseDups = [b] := by
  obtain ⟨a, l, rfl⟩ := List.exists_cons_of_ne_nil h
  rw [List.map_cons, List.eraseDups_cons, List.filter_eq_nil_iff.2 (by simp)]
  rfl

theorem byTarget_zero (t : BitVec 64) : byTarget ((lanesOf 0).map fun i => (i, t)) = [] := by
  rw [lanesOf_zero]
  rfl

theorem byTarget_one {m : Mask} (hm : m ≠ 0) (t : BitVec 64) : byTarget ((lanesOf m).map fun i => (i, t)) = [(t, m)] := by
  have hl : ((lanesOf m).map fun i => (i, t)).map (·.2) = (lanesOf m).map fun _ => t := List.map_map
  have hf : ((lanesOf m).map fun i => (i, t)).filter (fun e => e.2 == t) = (lanesOf m).map fun i => (i, t) := List.filter_eq_self.2 fun e he => by
    obtain ⟨i, -, rfl⟩ := List.mem_map.1 he
    exact beq_self_eq_true t
  rw [byTarget, hl, eraseDups_map_const (lanesOf_ne_nil hm), List.map_singleton, hf, List.map_map]
  simp [Function.comp_def, maskOf_lanesOf]

/-! ### Slots -/

theorem Group.setSplit_setSplit (x : Group) (k : Nat) (a b : Option Split) : (x.setSplit k a).setSplit k b = x.setSplit k b := by
  unfold Group.setSplit
  split <;> rfl

theorem Group.split_setSplit_other (x : Group) {k : Nat} (hk : k < 2) (a : Option Split) : (x.setSplit k a).split (1 - k) = x.split (1 - k) := by
  interval_cases k <;> rfl

@[simp] theorem State.find_withGrp (s : State) (g : Nat) (x : Group) : Map.find (s.withGrp g x).groups g = some x := Map.find_put_self ..

theorem State.spl_of_split {s : State} {g k : Nat} {x : Group} {sp : Split} (hx : Map.find s.groups g = some x) (hs : x.split k = some sp) : s.spl g k = sp := by
  rw [State.spl, State.grp_of_find hx, hs]
  rfl

/-- The group with one split in slot `k` and another in the other slot. -/
def Group.parted (x : Group) (k : Nat) (stay new : Split) : Group := (x.setSplit k (some stay)).setSplit (1 - k) (some new)

@[simp] theorem Group.parted_pool (x : Group) (k : Nat) (stay new : Split) : (x.parted k stay new).pool = x.pool := by simp [Group.parted]
@[simp] theorem Group.parted_ended (x : Group) (k : Nat) (stay new : Split) : (x.parted k stay new).ended = x.ended := by simp [Group.parted]
@[simp] theorem Group.parted_width (x : Group) (k : Nat) (stay new : Split) : (x.parted k stay new).width = x.width := by simp [Group.parted]
@[simp] theorem Group.split_parted (x : Group) (k : Nat) (stay new : Split) : (x.parted k stay new).split (1 - k) = some new := by simp [Group.parted]

/-- A split as it takes a slot. -/
def Split.placed (sp : Split) (now : Nat) : Split := { sp with took := now, idle := now }

/-- A new split beside the one that stays takes the other slot where that is free (R101). -/
theorem placeSplit_parted (s : State) (g : Nat) {x : Group} {k : Nat} (hk : k < 2) (he : x.ended = false) (ho : x.split (1 - k) = none) (stay new : Split) :
    placeSplit (s.withGrp g (x.setSplit k (some stay))) g k new = s.withGrp g (x.parted k stay (new.placed s.time)) := by
  have hne : ¬(x.setSplit k (some stay)).ended = true := by rw [Group.setSplit_ended, he]; exact Bool.false_ne_true
  simp only [placeSplit, State.grp_withGrp, State.updGrp_withGrp, State.withGrp_time]
  rw [if_neg hne]
  interval_cases k
  · have h1 : x.s1 = none := ho
    rw [if_neg (by exact Bool.false_ne_true), if_pos (by exact congrArg Option.isNone h1)]
    rfl
  · have h0 : x.s0 = none := ho
    rw [if_pos (by exact congrArg Option.isNone h0)]
    rfl

@[simp] theorem State.withGrp_withGrp (s : State) (g : Nat) (x y : Group) : (s.withGrp g x).withGrp g y = s.withGrp g y := by
  simp only [State.withGrp, Map.put_put]

/-- When a transfer lands is a matter of the group's width alone (R109). -/
theorem landing_withGrp {s : State} {g : Nat} {x y : Group} (hx : Map.find s.groups g = some x) (hw : y.width = x.width) : (s.withGrp g y).landing g = s.landing g := by
  rw [landing_eq (State.find_withGrp ..), landing_eq hx, hw, State.withGrp_time]

/-! ### Entries of the split-stack area (R99, R107) -/

/-- The group with the next entry of its area filled. -/
def Group.pushed (x : Group) (e : PoolEntry) : Group := { x with sshw := x.sshw + 1, pool := Map.put x.pool x.sshw e }

/-- The group with one more reconvergence entry in its count. -/
def Group.bearing (x : Group) : Group := { x with born := x.born + 1 }

/-- Whether an entry of the area can be written is a matter of memory and of the group's place alone. -/
theorem areaFail_withGrp (s : State) (g : Nat) (y x : Group) (e : Nat) (ht : y.team = x.team) (hc : y.ctx = x.ctx) (hs : y.slot = x.slot) :
    areaFail (s.withGrp g y) y e = areaFail s x e := by
  unfold areaFail areaAddr State.ctxOf State.teamOf
  rw [ht, hc, hs]
  rfl

theorem alloc_pushed {s : State} {g : Nat} {x : Group} {t : Team} {n : Nat} (hx : Map.find s.groups g = some x) (ht : Map.find s.teams x.team = some t)
    (hr : AreaRoom s x t (n + 1)) (pc : BitVec 64) (lane : Nat) (e : PoolEntry) : alloc s g pc lane e = (s.withGrp g (x.pushed e), some x.sshw) := by
  obtain ⟨hf, hroom, ha⟩ := hr
  have hs : ((s.teamOf x).map (·.desc.sspg)).getD 0 = t.desc.sspg := by rw [State.teamOf, ht]; rfl
  have hat : x.allocAt t.desc.sspg = some (x.sshw, { x with sshw := x.sshw + 1 }) := by
    simp only [Group.allocAt, hf]
    rw [if_pos (by omega)]
  have h0 : areaFail s x x.sshw = none := ha 0 (by omega)
  simp only [alloc, State.grp_of_find hx, hs, hat, h0, updGrp_eq_withGrp hx, Group.pushed]

/-- After one entry there is room for the rest. -/
theorem AreaRoom.pushed {s : State} {g : Nat} {x : Group} {t : Team} {n : Nat} (hr : AreaRoom s x t (n + 1)) (e : PoolEntry) :
    AreaRoom (s.withGrp g (x.pushed e).bearing) (x.pushed e).bearing t n := by
  obtain ⟨hf, hroom, ha⟩ := hr
  refine ⟨hf, ?_, fun k hk => ?_⟩
  · show x.sshw + 1 + n ≤ _
    omega
  · rw [areaFail_withGrp s g (x.pushed e).bearing x _ rfl rfl rfl]
    show areaFail s x (x.sshw + 1 + k) = none
    rw [Nat.add_assoc, Nat.add_comm 1 k]
    exact ha (k + 1) (by omega)

/-! ### A split divides (R101) -/

/-- The lanes of a mask, each with the one target of the word. -/
def towards (m : Mask) (a : BitVec 64) : List (Nat × BitVec 64) := (lanesOf m).map fun i => (i, a)

/-- The group in which the lanes `m` of the split in slot `k` have gone to `a` in the other slot, and the rest stay. -/
def Group.divided (x : Group) (k : Nat) (sp : Split) (a : BitVec 64) (m : Mask) (land now : Nat) : Group :=
  x.parted k { sp with mask := sp.mask &&& ~~~m } ((sp.goto a m land).placed now)

/-- What a divergence to one target does once the entry it may name stands (R101). -/
def divide (s : State) (g k : Nat) (a : BitVec 64) (m : Mask) (fmt : Word) : State :=
  let sp := s.spl g k
  placeSplit (s.updGrp g fun x => (x.incRef sp.frl).setSplit k (some { sp with mask := sp.mask &&& ~~~m })) g k { sp.goto a m (s.landing g) with fmt := fmt }

theorem divide_eq {s : State} {g k : Nat} {x : Group} {sp : Split} (hx : Map.find s.groups g = some x) (hs : x.split k = some sp) (hf : sp.frl = none) (hk : k < 2)
    (ho : x.split (1 - k) = none) (he : x.ended = false) (a : BitVec 64) (m : Mask) :
    divide s g k a m sp.fmt = s.withGrp g (x.divided k sp a m (s.landing g) s.time) := by
  have hi : x.incRef sp.frl = x := by rw [hf]; rfl
  simp only [divide, State.spl_of_split hx hs, updGrp_eq_withGrp hx, hi]
  exact placeSplit_parted s g hk he ho _ _

theorem branch_nowhere (s : State) (c : Cur) (a : BitVec 64) (rp : Option (BitVec 64)) : branch s c (towards 0 a) rp = s := by
  simp only [branch, towards, byTarget_zero]

theorem Mask.zero_or (m : Mask) : (0 : Mask) ||| m = m := BitVec.zero_or

/-- Lanes that have one address at which code can stand all go there, and no token is flagged (R98, R110). -/
theorem laneTargets_towards {wx : Wx} {r : Nat} {a : BitVec 64} (hv : ∀ i ∈ wx.lanes, wx.lane 2 0 r i false = .val a.toNat) (h4 : a.toNat % 4 = 0)
    (h57 : a.toNat < 2 ^ 57) (s : State) : laneTargets wx none r s = (s, towards wx.act a) := by
  have hrs : (wx.lanes.map fun i => (i, wx.lane 2 0 r i false)) = (lanesOf wx.act).map fun i => (i, .val a.toNat) :=
    List.map_congr_left fun i hi => by rw [hv i hi]
  have hlt : a.toNat < 144115188075855872 := h57
  have hnone : (lanesOf wx.act).findSome? (fun _ => (none : Option (Nat × Word))) = none := List.findSome?_eq_none_iff.2 fun _ _ => rfl
  have hgood : (lanesOf wx.act).find? (fun _ => false) = none := List.find?_eq_none.2 fun _ _ => Bool.false_ne_true
  simp only [laneTargets, hrs]
  simp [towards, List.findSome?_map, List.find?_map, Function.comp_def, h4, hlt, hnone, hgood]

theorem Lone.incRef {x : Group} {c : Cur} {sp : Split} (hl : Lone x c sp) (y : Group) : y.incRef sp.frl = y := by
  rw [hl.frame]
  rfl

section
variable {s : State} {c : Cur} {x : Group} {sp : Split} {t : Team} (h : Issuing s c x sp t)
include h

theorem Issuing.branch_whole (hm : sp.mask ≠ 0) (a : BitVec 64) (rp : Option (BitVec 64)) :
    branch s c (towards sp.mask a) rp = s.withGrp c.gid (x.setSplit c.slot (some (sp.goto a sp.mask (s.landing c.gid)))) := by
  simp only [branch, towards, byTarget_one hm, h.spl_eq, beq_self_eq_true, if_true, State.updSpl, updGrp_eq_withGrp h.group, Group.updSplit, h.split, Option.map_some]

theorem Issuing.branch_part {m : Mask} (h0 : m ≠ 0) (hm : m ≠ sp.mask) (a : BitVec 64) (rp : Option (BitVec 64)) :
    branch s c (towards m a) rp = diverge s c [(a, m)] rp := by
  simp only [branch, towards, byTarget_one h0, h.spl_eq, beq_iff_eq, hm, if_false]

/-- With no reconvergence entry named, the lanes that transfer are owed to none. -/
theorem Issuing.diverge_unnamed {m : Mask} (hm : sp.mask &&& ~~~m ≠ 0) (a : BitVec 64) : diverge s c [(a, m)] none = divide s c.gid c.slot a m sp.fmt := by
  simp only [diverge, divide, h.spl_eq, h.fmt_eq, List.foldl_cons, List.foldl_nil, Mask.zero_or, bne_iff_ne, ne_eq, hm, not_false_eq_true, if_true, Bool.not_true,
    Bool.false_eq_true, if_false, List.map_cons, List.map_nil, placeAll]

/-- With a reconvergence entry named, both parts are owed to a new one (R101). -/
theorem Issuing.diverge_named (hl : Lone x c sp) (hr : AreaRoom s x t 1) {m : Mask} (hm : sp.mask &&& ~~~m ≠ 0) (a rp : BitVec 64) :
    let owed := PoolEntry.reconv sp.mask 0 rp rp sp.fmt sp.rel none sp.depth false x.born none
    diverge s c [(a, m)] (some rp) =
      divide (s.withGrp c.gid ((x.pushed owed).bearing.setSplit c.slot (some { sp with rel := some x.sshw }))) c.gid c.slot a m sp.fmt := by
  intro owed
  have howed : PoolEntry.reconv sp.mask 0 rp rp sp.fmt sp.rel sp.frl sp.depth false x.born none = owed := by rw [hl.frame]
  have hrel : (({ x.pushed owed with born := (x.pushed owed).born + 1 } : Group).incRef sp.frl).updSplit c.slot (fun y => { y with rel := some x.sshw }) =
      (x.pushed owed).bearing.setSplit c.slot (some { sp with rel := some x.sshw }) := by
    have hsplit : (x.pushed owed).bearing.split c.slot = some sp := h.split
    rw [hl.incRef]
    show (x.pushed owed).bearing.updSplit c.slot _ = _
    rw [Group.updSplit, hsplit]
    rfl
  have hspl : (s.withGrp c.gid ((x.pushed owed).bearing.setSplit c.slot (some { sp with rel := some x.sshw }))).spl c.gid c.slot = { sp with rel := some x.sshw } :=
    State.spl_of_split (State.find_withGrp ..) (Group.split_setSplit_self ..)
  simp only [diverge, h.spl_eq, h.fmt_eq, Option.getD_some, State.grp_of_find h.group, howed, alloc_pushed h.group h.team hr, State.updGrp_withGrp, hrel, divide, hspl, List.foldl_cons, List.foldl_nil, Mask.zero_or, bne_iff_ne, ne_eq, hm, not_false_eq_true, if_true, Bool.not_true,
    Bool.false_eq_true, if_false, List.map_cons, List.map_nil, placeAll]

/-! ### The words of a branch (R110) -/

theorem Issuing.bra_eq {w : WD} (hc : CleanPred x sp w.pred.toNat) (l : ReconvLit) :
    exec (.bra w l) s = .next (if 2 ≤ l.rk.toNat then malformedNoDest s c.gid c.pc (activeMask x sp w.pred.toNat)
      else branch s c (towards (activeMask x sp w.pred.toNat) (offTarget c.pc w.off)) (reconvOf c.pc l)) := by
  show execBra w l s = _
  rw [execBra, onIssuer_of_cur _ h.cur, h.laneWord_eq _ hc]
  rfl

theorem Issuing.bru_eq {w : WD} (hq : qualified x w.pred.toNat) : exec (.bru w) s = .next (branch s c (towards sp.mask (offTarget c.pc w.off)) none) := by
  show execBru w s = _
  rw [execBru, onIssuer_of_cur _ h.cur, scalarWord_qualified h _ hq, h.wx]
  rfl

/-- Two lane registers that hold one address in some lanes. -/
def HoldsPair (x : Group) (on : Nat → Bool) (r : Nat) (a : BitVec 64) : Prop :=
  ∀ j, on j = true → x.rdV r j = ⟨a.extractLsb' 0 32, false⟩ ∧ x.rdV (r + 1) j = ⟨a.extractLsb' 32 32, false⟩

theorem Issuing.lane_pair {m : Mask} {r i : Nat} {a : BitVec 64} (hb : InBudget x t r 2) (hlo : x.rdV r i = ⟨a.extractLsb' 0 32, false⟩)
    (hhi : x.rdV (r + 1) i = ⟨a.extractLsb' 32 32, false⟩) : ({ wxOf c s with act := m } : Wx).lane 2 0 r i false = .val a.toNat := by
  have hbud : ¬({ wxOf c s with act := m } : Wx).budget < r + 2 := by rw [h.wx]; exact not_lt.2 hb
  have hrd : ∀ o r, ({ wxOf c s with act := m } : Wx).rdV o r i false = x.rdV r i := fun o r => by simp [Wx.rdV, h.wx, h.settled]
  have hval : (a.extractLsb' 0 32).toNat + (a.extractLsb' 32 32).toNat * 2 ^ 32 = a.toNat := by
    have := a.isLt
    simp only [BitVec.extractLsb'_toNat, Nat.shiftRight_eq_div_pow]
    omega
  simp only [Wx.lane, hbud, if_false, hrd, hlo, hhi, Bool.false_eq_true, beq_iff_eq, OfNat.ofNat_ne_one, hval]

theorem Issuing.targetRsv_iff {w : WB} : targetRsv (wxOf c s) w = true ↔ w.d ≠ 0 ∨ w.func ≠ 0 ∨ ¬InBudget x t w.a.toNat 2 := by
  have hb : (wxOf c s).budget = budget t.desc x.role := by rw [h.wx]; rfl
  simp only [targetRsv, hb, InBudget, Bool.or_eq_true, bne_iff_ne, decide_eq_true_eq, or_assoc, not_le]

/-- A word with a target pair whose lanes hold one address acts on them (R110, R111). -/
theorem Issuing.targetWord_goes {w : WB} (hc : CleanPred x sp w.pred.toNat) (hd : w.d = 0) (hf : w.func = 0) (hb : InBudget x t w.a.toNat 2) {a : BitVec 64}
    (h4 : a.toNat % 4 = 0) (h57 : a.toNat < 2 ^ 57) (hp : HoldsPair x (active x sp w.pred.toNat) w.a.toNat a) (f : Wx → List (Nat × BitVec 64) → State → State) :
    targetWord w false f c s = f { wxOf c s with act := activeMask x sp w.pred.toNat } (towards (activeMask x sp w.pred.toNat) a) s := by
  have hr : (false || targetRsv (wxOf c s) w) = false := Bool.eq_false_iff.2 fun e => by
    rcases h.targetRsv_iff.1 e with e | e | e
    · exact e hd
    · exact e hf
    · exact e hb
  have hv : ∀ i ∈ lanesOf (activeMask x sp w.pred.toNat), ({ wxOf c s with act := activeMask x sp w.pred.toNat } : Wx).lane 2 0 w.a.toNat i false = .val a.toNat :=
    fun i hi => by
      obtain ⟨h128, hin⟩ := (mem_lanesOf _ _).1 hi
      obtain ⟨hlo, hhi⟩ := hp i ((getLsbD_activeMask x sp _ h128).symm.trans hin)
      exact h.lane_pair hb hlo hhi
  have ht := laneTargets_towards (wx := { wxOf c s with act := activeMask x sp w.pred.toNat }) hv h4 h57 s
  simp only [targetWord, hr, Bool.false_eq_true, if_false, h.under_clean _ hc, ht]

/-- A reserved use of a word with a target pair (R88, R110, R111). -/
theorem Issuing.targetWord_reserved {w : WB} (hc : CleanPred x sp w.pred.toNat) {rsv : Bool} (hr : rsv = true ∨ w.d ≠ 0 ∨ w.func ≠ 0 ∨ ¬InBudget x t w.a.toNat 2)
    (f : Wx → List (Nat × BitVec 64) → State → State) : targetWord w rsv f c s = malformedNoDest s c.gid c.pc (activeMask x sp w.pred.toNat) := by
  have hrsv : (rsv || targetRsv (wxOf c s) w) = true := by rwa [Bool.or_eq_true, h.targetRsv_iff]
  simp only [targetWord, hrsv, if_true, h.laneWord_eq _ hc]
  rfl

theorem Issuing.brx_goes {w : WB} {l : ReconvLit} (hl : l.rk.toNat < 2) (hc : CleanPred x sp w.pred.toNat) (hd : w.d = 0) (hf : w.func = 0) (hb : InBudget x t w.a.toNat 2)
    {a : BitVec 64} (h4 : a.toNat % 4 = 0) (h57 : a.toNat < 2 ^ 57) (hp : HoldsPair x (active x sp w.pred.toNat) w.a.toNat a) :
    exec (.brx w l) s = .next (branch s c (towards (activeMask x sp w.pred.toNat) a) (reconvOf c.pc l)) := by
  have hr : decide (2 ≤ l.rk.toNat) = false := decide_eq_false (by omega)
  show execBrx w l s = _
  rw [execBrx, onIssuer_of_cur _ h.cur, hr, h.targetWord_goes hc hd hf hb h4 h57 hp]

theorem Issuing.brx_reserved {w : WB} {l : ReconvLit} (hc : CleanPred x sp w.pred.toNat) (hr : 2 ≤ l.rk.toNat ∨ w.d ≠ 0 ∨ w.func ≠ 0 ∨ ¬InBudget x t w.a.toNat 2) :
    ReservedUse (.brx w l) s c (activeMask x sp w.pred.toNat) := by
  show execBrx w l s = _
  rw [execBrx, onIssuer_of_cur _ h.cur, h.targetWord_reserved hc (hr.imp_left decide_eq_true)]

end

theorem reconvOf_none {l : ReconvLit} (pc : BitVec 64) (hl : l.rk = 1) : reconvOf pc l = none := by rw [reconvOf, hl]; rfl

theorem reconvOf_some {l : ReconvLit} (pc : BitVec 64) (hl : l.rk = 0) : reconvOf pc l = some (pc + BitVec.ofInt 64 (4 * l.roff.toInt)) := by rw [reconvOf, hl]; rfl

theorem branches : BranchesStated := by
  intro s c x sp t w l h hc hm T target rp moved
  have go (hl : l.rk.toNat < 2) : exec (.bra w l) s = .next (branch s c (towards T target) (reconvOf c.pc l)) := by
    rw [h.bra_eq hc, if_neg (by omega)]
    rfl
  refine ⟨fun hl h0 => ?_, fun hl hT => ?_, fun hl => ?_, fun hl h0 hT hx => ?_, fun hl h0 hT hx hr => ?_⟩
  · rw [go hl, h0, branch_nowhere]
  · rw [Becomes, go hl, hT, h.branch_whole hm]
    rfl
  · rw [ReservedUse, h.bra_eq hc, if_pos hl]
  · rw [Becomes, go (by rw [hl]; decide), h.branch_part h0 hT, reconvOf_none _ hl, h.diverge_unnamed (rest_ne_zero hT),
      divide_eq h.group h.split hx.frame hx.slot hx.other hx.live]
    rfl
  · intro owed y
    have hland : (s.withGrp c.gid (y.setSplit c.slot (some { sp with rel := some x.sshw }))).landing c.gid = s.landing c.gid :=
      landing_withGrp h.group (y.setSplit_width _ _)
    have hdiv := divide_eq (State.find_withGrp s c.gid (y.setSplit c.slot (some { sp with rel := some x.sshw }))) (Group.split_setSplit_self ..) hx.frame hx.slot
      ((y.split_setSplit_other hx.slot _).trans hx.other) ((y.setSplit_ended _ _).trans hx.live) target T
    rw [Becomes, go (by rw [hl]; decide), h.branch_part h0 hT, reconvOf_some _ hl, h.diverge_named hx hr (rest_ne_zero hT)]
    refine congrArg Host.Outcome.next (hdiv.trans ?_)
    rw [hland, State.withGrp_withGrp, State.withGrp_time, Group.divided, Group.parted, Group.setSplit_setSplit]
    rfl

theorem uniformAndIndirectBranches : UniformAndIndirectBranchesStated := by
  intro s c x sp t w v l a h hc hm T near due
  refine ⟨fun hq => ?_, fun hq hp h1 => ?_, fun hl hd hf hb hT h4 h57 hpair => ?_, h.brx_reserved hc⟩
  · rw [Becomes, h.bru_eq hq, h.branch_whole hm]
    rfl
  · show execBru w s = _
    rw [execBru, onIssuer_of_cur _ h.cur, h.scalarWord_off (by omega) hp h1]
  · rw [Becomes, h.brx_goes hl hc hd hf hb h4 h57 hpair, show activeMask x sp v.pred.toNat = sp.mask from hT, h.branch_whole hm]
    rfl

/-- Settles O22: a branch is a transfer of one mask of lanes to one target: none, the whole split, or a part that divides it. -/
theorem branchWords : Obligations.BranchWords := ⟨branches, uniformAndIndirectBranches⟩

end Sys2Proof.Machine
end

section
/-! PROOFS. Calls and returns (R100, R101, R106, R109, R111). -/
namespace Sys2Proof.Machine

/-! ### Calls (R111) -/

/-- A split as it enters a callee at `a`, with lanes `m` and frame `f`. -/
def Split.entering (sp : Split) (a : BitVec 64) (m : Mask) (land f : Nat) : Split := { sp.goto a m land with depth := sp.depth + 1, frl := some f }

/-- A call of one target pushes a frame, and its lanes enter the callee (R111). -/
theorem callOne_pushed {s : State} {c : Cur} {x : Group} {t : Team} {n : Nat} (hx : Map.find s.groups c.gid = some x) (ht : Map.find s.teams x.team = some t)
    (hr : AreaRoom s x t (n + 1)) (sp : Split) (a : BitVec 64) (m : Mask) :
    callOne s c sp a m = (s.withGrp c.gid (x.pushed (.frame c.next c.nextHdr sp.frl 1)), some (sp.entering a m (s.landing c.gid) x.sshw)) := by
  have hland : (s.withGrp c.gid (x.pushed (.frame c.next c.nextHdr sp.frl 1))).landing c.gid = s.landing c.gid := landing_withGrp hx rfl
  simp only [callOne, alloc_pushed hx ht hr, hland, Split.entering]

theorem call_nowhere (s : State) (c : Cur) (a : BitVec 64) (act : Mask) : call s c (towards 0 a) act = s := by
  simp only [call, towards, byTarget_zero, List.isEmpty_nil, if_true]

section
variable {s : State} {c : Cur} {x : Group} {sp : Split} {t : Team} (h : Issuing s c x sp t)
include h

/-- A call in the deepest callee is a reserved use (R111). -/
theorem Issuing.call_deepest (hd : sp.depth = 255) {m : Mask} (h0 : m ≠ 0) (a : BitVec 64) (act : Mask) :
    call s c (towards m a) act = malformedNoDest s c.gid c.pc act := by
  simp only [call, towards, byTarget_one h0, h.spl_eq, hd, List.isEmpty_cons, Bool.false_eq_true, if_false, beq_self_eq_true, if_true]

/-- The whole split calls: it leaves no entry behind. -/
theorem Issuing.call_whole (hm : sp.mask ≠ 0) (hd : sp.depth ≠ 255) (hr : AreaRoom s x t 1) (a : BitVec 64) (act : Mask) :
    call s c (towards sp.mask a) act = s.withGrp c.gid
      ((x.pushed (.frame c.next c.nextHdr sp.frl 1)).setSplit c.slot (some (sp.entering a sp.mask (s.landing c.gid) x.sshw))) := by
  have hone := callOne_pushed h.group h.team hr sp a sp.mask
  simp only [call, towards, byTarget_one hm, h.spl_eq, List.isEmpty_cons, Bool.false_eq_true, if_false, beq_iff_eq, hd, List.foldl_cons, List.foldl_nil, Mask.zero_or,
    bne_self_eq_false, List.length_singleton, lt_irrefl, decide_false, Bool.or_false, Bool.not_false, if_true, hone, State.updGrp_withGrp]

/-- What a call of the lanes `m` parks the others of its split at: they are an arrival there (R102, R111). -/
def parkedAt (c : Cur) (x : Group) (sp : Split) (m : Mask) : PoolEntry :=
  .reconv sp.mask (sp.mask &&& ~~~m) c.next c.nextHdr sp.fmt sp.rel none sp.depth true x.born (some ⟨c.next, c.nextHdr, 1, sp.dist, []⟩)

/-- Some lanes of a split call: the others are parked, and those that call are owed to their entry. -/
theorem Issuing.call_part (hf : sp.frl = none) {m : Mask} (h0 : m ≠ 0) (hm : m ≠ sp.mask) (hrest : sp.mask &&& ~~~m ≠ 0) (hd : sp.depth ≠ 255) (hr : AreaRoom s x t 2)
    (a : BitVec 64) (act : Mask) :
    call s c (towards m a) act = s.withGrp c.gid (((x.pushed (parkedAt c x sp m)).bearing.pushed (.frame c.next c.nextHdr none 1)).setSplit c.slot
      (some (({ sp with rel := some x.sshw } : Split).entering a m (s.landing c.gid) (x.sshw + 1)))) := by
  have hentry : PoolEntry.reconv sp.mask (sp.mask &&& ~~~m) c.next c.nextHdr sp.fmt sp.rel sp.frl sp.depth true x.born
      (some (Parked.join none sp (c.next, c.nextHdr))) = parkedAt c x sp m := by
    rw [h.parked_join, hf]
    simp [parkedAt]
  have hborn : ({ x.pushed (parkedAt c x sp m) with born := (x.pushed (parkedAt c x sp m)).born + 1 } : Group).incRef sp.frl = (x.pushed (parkedAt c x sp m)).bearing := by
    rw [hf]
    rfl
  have hone := callOne_pushed (c := c) (State.find_withGrp s c.gid (x.pushed (parkedAt c x sp m)).bearing) h.team (hr.pushed _) { sp with rel := some x.sshw } a m
  have hland : (s.withGrp c.gid (x.pushed (parkedAt c x sp m)).bearing).landing c.gid = s.landing c.gid := landing_withGrp h.group rfl
  have hsplit : (m != sp.mask || decide (1 < [(a, m)].length)) = true := by rw [bne_iff_ne.2 hm]; rfl
  have hrest' : (sp.mask &&& ~~~m == 0) = false := beq_eq_false_iff_ne.2 hrest
  simp only [call, towards, byTarget_one h0, h.spl_eq, h.fmt_eq, List.isEmpty_cons, Bool.false_eq_true, if_false, beq_iff_eq, hd, List.foldl_cons, List.foldl_nil,
    Mask.zero_or, hsplit, hrest', Bool.not_true, State.grp_of_find h.group, hentry, alloc_pushed h.group h.team hr, State.updGrp_withGrp, hborn]
  rw [hone, hland]
  simp only [State.withGrp_withGrp, State.updGrp_withGrp, hf]
  rfl

theorem Issuing.call_eq {w : WD} (hc : CleanPred x sp w.pred.toNat) : exec (.call w) s =
    .next (call s c (towards (activeMask x sp w.pred.toNat) (offTarget c.pc w.off)) (activeMask x sp w.pred.toNat)) := by
  show execCall w s = _
  rw [execCall, onIssuer_of_cur _ h.cur, h.laneWord_eq _ hc]
  rfl

theorem Issuing.callx_goes {w : WB} (hc : CleanPred x sp w.pred.toNat) (hd : w.d = 0) (hf : w.func = 0) (hb : InBudget x t w.a.toNat 2) {a : BitVec 64}
    (h4 : a.toNat % 4 = 0) (h57 : a.toNat < 2 ^ 57) (hp : HoldsPair x (active x sp w.pred.toNat) w.a.toNat a) :
    exec (.callx w) s = .next (call s c (towards (activeMask x sp w.pred.toNat) a) (activeMask x sp w.pred.toNat)) := by
  show execCallx w s = _
  rw [execCallx, onIssuer_of_cur _ h.cur, h.targetWord_goes hc hd hf hb h4 h57 hp]

theorem Issuing.callx_reserved {w : WB} (hc : CleanPred x sp w.pred.toNat) (hr : w.d ≠ 0 ∨ w.func ≠ 0 ∨ ¬InBudget x t w.a.toNat 2) :
    ReservedUse (.callx w) s c (activeMask x sp w.pred.toNat) := by
  show execCallx w s = _
  rw [execCallx, onIssuer_of_cur _ h.cur, h.targetWord_reserved hc (.inr hr)]

end

theorem calls : CallsStated := by
  intro s c x sp t w v a h hc hv hm T target enter whole pairs
  have hcx : CleanPred x sp v.pred.toNat := by rwa [hv]
  have hTx : activeMask x sp v.pred.toNat = T := by rw [hv]
  refine ⟨fun h0 => ?_, fun hT hd hr => ?_, fun hz hf hb hT hd hr h4 h57 hp => ?_, fun h0 hT hd hf hr => ?_, fun h0 hd => ?_, fun hr => ?_⟩
  · rw [h.call_eq hc, show activeMask x sp w.pred.toNat = 0 from h0, call_nowhere]
  · rw [Becomes, h.call_eq hc, show activeMask x sp w.pred.toNat = sp.mask from hT, h.call_whole hm hd hr]
    simp only [enter, hT]
    rfl
  · have hp' : HoldsPair x (active x sp v.pred.toNat) v.a.toNat a := by rw [hv]; exact hp
    rw [Becomes, h.callx_goes hcx hz hf hb h4 h57 hp', hTx, hT, h.call_whole hm hd hr]
    simp only [enter, hT]
    rfl
  · rw [Becomes, h.call_eq hc, h.call_part hf h0 hT (rest_ne_zero hT) hd hr]
    rfl
  · rw [ReservedUse, h.call_eq hc, h.call_deepest hd h0]
  · rw [← hTx]
    exact h.callx_reserved hcx hr

/-! ### Returns (R100, R106, R111) -/

/-- The group with an entry of its area written anew. -/
def Group.filed (x : Group) (e : Nat) (p : PoolEntry) : Group := { x with pool := Map.put x.pool e p }

@[simp] theorem Group.filed_ended (x : Group) (e : Nat) (p : PoolEntry) : (x.filed e p).ended = x.ended := rfl
@[simp] theorem Group.filed_width (x : Group) (e : Nat) (p : PoolEntry) : (x.filed e p).width = x.width := rfl
@[simp] theorem Group.filed_filed (x : Group) (e : Nat) (p q : PoolEntry) : (x.filed e p).filed e q = x.filed e q := by simp only [Group.filed, Map.put_put]

/-- Slots and entries are written independently. -/
theorem Group.filed_parted (x : Group) (e : Nat) (p : PoolEntry) (k : Nat) (a b : Split) : (x.parted k a b).filed e p = (x.filed e p).parted k a b := by
  unfold Group.parted Group.setSplit
  split <;> split <;> rfl

theorem Group.parted_setSplit (x : Group) (k : Nat) (a b d : Split) : (x.parted k a b).setSplit (1 - k) (some d) = x.parted k a d := Group.setSplit_setSplit ..

theorem Group.incRef_frame {x : Group} {e : Nat} {pc hdr : BitVec 64} {prev : Option Nat} {refs : Nat} (hp : Map.find x.pool e = some (.frame pc hdr prev refs)) :
    x.incRef (some e) = x.filed e (.frame pc hdr prev (refs + 1)) := by
  simp only [Group.incRef, hp, Group.filed]

/-- A reference to an outermost frame is dropped: the last one frees it (R100). -/
theorem Group.drop_frame {x : Group} {e : Nat} {pc hdr : BitVec 64} {refs : Nat} (hp : Map.find x.pool e = some (.frame pc hdr none refs)) :
    x.drop (some e) = if refs ≤ 1 then x.freeAt e else x.filed e (.frame pc hdr none (refs - 1)) := by
  have hend : ∀ n (y : Group), y.decRef n none = y := fun n y => by cases n <;> rfl
  simp only [Group.drop, Group.decRef, hp, hend, Group.filed]

theorem Group.split_drop_frame {x : Group} {e : Nat} {pc hdr : BitVec 64} {refs : Nat} (hp : Map.find x.pool e = some (.frame pc hdr none refs)) (k : Nat) :
    (x.drop (some e)).split k = x.split k := by
  rw [Group.drop_frame hp]
  split <;> rfl

theorem Group.changeAt_self {x : Group} {k : Nat} {y : Split} (hs : x.split k = some y) (f : Split → Option Split) : x.changeAt k y.mask f = x.setSplit k (f y) := by
  simp only [Group.changeAt, hs, Option.map_some, Option.getD_some, beq_self_eq_true, if_true, Option.bind_some]

/-- A split as it goes on at the return address of an outermost frame. -/
def Split.returned (sp : Split) (pc hdr : BitVec 64) (land : Nat) : Split :=
  { sp with pc := pc, hdr := hdr, clause := none, frl := none, depth := sp.depth - 1, due := max sp.due land }

/-- The part of a split that returns, as it takes its slot (R111). -/
def Split.leaving (sp : Split) (m : Mask) : Split := { sp with mask := m, clause := none, step := false }

/-- The split that stands in slot `k` returns from an outermost frame, owed to no entry (R106). -/
theorem doReturn_outermost {s : State} {g k : Nat} {x : Group} {sp y : Split} {e : Nat} {pc hdr : BitVec 64} {refs : Nat} (hx : Map.find s.groups g = some x)
    (hs : x.split k = some y) (hm : y.mask = sp.mask) (hd : y.depth = sp.depth) (hy : y.rel = none) (hr : sp.rel = none) (hf : sp.frl = some e)
    (hp : Map.find x.pool e = some (.frame pc hdr none refs)) (slot : Nat) :
    doReturn s g slot k sp = s.withGrp g ((x.drop (some e)).setSplit k (some (y.returned pc hdr (s.landing g)))) := by
  have hunwind : ∀ n, unwind x (sp.depth - 1) (n + 1) none = ([], none) := fun n => rfl
  have hchange := Group.changeAt_self ((Group.split_drop_frame hp k).trans hs) fun y =>
    some { y with pc := pc, hdr := hdr, clause := none, frl := none, depth := sp.depth - 1, rel := none, due := max y.due (s.landing g) }
  rw [hm] at hchange
  simp only [doReturn, hf, hr, State.grp_of_find hx, Option.bind_some, hp, hunwind, updGrp_eq_withGrp hx, Group.incRef, hchange, List.foldl_nil, Option.bind_none]
  rw [Split.returned, hd, hm, hy]

section
variable {s : State} {c : Cur} {x : Group} {sp : Split} {t : Team} (h : Issuing s c x sp t)
include h

theorem Issuing.ret_eq {w : WC} (hc : CleanPred x sp w.pred.toNat) : exec (.ret w) s =
    .next (if sp.depth = 0 then malformedNoDest s c.gid c.pc (activeMask x sp w.pred.toNat) else if activeMask x sp w.pred.toNat = 0 then s
      else if activeMask x sp w.pred.toNat = sp.mask then doReturn s c.gid c.slot c.slot sp else returnPart s c (activeMask x sp w.pred.toNat)) := by
  have hsp : (wxOf c s).sp.depth = sp.depth ∧ (wxOf c s).sp.mask = sp.mask := by rw [h.wx]; exact ⟨rfl, rfl⟩
  show execRet w s = _
  rw [execRet, onIssuer_of_cur _ h.cur, h.laneWord_eq _ hc]
  simp only [hsp.1, hsp.2, beq_iff_eq, h.spl_eq]
  rfl

/-- A part of a split returns: it takes a slot beside the others, each with the frame, and then returns (R101, R111). -/
theorem Issuing.returnPart_eq {m : Mask} {y : Group} (hy : x.incRef sp.frl = y) (hs : y.split c.slot = some sp) :
    let u := placeSplit (s.withGrp c.gid (y.setSplit c.slot (some { sp with mask := sp.mask &&& ~~~m }))) c.gid c.slot (sp.leaving m)
    returnPart s c m = if (u.grp c.gid).ended then u else doReturn u c.gid c.slot (1 - c.slot) (sp.leaving m) := by
  simp only [returnPart, h.spl_eq, h.fmt_eq, updGrp_eq_withGrp h.group, hy, Group.updSplit, hs, Option.map_some]
  rfl

/-- Some lanes of a split return from an outermost frame: the others keep the frame (R111). -/
theorem Issuing.returnPart_outermost {e : Nat} {pc hdr : BitVec 64} (hr : sp.rel = none) (hf : sp.frl = some e) (hp : Map.find x.pool e = some (.frame pc hdr none 1))
    (hk : c.slot < 2) (ho : x.split (1 - c.slot) = none) (he : x.ended = false) (m : Mask) :
    returnPart s c m = s.withGrp c.gid ((x.filed e (.frame pc hdr none 1)).parted c.slot { sp with mask := sp.mask &&& ~~~m }
      (((sp.leaving m).placed s.time).returned pc hdr (s.landing c.gid))) := by
  have hinc : x.incRef sp.frl = x.filed e (.frame pc hdr none 2) := by rw [hf]; exact Group.incRef_frame hp
  have hplace := placeSplit_parted s c.gid (x := x.filed e (.frame pc hdr none 2)) hk he ho { sp with mask := sp.mask &&& ~~~m } (sp.leaving m)
  rw [h.returnPart_eq hinc h.split, hplace, State.grp_withGrp, Group.parted_ended, Group.filed_ended, he, if_neg Bool.false_ne_true]
  have hpool : Map.find ((x.filed e (.frame pc hdr none 2)).parted c.slot { sp with mask := sp.mask &&& ~~~m } ((sp.leaving m).placed s.time)).pool e =
      some (.frame pc hdr none 2) := by
    rw [Group.parted_pool]
    exact Map.find_put_self ..
  rw [doReturn_outermost (sp := sp.leaving m) (y := (sp.leaving m).placed s.time) (State.find_withGrp ..) (Group.split_parted ..) rfl rfl hr hr hf hpool, landing_withGrp h.group (by simp),
    State.withGrp_withGrp, Group.drop_frame hpool, if_neg (by decide), Group.filed_parted, Group.filed_filed, Group.parted_setSplit]

end

theorem returns : ReturnsStated := by
  intro s c x sp t w e pc hdr h hc T back
  refine ⟨fun h0 hd => ?_, fun hd => ?_, fun h0 hT hd hr hf hp => ?_, fun h0 hT hd hr hf hp hk ho he => ?_⟩
  · rw [h.ret_eq hc, if_neg hd, if_pos h0]
  · rw [ReservedUse, h.ret_eq hc, if_pos hd]
  · rw [Becomes, h.ret_eq hc, if_neg hd, if_neg h0, if_pos hT, doReturn_outermost h.group h.split rfl rfl hr hr hf hp, Group.drop_frame hp, if_pos le_rfl]
    rfl
  · rw [Becomes, h.ret_eq hc, if_neg hd, if_neg h0, if_neg hT, h.returnPart_outermost hr hf hp hk ho he]
    rfl

/-- Settles O23: a call is a frame pushed for its one target, with an entry for the lanes that stay, and a return drops a reference to the frame. -/
theorem callsAndReturns : Obligations.CallsAndReturns := ⟨calls, returns⟩

end Sys2Proof.Machine
end

section
/-! PROOFS. Exits (R105, R113, R399). -/
namespace Sys2Proof.Machine

/-! ### Bytes and age orders stand (R399) -/

/-- Every core's age order, device memory and host memory stand as they were. -/
structure OrderKept (s t : State) : Prop where
  order : ∀ k, (t.coreOf k).order = (s.coreOf k).order
  mem : t.mem = s.mem
  host : t.hostMem = s.hostMem

theorem OrderKept.refl (s : State) : OrderKept s s := ⟨fun _ => rfl, rfl, rfl⟩
theorem OrderKept.trans {s t u : State} (a : OrderKept s t) (b : OrderKept t u) : OrderKept s u :=
  ⟨fun k => (b.order k).trans (a.order k), b.mem.trans a.mem, b.host.trans a.host⟩
theorem OrderKept.fold {α : Type} (f : State → α → State) (h : ∀ s x, OrderKept s (f s x)) (l : List α) (s : State) : OrderKept s (l.foldl f s) :=
  List.foldlRecOn l f (.refl s) fun _ hu x _ => hu.trans (h _ x)
theorem OrderKept.of_cores {s t : State} (hc : t.cores = s.cores) (hm : t.mem = s.mem) (hh : t.hostMem = s.hostMem) : OrderKept s t :=
  ⟨fun k => by rw [State.coreOf, hc]; rfl, hm, hh⟩
/-- Cores change in something else than their order. -/
theorem OrderKept.of_map {s t : State} (f : Nat × Core → Core) (hf : ∀ e, (f e).order = e.2.order) (hc : t.cores = s.cores.map fun e => (e.1, f e)) (hm : t.mem = s.mem)
    (hh : t.hostMem = s.hostMem) : OrderKept s t := by
  refine ⟨fun k => ?_, hm, hh⟩
  rw [State.coreOf, State.coreOf, hc, find_mapValues]
  cases Map.find s.cores k with
  | none => rfl
  | some c => exact hf (k, c)

theorem updGrp_orderKept (s : State) (g : Nat) (f : Group → Group) : OrderKept s (s.updGrp g f) := .of_cores (by simp) (by simp) (by simp)
theorem updGrid_orderKept (s : State) (n : Nat) (f : Grid → Grid) : OrderKept s (s.updGrid n f) := .of_cores (by simp) (by simp) (by simp)
theorem copyOrphan_orderKept (s : State) (g : Nat) : OrderKept s (copyOrphan s g) := by
  unfold copyOrphan
  dsimp only
  split
  · exact .refl s
  · exact updGrid_orderKept _ _ _
theorem freeSide_orderKept (s : State) (g : Nat) : OrderKept s (freeSide s g) := by
  refine ⟨fun k => ?_, rfl, rfl⟩
  rw [freeSide, State.coreOf_updCore]
  split
  · subst_vars
    rfl
  · rfl

theorem serveNode_orderKept (grid n : Nat) (f : Nat) : ∀ s : State, OrderKept s (serveNode s grid n f) := by
  induction f with
  | zero => exact fun s => .refl s
  | succ f ih =>
    intro s
    unfold serveNode
    split
    · exact .refl s
    · split
      · exact .refl s
      · split
        · exact .refl s
        · exact ((updGrid_orderKept _ _ _).trans (updGrp_orderKept _ _ _)).trans (ih _)

theorem withdraw_orderKept (s : State) (g : Nat) : OrderKept s (withdraw s g) := by
  unfold withdraw
  dsimp only
  refine OrderKept.trans ?_ (.fold _ (fun s o => ?_) _ _)
  · refine OrderKept.trans (.fold _ (fun s o => ?_) _ s) (updGrp_orderKept _ _ _)
    split
    · split
      · exact updGrid_orderKept _ _ _
      · exact .refl s
    · exact .refl s
  · split
    · exact serveNode_orderKept _ _ _ s
    · exact .refl s

theorem Core.l1Drop_order (k : Core) (gone : L1Block → BitVec 8) : (k.l1Drop gone).order = k.order := by
  unfold Core.l1Drop
  split <;> rfl
theorem dropView_orderKept (s : State) (v : Nat) : OrderKept s (s.dropView v) :=
  .of_map (fun e => e.2.l1Drop fun b => if b.view == v then BitVec.allOnes 8 else 0) (fun e => Core.l1Drop_order e.2 _) rfl rfl rfl
theorem sweepLost_orderKept (s : State) : OrderKept s (sweepLost s) := by
  unfold sweepLost
  refine OrderKept.trans ?_ (.fold State.dropView dropView_orderKept _ _)
  exact .of_cores rfl rfl rfl

/-! ### Other groups stand -/

/-- Every other group stands as it was. -/
def OthersKept (g : Nat) (s t : State) : Prop := ∀ k, k ≠ g → Map.find t.groups k = Map.find s.groups k

theorem OthersKept.trans {g : Nat} {s t u : State} (a : OthersKept g s t) (b : OthersKept g t u) : OthersKept g s u := fun k hk => (b k hk).trans (a k hk)
theorem OthersKept.of_groups (g : Nat) {s t : State} (h : t.groups = s.groups) : OthersKept g s t := fun _ _ => by rw [h]
theorem updGrp_othersKept (s : State) (g : Nat) (f : Group → Group) : OthersKept g s (s.updGrp g f) := fun k hk => by
  rw [State.find_updGrp, if_neg hk]
theorem withGrp_othersKept (s : State) (g : Nat) (x : Group) : OthersKept g s (s.withGrp g x) := fun k hk => by
  rw [State.withGrp, Map.find_put, if_neg hk]
theorem copyOrphan_groups (s : State) (g : Nat) : (copyOrphan s g).groups = s.groups := by
  unfold copyOrphan
  dsimp only
  split
  · rfl
  · exact State.updGrid_groups _ _ _

/-- A group with no request withdraws none. -/
theorem withdraw_othersKept {s : State} {g : Nat} (h : ((s.grp g).path pathWrk).ops = []) : OthersKept g s (withdraw s g) := by
  simp only [withdraw, h, List.reverse_nil, List.foldl_nil]
  exact updGrp_othersKept _ _ _

/-! ### The end of a group (R399) -/

/-- A group that leaves no entry behind ends: only its own record and its core's age order are different but for what is no group's (R399). -/
theorem endGroup_emptied {s : State} {g : Nat} {x : Group} (hx : Map.find s.groups g = some x) (he : x.ended = false) (hp : x.pool = []) (cond : Option Nat) :
    ∃ v, Stays s v ∧ OrderKept s v ∧ ((x.path pathWrk).ops = [] → OthersKept g s v) ∧
      endGroup s g cond = sweepLost ((v.updCore x.core fun k => { k with order := k.order.filter fun h => h != g }).updGrp g Group.isOver) := by
  have hne : ¬x.ended = true := by rw [he]; exact Bool.false_ne_true
  have hcopy : Map.find (copyOrphan s g).groups g = some x := by rw [copyOrphan_groups, hx]
  have hwrite : writeArea (copyOrphan s g) g = copyOrphan s g := by
    simp only [writeArea, State.grp_of_find hcopy, hp, List.foldl_nil]
  have hfree : (freeSide (copyOrphan s g) g).groups = s.groups := copyOrphan_groups s g
  have hstays : Stays s (withdraw (freeSide (copyOrphan s g) g) g) := (copyOrphan_stays s g).trans ((freeSide_stays _ g).trans (withdraw_stays _ g))
  have horder : OrderKept s (withdraw (freeSide (copyOrphan s g) g) g) :=
    (copyOrphan_orderKept s g).trans ((freeSide_orderKept _ g).trans (withdraw_orderKept _ g))
  have hothers : (x.path pathWrk).ops = [] → OthersKept g s (withdraw (freeSide (copyOrphan s g) g) g) := fun ho =>
    (OthersKept.of_groups g hfree).trans (withdraw_othersKept (by rwa [State.grp_of_find (hfree ▸ hx)]))
  simp only [endGroup, State.grp_of_find hx, if_neg hne, hwrite]
  generalize withdraw (freeSide (copyOrphan s g) g) g = w at *
  split
  · exact ⟨w, hstays, horder, hothers, rfl⟩
  · exact ⟨_, hstays.trans (updGrid_stays _ _ _), horder.trans (updGrid_orderKept _ _ _), fun ho => (hothers ho).trans (.of_groups g (State.updGrid_groups _ _ _)), rfl⟩

/-- What a group's end leaves: a group with no lane that its core does not order any more (R399). -/
structure Gone (g : Nat) (x : Group) (s u : State) : Prop where
  ended : ∃ y, Map.find u.groups g = some y ∧ y.ended = true ∧ y.live = 0 ∧ y.s0 = none ∧ y.s1 = none
  order : g ∉ (u.coreOf x.core).order
  mem : u.mem = s.mem
  host : u.hostMem = s.hostMem
  others : (x.path pathWrk).ops = [] → OthersKept g s u

theorem endGroup_gone {s : State} {g : Nat} {x : Group} (hx : Map.find s.groups g = some x) (he : x.ended = false) (hp : x.pool = []) (cond : Option Nat) :
    Gone g x s (endGroup s g cond) := by
  obtain ⟨v, hstays, horder, hothers, heq⟩ := endGroup_emptied hx he hp cond
  obtain ⟨y, hy, -⟩ := hstays.groups g x hx
  rw [heq]
  generalize hw : v.updCore x.core (fun k => { k with order := k.order.filter fun h => h != g }) = w
  have hkept := (updGrp_orderKept w g Group.isOver).trans (sweepLost_orderKept _)
  have hgroups : w.groups = v.groups := hw ▸ rfl
  have hcore : (w.coreOf x.core).order = (v.coreOf x.core).order.filter fun h => h != g := by
    rw [← hw, State.coreOf_updCore, if_pos rfl]
  have hmem : w.mem = v.mem ∧ w.hostMem = v.hostMem := hw ▸ ⟨rfl, rfl⟩
  have hlost := (sweepLost_workKept (w.updGrp g Group.isOver)).groups
  refine ⟨⟨y.isOver, ?_, rfl, rfl, rfl, rfl⟩, ?_, ?_, ?_, fun ho => ?_⟩
  · rw [hlost, State.find_updGrp, if_pos rfl, hgroups, hy]
    rfl
  · rw [hkept.order, hcore]
    simp
  · exact hkept.mem.trans (hmem.1.trans horder.mem)
  · exact hkept.host.trans (hmem.2.trans horder.host)
  · exact (hothers ho).trans ((OthersKept.of_groups g hgroups).trans ((updGrp_othersKept w g _).trans (.of_groups g hlost)))

@[simp] theorem Group.setSplit_live (x : Group) (k : Nat) (sp : Option Split) : (x.setSplit k sp).live = x.live := by
  unfold Group.setSplit
  split <;> rfl

/-! ### Lanes exit (R105, R113) -/

/-- What is left of a lone split without the lanes `m`. -/
def Split.without (sp : Split) (m : Mask) : Option Split := if sp.mask &&& ~~~m = 0 then none else some { sp with mask := sp.mask &&& ~~~m }

/-- The group without the lanes `m` of its one split. -/
def Group.without (x : Group) (k : Nat) (sp : Split) (m : Mask) : Group := { x with live := x.live &&& ~~~m }.setSplit k (sp.without m)

@[simp] theorem Group.without_live (x : Group) (k : Nat) (sp : Split) (m : Mask) : (x.without k sp m).live = x.live &&& ~~~m := by simp [Group.without]
@[simp] theorem Group.without_newest (x : Group) (k : Nat) (sp : Split) (m : Mask) : (x.without k sp m).newest = x.newest := by simp [Group.without]
@[simp] theorem Group.without_pool (x : Group) (k : Nat) (sp : Split) (m : Mask) : (x.without k sp m).pool = x.pool := by simp [Group.without]
@[simp] theorem Group.without_ended (x : Group) (k : Nat) (sp : Split) (m : Mask) : (x.without k sp m).ended = x.ended := by simp [Group.without]
@[simp] theorem Group.without_saved (x : Group) (k : Nat) (sp : Split) (m : Mask) : (x.without k sp m).saved = x.saved := by
  unfold Group.without Group.setSplit
  split <;> rfl
@[simp] theorem Group.without_region (x : Group) (k : Nat) (sp : Split) (m : Mask) : (x.without k sp m).region = x.region := by
  unfold Group.without Group.setSplit
  split <;> rfl
@[simp] theorem Group.without_core (x : Group) (k : Nat) (sp : Split) (m : Mask) : (x.without k sp m).core = x.core := by
  unfold Group.without Group.setSplit
  split <;> rfl
@[simp] theorem Group.without_path (x : Group) (k : Nat) (sp : Split) (m : Mask) (n : Nat) : (x.without k sp m).path n = x.path n := by
  unfold Group.without Group.setSplit
  split <;> rfl

/-- Lanes leave the split of one slot, which gives up its slot and its frame when none is left (R105). -/
def Group.clearSlot (m : Mask) (x : Group) (k : Nat) : Group :=
  match x.split k with
  | none => x
  | some sp => if sp.mask &&& ~~~m == 0 then (x.setSplit k none).drop sp.frl else x.setSplit k (some { sp with mask := sp.mask &&& ~~~m })

theorem Group.clearSlot_empty {x : Group} {k : Nat} (h : x.split k = none) (m : Mask) : x.clearSlot m k = x := by
  rw [Group.clearSlot, h]

theorem Group.clearSlot_frameless {x : Group} {k : Nat} {sp : Split} (h : x.split k = some sp) (hf : sp.frl = none) (m : Mask) :
    x.clearSlot m k = x.setSplit k (sp.without m) := by
  simp only [Group.clearSlot, h, Split.without, hf, Group.drop_none, beq_iff_eq, apply_ite (x.setSplit k)]

theorem Group.clear_lone {x : Group} {c : Cur} {sp : Split} (hs : x.split c.slot = some sp) (hl : Lone x c sp) (m : Mask) :
    (x.clearSlot m 0).clearSlot m 1 = x.setSplit c.slot (sp.without m) := by
  have hslot : c.slot = 0 ∨ c.slot = 1 := by have := hl.slot; omega
  have ho := hl.other
  rcases hslot with h0 | h1
  · rw [h0] at hs ho ⊢
    have hrest : (x.setSplit 0 (sp.without m)).split 1 = none := ho
    rw [Group.clearSlot_frameless hs hl.frame, Group.clearSlot_empty hrest]
  · rw [h1] at hs ho ⊢
    rw [Group.clearSlot_empty ho, Group.clearSlot_frameless hs hl.frame]

/-- The group with the lanes `m` gone from its live mask, its splits and what its entries expect (R105). -/
def Group.exiting (m : Mask) (x : Group) : Group :=
  (({ x with live := x.live &&& ~~~m, pool := x.pool.map fun e => (e.1, e.2.unexpect m) } : Group).clearSlot m 0).clearSlot m 1

theorem exitLanes_eq (s : State) (g k : Nat) (m : Mask) (cond : Option Nat) :
    exitLanes s g k m cond =
      let u := s.updGrp g (Group.exiting m)
      let v := refill ((dueEntries (u.grp g)).foldl (fun s e => completeEntry s g k e false) u) g
      if (v.grp g).live == 0 then endGroup v g cond else v := rfl

theorem Group.exiting_lone {x : Group} {c : Cur} {sp : Split} (hs : x.split c.slot = some sp) (hl : Lone x c sp) (hp : x.pool = []) (m : Mask) :
    x.exiting m = x.without c.slot sp m := by
  have hpool : ({ x with live := x.live &&& ~~~m, pool := x.pool.map fun e => (e.1, e.2.unexpect m) } : Group) = { x with live := x.live &&& ~~~m } := by
    simp only [hp, List.map_nil]
  rw [Group.exiting, hpool]
  exact Group.clear_lone (x := { x with live := x.live &&& ~~~m }) hs ⟨hl.slot, hl.other, hl.newest, hl.frame, hl.saved, hl.live⟩ m

/-- Lanes of a group's one split exit, and no entry of its area is concerned. -/
theorem exitLanes_lone {s : State} {g : Nat} {x : Group} {c : Cur} {sp : Split} (hx : Map.find s.groups g = some x) (hs : x.split c.slot = some sp) (hl : Lone x c sp)
    (hp : x.pool = []) (m : Mask) (cond : Option Nat) :
    exitLanes s g c.slot m cond = if x.live &&& ~~~m = 0 then endGroup (s.withGrp g (x.without c.slot sp m)) g cond else s.withGrp g (x.without c.slot sp m) := by
  have hnone : dueEntries (x.without c.slot sp m) = [] := by simp [dueEntries, hp]
  have hrefill : refill (s.withGrp g (x.without c.slot sp m)) g = s.withGrp g (x.without c.slot sp m) := refill_withGrp (by simp [hl.newest])
  simp only [exitLanes_eq, updGrp_eq_withGrp hx, Group.exiting_lone hs hl hp, State.grp_withGrp, hnone, List.foldl_nil, hrefill, beq_iff_eq, Group.without_live]

section
variable {s : State} {c : Cur} {x : Group} {sp : Split} {t : Team} (h : Issuing s c x sp t)
include h

/-- With no region open there is nothing to commit (R242). -/
theorem Issuing.commit_closed (hr : x.region.opened = false) : implicitCommit s c = (s, true) := by
  simp only [implicitCommit, State.grp_of_find h.group, hr, Bool.false_eq_true, if_false]

theorem Issuing.again_eq {p : BitVec 3} (hc : CleanPred x sp p.toNat) :
    ({ wxOf c s with act := activeMask x sp p.toNat } : Wx).again p.toNat c s = { wxOf c s with act := activeMask x sp p.toNat } := by
  show ({ wxOf c s with act := ((wxOf c s).under p.toNat).1 } : Wx) = _
  rw [h.under_clean p hc]

/-- `EXIT` with no region open (R113): its lanes exit, and a handler left without a split ends. -/
theorem Issuing.exit_eq (hr : x.region.opened = false) {w : WC} (hc : CleanPred x sp w.pred.toNat) (h0 : activeMask x sp w.pred.toNat ≠ 0) :
    exec (.exit w) s =
      .next ((afterExit (exitLanes (s.withGrp c.gid x) c.gid c.slot (activeMask x sp w.pred.toNat) none) c sp).updGrp c.gid id) := by
  have hcommit := h.commit_closed hr
  have hclean : x.cleanLanes = 0 := by rw [Group.cleanLanes, hr]; rfl
  have hinc : x.incRef none = x := rfl
  have hid : (fun x : Group => if x.ended = true then x else x.drop none) = id := funext fun x => ite_self _
  have hact : ({ wxOf c s with act := activeMask x sp w.pred.toNat } : Wx).act = activeMask x sp w.pred.toNat := rfl
  show execExit w s = _
  rw [execExit, onIssuer_of_cur _ h.cur, h.laneWord_eq _ hc]
  simp only [beq_iff_eq, h0, if_false, hcommit, ite_self, h.again_eq hc, State.grp_of_find h.group, hclean, if_true, Bool.not_true, Bool.false_eq_true, h.spl_eq,
    updGrp_eq_withGrp h.group, hid, hinc]

end

/-- With no region open and no handler running, nothing follows an exit that leaves lanes. -/
theorem afterExit_lives (s : State) (c : Cur) (sp : Split) {x : Group} (he : x.ended = false) (hr : x.region.opened = false) (hs : x.saved = none) :
    afterExit (s.withGrp c.gid x) c sp = s.withGrp c.gid x := by
  have hclean : x.onlyClean = false := by rw [Group.onlyClean, Group.cleanLanes, hr]; rfl
  simp only [afterExit, State.grp_withGrp, he, hclean, resumeIfOver, hs, Option.isSome_none, Bool.false_and, Bool.false_eq_true, if_false]

theorem exits : ExitsStated := by
  intro s c x sp t w h hc hl hp hr T
  refine ⟨fun h0 => ?_, fun h0 hT hlive => ?_, fun h0 hT => ?_⟩
  · have h0' : activeMask x sp w.pred.toNat = 0 := h0
    show execExit w s = _
    rw [execExit, onIssuer_of_cur _ h.cur, h.laneWord_eq _ hc]
    simp only [h0', beq_self_eq_true, if_true]
  · have hw : sp.without T = some { sp with mask := sp.mask &&& ~~~T } := if_neg (rest_ne_zero hT)
    have hnew : x.without c.slot sp T = { x with live := x.live &&& ~~~T }.setSplit c.slot (some { sp with mask := sp.mask &&& ~~~T }) := by rw [Group.without, hw]
    rw [Becomes, h.exit_eq hr hc h0, exitLanes_lone (State.find_withGrp ..) h.split hl hp, if_neg hlive, State.withGrp_withGrp,
      afterExit_lives s c sp (by simp [hl.live]) (by simp [hr]) (by simp [hl.saved]), State.updGrp_withGrp, hnew]
    rfl
  · have hnone : x.live &&& ~~~activeMask x sp w.pred.toNat = 0 := by
      rw [show activeMask x sp w.pred.toNat = x.live from hT]
      exact BitVec.and_not_self _
    have hgone := endGroup_gone (State.find_withGrp (s.withGrp c.gid x) c.gid (x.without c.slot sp (activeMask x sp w.pred.toNat))) (by simp [hl.live]) (by simp [hp]) none
    generalize hu : endGroup _ c.gid none = u at hgone
    obtain ⟨⟨y, hy, hended, hlive, h0', h1⟩, horder, hmem, hhost, hothers⟩ := hgone
    have hafter : afterExit u c sp = u := by simp only [afterExit, State.grp_of_find hy, hended, if_true]
    rw [h.exit_eq hr hc h0, exitLanes_lone (State.find_withGrp ..) h.split hl hp, if_pos hnone, hu, hafter]
    refine ⟨_, y, rfl, by rw [State.find_updGrp, if_pos rfl, hy]; rfl, hended, hlive, h0', h1, ?_, ?_, ?_, fun ho g hg => ?_⟩
    · simpa [State.coreOf] using horder
    · exact (State.updGrp_mem _ _ _).trans hmem
    · exact (State.updGrp_hostMem _ _ _).trans hhost
    · rw [updGrp_othersKept u c.gid id g hg, hothers (by simpa using ho) g hg]
      exact ((withGrp_othersKept s c.gid x).trans (withGrp_othersKept _ c.gid _)) g hg

/-! ### The role switch (R115) -/

/-- What a table reads at a key when some of its keys are left out. -/
theorem Map.find_filter {α : Type} (f : Nat → Bool) (m : List (Nat × α)) (k : Nat) : Map.find (m.filter fun e => f e.1) k = if f k = true then Map.find m k else none := by
  induction m with
  | nil => simp [Map.find]
  | cons e m ih =>
    obtain ⟨j, a⟩ := e
    by_cases hj : j = k
    · subst hj
      by_cases hf : f j = true
      · simp [hf, Map.find_cons]
      · rw [List.filter_cons_of_neg (by simpa using hf), ih, if_neg hf, if_neg hf]
    · by_cases hf : f j = true
      · rw [List.filter_cons_of_pos (by simpa using hf), Map.find_cons, Map.find_cons, ih]
        simp [hj]
      · rw [List.filter_cons_of_neg (by simpa using hf), ih, Map.find_cons]
        simp [hj]

/-- The keys of the lane registers from `a` up to `b` in the lanes of a mask. -/
def gainedKey (a b : Nat) (m : Mask) (key : Nat) : Bool := a ≤ key / 128 && key / 128 < b && inMask m (key % 128)

/-- A register that a role gains reads zero in the live lanes, and every other as before (R115). -/
theorem Group.rdV_gained (x : Group) (a b : Nat) (m : Mask) (r : Nat) {j : Nat} (hj : j < 128) :
    ({ x with v := x.v.filter fun e => !gainedKey a b m e.1 } : Group).rdV r j =
      if a ≤ r ∧ r < b ∧ inMask m j = true then Val.zero else x.rdV r j := by
  have hr : (128 * r + j) / 128 = r := by omega
  have hl : (128 * r + j) % 128 = j := by omega
  have hk : gainedKey a b m (128 * r + j) = true ↔ a ≤ r ∧ r < b ∧ inMask m j = true := by simp [gainedKey, hr, hl, and_assoc]
  show (Map.find (x.v.filter fun e => !gainedKey a b m e.1) (128 * r + j)).getD Val.zero = _
  rw [Map.find_filter fun k => !gainedKey a b m k]
  by_cases h : a ≤ r ∧ r < b ∧ inMask m j = true
  · rw [if_pos h, hk.2 h]
    rfl
  · rw [if_neg h, Bool.eq_false_iff.2 (mt hk.1 h)]
    rfl

theorem seeAll_groups (s : State) (g : Nat) : (seeAll s g).groups = s.groups :=
  List.foldlRecOn (motive := fun u : State => u.groups = s.groups) (List.range 6) _ rfl fun _ hu _ _ => hu

/-- With no entry of its core's queue, a matrix queue that drains leaves the machine as it is. -/
theorem drainMx_idle {s : State} {g : Nat} {x : Group} (hx : Map.find s.groups g = some x) (hq : (s.coreOf x.core).mxq = []) : drainMx s g = s := by
  simp only [drainMx, State.grp_of_find hx, hq]
  rfl

/-- Splits that owe no distance start with none (R78). -/
theorem freshDistances_settled {s : State} {g k : Nat} {x : Group} {sp : Split} (hk : k < 2) (hs : x.split k = some sp) (ho : x.split (1 - k) = none) (hh : sp.haz = [])
    (hp : x.pool = []) : freshDistances (s.withGrp g x) g = s.withGrp g x := by
  have hself : (some sp).map (fun sp => { sp with haz := [] }) = some sp := by
    rw [Option.map_some, ← hh]
  have hsplits : x.s0.map (fun sp => { sp with haz := [] }) = x.s0 ∧ x.s1.map (fun sp => { sp with haz := [] }) = x.s1 := by
    interval_cases k
    · rw [show x.s0 = some sp from hs, show x.s1 = none from ho]
      exact ⟨hself, rfl⟩
    · rw [show x.s0 = none from ho, show x.s1 = some sp from hs]
      exact ⟨rfl, hself⟩
  simp only [freshDistances, State.updGrp_withGrp, hsplits.1, hsplits.2, hp, List.map_nil]
  rw [← hp]

/-- The group as it enters a role at `a`. -/
def Group.entering (x : Group) (k : Nat) (sp : Split) (role : Bool) (v : List (Nat × Val)) (a : BitVec 64) : Group :=
  { x with role := role, v := v }.setSplit k (some { sp with pc := a, hdr := a, clause := none, wait := none, wph := false })

theorem Group.updSplit_of_split {x : Group} {k : Nat} {sp : Split} (hs : x.split k = some sp) (f : Split → Split) : x.updSplit k f = x.setSplit k (some (f sp)) := by
  rw [Group.updSplit, hs, Option.map_some]

/-- A group with nothing owed takes a role: it gains registers that read zero, and starts at the role's entry (R115). -/
theorem takeRole_eq {s : State} {c : Cur} {x : Group} {sp : Split} (hx : Map.find s.groups c.gid = some x) (hk : c.slot < 2) (hs : x.split c.slot = some sp)
    (ho : x.split (1 - c.slot) = none) (hh : sp.haz = []) (hp : x.pool = []) (hb : x.board = []) (d : Desc) (role : Bool) :
    takeRole s c d role = s.withGrp c.gid (x.entering c.slot sp role
      (x.v.filter fun e => !gainedKey (budget d x.role) (budget d role) x.live e.1) (if role then d.entry1 else d.entry0)) := by
  have hsplit : ({ x with role := role, v := x.v.filter fun e => !gainedKey (budget d x.role) (budget d role) x.live e.1 } : Group).split c.slot = some sp := hs
  simp only [takeRole, updGrp_eq_withGrp hx, Group.settle_of_empty hb, freshDistances_settled hk hs ho hh hp, State.grp_withGrp, State.updGrp_withGrp, State.updSpl]
  exact congrArg (s.withGrp c.gid) (Group.updSplit_of_split hsplit _)

section
variable {s : State} {c : Cur} {x : Group} {sp : Split} {t : Team} (h : Issuing s c x sp t)
include h

theorem Issuing.role_reserved {w : WC}
    (hr : t.desc.roleen = false ∨ w.d ≠ 0 ∨ 2 ≤ w.imm.toNat ∨ w.pred ≠ 7 ∨ (x.split (1 - c.slot)).isSome) (hc : CleanPred x sp w.pred.toNat) :
    ReservedUse (.role w) s c (activeMask x sp w.pred.toNat) := by
  have hrsv : roleRsv (wxOf c s).x (wxOf c s).desc w c.slot = true := by
    rw [h.wx]
    simp only [roleRsv, Bool.or_eq_true, Bool.not_eq_true', bne_iff_ne, ne_eq, decide_eq_true_eq]
    tauto
  have hmal : reservedUse { wxOf c s with act := activeMask x sp w.pred.toNat } s = malformedNoDest s c.gid c.pc (activeMask x sp w.pred.toNat) := by
    rw [h.wx]
    rfl
  show execRole w s = _
  rw [execRole, onIssuer_of_cur _ h.cur]
  simp only [hrsv, if_true, h.laneWord_eq _ hc, hmal]

/-- `ROLE` where the kernel and the split stack allow it, with no region open (R115). -/
theorem Issuing.role_eq {w : WC} (hen : t.desc.roleen = true) (hpred : w.pred = 7) (hd : w.d = 0) (himm : w.imm.toNat < 2) (ho : x.split (1 - c.slot) = none)
    (hp : x.pool = []) (hr : x.region.opened = false) (hq : (s.coreOf x.core).mxq = []) :
    exec (.role w) s = .next (if x.drained then takeRole (seeAll s c.gid) c t.desc (w.imm.toNat == 1) else hold c .drain false none s) := by
  have hdesc : (wxOf c s).desc = t.desc := by rw [h.wx]
  have hrsv : roleRsv (wxOf c s).x t.desc w c.slot = false := by
    rw [h.wx]
    simp [roleRsv, hen, hpred, hd, himm, ho, hp]
  have hcommit := h.commit_closed hr
  have hdesc : (wxOf c s).desc = t.desc := by rw [h.wx]
  show execRole w s = _
  rw [execRole, onIssuer_of_cur _ h.cur]
  simp only [hrsv, hcommit, drainMx_idle h.group hq, State.grp_of_find h.group, hdesc, Bool.false_eq_true, if_false]
  cases x.drained <;> rfl

end

theorem roleSwitch : RoleSwitchStated := by
  intro s c x sp t w h hk allowed role entry
  refine ⟨h.role_reserved, fun ha hr hq hd => ?_, fun ha hr hq hd hb => ?_⟩
  · obtain ⟨hen, hpred, hd0, himm, ho, hp⟩ := ha
    rw [Becomes, h.role_eq hen hpred hd0 himm ho hp hr hq, hd, h.hold_eq]
    rfl
  · obtain ⟨hen, hpred, hd0, himm, ho, hp⟩ := ha
    have hx : Map.find (seeAll s c.gid).groups c.gid = some x := by rw [seeAll_groups, h.group]
    refine ⟨x.v.filter fun e => !gainedKey (budget t.desc x.role) (budget t.desc role) x.live e.1, ?_, fun r j hj => x.rdV_gained _ _ _ r hj⟩
    rw [h.role_eq hen hpred hd0 himm ho hp hr hq, hd, if_pos rfl, takeRole_eq hx hk h.split ho h.settled hp hb]
    rw [State.withGrp, seeAll_groups]
    rfl

/-- Settles O25: an exit takes its lanes from the group's one split and ends the group with the last of them; the role switch is refused, waits, or restarts the group at the role's entry. -/
theorem exitsAndRoles : Obligations.ExitsAndRoles := ⟨exits, roleSwitch⟩

end Sys2Proof.Machine
end

section
/-! PROOFS. Barriers (R104, R276 to R282, R386): the barriers of a group, an arrival, and the waiting phase of `BAR`. -/
namespace Sys2Proof.Machine

/-! ### The barriers of a group (R276) -/

theorem levelBars_team {s : State} {x : Group} {t : Team} (ht : Map.find s.teams x.team = some t) : levelBars s x 0 = t.bars := by
  simp only [levelBars, State.teamOf, ht]

theorem levelBars_cluster {s : State} {x : Group} {t : Team} (ht : Map.find s.teams x.team = some t) :
    levelBars s x 1 = ((t.tuple.bind (Map.find s.tuples)).map (·.bars)).getD [] := by
  simp only [levelBars, State.teamOf, ht]

theorem levelBars_grid {s : State} {x : Group} {t : Team} (ht : Map.find s.teams x.team = some t) : levelBars s x 2 = ((Map.find s.grids t.grid).map (·.bars)).getD [] := by
  simp only [levelBars, State.gridOf, State.teamOf, ht, Option.bind_some]

/-- A group's barriers are a matter of teams, clusters and launches alone. -/
theorem barOf_congr {s v : State} {x y : Group} (hy : y.team = x.team) (ht : v.teams = s.teams) (hk : v.tuples = s.tuples) (hg : v.grids = s.grids) (l n : Nat) :
    barOf v y l n = barOf s x l n := by
  simp only [barOf, levelBars, State.gridOf, State.teamOf, hy, ht, hk, hg]

theorem barExpected_congr {s v : State} {x y : Group} (hy : y.team = x.team) (ht : v.teams = s.teams) (hg : v.grids = s.grids) (l : Nat) :
    barExpected v y l = barExpected s x l := by
  simp only [barExpected, State.teamOf, hy, ht, hg]

theorem holderSaved_congr {s v : State} {x y : Group} (hy : y.team = x.team) (hr : y.resident = x.resident) (ht : v.teams = s.teams) (l : Nat) :
    holderSaved v y l = holderSaved s x l := by
  simp only [holderSaved, State.teamOf, hy, hr, ht]

/-- One barrier of a group is changed, and none of its others. -/
structure BarChanged (s v : State) (x : Group) (level num : Nat) (f : Barrier → Barrier) : Prop where
  changed : barOf v x level num = f (barOf s x level num)
  others : ∀ l n, l < 3 → (l, n) ≠ (level, num) → barOf v x l n = barOf s x l n
  groups : v.groups = s.groups
  ctxs : v.ctxs = s.ctxs
  time : v.time = s.time
  bytes : BytesEq s v

/-- A change to the one list of barriers in which a level's stand. -/
theorem BarChanged.of_levels {s v : State} {x : Group} {level num : Nat} {f : Barrier → Barrier} (hl : levelBars v x level = Map.modify Barrier.zero (levelBars s x level) num f)
    (ho : ∀ l, l < 3 → l ≠ level → levelBars v x l = levelBars s x l) (hg : v.groups = s.groups) (hc : v.ctxs = s.ctxs) (ht : v.time = s.time) (hb : BytesEq s v) :
    BarChanged s v x level num f := by
  refine ⟨?_, fun l n hl3 hne => ?_, hg, hc, ht, hb⟩
  · rw [barOf, hl, Map.modify, Map.get, Map.find_put_self]
    rfl
  · by_cases h : l = level
    · subst h
      have hn : n ≠ num := fun e => hne (by rw [e])
      rw [barOf, hl, Map.modify, Map.get, Map.find_put_ne _ _ hn]
      rfl
    · rw [barOf, ho l hl3 h]
      rfl

/-- Each level's barriers stand at a holder of their own: the team, the cluster, the launch (R276). -/
theorem updBar_changes {s : State} {x : Group} {t : Team} (ht : Map.find s.teams x.team = some t) {level : Nat} (hl : level < 3) (hh : HasBarriers s t level) (num : Nat)
    (f : Barrier → Barrier) : BarChanged s (updBar s x level num f) x level num f := by
  have hteam : s.teamOf x = some t := ht
  obtain ⟨h1, h2⟩ := hh
  interval_cases level
  · have hu : updBar s x 0 num f = { s with teams := Map.put s.teams x.team { t with bars := Map.modify Barrier.zero t.bars num f } } := by
      simp only [updBar, State.updTeam, ht]
    rw [hu]
    have ht' : Map.find (Map.put s.teams x.team { t with bars := Map.modify Barrier.zero t.bars num f }) x.team = some { t with bars := Map.modify Barrier.zero t.bars num f } :=
      Map.find_put_self ..
    refine .of_levels ?_ (fun l hl3 hne => ?_) rfl rfl rfl ⟨rfl, rfl, rfl, rfl, rfl⟩
    · rw [levelBars_team ht', levelBars_team ht]
    · interval_cases l
      · exact absurd rfl hne
      · rw [levelBars_cluster ht', levelBars_cluster ht]
      · rw [levelBars_grid ht', levelBars_grid ht]
  · obtain ⟨u, hu⟩ := Option.isSome_iff_exists.1 (h1 rfl)
    obtain ⟨k, hk, hku⟩ := Option.bind_eq_some_iff.1 hu
    have hu : updBar s x 1 num f = { s with tuples := Map.put s.tuples k { u with bars := Map.modify Barrier.zero u.bars num f } } := by
      simp only [updBar, hteam, hk, Option.bind_some, hku, Option.map_some]
    rw [hu]
    refine .of_levels ?_ (fun l hl3 hne => ?_) rfl rfl rfl ⟨rfl, rfl, rfl, rfl, rfl⟩
    · rw [levelBars_cluster (by exact ht), levelBars_cluster ht, hk, Option.bind_some, Option.bind_some, hku, Map.find_put_self]
      rfl
    · interval_cases l
      · rw [levelBars_team (by exact ht), levelBars_team ht]
      · exact absurd rfl hne
      · rw [levelBars_grid (by exact ht), levelBars_grid ht]
  · obtain ⟨r, hr⟩ := Option.isSome_iff_exists.1 (h2 rfl)
    have hu : updBar s x 2 num f = { s with grids := Map.put s.grids t.grid { r with bars := Map.modify Barrier.zero r.bars num f } } := by
      simp only [updBar, hteam, State.updGrid, hr]
    rw [hu]
    refine .of_levels ?_ (fun l hl3 hne => ?_) rfl rfl rfl ⟨rfl, rfl, rfl, rfl, rfl⟩
    · rw [levelBars_grid (by exact ht), levelBars_grid ht, hr, Map.find_put_self]
      rfl
    · interval_cases l
      · rw [levelBars_team (by exact ht), levelBars_team ht]
      · rw [levelBars_cluster (by exact ht), levelBars_cluster ht]
      · exact absurd rfl hne

/-! ### The log of a context's arrivals (R286) -/

/-- What a log entry leaves: everything that a barrier, a group or memory is read from. -/
structure LogOnly (s v : State) : Prop where
  teams : v.teams = s.teams
  tuples : v.tuples = s.tuples
  grids : v.grids = s.grids
  groups : v.groups = s.groups
  time : v.time = s.time
  bytes : BytesEq s v

theorem LogOnly.refl (s : State) : LogOnly s s := ⟨rfl, rfl, rfl, rfl, rfl, .refl s⟩
theorem LogOnly.trans {s t u : State} (a : LogOnly s t) (b : LogOnly t u) : LogOnly s u :=
  ⟨b.teams.trans a.teams, b.tuples.trans a.tuples, b.grids.trans a.grids, b.groups.trans a.groups, b.time.trans a.time, a.bytes.trans b.bytes⟩

theorem alogAdd_logOnly (s : State) (ctx k : Nat) (e : BitVec 128) : LogOnly s (alogAdd s ctx k e) := by
  unfold alogAdd
  split
  · exact .refl s
  · split
    · exact .refl s
    · exact ⟨by simp, by simp, by simp, by simp, by simp, (updCtx_bytes s ctx _).trans ⟨rfl, rfl, rfl, rfl, rfl⟩⟩

theorem logCompletion_logOnly (s : State) (g num phase : Nat) : LogOnly s (logCompletion s g num phase) :=
  List.foldlRecOn (motive := LogOnly s) _ _ (.refl s) fun _ hu _ _ => hu.trans (alogAdd_logOnly _ _ _ _)

/-! ### An arrival (R277) -/

/-- A barrier after one more arrival of the `n` that a phase takes (R277). -/
def Barrier.counted (b : Barrier) (n : Nat) : Barrier :=
  if b.arrived + 1 = n then { b with phase := (b.phase + 1) % 2 ^ 32, arrived := 0 } else { b with arrived := b.arrived + 1 }

/-- An arrival has been counted at one barrier of a group; where it does not complete the phase, no context has changed (R277, R286). -/
structure Counted (s v : State) (x : Group) (level num : Nat) : Prop where
  counted : barOf v x level num = (barOf s x level num).counted (barExpected s x level)
  others : ∀ l n, l < 3 → (l, n) ≠ (level, num) → barOf v x l n = barOf s x l n
  groups : v.groups = s.groups
  ctxs : (barOf s x level num).arrived + 1 ≠ barExpected s x level → v.ctxs = s.ctxs
  time : v.time = s.time
  bytes : BytesEq s v

theorem countArrival_counts {s : State} {g : Nat} {x : Group} {t : Team} (hx : Map.find s.groups g = some x) (ht : Map.find s.teams x.team = some t) {level : Nat}
    (hl : level < 3) (hh : HasBarriers s t level) (num : Nat) : Counted s (countArrival s g level num) x level num := by
  by_cases hn : (barOf s x level num).arrived + 1 = barExpected s x level
  · obtain ⟨hb, ho, hg, -, htime, hbytes⟩ := updBar_changes ht hl hh num fun b => { b with phase := (b.phase + 1) % 2 ^ 32, arrived := 0 }
    have heq : countArrival s g level num = if level == 2 then logCompletion (updBar s x level num fun b => { b with phase := (b.phase + 1) % 2 ^ 32, arrived := 0 }) g num
        (barOf s x level num).phase else updBar s x level num fun b => { b with phase := (b.phase + 1) % 2 ^ 32, arrived := 0 } := by
      simp only [countArrival, State.grp_of_find hx, hn, beq_self_eq_true, if_true]
    generalize updBar s x level num (fun b => { b with phase := (b.phase + 1) % 2 ^ 32, arrived := 0 }) = u at *
    have hlog : LogOnly u (countArrival s g level num) := by
      rw [heq]
      split
      · exact logCompletion_logOnly _ _ _ _
      · exact .refl u
    have hbar : ∀ l n, barOf (countArrival s g level num) x l n = barOf u x l n := barOf_congr rfl hlog.teams hlog.tuples hlog.grids
    refine ⟨?_, fun l n h3 hne => (hbar l n).trans (ho l n h3 hne), hlog.groups.trans hg, fun h => absurd hn h, hlog.time.trans htime, hbytes.trans hlog.bytes⟩
    rw [hbar, hb, Barrier.counted, if_pos hn]
  · obtain ⟨hb, ho, hg, hc, htime, hbytes⟩ := updBar_changes ht hl hh num fun b => { b with arrived := (barOf s x level num).arrived + 1 }
    have heq : countArrival s g level num = updBar s x level num fun b => { b with arrived := (barOf s x level num).arrived + 1 } := by
      simp only [countArrival, State.grp_of_find hx, beq_iff_eq, hn, if_false]
    rw [heq]
    exact ⟨by rw [hb, Barrier.counted, if_neg hn], ho, hg, fun _ => hc, htime, hbytes⟩

/-- The group with its arrival in a phase noted (R132, R277). -/
def Group.marking (x : Group) (m : Mask) (level num phase : Nat) : Group :=
  ({ x with ap := Map.put x.ap (16 * level + num) phase }).arrived m (phaseKey level num phase)

theorem Group.marking_team (x : Group) (m : Mask) (level num phase : Nat) : (x.marking m level num phase).team = x.team := rfl
theorem Group.apOf_marking (x : Group) (m : Mask) (level num phase : Nat) : apOf (x.marking m level num phase) level num = some phase := Map.find_put_self ..

/-- A split that owes no distance is left as it is. -/
theorem Group.split_marking {x : Group} {k : Nat} {sp : Split} (hs : x.split k = some sp) (hh : sp.haz = []) (m : Mask) (level num phase : Nat) :
    (x.marking m level num phase).split k = some sp := by
  have hself : ∀ f : Hazard → Hazard, ({ sp with haz := sp.haz.map f } : Split) = sp := fun f => by rw [hh, List.map_nil, ← hh]
  have hmap : (x.marking m level num phase).split k = (x.split k).map fun sp => { sp with haz := sp.haz.map fun h =>
      if h.foreign && h.lanes &&& ~~~m == 0 then { h with bars := phaseKey level num phase :: h.bars } else h } := by
    unfold Group.split
    split <;> rfl
  rw [hmap, hs, Option.map_some, hself]

section
variable {s : State} {c : Cur} {x : Group} {sp : Split} {t : Team} (h : Issuing s c x sp t)
include h

/-- A fence of a barrier's scope with no store and no invalidation on its way changes nothing (R277). -/
theorem Issuing.fullFence_clear (he : x.egress = []) (hi : s.invals = []) {scope : Nat} (hs : scope ≠ 4) : fullFence s c.gid scope = s.withGrp c.gid x := by
  have hx : ({ x with egress := [] } : Group) = x := by rw [← he]
  unfold fullFence settleBy
  dsimp only
  rw [h.fenceNeed, settleWith_owes h.group (fun r hr => by rw [he] at hr; cases hr), he]
  rw [owing, List.map_nil, hx, releaseSys_narrow _ _ hs, ackInvals_nil (by exact hi), ite_self]
  rfl

theorem Issuing.withSelf : Issuing (s.withGrp c.gid x) c x sp t := ⟨h.cur, State.find_withGrp .., h.split, h.team, h.resident, h.settled⟩

/-- A group that has arrived in the phase does not arrive again (R277). -/
theorem Issuing.barArrive_again (he : x.egress = []) (hi : s.invals = []) {level : Nat} (hl : level < 3) {num : Nat} (ha : apOf x level num = some (barOf s x level num).phase) :
    barArrive s c.gid level num = s.withGrp c.gid x := by
  have hb : barOf (s.withGrp c.gid x) x level num = barOf s x level num := barOf_congr rfl rfl rfl rfl _ _
  simp only [barArrive, h.fullFence_clear he hi (show level + 1 ≠ 4 by omega), State.grp_withGrp, hb, ha, beq_self_eq_true, if_true]

/-- A group that has not arrived in the phase arrives, and is counted at a holder that no save has captured (R277). -/
theorem Issuing.barArrive_first (he : x.egress = []) (hi : s.invals = []) {level : Nat} (hl : level < 3) {num : Nat} (ha : apOf x level num ≠ some (barOf s x level num).phase)
    (hs : holderSaved s x level = false) : barArrive s c.gid level num =
      countArrival (s.withGrp c.gid (x.marking sp.mask level num (barOf s x level num).phase)) c.gid level num := by
  have hb : barOf (s.withGrp c.gid x) x level num = barOf s x level num := barOf_congr rfl rfl rfl rfl _ _
  have hsaved : holderSaved (s.withGrp c.gid x) x level = false := (holderSaved_congr rfl rfl rfl level).trans hs
  simp only [barArrive, h.fullFence_clear he hi (show level + 1 ≠ 4 by omega), State.grp_withGrp, hb, beq_iff_eq, ha, if_false, hsaved, Bool.not_false, if_true,
    State.updGrp_withGrp, h.withSelf.curMask_eq]
  rfl

/-- What an arrival leaves: the barrier counted, the group marked, and nothing else of barriers, groups or memory changed. -/
theorem Issuing.barArrive_counts (he : x.egress = []) (hi : s.invals = []) {level : Nat} (hl : level < 3) (hh : HasBarriers s t level) {num : Nat}
    (ha : apOf x level num ≠ some (barOf s x level num).phase) (hs : holderSaved s x level = false) :
    let y := x.marking sp.mask level num (barOf s x level num).phase
    Counted (s.withGrp c.gid y) (barArrive s c.gid level num) y level num := by
  intro y
  rw [h.barArrive_first he hi hl ha hs]
  exact countArrival_counts (x := y) (State.find_withGrp ..) h.team hl hh num

end

/-! ### The waiting phase of `BAR` (R278, R282) -/

theorem waitMet_barrier (s : State) (x : Group) (l n p : Nat) : waitMet s x (.barrier l n p) = true ↔ (barOf s x l n).phase ≠ p ∨ (barOf s x l n).broken = true := by
  simp [waitMet]

theorem seePhase_settled {s : State} {g k : Nat} (h : (s.spl g k).haz = []) (key : Nat) : seePhase s g k key = s := by
  simp [seePhase, h]

/-- The end of a phase for a split that owes no distance is its status (R278, R282). -/
theorem barDone_eq {s : State} {wx : Wx} (h : (s.spl wx.g wx.slot).haz = []) (l n sd : Nat) (p : Option Nat) :
    barDone l n sd p wx s = status sd (if (barOf s wx.x l n).broken then 4 else 0) wx s := by
  unfold barDone
  cases (barOf s wx.x l n).broken with
  | true => rfl
  | false =>
    cases p with
    | none => rfl
    | some p => exact congrArg (status sd 0 wx) (seePhase_settled h _)

/-- A group that has arrived waits for the phase in which it stands; one that never has goes on (R278). -/
theorem barWait_arrived {c : Cur} {wx : Wx} {s : State} {level num p : Nat} (hw : c.wait = none) (hp : apOf (s.grp wx.g) level num = some p) (e sd : Nat) (wph : Bool) :
    barWait c level num e sd wph wx s = waitPhase c (.barrier level num p) wph e sd false (barDone level num sd (some p)) wx s := by
  simp only [barWait, hw, hp]

theorem barWait_never {c : Cur} {wx : Wx} {s : State} {level num : Nat} (hw : c.wait = none) (hp : apOf (s.grp wx.g) level num = none) (e sd : Nat) (wph : Bool) :
    barWait c level num e sd wph wx s = barDone level num sd none wx s := by
  simp only [barWait, hw, hp]

section
variable {s : State} {wx : Wx} {w : Wait} (c : Cur) (wph : Bool) (e sd : Nat) (met : Wx → State → State)

theorem waitPhase_met (hm : waitMet s wx.x w = true) : waitPhase c w wph e sd false met wx s = met wx s := by
  simp [waitPhase, hm]

theorem waitPhase_abandoned (hm : ¬waitMet s wx.x w = true) (ha : abandoned s wx.x = true) : waitPhase c w wph e sd false met wx s = status sd 3 wx s := by
  simp [waitPhase, hm, ha]

theorem waitPhase_open (hm : ¬waitMet s wx.x w = true) (ha : ¬abandoned s wx.x = true) (hx : c.expired = false) :
    waitPhase c w wph e sd false met wx s = if e = 0 then status sd 1 wx s else hold c w wph (waitDue s c e) s := by
  simp [waitPhase, hm, ha, hx]

end

theorem hold_of_find {s : State} {c : Cur} {x : Group} {sp : Split} (hx : Map.find s.groups c.gid = some x) (hs : x.split c.slot = some sp) (w : Wait) (wph : Bool)
    (d : Option Nat) : hold c w wph d s = s.withGrp c.gid (x.waits c sp w wph d) := by
  rw [hold, State.updSpl, updGrp_eq_withGrp hx, Group.updSplit_of_split hs]
  rfl

/-! ### What the words of `BAR` name (R276, R278) -/

/-- A barrier that a group is a member of (R276). -/
def BarExists (t : Team) (level num : Nat) : Prop := level = 0 ∨ (level = 1 ∧ num < 8 ∧ t.desc.clu ≠ 0) ∨ (level = 2 ∧ num < 4 ∧ t.desc.gbar = true)

theorem BarExists.level_lt {t : Team} {level num : Nat} (h : BarExists t level num) : level < 3 := by
  rcases h with h | ⟨h, -⟩ | ⟨h, -⟩ <;> omega

theorem barExists_iff (t : Team) (level : Nat) {num : Nat} (hn : num < 16) : barExists t level num = true ↔ BarExists t level num := by
  match level with
  | 0 => simp [barExists, BarExists, hn]
  | 1 => simp [barExists, BarExists]
  | 2 => simp [barExists, BarExists]
  | k + 3 => simp [barExists, BarExists]

/-- The fields of a `BAR` are in order (R278). -/
def BarHere (t : Team) (w : WS) : Prop := BarExists t (w.sa.toNat / 16) (w.sa.toNat % 16) ∧ w.sb.toNat < 16 ∧ w.sub.toNat < 3

/-- What the arrival of a word leaves: group `g` as it goes on, the barrier counted, and nothing else of barriers, groups or memory changed. -/
def Arrives (i : Instr) (s : State) (g : Nat) (x : Group) (level num : Nat) (y : Group) : Prop :=
  ∃ u, exec i s = .next u ∧ Map.find u.groups g = some y ∧ barOf u y level num = (barOf s x level num).counted (barExpected s x level) ∧
    (∀ l n, l < 3 → (l, n) ≠ (level, num) → barOf u y l n = barOf s x l n) ∧ MemoryKept s u ∧ ∀ k, k ≠ g → Map.find u.groups k = Map.find s.groups k

theorem Counted.arrives {s v : State} {g level num : Nat} {x y z : Group} (hv : Counted (s.withGrp g y) v y level num) (hy : y.team = x.team) (hz : z.team = x.team)
    {i : Instr} (hi : exec i s = .next (v.withGrp g z)) : Arrives i s g x level num z := by
  have hold : ∀ l n, barOf (s.withGrp g y) y l n = barOf s x l n := barOf_congr hy rfl rfl rfl
  have hnew : ∀ l n, barOf (v.withGrp g z) z l n = barOf v y l n := barOf_congr (hz.trans hy.symm) rfl rfl rfl
  have hexp : barExpected (s.withGrp g y) y level = barExpected s x level := barExpected_congr hy rfl rfl level
  have hmarked : BytesEq s (s.withGrp g y) := ⟨rfl, rfl, rfl, rfl, rfl⟩
  have hbytes : BytesEq s (v.withGrp g z) := (hmarked.trans hv.bytes).trans ⟨rfl, rfl, rfl, rfl, rfl⟩
  refine ⟨_, hi, State.find_withGrp .., ?_, fun l n hl hne => ?_, hbytes.memoryKept, fun k hk => ?_⟩
  · rw [hnew, hv.counted, hold, hexp]
  · rw [hnew, hv.others l n hl hne, hold]
  · rw [withGrp_othersKept v g z k hk, hv.groups, withGrp_othersKept s g y k hk]

section
variable {s : State} {c : Cur} {x : Group} {sp : Split} {t : Team} (h : Issuing s c x sp t)
include h

theorem Issuing.visibleScalar_eq (hr : x.region.opened = false) (q : BitVec 3) (hq : qualified x q.toNat) (rsv : Wx → Bool) (bad : Wx → State → State)
    (f : Cur → Wx → State → State) : visibleScalar q rsv bad f s = .next (if rsv (wxOf c s) then bad (wxOf c s) s else f c (wxOf c s) s) := by
  have hcommit := h.commit_closed hr
  unfold visibleScalar
  rw [onIssuer_of_cur _ h.cur, scalarWord_qualified h q hq]
  simp only [hcommit]

theorem Issuing.barRsv_iff (w : WS) (arv : Bool) : barRsv (wxOf c s) w arv = true ↔ ¬(BarHere t w ∧ (arv = true → w.sb.toNat = 0)) := by
  have hteam : (wxOf c s).team = t := by rw [h.wx]
  have hex := barExists_iff t (w.sa.toNat / 16) (num := w.sa.toNat % 16) (Nat.mod_lt _ (by decide))
  have hz : w.sb = 0 ↔ w.sb.toNat = 0 := BitVec.toNat_inj.symm
  have hsub : 4 ≤ w.sub.toNat + 1 ↔ ¬w.sub.toNat < 3 := by omega
  have hsb : 16 ≤ w.sb.toNat ↔ ¬w.sb.toNat < 16 := by omega
  simp only [barRsv, hteam, barLevel, barNum, Bool.or_eq_true, Bool.and_eq_true, decide_eq_true_eq, Bool.not_eq_true', bne_iff_ne, ne_eq, hz, hsub, hsb,
    ← Bool.not_eq_true, hex, BarHere]
  tauto

theorem Issuing.malformed_status {i : Instr} {sd : Nat} (hi : exec i s = .next (statusBad sd (wxOf c s) s)) :
    Results i s c.gid x true (fun _ => true) ⟨.s, sd, 1⟩ (fun _ => .bad .malformed) := by
  obtain ⟨ws, h1, h2, h3⟩ := finishS_spec true sd 1 (.bad .malformed) (wxOf c s) s x h.group h.resident
  exact ⟨_, ws, hi, h1, h2, h3⟩

theorem Issuing.barDone_owes (l n sd : Nat) (p : Option Nat) :
    barDone l n sd p (wxOf c s) s = s.withGrp c.gid (x.owes sd (if (barOf s x l n).broken then 4 else 0)) := by
  have hspl : (s.spl (wxOf c s).g (wxOf c s).slot).haz = [] := (congrArg Split.haz h.spl_eq).trans h.settled
  rw [barDone_eq hspl, h.wx_group]
  exact status_owes (w := wxOf c s) h.group _ _

/-- `BAR.arv` (R278). -/
theorem Issuing.barArv_eq (hr : x.region.opened = false) {w : WS} (hq : qualified x w.qual.toNat) (hb : BarHere t w) (he : w.sb.toNat = 0) :
    let level := w.sa.toNat / 16
    let num := w.sa.toNat % 16
    exec (.barArv w) s = .next (if (barOf s x level num).broken then status w.sd.toNat 4 (wxOf c s) s
      else status w.sd.toNat ((apOf ((barArrive s c.gid level num).grp c.gid) level num).getD 0) (wxOf c s) (barArrive s c.gid level num)) := by
  have hrsv : ¬barRsv (wxOf c s) w true = true := by
    rw [h.barRsv_iff]
    exact not_not.2 ⟨hb, fun _ => he⟩
  show execBarArv w s = _
  rw [execBarArv, h.visibleScalar_eq hr _ hq, if_neg hrsv, h.wx_group]
  rfl

theorem Issuing.barArv_reserved (hr : x.region.opened = false) {w : WS} (hq : qualified x w.qual.toNat) (hb : ¬(BarHere t w ∧ w.sb.toNat = 0)) :
    Results (.barArv w) s c.gid x true (fun _ => true) ⟨.s, w.sd.toNat, 1⟩ (fun _ => .bad .malformed) := by
  have hrsv : barRsv (wxOf c s) w true = true := by
    rw [h.barRsv_iff]
    exact fun hw => hb ⟨hw.1, hw.2 rfl⟩
  refine h.malformed_status ?_
  show execBarArv w s = _
  rw [execBarArv, h.visibleScalar_eq hr _ hq, if_pos hrsv]

/-- `BAR.wait` issued afresh (R278). -/
theorem Issuing.barWait_eq (hr : x.region.opened = false) (hf : Fresh c) {w : WS} (hq : qualified x w.qual.toNat) :
    exec (.barWait w) s = .next (if barRsv (wxOf c s) w false then statusBad w.sd.toNat (wxOf c s) s
      else barWait c (w.sa.toNat / 16) (w.sa.toNat % 16) w.sb.toNat w.sd.toNat false (wxOf c s) s) := by
  have hcommit := h.commit_closed hr
  have hres : c.resumed = false := by rw [Cur.resumed, hf.wait, hf.wph]; rfl
  show execBarWait w s = _
  rw [execBarWait, onIssuer_of_cur _ h.cur]
  simp only [hres, Bool.false_eq_true, if_false, scalarWord_qualified h _ hq, hcommit]
  rfl

/-- `BAR.sync` issued afresh (R278). -/
theorem Issuing.barSync_eq (hr : x.region.opened = false) (hf : Fresh c) {w : WS} (hq : qualified x w.qual.toNat) :
    let level := w.sa.toNat / 16
    let num := w.sa.toNat % 16
    exec (.barSync w) s = .next (if barRsv (wxOf c s) w false then statusBad w.sd.toNat (wxOf c s) s
      else if (barOf s x level num).broken then status w.sd.toNat 4 (wxOf c s) s
      else barWait c level num w.sb.toNat w.sd.toNat true (wxOf c s) (barArrive s c.gid level num)) := by
  have hcommit := h.commit_closed hr
  have hres : c.resumed = false := by rw [Cur.resumed, hf.wait, hf.wph]; rfl
  show execBarSync w s = _
  rw [execBarSync, onIssuer_of_cur _ h.cur]
  simp only [hres, Bool.false_eq_true, if_false, scalarWord_qualified h _ hq, hcommit]
  rw [← h.wx_group]
  rfl

/-- `BAR.wait` and `BAR.sync` that go on wait for the phase they began with (R104, R278). -/
theorem Issuing.bar_resumed {w : WS} {l n p : Nat} (hw : c.wait = some (.barrier l n p)) {i : Instr} {wph : Bool}
    (hi : exec i s = .next (barWait c (w.sa.toNat / 16) (w.sa.toNat % 16) w.sb.toNat w.sd.toNat wph (wxOf c s) s)) :
    WaitsFor i s s c x sp (.barrier l n p) wph false w.sb.toNat w.sd.toNat ((barOf s x l n).phase ≠ p ∨ (barOf s x l n).broken = true)
      (x.owes w.sd.toNat (if (barOf s x l n).broken then 4 else 0)) := by
  refine h.waitsFor (hi.trans ?_) (waitMet_barrier s x l n p) fun _ => h.barDone_owes l n w.sd.toNat (some p)
  simp only [barWait, hw]

theorem Issuing.barWait_resumes {l n p : Nat} (hw : c.wait = some (.barrier l n p)) (w : WS) :
    exec (.barWait w) s = .next (barWait c (w.sa.toNat / 16) (w.sa.toNat % 16) w.sb.toNat w.sd.toNat false (wxOf c s) s) := by
  have hres : c.resumed = true := by rw [Cur.resumed, hw]; rfl
  show execBarWait w s = _
  rw [execBarWait, onIssuer_of_cur _ h.cur]
  simp only [hres, if_true]
  rfl

theorem Issuing.barSync_resumes {l n p : Nat} (hw : c.wait = some (.barrier l n p)) (w : WS) :
    exec (.barSync w) s = .next (barWait c (w.sa.toNat / 16) (w.sa.toNat % 16) w.sb.toNat w.sd.toNat true (wxOf c s) s) := by
  have hres : c.resumed = true := by rw [Cur.resumed, hw]; rfl
  show execBarSync w s = _
  rw [execBarSync, onIssuer_of_cur _ h.cur]
  simp only [hres, if_true]
  rfl

end

/-! ### Arrivals of `BAR` (R277, R278) -/

/-- A `BAR` arrives: nothing of its group is on its way, its barrier is not broken, its holder is there, and the group has not arrived in the phase. -/
structure Arriving (s : State) (x : Group) (t : Team) (w : WS) : Prop where
  closed : x.region.opened = false
  stores : x.egress = []
  invals : s.invals = []
  here : BarHere t w
  holder : HasBarriers s t (w.sa.toNat / 16)
  awake : holderSaved s x (w.sa.toNat / 16) = false
  sound : (barOf s x (w.sa.toNat / 16) (w.sa.toNat % 16)).broken = false
  first : apOf x (w.sa.toNat / 16) (w.sa.toNat % 16) ≠ some (barOf s x (w.sa.toNat / 16) (w.sa.toNat % 16)).phase

section
variable {s : State} {c : Cur} {x : Group} {sp : Split} {t : Team} {w : WS} (h : Issuing s c x sp t) (ha : Arriving s x t w) (hq : qualified x w.qual.toNat)
include h ha

theorem Issuing.arrival :
    let y := x.marking sp.mask (w.sa.toNat / 16) (w.sa.toNat % 16) (barOf s x (w.sa.toNat / 16) (w.sa.toNat % 16)).phase
    let v := barArrive s c.gid (w.sa.toNat / 16) (w.sa.toNat % 16)
    Counted (s.withGrp c.gid y) v y (w.sa.toNat / 16) (w.sa.toNat % 16) ∧ Map.find v.groups c.gid = some y := by
  have hv := h.barArrive_counts ha.stores ha.invals ha.here.1.level_lt ha.holder ha.first ha.awake
  exact ⟨hv, by rw [hv.groups]; exact State.find_withGrp ..⟩

include hq

/-- `BAR.arv` answers with the phase of its arrival. -/
theorem Issuing.barArv_arrives (he : w.sb.toNat = 0) :
    let b := barOf s x (w.sa.toNat / 16) (w.sa.toNat % 16)
    Arrives (.barArv w) s c.gid x (w.sa.toNat / 16) (w.sa.toNat % 16) ((x.marking sp.mask (w.sa.toNat / 16) (w.sa.toNat % 16) b.phase).owes w.sd.toNat b.phase) := by
  intro b
  obtain ⟨hv, hfind⟩ := h.arrival ha
  refine hv.arrives (x.marking_team ..) (by rfl) ?_
  rw [h.barArv_eq ha.closed hq ha.here he, ha.sound, State.grp_of_find hfind, Group.apOf_marking]
  exact congrArg Host.Outcome.next (status_owes (w := wxOf c s) hfind _ _)

variable (hf : Fresh c)
include hf

/-- `BAR.sync` arrives, and comes to its waiting phase. -/
theorem Issuing.barSync_waits :
    let level := w.sa.toNat / 16
    let num := w.sa.toNat % 16
    let p := (barOf s x level num).phase
    exec (.barSync w) s = .next (waitPhase c (.barrier level num p) true w.sb.toNat w.sd.toNat false (barDone level num w.sd.toNat (some p)) (wxOf c s)
      (barArrive s c.gid level num)) := by
  intro level num p
  have hrsv : ¬barRsv (wxOf c s) w false = true := by
    rw [h.barRsv_iff]
    exact not_not.2 ⟨ha.here, fun hw => absurd hw Bool.false_ne_true⟩
  have hap : apOf ((barArrive s c.gid level num).grp (wxOf c s).g) level num = some p := by
    rw [show (wxOf c s).g = c.gid from rfl, State.grp_of_find (h.arrival ha).2, Group.apOf_marking]
  rw [h.barSync_eq ha.closed hf hq, if_neg hrsv, ha.sound, if_neg Bool.false_ne_true, barWait_arrived hf.wait hap]

omit hq hf in
/-- The barrier that the waiting phase finds has counted the arrival. -/
theorem Issuing.barOf_arrived :
    let level := w.sa.toNat / 16
    let num := w.sa.toNat % 16
    barOf (barArrive s c.gid level num) (wxOf c s).x level num = (barOf s x level num).counted (barExpected s x level) := by
  intro level num
  obtain ⟨hv, -⟩ := h.arrival ha
  have hteam : (wxOf c s).x.team = (x.marking sp.mask level num (barOf s x level num).phase).team := by rw [h.wx_group, x.marking_team]
  rw [barOf_congr hteam rfl rfl rfl, hv.counted, barOf_congr (x.marking_team ..) rfl rfl rfl, barExpected_congr (x.marking_team ..) rfl rfl]
  rfl

/-- `BAR.sync` of the last group to arrive goes on (R278). -/
theorem Issuing.barSync_completes :
    let level := w.sa.toNat / 16
    let num := w.sa.toNat % 16
    let b := barOf s x level num
    b.phase < 2 ^ 32 → b.arrived + 1 = barExpected s x level →
      Arrives (.barSync w) s c.gid x level num ((x.marking sp.mask level num b.phase).owes w.sd.toNat 0) := by
  intro level num b hp hlast
  obtain ⟨hv, hfind⟩ := h.arrival ha
  have hbar : barOf (barArrive s c.gid level num) (wxOf c s).x level num = b.counted (barExpected s x level) := h.barOf_arrived ha
  rw [Barrier.counted, if_pos hlast] at hbar
  have hmet : waitMet (barArrive s c.gid level num) (wxOf c s).x (.barrier level num b.phase) = true := by
    rw [waitMet_barrier, hbar]
    left
    show (b.phase + 1) % 2 ^ 32 ≠ b.phase
    omega
  have hspl : ((barArrive s c.gid level num).spl (wxOf c s).g (wxOf c s).slot).haz = [] :=
    (congrArg Split.haz (State.spl_of_split hfind (Group.split_marking h.split h.settled ..))).trans h.settled
  refine hv.arrives (x.marking_team ..) (by rfl) ?_
  rw [h.barSync_waits ha hq hf, waitPhase_met _ _ _ _ _ hmet, barDone_eq hspl, hbar, ha.sound, if_neg Bool.false_ne_true]
  exact congrArg Host.Outcome.next (status_owes (w := wxOf c s) hfind _ _)

/-- `BAR.sync` of an earlier group waits, as long as its context and its exponent let it (R278, R279, R386). -/
theorem Issuing.barSync_stays :
    let level := w.sa.toNat / 16
    let num := w.sa.toNat % 16
    let b := barOf s x level num
    let y := x.marking sp.mask level num b.phase
    b.arrived + 1 ≠ barExpected s x level →
      (Abandoned s x → Arrives (.barSync w) s c.gid x level num (y.owes w.sd.toNat 3)) ∧
      (¬Abandoned s x → Arrives (.barSync w) s c.gid x level num
        (if w.sb.toNat = 0 then y.owes w.sd.toNat 1 else y.waits c sp (.barrier level num b.phase) true (waitEnd s w.sb.toNat))) := by
  intro level num b y hmore
  obtain ⟨hv, hfind⟩ := h.arrival ha
  have hbar : barOf (barArrive s c.gid level num) (wxOf c s).x level num = b.counted (barExpected s x level) := h.barOf_arrived ha
  rw [Barrier.counted, if_neg hmore] at hbar
  have hunmet : ¬waitMet (barArrive s c.gid level num) (wxOf c s).x (.barrier level num b.phase) = true := by
    rw [waitMet_barrier, hbar]
    have hsound : b.broken = false := ha.sound
    simp [hsound]
  have hctx : abandoned (barArrive s c.gid level num) (wxOf c s).x = true ↔ Abandoned s x := by
    rw [← abandoned_iff, h.wx_group, abandoned, State.ctxOf, hv.ctxs ?_]
    · rfl
    · rwa [barOf_congr (x.marking_team ..) rfl rfl rfl, barExpected_congr (x.marking_team ..) rfl rfl]
  refine ⟨fun hab => hv.arrives (x.marking_team ..) (by rfl) ?_, fun hab => hv.arrives (x.marking_team ..) ?_ ?_⟩
  · rw [h.barSync_waits ha hq hf, waitPhase_abandoned _ _ _ _ _ hunmet (hctx.2 hab)]
    exact congrArg Host.Outcome.next (status_owes (w := wxOf c s) hfind _ _)
  · split
    · rfl
    · unfold Group.waits Group.setSplit
      split <;> rfl
  · rw [h.barSync_waits ha hq hf, waitPhase_open _ _ _ _ _ hunmet (hctx.not.2 hab) hf.expired]
    split
    · exact congrArg Host.Outcome.next (status_owes (w := wxOf c s) hfind _ _)
    · have hdue : waitDue (barArrive s c.gid level num) c w.sb.toNat = waitEnd s w.sb.toNat := by
        rw [waitDue_eq, hf.deadline, waitEnd, waitEnd, hv.time]
        rfl
      rw [hold_of_find hfind (Group.split_marking h.split h.settled ..), hdue]

end

/-! ### The other ends of `BAR`, and `BARQ` (R278, R280, R282) -/

section
variable {s : State} {c : Cur} {x : Group} {sp : Split} {t : Team} {w : WS} (h : Issuing s c x sp t) (hr : x.region.opened = false) (hq : qualified x w.qual.toNat)
include h hr hq

/-- `BAR.arv` on a broken barrier answers 4 (R282). -/
theorem Issuing.barArv_broken (hb : BarHere t w) (he : w.sb.toNat = 0) (hk : (barOf s x (w.sa.toNat / 16) (w.sa.toNat % 16)).broken = true) :
    Becomes (.barArv w) s c.gid (x.owes w.sd.toNat 4) := by
  rw [Becomes, h.barArv_eq hr hq hb he, if_pos hk]
  exact congrArg Host.Outcome.next (status_owes (w := wxOf c s) h.group _ _)

/-- `BAR.arv` of a group that has arrived in the phase answers with the phase, and does not count (R277). -/
theorem Issuing.barArv_again (hb : BarHere t w) (he : w.sb.toNat = 0) (hx : x.egress = []) (hi : s.invals = [])
    (hk : (barOf s x (w.sa.toNat / 16) (w.sa.toNat % 16)).broken = false)
    (ha : apOf x (w.sa.toNat / 16) (w.sa.toNat % 16) = some (barOf s x (w.sa.toNat / 16) (w.sa.toNat % 16)).phase) :
    Becomes (.barArv w) s c.gid (x.owes w.sd.toNat (barOf s x (w.sa.toNat / 16) (w.sa.toNat % 16)).phase) := by
  have hstatus := status_owes (w := wxOf c s) (State.find_withGrp s c.gid x) w.sd.toNat (barOf s x (w.sa.toNat / 16) (w.sa.toNat % 16)).phase
  rw [Becomes, h.barArv_eq hr hq hb he, hk, if_neg Bool.false_ne_true, h.barArrive_again hx hi hb.1.level_lt ha, State.grp_withGrp, ha]
  exact congrArg Host.Outcome.next (hstatus.trans (State.withGrp_withGrp ..))

section
variable (hf : Fresh c)
include hf

theorem Issuing.barSync_malformed (hb : ¬BarHere t w) : Results (.barSync w) s c.gid x true (fun _ => true) ⟨.s, w.sd.toNat, 1⟩ (fun _ => .bad .malformed) := by
  have hrsv : barRsv (wxOf c s) w false = true := (h.barRsv_iff w false).2 fun hw => hb hw.1
  exact h.malformed_status (by rw [h.barSync_eq hr hf hq, if_pos hrsv])

theorem Issuing.barWait_malformed (hb : ¬BarHere t w) : Results (.barWait w) s c.gid x true (fun _ => true) ⟨.s, w.sd.toNat, 1⟩ (fun _ => .bad .malformed) := by
  have hrsv : barRsv (wxOf c s) w false = true := (h.barRsv_iff w false).2 fun hw => hb hw.1
  exact h.malformed_status (by rw [h.barWait_eq hr hf hq, if_pos hrsv])

/-- `BAR.sync` on a broken barrier answers 4 (R282). -/
theorem Issuing.barSync_broken (hb : BarHere t w) (hk : (barOf s x (w.sa.toNat / 16) (w.sa.toNat % 16)).broken = true) :
    Becomes (.barSync w) s c.gid (x.owes w.sd.toNat 4) := by
  have hrsv : ¬barRsv (wxOf c s) w false = true := (h.barRsv_iff w false).not.2 (not_not.2 ⟨hb, fun hw => absurd hw Bool.false_ne_true⟩)
  rw [Becomes, h.barSync_eq hr hf hq, if_neg hrsv, if_pos hk]
  exact congrArg Host.Outcome.next (status_owes (w := wxOf c s) h.group _ _)

/-- `BAR.wait` in order comes to its waiting phase. -/
theorem Issuing.barWait_goes (hb : BarHere t w) :
    exec (.barWait w) s = .next (barWait c (w.sa.toNat / 16) (w.sa.toNat % 16) w.sb.toNat w.sd.toNat false (wxOf c s) s) := by
  have hrsv : ¬barRsv (wxOf c s) w false = true := (h.barRsv_iff w false).not.2 (not_not.2 ⟨hb, fun hw => absurd hw Bool.false_ne_true⟩)
  rw [h.barWait_eq hr hf hq, if_neg hrsv]

/-- `BAR.wait` with no arrival pending goes on at once (R278). -/
theorem Issuing.barWait_unarrived (hb : BarHere t w) (ha : apOf x (w.sa.toNat / 16) (w.sa.toNat % 16) = none) :
    Becomes (.barWait w) s c.gid (x.owes w.sd.toNat (if (barOf s x (w.sa.toNat / 16) (w.sa.toNat % 16)).broken then 4 else 0)) := by
  have hap : apOf (s.grp (wxOf c s).g) (w.sa.toNat / 16) (w.sa.toNat % 16) = none := by rw [show (wxOf c s).g = c.gid from rfl, State.grp_of_find h.group, ha]
  rw [Becomes, h.barWait_goes hr hq hf hb, barWait_never hf.wait hap, h.barDone_owes]
  rfl

/-- `BAR.wait` after an arrival waits for the phase of that arrival (R278). -/
theorem Issuing.barWait_waits (hb : BarHere t w) {p : Nat} (ha : apOf x (w.sa.toNat / 16) (w.sa.toNat % 16) = some p) :
    WaitsFor (.barWait w) s s c x sp (.barrier (w.sa.toNat / 16) (w.sa.toNat % 16) p) false false w.sb.toNat w.sd.toNat
      ((barOf s x (w.sa.toNat / 16) (w.sa.toNat % 16)).phase ≠ p ∨ (barOf s x (w.sa.toNat / 16) (w.sa.toNat % 16)).broken = true)
      (x.owes w.sd.toNat (if (barOf s x (w.sa.toNat / 16) (w.sa.toNat % 16)).broken then 4 else 0)) := by
  have hap : apOf (s.grp (wxOf c s).g) (w.sa.toNat / 16) (w.sa.toNat % 16) = some p := by rw [show (wxOf c s).g = c.gid from rfl, State.grp_of_find h.group, ha]
  refine h.waitsFor ((h.barWait_goes hr hq hf hb).trans ?_) (waitMet_barrier s x _ _ p) fun _ => h.barDone_owes _ _ w.sd.toNat (some p)
  rw [barWait_arrived hf.wait hap]

end

/-- What a `BARQ` reads of a barrier by its field SUB (R280). -/
def barReads (s : State) (x : Group) (level num n : Nat) : Nat :=
  match n with
  | 0 => (barOf s x level num).phase
  | 1 => (barOf s x level num).arrived
  | 2 => barExpected s x level
  | 3 => (apOf x level num).getD 0xFFFFFFFF
  | _ => ofBool (barOf s x level num).broken

omit hr hq in
/-- The fields of a `BARQ` are out of order (R280). -/
theorem Issuing.barqRsv_iff : (decide (5 ≤ w.sub.toNat) || w.sb != 0 || !barExists (wxOf c s).team (barLevel w.sa.toNat) (barNum w.sa.toNat)) = true ↔
    ¬BarExists t (w.sa.toNat / 16) (w.sa.toNat % 16) ∨ 5 ≤ w.sub.toNat ∨ w.sb.toNat ≠ 0 := by
  have hteam : (wxOf c s).team = t := by rw [h.wx]
  have hex := barExists_iff t (w.sa.toNat / 16) (num := w.sa.toNat % 16) (Nat.mod_lt _ (by decide))
  have hz : w.sb = 0 ↔ w.sb.toNat = 0 := BitVec.toNat_inj.symm
  simp only [hteam, barLevel, barNum, Bool.or_eq_true, decide_eq_true_eq, bne_iff_ne, ne_eq, hz, Bool.not_eq_true', ← Bool.not_eq_true, hex]
  tauto

theorem Issuing.barq_malformed (hb : ¬BarExists t (w.sa.toNat / 16) (w.sa.toNat % 16) ∨ 5 ≤ w.sub.toNat ∨ w.sb.toNat ≠ 0) :
    Results (.barq w) s c.gid x true (fun _ => true) ⟨.s, w.sd.toNat, 1⟩ (fun _ => .bad .malformed) := by
  refine h.malformed_status ?_
  show execBarq w s = _
  rw [execBarq, h.visibleScalar_eq hr _ hq, if_pos (h.barqRsv_iff.2 hb)]

/-- `BARQ` answers with what it reads (R280). -/
theorem Issuing.barq_reads (hb : BarExists t (w.sa.toNat / 16) (w.sa.toNat % 16)) (hn : w.sub.toNat < 5) (he : w.sb.toNat = 0) :
    Results (.barq w) s c.gid x true (fun _ => true) ⟨.s, w.sd.toNat, 1⟩
      (fun _ => .val (barReads s x (w.sa.toNat / 16) (w.sa.toNat % 16) w.sub.toNat)) := by
  have hrsv := h.barqRsv_iff.not.2 (not_or.2 ⟨not_not.2 hb, not_or.2 ⟨not_le.2 hn, not_not.2 he⟩⟩)
  have hi : exec (.barq w) s = .next (status w.sd.toNat (barReads s x (w.sa.toNat / 16) (w.sa.toNat % 16) w.sub.toNat) (wxOf c s) s) := by
    show execBarq w s = _
    rw [execBarq, h.visibleScalar_eq hr _ hq, if_neg hrsv, h.wx_group]
    rfl
  obtain ⟨ws, h1, h2, h3⟩ := finishS_spec true w.sd.toNat 1 (.val (barReads s x (w.sa.toNat / 16) (w.sa.toNat % 16) w.sub.toNat)) (wxOf c s) s x h.group h.resident
  exact ⟨_, ws, hi, h1, h2, h3⟩

end

/-- Settles O42: an arrival changes one barrier of the group's, which each form of `BAR` then waits for, and `BARQ` reads. -/
theorem barrierWords : Obligations.BarrierWords := by
  intro s c x sp t w h hq hr he hi level num sd e b mine expected out exists_ here marked turned arrives hh hs
  refine ⟨?_, fun hf => ⟨fun hb hsound hfirst => ?_, fun hb h0 hsound ha => h.barArv_again hr hq hb h0 he hi hsound ha,
    fun hb hk => ⟨fun h0 => h.barArv_broken hr hq hb h0 hk, h.barSync_broken hr hq hf hb hk⟩, fun hb ha => h.barWait_unarrived hr hq hf hb ha,
    fun hb p ha => h.barWait_waits hr hq hf hb ha, fun hb => ⟨h.barSync_malformed hr hq hf hb, h.barWait_malformed hr hq hf hb⟩⟩,
    h.barArv_reserved hr hq, ?_, ?_⟩
  · intro l n p hw i hmem
    simp only [List.mem_cons, List.not_mem_nil, or_false] at hmem
    rcases hmem with rfl | rfl
    · exact h.bar_resumed hw (h.barWait_resumes hw w)
    · exact h.bar_resumed hw (h.barSync_resumes hw w)
  · have ha : Arriving s x t w := ⟨hr, he, hi, hb, hh, hs, hsound, hfirst⟩
    exact ⟨h.barArv_arrives ha hq, h.barSync_completes ha hq hf, fun hmore => (h.barSync_stays ha hq hf hmore).2, fun _ hmore => (h.barSync_stays ha hq hf hmore).1⟩
  · intro hb h0 n v hn hmem
    have hreads : w.sub.toNat < 5 ∧ barReads s x level num w.sub.toNat = v := by
      simp only [List.mem_cons, Prod.mk.injEq, List.not_mem_nil, or_false] at hmem
      rw [hn]
      rcases hmem with ⟨rfl, rfl⟩ | ⟨rfl, rfl⟩ | ⟨rfl, rfl⟩ | ⟨rfl, rfl⟩ | ⟨rfl, rfl⟩ <;> exact ⟨by decide, rfl⟩
    obtain ⟨hlt, rfl⟩ := hreads
    exact h.barq_reads hr hq hb hlt h0
  · exact h.barq_malformed hr hq

end Sys2Proof.Machine
end

section
/-! PROOFS. The matrix queue (R173, R178): a load that names a row no group has. -/
namespace Sys2Proof.Machine

/-- An `ALD` of rows 0 and 128: of row 0, 17 registers that hold 1, and of row 128, which no group has, one register that holds 2. Element 0 of row 128 in block 0
and element 0 of row 0 in block 1 have the same key (`tasKey`). -/
def strayLoad : MxEntry :=
  { gid := 2, pc := 0, fmt := 0, op := .load 0 [(0, List.replicate 17 (.val 1)), (128, [.val 2])] }

def strayGroup : Group := { Group.blank with team := 1 }

/-- The machine with that load at the head of core 0's matrix queue. -/
def strayState : State :=
  { State.reset with groups := [(2, strayGroup)], teams := [(1, Team.blank)], ctxs := [], cores := [(0, { Core.zero with mxq := [strayLoad] })] }

/-- The register of row 128 overwrites what row 0 put into element 0 of block 1. -/
theorem mxStep_strayState_tasAt : ((mxStep strayState 0).grp 2).tasAt 1 0 0 = ⟨2, false⟩ := by decide +kernel

/-- Refutes O33: the clause of loads asks only of the row it speaks of, and not of every row of the entry, to lie below 128; of `strayLoad` it claims that element 0 of
row 0 in block 1 holds register 16 of row 0, where the model leaves the register of row 128. -/
theorem not_matrixQueueExecutes : ¬ Obligations.MatrixQueueExecutes := by
  unfold Obligations.MatrixQueueExecutes
  rintro ⟨hhead, -⟩
  obtain ⟨u, y, hexec, -, hfind, -, -, hload⟩ := hhead strayState 0 strayLoad [] strayGroup Team.blank rfl rfl rfl rfl rfl rfl rfl (by decide)
  have hu : mxStep strayState 0 = u := Host.Outcome.next.inj hexec
  have hy : (mxStep strayState 0).grp 2 = y := by rw [hu, State.grp, show 2 = strayLoad.gid from rfl, hfind, Option.getD_some]
  have hclaim : y.tasAt 1 0 0 = ⟨1, false⟩ := hload (by decide) (0, List.replicate 17 (.val 1)) (by decide) (by decide) 16 (.val 1) rfl
  rw [← hy, mxStep_strayState_tasAt] at hclaim
  exact absurd hclaim (by decide)

end Sys2Proof.Machine
end

section
/-! PROOFS. The values of a float format (R116, R126): its patterns in order of magnitude, and what a pattern stands for. -/
namespace Sys2Proof.Machine

/-- What the rounding of a format turns on: a fraction, and an exponent field with a place for normal numbers. -/
structure FFmt.Sound (F : FFmt) : Prop where
  exponent : 2 ≤ F.ebits
  fraction : 1 ≤ F.fbits

/-- The magnitude of a pattern with its sign bit clear, were there no infinity: from the pattern of infinity on the scale goes on. -/
def FFmt.mag (F : FFmt) (b : Nat) : Rat :=
  if b < 2 ^ F.fbits then b * 2 ^ F.qmin else ((2 ^ F.fbits + b % 2 ^ F.fbits : Nat) : Rat) * 2 ^ (F.qmin + (b / 2 ^ F.fbits : Nat) - 1)

theorem two_zpow_pos (e : Int) : (0 : Rat) < 2 ^ e := zpow_pos (by norm_num) e
theorem two_zpow_add (a b : Int) : (2 : Rat) ^ (a + b) = 2 ^ a * 2 ^ b := zpow_add₀ (by norm_num) a b
/-- A power of two whose exponent is no less, as a natural multiple. -/
theorem two_zpow_of_le {a b : Int} (h : a ≤ b) : (2 : Rat) ^ b = (2 ^ (b - a).toNat : Nat) * 2 ^ a := by
  conv_lhs => rw [← Int.sub_add_cancel b a, ← Int.toNat_of_nonneg (Int.sub_nonneg_of_le h)]
  rw [two_zpow_add, zpow_natCast, Nat.cast_pow, Nat.cast_ofNat]

section
variable {F : FFmt}

/-- The pattern at step `n` above the one where exponent `k` of the scale begins; the last step is the first one of the next exponent. -/
theorem FFmt.mag_step (F : FFmt) {k n : Nat} (hn : n ≤ 2 * 2 ^ F.fbits) (hk : k = 0 ∨ 2 ^ F.fbits ≤ n) :
    F.mag (k * 2 ^ F.fbits + n) = n * 2 ^ (F.qmin + k) := by
  rw [FFmt.mag]
  have hP : 0 < 2 ^ F.fbits := Nat.two_pow_pos _
  generalize 2 ^ F.fbits = P at hn hk hP ⊢
  rcases lt_or_ge n P with hlt | hge
  · obtain rfl : k = 0 := hk.resolve_right (by omega)
    rw [if_pos (by omega)]
    simp
  rw [if_neg (by nlinarith)]
  rcases hn.lt_or_eq with hlt | rfl
  · have hdiv : (k * P + n) / P = k + 1 := Nat.div_eq_of_lt_le (by nlinarith) (by nlinarith)
    have hmod := Nat.div_add_mod (k * P + n) P
    rw [hdiv] at hmod ⊢
    rw [show P + (k * P + n) % P = n by nlinarith]
    congr 2
    push_cast
    ring
  · rw [show k * P + 2 * P = P * (k + 2) by ring, Nat.mul_mod_right, Nat.mul_div_cancel_left _ hP,
      show F.qmin + ((k + 2 : Nat) : Int) - 1 = (F.qmin + k) + 1 by push_cast; ring, two_zpow_add]
    push_cast
    ring

/-- Every pattern is a step of the scale. -/
theorem FFmt.exists_step (F : FFmt) (b : Nat) : ∃ k n, b = k * 2 ^ F.fbits + n ∧ n < 2 * 2 ^ F.fbits ∧ (k = 0 ∨ 2 ^ F.fbits ≤ n) := by
  have hP : 0 < 2 ^ F.fbits := Nat.two_pow_pos _
  generalize 2 ^ F.fbits = P at hP ⊢
  rcases lt_or_ge b P with hlt | hge
  · exact ⟨0, b, by omega, by omega, .inl rfl⟩
  · have hmod := Nat.mod_lt b hP
    have hdiv : 1 ≤ b / P := (Nat.one_le_div_iff hP).2 hge
    refine ⟨b / P - 1, P + b % P, ?_, by omega, .inr (by omega)⟩
    have := Nat.div_add_mod b P
    obtain ⟨q, hq⟩ := Nat.exists_eq_add_of_le hdiv
    rw [hq] at this ⊢
    rw [Nat.add_sub_cancel_left]
    nlinarith

theorem FFmt.mag_strictMono (F : FFmt) : StrictMono F.mag := by
  refine strictMono_nat_of_lt_succ fun b => ?_
  obtain ⟨k, n, rfl, hn, hk⟩ := F.exists_step b
  rw [F.mag_step hn.le hk, add_assoc, F.mag_step hn (hk.imp_right fun h => h.trans (Nat.le_succ n))]
  exact mul_lt_mul_of_pos_right (by exact_mod_cast Nat.lt_succ_self n) (two_zpow_pos _)

theorem FFmt.mag_zero (F : FFmt) : F.mag 0 = 0 := by simp [FFmt.mag]
theorem FFmt.mag_nonneg (F : FFmt) (b : Nat) : 0 ≤ F.mag b := F.mag_zero ▸ F.mag_strictMono.monotone (Nat.zero_le b)

/-! ### The patterns of infinity and of the largest finite number -/

theorem FFmt.signBit_eq (F : FFmt) : F.signBit = 2 ^ F.ebits * 2 ^ F.fbits := pow_add ..
theorem FFmt.infBits_lt_signBit (F : FFmt) : F.infBits < F.signBit := by
  rw [F.signBit_eq]
  exact Nat.mul_lt_mul_of_pos_right (Nat.sub_lt (Nat.two_pow_pos _) one_pos) (Nat.two_pow_pos _)

theorem FFmt.Sound.four_le (h : F.Sound) : 4 ≤ 2 ^ F.ebits := Nat.pow_le_pow_right (n := 2) (by norm_num) h.exponent
theorem FFmt.Sound.even_fraction (h : F.Sound) : 2 ∣ 2 ^ F.fbits := dvd_pow_self 2 (Nat.one_le_iff_ne_zero.1 h.fraction)
theorem FFmt.Sound.even_infBits (h : F.Sound) : 2 ∣ F.infBits := Dvd.dvd.mul_left h.even_fraction _
theorem FFmt.Sound.even_signBit (h : F.Sound) : 2 ∣ F.signBit := F.signBit_eq ▸ Dvd.dvd.mul_left h.even_fraction _
theorem FFmt.Sound.infBits_pos (h : F.Sound) : 0 < F.infBits := Nat.mul_pos (by have := h.four_le; omega) (Nat.two_pow_pos _)
theorem FFmt.Sound.maxBits_succ (h : F.Sound) : F.maxBits + 1 = F.infBits := Nat.sub_add_cancel h.infBits_pos

/-- Infinity stands one unit above the largest finite number; half a unit above it rounding to nearest overflows (R126). -/
theorem FFmt.Sound.mag_infBits (h : F.Sound) : F.mag F.infBits = F.mag F.maxBits + 2 * 2 ^ ((F.bias : Int) - F.fbits - 1) := by
  have hE := h.four_le
  have hP : 0 < 2 ^ F.fbits := Nat.two_pow_pos _
  have hinf : F.infBits = (2 ^ F.ebits - 3) * 2 ^ F.fbits + 2 * 2 ^ F.fbits := by
    rw [FFmt.infBits, ← Nat.add_mul]; congr 1; omega
  have hmax : F.maxBits = (2 ^ F.ebits - 3) * 2 ^ F.fbits + (2 * 2 ^ F.fbits - 1) := by rw [FFmt.maxBits, hinf]; omega
  have hbias : 2 ^ F.ebits = 2 * F.bias + 2 := by
    have : 2 ^ F.ebits = 2 * 2 ^ (F.ebits - 1) := by rw [← pow_succ', Nat.sub_add_cancel (by have := h.exponent; omega)]
    rw [FFmt.bias]; omega
  have hexp : F.qmin + ((2 ^ F.ebits - 3 : Nat) : Int) = (F.bias : Int) - F.fbits - 1 + 1 := by rw [FFmt.qmin]; omega
  rw [hmax, F.mag_step (by omega) (.inr (by omega)), hinf, F.mag_step le_rfl (.inr (by omega)), hexp, two_zpow_add, Nat.cast_sub (by omega)]
  push_cast
  ring

/-! ### What a pattern stands for -/

/-- The fields of a pattern, read from the pattern without its sign. -/
theorem FFmt.decode_eq (F : FFmt) (c : Nat) :
    F.decode c = if (c % F.signBit) / 2 ^ F.fbits = 2 ^ F.ebits - 1 then
        if c % 2 ^ F.fbits = 0 then .inf (bit c (F.ebits + F.fbits)) else .nan (!bit (c % 2 ^ F.fbits) (F.fbits - 1))
      else if (c % F.signBit) / 2 ^ F.fbits = 0 then .fin (bit c (F.ebits + F.fbits)) (c % 2 ^ F.fbits) F.qmin
      else .fin (bit c (F.ebits + F.fbits)) (c % 2 ^ F.fbits + 2 ^ F.fbits) (F.qmin + ((c % F.signBit) / 2 ^ F.fbits : Nat) - 1) := by
  have hex : bits c F.fbits F.ebits = (c % F.signBit) / 2 ^ F.fbits := by
    rw [bits_eq, F.signBit_eq, Nat.mul_comm, Nat.mod_mul_right_div_self]
  have hfr : bits c 0 F.fbits = c % 2 ^ F.fbits := by rw [bits_eq, pow_zero, Nat.div_one]
  simp only [FFmt.decode, hex, hfr, beq_iff_eq]

theorem FFmt.div_eq_top_iff (F : FFmt) {b : Nat} (hb : b < F.signBit) : b / 2 ^ F.fbits = 2 ^ F.ebits - 1 ↔ F.infBits ≤ b := by
  have hP : 0 < 2 ^ F.fbits := Nat.two_pow_pos _
  have hlt : b / 2 ^ F.fbits < 2 ^ F.ebits := (Nat.div_lt_iff_lt_mul hP).2 (F.signBit_eq ▸ hb)
  rw [FFmt.infBits, ← Nat.le_div_iff_mul_le hP]
  omega

theorem FFmt.mod_signBit_lt (F : FFmt) (c : Nat) : c % F.signBit < F.signBit := Nat.mod_lt _ (Nat.two_pow_pos _)

theorem FFmt.isFinite_decode (F : FFmt) (c : Nat) : IsFinite (F.decode c) ↔ c % F.signBit < F.infBits := by
  rw [← Nat.not_le, ← F.div_eq_top_iff (F.mod_signBit_lt c), F.decode_eq]
  split
  · next htop =>
    have hinf : ∀ x : FNum, x.isNaN = true ∨ x.isInf = true → ¬IsFinite x := by rintro x (h | h) ⟨h1, h2⟩ <;> simp_all
    simp only [htop, not_true, iff_false]
    split
    · exact hinf _ (.inr rfl)
    · exact hinf _ (.inl rfl)
  · next htop => split <;> simp [IsFinite, FNum.isNaN, FNum.isInf, htop]

/-- The magnitude with the sign of a pattern. -/
def signed (neg : Bool) (x : Rat) : Rat := if neg then -x else x

theorem exactValue_fin (s : Bool) (m : Nat) (e : Int) : exactValue (.fin s m e) = signed s (m * 2 ^ e) := by
  cases s <;> simp [exactValue, signed]

theorem FFmt.exactValue_decode (F : FFmt) {c : Nat} (h : c % F.signBit < F.infBits) :
    exactValue (F.decode c) = signed (bit c (F.ebits + F.fbits)) (F.mag (c % F.signBit)) := by
  have hP : 0 < 2 ^ F.fbits := Nat.two_pow_pos _
  have hmod : c % F.signBit % 2 ^ F.fbits = c % 2 ^ F.fbits := Nat.mod_mod_of_dvd _ (F.signBit_eq ▸ dvd_mul_left _ _)
  rw [F.decode_eq, if_neg (by rw [F.div_eq_top_iff (F.mod_signBit_lt c)]; omega), FFmt.mag, ← hmod]
  split
  · next h0 =>
    have hlt := (Nat.div_eq_zero_iff_lt hP).1 h0
    rw [if_pos hlt, exactValue_fin, Nat.mod_eq_of_lt hlt]
  · next h0 => rw [if_neg fun hlt => h0 ((Nat.div_eq_zero_iff_lt hP).2 hlt), exactValue_fin, Nat.add_comm (2 ^ F.fbits)]

theorem FFmt.mod_zeroOf_add (F : FFmt) (neg : Bool) {b : Nat} (hb : b < F.signBit) : (zeroOf F neg + b) % F.signBit = b := by
  cases neg <;> simp [zeroOf, Nat.mod_eq_of_lt hb]

theorem FFmt.bit_zeroOf_add (F : FFmt) (neg : Bool) {b : Nat} (hb : b < F.signBit) : bit (zeroOf F neg + b) (F.ebits + F.fbits) = neg := by
  have hS : 0 < F.signBit := Nat.two_pow_pos _
  change (((zeroOf F neg + b) >>> (F.ebits + F.fbits)) % 2 == 1) = neg
  rw [Nat.shiftRight_eq_div_pow]
  change ((zeroOf F neg + b) / F.signBit % 2 == 1) = neg
  cases neg
  · simp [zeroOf, Nat.div_eq_of_lt hb]
  · simp [zeroOf, Nat.add_div_left _ hS, Nat.div_eq_of_lt hb]

/-- A pattern below that of infinity stands for its magnitude with its sign. -/
theorem FFmt.decode_zeroOf_add (F : FFmt) (neg : Bool) {b : Nat} (hb : b < F.infBits) :
    IsFinite (F.decode (zeroOf F neg + b)) ∧ exactValue (F.decode (zeroOf F neg + b)) = signed neg (F.mag b) := by
  have hS := hb.trans F.infBits_lt_signBit
  have hmod := F.mod_zeroOf_add neg hS
  exact ⟨by rwa [F.isFinite_decode, hmod], by rw [F.exactValue_decode (by rwa [hmod]), hmod, F.bit_zeroOf_add neg hS]⟩

/-- A number is a finite value of the format. -/
def FFmt.Value (F : FFmt) (w : Rat) : Prop := ∃ b < F.infBits, w = F.mag b ∨ w = -F.mag b

theorem FFmt.value_decode (F : FFmt) {c : Nat} (h : IsFinite (F.decode c)) : F.Value (exactValue (F.decode c)) := by
  rw [F.isFinite_decode] at h
  rw [F.exactValue_decode h, signed]
  exact ⟨_, h, by split <;> simp⟩

theorem FFmt.Value.neg {w : Rat} : F.Value w → F.Value (-w)
  | ⟨b, hb, h⟩ => ⟨b, hb, by rcases h with rfl | rfl <;> simp⟩
theorem FFmt.Value.abs {w : Rat} : F.Value w → F.Value |w|
  | ⟨b, hb, h⟩ => ⟨b, hb, .inl (by rcases h with rfl | rfl <;> simp [abs_of_nonneg (F.mag_nonneg b)])⟩
theorem FFmt.Value.signed {w : Rat} (neg : Bool) (h : F.Value w) : F.Value (signed neg w) := by
  cases neg
  · exact h
  · exact h.neg

theorem FFmt.Sound.value_le_top (hF : F.Sound) {w : Rat} : F.Value w → w ≤ F.mag F.maxBits
  | ⟨b, hb, h⟩ => by
    have hle := F.mag_strictMono.monotone (show b ≤ F.maxBits by have := hF.maxBits_succ; omega)
    have h0 := F.mag_nonneg b
    rcases h with rfl | rfl <;> linarith

/-- No value of the format lies between a pattern's magnitude and the next one's. -/
theorem FFmt.Value.gap {w : Rat} (b : Nat) : F.Value w → w ≤ F.mag b ∨ F.mag (b + 1) ≤ w
  | ⟨a, _, h⟩ => by
    rcases h with rfl | rfl
    · rcases Nat.lt_or_ge b a with hlt | hle
      · exact .inr (F.mag_strictMono.monotone hlt)
      · exact .inl (F.mag_strictMono.monotone hle)
    · exact .inl (by have := F.mag_nonneg a; have := F.mag_nonneg b; linarith)

end

end Sys2Proof.Machine
end

section
/-! PROOFS. Rounding (R124, R126): a magnitude rounded down, up or to nearest on the scale of a format is what `IsRounded` asks for, and `roundFin` rounds so. -/
namespace Sys2Proof.Machine

/-! ### Rounded magnitudes -/

/-- The pattern of the magnitude next to `r` in the direction of 0. -/
def FFmt.Down (F : FFmt) (r : Rat) (b : Nat) : Prop := b < F.infBits ∧ F.mag b ≤ r ∧ ∀ w, F.Value w → w ≤ r → w ≤ F.mag b

/-- The pattern of the magnitude next to `r` away from 0. -/
def FFmt.Up (F : FFmt) (r : Rat) (b : Nat) : Prop :=
  if F.mag F.maxBits < r then b = F.infBits else b < F.infBits ∧ r ≤ F.mag b ∧ ∀ w, F.Value w → r ≤ w → F.mag b ≤ w

/-- The pattern of the magnitude nearest to `r`, and of two the even one. -/
def FFmt.Near (F : FFmt) (r : Rat) (b : Nat) : Prop :=
  if F.mag F.maxBits + 2 ^ ((F.bias : Int) - F.fbits - 1) ≤ r then b = F.infBits
  else b < F.infBits ∧ ∀ w, F.Value w → |r - F.mag b| ≤ |r - w| ∧ (|r - F.mag b| = |r - w| → w = F.mag b ∨ b % 2 = 0)

/-- What a mode makes of a positive magnitude whose sign is `neg` (R124). -/
def FFmt.RoundsTo (F : FFmt) (mode : RMode) (neg : Bool) (r : Rat) (b : Nat) : Prop :=
  match mode, neg with
  | .rne, _ => F.Near r b
  | .rz, _ => F.Down r b
  | .rd, true => F.Up r b
  | .rd, false => F.Down r b
  | .ru, true => F.Down r b
  | .ru, false => F.Up r b

/-- The size that `IsRounded` writes out is the absolute value. -/
theorem size_eq_abs (q : Rat) : (if q < 0 then -q else q) = |q| := by
  split
  · next h => exact (abs_of_neg h).symm
  · next h => exact (abs_of_nonneg (not_lt.1 h)).symm

section
variable {F : FFmt}

theorem FFmt.Sound.exactValue_maxBits (hF : F.Sound) : exactValue (F.decode F.maxBits) = F.mag F.maxBits := by
  have h := (F.decode_zeroOf_add false (show F.maxBits < F.infBits by have := hF.maxBits_succ; omega)).2
  rwa [zeroOf, if_neg Bool.false_ne_true, Nat.zero_add] at h

theorem FFmt.RoundsTo.le_infBits {mode : RMode} {neg : Bool} {r : Rat} {b : Nat} (h : F.RoundsTo mode neg r b) : b ≤ F.infBits := by
  have hdown : F.Down r b → b ≤ F.infBits := fun h => h.1.le
  have hup : F.Up r b → b ≤ F.infBits := fun h => by
    rw [FFmt.Up] at h
    split at h
    · exact h.le
    · exact h.1.le
  have hnear : F.Near r b → b ≤ F.infBits := fun h => by
    rw [FFmt.Near] at h
    split at h
    · exact h.le
    · exact h.1.le
  cases mode <;> cases neg
  exacts [hnear h, hnear h, hdown h, hdown h, hdown h, hup h, hup h, hdown h]

theorem abs_signed (neg : Bool) (x : Rat) : |signed neg x| = |x| := by cases neg <;> simp [signed]
theorem signed_signed (neg : Bool) (x : Rat) : signed neg (signed neg x) = x := by cases neg <;> simp [signed]
/-- A distance seen from the side of a sign. -/
theorem abs_signed_sub (neg : Bool) (x y : Rat) : |signed neg x - y| = |x - signed neg y| := by
  cases neg
  · rfl
  · rw [signed, if_pos rfl, signed, if_pos rfl, ← abs_neg]; congr 1; ring

/-- The sign of a rounded number is the sign of its pattern. -/
theorem sign_of_pattern {neg : Bool} {r : Rat} {b : Nat} (hr : 0 < r) (hS : b < F.signBit) :
    zeroOf F neg + b < 2 * F.signBit ∧ (signed neg r < 0 ↔ F.signBit ≤ zeroOf F neg + b) := by
  cases neg
  · simp only [signed, zeroOf, Bool.false_eq_true, if_false]
    exact ⟨by omega, iff_of_false (by linarith) (by omega)⟩
  · simp only [signed, zeroOf, if_true]
    exact ⟨by omega, iff_of_true (by linarith) (by omega)⟩

/-- The nearest magnitude with its sign is the nearest number. -/
theorem FFmt.nearest_signed (hF : F.Sound) (neg : Bool) {r : Rat} {b : Nat}
    (h : ∀ w, F.Value w → |r - F.mag b| ≤ |r - w| ∧ (|r - F.mag b| = |r - w| → w = F.mag b ∨ b % 2 = 0)) {c : Nat} (hc : IsFinite (F.decode c)) :
    let v := exactValue (F.decode c)
    |signed neg r - signed neg (F.mag b)| ≤ |signed neg r - v| ∧
      (|signed neg r - signed neg (F.mag b)| = |signed neg r - v| → v = signed neg (F.mag b) ∨ (zeroOf F neg + b) % 2 = 0) := by
  obtain ⟨hle, heq⟩ := h _ ((F.value_decode hc).signed neg)
  have hs : 2 ∣ zeroOf F neg := by cases neg; exacts [dvd_zero 2, hF.even_signBit]
  simp only [abs_signed_sub, signed_signed]
  exact ⟨hle, fun h => (heq h).imp (fun hw => by rw [← hw, signed_signed]) fun heven => by omega⟩

/-- A rounded magnitude with its sign is the rounded number. -/
theorem FFmt.RoundsTo.isRounded (hF : F.Sound) {mode : RMode} {neg : Bool} {r : Rat} {b : Nat} (hr : 0 < r) (h : F.RoundsTo mode neg r b) :
    IsRounded F mode (signed neg r) (zeroOf F neg + b) := by
  have hS := h.le_infBits.trans_lt F.infBits_lt_signBit
  have hmod := F.mod_zeroOf_add neg hS
  obtain ⟨hlt, hsign⟩ := sign_of_pattern (neg := neg) hr hS
  have hfin := fun hb => (F.decode_zeroOf_add neg (b := b) hb).1
  have hval := fun hb => (F.decode_zeroOf_add neg (b := b) hb).2
  have hmag := F.mag_nonneg b
  have htop := F.mag_nonneg F.maxBits
  refine ⟨hlt, hsign, ?_⟩
  simp only [size_eq_abs, hF.exactValue_maxBits]
  cases mode
  case rne =>
    change F.Near r b at h
    rw [FFmt.Near] at h
    rw [abs_signed, abs_of_pos hr]
    split at h
    · next hover => rw [if_pos hover, hmod, h]
    · next hunder =>
      rw [if_neg hunder, hval h.1]
      exact ⟨⟨hlt, hfin h.1⟩, fun c hc => FFmt.nearest_signed hF neg h.2 hc.2⟩
  case rz =>
    obtain ⟨hb, hle, hmax⟩ : F.Down r b := h
    rw [hval hb, abs_signed, abs_signed, abs_of_pos hr, abs_of_nonneg hmag]
    exact ⟨⟨hlt, hfin hb⟩, hle, fun c hc hcr => hmax _ (F.value_decode hc.2).abs hcr⟩
  case rd =>
    cases neg
    · obtain ⟨hb, hle, hmax⟩ : F.Down r b := h
      simp only [signed, Bool.false_eq_true, if_false] at hval ⊢
      rw [if_neg (by linarith), hval hb]
      exact ⟨⟨hlt, hfin hb⟩, hle, fun c hc hcr => hmax _ (F.value_decode hc.2) hcr⟩
    · change F.Up r b at h
      rw [FFmt.Up] at h
      simp only [signed, if_true, neg_lt_neg_iff] at hval ⊢
      split at h
      · next hover => rw [if_pos hover, hmod, h]
      · next hunder =>
        obtain ⟨hb, hle, hmin⟩ := h
        rw [if_neg hunder, hval hb]
        exact ⟨⟨hlt, hfin hb⟩, neg_le_neg hle, fun c hc hcr => le_neg_of_le_neg (hmin _ (F.value_decode hc.2).neg (le_neg_of_le_neg hcr))⟩
  case ru =>
    cases neg
    · change F.Up r b at h
      rw [FFmt.Up] at h
      simp only [signed, Bool.false_eq_true, if_false] at hval ⊢
      split at h
      · next hover => rw [if_pos hover, hmod, h]
      · next hunder =>
        obtain ⟨hb, hle, hmin⟩ := h
        rw [if_neg hunder, hval hb]
        exact ⟨⟨hlt, hfin hb⟩, hle, fun c hc hcr => hmin _ (F.value_decode hc.2) hcr⟩
    · obtain ⟨hb, hle, hmax⟩ : F.Down r b := h
      simp only [signed, if_true] at hval ⊢
      rw [if_neg (by linarith), hval hb]
      exact ⟨⟨hlt, hfin hb⟩, neg_le_neg hle, fun c hc hcr => neg_le_of_neg_le (hmax _ (F.value_decode hc.2).neg (neg_le_of_neg_le hcr))⟩

/-! ### Where a magnitude lies -/

/-- A magnitude lies at or above a pattern's and below the next one's; `c` says where between them, as `cut` codes what it cuts off. -/
structure FFmt.Lies (F : FFmt) (r : Rat) (b c : Nat) : Prop where
  lower : F.mag b ≤ r
  upper : r < F.mag (b + 1)
  exact : c = 0 ↔ r = F.mag b
  half : c = 2 ↔ 2 * r = F.mag b + F.mag (b + 1)
  above : c = 3 ↔ F.mag b + F.mag (b + 1) < 2 * r

/-- The pattern that a mode puts in the place of one past the largest finite number (R126). -/
def FFmt.cap (F : FFmt) (mode : RMode) (neg : Bool) (b : Nat) : Nat :=
  if b < F.infBits then b
  else match mode, neg with
    | .rne, _ => F.infBits
    | .rz, _ => F.maxBits
    | .rd, true => F.infBits
    | .rd, false => F.maxBits
    | .ru, true => F.maxBits
    | .ru, false => F.infBits

theorem FFmt.Lies.down (hF : F.Sound) {r : Rat} {b c : Nat} (h : F.Lies r b c) : F.Down r (if b < F.infBits then b else F.maxBits) := by
  have hmax := hF.maxBits_succ
  split
  · next hb =>
    exact ⟨hb, h.lower, fun w hw hwr => (hw.gap b).resolve_right fun hle => absurd (hle.trans hwr) (not_le.2 h.upper)⟩
  · next hb =>
    exact ⟨by omega, (F.mag_strictMono.monotone (by omega)).trans h.lower, fun w hw _ => hF.value_le_top hw⟩

theorem FFmt.Lies.up (hF : F.Sound) {r : Rat} {b c : Nat} (h : F.Lies r b c) :
    F.Up r (if (if c ≠ 0 then b + 1 else b) < F.infBits then (if c ≠ 0 then b + 1 else b) else F.infBits) := by
  have hmax := hF.maxBits_succ
  have hmono := F.mag_strictMono
  rw [FFmt.Up]
  by_cases hc : c = 0
  · have hr := h.exact.1 hc
    simp only [hc, ne_eq, not_true, if_false, hr, hmono.lt_iff_lt, hmono.le_iff_le]
    split
    · rw [if_neg (by omega)]
    · rw [if_pos (by omega)]
      exact ⟨by omega, le_rfl, fun w _ hw => hw⟩
  · have hr : F.mag b < r := lt_of_le_of_ne h.lower fun he => hc (h.exact.2 he.symm)
    have hover : F.mag F.maxBits < r ↔ F.maxBits ≤ b :=
      ⟨fun hlt => Nat.lt_succ_iff.1 (hmono.lt_iff_lt.1 (hlt.trans h.upper)), fun hle => (hmono.monotone hle).trans_lt hr⟩
    simp only [hc, ne_eq, not_false_eq_true, if_true, hover]
    split
    · rw [if_neg (by omega)]
    · rw [if_pos (by omega)]
      exact ⟨by omega, h.upper.le, fun w hw hrw => (hw.gap b).resolve_left fun hle => absurd (hrw.trans hle) (not_le.2 hr)⟩

/-- Rounding to nearest goes up past the middle, and at the middle from an odd pattern. -/
theorem FFmt.Lies.roundsUp_rne {r : Rat} {b c : Nat} (h : F.Lies r b c) (neg : Bool) :
    if roundsUp .rne neg b c then F.mag b + F.mag (b + 1) < 2 * r ∨ (2 * r = F.mag b + F.mag (b + 1) ∧ b % 2 = 1)
    else 2 * r < F.mag b + F.mag (b + 1) ∨ (2 * r = F.mag b + F.mag (b + 1) ∧ b % 2 = 0) := by
  have hlt : 2 * r < F.mag b + F.mag (b + 1) ↔ c ≠ 2 ∧ c ≠ 3 := by
    rw [ne_eq, ne_eq, h.above, h.half, not_lt]
    exact ⟨fun h => ⟨h.ne, h.le⟩, fun h => lt_of_le_of_ne h.2 h.1⟩
  rw [hlt, ← h.above, ← h.half, roundsUp]
  simp only [Bool.or_eq_true, Bool.and_eq_true, beq_iff_eq]
  split <;> omega

/-- Rounding to nearest overflows from half a unit above the largest finite number on. -/
theorem FFmt.Lies.overflow_iff (hF : F.Sound) {r : Rat} {b c : Nat} (h : F.Lies r b c) (neg : Bool) :
    F.mag F.maxBits + 2 ^ ((F.bias : Int) - F.fbits - 1) ≤ r ↔ F.infBits ≤ (if roundsUp .rne neg b c then b + 1 else b) := by
  have hmax := hF.maxBits_succ
  have heven := hF.even_infBits
  have hmono := F.mag_strictMono
  have hup := h.roundsUp_rne neg
  have hmid : F.mag F.maxBits + 2 ^ ((F.bias : Int) - F.fbits - 1) ≤ r ↔ F.mag F.maxBits + F.mag (F.maxBits + 1) ≤ 2 * r := by
    rw [hmax, hF.mag_infBits]; constructor <;> intro <;> linarith
  have hstep : F.mag F.maxBits < F.mag (F.maxBits + 1) := hmono (Nat.lt_succ_self F.maxBits)
  rw [hmid]
  rcases lt_trichotomy b F.maxBits with hlt | rfl | hgt
  · have hle := hmono.monotone (show b + 1 ≤ F.maxBits from hlt)
    exact iff_of_false (by linarith [h.upper]) (by split <;> omega)
  · split at hup
    · next hr => exact iff_of_true (by rcases hup with h | h <;> linarith) (by rw [if_pos hr]; omega)
    · next hr => exact iff_of_false (by rcases hup with h | ⟨-, h⟩; exacts [not_le.2 h, by omega]) (by rw [if_neg hr]; omega)
  · have hle := hmono.monotone (show F.maxBits + 1 ≤ b from hgt)
    exact iff_of_true (by linarith [h.lower]) (by split <;> omega)

theorem FFmt.Lies.near (hF : F.Sound) {r : Rat} {b c : Nat} (h : F.Lies r b c) (neg : Bool) :
    F.Near r (if (if roundsUp .rne neg b c then b + 1 else b) < F.infBits then (if roundsUp .rne neg b c then b + 1 else b) else F.infBits) := by
  have hover := h.overflow_iff hF neg
  have hup := h.roundsUp_rne neg
  have hlower := h.lower
  have hupper := h.upper
  rw [FFmt.Near]
  by_cases hfin : F.infBits ≤ (if roundsUp .rne neg b c then b + 1 else b)
  · rw [if_pos (hover.2 hfin), if_neg (not_lt.2 hfin)]
  rw [if_neg (hover.not.2 hfin), if_pos (not_le.1 hfin)]
  refine ⟨not_le.1 hfin, fun w hw => ?_⟩
  -- a value lies on one side of the gap, at a distance that is a difference
  have hside : (w ≤ F.mag b ∧ |r - w| = r - w) ∨ (F.mag (b + 1) ≤ w ∧ |r - w| = w - r) :=
    (hw.gap b).imp (fun hle => ⟨hle, abs_of_nonneg (by linarith)⟩) fun hge => ⟨hge, by rw [abs_sub_comm]; exact abs_of_nonneg (by linarith)⟩
  split at hup
  · next hr =>
    rw [if_pos hr, abs_sub_comm r (F.mag (b + 1)), abs_of_pos (by linarith)]
    rcases hside with ⟨hle, hdist⟩ | ⟨hge, hdist⟩ <;> rw [hdist]
    · refine ⟨by rcases hup with h | h <;> linarith, fun heq => ?_⟩
      rcases hup with h | ⟨-, hodd⟩
      · linarith
      · exact .inr (by omega)
    · exact ⟨by linarith, fun heq => .inl (by linarith)⟩
  · next hr =>
    rw [if_neg hr, abs_of_nonneg (by linarith)]
    rcases hside with ⟨hle, hdist⟩ | ⟨hge, hdist⟩ <;> rw [hdist]
    · exact ⟨by linarith, fun heq => .inl (by linarith)⟩
    · refine ⟨by rcases hup with h | h <;> linarith, fun heq => ?_⟩
      rcases hup with h | ⟨-, heven⟩
      · linarith
      · exact .inr heven

/-- What a mode makes of a magnitude from where it lies. -/
theorem FFmt.Lies.roundsTo (hF : F.Sound) {r : Rat} {b c : Nat} (h : F.Lies r b c) (mode : RMode) (neg : Bool) :
    F.RoundsTo mode neg r (F.cap mode neg (if roundsUp mode neg b c then b + 1 else b)) := by
  have hdown := h.down hF
  have hup := h.up hF
  cases mode
  case rne => exact h.near hF neg
  case rz => exact hdown
  case rd =>
    cases neg
    · exact hdown
    · simpa [FFmt.RoundsTo, FFmt.cap, roundsUp] using hup
  case ru =>
    cases neg
    · simpa [FFmt.RoundsTo, FFmt.cap, roundsUp] using hup
    · exact hdown

end

end Sys2Proof.Machine
end

section
/-! PROOFS. `roundFin` rounds (R126): what `cut` keeps and cuts off is where the magnitude lies, also of a magnitude that stands for another by a sticky bit. -/
namespace Sys2Proof.Machine

/-- `cut` at 2^`q`: the quotient, and how twice the magnitude compares with the middle above it. -/
theorem cut_spec (m : Nat) (e q : Int) : let r : Rat := m * 2 ^ e
    let n := (cut m e q).1
    let c := (cut m e q).2
    n * 2 ^ q ≤ r ∧ r < (n + 1 : Nat) * 2 ^ q ∧ (c = 0 ↔ r = n * 2 ^ q) ∧ (c = 2 ↔ 2 * r = (2 * n + 1 : Nat) * 2 ^ q) ∧ (c = 3 ↔ (2 * n + 1 : Nat) * 2 ^ q < 2 * r) := by
  rcases le_or_gt q e with hle | hgt
  · have hcut : cut m e q = (m * 2 ^ (e - q).toNat, 0) := by rw [cut, if_pos hle, Nat.shiftLeft_eq]
    have hr : (m : Rat) * 2 ^ e = (m * 2 ^ (e - q).toNat : Nat) * 2 ^ q := by rw [two_zpow_of_le hle]; push_cast; ring
    have hpos := two_zpow_pos q
    simp only [hcut, hr]
    push_cast
    exact ⟨le_rfl, by nlinarith, by simp, iff_of_false (by decide) (by intro h; nlinarith), iff_of_false (by decide) (by nlinarith)⟩
  · -- in units of 2^e: the magnitude is `m`, and 2^q is 2^k, an even number
    have hk : (q - e).toNat ≠ 0 := by omega
    have hq : (2 : Rat) ^ q = (2 ^ (q - e).toNat : Nat) * 2 ^ e := two_zpow_of_le hgt.le
    have hhalf : 2 ^ (q - e).toNat = 2 * 2 ^ ((q - e).toNat - 1) := by rw [← pow_succ', Nat.sub_add_cancel (Nat.pos_of_ne_zero hk)]
    have hP : 0 < 2 ^ ((q - e).toNat - 1) := Nat.two_pow_pos _
    have hpos := two_zpow_pos e
    have hcut : cut m e q = (m / 2 ^ (q - e).toNat, if m % 2 ^ (q - e).toNat == 0 then 0
        else if m % 2 ^ (q - e).toNat < 2 ^ ((q - e).toNat - 1) then 1 else if m % 2 ^ (q - e).toNat == 2 ^ ((q - e).toNat - 1) then 2 else 3) := by
      rw [cut, if_neg (not_le.2 hgt)]; simp only [Nat.shiftRight_eq_div_pow]
    simp only [hcut, hq, beq_iff_eq]
    have hdiv := Nat.div_add_mod m (2 ^ (q - e).toNat)
    have hmod := Nat.mod_lt m (Nat.two_pow_pos (q - e).toNat)
    rw [hhalf] at hdiv hmod ⊢
    generalize 2 ^ ((q - e).toNat - 1) = P at hP hdiv hmod ⊢
    generalize m % (2 * P) = t at hdiv hmod ⊢
    generalize m / (2 * P) = n at hdiv ⊢
    have hunit : ∀ a : Nat, (a : Rat) * (((2 * P : Nat) : Rat) * 2 ^ e) = ((a * (2 * P) : Nat) : Rat) * 2 ^ e := fun a => by push_cast; ring
    have htwo : 2 * ((m : Rat) * 2 ^ e) = ((2 * m : Nat) : Rat) * 2 ^ e := by push_cast; ring
    rw [hunit, hunit, htwo, hunit, mul_le_mul_iff_left₀ hpos, mul_lt_mul_iff_left₀ hpos, mul_lt_mul_iff_left₀ hpos,
      mul_left_inj' hpos.ne', mul_left_inj' hpos.ne', Nat.cast_le, Nat.cast_lt, Nat.cast_lt, Nat.cast_inj, Nat.cast_inj]
    have hn : 2 * P * n = n * (2 * P) := Nat.mul_comm _ _
    have hn1 : (n + 1) * (2 * P) = n * (2 * P) + 2 * P := Nat.succ_mul _ _
    have hn2 : (2 * n + 1) * (2 * P) = 2 * (n * (2 * P)) + 2 * P := by ring
    rw [hn1, hn2]
    rw [hn] at hdiv
    generalize n * (2 * P) = N at hdiv ⊢
    have hcode : let c := if t = 0 then 0 else if t < P then 1 else if t = P then 2 else 3
        (c = 0 ↔ t = 0) ∧ (c = 2 ↔ t = P) ∧ (c = 3 ↔ P < t) := by
      refine ⟨?_, ?_, ?_⟩ <;> split_ifs <;> simp <;> omega
    rw [hcode.1, hcode.2.1, hcode.2.2]
    omega

/-- Two magnitudes compare alike with every multiple of 2^`g`. -/
structure Agree (g : Int) (r r' : Rat) : Prop where
  lt : ∀ j : Nat, r < j * 2 ^ g ↔ r' < j * 2 ^ g
  eq : ∀ j : Nat, r = j * 2 ^ g ↔ r' = j * 2 ^ g

theorem Agree.refl (g : Int) (r : Rat) : Agree g r r := ⟨fun _ => .rfl, fun _ => .rfl⟩

theorem Agree.mono {g q : Int} {r r' : Rat} (h : Agree g r r') (hq : g ≤ q) : Agree q r r' := by
  have hj : ∀ j : Nat, (j : Rat) * 2 ^ q = (j * 2 ^ (q - g).toNat : Nat) * 2 ^ g := fun j => by rw [two_zpow_of_le hq]; push_cast; ring
  exact ⟨fun j => by rw [hj, h.lt], fun j => by rw [hj, h.eq]⟩

section
variable {F : FFmt}

/-- Where a magnitude lies on a scale of multiples of 2^`q` is where one lies that agrees with it down to halves of them. -/
theorem FFmt.Lies.of_agree {r r' : Rat} {b c n : Nat} {q : Int} (h : F.Lies r' b c) (hb : F.mag b = n * 2 ^ q) (hb' : F.mag (b + 1) = (n + 1 : Nat) * 2 ^ q)
    (ha : Agree (q - 1) r r') : F.Lies r b c := by
  have hq := ha.mono (Int.sub_le_self q one_pos.le)
  have hmid : F.mag b + F.mag (b + 1) = 2 * ((2 * n + 1 : Nat) * 2 ^ (q - 1)) := by
    have htwo : (2 : Rat) ^ q = 2 * 2 ^ (q - 1) := by conv_lhs => rw [← Int.sub_add_cancel q 1, two_zpow_add, mul_comm, zpow_one]
    rw [hb, hb', htwo]
    push_cast
    ring
  have two : ∀ x y : Rat, (2 * x = 2 * y ↔ x = y) ∧ (2 * x < 2 * y ↔ x < y) := fun x y => by constructor <;> constructor <;> intro <;> linarith
  obtain ⟨hlower, hupper, hexact, hhalf, habove⟩ := h
  have hle : ∀ j : Nat, (j : Rat) * 2 ^ (q - 1) < r ↔ (j : Rat) * 2 ^ (q - 1) < r' := fun j => by
    rw [← not_le, ← not_le, le_iff_lt_or_eq, le_iff_lt_or_eq, ha.lt, ha.eq]
  rw [hmid, (two _ _).1, ← ha.eq, ← (two _ _).1] at hhalf
  rw [hmid, (two _ _).2, ← hle, ← (two _ _).2] at habove
  rw [hb, ← not_lt, ← hq.lt, not_lt] at hlower
  rw [hb', ← hq.lt] at hupper
  rw [hb, ← hq.eq] at hexact
  exact ⟨hb ▸ hlower, hb' ▸ hupper, by rwa [hb], by rwa [hmid], by rwa [hmid]⟩

/-- A magnitude cut at the step of its exponent lies at the pattern that `roundFin` makes of the quotient. -/
theorem FFmt.lies_cut {m : Nat} {e q : Int} (hq : F.qmin ≤ q) (hn : (cut m e q).1 < 2 * 2 ^ F.fbits) (hk : q = F.qmin ∨ 2 ^ F.fbits ≤ (cut m e q).1) :
    let b := (q - F.qmin).toNat * 2 ^ F.fbits + (cut m e q).1
    F.mag b = (cut m e q).1 * 2 ^ q ∧ F.mag (b + 1) = ((cut m e q).1 + 1 : Nat) * 2 ^ q ∧ F.Lies (m * 2 ^ e) b (cut m e q).2 := by
  obtain ⟨hlower, hupper, hexact, hhalf, habove⟩ := cut_spec m e q
  generalize (cut m e q).1 = n at *
  generalize (cut m e q).2 = c at *
  have hexp : F.qmin + ((q - F.qmin).toNat : Int) = q := by omega
  have hk' : (q - F.qmin).toNat = 0 ∨ 2 ^ F.fbits ≤ n := hk.imp_left (by omega)
  have hb := F.mag_step hn.le hk'
  have hb' := F.mag_step (n := n + 1) hn (hk'.imp_right fun h => h.trans (Nat.le_succ n))
  rw [hexp] at hb hb'
  rw [← add_assoc] at hb'
  have hmid : F.mag ((q - F.qmin).toNat * 2 ^ F.fbits + n) + F.mag ((q - F.qmin).toNat * 2 ^ F.fbits + n + 1) = (2 * n + 1 : Nat) * 2 ^ q := by
    rw [hb, hb']; push_cast; ring
  exact ⟨hb, hb', by rwa [hb], by rwa [hb'], by rwa [hb], by rwa [hmid], by rwa [hmid]⟩

theorem roundsUp_congr {n b : Nat} (h : n % 2 = b % 2) (mode : RMode) (neg : Bool) (c : Nat) : roundsUp mode neg n c = roundsUp mode neg b c := by
  cases mode <;> simp only [roundsUp, h]

/-- The exponent of the step that `roundFin` cuts at. -/
def FFmt.stepExp (F : FFmt) (m : Nat) (e : Int) : Int := max F.qmin (e + (Nat.log2 m : Int) - F.fbits)

theorem two_zpow_log2_le {m : Nat} (hm : m ≠ 0) (e : Int) : (2 : Rat) ^ (e + (Nat.log2 m : Int)) ≤ m * 2 ^ e := by
  rw [two_zpow_add, zpow_natCast, mul_comm]
  exact mul_le_mul_of_nonneg_right (by exact_mod_cast Nat.log2_self_le hm) (two_zpow_pos e).le

theorem lt_two_zpow_log2 (m : Nat) (e : Int) : (m : Rat) * 2 ^ e < 2 ^ (e + (Nat.log2 m : Int) + 1) := by
  rw [add_assoc, two_zpow_add, show (Nat.log2 m : Int) + 1 = ((Nat.log2 m + 1 : Nat) : Int) by push_cast; rfl, zpow_natCast, mul_comm]
  exact mul_lt_mul_of_pos_left (by exact_mod_cast Nat.lt_log2_self) (two_zpow_pos e)

/-- The quotient at that step is a significand of the format: below 2^(f + 1), and at least 2^f unless the step is the least one. -/
theorem FFmt.cut_stepExp (F : FFmt) {m : Nat} (hm : m ≠ 0) (e : Int) :
    (cut m e (F.stepExp m e)).1 < 2 * 2 ^ F.fbits ∧ (F.stepExp m e = F.qmin ∨ 2 ^ F.fbits ≤ (cut m e (F.stepExp m e)).1) := by
  obtain ⟨hlower, hupper, -⟩ := cut_spec m e (F.stepExp m e)
  have hlo := two_zpow_log2_le hm e
  have hhi := lt_two_zpow_log2 m e
  have hle : e + (Nat.log2 m : Int) - F.fbits ≤ F.stepExp m e := le_max_right _ _
  have hpos := two_zpow_pos (F.stepExp m e)
  constructor
  · have h : (2 : Rat) ^ (e + (Nat.log2 m : Int) + 1) ≤ ((2 * 2 ^ F.fbits : Nat) : Rat) * 2 ^ F.stepExp m e := by
      rw [show ((2 * 2 ^ F.fbits : Nat) : Rat) = 2 ^ ((F.fbits : Int) + 1) by rw [two_zpow_add, zpow_natCast]; push_cast; ring, ← two_zpow_add]
      exact zpow_le_zpow_right₀ (by norm_num) (by omega)
    exact_mod_cast lt_of_mul_lt_mul_right (hlower.trans_lt (hhi.trans_le h)) hpos.le
  · rcases max_choice F.qmin (e + (Nat.log2 m : Int) - F.fbits) with hmax | hmax
    · exact .inl hmax
    · right
      have h : ((2 ^ F.fbits : Nat) : Rat) * 2 ^ F.stepExp m e = 2 ^ (e + (Nat.log2 m : Int)) := by
        rw [show ((2 ^ F.fbits : Nat) : Rat) = 2 ^ (F.fbits : Int) by rw [zpow_natCast]; push_cast; rfl, ← two_zpow_add]
        congr 1
        rw [FFmt.stepExp, hmax]
        ring
      rw [← h] at hlo
      exact Nat.lt_succ_iff.1 (by exact_mod_cast lt_of_mul_lt_mul_right (hlo.trans_lt hupper) hpos.le)

theorem roundFin_eq (hF : F.Sound) {m : Nat} (hm : m ≠ 0) (e : Int) (mode : RMode) (neg : Bool) :
    let k := cut m e (F.stepExp m e)
    let b := (F.stepExp m e - F.qmin).toNat * 2 ^ F.fbits + k.1
    roundFin F mode neg m e = zeroOf F neg + F.cap mode neg (if roundsUp mode neg b k.2 then b + 1 else b) := by
  have hstep : (if e + (Nat.log2 m : Int) - (F.fbits : Int) < F.qmin then F.qmin else e + (Nat.log2 m : Int) - (F.fbits : Int)) = F.stepExp m e := by
    rw [FFmt.stepExp]; split <;> omega
  have heven := hF.even_fraction
  have hpar : ∀ n j : Nat, n % 2 = (j * 2 ^ F.fbits + n) % 2 := fun n j => by
    have := Dvd.dvd.mul_left heven j
    omega
  simp only [roundFin, beq_iff_eq, if_neg hm, hstep]
  rw [roundsUp_congr (hpar _ (F.stepExp m e - F.qmin).toNat)]
  have hround : ∀ (p : Bool) (x n : Nat), x + (if p = true then n + 1 else n) = if p = true then x + n + 1 else x + n := fun p x n => by split <;> rfl
  rw [hround]
  exact (apply_ite (zeroOf F neg + ·) _ _ _).symm

/-- `roundFin` of a nonzero number rounds every magnitude that agrees with it one bit below the last place of the format. -/
theorem isRounded_roundFin_of_agree (hF : F.Sound) {m : Nat} (hm : m ≠ 0) {e g : Int} {r : Rat} (hr : 0 < r) (ha : Agree g r (m * 2 ^ e))
    (hg : g < e + (Nat.log2 m : Int) - F.fbits) (mode : RMode) (neg : Bool) : IsRounded F mode (signed neg r) (roundFin F mode neg m e) := by
  obtain ⟨hn, hk⟩ := F.cut_stepExp hm e
  obtain ⟨hb, hb', hlies⟩ := FFmt.lies_cut (le_max_left _ _) hn hk
  have hle : e + (Nat.log2 m : Int) - F.fbits ≤ F.stepExp m e := le_max_right _ _
  rw [roundFin_eq hF hm]
  exact ((hlies.of_agree hb hb' (ha.mono (by omega))).roundsTo hF mode neg).isRounded hF hr

theorem isRounded_roundFin (hF : F.Sound) {m : Nat} (hm : m ≠ 0) (e : Int) (mode : RMode) (neg : Bool) :
    IsRounded F mode (exactValue (.fin neg m e)) (roundFin F mode neg m e) := by
  rw [exactValue_fin]
  exact isRounded_roundFin_of_agree hF hm (mul_pos (by exact_mod_cast Nat.pos_of_ne_zero hm) (two_zpow_pos e)) (.refl _ _) (sub_one_lt _) mode neg

end

end Sys2Proof.Machine
end

section
/-! PROOFS. The float operations on finite numbers (R126, R127, R147): each makes an exact number, or one that agrees with the exact quotient, and rounds it once. -/
namespace Sys2Proof.Machine

/-! ### Exact operations -/

theorem IsFinite.eq_fin : ∀ {x : FNum}, IsFinite x → ∃ s m e, x = .fin s m e
  | .nan _, h => absurd h.1 (by simp [FNum.isNaN])
  | .inf _, h => absurd h.2 (by simp [FNum.isInf])
  | .fin s m e, _ => ⟨s, m, e, rfl⟩

theorem isFinite_fin (s : Bool) (m : Nat) (e : Int) : IsFinite (.fin s m e) := ⟨rfl, rfl⟩

theorem signed_eq_zero {s : Bool} {x : Rat} : signed s x = 0 ↔ x = 0 := by cases s <;> simp [signed]
theorem signed_mul_signed (s t : Bool) (x y : Rat) : signed s x * signed t y = signed (s != t) (x * y) := by cases s <;> cases t <;> simp [signed]
theorem signed_div_signed (s t : Bool) (x y : Rat) : signed s x / signed t y = signed (s != t) (x / y) := by
  cases s <;> cases t <;> simp [signed, neg_div, div_neg]

theorem exactValue_fin_eq_zero {s : Bool} {m : Nat} {e : Int} : exactValue (.fin s m e) = 0 ↔ m = 0 := by
  rw [exactValue_fin, signed_eq_zero, mul_eq_zero, or_iff_left (two_zpow_pos e).ne', Nat.cast_eq_zero]

theorem exactValue_neg {x : FNum} (h : IsFinite x) : IsFinite x.neg ∧ exactValue x.neg = -exactValue x ∧ x.neg.isZero = x.isZero ∧ x.neg.isNeg = !x.isNeg := by
  obtain ⟨s, m, e, rfl⟩ := h.eq_fin
  refine ⟨isFinite_fin .., ?_, rfl, rfl⟩
  rw [FNum.neg, exactValue_fin, exactValue_fin]
  cases s <;> simp [signed]

/-- A finite number in units of a power of two at or below its exponent. -/
theorem exactValue_units {q e : Int} (h : q ≤ e) (s : Bool) (m : Nat) : exactValue (.fin s m e) = FNum.units q s m e * 2 ^ q := by
  rw [exactValue_fin, FNum.units, Nat.shiftLeft_eq, two_zpow_of_le h]
  cases s <;> simp [signed, mul_assoc]

/-- A signed number of units. -/
theorem exactValue_natAbs (q x : Int) : exactValue (.fin (decide (x < 0)) x.natAbs q) = x * 2 ^ q := by
  rw [exactValue_fin, signed, Nat.cast_natAbs]
  split
  · next h => rw [abs_of_neg (of_decide_eq_true h)]; push_cast; ring
  · next h => rw [abs_of_nonneg (not_lt.1 fun hlt => h (decide_eq_true hlt))]

/-- A number of units, with `z` for the sign of an exact zero. -/
theorem ofUnits_spec (q : Int) (z : Bool) (x : Int) :
    IsFinite (FNum.ofUnits q z x) ∧ exactValue (FNum.ofUnits q z x) = x * 2 ^ q ∧ (x = 0 → (FNum.ofUnits q z x).isNeg = z) := by
  rw [FNum.ofUnits]
  by_cases hx : x = 0
  · rw [if_pos (beq_iff_eq.2 hx), hx]
    exact ⟨isFinite_fin .., by rw [exactValue_fin_eq_zero.2 rfl, Int.cast_zero, zero_mul], fun _ => rfl⟩
  · rw [if_neg fun h => hx (beq_iff_eq.1 h)]
    exact ⟨isFinite_fin .., exactValue_natAbs q x, fun h => absurd h hx⟩

theorem isZero_fin {s : Bool} {m : Nat} {e : Int} : (FNum.fin s m e).isZero = (m == 0) := rfl

/-- The sign of an exact zero sum (IEEE 754-2019): that of two zeros of one sign, else −0 in the mode towards −∞ alone. -/
def sumSign (mode : RMode) (zeros a b : Bool) : Bool := if zeros && a == b then a else decide (mode = .rd)

theorem add_exact (mode : RMode) {x y : FNum} (hx : IsFinite x) (hy : IsFinite y) :
    ∃ p, FNum.add mode x y = some p ∧ IsFinite p ∧ exactValue p = exactValue x + exactValue y ∧
      (exactValue p = 0 → p.isNeg = sumSign mode (x.isZero && y.isZero) x.isNeg y.isNeg) := by
  obtain ⟨s, m, e, rfl⟩ := hx.eq_fin
  obtain ⟨t, n, f, rfl⟩ := hy.eq_fin
  have hq : (if e < f then e else f) ≤ e ∧ (if e < f then e else f) ≤ f := by split <;> omega
  rw [exactValue_units hq.1, exactValue_units hq.2, ← add_mul]
  obtain ⟨hfin, hval, hneg⟩ := ofUnits_spec (if e < f then e else f) (if m == 0 && n == 0 && s == t then s else mode == .rd)
    (FNum.units (if e < f then e else f) s m e + FNum.units (if e < f then e else f) t n f)
  refine ⟨_, rfl, hfin, by rw [hval]; push_cast; rfl, fun h0 => ?_⟩
  rw [hval, mul_eq_zero, or_iff_left (two_zpow_pos _).ne', Int.cast_eq_zero] at h0
  rw [hneg h0]
  rfl

theorem mul_exact {x y : FNum} (hx : IsFinite x) (hy : IsFinite y) :
    ∃ p, FNum.mul x y = some p ∧ IsFinite p ∧ exactValue p = exactValue x * exactValue y ∧ p.isNeg = (x.isNeg != y.isNeg) ∧ p.isZero = (x.isZero || y.isZero) := by
  obtain ⟨s, m, e, rfl⟩ := hx.eq_fin
  obtain ⟨t, n, f, rfl⟩ := hy.eq_fin
  refine ⟨_, rfl, isFinite_fin .., ?_, rfl, ?_⟩
  · rw [exactValue_fin, exactValue_fin, exactValue_fin, signed_mul_signed, two_zpow_add]
    push_cast
    congr 1
    ring
  · rw [isZero_fin, isZero_fin, isZero_fin, Bool.eq_iff_iff]
    simp

/-- The order of two numbers is that of their exact values. -/
theorem cmp_exact {x y : FNum} (hx : IsFinite x) (hy : IsFinite y) :
    (FNum.cmp x y < 0 ↔ exactValue x < exactValue y) ∧ (FNum.cmp x y = 0 ↔ exactValue x = exactValue y) := by
  obtain ⟨s, m, e, rfl⟩ := hx.eq_fin
  obtain ⟨t, n, f, rfl⟩ := hy.eq_fin
  have hq : (if e < f then e else f) ≤ e ∧ (if e < f then e else f) ≤ f := by split <;> omega
  have hpos := two_zpow_pos (if e < f then e else f)
  have hsign : ∀ d : Int, let c : Int := if d < 0 then -1 else if 0 < d then 1 else 0
      (c < 0 ↔ d < 0) ∧ (c = 0 ↔ d = 0) := fun d => by constructor <;> split_ifs <;> simp <;> omega
  rw [exactValue_units hq.1, exactValue_units hq.2, mul_lt_mul_iff_left₀ hpos, mul_left_inj' hpos.ne', Int.cast_lt, Int.cast_inj]
  exact ⟨(hsign _).1.trans sub_neg, (hsign _).2.trans sub_eq_zero⟩

/-! ### Rounded operations -/

/-- The pattern that an operation gives is its exact result rounded once, or a zero with the sign `neg`. -/
def Rounds (F : FFmt) (mode : RMode) (q : Rat) (neg : Bool) (b : Nat) : Prop := (q ≠ 0 → IsRounded F mode q b) ∧ (q = 0 → b = zeroOf F neg)

section
variable {F : FFmt}

theorem roundFin_zero (F : FFmt) (mode : RMode) (s : Bool) (e : Int) : roundFin F mode s 0 e = zeroOf F s := rfl

theorem rounds_roundFloat (hF : F.Sound) (mode : RMode) {p : FNum} (hp : IsFinite p) {neg : Bool} (hneg : exactValue p = 0 → p.isNeg = neg) :
    Rounds F mode (exactValue p) neg (roundFloat F mode p) := by
  obtain ⟨s, m, e, rfl⟩ := hp.eq_fin
  rw [roundFloat]
  by_cases hm : m = 0
  · have h0 := exactValue_fin_eq_zero (s := s) (e := e).2 hm
    refine ⟨fun h => absurd h0 h, fun _ => ?_⟩
    rw [hm, roundFin_zero, ← hneg h0, FNum.isNeg]
  · exact ⟨fun _ => isRounded_roundFin hF hm e mode s, fun h => absurd (exactValue_fin_eq_zero.1 h) hm⟩

theorem IsFinite.not_sNaN {x : FNum} (h : IsFinite x) : x.isSNaN = false := by obtain ⟨s, m, e, rfl⟩ := h.eq_fin; rfl

theorem arith2_finite {x y : FNum} (hx : IsFinite x) (hy : IsFinite y) (mode : RMode) (op : FNum → FNum → Option FNum) :
    arith2 F mode op x y = (op x y).map (roundFloat F mode) := by
  simp [arith2, hx.not_sNaN, hy.not_sNaN, hx.1, hy.1]

theorem fAdd_rounds (hF : F.Sound) (mode : RMode) {x y : FNum} (hx : IsFinite x) (hy : IsFinite y) :
    ∃ b, fAdd F mode x y = some b ∧ Rounds F mode (exactValue x + exactValue y) (sumSign mode (x.isZero && y.isZero) x.isNeg y.isNeg) b := by
  obtain ⟨p, hp, hfin, hval, hneg⟩ := add_exact mode hx hy
  exact ⟨_, by rw [fAdd, arith2_finite hx hy, hp, Option.map_some], hval ▸ rounds_roundFloat hF mode hfin hneg⟩

theorem fSub_rounds (hF : F.Sound) (mode : RMode) {x y : FNum} (hx : IsFinite x) (hy : IsFinite y) :
    ∃ b, fSub F mode x y = some b ∧ Rounds F mode (exactValue x - exactValue y) (sumSign mode (x.isZero && y.isZero) x.isNeg (!y.isNeg)) b := by
  obtain ⟨hfin, hval, hzero, hneg⟩ := exactValue_neg hy
  rw [sub_eq_add_neg, ← hval, ← hzero, ← hneg]
  exact fAdd_rounds hF mode hx hfin

theorem fMul_rounds (hF : F.Sound) (mode : RMode) {x y : FNum} (hx : IsFinite x) (hy : IsFinite y) :
    ∃ b, fMul F mode x y = some b ∧ Rounds F mode (exactValue x * exactValue y) (x.isNeg != y.isNeg) b := by
  obtain ⟨p, hp, hfin, hval, hneg, -⟩ := mul_exact hx hy
  exact ⟨_, by rw [fMul, arith2_finite hx hy, hp, Option.map_some], hval ▸ rounds_roundFloat hF mode hfin fun _ => hneg⟩

theorem fFma_rounds (hF : F.Sound) (mode : RMode) {x y z : FNum} (hx : IsFinite x) (hy : IsFinite y) (hz : IsFinite z) :
    ∃ b, fFma F mode x y z = some b ∧
      Rounds F mode (exactValue x * exactValue y + exactValue z) (sumSign mode ((x.isZero || y.isZero) && z.isZero) (x.isNeg != y.isNeg) z.isNeg) b := by
  obtain ⟨p, hp, hpfin, hpval, hpneg, hpzero⟩ := mul_exact hx hy
  obtain ⟨q, hq, hqfin, hqval, hqneg⟩ := add_exact mode hpfin hz
  refine ⟨roundFloat F mode q, ?_, ?_⟩
  · simp [fFma, hx.not_sNaN, hy.not_sNaN, hz.not_sNaN, hp, hpfin.1, hz.1, hq]
  · rw [← hpval, ← hqval, ← hpneg, ← hpzero]
    exact rounds_roundFloat hF mode hqfin hqneg

/-- A quotient with a sticky last bit compares with every whole unit as the exact one does. -/
theorem agree_quotient (m : Nat) {n : Nat} (hn : 0 < n) (g : Int) :
    Agree g ((m : Rat) / n * 2 ^ g) ((2 * (m / n) + (if m % n = 0 then 0 else 1) : Nat) * 2 ^ (g - 1)) := by
  have hdiv := Nat.div_add_mod m n
  have hmod := Nat.mod_lt m hn
  have hpos := two_zpow_pos (g - 1)
  have hn' : (0 : Rat) < n := by exact_mod_cast hn
  have hj : ∀ j : Nat, (j : Rat) * 2 ^ g = (2 * j : Nat) * 2 ^ (g - 1) := fun j => by
    rw [show (2 : Rat) ^ g = 2 ^ (g - 1 + 1) by rw [Int.sub_add_cancel], two_zpow_add]
    push_cast
    ring
  refine ⟨fun j => ?_, fun j => ?_⟩
  · rw [mul_lt_mul_iff_left₀ (two_zpow_pos g), div_lt_iff₀ hn', hj, mul_lt_mul_iff_left₀ hpos, Nat.cast_lt, ← Nat.cast_mul, Nat.cast_lt, ← Nat.div_lt_iff_lt_mul hn]
    split <;> omega
  · rw [mul_left_inj' (two_zpow_pos g).ne', div_eq_iff hn'.ne', hj, mul_left_inj' hpos.ne', Nat.cast_inj, ← Nat.cast_mul, Nat.cast_inj]
    have : m = j * n ↔ m % n = 0 ∧ m / n = j := by
      constructor
      · rintro rfl; exact ⟨Nat.mul_mod_left .., Nat.mul_div_cancel _ hn⟩
      · rintro ⟨h0, rfl⟩; rw [h0] at hdiv; linarith [Nat.mul_comm n (m / n)]
    rw [this]
    split <;> omega

theorem lt_two_pow_bitLength (n : Nat) : n < 2 ^ bitLength n := by
  rw [bitLength]
  split
  · next h => rw [beq_iff_eq.1 h]; exact one_pos
  · exact Nat.lt_log2_self

/-- The quotient that `fDiv` forms, rounded, is the exact one rounded: it has 184 bits and its last one is sticky. -/
theorem isRounded_quotient (hF : F.Sound) (hbits : F.fbits ≤ 52) {m n : Nat} (hm : m ≠ 0) (hn : n ≠ 0) (e : Int) (mode : RMode) (neg : Bool) :
    let q := quotient (m <<< 120) n
    IsRounded F mode (signed neg ((m : Rat) / n * 2 ^ e)) (roundFin F mode neg q.1 (e + q.2 - 120)) := by
  have hm' := Nat.pos_of_ne_zero hm
  have hn' := Nat.pos_of_ne_zero hn
  have hlt := lt_two_pow_bitLength n
  simp only [quotient, Nat.shiftLeft_eq, beq_iff_eq]
  generalize bitLength n = l at hlt
  set M := m * 2 ^ 120 * 2 ^ (64 + l) with hM
  -- `M / n` counts the quotient in units of 2^(e − 120 − 64 − l)
  have hagree := agree_quotient M hn' (e - 120 - (64 + l : Nat))
  have hunit : (M : Rat) / n * 2 ^ (e - 120 - (64 + l : Nat) : Int) = (m : Rat) / n * 2 ^ e := by
    have h := two_zpow_of_le (a := e - 120 - (64 + l : Nat)) (b := e) (by omega)
    rw [show (e - (e - 120 - (64 + l : Nat))).toNat = 120 + (64 + l) by omega] at h
    rw [h, hM, pow_add]
    push_cast
    ring
  rw [hunit, show e - 120 - (64 + l : Nat) - 1 = e + (-((64 + l : Nat) : Int) - 1) - 120 by ring] at hagree
  have hlarge : 2 ^ 184 ≤ M / n := by
    rw [Nat.le_div_iff_mul_le hn', hM]
    calc 2 ^ 184 * n ≤ 1 * 2 ^ 120 * 2 ^ (64 + l) := by rw [pow_add]; linarith [hlt.le]
      _ ≤ m * 2 ^ 120 * 2 ^ (64 + l) := Nat.mul_le_mul_right _ (Nat.mul_le_mul_right _ hm')
  have hne : 2 * (M / n) + (if M % n = 0 then 0 else 1) ≠ 0 := by omega
  have hlog := (Nat.le_log2 hne).2 (show 2 ^ 184 ≤ _ by omega)
  have hpos : 0 < (m : Rat) / n * 2 ^ e := mul_pos (div_pos (by exact_mod_cast hm') (by exact_mod_cast hn')) (two_zpow_pos _)
  exact isRounded_roundFin_of_agree hF hne hpos hagree (by omega) mode neg

theorem div_exact (s t : Bool) (m n : Nat) (e f : Int) : exactValue (.fin s m e) / exactValue (.fin t n f) = signed (s != t) ((m : Rat) / n * 2 ^ (e - f)) := by
  rw [exactValue_fin, exactValue_fin, signed_div_signed, zpow_sub₀ two_ne_zero]
  congr 1
  rw [mul_div_mul_comm]

theorem fDiv_rounds (hF : F.Sound) (hbits : F.fbits ≤ 52) (mode : RMode) {x y : FNum} (hx : IsFinite x) (hy : IsFinite y) (h0 : y.isZero = false) :
    ∃ b, fDiv F mode x y = some b ∧ Rounds F mode (exactValue x / exactValue y) (x.isNeg != y.isNeg) b := by
  rw [fDiv, arith2_finite hx hy]
  obtain ⟨s, m, e, rfl⟩ := hx.eq_fin
  obtain ⟨t, n, f, rfl⟩ := hy.eq_fin
  have hn : n ≠ 0 := beq_eq_false_iff_ne.1 h0
  simp only [beq_iff_eq, if_neg hn, Option.map_some, roundFloat]
  refine ⟨_, rfl, ?_⟩
  rw [div_exact]
  by_cases hm : m = 0
  · subst hm
    refine ⟨fun h => absurd (by rw [signed_eq_zero]; simp) h, fun _ => ?_⟩
    simp only [quotient, Nat.zero_shiftLeft, Nat.zero_div, Nat.zero_mod, BEq.rfl, if_true, Nat.mul_zero, Nat.add_zero]
    exact roundFin_zero ..
  · refine ⟨fun _ => isRounded_quotient hF hbits hm hn (e - f) mode _, fun h => absurd (signed_eq_zero.1 h) ?_⟩
    exact mul_ne_zero (div_ne_zero (Nat.cast_ne_zero.2 hm) (Nat.cast_ne_zero.2 hn)) (two_zpow_pos _).ne'

end

theorem sound_of_mem {F : FFmt} (h : F ∈ [fp64, fp32, fp16, bf16]) : F.Sound ∧ F.fbits ≤ 52 := by
  simp only [List.mem_cons, List.not_mem_nil, or_false] at h
  rcases h with rfl | rfl | rfl | rfl <;> exact ⟨⟨by decide, by decide⟩, by decide⟩

theorem fp32_sound : fp32.Sound := ⟨by decide, by decide⟩

theorem exactArithmetic : ExactArithmeticStated := by
  intro F hF mode
  obtain ⟨hF, hbits⟩ := sound_of_mem hF
  refine ⟨fun s m e hm => isRounded_roundFin hF hm e mode s, fun s e => rfl, fun s => rfl, fun x y z hx hy hz => ?_⟩
  exact ⟨fAdd_rounds hF mode hx hy, fSub_rounds hF mode hx hy, fMul_rounds hF mode hx hy, fDiv_rounds hF hbits mode hx hy, fFma_rounds hF mode hx hy hz,
    cmp_exact hx hy⟩

end Sys2Proof.Machine
end

section
/-! PROOFS. Matrix sums (R125, R128): what invalid terms, NaNs and infinities give, and the window in which the finite terms are added before one rounding. -/
namespace Sys2Proof.Machine

/-! ### Products -/

theorem mul_eq_none {a b : FNum} (h : (a.isZero = true ∧ b.isInf = true) ∨ (a.isInf = true ∧ b.isZero = true)) : FNum.mul a b = none := by
  cases a <;> cases b <;> simp_all [FNum.isZero, FNum.isInf, FNum.mul]

theorem mul_of_nan {a b : FNum} (ha : a.isSNaN = false) (hb : b.isSNaN = false) (h : a.isNaN = true ∨ b.isNaN = true) : FNum.mul a b = some (.nan false) := by
  cases a <;> cases b <;> simp_all [FNum.isSNaN, FNum.isNaN, FNum.mul]

theorem scale_exact (k : Int) {x : FNum} (h : IsFinite x) : IsFinite (x.scale k) ∧ exactValue (x.scale k) = exactValue x * 2 ^ k ∧ (x.scale k).isNeg = x.isNeg := by
  obtain ⟨s, m, e, rfl⟩ := h.eq_fin
  refine ⟨isFinite_fin .., ?_, rfl⟩
  rw [FNum.scale, exactValue_fin, exactValue_fin, two_zpow_add]
  cases s <;> simp [signed, mul_assoc]

theorem product_invalid (k : Int) {a b : FNum}
    (h : a.isSNaN = true ∨ b.isSNaN = true ∨ (a.isZero = true ∧ b.isInf = true) ∨ (a.isInf = true ∧ b.isZero = true)) : product k a b = .invalid := by
  rw [product]
  split
  · rfl
  · next hs =>
    rw [Bool.or_eq_true, not_or] at hs
    rw [mul_eq_none ((h.resolve_left hs.1).resolve_left hs.2)]

theorem product_nan (k : Int) {a b : FNum} (ha : a.isSNaN = false) (hb : b.isSNaN = false) (h : a.isNaN = true ∨ b.isNaN = true) : product k a b = .nan := by
  rw [product, ha, hb, mul_of_nan ha hb h]
  rfl

theorem product_finite (k : Int) {a b : FNum} (ha : IsFinite a) (hb : IsFinite b) :
    ∃ p, product k a b = .num p ∧ IsFinite p ∧ exactValue p = exactValue a * exactValue b * 2 ^ k ∧ p.isNeg = (a.isNeg != b.isNeg) := by
  obtain ⟨p, hp, hfin, hval, hneg, -⟩ := mul_exact ha hb
  obtain ⟨hsfin, hsval, hsneg⟩ := scale_exact k hfin
  refine ⟨p.scale k, ?_, hsfin, by rw [hsval, hval], by rw [hsneg, hneg]⟩
  rw [product, ha.not_sNaN, hb.not_sNaN, hp]
  simp [hfin.1]

/-! ### The cases of a sum -/

/-- The sum of finite terms as `windowSum` makes it. -/
def finiteSum (nums : List FNum) (acc : FNum) (mode : RMode) : Option Nat :=
  let T := nums ++ [acc]
  match T.filterMap topExp with
  | [] => some (zeroSign nums acc mode)
  | t :: ts =>
    let q := ts.foldl max t - 79
    let H := T.foldl (fun a x => a + windowHigh q x) 0
    let b := T.foldl (fun a x => min a (lowExp x)) q
    let L := T.foldl (fun a x => a + windowLow q b x) 0
    if H = 0 ∧ L = 0 then some (zeroSign nums acc mode)
    else some (roundFin fp32 mode (decide (4 * H + L.sign < 0)) (4 * H + L.sign).natAbs (q - 2))

theorem windowSum_eq (P : List Term) (acc : FNum) (mode : RMode) : windowSum P acc mode =
    if acc.isSNaN = true ∨ Term.invalid ∈ P then none
    else if FNum.inf false ∈ termsOf P acc ∧ FNum.inf true ∈ termsOf P acc then none
    else if acc.isNaN = true ∨ Term.nan ∈ P then some fp32.qnan
    else if FNum.inf false ∈ termsOf P acc then some fp32.infBits
    else if FNum.inf true ∈ termsOf P acc then some (fp32.signBit + fp32.infBits)
    else finiteSum (termsOf P acc).dropLast acc mode := by
  have hlast : (termsOf P acc).dropLast = P.filterMap (fun t => match t with | .num x => some x | _ => none) := List.dropLast_concat
  rw [hlast]
  simp only [windowSum, List.any_beq', List.contains_iff_mem, Bool.or_eq_true, Bool.and_eq_true, beq_iff_eq]
  rfl

theorem zeroSign_eq (nums : List FNum) (acc : FNum) (mode : RMode) : zeroSign nums acc mode =
    if (nums.all (fun x => x.isZero && x.isNeg) && acc.isZero) = true then zeroOf fp32 acc.isNeg else zeroOf fp32 (decide (mode = .rd)) := by
  simp only [zeroSign, zeroOf, beq_iff_eq, decide_eq_true_eq]
  cases nums.all (fun x => x.isZero && x.isNeg) <;> cases acc.isZero <;> cases acc.isNeg <;> rfl

/-! ### Sums of lists -/

theorem foldl_add_eq_sum {α M : Type} [AddCommMonoid M] (f : α → M) (l : List α) (a : M) : l.foldl (fun a x => a + f x) a = a + (l.map f).sum := by
  induction l generalizing a with
  | nil => simp
  | cons x l ih => rw [List.foldl_cons, ih, List.map_cons, List.sum_cons, add_assoc]

theorem foldl_max_eq {E : Int} : ∀ {l : List Int} {t : Int}, (∀ y ∈ t :: l, y ≤ E) → E ∈ t :: l → l.foldl max t = E
  | [], t, _, hmem => (List.mem_singleton.1 hmem).symm
  | y :: l, t, hle, hmem => by
    obtain ⟨ht, hy, hl⟩ : t ≤ E ∧ y ≤ E ∧ ∀ z ∈ l, z ≤ E := by simpa using hle
    refine foldl_max_eq (l := l) (t := max t y) (fun z hz => ?_) ?_
    · rcases List.mem_cons.1 hz with rfl | hz
      · exact max_le ht hy
      · exact hl z hz
    · rcases List.mem_cons.1 hmem with rfl | hmem
      · exact List.mem_cons.2 (.inl (max_eq_left hy).symm)
      · rcases List.mem_cons.1 hmem with rfl | hmem
        · exact List.mem_cons.2 (.inl (max_eq_right ht).symm)
        · exact List.mem_cons_of_mem _ hmem

theorem foldl_min_le {α : Type} (f : α → Int) : ∀ (l : List α) (q : Int), l.foldl (fun a x => min a (f x)) q ≤ q ∧ ∀ x ∈ l, l.foldl (fun a x => min a (f x)) q ≤ f x
  | [], q => ⟨le_rfl, fun _ h => absurd h List.not_mem_nil⟩
  | y :: l, q => by
    obtain ⟨hq, hl⟩ := foldl_min_le f l (min q (f y))
    refine ⟨hq.trans (min_le_left ..), fun x hx => ?_⟩
    rcases List.mem_cons.1 hx with rfl | hx
    · exact hq.trans (min_le_right ..)
    · exact hl x hx

/-! ### The window -/

/-- The part of a number at or above 2^`q`, cut towards 0. -/
def windowPart (q : Int) (t : Rat) : Rat := if t < 0 then -(((-t / 2 ^ q).floor : Int) : Rat) * 2 ^ q else ((t / 2 ^ q).floor : Rat) * 2 ^ q

theorem windowPart_signed {q : Int} {s : Bool} {r : Rat} {n : Nat} (hlower : n * 2 ^ q ≤ r) (hupper : r < (n + 1 : Nat) * 2 ^ q) :
    windowPart q (signed s r) = signed s (n * 2 ^ q) := by
  have hpos := two_zpow_pos q
  have hr : 0 ≤ r := le_trans (by positivity) hlower
  have hfloor : (r / 2 ^ q).floor = (n : Int) := by
    change ⌊r / 2 ^ q⌋ = (n : Int)
    refine Int.floor_eq_iff.2 ⟨?_, ?_⟩
    · rw [le_div_iff₀ hpos]; exact_mod_cast hlower
    · rw [div_lt_iff₀ hpos]; exact_mod_cast hupper
  rw [windowPart]
  cases s
  · rw [signed, if_neg Bool.false_ne_true, if_neg (not_lt.2 hr), hfloor]
    rfl
  · simp only [signed, if_true, neg_neg, hfloor]
    split
    · push_cast; ring
    · next h =>
      obtain rfl : r = 0 := by linarith
      have hn : n = 0 := by
        by_contra hn
        have : (0 : Rat) < n * 2 ^ q := mul_pos (by exact_mod_cast Nat.pos_of_ne_zero hn) hpos
        linarith
      rw [hn, show ((-0 : Rat) / 2 ^ q).floor = 0 by rw [neg_zero, zero_div]; rfl]
      simp

theorem windowHigh_mul (q : Int) {x : FNum} (h : IsFinite x) : (windowHigh q x : Rat) * 2 ^ q = windowPart q (exactValue x) := by
  obtain ⟨s, m, e, rfl⟩ := h.eq_fin
  obtain ⟨hlower, hupper, -⟩ := cut_spec m e q
  rw [exactValue_fin, windowPart_signed hlower hupper, windowHigh]
  cases s <;> simp [signed]

theorem windowLow_mul {q b : Int} {x : FNum} (h : IsFinite x) (hb : b ≤ lowExp x) :
    (windowLow q b x : Rat) * 2 ^ b = exactValue x - windowPart q (exactValue x) := by
  obtain ⟨s, m, e, rfl⟩ := h.eq_fin
  obtain ⟨hlower, hupper, hexact, -⟩ := cut_spec m e q
  have hsub : ∀ x y : Rat, signed s x - signed s y = signed s (x - y) := fun x y => by cases s <;> simp [signed]; ring
  rw [exactValue_fin, windowPart_signed hlower hupper, hsub, windowLow]
  split
  · next hle =>
    have h0 : (cut m e q).2 = 0 := by rw [cut, if_pos hle]
    rw [← hexact.1 h0, sub_self, signed_eq_zero.2 rfl, Int.cast_zero, zero_mul]
  · next hgt =>
    rw [← exactValue_units (show b ≤ e from hb), exactValue_fin]
    congr 1
    have hn : (cut m e q).1 = m / 2 ^ (q - e).toNat := by rw [cut, if_neg hgt]; exact Nat.shiftRight_eq_div_pow ..
    rw [hn, two_zpow_of_le (le_of_not_ge hgt), ← mul_assoc, ← sub_mul]
    congr 1
    have hdiv := Nat.div_add_mod m (2 ^ (q - e).toNat)
    have hdiv' : ((2 ^ (q - e).toNat : Nat) : Rat) * (m / 2 ^ (q - e).toNat : Nat) + (m % 2 ^ (q - e).toNat : Nat) = m := by exact_mod_cast hdiv
    linarith

/-- The exponent of a nonzero number's leading bit. -/
theorem topExp_spec {x : FNum} (h : IsFinite x) : (exactValue x = 0 ↔ topExp x = none) ∧
    ∀ t, topExp x = some t → 2 ^ t ≤ |exactValue x| ∧ |exactValue x| < 2 ^ (t + 1) := by
  obtain ⟨s, m, e, rfl⟩ := h.eq_fin
  rw [exactValue_fin_eq_zero, topExp]
  by_cases hm : m = 0
  · simp [hm]
  · refine ⟨by simp [hm], fun t ht => ?_⟩
    rw [if_neg fun h => hm (beq_iff_eq.1 h), Option.some.injEq] at ht
    subst ht
    rw [exactValue_fin, abs_signed, abs_of_nonneg (mul_nonneg (Nat.cast_nonneg m) (two_zpow_pos e).le)]
    exact ⟨two_zpow_log2_le hm e, lt_two_zpow_log2 m e⟩

theorem zpow_lt_imp {a b : Int} (h : (2 : Rat) ^ a < 2 ^ b) : a < b := (zpow_lt_zpow_iff_right₀ (by norm_num)).1 h

theorem foldl_topExp {T : List FNum} (hfin : ∀ x ∈ T, IsFinite x) {E : Int} (hlt : ∀ x ∈ T, |exactValue x| < 2 ^ (E + 1)) (hge : ∃ x ∈ T, 2 ^ E ≤ |exactValue x|) :
    ∃ t ts, T.filterMap topExp = t :: ts ∧ ts.foldl max t = E := by
  have hle : ∀ y ∈ T.filterMap topExp, y ≤ E := fun y hy => by
    obtain ⟨x, hx, hxy⟩ := List.mem_filterMap.1 hy
    exact Int.lt_add_one_iff.1 (zpow_lt_imp (((topExp_spec (hfin x hx)).2 y hxy).1.trans_lt (hlt x hx)))
  have hmem : E ∈ T.filterMap topExp := by
    obtain ⟨x, hx, hxE⟩ := hge
    obtain ⟨hzero, htop⟩ := topExp_spec (hfin x hx)
    have hne : topExp x ≠ none := fun h0 => by
      rw [hzero.2 h0, abs_zero] at hxE
      exact absurd (two_zpow_pos E) (not_lt.2 hxE)
    obtain ⟨t, ht⟩ := Option.ne_none_iff_exists'.1 hne
    have ht' := List.mem_filterMap.2 ⟨x, hx, ht⟩
    have hEt := Int.lt_add_one_iff.1 (zpow_lt_imp (hxE.trans_lt (htop t ht).2))
    rwa [show E = t from le_antisymm hEt (hle t ht')]
  cases hT : T.filterMap topExp with
  | nil => rw [hT] at hmem; exact absurd hmem List.not_mem_nil
  | cons t ts => exact ⟨t, ts, rfl, foldl_max_eq (hT ▸ hle) (hT ▸ hmem)⟩

theorem sum_map_mul {α : Type} {T : List α} {f : α → Int} {g : α → Rat} {u : Rat} (h : ∀ x ∈ T, (f x : Rat) * u = g x) :
    (T.map g).sum = ((T.map f).sum : Int) * u := by
  rw [← List.map_congr_left h, List.sum_map_mul_right, Int.cast_list_sum, List.map_map]
  rfl

theorem sign_mul_zpow (L b : Int) : (if (L : Rat) * 2 ^ b < 0 then -1 else if 0 < (L : Rat) * 2 ^ b then 1 else 0 : Rat) = (L.sign : Int) := by
  have hpos := two_zpow_pos b
  rcases lt_trichotomy L 0 with h | rfl | h
  · rw [if_pos (mul_neg_of_neg_of_pos (by exact_mod_cast h) hpos), Int.sign_eq_neg_one_of_neg h]; rfl
  · simp
  · have hL : 0 < (L : Rat) * 2 ^ b := mul_pos (by exact_mod_cast h) hpos
    rw [if_neg hL.le.not_gt, if_pos hL, Int.sign_eq_one_of_pos h]; rfl

/-- What stands for a window with something below it is 0 only where there is nothing in it and nothing below. -/
theorem four_mul_add_sign_ne_zero {H L : Int} (h0 : ¬(H = 0 ∧ L = 0)) : 4 * H + L.sign ≠ 0 := fun hv => h0 (by
  rcases lt_trichotomy L 0 with h | h | h
  · rw [Int.sign_eq_neg_one_of_neg h] at hv; omega
  · rw [h, Int.sign_zero] at hv; omega
  · rw [Int.sign_eq_one_of_pos h] at hv; omega)

/-- A sum of finite terms whose greatest leading bit has exponent `E`: what the window holds, and a quarter of its unit for what lies below, rounded once. -/
theorem finiteSum_rounds {nums : List FNum} {acc : FNum} (mode : RMode) (hfin : ∀ x ∈ nums ++ [acc], IsFinite x) {E : Int}
    (hlt : ∀ x ∈ nums ++ [acc], |exactValue x| < 2 ^ (E + 1)) (hge : ∃ x ∈ nums ++ [acc], 2 ^ E ≤ |exactValue x|) :
    let ts := (nums ++ [acc]).map exactValue
    let H := (ts.map (windowPart (E - 79))).sum
    let L := (ts.map (fun t => t - windowPart (E - 79) t)).sum
    ∃ b, finiteSum nums acc mode = some b ∧ (H = 0 → L = 0 → b = zeroSign nums acc mode) ∧
      (H ≠ 0 ∨ L ≠ 0 → IsRounded fp32 mode (H + (if L < 0 then -1 else if 0 < L then 1 else 0) * 2 ^ (E - 79) / 4) b) := by
  obtain ⟨t, l, hT, hmax⟩ := foldl_topExp hfin hlt hge
  set T := nums ++ [acc]
  obtain ⟨-, hb⟩ := foldl_min_le lowExp T (E - 79)
  set b := T.foldl (fun a x => min a (lowExp x)) (E - 79)
  have hH := sum_map_mul fun x hx => windowHigh_mul (E - 79) (hfin x hx)
  have hL := sum_map_mul fun x hx => windowLow_mul (q := E - 79) (hfin x hx) (hb x hx)
  simp only [finiteSum]
  rw [show nums ++ [acc] = T from rfl, hT]
  simp only [hmax, foldl_add_eq_sum, Int.zero_add, List.map_map]
  rw [show (windowPart (E - 79) ∘ exactValue) = fun x => windowPart (E - 79) (exactValue x) from rfl, hH,
    show ((fun t => t - windowPart (E - 79) t) ∘ exactValue) = fun x => exactValue x - windowPart (E - 79) (exactValue x) from rfl, hL]
  change ∃ c, (if (T.map (windowHigh (E - 79))).sum = 0 ∧ (T.map (windowLow (E - 79) b)).sum = 0 then _ else _) = some c ∧ _
  generalize (T.map (windowHigh (E - 79))).sum = H
  generalize (T.map (windowLow (E - 79) b)).sum = L
  have hposE := two_zpow_pos (E - 79)
  have hposb := two_zpow_pos b
  simp only [sign_mul_zpow, mul_eq_zero, or_iff_left hposE.ne', or_iff_left hposb.ne', Int.cast_eq_zero, ne_eq]
  by_cases h0 : H = 0 ∧ L = 0
  · rw [if_pos h0]
    exact ⟨_, rfl, fun _ _ => rfl, fun h => absurd h0 (not_and_or.2 h)⟩
  · rw [if_neg h0]
    refine ⟨_, rfl, fun hH hL => absurd ⟨hH, hL⟩ h0, fun _ => ?_⟩
    have hround := isRounded_roundFin fp32_sound (Int.natAbs_ne_zero.2 (four_mul_add_sign_ne_zero h0)) (E - 79 - 2) mode (decide (4 * H + L.sign < 0))
    rw [exactValue_natAbs] at hround
    convert hround using 1
    rw [show (2 : Rat) ^ (E - 79 - 2) = 2 ^ (E - 79) / 4 by rw [zpow_sub₀ two_ne_zero]; norm_num]
    push_cast
    ring

theorem filterMap_topExp_of_zero {T : List FNum} (hfin : ∀ x ∈ T, IsFinite x) (h : ∀ x ∈ T, x.isZero = true) : T.filterMap topExp = [] := by
  rw [List.filterMap_eq_nil_iff]
  intro x hx
  obtain ⟨s, m, e, rfl⟩ := (hfin x hx).eq_fin
  rw [topExp]
  exact if_pos (h _ hx)

theorem matrixSum : MatrixSumStated := by
  refine ⟨fun P acc mode => ?_, fun k a b => ⟨product_invalid k, product_nan k, product_finite k⟩⟩
  intro T bad nan sum negZero none0
  have hT : T = T.dropLast ++ [acc] := by
    rw [show T = _ ++ [acc] from rfl, List.dropLast_concat]
  have hzero : zeroSign T.dropLast acc mode = none0 := zeroSign_eq ..
  have hfinite : ¬bad → ¬nan → (∀ x ∈ T, IsFinite x) → windowSum P acc mode = finiteSum T.dropLast acc mode := fun hbad hnan hfin => by
    have hinf : ∀ s, FNum.inf s ∉ T := fun s hs => absurd (hfin _ hs).2 (by simp [FNum.isInf])
    rw [windowSum_eq, if_neg fun h => hbad (h.imp_right .inl), if_neg fun h => hinf _ h.1, if_neg hnan, if_neg (hinf _), if_neg (hinf _)]
  refine ⟨fun hbad => ?_, fun hbad hnan => ?_, fun hbad hnan s hs => ?_, fun hbad hnan hfin hz => ?_, fun hbad hnan hfin E hlt hge => ?_⟩
  · rw [windowSum_eq]
    rcases (hbad : _ ∨ _ ∨ _ ∧ _) with hs | hi | ⟨hneg, hpos⟩
    · rw [if_pos (.inl hs)]
    · rw [if_pos (.inr hi)]
    · rw [if_pos (⟨hpos, hneg⟩ : _ ∧ _), ite_self]
  · rw [windowSum_eq, if_neg fun h => hbad (h.imp_right .inl), if_neg fun h => hbad (.inr (.inr h.symm)), if_pos hnan]
    rfl
  · rw [windowSum_eq, if_neg fun h => hbad (h.imp_right .inl), if_neg fun h => hbad (.inr (.inr h.symm)), if_neg hnan]
    cases s
    · rw [if_pos hs]; rfl
    · rw [if_neg fun h => hbad (.inr (.inr ⟨hs, h⟩)), if_pos hs]; rfl
  · rw [hfinite hbad hnan hfin, ← hzero, finiteSum]
    simp only [← hT, filterMap_topExp_of_zero hfin hz]
  · rw [hfinite hbad hnan hfin, ← hzero]
    have hsum : ∀ l : List Rat, sum l = l.sum := fun l => by
      rw [show sum l = _ from foldl_add_eq_sum id l 0, List.map_id, zero_add]
    rw [hT] at hfin hlt hge
    have h := finiteSum_rounds mode hfin (fun x hx => abs_lt.2 (hlt x hx).symm) (hge.imp fun x hx => hx.imp_right fun h => le_abs.2 (h.imp_right le_neg_of_le_neg))
    simp only [hsum]
    rw [← hT] at h
    exact h

end Sys2Proof.Machine
end

section
/-! PROOFS. Special operands (R127, R147, R149): NaNs, infinities and zeros of the float operations, and the inputs at which the SFU forms are exact. -/
namespace Sys2Proof.Machine

/-! ### NaNs, infinities and zeros -/

section
variable {F : FFmt} {mode : RMode} {op : FNum → FNum → Option FNum} {a b z : FNum}

@[simp] theorem isSNaN_neg (x : FNum) : x.neg.isSNaN = x.isSNaN := by cases x <;> rfl
@[simp] theorem isNaN_neg (x : FNum) : x.neg.isNaN = x.isNaN := by cases x <;> rfl

theorem arith2_sNaN (h : a.isSNaN = true ∨ b.isSNaN = true) : arith2 F mode op a b = none := by
  rw [arith2, if_pos (by simpa using h)]

theorem arith2_nan (ha : a.isSNaN = false) (hb : b.isSNaN = false) (h : a.isNaN = true ∨ b.isNaN = true) : arith2 F mode op a b = some F.qnan := by
  rw [arith2, if_neg (by simp [ha, hb]), if_pos (by simpa using h)]

theorem isSNaN_of_not_isNaN : ∀ {a : FNum}, a.isNaN = false → a.isSNaN = false
  | .inf _, _ | .fin .., _ => rfl

theorem arith2_not_nan (ha : a.isNaN = false) (hb : b.isNaN = false) : arith2 F mode op a b = (op a b).map (roundFloat F mode) := by
  simp [arith2, ha, hb, isSNaN_of_not_isNaN]

theorem FNum.eq_inf_of_isInf : ∀ {a : FNum}, a.isInf = true → a = .inf a.isNeg
  | .inf _, _ => rfl
theorem FNum.eq_fin_of_isZero : ∀ {a : FNum}, a.isZero = true → ∃ e, a = .fin a.isNeg 0 e
  | .fin s m e, h => ⟨e, by obtain rfl : m = 0 := beq_iff_eq.1 h; rfl⟩

theorem fFma_sNaN (h : a.isSNaN = true ∨ b.isSNaN = true ∨ z.isSNaN = true) : fFma F mode a b z = none := by
  rw [fFma, if_pos (by simpa [or_assoc] using h)]

theorem fFma_nan (ha : a.isSNaN = false) (hb : b.isSNaN = false) (hz : z.isSNaN = false)
    (h : a.isNaN = true ∨ b.isNaN = true ∨ (z.isNaN = true ∧ FNum.mul a b ≠ none)) : fFma F mode a b z = some F.qnan := by
  rw [fFma, if_neg (by simp [ha, hb, hz])]
  by_cases hab : a.isNaN = true ∨ b.isNaN = true
  · rw [mul_of_nan ha hb hab]; rfl
  · obtain ⟨hzn, hne⟩ := (or_assoc.2 h).resolve_left hab
    obtain ⟨p, hp⟩ := Option.ne_none_iff_exists'.1 hne
    rw [hp]
    exact if_pos (by simp [hzn])

theorem fFma_mul_none (h : FNum.mul a b = none) : fFma F mode a b z = none := by
  rw [fFma, h]
  exact ite_self _

theorem products_of_zero_and_inf (ha : a.isZero = true) (hb : b.isInf = true) : fMul F mode a b = none ∧ fMul F mode b a = none ∧ fFma F mode a b z = none := by
  have hmul := mul_eq_none (.inl ⟨ha, hb⟩)
  have hmul' := mul_eq_none (.inr ⟨hb, ha⟩)
  obtain ⟨e, he⟩ := FNum.eq_fin_of_isZero ha
  have hna : a.isNaN = false := he ▸ rfl
  have hnb : b.isNaN = false := FNum.eq_inf_of_isInf hb ▸ rfl
  exact ⟨by rw [fMul, arith2_not_nan hna hnb, hmul]; rfl, by rw [fMul, arith2_not_nan hnb hna, hmul']; rfl, fFma_mul_none hmul⟩

theorem sums_and_quotient_of_infs (ha : a.isInf = true) (hb : b.isInf = true) :
    fDiv F mode a b = none ∧ (a.isNeg ≠ b.isNeg → fAdd F mode a b = none) ∧ (a.isNeg = b.isNeg → fSub F mode a b = none) := by
  rw [FNum.eq_inf_of_isInf ha, FNum.eq_inf_of_isInf hb]
  generalize a.isNeg = s
  generalize b.isNeg = t
  refine ⟨rfl, fun h => ?_, fun h => ?_⟩
  · rw [fAdd, arith2_not_nan rfl rfl, FNum.add, if_neg fun he : (s == t) = true => h (beq_iff_eq.1 he)]; rfl
  · obtain rfl : s = t := h
    rw [fSub, FNum.neg, arith2_not_nan rfl rfl, FNum.add, if_neg (by simp)]; rfl

theorem fDiv_zero_zero (ha : a.isZero = true) (hb : b.isZero = true) : fDiv F mode a b = none := by
  obtain ⟨e, he⟩ := FNum.eq_fin_of_isZero ha
  obtain ⟨f, hf⟩ := FNum.eq_fin_of_isZero hb
  rw [he, hf]
  rfl

theorem fDiv_by_zero (h0 : a.isZero = false) (hn : a.isNaN = false) (hb : b.isZero = true) : fDiv F mode a b = some (zeroOf F (a.isNeg != b.isNeg) + F.infBits) := by
  obtain ⟨f, hf⟩ := FNum.eq_fin_of_isZero hb
  rw [hf, fDiv, arith2_not_nan hn rfl]
  cases a with
  | nan s => exact absurd hn (by simp [FNum.isNaN])
  | inf s => rfl
  | fin s m e =>
    have hm : ¬(m == 0) = true := by simpa [FNum.isZero] using h0
    simp only [if_neg hm]
    rfl

end

/-! ### The lesser and the greater -/

theorem cmp_swap (x y : FNum) : FNum.cmp y x = -FNum.cmp x y := by
  cases x with
  | nan s => cases y with
    | inf t => cases t <;> rfl
    | _ => rfl
  | inf s => cases y with
    | inf t => cases s <;> cases t <;> rfl
    | _ => cases s <;> rfl
  | fin s m e => cases y with
    | nan t => rfl
    | inf t => cases t <;> rfl
    | fin t n f =>
      have hq : (if f < e then f else e) = if e < f then e else f := by split_ifs <;> omega
      simp only [FNum.cmp, hq]
      split_ifs <;> omega

theorem cmp_self (x : FNum) : FNum.cmp x x = 0 := by have := cmp_swap x x; omega

theorem fMinMax_nan {F : FFmt} {mx : Bool} {m n : Nat} (hm : (F.decode m).isSNaN = false) (hn : (F.decode n).isSNaN = false)
    (h : (F.decode m).isNaN = true ∨ (F.decode n).isNaN = true) : fMinMax F mx m n = some F.qnan := by
  simp only [fMinMax]
  rw [if_neg (by simp [hm, hn]), if_pos (by simpa using h)]

theorem fMinMax_sNaN {F : FFmt} {mx : Bool} {m n : Nat} (h : (F.decode m).isSNaN = true ∨ (F.decode n).isSNaN = true) : fMinMax F mx m n = none := by
  simp only [fMinMax]
  rw [if_pos (by simpa using h)]

/-- How two numbers compare from whether the first counts as less, where −0 comes before +0. -/
theorem cmp_of_less (c : Int) (neg : Bool) : if (decide (c < 0) || c == 0 && neg) = true then c ≤ 0 else 0 ≤ c := by
  rcases lt_trichotomy c 0 with h | rfl | h
  · rw [if_pos (by simp [h])]; exact h.le
  · exact (ite_self _).mpr le_rfl
  · rw [if_neg (by simp [h.le, h.ne'])]; exact h.le

/-- Of two numbers the lesser or the greater is one of them, and no other is less or greater. -/
theorem fMinMax_spec {F : FFmt} {m n : Nat} (mx : Bool) (hm : (F.decode m).isNaN = false) (hn : (F.decode n).isNaN = false) :
    ∃ k, fMinMax F mx m n = some k ∧ (k = m ∨ k = n) ∧
      ∀ j ∈ [m, n], if mx = true then 0 ≤ FNum.cmp (F.decode k) (F.decode j) else FNum.cmp (F.decode k) (F.decode j) ≤ 0 := by
  simp only [fMinMax, hm, hn, isSNaN_of_not_isNaN, Bool.or_self, Bool.false_eq_true, if_false, List.forall_mem_cons, List.not_mem_nil,
    false_imp_iff, implies_true, and_true]
  have hswap := cmp_swap (F.decode m) (F.decode n)
  have hless := cmp_of_less (FNum.cmp (F.decode m) (F.decode n)) (F.decode m).isNeg
  refine ⟨_, rfl, ?_⟩
  generalize (decide (FNum.cmp (F.decode m) (F.decode n) < 0) || FNum.cmp (F.decode m) (F.decode n) == 0 && (F.decode m).isNeg) = less at hless ⊢
  cases less <;> cases mx <;> simp_all [cmp_self]

theorem floatSpecialOperands : FloatSpecialOperandsStated := by
  intro r a b z
  refine ⟨fun h => ?_, fun ha hb h => ?_, fun h => fFma_sNaN (.inr (.inr h)), fun ha hb hz h => fFma_nan ha hb hz h, fun mx m n => ?_, by decide, by decide, by decide,
    by decide, fun ha hb => products_of_zero_and_inf ha hb, fun ha hb => sums_and_quotient_of_infs ha hb, fun ha hb => fDiv_zero_zero ha hb, fun h0 hn hb => ?_⟩
  · exact ⟨arith2_sNaN h, arith2_sNaN (by simpa using h), arith2_sNaN h, arith2_sNaN h, fFma_sNaN (h.imp_right .inl)⟩
  · exact ⟨arith2_nan ha hb h, arith2_nan ha (by simpa using hb) (by simpa using h), arith2_nan ha hb h, arith2_nan ha hb h⟩
  · exact ⟨fMinMax_sNaN, fMinMax_nan, fMinMax_spec mx⟩
  · rw [fDiv_by_zero h0 hn hb]
    cases a.isNeg <;> cases b.isNeg <;> rfl

/-! ### Exact roundings -/

/-- A number that the format has is rounded to itself. -/
theorem roundFin_of_mag {F : FFmt} (hF : F.Sound) {m b : Nat} {e : Int} (hm : m ≠ 0) (hb : b < F.infBits) (h : F.mag b = m * 2 ^ e) (mode : RMode) (neg : Bool) :
    roundFin F mode neg m e = zeroOf F neg + b := by
  obtain ⟨hn, hk⟩ := F.cut_stepExp hm e
  obtain ⟨-, -, hlies⟩ := FFmt.lies_cut (le_max_left _ _) hn hk
  rw [roundFin_eq hF hm]
  rw [show max F.qmin (e + (Nat.log2 m : Int) - F.fbits) = F.stepExp m e from rfl, ← h] at hlies
  generalize (F.stepExp m e - F.qmin).toNat * 2 ^ F.fbits + (cut m e (F.stepExp m e)).1 = b0 at hlies ⊢
  obtain rfl : b0 = b := le_antisymm (F.mag_strictMono.le_iff_le.1 hlies.lower) (Nat.lt_succ_iff.1 (F.mag_strictMono.lt_iff_lt.1 hlies.upper))
  rw [hlies.exact.2 rfl]
  have hdown : roundsUp mode neg b0 0 = false := by cases mode <;> simp [roundsUp]
  rw [hdown, if_neg Bool.false_ne_true, FFmt.cap.eq_def, if_pos hb]

/-- FP32 holds every natural number of at most 24 bits. -/
theorem exists_mag_eq_nat {m : Nat} (h0 : m ≠ 0) (h : m < 2 ^ 24) : ∃ b < fp32.infBits, fp32.mag b = m := by
  have hlo := Nat.log2_self_le h0
  have hhi := Nat.lt_log2_self (n := m)
  have hl : Nat.log2 m ≤ 23 := Nat.lt_succ_iff.1 ((Nat.log2_lt h0).2 h)
  generalize Nat.log2 m = l at hlo hhi hl
  have hpow : 2 ^ l * 2 ^ (23 - l) = 2 ^ 23 := by rw [← pow_add, Nat.add_sub_cancel' hl]
  have hpos := Nat.two_pow_pos (23 - l)
  have hle : m * 2 ^ (23 - l) ≤ 2 * 2 ^ 23 := by rw [← hpow]; nlinarith [pow_succ 2 l]
  have hge : 2 ^ 23 ≤ m * 2 ^ (23 - l) := by rw [← hpow]; exact Nat.mul_le_mul_right _ hlo
  refine ⟨(126 + l) * 2 ^ 23 + m * 2 ^ (23 - l), by rw [show fp32.infBits = 255 * 2 ^ 23 from rfl]; omega, ?_⟩
  rw [show (126 + l) * 2 ^ 23 + m * 2 ^ (23 - l) = (126 + l) * 2 ^ fp32.fbits + m * 2 ^ (23 - l) from rfl, fp32.mag_step hle (.inr hge),
    show fp32.qmin + ((126 + l : Nat) : Int) = -((23 - l : Nat) : Int) by rw [show fp32.qmin = -149 from rfl]; omega, zpow_neg, zpow_natCast]
  push_cast
  rw [mul_assoc, mul_inv_cancel₀ (by positivity), mul_one]

/-- The pattern of a power of two in FP32. -/
def powerBits (n : Int) : Nat := if -126 ≤ n then ((n + 127) * 2 ^ 23).toNat else 2 ^ (n + 149).toNat

theorem powerBits_spec {n : Int} (hlo : -149 ≤ n) (hhi : n ≤ 127) : powerBits n < fp32.infBits ∧ fp32.mag (powerBits n) = 2 ^ n := by
  rw [powerBits, show fp32.infBits = 255 * 2 ^ 23 from rfl]
  split
  · next h =>
    obtain ⟨k, hk⟩ := Int.eq_ofNat_of_zero_le (show 0 ≤ n + 126 by omega)
    have hbits : ((n + 127) * 2 ^ 23).toNat = k * 2 ^ fp32.fbits + 2 ^ fp32.fbits := by
      rw [show fp32.fbits = 23 from rfl]; omega
    refine ⟨by omega, ?_⟩
    rw [hbits, fp32.mag_step (by omega) (.inr le_rfl), ← hk, show fp32.qmin + (n + 126) = n + -23 by rw [show fp32.qmin = -149 from rfl]; ring,
      show fp32.fbits = 23 from rfl, two_zpow_add]
    push_cast
    rw [mul_left_comm]
    norm_num
  · next h =>
    have hle : 2 ^ (n + 149).toNat ≤ 2 ^ 22 := Nat.pow_le_pow_right (by norm_num) (by omega)
    refine ⟨by omega, ?_⟩
    have hstep := fp32.mag_step (k := 0) (n := 2 ^ (n + 149).toNat) (by rw [show fp32.fbits = 23 from rfl]; omega) (.inl rfl)
    rw [Nat.zero_mul, Nat.zero_add] at hstep
    rw [hstep, show fp32.qmin + ((0 : Nat) : Int) = -149 from rfl, two_zpow_of_le hlo, Int.sub_neg]

/-! ### SFU forms at their exact inputs -/

/-- A number that is a multiple of one half is so for `halves`. -/
theorem halves_eq {s : Bool} {m : Nat} {e h : Int} (hv : 2 * exactValue (.fin s m e) = h) : halves s m e = some h := by
  obtain ⟨hlower, hupper, hexact, -⟩ := cut_spec m (e + 1) 0
  have hdouble : signed s ((m : Rat) * 2 ^ (e + 1)) = h := by
    rw [← hv, exactValue_fin, two_zpow_add]; cases s <;> simp [signed] <;> ring
  have habs : (m : Rat) * 2 ^ (e + 1) = (h.natAbs : Nat) := by
    rw [Nat.cast_natAbs, Int.cast_abs, ← hdouble, abs_signed, abs_of_nonneg (mul_nonneg (Nat.cast_nonneg m) (two_zpow_pos _).le)]
  rw [zpow_zero, mul_one, habs] at hlower hupper hexact
  have hn : (cut m (e + 1) 0).1 = h.natAbs := le_antisymm (by exact_mod_cast hlower) (Nat.lt_succ_iff.1 (by exact_mod_cast hupper))
  have hsign : (if s = true then -(h.natAbs : Int) else h.natAbs) = h := by
    refine Int.cast_injective (α := Rat) ?_
    rw [← hdouble, habs, signed]
    cases s <;> simp
  simp only [halves, hexact.2 (by rw [hn]), hn, hsign, BEq.rfl, if_true]

theorem one_rounded (s : Bool) : roundFin fp32 .rne s 1 0 = if s then 0xBF800000 else 0x3F800000 := by cases s <;> decide

theorem sfu_exact_at {a : Nat} {h : Int} (hfin : IsFinite (fp32.decode a)) (hv : 2 * exactValue (fp32.decode a) = h) :
    sfu 5 a = some (if h % 2 = 0 then zeroOf fp32 (fp32.decode a).isNeg else if h % 4 = 3 then 0xBF800000 else 0x3F800000) ∧
      sfu 6 a = some (if h % 2 = 0 then (if h % 4 = 2 then 0xBF800000 else 0x3F800000) else 0) ∧
      (h % 2 = 0 → -298 ≤ h → h ≤ 254 → sfu 3 a = some (powerBits (h / 2))) := by
  obtain ⟨s, m, e, hd⟩ := hfin.eq_fin
  rw [hd] at hv
  have hhalves := halves_eq hv
  refine ⟨?_, ?_, fun heven hlo hhi => ?_⟩
  · simp only [sfu, hd, hhalves, one_rounded, beq_iff_eq, decide_eq_true_eq, zeroOf, FNum.isNeg]
    split <;> rfl
  · simp only [sfu, hd, hhalves, one_rounded, beq_iff_eq, decide_eq_true_eq]
    split <;> rfl
  · obtain ⟨hb, hmag⟩ := powerBits_spec (n := h / 2) (by omega) (by omega)
    have hround := roundFin_of_mag fp32_sound one_ne_zero hb (by rw [hmag, Nat.cast_one, one_mul]) .rne false
    simp [sfu, hd, hhalves, heven, hlo, hhi, hround, zeroOf]

theorem log2_of_mul_eq {m : Nat} {e n : Int} (h : (m : Rat) * 2 ^ e = 2 ^ n) : m = 2 ^ Nat.log2 m ∧ e + (Nat.log2 m : Int) = n := by
  have hm : m ≠ 0 := by
    rintro rfl
    rw [Nat.cast_zero, zero_mul] at h
    exact (two_zpow_pos n).ne h
  have hlo := two_zpow_log2_le hm e
  have hhi := lt_two_zpow_log2 m e
  rw [h] at hlo hhi
  have hn : e + (Nat.log2 m : Int) = n := le_antisymm ((zpow_le_zpow_iff_right₀ (by norm_num)).1 hlo) (Int.lt_add_one_iff.1 (zpow_lt_imp hhi))
  refine ⟨?_, hn⟩
  rw [← hn, two_zpow_add, mul_comm, mul_right_inj' (two_zpow_pos e).ne', zpow_natCast] at h
  exact_mod_cast h

theorem sfu_log_power {n : Int} (hlo : -149 ≤ n) (hhi : n ≤ 127) : exactValue (fp32.decode (powerBits n)) = 2 ^ n ∧
    ∃ b, sfu 4 (powerBits n) = some b ∧ IsFinite (fp32.decode b) ∧ exactValue (fp32.decode b) = n ∧ (n = 0 → b = 0) := by
  obtain ⟨hb, hmag⟩ := powerBits_spec hlo hhi
  obtain ⟨hfin, hval⟩ := fp32.decode_zeroOf_add false hb
  rw [zeroOf, if_neg Bool.false_ne_true, Nat.zero_add] at hfin hval
  rw [hmag] at hval
  change exactValue _ = 2 ^ n at hval
  refine ⟨hval, ?_⟩
  obtain ⟨s, m, e, hd⟩ := hfin.eq_fin
  rw [hd, exactValue_fin] at hval
  obtain rfl : s = false := by
    cases s
    · rfl
    · have h1 := two_zpow_pos n
      have h2 : 0 ≤ (m : Rat) * 2 ^ e := mul_nonneg (Nat.cast_nonneg m) (two_zpow_pos e).le
      rw [signed, if_pos rfl] at hval
      linarith
  obtain ⟨hpow, hlog⟩ := log2_of_mul_eq hval
  have hm : m ≠ 0 := hpow ▸ (Nat.two_pow_pos _).ne'
  have hsfu : sfu 4 (powerBits n) = some (roundFin fp32 .rne (decide (n < 0)) n.natAbs 0) := by
    simp only [sfu, hd, beq_iff_eq, if_neg hm, Bool.false_eq_true, if_false, if_pos hpow, hlog, FNum.ofInt, roundFloat]
  by_cases h0 : n = 0
  · subst h0
    obtain ⟨hzfin, hzval⟩ := fp32.decode_zeroOf_add false fp32_sound.infBits_pos
    exact ⟨0, hsfu.trans (by decide), hzfin, hzval.trans (by simp [signed, fp32.mag_zero]), fun _ => rfl⟩
  · obtain ⟨b, hb, hbmag⟩ := exists_mag_eq_nat (Int.natAbs_ne_zero.2 h0) (by omega)
    rw [roundFin_of_mag fp32_sound (Int.natAbs_ne_zero.2 h0) hb (by rw [hbmag, zpow_zero, mul_one])] at hsfu
    obtain ⟨hbfin, hbval⟩ := fp32.decode_zeroOf_add (decide (n < 0)) hb
    refine ⟨_, hsfu, hbfin, ?_, fun h => absurd h h0⟩
    have h := exactValue_natAbs 0 n
    rwa [exactValue_fin, zpow_zero, mul_one, mul_one, ← hbmag, ← hbval] at h

theorem sfuExactInputs : SfuExactInputsStated := by
  refine ⟨fun a n hfin hv => ?_, fun a n hfin hv => ?_, fun n hlo hhi => sfu_log_power hlo hhi⟩
  · obtain ⟨hsin, hcos, hexp⟩ := sfu_exact_at (h := 2 * n) hfin (by rw [hv]; push_cast; rfl)
    refine ⟨?_, ?_, fun hlo hhi => ?_⟩
    · rw [hsin, if_pos (by omega)]
    · rw [hcos, if_pos (by omega)]
      congr 1
      split_ifs <;> omega
    · have h := hexp (by omega) (by omega) (by omega)
      rwa [show 2 * n / 2 = n by omega] at h
  · obtain ⟨hsin, hcos, -⟩ := sfu_exact_at (h := 2 * n + 1) hfin (by rw [hv]; push_cast; ring)
    refine ⟨?_, ?_⟩
    · rw [hsin, if_neg (by omega)]
      congr 1
      split_ifs <;> omega
    · rw [hcos, if_neg (by omega)]

/-! ### SFU forms at their special inputs -/

theorem sfu_sNaN {a : Nat} (f : Nat) (h : (fp32.decode a).isSNaN = true) : sfu f a = none := by
  obtain hd : fp32.decode a = .nan true := by cases hd : fp32.decode a <;> simp_all [FNum.isSNaN]
  rw [sfu, hd]

theorem sfu_nan {a : Nat} (f : Nat) (h : (fp32.decode a).isNaN = true) (hs : (fp32.decode a).isSNaN = false) : sfu f a = some 0x7FC00000 := by
  obtain hd : fp32.decode a = .nan false := by cases hd : fp32.decode a <;> simp_all [FNum.isSNaN, FNum.isNaN]
  rw [sfu, hd]
  rfl

theorem sfuSpecialInputs : SfuSpecialInputsStated := by
  refine ⟨fun r => by cases r <;> decide, ?_⟩
  refine ⟨by decide, by decide, by decide, by decide, by decide, by decide, by decide, by decide, by decide, by decide, by decide, by decide, by decide, by decide,
    by decide, by decide, by decide, by decide, by decide, fun f _ a h => sfu_sNaN f h, fun f _ a h hs => sfu_nan f h hs⟩

/-- Settles O17: `roundFin` rounds what agrees with an exact number one bit below its last place, and every operation hands it such a number; special operands are told
apart before. -/
theorem specialInputs : Obligations.SpecialInputs := ⟨exactArithmetic, matrixSum, floatSpecialOperands, sfuExactInputs, sfuSpecialInputs⟩

end Sys2Proof.Machine
end

section
/-! PROOFS. Lane words on their sources (R88, R98, R124, R131): the result of a word of one, two or three sources, of one that rounds, and what FMT and the
rounding mode are to a settled split. -/
namespace Sys2Proof.Machine

/-! ### Fields of a word -/

theorem oddReg_eq (r : BitVec 7) : oddReg r.toNat = !even r := by
  rcases Nat.mod_two_eq_zero_or_one r.toNat with e | e <;> simp [oddReg, even, e]

theorem gt_eq_not_le (a b : Nat) : decide (a < b) = !decide (b ≤ a) := by
  rw [← decide_not]
  simp only [not_le]

section
variable {s : State} {c : Cur} {x : Group} {sp : Split} {t : Team} (h : Issuing s c x sp t)
include h

/-! ### FMT and the rounding mode (R122, R124) -/

theorem Issuing.fmtAt_eq (i : Nat) : (wxOf c s).fmtAt i = sp.fmt := by simp [Wx.fmtAt, h.wx, h.settled]

theorem Issuing.mode_eq (m : XMod) (i : Nat) : (wxOf c s).mode m i = modeOf sp m := by
  simp only [Wx.mode, h.fmtAt_eq, bits_toNat, modeOf, beq_iff_eq]

/-- A word that rounds takes its mode from RND or FMT; one that need not takes any mode where RND leaves it to FMT (R123, R124). -/
theorem Issuing.modeIf_eq (rounds : Bool) (m : XMod) (i : Nat) :
    (wxOf c s).modeIf rounds m i = if rounds = false ∧ m.rnd = 7 then some .rne else modeOf sp m := by
  simp only [Wx.modeIf, h.mode_eq, Bool.and_eq_true, Bool.not_eq_true', beq_iff_eq]

theorem Issuing.modeIf_rounds (m : XMod) (i : Nat) : (wxOf c s).modeIf true m i = modeOf sp m := by rw [h.modeIf_eq]; rfl

/-! ### Words by their sources -/

variable {p : BitVec 3} (hp : CleanPred x sp p.toNat) {d n : Nat} (hb : InBudget x t d n) {i : Instr} {late rsv ok : Bool}
include hp hb

/-- A lane word with a register destination gives its result where its fields are in order, and MALFORMED where one is reserved (R88). -/
theorem Issuing.reg_results (fn : Wx → Nat → LVal) (g : Nat → LVal) (hr : rsv = !ok)
    (hi : exec i s = onIssuer s (laneWord p fun wx => finishLanes late ⟨.v, d, n⟩ rsv (fn wx) wx)) (ha : ∀ a, fn { wxOf c s with act := a } = fn (wxOf c s))
    (hg : ok = true → ∀ j, fn (wxOf c s) j = g j) : Results i s c.gid x late (active x sp p.toNat) ⟨.v, d, n⟩ (fun j => if ok then g j else .bad .malformed) := by
  refine lane_results h p hp i late ⟨.v, d, n⟩ rsv _ _ (.inl rfl) (fun e => nomatch e) (fun _ => hb) fn hi ha fun j => ?_
  subst hr
  cases ok
  · rfl
  · exact hg rfl j

/-- A word of one source. -/
theorem Issuing.results1 {m : XMod} {k : Kind} {a : Nat} {f : Nat → LVal} (g : Nat → LVal) (hr : rsv = !ok)
    (hi : exec i s = onIssuer s (laneWord p fun wx => finishLanes late ⟨.v, d, n⟩ rsv (fun i => lift1 (wx.src m k .a a i) f) wx))
    (hg : ok = true → ∀ a, a < k.size → f a = g a) :
    Results i s c.gid x late (active x sp p.toNat) ⟨.v, d, n⟩ (fun i => result1 ok ((wxOf c s).src m k .a a i) g) :=
  h.reg_results hp hb (fun wx i => lift1 (wx.src m k .a a i) f) _ hr hi (fun _ => rfl) fun ok _ =>
    lift1_congr _ _ _ fun a ha => hg ok a (Wx.src_lt _ _ _ _ _ _ _ ha)

/-- A word of two sources. -/
theorem Issuing.results2 {m : XMod} {k : Kind} {a b : Nat} {f : Nat → Nat → LVal} (g : Nat → Nat → LVal) (hr : rsv = !ok)
    (hi : exec i s = onIssuer s (laneWord p fun wx => finishLanes late ⟨.v, d, n⟩ rsv (fun i => lift2 (wx.src m k .a a i) (wx.src m k .b b i) f) wx))
    (hg : ok = true → ∀ a b, a < k.size → b < k.size → f a b = g a b) :
    Results i s c.gid x late (active x sp p.toNat) ⟨.v, d, n⟩ (fun i => result2 ok ((wxOf c s).src m k .a a i) ((wxOf c s).src m k .b b i) g) :=
  h.reg_results hp hb (fun wx i => lift2 (wx.src m k .a a i) (wx.src m k .b b i) f) _ hr hi (fun _ => rfl) fun ok _ =>
    lift2_congr _ _ _ _ fun a b ha hb => hg ok a b (Wx.src_lt _ _ _ _ _ _ _ ha) (Wx.src_lt _ _ _ _ _ _ _ hb)

/-- A word of two sources and a third operand of its own kind. -/
theorem Issuing.results3 {m : XMod} {k : Kind} {a b : Nat} (z : Wx → Nat → LVal) {f : Nat → Nat → Nat → LVal} (y : Nat → LVal) (top : Nat)
    (g : Nat → Nat → Nat → LVal) (hr : rsv = !ok)
    (hi : exec i s = onIssuer s (laneWord p fun wx => finishLanes late ⟨.v, d, n⟩ rsv (fun i => lift3 (wx.src m k .a a i) (wx.src m k .b b i) (z wx i) f) wx))
    (ha : ∀ a, z { wxOf c s with act := a } = z (wxOf c s)) (hz : ok = true → ∀ i, z (wxOf c s) i = y i) (hy : ∀ i n, y i = .val n → n < top)
    (hg : ok = true → ∀ a b d, a < k.size → b < k.size → d < top → f a b d = g a b d) :
    Results i s c.gid x late (active x sp p.toNat) ⟨.v, d, n⟩ (fun i => result3 ok ((wxOf c s).src m k .a a i) ((wxOf c s).src m k .b b i) (y i) g) := by
  refine h.reg_results hp hb (fun wx i => lift3 (wx.src m k .a a i) (wx.src m k .b b i) (z wx i) f) _ hr hi (fun u => ?_) fun ok i => ?_
  · funext i
    rw [ha]
    rfl
  · rw [hz ok]
    exact lift3_congr _ _ _ _ _ fun a b d ha hb hd => hg ok a b d (Wx.src_lt _ _ _ _ _ _ _ ha) (Wx.src_lt _ _ _ _ _ _ _ hb) (hy i d hd)

/-- A word that rounds: a reserved mode poisons, as a reserved field does (R88, R123, R124). -/
theorem Issuing.rounded_results {hon : Honour} {m : XMod} {rounds : Bool} {f : RMode → Wx → Nat → LVal} {mode : Option RMode} (g : RMode → Nat → LVal)
    (hr : (rsv || !modOk hon m) = !ok) (hi : exec i s = roundedWord hon late p d n m rsv rounds f s) (hm : ∀ j, (wxOf c s).modeIf rounds m j = mode)
    (ha : ∀ r a, f r { wxOf c s with act := a } = f r (wxOf c s)) (hg : ok = true → ∀ r j, f r (wxOf c s) j = g r j) :
    Results i s c.gid x late (active x sp p.toNat) ⟨.v, d, n⟩ (fun j => rounded mode fun r => if ok then g r j else .bad .malformed) := by
  refine lane_results h p hp i late ⟨.v, d, n⟩ (rsv || !modOk hon m) (fun j => rounded mode fun r => f r (wxOf c s) j) _ (.inl rfl) (fun e => nomatch e) (fun _ => hb)
    (fun wx j => match wx.modeIf rounds m j with | none => .bad .malformed | some r => f r wx j) hi (fun a => ?_) fun j => ?_
  · funext j
    have e : ({ wxOf c s with act := a } : Wx).modeIf rounds m j = mode := hm j
    simp only [e, ha]
    rfl
  · rw [hr]
    cases ok
    · cases mode <;> rfl
    · cases mode with
      | none => rfl
      | some r => exact hg rfl r j

end

end Sys2Proof.Machine
end

section
/-! PROOFS. Integer results as numbers (R134, R136, R142 to R146): narrowed results, shifts, counts and fields of words. -/
namespace Sys2Proof.Machine

/-! ### Narrowed results (R134) -/

theorem wrap_eq (n : Nat) (r : Int) : wrap n r = (BitVec.ofInt n r).toNat := (BitVec.toNat_ofInt ..).symm

theorem clamp_eq {lo hi : Int} (h : lo ≤ hi) (r : Int) : clamp lo hi r = max lo (min hi r) := by
  unfold clamp
  split_ifs <;> omega

theorem intNarrow_eq (n : Nat) (sat u : Bool) (r : Int) : intNarrow n sat u r = narrowed n sat u r := by
  have hn : (0 : Int) < 2 ^ n := by positivity
  have hm : (0 : Int) < 2 ^ (n - 1) := by positivity
  unfold intNarrow narrowed
  rw [wrap_eq, wrap_eq]
  push_cast
  rw [clamp_eq (by omega), clamp_eq (by omega)]

theorem sext_eq_toInt_of_pos {n : Nat} (hn : 0 < n) (a : Nat) : sext n a = (BitVec.ofNat n a).toInt := by
  obtain ⟨k, rfl⟩ := Nat.exists_eq_succ_of_ne_zero hn.ne'
  rw [sext, BitVec.toInt_eq_toNat_cond, BitVec.toNat_ofNat, Nat.succ_sub_one]
  simp only [Nat.pow_succ]
  split_ifs <;> omega

theorem operandInt_eq (u : Bool) (a : Nat) : operandInt 32 u a = asInt u a := by
  rw [operandInt, asInt, sext_eq_toInt_of_pos (by norm_num)]

theorem operandInt_eq64 (u : Bool) (a : Nat) : operandInt 64 u a = asInt64 u a := by
  rw [operandInt, asInt64, sext_eq_toInt_of_pos (by norm_num)]

theorem sext_eq_asInt (a : Nat) : sext 32 a = asInt false a := operandInt_eq false a

/-! ### Words of bits and shifts (R136, R142) -/

theorem amount_eq (b : Nat) : (BitVec.ofNat 32 b).toNat % 256 = b % 256 := by
  rw [BitVec.toNat_ofNat]
  omega

theorem shiftL_eq (a b : Nat) : shiftL a b = onWords (fun a b => a <<< (b.toNat % 256)) a b := by
  simp only [shiftL, onWords, amount_eq]
  simp only [BitVec.toNat_shiftLeft, BitVec.toNat_ofNat, Nat.shiftLeft_eq, Nat.mod_mul_mod]
  split
  · rename_i hk
    rw [← Nat.add_sub_cancel' hk, Nat.pow_add, Nat.mul_left_comm, Nat.mul_mod_right]
  · rfl

theorem shiftR_eq {a : Nat} (ha : a < 2 ^ 32) (b : Nat) : shiftR a b = onWords (fun a b => a >>> (b.toNat % 256)) a b := by
  simp only [shiftR, onWords, amount_eq]
  simp only [BitVec.toNat_ushiftRight, BitVec.toNat_ofNat, Nat.mod_eq_of_lt ha, Nat.shiftRight_eq_div_pow]
  split
  · rename_i hk
    exact (Nat.div_eq_of_lt (ha.trans_le (Nat.pow_le_pow_right (by norm_num) hk))).symm
  · rfl

/-- A quotient of a number in 32 bits by 2^32 or more is its sign. -/
theorem toInt_ediv_pow (w : Word) {k : Nat} (hk : 32 ≤ k) : w.toInt / 2 ^ k = if w.toInt < 0 then -1 else 0 := by
  have hp : (2 : Int) ^ 32 ≤ 2 ^ k := pow_le_pow_right₀ (by norm_num) hk
  have hlo := BitVec.le_toInt w
  have hhi := BitVec.toInt_lt (x := w)
  split
  · rw [Int.ediv_eq_neg_one_of_neg_of_le] <;> omega
  · exact Int.ediv_eq_zero_of_lt (by omega) (by omega)

theorem shiftA_eq (a b : Nat) : shiftA a b = onWords (fun a b => a.sshiftRight (b.toNat % 256)) a b := by
  simp only [shiftA, onWords, amount_eq, BitVec.sshiftRight, Int.shiftRight_eq_div_pow, wrap_eq, sext_eq_toInt_of_pos (show 0 < 32 by norm_num)]
  push_cast
  split
  · rename_i hk
    rw [toInt_ediv_pow _ hk, toInt_ediv_pow _ le_rfl]
  · rfl

/-- Operations on the numbers of two words. -/
theorem onWords_and {a b : Nat} (ha : a < 2 ^ 32) (hb : b < 2 ^ 32) : a &&& b = onWords (fun a b => a &&& b) a b := by
  simp only [onWords, BitVec.toNat_and, BitVec.toNat_ofNat, Nat.mod_eq_of_lt ha, Nat.mod_eq_of_lt hb]

theorem onWords_or {a b : Nat} (ha : a < 2 ^ 32) (hb : b < 2 ^ 32) : a ||| b = onWords (fun a b => a ||| b) a b := by
  simp only [onWords, BitVec.toNat_or, BitVec.toNat_ofNat, Nat.mod_eq_of_lt ha, Nat.mod_eq_of_lt hb]

theorem onWords_xor {a b : Nat} (ha : a < 2 ^ 32) (hb : b < 2 ^ 32) : a ^^^ b = onWords (fun a b => a ^^^ b) a b := by
  simp only [onWords, BitVec.toNat_xor, BitVec.toNat_ofNat, Nat.mod_eq_of_lt ha, Nat.mod_eq_of_lt hb]

/-! ### Counts of bits (R143) -/

theorem popCount_eq (n a : Nat) : popCount n a = ((List.range n).filter fun i => a.testBit i).length := by
  induction n generalizing a with
  | zero => rfl
  | succ n ih =>
    rw [popCount, ih, List.range_succ_eq_map, List.filter_cons, List.filter_map, Nat.testBit_zero]
    simp only [Function.comp_def, Nat.testBit_succ]
    rcases Nat.mod_two_eq_zero_or_one a with e | e <;> simp [e, Nat.add_comm]

theorem leadingZeros_eq {a : Nat} (ha : a < 2 ^ 32) : leadingZeros 32 a = (BitVec.ofNat 32 a).clz.toNat := by
  have hn : (BitVec.ofNat 32 a).toNat = a := by rw [BitVec.toNat_ofNat, Nat.mod_eq_of_lt ha]
  by_cases h0 : a = 0
  · subst h0
    decide
  · have hz : BitVec.ofNat 32 a ≠ 0#32 := fun e => h0 (by rw [← hn, e]; rfl)
    have hlo := BitVec.two_pow_sub_clz_le_toNat_of_ne_zero (by norm_num) hz
    have hhi := BitVec.toNat_lt_two_pow_sub_clz (x := BitVec.ofNat 32 a)
    have hc : (BitVec.ofNat 32 a).clz.toNat < 32 := BitVec.lt_def.1 (BitVec.clz_lt_iff_ne_zero.2 hz)
    rw [hn] at hlo hhi
    have hl : a.log2 = 31 - (BitVec.ofNat 32 a).clz.toNat :=
      (Nat.log2_eq_iff h0).2 ⟨hlo, by rwa [show 31 - (BitVec.ofNat 32 a).clz.toNat + 1 = 32 - (BitVec.ofNat 32 a).clz.toNat by omega]⟩
    rw [leadingZeros, bitLength, if_neg (by simpa using h0), hl]
    omega

theorem bitReverse_lt (n a : Nat) : bitReverse n a < 2 ^ n := by
  induction n generalizing a with
  | zero => exact Nat.one_pos
  | succ n ih =>
    have := ih (a / 2)
    rw [bitReverse, Nat.pow_succ]
    rcases Nat.mod_two_eq_zero_or_one a with e | e <;> rw [e] <;> omega

theorem testBit_bitReverse (n a i : Nat) (hi : i < n) : (bitReverse n a).testBit i = a.testBit (n - 1 - i) := by
  induction n generalizing a with
  | zero => omega
  | succ n ih =>
    rw [bitReverse, Nat.mul_comm, Nat.testBit_two_pow_mul_add _ (bitReverse_lt n (a / 2))]
    by_cases h : i < n
    · rw [if_pos h, ih _ h, ← Nat.testBit_succ]
      congr 1
      omega
    · obtain rfl : i = n := by omega
      rw [if_neg h]
      simp [Nat.testBit_zero]

theorem bitReverse_eq {a : Nat} : bitReverse 32 a = (BitVec.ofNat 32 a).reverse.toNat := by
  refine Nat.eq_of_testBit_eq fun i => ?_
  by_cases hi : i < 32
  · rw [testBit_bitReverse 32 a i hi, ← BitVec.getLsbD, BitVec.getLsbD_reverse, BitVec.getMsbD, BitVec.getLsbD_ofNat]
    simp [hi, show 31 - i < 32 by omega]
  · have hb := Nat.pow_le_pow_right (n := 2) (by norm_num) (not_lt.1 hi)
    rw [Nat.testBit_lt_two_pow ((bitReverse_lt 32 a).trans_le hb), Nat.testBit_lt_two_pow ((BitVec.isLt _).trans_le hb)]

/-! ### Fields of a word (R144) -/

theorem fieldOf_eq (y : Nat) : fieldOf y = (y % 32, min (y / 256 % 64) (32 - y % 32)) := by rw [fieldOf, bits_eq]; rfl

/-- A field taken out is its bits, with copies of its highest bit above them where it is signed. -/
theorem wrap_sext_eq (l r : Nat) : (if l = 0 then r % 2 ^ l else wrap 32 (sext l r)) = ((BitVec.ofNat l r).signExtend 32).toNat := by
  rcases Nat.eq_zero_or_pos l with rfl | hl
  · simp [Nat.mod_one, BitVec.eq_nil (BitVec.ofNat 0 r)]
  · rw [if_neg hl.ne', wrap_eq, sext_eq_toInt_of_pos hl]
    rfl

/-- The place values of a number whose `l` bits from bit `p` are replaced. -/
theorem replacedBits_eq (z p l a : Nat) : replacedBits z p l a = 2 ^ p * (2 ^ l * (z / 2 ^ p / 2 ^ l) + a % 2 ^ l) + z % 2 ^ p := by
  have h1 := Nat.div_add_mod z (2 ^ p)
  have h2 := Nat.div_add_mod (z / 2 ^ p) (2 ^ l)
  rw [replacedBits]
  generalize z / 2 ^ p / 2 ^ l = q at *
  generalize z / 2 ^ p % 2 ^ l = m at *
  rw [← h2, Nat.mul_add] at h1
  rw [Nat.mul_add, Nat.mul_comm m, Nat.mul_comm (a % 2 ^ l)]
  omega

/-- Bits of a number replaced by masks. -/
theorem insert_eq {a z p l n : Nat} (hz : z < 2 ^ n) (hl : p + l ≤ n) :
    (z &&& (2 ^ n - 1 - (2 ^ l - 1) <<< p)) ||| ((a <<< p) &&& (2 ^ l - 1) <<< p) = replacedBits z p l a := by
  have hm (i : Nat) : ((2 ^ l - 1) <<< p).testBit i = (decide (p ≤ i) && decide (i - p < l)) := by
    rw [Nat.testBit_shiftLeft, Nat.testBit_two_pow_sub_one]
  have hlt : (2 ^ l - 1) <<< p < 2 ^ n := by
    rw [Nat.shiftLeft_eq]
    calc (2 ^ l - 1) * 2 ^ p < 2 ^ l * 2 ^ p := Nat.mul_lt_mul_of_pos_right (Nat.sub_lt (by positivity) Nat.one_pos) (by positivity)
      _ = 2 ^ (p + l) := by rw [Nat.pow_add, Nat.mul_comm]
      _ ≤ 2 ^ n := Nat.pow_le_pow_right (by norm_num) hl
  refine Nat.eq_of_testBit_eq fun i => ?_
  rw [replacedBits_eq, Nat.testBit_two_pow_mul_add _ (Nat.mod_lt _ (by positivity)), Nat.testBit_two_pow_mul_add _ (Nat.mod_lt _ (by positivity)),
    Nat.testBit_or, Nat.testBit_and, Nat.testBit_and, Nat.sub_sub, Nat.add_comm 1, Nat.testBit_two_pow_sub_succ hlt, hm, Nat.testBit_shiftLeft,
    Nat.testBit_mod_two_pow, Nat.testBit_mod_two_pow, Nat.testBit_div_two_pow, Nat.testBit_div_two_pow]
  by_cases hp : i < p
  · simp [hp, show i < n by omega, not_le.2 hp]
  · by_cases hi : i - p < l
    · simp [hp, hi, show i < n by omega, not_lt.1 hp]
    · by_cases hn : i < n
      · simp [hp, hi, hn, not_lt.1 hi, Nat.sub_add_cancel (not_lt.1 hp)]
      · have : z.testBit i = false := Nat.testBit_lt_two_pow (hz.trans_le (Nat.pow_le_pow_right (by norm_num) (not_lt.1 hn)))
        simp [hp, hi, this, Nat.sub_add_cancel (not_lt.1 hp), Nat.sub_add_cancel (not_lt.1 hi)]

end Sys2Proof.Machine
end

section
/-! PROOFS. The vector integer words (R142 to R146). -/
namespace Sys2Proof.Machine

section
variable {s : State} {c : Cur} {x : Group} {sp : Split} {t : Team} (h : Issuing s c x sp t)
include h

/-- A word of format A on 32-bit sources. -/
theorem Issuing.binary_results {w : WA} (hp : CleanPred x sp w.pred.toNat) (hb : InBudget x t w.d.toNat 1) (hon : Honour) (k : Kind) (hk : k.regs = 1)
    (hw : hon.wide = false) {late : Bool} {xm : Option XMod} (f : XMod → Nat → Nat → LVal) {i : Instr} (g : Nat → Nat → LVal) (hi : exec i s = binary hon k late w xm f s)
    (hg : modOk hon (xm.getD plainX) = true → ∀ a b, a < k.size → b < k.size → f (xm.getD plainX) a b = g a b) :
    let m := xm.getD plainX
    Results i s c.gid x late (active x sp w.pred.toNat) ⟨.v, w.d.toNat, 1⟩ (fun i =>
      result2 (modOk hon m) ((wxOf c s).src m k .a w.a.toNat i) ((wxOf c s).src m k .b w.b.toNat i) g) := by
  refine h.results2 hp hb g rfl (hi.trans ?_) hg
  have e : ({ hon with wide := false } : Honour) = hon := by rw [← hw]
  simp only [binary, hk, Nat.reduceBEq, Bool.false_and, Bool.or_false, e]

/-- A word whose exact result is narrowed under SAT and U (R134). -/
theorem Issuing.int_results {w : WA} (hp : CleanPred x sp w.pred.toNat) (hb : InBudget x t w.d.toNat 1) (hon : Honour) (hw : hon.wide = false) {xm : Option XMod}
    (f : Int → Int → Int) {i : Instr} (g : Nat → Nat → Nat) (hi : exec i s = intWord hon w xm f s)
    (hg : modOk hon (xm.getD plainX) = true → ∀ a b,
      narrowed 32 (isSat (xm.getD plainX)) (isU (xm.getD plainX)) (f (asInt (isU (xm.getD plainX)) a) (asInt (isU (xm.getD plainX)) b)) = g a b) :
    let m := xm.getD plainX
    Results i s c.gid x false (active x sp w.pred.toNat) ⟨.v, w.d.toNat, 1⟩ (fun i =>
      result2 (modOk hon m) ((wxOf c s).src m .i32 .a w.a.toNat i) ((wxOf c s).src m .i32 .b w.b.toNat i) fun a b => .val (g a b)) := by
  refine h.binary_results hp hb hon .i32 rfl hw _ _ hi fun ok a b _ _ => ?_
  rw [intNarrow_eq, operandInt_eq, operandInt_eq, hg ok]

/-- A word of format B on a 32-bit source. -/
theorem Issuing.unary_results {w : WB} {p : BitVec 3} (hp : CleanPred x sp p.toNat) (hw : w.pred = p) (hb : InBudget x t w.d.toNat 1) (hon : Honour) (k : Kind) {late rsv ok : Bool}
    {xm : Option XMod} (f : XMod → Nat → LVal) {i : Instr} (g : Nat → LVal) (hr : (rsv || !modOk hon (xm.getD plainX)) = !ok)
    (hi : exec i s = unary hon k late w xm rsv f s) (hg : ok = true → ∀ a, a < k.size → f (xm.getD plainX) a = g a) :
    Results i s c.gid x late (active x sp p.toNat) ⟨.v, w.d.toNat, 1⟩ (fun i =>
      result1 ok ((wxOf c s).src (xm.getD plainX) k .a w.a.toNat i) g) := by
  subst hw
  exact h.results1 hp hb g hr hi hg

end

/-- A word that does not honour the sign bit leaves it 0 (R77, R134). -/
theorem isU_of_modOk {hon : Honour} {m : XMod} (hm : modOk hon m = true) (hn : hon.negC = false) (hu : hon.u = false) : isU m = false := by
  simp only [modOk, Bool.and_eq_true, hn, hu, Bool.false_or, beq_iff_eq] at hm
  obtain ⟨⟨⟨⟨⟨⟨-, hm⟩, -⟩, -⟩, -⟩, -⟩, -⟩ := hm
  simp [isU, hm]

theorem isSat_of_modOk {hon : Honour} {m : XMod} (hm : modOk hon m = true) (hs : hon.sat = false) : isSat m = false := by
  simp only [modOk, Bool.and_eq_true, hs, Bool.false_or, beq_iff_eq] at hm
  obtain ⟨⟨⟨⟨-, hm⟩, -⟩, -⟩, -⟩ := hm
  simp [isSat, hm]

/-- Settles O1: every word is one form, and its operation is that of the statement on numbers below 2^32. -/
theorem integerWords : Obligations.IntegerWords := by
  intro s c x sp t w xm h hp hb m u sat src sums plain
  simp only [List.forall_mem_cons, List.not_mem_nil, false_implies, implies_true, and_true]
  refine ⟨?_, ?_, ?_, ?_, ?_, ?_, ?_, ?_, ?_, ?_, ?_, ?_⟩
  · exact h.int_results hp hb hSum rfl (fun a b => a + b) _ rfl fun _ a b => rfl
  · exact h.int_results hp hb hSum rfl (fun a b => a - b) _ rfl fun _ a b => rfl
  · exact h.int_results hp hb { hSum with u := false } rfl (fun a b => a * b) _ rfl fun ok a b => by rw [isU_of_modOk ok rfl rfl]
  · exact h.int_results hp hb { hSum with sat := false } rfl (fun a b => a * b / ((2 ^ 32 : Nat) : Int)) _ rfl fun ok a b => by rw [isSat_of_modOk ok rfl]; rfl
  · exact h.int_results hp hb { hSum with sat := false } rfl min _ rfl fun ok a b => by rw [isSat_of_modOk ok rfl]; rfl
  · exact h.int_results hp hb { hSum with sat := false } rfl max _ rfl fun ok a b => by rw [isSat_of_modOk ok rfl]; rfl
  · exact h.binary_results hp hb hLogic .i32 rfl rfl (fun _ a b => .val (a &&& b)) _ rfl fun _ a b ha hb => congrArg LVal.val (onWords_and ha hb)
  · exact h.binary_results hp hb hLogic .i32 rfl rfl (fun _ a b => .val (a ||| b)) _ rfl fun _ a b ha hb => congrArg LVal.val (onWords_or ha hb)
  · exact h.binary_results hp hb hLogic .i32 rfl rfl (fun _ a b => .val (a ^^^ b)) _ rfl fun _ a b ha hb => congrArg LVal.val (onWords_xor ha hb)
  · exact h.binary_results hp hb hLogic .i32 rfl rfl (fun _ a b => .val (shiftL a b)) _ rfl fun _ a b _ _ => congrArg LVal.val (shiftL_eq a b)
  · exact h.binary_results hp hb hLogic .i32 rfl rfl (fun _ a b => .val (shiftR a b)) _ rfl fun _ a b ha _ => congrArg LVal.val (shiftR_eq ha b)
  · exact h.binary_results hp hb hLogic .i32 rfl rfl (fun _ a b => .val (shiftA a b)) _ rfl fun _ a b _ _ => congrArg LVal.val (shiftA_eq a b)

section
variable {s : State} {c : Cur} {x : Group} {sp : Split} {t : Team} (h : Issuing s c x sp t)
include h

theorem Issuing.predVal_eq (o r i : Nat) (b : Bool) : (wxOf c s).predVal o r i b = predData x r i := by
  simp only [Wx.predVal, h.rdP_eq, predData, asLVal]

end

/-- Settles O2: the three sources of each word in their order, and its operation on numbers below 2^32. -/
theorem integerThreeSourceWords : Obligations.IntegerThreeSourceWords := by
  intro s c x sp t w m h hp hb src act pos len
  refine ⟨?_, ?_, ?_⟩
  · refine h.results3 hp hb (fun wx i => wx.src m .i32 .c m.c.toNat i) _ _ _ rfl rfl (fun _ => rfl) (fun _ _ => rfl) (fun i n => Wx.src_lt _ _ _ _ _ _ _) fun _ a b d _ _ _ => ?_
    simp only [intNarrow_eq, sext_eq_asInt]
  · refine h.results3 hp hb (fun wx i => wx.src m .i32 .c m.c.toNat i) _ _ _ rfl rfl (fun _ => rfl) (fun _ _ => rfl) (fun i n => Wx.src_lt _ _ _ _ _ _ _) fun _ a y z _ _ hz => ?_
    rw [fieldOf_eq]
    exact congrArg LVal.val (insert_eq hz (by omega))
  · refine h.results3 hp hb (fun wx i => wx.predVal 4 (m.c.toNat % 8) i false) _ _ _ ?_ rfl (fun _ => rfl) (fun _ _ => h.predVal_eq ..) (fun i n => asLVal_lt) fun _ a b p _ _ _ => ?_
    · rw [Bool.not_and, ← decide_not]
      simp only [not_lt]
    · simp only [beq_iff_eq]

theorem reservedFunc_eq (f : BitVec 7) (ok : Bool) : (f != 0 || !ok) = !decide (f = 0 ∧ ok = true) := by
  rw [Bool.eq_iff_iff]
  simp [or_iff_not_imp_left]

theorem pairFields_eq (d a b : BitVec 7) (ok : Bool) :
    (!ok || (true && (oddReg d.toNat || oddReg a.toNat || oddReg b.toNat))) = !(even d && even a && even b && ok) := by
  simp only [oddReg_eq, Bool.true_and, Bool.not_and, Bool.or_comm]

theorem wrap_signExtend {n : Nat} (hn : 0 < n) (v : BitVec n) : wrap 32 (sext n v.toNat) = (v.signExtend 32).toNat := by
  rw [wrap_eq, sext_eq_toInt_of_pos hn, BitVec.ofNat_toNat, BitVec.setWidth_eq]
  rfl

theorem natAbs_eq_max (a : Int) : (a.natAbs : Int) = max a (-a) := Int.abs_eq_natAbs a ▸ rfl

theorem integerOneSourceWords : IntegerOneSourceWordsStated := by
  intro s c x sp t w v k xm lit h hp hb hv hvd hk hkd m src act onA
  refine ⟨?_, ?_, ?_⟩
  · simp only [List.forall_mem_cons, List.not_mem_nil, false_implies, implies_true, and_true]
    refine ⟨?_, ?_, ?_, ?_, ?_⟩
    · refine h.unary_results hp rfl hb { hOne with sat := true } .i32 (fun m a => .val (intNarrow 32 (isSat m) false (sext 32 a).natAbs)) _ (reservedFunc_eq _ _) rfl fun _ a _ => ?_
      rw [intNarrow_eq, sext_eq_asInt, natAbs_eq_max]
    · exact h.unary_results hp rfl hb hOne .i32 (fun _ a => .val (popCount 32 a)) _ rfl rfl fun _ a _ => congrArg LVal.val (popCount_eq 32 a)
    · exact h.unary_results hp rfl hb hOne .i32 (fun _ a => .val (leadingZeros 32 a)) _ rfl rfl fun _ a ha => congrArg LVal.val (leadingZeros_eq ha)
    · exact h.unary_results hp rfl hb hOne .i32 (fun _ a => .val (bitReverse 32 a)) _ rfl rfl fun _ a _ => congrArg LVal.val bitReverse_eq
    · exact h.unary_results hp rfl hb hOne .i32 (fun _ a => .val a) _ (reservedFunc_eq _ _) rfl fun _ a _ => rfl
  · rw [← hv] at hp
    rw [← hvd] at hb
    have hr := h.binary_results hp hb (xm := xm) { xlm := .full, u := true } .i32 rfl rfl (fun m a y =>
      let (pos, l) := fieldOf y
      let r := bits a pos l
      .val (if l == 0 || isU m then r else wrap 32 (sext l r))) (fun a y =>
      let len := min (y / 256 % 64) (32 - y % 32)
      let r := a / 2 ^ (y % 32) % 2 ^ len
      .val (if isU m then r else ((BitVec.ofNat len r).signExtend 32).toNat)) (i := .vbfe v xm) rfl fun _ a y _ _ => by
        simp only [fieldOf_eq, bits_eq, ← wrap_sext_eq, Nat.mod_mod]
        cases isU m <;> simp
    rwa [hv, hvd] at hr
  · rw [← hk] at hp
    rw [← hkd] at hb
    have hr := h.reg_results hp hb (fun _ _ => .val (match lit with | some v => v.toNat | none => wrap 32 (sext 14 k.imm.toNat))) _
      (ok := !(lit.isSome && k.imm != 0)) (i := .vldi k lit) (Bool.not_not _).symm rfl (fun _ => rfl) (fun _ _ => rfl)
    rw [hk, hkd] at hr
    convert hr using 2 with _
    cases lit with
    | none => simp [wrap_signExtend]
    | some l => by_cases hz : k.imm = 0 <;> simp [hz]

theorem integerPairWords : IntegerPairWordsStated := by
  intro s c x sp t w xm m h hp hb n act
  refine ⟨?_, ?_⟩
  · refine h.results2 hp hb _ ?_ (f := fun a b => .val (intNarrow 64 (isSat n) (isU n) (operandInt 64 (isU n) a + operandInt 64 (isU n) b))) rfl fun _ a b _ _ => ?_
    · exact pairFields_eq ..
    · simp only [intNarrow_eq, operandInt_eq64]
  · refine h.results3 hp hb (fun wx i => wx.src m .i64 .c m.c.toNat i) _ _ _ ?_ (f := fun a b z => .val ((a * b + z) % 2 ^ 64)) rfl (fun _ => rfl) (fun _ _ => rfl)
      (fun i n => Wx.src_lt _ _ _ _ _ _ _) fun _ _ _ _ _ _ _ => rfl
    simp only [oddReg_eq, Bool.not_and]

/-- Settles O3: words of one source and of pairs, each by its form and its operation on numbers. -/
theorem integerOneSourceAndPairWords : Obligations.IntegerOneSourceAndPairWords := ⟨integerOneSourceWords, integerPairWords⟩

end Sys2Proof.Machine
end

section
/-! PROOFS. What a lane reads as a source (R131 to R133, R135, R151). -/
namespace Sys2Proof.Machine

theorem xlm_cases {v : BitVec 3} (hv : v ≠ 7) : v = 0 ∨ v = 1 ∨ v = 2 ∨ v = 3 ∨ v = 4 ∨ v = 5 ∨ v = 6 := by
  revert v
  decide

/-! ### Registers and pairs (R75, R135) -/

section
variable {s : State} {c : Cur} {x : Group} {sp : Split} {t : Team} (h : Issuing s c x sp t)
include h

theorem Issuing.rdV_eq (o r i : Nat) (b : Bool) (q : Nat) : (wxOf c s).rdV o r i b q = x.rdV r i := by simp [Wx.rdV, h.wx, h.settled]

theorem Issuing.rdS_eq (o r i : Nat) : (wxOf c s).rdS o r i = x.rdS r := by simp [Wx.rdS, h.wx, h.settled]

theorem Issuing.budget_eq : (wxOf c s).budget = budget t.desc x.role := by rw [h.wx]; rfl

theorem Issuing.lane_one (o r j : Nat) (b : Bool) (q : Nat) : (wxOf c s).lane 1 o r j b q = laneData x t r j := by
  simp only [Wx.lane, h.budget_eq, h.rdV_eq, laneData, asLVal, ← not_le, ite_not, beq_self_eq_true, if_true]

theorem Issuing.lane_two (o r j : Nat) (b : Bool) (q : Nat) :
    (wxOf c s).lane 2 o r j b q = if r + 2 ≤ budget t.desc x.role then asPair (x.rdV r j) (x.rdV (r + 1) j) else .bad .malformed := by
  simp only [Wx.lane, h.budget_eq, h.rdV_eq, asPair, ← not_le, ite_not, Nat.reduceBEq, Bool.false_eq_true, if_false]

theorem Issuing.uni_one (o r i : Nat) : (wxOf c s).uni 1 o r i = asLVal (x.rdS r) := by
  simp only [Wx.uni, h.rdS_eq, asLVal, beq_self_eq_true, if_true]

theorem Issuing.uni_two (o r i : Nat) : (wxOf c s).uni 2 o r i = asPair (x.rdS r) (x.rdS (r + 1)) := by
  simp only [Wx.uni, h.rdS_eq, asPair, Nat.reduceBEq, Bool.false_eq_true, if_false]

/-- The registers of a lane, as a source of one or two words. -/
theorem Issuing.lane_cases {k : Nat} (hk : k = 1 ∨ k = 2) (o r j : Nat) (b : Bool) (q : Nat) : (wxOf c s).lane k o r j b q =
    if r + k ≤ budget t.desc x.role then (if k = 1 then asLVal (x.rdV r j) else asPair (x.rdV r j) (x.rdV (r + 1) j)) else .bad .malformed := by
  rcases hk with rfl | rfl
  · exact h.lane_one ..
  · exact h.lane_two ..

theorem Issuing.crossLane_eq (k o r : Nat) (j : Int) (i : Nat) : (wxOf c s).crossLane k o r j i =
    if 0 ≤ j ∧ j < x.width then (wxOf c s).lane k o r j.toNat true i else .bad .laneRange := by
  have hw : (wxOf c s).W = x.width := by rw [h.wx]; rfl
  rw [← ite_not]
  simp only [Wx.crossLane, hw, Bool.or_eq_true, decide_eq_true_eq, not_and_or, not_le, not_lt]

/-! ### Sources before their modifiers (R132) -/

theorem Issuing.uni_cases {k : Nat} (hk : k = 1 ∨ k = 2) (o r i : Nat) :
    (wxOf c s).uni k o r i = if k = 1 then asLVal (x.rdS r) else asPair (x.rdS r) (x.rdS (r + 1)) := by
  rcases hk with rfl | rfl
  · exact h.uni_one ..
  · exact h.uni_two ..

/-- What a source is before its signs change: the lane that XLM names, or the uniform registers. -/
theorem Issuing.found_eq (m : XMod) (who : Who) {k : Nat} (hk : k = 1 ∨ k = 2) (r i : Nat) (hm : m.xlm ≠ 7) :
    let names := (who == .a && m.xls == 0) || (who == .b && m.xls == 1)
    (if names && m.xlm == 6 then (wxOf c s).uni k 8 m.sreg.toNat i
      else if names && m.xlm != 0 then
        match (wxOf c s).selLane m i with
        | .error e => e
        | .ok j => (wxOf c s).crossLane k who.opnd r j i
      else (wxOf c s).lane k who.opnd r i false) = sourceFound x t m who k r i := by
  intro names
  have hf (j : Int) : (wxOf c s).crossLane k who.opnd r j i = if 0 ≤ j ∧ j < x.width then
      (if r + k ≤ budget t.desc x.role then (if k = 1 then asLVal (x.rdV r j.toNat) else asPair (x.rdV r j.toNat) (x.rdV (r + 1) j.toNat)) else .bad .malformed)
      else .bad .laneRange := by rw [h.crossLane_eq, h.lane_cases hk]
  cases hn : names with
  | false =>
    have e : sourceFound x t m who k r i = (wxOf c s).lane k who.opnd r i false := by
      rw [h.lane_cases hk, sourceFound]
      simp only [names] at hn
      simp only [hn]
      rfl
    rw [e]
    rfl
  | true =>
    simp only [names] at hn
    simp only [sourceFound, hn]
    rcases xlm_cases hm with e | e | e | e | e | e | e <;> simp only [e, Wx.selLane, h.lane_one]
    · exact h.lane_cases hk ..
    · exact hf _
    · exact hf _
    · exact hf _
    · cases laneData x t m.c.toNat i with
      | val n => exact hf _
      | _ => rfl
    · exact hf _
    · exact h.uni_cases hk ..

theorem Issuing.src_eq (m : XMod) (k : Kind) (who : Who) (r i : Nat) (hm : m.xlm ≠ 7) :
    (wxOf c s).src m k who r i = match sourceFound x t m who k.regs r i with
      | .val n =>
        let n := if who == .a && m.absA == 1 then k.abs n else n
        .val (if (who == .a && m.negA == 1) || (who == .b && m.negB == 1) || (who == .c && m.negC == 1) then k.neg n else n)
      | e => e := by
  rw [← h.found_eq m who k.regs_cases r i hm]
  rfl

theorem Issuing.sourceFound_lt {m : XMod} {k : Kind} {who : Who} {r i n : Nat} (hm : m.xlm ≠ 7) (hf : sourceFound x t m who k.regs r i = .val n) : n < k.size := by
  have hs := h.src_eq { m with absA := 0, negA := 0, negB := 0, negC := 0 } k who r i hm
  have hf' : sourceFound x t { m with absA := 0, negA := 0, negB := 0, negC := 0 } who k.regs r i = .val n := hf
  refine Wx.src_lt (wxOf c s) { m with absA := 0, negA := 0, negB := 0, negC := 0 } k who r i n ?_
  rw [hs, hf']
  simp

end

/-! ### Signs (R131) -/

/-- Whether a word changes the sign of a source, as a condition. -/
theorem flips_iff (m : XMod) (who : Who) : ((who == .a && m.negA == 1) || (who == .b && m.negB == 1) || (who == .c && m.negC == 1)) = true ↔
    (who = .a ∧ m.negA = 1) ∨ (who = .b ∧ m.negB = 1) ∨ (who = .c ∧ m.negC = 1) := by
  simp only [Bool.or_eq_true, Bool.and_eq_true, beq_iff_eq, or_assoc]

theorem neg_i32 {n : Nat} (hn : n < 2 ^ 32) : Kind.neg .i32 n = (-BitVec.ofNat 32 n).toNat := by
  rw [BitVec.toNat_neg, BitVec.toNat_ofNat, Nat.mod_eq_of_lt hn]
  rfl

theorem abs_i32 {n : Nat} (hn : n < 2 ^ 32) : Kind.abs .i32 n = (if (BitVec.ofNat 32 n).msb then -BitVec.ofNat 32 n else BitVec.ofNat 32 n).toNat := by
  have hb : bit n 31 = (BitVec.ofNat 32 n).msb := by
    rw [BitVec.msb_eq_decide, BitVec.toNat_ofNat, Nat.mod_eq_of_lt hn, bit, Nat.shiftRight_eq_div_pow, beq_eq_decide, decide_eq_decide]
    omega
  rw [Kind.abs, hb, apply_ite BitVec.toNat, BitVec.toNat_neg, BitVec.toNat_ofNat, Nat.mod_eq_of_lt hn]

theorem modified_i32 (ab ng : Bool) {n : Nat} (hn : n < 2 ^ 32) :
    LVal.val (if ng then Kind.neg .i32 (if ab then Kind.abs .i32 n else n) else if ab then Kind.abs .i32 n else n) = modified ab ng (.val n) := by
  have ha : (if ab then Kind.abs .i32 n else n) = (if ab && (BitVec.ofNat 32 n).msb then -BitVec.ofNat 32 n else BitVec.ofNat 32 n).toNat := by
    cases ab
    · exact (Nat.mod_eq_of_lt hn).symm
    · rw [if_pos rfl, abs_i32 hn, Bool.true_and]
  simp only [ha, modified]
  rw [neg_i32 (BitVec.isLt _), BitVec.ofNat_toNat, BitVec.setWidth_eq, ← apply_ite BitVec.toNat]

/-- Settles O5: the source before its modifiers lane by lane, and the modifiers on two's-complement words. -/
theorem sourceOperands : Obligations.SourceOperands := by
  intro s c x sp t m who r i h hm _ names fromLane limm found
  have hf : sourceFound x t m who 1 r.toNat i = found := rfl
  rw [h.src_eq m .i32 who r.toNat i hm]
  simp only [Kind.regs, hf]
  cases hv : found with
  | val n => exact modified_i32 _ _ (h.sourceFound_lt (k := .i32) hm (hf.trans hv))
  | _ => rfl

theorem toNat_and_not {n a : Nat} (ha : a < 2 ^ n) (b : BitVec n) : (BitVec.ofNat n a &&& ~~~b).toNat = a &&& (~~~b).toNat := by
  rw [BitVec.toNat_and, BitVec.toNat_ofNat, Nat.mod_eq_of_lt ha]

/-- A float source whose signs stand at the bits of a mask. -/
theorem Issuing.src_signs {s : State} {c : Cur} {x : Group} {sp : Split} {t : Team} (h : Issuing s c x sp t) {k : Kind} {n : Nat} (hn : k.size = 2 ^ n) (signs : BitVec n)
    (ha : ∀ a, k.abs a = a &&& (~~~signs).toNat) (hx : ∀ a, k.neg a = a ^^^ signs.toNat) (m : XMod) (who : Who) (r i : Nat) (hm : m.xlm ≠ 7) :
    (wxOf c s).src m k who r i = match sourceFound x t m who k.regs r i with
      | .val a =>
        let b := BitVec.ofNat n a
        let b := if who = .a ∧ m.absA = 1 then b &&& ~~~signs else b
        .val (if (who = .a ∧ m.negA = 1) ∨ (who = .b ∧ m.negB = 1) ∨ (who = .c ∧ m.negC = 1) then b ^^^ signs else b).toNat
      | e => e := by
  rw [h.src_eq m k who r i hm]
  cases hv : sourceFound x t m who k.regs r i with
  | val a =>
    have hlt : a < 2 ^ n := hn ▸ h.sourceFound_lt hm hv
    have e : (if (who == .a && m.absA == 1) = true then k.abs a else a) = (if who = .a ∧ m.absA = 1 then BitVec.ofNat n a &&& ~~~signs else BitVec.ofNat n a).toNat := by
      simp only [Bool.and_eq_true, beq_iff_eq, ha, apply_ite BitVec.toNat, toNat_and_not hlt, BitVec.toNat_ofNat, Nat.mod_eq_of_lt hlt]
    simp only [e, flips_iff, hx, apply_ite BitVec.toNat, BitVec.toNat_xor]
  | _ => rfl

/-- Settles O6: a mask of the sign bits is cleared or flipped. -/
theorem floatSigns : Obligations.FloatSigns := by
  intro s c x sp t m who r i h hm _ flips signed
  exact ⟨h.src_signs (k := .f32) rfl 0x80000000 (fun a => (Nat.and_two_pow_sub_one_eq_mod a 31).symm) (fun _ => rfl) m who r.toNat i hm,
    h.src_signs (k := .f64) rfl 0x8000000000000000 (fun a => (Nat.and_two_pow_sub_one_eq_mod a 63).symm) (fun _ => rfl) m who r.toNat i hm,
    h.src_signs (k := .f16x2) rfl 0x80008000 (fun _ => rfl) (fun _ => rfl) m who r.toNat i hm⟩

end Sys2Proof.Machine
end

section
/-! PROOFS. The FP32, SFU and FP64 words (R147, R149, R150). -/
namespace Sys2Proof.Machine

theorem ofNum_eq (F : FFmt) (sat : Bool) (r : Option Nat) : LVal.ofNum (r.map (fSatIf F sat)) = floatResult F sat r := by cases r <;> rfl

theorem ofNum_plain (F : FFmt) (r : Option Nat) : LVal.ofNum r = floatResult F false r := by cases r <;> rfl

section
variable {s : State} {c : Cur} {x : Group} {sp : Split} {t : Team} (h : Issuing s c x sp t)
include h

/-- An FP32 word of two sources (R147). -/
theorem Issuing.f32_results {w : WA} (hp : CleanPred x sp w.pred.toNat) (hb : InBudget x t w.d.toNat 1) (late : Bool) (xm : Option XMod)
    (f : RMode → FNum → FNum → Option Nat) {i : Instr} (hi : exec i s = f32Word late w xm f s) :
    let m := xm.getD plainX
    Results i s c.gid x late (active x sp w.pred.toNat) ⟨.v, w.d.toNat, 1⟩ (fun i => rounded (modeOf sp m) fun r =>
      result2 (modOk hFloat m) ((wxOf c s).src m .f32 .a w.a.toNat i) ((wxOf c s).src m .f32 .b w.b.toNat i) fun a b =>
        floatResult fp32 (isSat m) (f r (fp32.decode a) (fp32.decode b))) := by
  intro m
  refine h.rounded_results hp hb _ (Bool.false_or _) hi (h.modeIf_rounds m) (fun _ _ => rfl) fun _ r j => ?_
  simp only [ofNum_eq]
  rfl

/-- An FP64 word of two sources (R150). -/
theorem Issuing.f64_results {w : WA} (hp : CleanPred x sp w.pred.toNat) (hb : InBudget x t w.d.toNat 2) (xm : Option XMod)
    (f : RMode → FNum → FNum → Option Nat) {i : Instr} (hi : exec i s = f64Word w xm f s) :
    let m := xm.getD plainX
    Results i s c.gid x false (active x sp w.pred.toNat) ⟨.v, w.d.toNat, 2⟩ (fun i => rounded (modeOf sp m) fun r =>
      result2 (even w.d && even w.a && even w.b && modOk hDouble m) ((wxOf c s).src m .f64 .a w.a.toNat i) ((wxOf c s).src m .f64 .b w.b.toNat i) fun a b =>
        floatResult fp64 false (f r (fp64.decode a) (fp64.decode b))) := by
  intro m
  refine h.rounded_results hp hb _ ?_ hi (h.modeIf_rounds m) (fun _ _ => rfl) fun _ r j => ?_
  · simp only [oddReg_eq, Bool.not_and, m]
  · simp only [ofNum_plain fp64]
    rfl

/-- An SFU form (R149). -/
theorem Issuing.sfu_results {w : WB} (hp : CleanPred x sp w.pred.toNat) (hb : InBudget x t w.d.toNat 1) (xm : Option XMod) (form : Nat) {i : Instr}
    (hi : exec i s = sfuWord form w xm s) :
    let m := xm.getD plainX
    Results i s c.gid x true (active x sp w.pred.toNat) ⟨.v, w.d.toNat, 1⟩ (fun i =>
      result1 (modOk { negA := true, sat := true, xlm := .onA } m) ((wxOf c s).src m .f32 .a w.a.toNat i) fun a => floatResult fp32 (isSat m) (sfu form a)) :=
  h.unary_results hp rfl hb _ .f32 (fun m a => .ofNum ((sfu form a).map (fSatIf fp32 (isSat m)))) _ (Bool.false_or _) hi fun _ _ _ => ofNum_eq ..

end

/-- Settles O8: the words that round are one form, and so are the minimum and the maximum. -/
theorem floatWords : Obligations.FloatWords := by
  intro s c x sp t w xm z h hp hb m act src hon
  simp only [List.forall_mem_cons, List.not_mem_nil, false_implies, implies_true, and_true]
  refine ⟨⟨?_, ?_, ?_, ?_⟩, ?_, ?_, ?_⟩
  · exact h.f32_results hp hb false xm (fun r a b => fAdd fp32 r a b) rfl
  · exact h.f32_results hp hb false xm (fun r a b => fSub fp32 r a b) rfl
  · exact h.f32_results hp hb false xm (fun r a b => fMul fp32 r a b) rfl
  · exact h.f32_results hp hb true xm (fun r a b => fDiv fp32 r a b) rfl
  · refine h.rounded_results hp hb (hon := hFma) (f := fun mode wx i => lift3 (wx.src z .f32 .a w.a.toNat i) (wx.src z .f32 .b w.b.toNat i) (wx.src z .f32 .c z.c.toNat i)
      fun a b c => .ofNum ((fFma fp32 mode (fp32.decode a) (fp32.decode b) (fp32.decode c)).map (fSatIf fp32 (isSat z)))) _ (Bool.false_or _) rfl (h.modeIf_rounds z)
      (fun _ _ => rfl) fun _ r j => ?_
    simp only [ofNum_eq]
    rfl
  · exact h.binary_results hp hb hMinMax .f32 rfl rfl (fun _ a b => .ofNum (fMinMax fp32 false a b)) _ rfl fun _ _ _ _ _ => ofNum_plain ..
  · exact h.binary_results hp hb hMinMax .f32 rfl rfl (fun _ a b => .ofNum (fMinMax fp32 true a b)) _ rfl fun _ _ _ _ _ => ofNum_plain ..

/-- Settles O9: the square root rounds, and the other forms are one word with the function of their number. -/
theorem sfuWords : Obligations.SfuWords := by
  intro s c x sp t w xm h hp hb m act src
  simp only [List.forall_mem_cons, List.not_mem_nil, false_implies, implies_true, and_true]
  refine ⟨?_, ?_, ?_, ?_, ?_, ?_, ?_⟩
  · refine h.rounded_results hp hb (hon := { negA := true, rnd := true, sat := true, xlm := .onA }) (f := fun mode wx i => lift1 (wx.src m .f32 .a w.a.toNat i)
      fun a => .ofNum ((fSqrt fp32 mode (fp32.decode a)).map (fSatIf fp32 (isSat m)))) _ ?_ rfl (h.modeIf_rounds m) (fun _ _ => rfl) fun _ r j => ?_
    · rw [Bool.not_and]
      rfl
    · simp only [ofNum_eq]
      rfl
  · exact h.sfu_results hp hb xm 1 rfl
  · exact h.sfu_results hp hb xm 2 rfl
  · exact h.sfu_results hp hb xm 3 rfl
  · exact h.sfu_results hp hb xm 4 rfl
  · exact h.sfu_results hp hb xm 5 rfl
  · exact h.sfu_results hp hb xm 6 rfl

/-- Settles O10: pairs that begin at an even register, and the operation rounded in the word's mode. -/
theorem doubleWords : Obligations.DoubleWords := by
  intro s c x sp t w xm z h hp hb m act src hon
  simp only [List.forall_mem_cons, List.not_mem_nil, false_implies, implies_true, and_true]
  refine ⟨⟨?_, ?_⟩, ?_⟩
  · exact h.f64_results hp hb xm (fun r a b => fAdd fp64 r a b) rfl
  · exact h.f64_results hp hb xm (fun r a b => fMul fp64 r a b) rfl
  · refine h.rounded_results hp hb (hon := { hFma with sat := false, wide := true }) (f := fun mode wx i =>
      lift3 (wx.src z .f64 .a w.a.toNat i) (wx.src z .f64 .b w.b.toNat i) (wx.src z .f64 .c z.c.toNat i)
      fun a b c => .ofNum (fFma fp64 mode (fp64.decode a) (fp64.decode b) (fp64.decode c))) _ ?_ rfl (h.modeIf_rounds z) (fun _ _ => rfl) fun _ r j => ?_
    · simp only [oddReg_eq, Bool.not_and]
      rfl
    · simp only [ofNum_plain fp64]
      rfl

end Sys2Proof.Machine
end

section
/-! PROOFS. Packed halves (R151). -/
namespace Sys2Proof.Machine

/-! ### Packed halves (R151) -/

/-- A lane register as data is a value, a token or MALFORMED: it names no lane. -/
theorem Wx.lane_new {w : Wx} {k o r j q : Nat} {b : Bool} {f : Fail} (h : w.lane k o r j b q = .new f) : f.cause = .malformed := by
  unfold Wx.lane at h
  simp only at h
  split at h
  · cases h; rfl
  · (repeat' split at h) <;> cases h

theorem Wx.src_c_new {w : Wx} {m : XMod} {k : Kind} {r i : Nat} {f : Fail} (h : w.src m k .c r i = .new f) : f.cause = .malformed := by
  have e : w.src m k .c r i = match w.lane k.regs 4 r i false with
      | .val n => .val (if m.negC == 1 then k.neg n else n)
      | e => e := rfl
  rw [e] at h
  split at h
  · cases h
  · exact Wx.lane_new h

/-- Only a source that selects a lane outside the group adds to the source before it (R132). -/
theorem LVal.before_of_new {y z : LVal} (hz : ∀ f, z = .new f → f.cause = .malformed) : y.before z = y := by
  unfold LVal.before
  split
  · exact absurd (hz _ rfl) nofun
  · exact absurd (hz _ rfl) nofun
  · rfl

/-- What a packed-half word makes of its sources in a lane: the first that is no value, or both halves. -/
def halfLane (F : FFmt) (sat : Bool) (f : List Nat → Option Nat) (l : List LVal) : LVal :=
  match firstOf l with
  | some e => e
  | none =>
    let ns := l.map fun v => match v with | .val n => n | _ => 0
    halves2 F sat (f (ns.map fun n => n % 2 ^ 16)) (f (ns.map fun n => n / 2 ^ 16))

theorem halfLane_two (F : FFmt) (sat : Bool) (f : List Nat → Option Nat) (y z : LVal) :
    halfLane F sat f [y, z] = lift2 y z fun a b => halves2 F sat (f [a % 2 ^ 16, b % 2 ^ 16]) (f [a / 2 ^ 16, b / 2 ^ 16]) := by
  cases y <;> cases z <;> rfl

theorem halfLane_three (F : FFmt) (sat : Bool) (f : List Nat → Option Nat) {y z v : LVal} (hv : ∀ f, v = .new f → f.cause = .malformed) :
    halfLane F sat f [y, z, v] = lift3 y z v fun a b d => halves2 F sat (f [a % 2 ^ 16, b % 2 ^ 16, d % 2 ^ 16]) (f [a / 2 ^ 16, b / 2 ^ 16, d / 2 ^ 16]) := by
  cases y with
  | val a =>
    cases z with
    | val b => cases v <;> rfl
    | beside t => rfl
    | _ => exact LVal.before_of_new hv
  | _ => rfl

/-- A result in the format of the packed halves: BF16 or FP16 by AFMT, rounded in the word's mode (R151). -/
def halfRounded (sp : Split) (m : XMod) (f : FFmt → RMode → LVal) : LVal :=
  let code := sp.fmt.extractLsb' 0 4
  if code = 0 then rounded (modeOf sp m) (f bf16) else if code = 1 then rounded (modeOf sp m) (f fp16) else .bad .malformed

section
variable {s : State} {c : Cur} {x : Group} {sp : Split} {t : Team} (h : Issuing s c x sp t)
include h

theorem Issuing.half_eq (i : Nat) : (wxOf c s).half i = if sp.fmt.extractLsb' 0 4 = 0 then some bf16 else if sp.fmt.extractLsb' 0 4 = 1 then some fp16 else none := by
  rw [Wx.half, h.fmtAt_eq, bits_toNat]
  generalize sp.fmt.extractLsb' 0 4 = code
  revert code
  decide

theorem Issuing.half_results {w : WA} (hp : CleanPred x sp w.pred.toNat) (hb : InBudget x t w.d.toNat 1) {hon : Honour} {m : XMod} (srcs : Wx → Nat → List LVal)
    (f : FFmt → RMode → List Nat → Option Nat) (g : FFmt → RMode → Nat → LVal) {i : Instr} (hi : exec i s = halfWord hon w m srcs f s)
    (ha : ∀ a, srcs { wxOf c s with act := a } = srcs (wxOf c s)) (hg : ∀ F r j, halfLane F (isSat m) (f F r) (srcs (wxOf c s) j) = g F r j) :
    Results i s c.gid x false (active x sp w.pred.toNat) ⟨.v, w.d.toNat, 1⟩ (fun j =>
      halfRounded sp m fun F r => if modOk hon m then g F r j else .bad .malformed) := by
  refine lane_results h _ hp i false ⟨.v, w.d.toNat, 1⟩ (!modOk hon m) (fun j => halfRounded sp m fun F r => g F r j) _ (.inl rfl) (fun e => nomatch e) (fun _ => hb)
    (fun wx j => match wx.half j, wx.mode m j with | some F, some r => halfLane F (isSat m) (f F r) (srcs wx j) | _, _ => .bad .malformed) hi (fun a => ?_) fun j => ?_
  · funext j
    have e : ({ wxOf c s with act := a } : Wx).half j = _ := h.half_eq j
    have e' : ({ wxOf c s with act := a } : Wx).mode m j = _ := h.mode_eq m j
    simp only [e, e', ha, hg, halfRounded]
    cases modeOf sp m <;> split_ifs <;> rfl
  · cases modOk hon m
    · unfold halfRounded
      cases modeOf sp m <;> simp [rounded]
    · rfl

/-- A packed-half word of two sources. -/
theorem Issuing.half2_results {w : WA} (hp : CleanPred x sp w.pred.toNat) (hb : InBudget x t w.d.toNat 1) (xm : Option XMod) (op : FFmt → RMode → FNum → FNum → Option Nat)
    {i : Instr} (hi : exec i s = halfWord hFloat w (xm.getD plainX) (half2 w (xm.getD plainX))
      (fun F r ns => match ns with | [a, b] => op F r (F.decode a) (F.decode b) | _ => none) s) :
    let m := xm.getD plainX
    Results i s c.gid x false (active x sp w.pred.toNat) ⟨.v, w.d.toNat, 1⟩ (fun j => halfRounded sp m fun F r =>
      result2 (modOk hFloat m) ((wxOf c s).src m .f16x2 .a w.a.toNat j) ((wxOf c s).src m .f16x2 .b w.b.toNat j) fun a b =>
        halves2 F (isSat m) (op F r (F.decode (a % 65536)) (F.decode (b % 65536))) (op F r (F.decode (a / 65536)) (F.decode (b / 65536)))) :=
  h.half_results hp hb _ _ (fun F r j => lift2 ((wxOf c s).src (xm.getD plainX) .f16x2 .a w.a.toNat j) ((wxOf c s).src (xm.getD plainX) .f16x2 .b w.b.toNat j) fun a b =>
    halves2 F (isSat (xm.getD plainX)) (op F r (F.decode (a % 65536)) (F.decode (b % 65536))) (op F r (F.decode (a / 65536)) (F.decode (b / 65536)))) hi (fun _ => rfl)
    fun _ _ _ => halfLane_two ..

end

/-- Settles O11: the sources are two or three in order, and each half is the operation of the word on its own. -/
theorem packedHalfWords : Obligations.PackedHalfWords := by
  intro s c x sp t w xm z h hp hb m act src hon both inHalf
  have hboth : both = halves2 := by
    funext F sat lo hi
    cases lo <;> cases hi <;> rfl
  simp only [List.forall_mem_cons, List.not_mem_nil, false_implies, implies_true, and_true, hboth]
  refine ⟨⟨?_, ?_⟩, ?_⟩
  · exact h.half2_results hp hb xm fAdd rfl
  · exact h.half2_results hp hb xm fMul rfl
  · exact h.half_results hp hb (fun wx i => half2 w z wx i ++ [wx.src z .f16x2 .c z.c.toNat i])
      (fun F r ns => match ns with | [a, b, c] => fFma F r (F.decode a) (F.decode b) (F.decode c) | _ => none)
      (fun F r j => lift3 (src z .a w.a j) (src z .b w.b j) (src z .c z.c j) fun a b d =>
        halves2 F (isSat z) (fFma F r (F.decode (a % 65536)) (F.decode (b % 65536)) (F.decode (d % 65536)))
          (fFma F r (F.decode (a / 65536)) (F.decode (b / 65536)) (F.decode (d / 65536)))) rfl (fun _ => rfl)
      fun F r j => halfLane_three _ _ _ fun _ => Wx.src_c_new

end Sys2Proof.Machine
end

section
/-! PROOFS. Conversions between formats (R152). -/
namespace Sys2Proof.Machine

/-- A conversion as a statement names it: its number, the kind of its source, the registers of its result, the format that SAT acts on, whether it rounds, and
its value. -/
abbrev Conversion := Nat × Kind × Nat × Option FFmt × Bool × (RMode → Nat → Option Nat)

/-- FCVT makes the conversion (R152). -/
def Conversion.Made : Conversion → Prop
  | (n, k, regs, F, rounds, op) => ∃ src f, fcvtOf n = some (src, regs, F, f) ∧ fcvtKind n = k ∧ (src == .f64) = (k == .f64) ∧ (regs = 1 ∨ regs = 2) ∧
      (!(BitVec.ofNat 7 n == 4 || BitVec.ofNat 7 n == 6 || BitVec.ofNat 7 n == 9 || BitVec.ofNat 7 n == 11)) = rounds ∧ ∀ r a, f r a = op r a

theorem satResult_eq (F : Option FFmt) (m : XMod) (r : Option Nat) :
    LVal.ofNum (r.map fun n => match F with | some F => fSatIf F (isSat m) n | none => n) = floatResult (F.getD fp32) (F.isSome && isSat m) r := by
  cases F <;> cases r <;> rfl

section
variable {s : State} {c : Cur} {x : Group} {sp : Split} {t : Team} (h : Issuing s c x sp t)
include h

theorem Issuing.fcvt_results {w : WB} (hp : CleanPred x sp w.pred.toNat) (xm : Option XMod) {n : Nat} {k : Kind} {regs : Nat} {F : Option FFmt} {rounds : Bool}
    {op : RMode → Nat → Option Nat} (he : Conversion.Made (n, k, regs, F, rounds, op)) (hn : w.func.toNat = n) (hb : InBudget x t w.d.toNat regs) :
    let m := xm.getD plainX
    Results (.fcvt w xm) s c.gid x false (active x sp w.pred.toNat) ⟨.v, w.d.toNat, regs⟩ (fun i =>
      rounded (if rounds = false ∧ m.rnd = 7 then some .rne else modeOf sp m) fun r =>
        result1 ((regs == 1 || even w.d) && (!(k == .f64) || even w.a) && modOk { negA := true, rnd := true, sat := F.isSome, xlm := .onA, wide := k == .f64 } m)
          ((wxOf c s).src m k .a w.a.toNat i) fun a => floatResult (F.getD fp32) (F.isSome && isSat m) (op r a)) := by
  intro m
  obtain ⟨src, f, hf, hk, hs, hr, hrnd, hop⟩ := he
  have hw : w.func = BitVec.ofNat 7 n := by rw [← hn, BitVec.ofNat_toNat, BitVec.setWidth_eq]
  have hi : exec (.fcvt w xm) s = execFcvt w xm s := rfl
  simp only [execFcvt, hn, hf, hk, hs] at hi
  simp only [hw, hrnd] at hi
  refine h.rounded_results hp hb _ ?_ hi (h.modeIf_eq _ m) (fun _ _ => rfl) fun _ r j => ?_
  · rcases hr with rfl | rfl <;> simp [oddReg_eq, m]
  · exact congrArg (lift1 _) (funext fun a => (satResult_eq F m (f r a)).trans (by rw [hop]))

end

/-- Settles O12: the table of conversions is the statement's, and what stands outside it poisons D alone. -/
theorem conversionWords : Obligations.ConversionWords := by
  intro s c x sp t w xm h hp m act toFloat ofSigned toInt hon
  refine ⟨?_, fun hn hb => ?_⟩
  · intro e he wide hn hb
    refine h.fcvt_results hp xm ?_ hn hb
    clear hn hb
    revert e
    simp only [List.forall_mem_cons, List.not_mem_nil, false_implies, implies_true, and_true]
    -- the two conversions of signed integers read their source as two's complement; every other line of the table is the statement's
    refine ⟨⟨_, _, rfl, rfl, rfl, .inl rfl, rfl, fun r a => congrArg (fun z => some (roundFloat fp32 r (.ofInt z))) (sext_eq_asInt a)⟩, ?_, ?_, ?_, ?_, ?_,
      ⟨_, _, rfl, rfl, rfl, .inr rfl, rfl, fun r a => congrArg (fun z => some (roundFloat fp64 r (.ofInt z))) (sext_eq_asInt a)⟩, ?_, ?_, ?_, ?_, ?_, ?_, ?_⟩
    all_goals exact ⟨_, _, rfl, rfl, rfl, by decide, rfl, fun _ _ => rfl⟩
  · have hnone : fcvtOf w.func.toNat = none := by
      obtain ⟨k, hk⟩ := Nat.exists_eq_add_of_le' hn
      rw [hk]
      rfl
    have hi : exec (.fcvt w xm) s = execFcvt w xm s := rfl
    simp only [execFcvt, hnone] at hi
    exact h.reg_results hp hb (ok := false) (fun _ _ => .val 0) (fun _ => .val 0) rfl hi (fun _ => rfl) nofun

end Sys2Proof.Machine
end

section
/-! PROOFS. Packing into OFMT and taking elements of AFMT out (R122, R153, R154). -/
namespace Sys2Proof.Machine

/-! ### Fields of FMT and of elements -/

theorem setBits_eq (x lo n v : Nat) : setBits x lo n v = replacedBits x lo n v := by rw [setBits, bits_eq, replacedBits]

theorem oscaleOf_eq (fmt : Word) : oscaleOf fmt = (fmt.extractLsb' 24 8).toInt := by
  rw [oscaleOf, bits_toNat, sext_eq_toInt_of_pos (by norm_num), BitVec.ofNat_toNat, BitVec.setWidth_eq]

theorem ofmtOf_eq (fmt : Word) : ofmtOf fmt = (fmt.extractLsb' 8 4).toNat := bits_toNat ..

theorem afmtOf_eq (fmt : Word) : afmtOf fmt = (fmt.extractLsb' 0 4).toNat := bits_toNat ..

/-- A word poisons where a field is reserved, which is where its fields are not in order (R88). -/
theorem ite_reserved {rsv ok : Bool} (hr : rsv = !ok) (bad res : LVal) : (if rsv then bad else res) = if ok then res else bad := by
  subst hr
  cases ok <;> rfl

/-! ### `FPACK` (R153) -/

/-- Where every lane asks for as many registers and they lie inside the budget, the results are those of a lane word (R75). -/
theorem finishPacked_eq {d k : Nat} {n : Nat → Nat} {w : Wx} (hn : ∀ i, n i = k) (hd : w.inRange ⟨.v, d, k⟩ = true) (f : Nat → LVal) (s : State) :
    finishPacked d n f w s = finishLanes false ⟨.v, d, k⟩ false f w s := by
  have hall : w.lanes.filter (fun _ => decide (d + k ≤ w.budget)) = w.lanes := List.filter_eq_self.2 fun _ _ => hd
  simp only [finishPacked, finishLanes, hn, hall, hd, Bool.not_true, Bool.false_eq_true, if_false]

/-- An element of a format up to 4, from its scaled number. -/
theorem packElem_eq {ofmt : Nat} (h4 : ofmt ≤ 4) (scale : Int) (r : RMode) (a : FNum) : packElem ofmt scale r a =
    if a.isSNaN then none
    else
      let y := a.scale scale
      if ofmt = 0 then some (roundFloat bf16 r y) else if ofmt = 1 then some (roundFloat fp16 r y) else if ofmt = 2 then some (encodeTapered t8 y)
      else if ofmt = 3 then some (encodeTapered t6 y) else (roundInt (-128) 127 r y).map fun z => (BitVec.ofInt 8 z).toNat := by
  interval_cases ofmt <;> rfl

section
variable {s : State} {c : Cur} {x : Group} {sp : Split} {t : Team} (h : Issuing s c x sp t)
include h

theorem Issuing.packRegs_eq (a : Mask) (i : Nat) : packRegs { wxOf c s with act := a } i = if (sp.fmt.extractLsb' 8 4).toNat = 3 then 2 else 1 := by
  have e : ({ wxOf c s with act := a } : Wx).fmtAt i = sp.fmt := h.fmtAt_eq i
  simp only [packRegs, e, ofmtOf_eq, beq_iff_eq]

/-- The destination of a word that keeps bits of it, read as a source. -/
theorem Issuing.lane_dest {d n : Nat} (hn : n = 1 ∨ n = 2) (hb : InBudget x t d n) (o i : Nat) : (wxOf c s).lane n o d i false =
    if n = 1 then laneData x t d i else lift2 (laneData x t d i) (laneData x t (d + 1) i) fun l h => .val (l + h * 2 ^ 32) := by
  unfold InBudget at hb
  rcases hn with rfl | rfl
  · exact h.lane_one ..
  · have h1 : d + 1 ≤ budget t.desc x.role := by omega
    have h2 : d + 1 + 1 ≤ budget t.desc x.role := hb
    rw [h.lane_two, if_pos hb]
    simp only [laneData, h1, h2, if_true, asPair, asLVal]
    by_cases hl : (x.rdV d i).poison = true <;> by_cases hh : (x.rdV (d + 1) i).poison = true <;> simp [hl, hh, lift2, lift1, LVal.before]

omit h in
theorem pairEven_eq {n : Nat} (hn : n = 1 ∨ n = 2) (d : BitVec 7) : (n == 2 && oddReg d.toNat) = !(n == 1 || even d) := by
  rcases hn with rfl | rfl <;> simp [oddReg_eq]

/-- The results of a word whose effect is that of `finishLanes` on its active lanes. -/
theorem Issuing.finish_results {i : Instr} {late rsv : Bool} {d : VDest} {res : Nat → LVal} {p : Nat} (res' : Nat → LVal)
    (hi : exec i s = .next (finishLanes late d rsv res { wxOf c s with act := activeMask x sp p } s)) (hd : d.file = .v ∨ d.file = .p)
    (h7 : d.file = .p → ∀ k < d.n, d.reg + k ≠ 7) (hb : d.file = .v → InBudget x t d.reg d.n) (hres : ∀ j, (if rsv then .bad .malformed else res j) = res' j) :
    Results i s c.gid x late (active x sp p) d res' := by
  have hin : ({ wxOf c s with act := activeMask x sp p } : Wx).inRange d = true := by
    rcases hd with e | e
    · exact (h.inRange_iff _ e).2 (hb e)
    · simp only [Wx.inRange, e]
  obtain ⟨ws, hrest, hgrp, hw⟩ := finishLanes_spec late d rsv res { wxOf c s with act := activeMask x sp p } s x h.group h.resident hd h7 hin _
    (mem_lanes_activeMask x sp p _)
  exact ⟨_, ws, hi, hrest, hgrp, (funext hres : _ = res') ▸ hw⟩

end

/-! ### `FUNPK` (R154) -/

theorem unpackLimit_eq (afmt : Nat) : unpackLimit afmt = [2, 2, 4, 10, 4, 4, 8, 32].getD afmt 0 := by
  by_cases h8 : afmt < 8
  · interval_cases afmt <;> rfl
  · obtain ⟨j, rfl⟩ := Nat.exists_eq_add_of_le' (not_lt.1 h8)
    rfl

/-- Only the formats 0 to 7 have elements to take out. -/
theorem lt_of_unpacks {afmt j : Nat} (h : j < [2, 2, 4, 10, 4, 4, 8, 32].getD afmt 0) : afmt < 8 := by
  by_contra h8
  rw [List.getD_eq_default _ _ (not_lt.1 h8)] at h
  exact Nat.not_lt_zero _ h

theorem elemWidth_eq {afmt : Nat} (h : afmt < 8) : elemWidth afmt = [16, 16, 8, 6, 8, 8, 4, 1].getD afmt 0 := by
  interval_cases afmt <;> rfl

/-- Settles O13: a settled FMT is the same in every lane, so that one width and one mode hold for the word, and each field is the statement's. -/
theorem packWords : Obligations.PackWords := by
  intro s c x sp t w v xm h hp hv hvd m act ofmt afmt scale n pairs width k elem
  refine ⟨fun hb => ?_, fun hb => ?_⟩
  · have hi : exec (.fpack w xm) s = .next (finishLanes false ⟨.v, w.d.toNat, n⟩ false (packLane w m (wxOf c s)) { wxOf c s with act := activeMask x sp w.pred.toNat } s) := by
      show onIssuer s _ = _
      rw [onIssuer_of_cur _ h.cur, h.laneWord_eq _ hp]
      exact congrArg Host.Outcome.next (finishPacked_eq (h.packRegs_eq _) ((h.inRange_iff _ rfl).2 hb) _ s)
    have hregs : packRegs (wxOf c s) = fun _ => n := funext (h.packRegs_eq (wxOf c s).act)
    have hof : ofmtOf sp.fmt = ofmt := ofmtOf_eq _
    have hos : oscaleOf sp.fmt = scale := oscaleOf_eq _
    have hn : n = 1 ∨ n = 2 := by simp only [n]; split <;> simp
    refine h.finish_results _ hi (.inl rfl) (fun e => nomatch e) (fun _ => hb) fun i => ?_
    show packLane w m (wxOf c s) i = _
    simp only [packLane, h.fmtAt_eq, hof, hos, hregs, h.modeIf_eq, h.lane_dest hn hb]
    by_cases h4 : 4 < ofmt
    · have hp : packPairs ofmt = none := by
        obtain ⟨j, hj⟩ := Nat.exists_eq_add_of_le' (Nat.succ_le_of_lt h4)
        rw [hj]
        rfl
      rw [if_pos h4, hp]
    · have hp : packPairs ofmt = some pairs := by
        simp only [pairs]
        clear_value ofmt
        interval_cases ofmt <;> rfl
      have hw : elemWidth ofmt = width := by
        simp only [width]
        clear_value ofmt
        interval_cases ofmt <;> rfl
      rw [if_neg h4, hp]
      have hmode : ((ofmt != 2 && ofmt != 3) = false ∧ m.rnd = 7) ↔ ((ofmt = 2 ∨ ofmt = 3) ∧ m.rnd = 7) := by
        simp only [Bool.and_eq_false_iff, bne_eq_false_iff_eq]
      have hrsv : (pairs ≤ k || (n == 2 && oddReg w.d.toNat) || !modOk { negA := true, negB := true, rnd := true, xlm := .limm } m) =
          !(k < pairs && (n == 1 || even w.d) && modOk { negA := true, negB := true, rnd := true, xlm := .limm } m) := by
        simp only [Bool.not_and, gt_eq_not_le, Bool.not_not, pairEven_eq hn]
      have hpair : (ofmt == 3) = decide (n = 2) := by
        by_cases h3 : ofmt = 3 <;> simp [n, h3]
      simp only [packElem_eq (not_lt.1 h4), setBits_eq, hw, hmode, hpair, decide_eq_true_eq]
      generalize (if (ofmt = 2 ∨ ofmt = 3) ∧ m.rnd = 7 then some RMode.rne else modeOf sp m) = mode
      cases mode with
      | none => rfl
      | some r => exact ite_reserved hrsv _ _
  · have hact : act = active x sp v.pred.toNat := by simp only [act, hv]
    have hof : afmtOf sp.fmt = afmt := afmtOf_eq _
    have hos : oscaleOf sp.fmt = scale := oscaleOf_eq _
    rw [hact]
    refine lane_results h v.pred (hv ▸ hp) _ false ⟨.v, v.d.toNat, 1⟩ false (unpackLane v m (wxOf c s)) _ (.inl rfl) (fun e => nomatch e) (fun _ => hb) (unpackLane v m) rfl
      (fun _ => rfl) fun i => ?_
    show unpackLane v m (wxOf c s) i = _
    simp only [unpackLane, h.fmtAt_eq, hof, hos, h.mode_eq, unpackLimit_eq, beq_iff_eq]
    have hrsv : (decide ([2, 2, 4, 10, 4, 4, 8, 32].getD afmt 0 ≤ v.func.toNat) || (afmt == 3 && oddReg v.a.toNat) || !modOk { rnd := true, xlm := .onA, wide := afmt == 3 } m) =
        !(decide (v.func.toNat < [2, 2, 4, 10, 4, 4, 8, 32].getD afmt 0) && (afmt != 3 || even v.a) && modOk { rnd := true, xlm := .onA, wide := afmt == 3 } m) := by
      simp only [Bool.not_and, gt_eq_not_le, Bool.not_not, oddReg_eq, bne, Bool.not_or]
    generalize modeOf sp m = mode
    cases mode with
    | none => rfl
    | some r =>
      refine (ite_reserved hrsv _ _).trans (ite_congr rfl (fun hok => ?_) fun _ => rfl)
      simp only [Bool.and_eq_true, decide_eq_true_eq] at hok
      rw [elemWidth_eq (lt_of_unpacks hok.1.1)]
      exact lift1_congr _ _ _ fun a _ => bits_eq a _ _ ▸ rfl

end Sys2Proof.Machine
end

section
/-! PROOFS. The predicate words (R155), and the words across lanes (R156, R157). -/
namespace Sys2Proof.Machine

/-! ### Predicates (R155) -/

theorem predWord_decodes (w : WA) : decodeWord .alu (WA.word 0x2C w) none =
    some (if w.d.toNat / 8 = 1 then .por w else if w.d.toNat / 8 = 2 then .pxor w else if w.d.toNat / 8 = 3 then .pnot w else if w.d.toNat / 8 = 4 then .pmov w else .pand w) := by
  have coded (i : Instr) (hi : i.wf = true) (he : encode i = some ⟨.alu, WA.word 0x2C w, none⟩) : decodeWord .alu (WA.word 0x2C w) none = some i :=
    Laws.RoundTrip.decode_encode i hi _ he
  split_ifs with h1 h2 h3 h4
  · exact coded _ (by simpa [Instr.wf] using h1) rfl
  · exact coded _ (by simpa [Instr.wf] using h2) rfl
  · exact coded _ (by simpa [Instr.wf] using h3) rfl
  · exact coded _ (by simpa [Instr.wf] using h4) rfl
  · exact coded _ (by simp [Instr.wf, h1, h2, h3, h4]) rfl

section
variable {s : State} {c : Cur} {x : Group} {sp : Split} {t : Team} (h : Issuing s c x sp t)
include h

theorem Issuing.reservedLanes_eq (a : Mask) : reservedUse { wxOf c s with act := a } s = malformedNoDest s c.gid c.pc a := by rw [h.wx]; rfl

theorem Issuing.predWord_results {w : WA} (hp : CleanPred x sp w.pred.toNat) (op : Nat) (one : Bool) (f : Nat → Nat → Nat) {i : Instr}
    (hi : exec i s = predWord w op one f s) :
    let ok := w.d.toNat / 8 = op ∧ w.d.toNat % 8 ≠ 7 ∧ w.a.toNat < 8 ∧ w.b.toNat < 8
    (ok → Results i s c.gid x false (active x sp w.pred.toNat) ⟨.p, w.d.toNat % 8, 1⟩ (fun i =>
        if one = true ∧ w.b ≠ 0 then .bad .malformed
        else if one = true then lift1 (predData x w.a.toNat i) (fun a => .val (f a 0))
        else lift2 (predData x w.a.toNat i) (predData x w.b.toNat i) (fun a b => .val (f a b)))) ∧
      (¬ok → exec i s = .next (malformedNoDest s c.gid c.pc (activeMask x sp w.pred.toNat))) := by
  intro ok
  have hrsv : (w.d.toNat / 8 != op || w.d.toNat % 8 == 7 || decide (8 ≤ w.a.toNat) || decide (8 ≤ w.b.toNat)) = true ↔ ¬ok := by
    simp only [ok, Bool.or_eq_true, bne_iff_ne, beq_iff_eq, decide_eq_true_eq]
    omega
  rw [predWord, onIssuer_of_cur _ h.cur, h.laneWord_eq _ hp] at hi
  refine ⟨fun hok => ?_, fun hok => ?_⟩
  · rw [if_neg fun e => hrsv.1 e hok] at hi
    refine h.finish_results _ hi (.inr rfl) (fun _ k hk => ?_) (fun e => nomatch e) fun j => ?_
    · simp only at hk ⊢
      omega
    · show (if one && w.b.toNat != 0 then _ else if one then lift1 ((wxOf c s).predVal 0 w.a.toNat j false) _ else
        lift2 ((wxOf c s).predVal 0 w.a.toNat j false) ((wxOf c s).predVal 2 w.b.toNat j false) _) = _
      rw [h.predVal_eq, h.predVal_eq]
      exact if_congr (by simp [BitVec.toNat_eq]) rfl rfl
  · rw [hi, if_pos (hrsv.2 hok), h.reservedLanes_eq]

end

/-- Settles O14: the word that names each operation, and the operation or the reserved use. -/
theorem predicateWords : Obligations.PredicateWords := by
  intro s c x sp t w h hp act pd ops
  refine ⟨predWord_decodes w, ?_⟩
  refine List.forall_mem_cons.2 ⟨?_, List.forall_mem_cons.2 ⟨?_, List.forall_mem_cons.2 ⟨?_, List.forall_mem_cons.2 ⟨?_,
    List.forall_mem_cons.2 ⟨?_, List.forall_mem_nil _⟩⟩⟩⟩⟩
  · exact h.predWord_results hp 0 false (fun a b => a &&& b) rfl
  · exact h.predWord_results hp 1 false (fun a b => a ||| b) rfl
  · exact h.predWord_results hp 2 false (fun a b => a ^^^ b) rfl
  · exact h.predWord_results hp 3 true (fun a _ => 1 - a) rfl
  · exact h.predWord_results hp 4 true (fun a _ => a) rfl

/-! ### The lanes of a word, and votes over them (R157) -/

/-- The active lanes of a word, in ascending order. -/
def activeLanes (x : Group) (sp : Split) (p : Nat) : List Nat := (List.range 128).filter (active x sp p)

theorem lanesOf_activeMask (x : Group) (sp : Split) (p : Nat) : lanesOf (activeMask x sp p) = activeLanes x sp p := by
  refine List.filter_congr fun i hi => ?_
  have hi : i < 128 := List.mem_range.1 hi
  refine (inMask_maskOf _ i hi).trans ?_
  simp [hi]

theorem bit_eq_testBit (n i : Nat) : bit n i = n.testBit i := by
  rw [bit, Nat.testBit_eq_decide_div_mod_eq, Nat.shiftRight_eq_div_pow]
  rfl

/-- The first poisoned predicate in the order of the lanes, or a result made of their values. -/
theorem gathered_predData (x : Group) (p : Nat) (l : List Nat) (f : List Nat → LVal) : gathered l (predData x p) f =
    match (l.find? fun i => (x.rdP p i).poison).map fun i => (x.rdP p i).bits with
    | some t => .tok t
    | none => f (l.map fun i => (x.rdP p i).bits.toNat) := by
  have hv : ((fun r : LVal => !r.isVal) ∘ predData x p) = fun i => (x.rdP p i).poison := by
    funext i
    simp only [Function.comp, predData, asLVal]
    cases (x.rdP p i).poison <;> rfl
  unfold gathered
  rw [List.find?_map, hv]
  cases hf : l.find? fun i => (x.rdP p i).poison with
  | some i =>
    have hi : (x.rdP p i).poison = true := List.find?_some (p := fun i => (x.rdP p i).poison) hf
    simp [predData, asLVal, hi]
  | none =>
    rw [List.find?_eq_none] at hf
    simp only [Option.map_none, List.map_map]
    refine congrArg f (List.map_congr_left fun i hi => ?_)
    have hi : (x.rdP p i).poison = false := by simpa using hf i hi
    simp [predData, asLVal, hi]

/-- The lanes whose predicate holds, counted by their values. -/
theorem ones_length (x : Group) (p : Nat) (l : List Nat) :
    ((l.map fun i => (x.rdP p i).bits.toNat).filter fun b => b == 1).length = (l.filter fun i => (x.rdP p i).bits == 1).length := by
  rw [List.filter_map, List.length_map]
  refine congrArg List.length (List.filter_congr fun i _ => ?_)
  simp [BitVec.toNat_eq]

theorem lanes_activeMask (w : Wx) (x : Group) (sp : Split) (p : Nat) : ({ w with act := activeMask x sp p } : Wx).lanes = activeLanes x sp p := lanesOf_activeMask ..

section
variable {s : State} {c : Cur} {x : Group} {sp : Split} {t : Team} (h : Issuing s c x sp t)
include h

/-- A vote with a destination (R157): MALFORMED for a reserved field, the first token, or what the lanes in which the predicate holds come to. -/
theorem Issuing.vote_results {v : WB} (hp : CleanPred x sp v.pred.toNat) {d : VDest} {rsv : Bool} {xm : Option XMod} {f : Wx → List Nat → Nat → LVal} {i : Instr}
    (g : List Nat → LVal) (ok : Bool) (hi : exec i s = voteWord d rsv false v xm f s) (hd : d.file = .v ∨ d.file = .p) (h7 : d.file = .p → ∀ k < d.n, d.reg + k ≠ 7)
    (hb : d.file = .v → InBudget x t d.reg d.n) (hr : rsv = !ok)
    (hf : ∀ j, f { wxOf c s with act := activeMask x sp v.pred.toNat } ((activeLanes x sp v.pred.toNat).filter fun i => (x.rdP (v.a.toNat % 8) i).bits == 1) j =
      g ((activeLanes x sp v.pred.toNat).map fun i => (x.rdP (v.a.toNat % 8) i).bits.toNat)) :
    Results i s c.gid x false (active x sp v.pred.toNat) d (fun _ => if ok && decide (v.a.toNat < 8) && modOk {} (xm.getD plainX) then
      gathered (activeLanes x sp v.pred.toNat) (predData x (v.a.toNat % 8)) g else .bad .malformed) := by
  have hrd (a : Mask) (r j : Nat) : ({ wxOf c s with act := a } : Wx).rdP 0 r j true = x.rdP r j := h.rdP_eq ..
  rw [voteWord, onIssuer_of_cur _ h.cur, h.laneWord_eq _ hp] at hi
  simp only [hrd, lanes_activeMask, Bool.false_eq_true, if_false] at hi
  refine h.finish_results _ hi hd h7 hb fun j => ?_
  rw [hf, gathered_predData]
  refine ite_reserved ?_ _ _
  simp only [hr, gt_eq_not_le, Bool.not_and, Bool.not_not]

/-- A vote into a predicate (R157). -/
theorem Issuing.votePred_results {v : WB} (hp : CleanPred x sp v.pred.toNat) (h7 : v.d.toNat % 8 ≠ 7) {xm : Option XMod} (f : Wx → List Nat → Bool) (g : List Nat → Nat)
    {i : Instr} (hi : exec i s = votePred v xm f s)
    (hf : ofBool (f { wxOf c s with act := activeMask x sp v.pred.toNat } ((activeLanes x sp v.pred.toNat).filter fun i => (x.rdP (v.a.toNat % 8) i).bits == 1)) =
      g ((activeLanes x sp v.pred.toNat).map fun i => (x.rdP (v.a.toNat % 8) i).bits.toNat)) :
    Results i s c.gid x false (active x sp v.pred.toNat) ⟨.p, v.d.toNat % 8, 1⟩ (fun _ =>
      if decide (v.d.toNat < 8) && decide (v.a.toNat < 8) && modOk {} (xm.getD plainX) then
        gathered (activeLanes x sp v.pred.toNat) (predData x (v.a.toNat % 8)) fun l => .val (g l) else .bad .malformed) := by
  rw [votePred, beq_false_of_ne h7] at hi
  refine h.vote_results hp _ _ hi (.inr rfl) (fun _ k hk => ?_) (fun e => nomatch e) ?_ fun _ => congrArg LVal.val hf
  · simp only at hk ⊢
    omega
  · rw [gt_eq_not_le, Bool.not_not]

theorem Issuing.votePred_noDest {v : WB} (hp : CleanPred x sp v.pred.toNat) (h7 : v.d.toNat % 8 = 7) {xm : Option XMod} (f : Wx → List Nat → Bool) {i : Instr}
    (hi : exec i s = votePred v xm f s) : exec i s = .next (malformedNoDest s c.gid c.pc (activeMask x sp v.pred.toNat)) := by
  rw [hi, votePred, h7, voteWord, onIssuer_of_cur _ h.cur, h.laneWord_eq _ hp]
  exact congrArg Host.Outcome.next (h.reservedLanes_eq _)

/-- A ballot whose registers lie inside the budget is a vote into all of them (R75, R157). -/
theorem Issuing.ballot_eq {v : WB} (hb : InBudget x t v.d.toNat (x.width / 32)) (xm : Option XMod) : exec (.vvoteBallot v xm) s =
    voteWord ⟨.v, v.d.toNat, x.width / 32⟩ false false v xm (fun _ on _ => .val (maskOf on).toNat) s := by
  have hw : (wxOf c s).W = x.width := by rw [h.wx]; rfl
  have hfit : min (x.width / 32) (budget t.desc x.role - v.d.toNat) = x.width / 32 := by
    unfold InBudget at hb
    omega
  obtain ⟨u, hu⟩ : ∃ u, voteWord ⟨.v, v.d.toNat, x.width / 32⟩ false false v xm (fun _ on _ => .val (maskOf on).toNat) s = .next u := ⟨_, onIssuer_of_cur _ h.cur⟩
  show execVvoteBallot v xm s = _
  rw [hu, execVvoteBallot, onIssuer_of_cur _ h.cur]
  simp only [hw, h.budget_eq, hfit, lt_irrefl, decide_false, hu]

end

/-- Settles O15: the shuffle reads a lane by its number, and every vote is one form over the active lanes in order. -/
theorem crossLaneWords : Obligations.CrossLaneWords := by
  intro s c x sp t w v xm h hp hv hvd m act lanes plain pd vote ones noDest
  obtain ⟨st, vp, vd, va, vf⟩ := v
  obtain rfl : vp = w.pred := hv
  obtain rfl : vd = w.d := hvd
  refine ⟨fun hb => ?_, fun h7 h0 => ?_, fun h7 => ?_, fun h7 => ?_, fun hb => ?_, fun hb => ?_, fun hb => ?_, fun h7 h0 => ?_, fun h7 => ?_, fun h7 => ?_, fun h0 => ?_⟩
  · refine h.reg_results hp hb (fun wx i => lift1 (wx.lane 1 2 w.b.toNat i true) fun b =>
      if bit b 7 then .val 0 else wx.crossLane 1 0 w.a.toNat ((b % 128 : Nat) : Int) i) _ rfl rfl (fun _ => rfl) fun _ j => ?_
    simp only [h.lane_one, bit_eq_testBit, h.crossLane_eq, Int.natCast_nonneg, true_and, Nat.cast_lt, Int.toNat_natCast]
  · obtain rfl : vf = 0 := h0
    refine h.votePred_results (v := ⟨st, w.pred, w.d, va, 0⟩) hp h7 (fun wx on => on.length == wx.lanes.length) (fun l => if ones l = l.length then 1 else 0) rfl ?_
    simp only [lanes_activeMask, ones, ones_length, List.length_map, ofBool, beq_iff_eq]
  · refine h.votePred_results (v := ⟨st, w.pred, w.d, va, vf⟩) hp h7 (fun _ on => !on.isEmpty) (fun l => if 0 < ones l then 1 else 0) rfl ?_
    simp only [ones, ones_length, ofBool, List.length_pos_iff, Bool.not_eq_true', List.isEmpty_eq_false_iff]
  · refine h.votePred_results (v := ⟨st, w.pred, w.d, va, vf⟩) hp h7 (fun wx on => on.isEmpty || on.length == wx.lanes.length)
      (fun l => if ones l = 0 ∨ ones l = l.length then 1 else 0) rfl ?_
    simp only [lanes_activeMask, ones, ones_length, List.length_map, ofBool, Bool.or_eq_true, beq_iff_eq, List.isEmpty_iff, List.length_eq_zero_iff]
  · exact h.vote_results hp _ true (h.ballot_eq (v := ⟨st, w.pred, w.d, va, vf⟩) hb xm) (.inl rfl) (fun e => nomatch e) (fun _ => hb) rfl fun _ => rfl
  · refine h.vote_results hp _ true (i := .vvoteCount ⟨st, w.pred, w.d, va, vf⟩ xm) (f := fun _ on _ => .val on.length) rfl (.inl rfl) (fun e => nomatch e) (fun _ => hb) rfl fun _ => ?_
    simp only [ones, ones_length]
  · refine lane_results h _ hp _ false ⟨.v, w.d.toNat, 1⟩ (va != 0 || !plain) (fun i => .val i) _ (.inl rfl) (fun e => nomatch e) (fun _ => hb) (fun _ i => .val i) rfl
      (fun _ => rfl) fun j => ?_
    exact (ite_reserved (reservedFunc_eq va plain) _ _).trans (if_congr decide_eq_true_iff rfl rfl)
  · obtain rfl : vf = 0 := h0
    exact h.votePred_noDest hp h7 (fun wx on => on.length == wx.lanes.length) rfl
  · exact h.votePred_noDest hp h7 (fun _ on => !on.isEmpty) rfl
  · exact h.votePred_noDest hp h7 (fun wx on => on.isEmpty || on.length == wx.lanes.length) rfl
  · have hi : exec (.vvoteAll ⟨st, w.pred, w.d, va, vf⟩ xm) s = onIssuer s (laneWord w.pred reservedUse) := by
      exact if_pos (bne_iff_ne.2 h0)
    show exec _ s = _
    rw [hi, onIssuer_of_cur _ h.cur, h.laneWord_eq _ hp, h.reservedLanes_eq]
    rfl

end Sys2Proof.Machine
end

section
/-! PROOFS. Reductions and scans (R158). -/
namespace Sys2Proof.Machine

/-! ### Operations on the contributing values -/

/-- A fold over numbers of 32 bits is the fold over their words. -/
theorem foldl_words {f : Nat → Nat → Nat} (g : Word → Word → Word) (hf : ∀ (a : Word) b, b < 2 ^ 32 → f a.toNat b = (g a (BitVec.ofNat 32 b)).toNat) {l : List Nat}
    (hl : ∀ n ∈ l, n < 2 ^ 32) (e : Word) {m : Nat} (hm : e.toNat = m) : l.foldl f m = (l.foldl (fun a b => g a (BitVec.ofNat 32 b)) e).toNat := by
  subst hm
  induction l generalizing e with
  | nil => rfl
  | cons b l ih =>
    rw [List.forall_mem_cons] at hl
    rw [List.foldl_cons, List.foldl_cons, hf e b hl.1, ih hl.2]

/-- A choice between two words by their signed values is made on their numbers. -/
theorem signedPick_eq (a : Word) {b : Nat} (hb : b < 2 ^ 32) :
    (if sext 32 a.toNat ≤ sext 32 b then a.toNat else b) = (if a.sle (BitVec.ofNat 32 b) then a else BitVec.ofNat 32 b).toNat ∧
      (if sext 32 a.toNat ≤ sext 32 b then b else a.toNat) = (if a.sle (BitVec.ofNat 32 b) then BitVec.ofNat 32 b else a).toNat := by
  have ha : sext 32 a.toNat = a.toInt := by rw [sext_eq_toInt_of_pos (by norm_num), BitVec.ofNat_toNat, BitVec.setWidth_eq]
  rw [ha, sext_eq_toInt_of_pos (by norm_num), BitVec.sle_eq_decide]
  simp only [decide_eq_true_eq, apply_ite BitVec.toNat, BitVec.toNat_ofNat, Nat.mod_eq_of_lt hb, and_self]

/-- A choice between two words by their unsigned values is made on their numbers. -/
theorem unsignedPick_eq (a : Word) {b : Nat} (hb : b < 2 ^ 32) :
    min a.toNat b = (if a.ule (BitVec.ofNat 32 b) then a else BitVec.ofNat 32 b).toNat ∧
      max a.toNat b = (if a.ule (BitVec.ofNat 32 b) then BitVec.ofNat 32 b else a).toNat := by
  rw [Nat.min_def, Nat.max_def, BitVec.ule_eq_decide_le]
  simp only [decide_eq_true_eq, BitVec.le_def, apply_ite BitVec.toNat, BitVec.toNat_ofNat, Nat.mod_eq_of_lt hb, and_self]

theorem ofNum_ite (p : Prop) [Decidable p] (a b : Option Nat) : LVal.ofNum (if p then a else b) = if p then LVal.ofNum a else LVal.ofNum b := apply_ite ..

/-! ### The contributing lanes -/

/-- Two functions of the values of lanes agree where they agree on lists of numbers of 32 bits. -/
theorem gathered_congr {x : Group} {t : Team} {r : Nat} {l : List Nat} {f g : List Nat → LVal} (hfg : ∀ v : List Nat, (∀ n ∈ v, n < 2 ^ 32) → f v = g v) :
    gathered l (laneData x t r) f = gathered l (laneData x t r) g := by
  have hlt {i n : Nat} (hn : laneData x t r i = .val n) : n < 2 ^ 32 := by
    unfold laneData at hn
    split at hn
    · exact asLVal_lt hn
    · cases hn
  unfold gathered
  split
  · rfl
  · refine hfg _ fun n hn => ?_
    simp only [List.mem_map, exists_exists_and_eq_and] at hn
    obtain ⟨i, -, rfl⟩ := hn
    cases hi : laneData x t r i with
    | val n => exact hlt hi
    | _ => exact Nat.two_pow_pos 32

/-- A reduction or a scan (R158): MALFORMED for a reserved field or mode, the first token of a contributing lane, or what the operation makes of their values. -/
theorem Issuing.reduce_results {s : State} {c : Cur} {x : Group} {sp : Split} {t : Team} (h : Issuing s c x sp t) {w : WB} (hp : CleanPred x sp w.pred.toNat)
    (hb : InBudget x t w.d.toNat 1) {xm : Option XMod} {rsv ok : Bool} (hr : rsv = !ok) {among : Nat → Nat → Bool} {i : Instr} (hi : exec i s = reduceWord w xm rsv among s)
    (g : RMode → List Nat → LVal) (hg : w.func.toNat % 16 ≤ 10 → ∀ r (v : List Nat), (∀ n ∈ v, n < 2 ^ 32) → LVal.ofNum (reduceOp (w.func.toNat % 16) r v) = g r v) :
    let m := xm.getD plainX
    let op := w.func.toNat % 16
    let act := active x sp w.pred.toNat
    Results i s c.gid x false act ⟨.v, w.d.toNat, 1⟩ (fun i => rounded (if op ≠ 8 ∧ m.rnd = 7 then some .rne else modeOf sp m) fun r =>
      if ok && decide (op ≤ 10) && modOk { rnd := decide (8 ≤ op) } m then
        gathered ((List.range 128).filter (fun j => act j && among j i)) (fun j => laneData x t w.a.toNat j) (g r)
      else .bad .malformed) := by
  intro m op act
  have hmode : ((op == 8) = false ∧ m.rnd = 7) ↔ (op ≠ 8 ∧ m.rnd = 7) := by rw [beq_eq_false_iff_ne]
  have hrsv : (rsv || decide (10 < op) || !modOk { rnd := decide (8 ≤ op) } m) = !(ok && decide (op ≤ 10) && modOk { rnd := decide (8 ≤ op) } m) := by
    rw [hr, gt_eq_not_le, Bool.not_and, Bool.not_and]
  rw [reduceWord, onIssuer_of_cur _ h.cur, h.laneWord_eq _ hp] at hi
  refine h.finish_results _ hi (.inl rfl) (fun e => nomatch e) (fun _ => hb) fun j => ?_
  have hmj : ({ wxOf c s with act := activeMask x sp w.pred.toNat } : Wx).modeIf (op == 8) m j = if op ≠ 8 ∧ m.rnd = 7 then some .rne else modeOf sp m :=
    (h.modeIf_eq ..).trans (if_congr hmode rfl rfl)
  have hl : (activeLanes x sp w.pred.toNat).filter (fun k => among k j) = (List.range 128).filter (fun k => act k && among k j) := by
    simp only [activeLanes, List.filter_filter, Bool.and_comm, act]
  simp only [m, op] at hmj
  simp only [hmj, lanes_activeMask, hl]
  generalize (if op ≠ 8 ∧ m.rnd = 7 then some RMode.rne else modeOf sp m) = mode
  cases mode with
  | none => exact ite_self _
  | some r =>
    refine (ite_reserved hrsv _ _).trans (ite_congr rfl (fun hok => ?_) fun _ => rfl)
    simp only [Bool.and_eq_true, decide_eq_true_eq] at hok
    refine Eq.trans ?_ (gathered_congr (hg hok.1.2 r))
    have hlane : (fun k => ({ wxOf c s with act := activeMask x sp w.pred.toNat } : Wx).lane 1 (128 + k) w.a.toNat k true j) = laneData x t w.a.toNat :=
      funext fun k => h.lane_one ..
    rw [hlane]
    rfl

/-- Settles O16: both words are one form, and each operation on numbers is the statement's on words. -/
theorem reductionWords : Obligations.ReductionWords := by
  intro s c x sp t w xm h hp hb m act op word fold float combine mode isOver
  have hcombine : op ≤ 10 → ∀ r (v : List Nat), (∀ n ∈ v, n < 2 ^ 32) → LVal.ofNum (reduceOp op r v) = combine r v := by
    intro h10 r v hv
    have words {f : Nat → Nat → Nat} (g : Word → Word → Word) (e : Word) {m : Nat} (hm : e.toNat = m)
        (hf : ∀ (a : Word) b, b < 2 ^ 32 → f a.toNat b = (g a (BitVec.ofNat 32 b)).toNat) : LVal.val (v.foldl f m) = fold g e v :=
      congrArg LVal.val (foldl_words g hf hv e hm)
    have bits {b : Nat} (hb : b < 2 ^ 32) : (BitVec.ofNat 32 b).toNat = b := by rw [BitVec.toNat_ofNat, Nat.mod_eq_of_lt hb]
    have floats (y : Option Nat) : LVal.ofNum (if v.any fun n => (fp32.decode n).isSNaN then none else if v.any fun n => (fp32.decode n).isNaN then some fp32.qnan else y) =
        float v (floatResult fp32 false y) := by
      rw [ofNum_ite, ofNum_ite, ofNum_plain fp32 y]
      rfl
    simp only [combine]
    clear_value op
    interval_cases op
    · exact words (fun a b => a + b) 0 rfl fun a b hb => by rw [BitVec.toNat_add, bits hb]
    · exact words (fun a b => if a.sle b then a else b) 0x7FFFFFFF rfl fun a b hb => (signedPick_eq a hb).1
    · exact words (fun a b => if a.sle b then b else a) 0x80000000 rfl fun a b hb => (signedPick_eq a hb).2
    · exact words (fun a b => if a.ule b then a else b) 0xFFFFFFFF rfl fun a b hb => (unsignedPick_eq a hb).1
    · exact words (fun a b => if a.ule b then b else a) 0 rfl fun a b hb => (unsignedPick_eq a hb).2
    · exact words (fun a b => a &&& b) 0xFFFFFFFF rfl fun a b hb => by rw [BitVec.toNat_and, bits hb]
    · exact words (fun a b => a ||| b) 0 rfl fun a b hb => by rw [BitVec.toNat_or, bits hb]
    · exact words (fun a b => a ^^^ b) 0 rfl fun a b hb => by rw [BitVec.toNat_xor, bits hb]
    · exact ofNum_plain ..
    · exact floats _
    · exact floats _
  refine ⟨?_, ?_⟩
  · exact h.reduce_results hp hb (ok := decide (w.func.toNat < 16)) (by rw [gt_eq_not_le, Bool.not_not]) (i := .vred w xm) rfl combine hcombine
  · refine h.reduce_results hp hb (ok := decide (w.func.toNat < 32)) (by rw [gt_eq_not_le, Bool.not_not]) (i := .vscan w xm)
      (among := fun j i => if w.func.toNat.testBit 4 then j < i else j ≤ i) ?_ combine hcombine
    show execVscan w xm s = _
    simp only [execVscan, bit_eq_testBit]

end Sys2Proof.Machine
end

section
/-! PROOFS. The scalar words (R136 to R138) and the special registers (R140). -/
namespace Sys2Proof.Machine

section
variable {s : State} {c : Cur} {x : Group} {sp : Split} {t : Team} (h : Issuing s c x sp t) {w : WS} (hq : qualified x w.qual.toNat)
include h hq

/-! ### Scalar words (R136 to R138) -/

/-- A scalar word of two sources: MALFORMED for a reserved SUB, the first token, or the word that its operation gives. -/
theorem Issuing.scalarPair_results {rsv ok : Bool} (hr : rsv = !ok) {f : Nat → Nat → Nat} {i : Instr} (hi : exec i s = sWord2 w rsv f s) (g : Word → Word → Word)
    (hf : ∀ a b, a < 2 ^ 32 → b < 2 ^ 32 → f a b % 2 ^ 32 = onWords g a b) :
    Results i s c.gid x false (fun _ => true) ⟨.s, w.sd.toNat, 1⟩ (fun _ =>
      result2 ok (asLVal (x.rdS w.sa.toNat)) (asLVal (x.rdS w.sb.toNat)) (fun a b => .val (onWords g a b))) := by
  refine scalar_results h w.qual hq i false w.sd.toNat 1 _ (fun wx => if rsv then .bad .malformed
    else lift2 (wx.sReg 0 w.sa.toNat) (wx.sReg 2 w.sb.toNat) fun a b => .val (f a b % 2 ^ 32)) hi ?_
  rw [h.sReg_eq, h.sReg_eq, result2_reserved hr]
  exact ite_congr rfl (fun _ => lift2_congr _ _ _ _ fun a b ha hb => congrArg LVal.val (hf a b (asLVal_lt ha) (asLVal_lt hb))) fun _ => rfl

end

/-- A result that stands where no field is reserved. -/
theorem ite_of_iff_not {α : Type} {p q : Prop} [Decidable p] [Decidable q] (h : p ↔ ¬q) {a b : α} : (if p then a else b) = if q then b else a := by
  rw [if_congr h rfl rfl, ite_not]

/-- An operation that already gives a word. -/
theorem onWords_mod {n a b : Nat} {g : Word → Word → Word} (h : n = onWords g a b) : n % 2 ^ 32 = onWords g a b := by
  rw [h]
  exact Nat.mod_eq_of_lt (BitVec.isLt _)

theorem onWords_add (a b : Nat) : (a + b) % 2 ^ 32 = onWords (fun a b => a + b) a b := by simp [onWords]

theorem onWords_sub {b : Nat} (hb : b < 2 ^ 32) (a : Nat) : (a + (2 ^ 32 - b)) % 2 ^ 32 = onWords (fun a b => a - b) a b := by
  simp only [onWords, BitVec.toNat_sub, BitVec.toNat_ofNat]
  omega

theorem onWords_mul (a b : Nat) : (a * b) % 2 ^ 32 = onWords (fun a b => a * b) a b := by simp [onWords]

/-- The choices by signed and by unsigned values, on numbers of 32 bits. -/
theorem onWords_pick {a b : Nat} (ha : a < 2 ^ 32) (hb : b < 2 ^ 32) :
    ((if sext 32 a ≤ sext 32 b then a else b) = onWords (fun a b => if a.sle b then a else b) a b ∧
      (if sext 32 a ≤ sext 32 b then b else a) = onWords (fun a b => if a.sle b then b else a) a b) ∧
    min a b = onWords (fun a b => if a.ule b then a else b) a b ∧ max a b = onWords (fun a b => if a.ule b then b else a) a b := by
  have hs := signedPick_eq (BitVec.ofNat 32 a) hb
  have hu := unsignedPick_eq (BitVec.ofNat 32 a) hb
  rw [BitVec.toNat_ofNat, Nat.mod_eq_of_lt ha] at hs hu
  exact ⟨hs, hu⟩

/-- Settles O18: the words of two sources are one form with the operation on words, and the others give their result at once. -/
theorem scalarWords : Obligations.ScalarWords := by
  intro s c x sp t w z lit h hq a b out
  refine ⟨?_, ?_, ?_, ?_, ?_⟩
  · simp only [List.forall_mem_cons, List.not_mem_nil, false_implies, implies_true, and_true]
    refine ⟨?_, ?_, ?_, ?_, ?_, ?_, ?_, ?_, ?_, ?_, ?_, ?_⟩
    · exact h.scalarPair_results hq (ok := true) rfl (f := fun a b => a + b) rfl _ fun a b _ _ => onWords_add a b
    · exact h.scalarPair_results hq (ok := true) rfl (f := fun a b => a + (2 ^ 32 - b)) rfl _ fun a b _ hb => onWords_sub hb a
    · exact h.scalarPair_results hq (ok := true) rfl (f := fun a b => a * b) rfl _ fun a b _ _ => onWords_mul a b
    · exact h.scalarPair_results hq (ok := true) rfl (f := fun a b => if sext 32 a ≤ sext 32 b then a else b) rfl _ fun a b ha hb => onWords_mod (onWords_pick ha hb).1.1
    · exact h.scalarPair_results hq (ok := true) rfl (f := fun a b => if sext 32 a ≤ sext 32 b then b else a) rfl _ fun a b ha hb => onWords_mod (onWords_pick ha hb).1.2
    · exact h.scalarPair_results hq (ok := true) rfl (f := fun a b => min a b) rfl _ fun a b ha hb => onWords_mod (onWords_pick ha hb).2.1
    · exact h.scalarPair_results hq (ok := true) rfl (f := fun a b => max a b) rfl _ fun a b ha hb => onWords_mod (onWords_pick ha hb).2.2
    · exact h.scalarPair_results hq (ok := true) rfl (f := fun a b => a ||| b) rfl _ fun a b ha hb => onWords_mod (onWords_or ha hb)
    · exact h.scalarPair_results hq (ok := true) rfl (f := fun a b => a ^^^ b) rfl _ fun a b ha hb => onWords_mod (onWords_xor ha hb)
    · exact h.scalarPair_results hq (ok := true) rfl (f := shiftL) rfl _ fun a b _ _ => onWords_mod (shiftL_eq a b)
    · exact h.scalarPair_results hq (ok := true) rfl (f := shiftR) rfl _ fun a b ha _ => onWords_mod (shiftR_eq ha b)
    · exact h.scalarPair_results hq (ok := true) rfl (f := shiftA) rfl _ fun a b _ _ => onWords_mod (shiftA_eq a b)
  · have e := h.scalarPair_results hq (ok := w.sub == 0) rfl (i := .sand w) (f := fun a b => a &&& b) rfl (fun a b => a &&& b) fun a b ha hb => onWords_mod (onWords_and ha hb)
    simpa only [result2, beq_iff_eq] using e
  · refine scalar_results h _ hq _ false _ 1 _ (fun wx => if w.sb != 0 then .bad .malformed else wx.sReg 0 w.sa.toNat) rfl ?_
    exact (ite_of_iff_not bne_iff_ne).trans (if_congr Iff.rfl (h.sReg_eq ..) rfl)
  · refine scalar_results h _ hq _ false _ 1 _ (fun wx => if w.sub != 0 || !modOk {} { z with sreg := 0 } then .bad .malformed
      else lift3 (wx.sReg 0 w.sa.toNat) (wx.sReg 2 w.sb.toNat) (wx.sReg 4 z.sreg.toNat) fun a b c => .val ((a * b + c) % 2 ^ 32)) rfl ?_
    rw [h.sReg_eq, h.sReg_eq, h.sReg_eq]
    exact ite_of_iff_not (by simp only [Bool.or_eq_true, bne_iff_ne, Bool.not_eq_true', not_and_or, Bool.not_eq_true, ne_eq])
  · refine scalar_results h _ hq _ false _ 1 _ (fun _ => if w.sub != 0 || w.sa != 0 || w.sb != 0 then .bad .malformed else .val lit.toNat) rfl ?_
    exact ite_of_iff_not (by simp only [Bool.or_eq_true, bne_iff_ne, not_and_or, or_assoc, ne_eq])

/-! ### Special registers (R140) -/

theorem maskWord_eq (W : Nat) (m : Mask) (k : Nat) : maskWord W m k = if k < W / 32 then (m.extractLsb' (32 * k) 32).toNat else 0 := by rw [maskWord, bits_toNat]

/-- The numbers that name a special register. -/
theorem specialReg_listed {s : State} {w : Wx} {n : Nat} {v : Nat × Nat} (h : specialReg s w n = some v) :
    n ∈ [0x000, 0x001, 0x002, 0x003, 0x004, 0x005, 0x006, 0x007, 0x008, 0x00A, 0x010, 0x011, 0x012, 0x013, 0x014, 0x015, 0x016, 0x017, 0x018, 0x020] := by
  unfold specialReg at h
  split at h <;> simp at h ⊢

section
variable {s : State} {c : Cur} {x : Group} {sp : Split} {t : Team} (h : Issuing s c x sp t) {w : WS} (hq : qualified x w.qual.toNat)
include h

theorem Issuing.mark_eq : (wxOf c s).mark = x.mark := by simp [Wx.mark, h.wx, h.settled]

include hq

theorem Issuing.scalarWord_eq (f : Wx → State → State) : onIssuer s (scalarWord w.qual f) = .next (f (wxOf c s) s) := by
  rw [onIssuer_of_cur _ h.cur, scalarWord_qualified h _ hq]

/-- `SREAD` of a register owes its value to SD, or MALFORMED for a nonzero SUB. -/
theorem Issuing.sread_results {v k : Nat} (hv : specialReg s (wxOf c s) (specialNo w) = some (v, k)) (hk : k = 2 → w.sd.toNat % 2 = 0) :
    Results (.sread w) s c.gid x true (fun _ => true) ⟨.s, w.sd.toNat, k⟩ (fun _ => if w.sub = 0 then .val v else .bad .malformed) := by
  have hodd : (k == 2 && oddReg w.sd.toNat) = false := by simpa [oddReg] using hk
  obtain ⟨ws, hrest, hgrp, hw⟩ := finishS_spec true w.sd.toNat k (if w.sub = 0 then .val v else .bad .malformed) (wxOf c s) s x h.group h.resident
  refine ⟨_, ws, (h.scalarWord_eq hq _).trans (congrArg Host.Outcome.next ?_), hrest, hgrp, hw⟩
  simp only [hv, hodd, Bool.false_eq_true, if_false]
  rw [ite_of_iff_not (q := w.sub = 0) bne_iff_ne]

/-- `SREAD` of an unlisted number, or of two words into an odd register, poisons SD alone. -/
theorem Issuing.sread_bad (hv : ∀ v, specialReg s (wxOf c s) (specialNo w) = some v → v.2 = 2 ∧ w.sd.toNat % 2 = 1) :
    Results (.sread w) s c.gid x true (fun _ => true) ⟨.s, w.sd.toNat, 1⟩ (fun _ => .bad .malformed) := by
  obtain ⟨ws, hrest, hgrp, hw⟩ := finishS_spec true w.sd.toNat 1 (.bad .malformed) (wxOf c s) s x h.group h.resident
  refine ⟨_, ws, (h.scalarWord_eq hq _).trans (congrArg Host.Outcome.next ?_), hrest, hgrp, hw⟩
  cases e : specialReg s (wxOf c s) (specialNo w) with
  | none => rfl
  | some v =>
    obtain ⟨h2, hodd⟩ := hv v e
    simp [h2, oddReg, hodd]

end

/-- Settles O20: the list of registers is the model's, SREAD is a word with a late result, and SWRITE has one register to write. -/
theorem specialRegisters : Obligations.SpecialRegisters := by
  intro s c x sp t w h hq n word clk regs out
  have hregs : ∀ e ∈ regs, specialReg s (wxOf c s) e.1 = some e.2 := by
    simp only [regs, word, ← maskWord_eq, List.forall_mem_cons, List.not_mem_nil, false_implies, implies_true, and_true]
    have hmark : (wxOf c s).mark = x.mark := h.mark_eq
    rw [h.wx] at hmark ⊢
    exact ⟨rfl, rfl, rfl, rfl, rfl, rfl, rfl, rfl, rfl, rfl, rfl, rfl, rfl, rfl, rfl, rfl, rfl, rfl, rfl, congrArg (fun m : Word => some (m.toNat, 1)) hmark⟩
  refine ⟨fun e he hn h0 hk => ?_, fun e he hn h2 hodd => ?_, fun e he hn h0 hk => ?_, fun hn => ?_, fun h0 hn hp => ?_, fun h0 hn hp => ?_, fun hr => ?_⟩
  · simpa only [h0, if_true] using h.sread_results hq ((congrArg _ hn).trans (hregs e he)) hk
  · refine h.sread_bad hq fun v hv => ?_
    obtain rfl : e.2 = v := Option.some.inj ((hregs e he).symm.trans ((congrArg _ hn.symm).trans hv))
    exact ⟨h2, hodd⟩
  · simpa only [h0, if_false] using h.sread_results hq ((congrArg _ hn).trans (hregs e he)) hk
  · refine h.sread_bad hq fun v hv => ?_
    obtain ⟨e, he, hen⟩ : ∃ e ∈ regs, e.1 = n := List.mem_map.1 (specialReg_listed hv)
    exact absurd hen.symm (hn e he)
  · have hok : (w.sub != 0 || specialNo w != 0x020) = false := by simpa [specialNo, h0] using hn
    show onIssuer s (scalarWord w.qual _) = _
    rw [h.scalarWord_eq hq]
    simp only [hok, h.sReg_eq, asLVal, hp, Bool.false_eq_true, if_false, BitVec.ofNat_toNat, BitVec.setWidth_eq]
    exact congrArg Host.Outcome.next (updGrp_of_find h.group _)
  · have hok : (w.sub != 0 || specialNo w != 0x020) = false := by simpa [specialNo, h0] using hn
    show onIssuer s (scalarWord w.qual _) = _
    rw [h.scalarWord_eq hq]
    simp only [hok, h.sReg_eq, asLVal, hp, Bool.false_eq_true, if_false, if_true]
    exact congrArg Host.Outcome.next (h.flagTok_eq _)
  · have hbad : (w.sub != 0 || specialNo w != 0x020) = true := by simpa only [specialNo, Bool.or_eq_true, bne_iff_ne] using hr
    show onIssuer s (scalarWord w.qual _) = _
    rw [h.scalarWord_eq hq]
    simp only [hbad, if_true, h.reservedUse_eq]

end Sys2Proof.Machine
end
